-- ==== Sys2Proof/Word.lean ====
section
/-! DEFINITION. The word types of the Iluden 9 (R2): bytes, 32-bit registers, 64-bit register pairs
and instruction words, and 32-lane masks. -/

namespace Sys2Proof

/-- One byte (R2). -/
abbrev Byte := BitVec 8

/-- A 32-bit register, or one lane of a v-register (R73). -/
abbrev Word := BitVec 32

/-- A 64-bit value: an even/odd register pair, an address or an instruction word (R2). -/
abbrev Dword := BitVec 64

/-- A mask of the 32 lanes of a warp, or of the 32 words of a line (R187). -/
abbrev Mask := BitVec 32

/-- The lane numbers of a warp, ascending. -/
def lanes : List Nat := List.range 32

/-- A 64-bit value from its low and high registers (R2). -/
def joinWords (lo hi : Word) : Dword := hi ++ lo

/-- Bits 31:0 of a pair, held in its even register (R2). -/
def loWord (x : Dword) : Word := x.setWidth 32

/-- Bits 63:32 of a pair, held in its odd register (R2). -/
def hiWord (x : Dword) : Word := (x >>> 32).setWidth 32

end Sys2Proof
end

