-- ==== Sys2Proof/Machine/Numbers.lean ====
section
/-! DEFINITION. The number formats (R74 to R80), decoding, the exact arithmetic of IEEE 754-2019 with the module's NaN
and zero rules (R140), and round_to (R43, R89 to R92). A finite value is kept exactly, as a sign, a natural number and
a power of two. -/

namespace Sys2Proof.Machine

/-- A floating value: a NaN with its fraction left-aligned in 52 bits, an infinity, or sign x m x 2^e. -/
inductive Num where
  | nan (neg quiet : Bool) (frac : Nat)
  | inf (neg : Bool)
  | fin (neg : Bool) (m : Nat) (e : Int)
  deriving DecidableEq, Repr

/-- The sticky flags of FPSTAT (R98). -/
abbrev Flags := BitVec 6

def fIV : Flags := 0x01#6
def fDZ : Flags := 0x02#6
def fOF : Flags := 0x04#6
def fUF : Flags := 0x08#6
def fNX : Flags := 0x10#6
def fST : Flags := 0x20#6

def flagIf (b : Bool) (f : Flags) : Flags := if b then f else 0#6

/-- What codes a format has beyond the finite ones (R74). -/
inductive Top where
  /-- infinity and NaNs in the top exponent -/
  | ieee
  /-- one NaN magnitude, 0x7F, and no infinity -/
  | oneNan
  /-- neither -/
  | finite
  deriving DecidableEq, Repr

/-- A plain floating format (R74); shift is where the code stands in its word (F19: R76). -/
structure FpFmt where
  ebits : Nat
  mbits : Nat
  bias : Nat
  top : Top
  shift : Nat := 0
  narrow : Bool := true
  deriving DecidableEq, Repr

def fp64 : FpFmt := { ebits := 11, mbits := 52, bias := 1023, top := .ieee, narrow := false }
def fp32 : FpFmt := { ebits := 8, mbits := 23, bias := 127, top := .ieee, narrow := false }
def f19 : FpFmt := { ebits := 8, mbits := 10, bias := 127, top := .ieee, shift := 13 }
def bf16 : FpFmt := { ebits := 8, mbits := 7, bias := 127, top := .ieee }
def fp16 : FpFmt := { ebits := 5, mbits := 10, bias := 15, top := .ieee }
def e4m3 : FpFmt := { ebits := 4, mbits := 3, bias := 7, top := .oneNan }
def e5m2 : FpFmt := { ebits := 5, mbits := 2, bias := 15, top := .ieee }
def e3m2 : FpFmt := { ebits := 3, mbits := 2, bias := 3, top := .finite }
def e2m3 : FpFmt := { ebits := 2, mbits := 3, bias := 1, top := .finite }
def e2m1 : FpFmt := { ebits := 2, mbits := 1, bias := 1, top := .finite }

def FpFmt.width (f : FpFmt) : Nat := 1 + f.ebits + f.mbits

/-- Exponent of the smallest normal value. -/
def FpFmt.emin (f : FpFmt) : Int := 1 - (f.bias : Int)

/-- Code, without sign, of the largest finite value (R74). -/
def FpFmt.maxCode (f : FpFmt) : Nat :=
  match f.top with
  | .ieee => (2 ^ f.ebits - 1) * 2 ^ f.mbits - 1
  | .oneNan => 2 ^ (f.ebits + f.mbits) - 2
  | .finite => 2 ^ (f.ebits + f.mbits) - 1

/-- Significand and exponent of the finite value with code c, without sign (R75). -/
def FpFmt.magOf (f : FpFmt) (c : Nat) : Nat × Int :=
  let e := c / 2 ^ f.mbits
  let t := c % 2 ^ f.mbits
  if e = 0 then (t, f.emin - f.mbits) else (t + 2 ^ f.mbits, (e : Int) - f.bias - f.mbits)

/-- value(f, u) (R42, R74, R75, R77): u is read at the format's place in its word. -/
def FpFmt.decode (f : FpFmt) (u : Nat) : Num :=
  let c := u / 2 ^ f.shift % 2 ^ f.width
  let neg := c / 2 ^ (f.ebits + f.mbits) = 1
  let mag := c % 2 ^ (f.ebits + f.mbits)
  let frac := mag % 2 ^ f.mbits
  match f.top with
  | .ieee =>
    if mag / 2 ^ f.mbits = 2 ^ f.ebits - 1 then
      if frac = 0 then .inf neg
      else .nan neg (decide (2 ^ (f.mbits - 1) ≤ frac)) (frac * 2 ^ (52 - f.mbits))
    else .fin neg (f.magOf mag).1 (f.magOf mag).2
  | .oneNan => if mag = 2 ^ (f.ebits + f.mbits) - 1 then .nan neg true (frac * 2 ^ (52 - f.mbits)) else .fin neg (f.magOf mag).1 (f.magOf mag).2
  | .finite => .fin neg (f.magOf mag).1 (f.magOf mag).2

/-- The code of a sign and a magnitude code, at the format's place in its word. -/
def FpFmt.place (f : FpFmt) (neg : Bool) (mag : Nat) : Nat :=
  ((if neg then 2 ^ (f.ebits + f.mbits) else 0) + mag) * 2 ^ f.shift

/-- Is the code a subnormal of the format (R92)? -/
def FpFmt.subnormal (f : FpFmt) (u : Nat) : Bool :=
  let mag := u / 2 ^ f.shift % 2 ^ (f.ebits + f.mbits)
  decide (mag ≠ 0) && decide (mag < 2 ^ f.mbits)

/-- A narrow source under CTXCFG.DNF: a subnormal reads as a zero of its sign (R92). -/
def FpFmt.decodeSrc (f : FpFmt) (dnf : Bool) (u : Nat) : Num :=
  match f.decode u with
  | .fin neg m e => if dnf && f.narrow && f.subnormal u then .fin neg 0 0 else .fin neg m e
  | x => x

/-- Number of bits of m. -/
def bitLen (m : Nat) : Nat := if m = 0 then 0 else Nat.log2 m + 1

/-- The default NaN of every format (R77). -/
def defaultNan : Num := .nan false true (2 ^ 51)

def Num.isNan : Num → Bool
  | .nan .. => true
  | _ => false

def Num.isSnan : Num → Bool
  | .nan _ q _ => !q
  | _ => false

def Num.isInf : Num → Bool
  | .inf _ => true
  | _ => false

def Num.isZero : Num → Bool
  | .fin _ m _ => m == 0
  | _ => false

def Num.neg? : Num → Bool
  | .nan n _ _ => n
  | .inf n => n
  | .fin n _ _ => n

def Num.negate : Num → Num
  | .nan n q f => .nan (!n) q f
  | .inf n => .inf (!n)
  | .fin n m e => .fin (!n) m e

def Num.abs : Num → Num
  | .nan _ q f => .nan false q f
  | .inf _ => .inf false
  | .fin _ m e => .fin false m e

/-- Made quiet (R77): the top fraction bit set. -/
def Num.quieten : Num → Num
  | .nan n _ f => .nan n true (if f < 2 ^ 51 then f + 2 ^ 51 else f)
  | x => x

/-- An integer as an exact value; zero is +0. -/
def Num.ofInt (x : Int) : Num := .fin (decide (x < 0)) x.natAbs 0

/-- Does a magnitude that is t units and a remainder r of 2^k round away from zero? Modes: 0 RNE, 1 RTZ, 2 RUP,
3 RDN, 4 RS with seed (R43). -/
def roundsUp (mode : Nat) (neg : Bool) (t r k seed : Nat) : Bool :=
  match mode with
  | 0 => decide (2 ^ k < 2 * r) || (decide (2 * r = 2 ^ k) && decide (t % 2 = 1))
  | 2 => !neg && decide (r ≠ 0)
  | 3 => neg && decide (r ≠ 0)
  | 4 => decide (2 ^ 32 ≤ r * 2 ^ 32 / 2 ^ k + seed)
  | _ => false

/-- A magnitude m x 2^e in units of 2^u, rounded; and whether it was exact. -/
def roundUnits (mode : Nat) (neg : Bool) (m : Nat) (e u : Int) (seed : Nat) : Nat × Bool :=
  if u ≤ e then (m * 2 ^ (e - u).toNat, true)
  else
    let k := (u - e).toNat
    let t := m / 2 ^ k
    let r := m % 2 ^ k
    (if roundsUp mode neg t r k seed then t + 1 else t, r == 0)

/-- Is t x 2^u above the format's largest finite value? -/
def FpFmt.beyond (f : FpFmt) (t : Nat) (u : Int) : Bool :=
  let (mm, me) := f.magOf f.maxCode
  if me ≤ u then decide (mm < t * 2 ^ (u - me).toNat) else decide (mm * 2 ^ (me - u).toNat < t)

/-- Code of q x 2^u, a value that the format holds. -/
def FpFmt.codeOf (f : FpFmt) (q : Nat) (u : Int) : Nat :=
  if q = 0 then 0
  else
    let lead := (bitLen q : Int) - 1 + u
    let m := if lead < f.emin then f.emin - f.mbits else lead - f.mbits
    let sig := if m ≤ u then q * 2 ^ (u - m).toNat else q / 2 ^ (m - u).toNat
    if sig < 2 ^ f.mbits then sig else (lead + f.bias).toNat * 2 ^ f.mbits + (sig - 2 ^ f.mbits)

/-- round_to(f, x, mode, sat, l) with the seed of lane l (R43, R89, R90); flush is DNF for a narrow destination (R92).
Answers the code and the flags. The SEED step is the caller's (seedNext). -/
def roundTo (f : FpFmt) (x : Num) (mode : Nat) (sat : Bool) (seed : Nat) (flush : Bool := false) : Nat × Flags :=
  match x with
  | .nan neg quiet frac =>
    match f.top with
    | .ieee =>
      if f = e5m2 then (f.place neg 0x7E, flagIf (!quiet) fIV)
      else
        let t := frac / 2 ^ (52 - f.mbits) % 2 ^ (f.mbits - 1) + 2 ^ (f.mbits - 1)
        (f.place neg ((2 ^ f.ebits - 1) * 2 ^ f.mbits + t), flagIf (!quiet) fIV)
    | .oneNan => (f.place neg (2 ^ (f.ebits + f.mbits) - 1), flagIf (!quiet) fIV)
    | .finite => (0, fIV)
  | .inf neg =>
    if f.top = .ieee ∧ ¬ sat then (f.place neg ((2 ^ f.ebits - 1) * 2 ^ f.mbits), 0#6)
    else (f.place neg f.maxCode, fST ||| fNX)
  | .fin neg m e =>
    if m = 0 then (f.place neg 0, 0#6)
    else
      let lead := (bitLen m : Int) - 1 + e
      if flush && f.narrow && decide (lead < f.emin) then (f.place neg 0, fUF ||| fNX)
      else
        let uFree := lead - f.mbits
        let tFree := (roundUnits mode neg m e uFree seed).1
        if f.beyond tFree uFree then
          let away := mode == 0 || mode == 4 || (mode == 2 && !neg) || (mode == 3 && neg)
          if away && !sat && f.top == .ieee then (f.place neg ((2 ^ f.ebits - 1) * 2 ^ f.mbits), fOF ||| fNX)
          else (f.place neg f.maxCode, fOF ||| fNX ||| fST)
        else
          let u := if lead < f.emin then f.emin - f.mbits else uFree
          let (q, exact) := roundUnits mode neg m e u seed
          let tiny := !exact && decide ((bitLen tFree : Int) - 1 + uFree < f.emin)
          (f.place neg (f.codeOf q u), flagIf (!exact) fNX ||| flagIf tiny fUF)

/-- seed_next (R44). -/
def seedNext (s : Word) : Word :=
  let a := if s = 0#32 then 1#32 else s
  let b := a ^^^ (a <<< 13)
  let c := b ^^^ (b >>> 17)
  c ^^^ (c <<< 5)

/-- A conversion into an integer of n bits (R91, R90): rounded, then clamped to the range. -/
def roundToInt (signed : Bool) (n : Nat) (x : Num) (mode seed : Nat) : Int × Flags :=
  let lo : Int := if signed then -(2 ^ (n - 1) : Nat) else 0
  let hi : Int := if signed then (2 ^ (n - 1) : Nat) - 1 else (2 ^ n : Nat) - 1
  match x with
  | .nan .. => (0, fIV)
  | .inf neg => (if neg then lo else hi, fST)
  | .fin neg m e =>
    let (q, exact) := roundUnits mode neg m e 0 seed
    let v : Int := if neg then -(q : Int) else q
    if v < lo then (lo, fST ||| fNX) else if hi < v then (hi, fST ||| fNX) else (v, flagIf (!exact) fNX)

/-! ## Exact arithmetic -/

/-- The sum of two finite values, the exact zero signed as R140 states (rdn: the mode is RDN). -/
def addFin (rdn : Bool) (n1 : Bool) (m1 : Nat) (e1 : Int) (n2 : Bool) (m2 : Nat) (e2 : Int) : Num :=
  let e := if e1 ≤ e2 then e1 else e2
  let a : Int := (m1 * 2 ^ (e1 - e).toNat : Nat)
  let b : Int := (m2 * 2 ^ (e2 - e).toNat : Nat)
  let x := (if n1 then -a else a) + (if n2 then -b else b)
  if x = 0 then .fin (if n1 = n2 then n1 else rdn) 0 0 else .fin (decide (x < 0)) x.natAbs e

/-- First NaN in order, made quiet (R140). -/
def firstNan : List Num → Option Num
  | [] => none
  | x :: xs => if x.isNan then some x.quieten else firstNan xs

def anySnan (xs : List Num) : Flags := flagIf (xs.any Num.isSnan) fIV

/-- a + b before rounding (R140, R141). -/
def addNum (rdn : Bool) (a b : Num) : Num × Flags :=
  match firstNan [a, b] with
  | some x => (x, anySnan [a, b])
  | none =>
    match a, b with
    | .inf n1, .inf n2 => if n1 = n2 then (.inf n1, 0#6) else (defaultNan, fIV)
    | .inf n, _ => (.inf n, 0#6)
    | _, .inf n => (.inf n, 0#6)
    | .fin n1 m1 e1, .fin n2 m2 e2 => (addFin rdn n1 m1 e1 n2 m2 e2, 0#6)
    | x, _ => (x, 0#6)

/-- a x b before rounding (R140, R141). -/
def mulNum (a b : Num) : Num × Flags :=
  match firstNan [a, b] with
  | some x => (x, anySnan [a, b])
  | none =>
    match a, b with
    | .inf n1, y => if y.isZero then (defaultNan, fIV) else (.inf (n1 != y.neg?), 0#6)
    | x, .inf n2 => if x.isZero then (defaultNan, fIV) else (.inf (x.neg? != n2), 0#6)
    | .fin n1 m1 e1, .fin n2 m2 e2 => (.fin (n1 != n2) (m1 * m2) (e1 + e2), 0#6)
    | x, _ => (x, 0#6)

/-- a x b + c before the one rounding (R140, R141). -/
def fmaNum (rdn : Bool) (a b c : Num) : Num × Flags :=
  let bad := (a.isInf && b.isZero) || (a.isZero && b.isInf)
  match firstNan [a, b, c] with
  | some x => (x, anySnan [a, b, c] ||| flagIf bad fIV)
  | none =>
    if bad then (defaultNan, fIV)
    else addNum rdn (mulNum a b).1 c

/-- The magnitudes' order: -1, 0 or 1 by sign, for values that are no NaN. -/
def cmpFin (n1 : Bool) (m1 : Nat) (e1 : Int) (n2 : Bool) (m2 : Nat) (e2 : Int) : Ordering :=
  let e := if e1 ≤ e2 then e1 else e2
  let a : Int := (m1 * 2 ^ (e1 - e).toNat : Nat)
  let b : Int := (m2 * 2 ^ (e2 - e).toNat : Nat)
  compare (if n1 then -a else a) (if n2 then -b else b)

/-- The order of two values; none where one is a NaN. -/
def cmpNum (a b : Num) : Option Ordering :=
  match a, b with
  | .nan .., _ => none
  | _, .nan .. => none
  | .inf n1, .inf n2 => some (if n1 = n2 then .eq else if n1 then .lt else .gt)
  | .inf n, _ => some (if n then .lt else .gt)
  | _, .inf n => some (if n then .gt else .lt)
  | .fin n1 m1 e1, .fin n2 m2 e2 => some (cmpFin n1 m1 e1 n2 m2 e2)

/-- minimumNumber and maximumNumber (R142): which operand, 0 for A and 1 for B, and the flags. -/
def pickNum (max : Bool) (a b : Num) : Nat × Flags :=
  let fl := anySnan [a, b]
  if a.isNan && b.isNan then (0, fl)
  else if a.isNan then (1, fl)
  else if b.isNan then (0, fl)
  else
    match cmpNum a b with
    | some .lt => (if max then 1 else 0, fl)
    | some .gt => (if max then 0 else 1, fl)
    | _ => (if a.neg? = max then 1 else 0, fl)

/-! ## Quotients and square roots, correctly rounded through a sticky bit -/

/-- Square root of n, rounded down: k is at least half the number of its bits. -/
def isqrtFrom (n : Nat) : Nat → Nat → Nat
  | 0, r => r
  | k + 1, r => if (r + 2 ^ k) * (r + 2 ^ k) ≤ n then isqrtFrom n k (r + 2 ^ k) else isqrtFrom n k r

def isqrt (n : Nat) : Nat := isqrtFrom n (bitLen n / 2 + 1) 0

/-- x / y of finite values with y not zero: at least 130 quotient bits and a sticky bit below them. -/
def divFin (n1 : Bool) (m1 : Nat) (e1 : Int) (n2 : Bool) (m2 : Nat) (e2 : Int) : Num :=
  if m1 = 0 then .fin (n1 != n2) 0 0
  else
    let k := 130 + bitLen m2
    let q := m1 * 2 ^ k / m2
    let r := m1 * 2 ^ k % m2
    .fin (n1 != n2) (2 * q + if r = 0 then 0 else 1) (e1 - e2 - k - 1)

/-- a / b before rounding, with the flags of IEEE 754-2019. -/
def divNum (a b : Num) : Num × Flags :=
  match firstNan [a, b] with
  | some x => (x, anySnan [a, b])
  | none =>
    match a, b with
    | .inf _, .inf _ => (defaultNan, fIV)
    | .inf n, y => (.inf (n != y.neg?), 0#6)
    | x, .inf n => (.fin (x.neg? != n) 0 0, 0#6)
    | .fin n1 m1 e1, .fin n2 m2 e2 =>
      if m2 = 0 then if m1 = 0 then (defaultNan, fIV) else (.inf (n1 != n2), fDZ)
      else (divFin n1 m1 e1 n2 m2 e2, 0#6)
    | x, _ => (x, 0#6)

/-- The square root before rounding. -/
def sqrtNum (a : Num) : Num × Flags :=
  match a with
  | .nan .. => (a.quieten, anySnan [a])
  | .inf neg => if neg then (defaultNan, fIV) else (.inf false, 0#6)
  | .fin neg m e =>
    if m = 0 then (a, 0#6)
    else if neg then (defaultNan, fIV)
    else
      let odd := e % 2 ≠ 0
      let m1 := (if odd then 2 * m else m) * 2 ^ 260
      let e1 : Int := ((if odd then e - 1 else e) - 260) / 2
      let r := isqrt m1
      (.fin false (2 * r + if r * r = m1 then 0 else 1) (e1 - 1), 0#6)

/-! ## FP32 shortcuts used by the Drover and the slice ALU -/

def decF32 (x : Word) : Num := fp32.decode x.toNat

def decF64 (x : Dword) : Num := fp64.decode x.toNat

/-- round_to(FP32, x, mode, 0, -), no SEED. -/
def rndF32 (x : Num) (mode : Nat) : Word × Flags :=
  let r := roundTo fp32 x mode false 0
  (BitVec.ofNat 32 r.1, r.2)

def rndF64 (x : Num) (mode : Nat) : Dword × Flags :=
  let r := roundTo fp64 x mode false 0
  (BitVec.ofNat 64 r.1, r.2)

/-- |x| as R314 and R45 map a residual: -0 to +0, a NaN to infinity. -/
def residOf (x : Word) : Word :=
  if (decF32 x).isNan then 0x7F800000#32 else x &&& 0x7FFFFFFF#32

/-- key_of(r) (R45). -/
def keyOf (r : Word) : Word := 0x7F800000#32 - residOf r

/-- Sum of two FP32 values rounded upward, no flags (R312, R317, R324). -/
def addUp (a b : Word) : Word := (rndF32 (addNum false (decF32 a) (decF32 b)).1 2).1

/-- a > b of FP32 values that are no NaN. -/
def gtF32 (a b : Word) : Bool := cmpNum (decF32 a) (decF32 b) == some .gt

end Sys2Proof.Machine
end

