-- ==== Sys2Proof/Machine/Formats.lean ====
section
/-! DEFINITION. The 28 matrix operand formats (R81), their element formats (R148) and the fields of FMT (R95, R96). -/

namespace Sys2Proof.Machine

/-- What an element code stands for (R81). -/
inductive Elem where
  | fp (f : FpFmt)
  | int (signed : Bool) (bits : Nat)
  /-- INT8 x 2^-6 -/
  | mxint8
  /-- E2M1 with the extra value (R85) -/
  | e2m1x
  /-- a code of 4 or 2 bits into a codebook (R88) -/
  | book (bits : Nat)
  deriving DecidableEq, Repr

/-- The scale of a format (R79, R80, R81). -/
inductive ScaleKind where
  | none
  /-- E8M0 per 32 elements -/
  | e8m0
  /-- E4M3 per 16 elements -/
  | e4m3
  deriving DecidableEq, Repr

structure MatFmt where
  elem : Elem
  scale : ScaleKind
  /-- nominal width of the class in bits: 64, 32, 19, 16, 8 or 4 -/
  cls : Nat
  deriving DecidableEq, Repr

/-- The table of R81; none for the reserved codes. -/
def matFmt : Nat → Option MatFmt
  | 0 => some ⟨.fp fp64, .none, 64⟩
  | 1 => some ⟨.fp fp32, .none, 32⟩
  | 2 => some ⟨.fp f19, .none, 19⟩
  | 3 => some ⟨.fp bf16, .none, 16⟩
  | 4 => some ⟨.fp fp16, .none, 16⟩
  | 5 => some ⟨.fp e4m3, .none, 8⟩
  | 6 => some ⟨.fp e5m2, .none, 8⟩
  | 7 => some ⟨.fp e3m2, .none, 8⟩
  | 8 => some ⟨.fp e2m3, .none, 8⟩
  | 9 => some ⟨.fp e2m1, .none, 4⟩
  | 10 => some ⟨.int true 8, .none, 8⟩
  | 11 => some ⟨.int false 8, .none, 8⟩
  | 12 => some ⟨.int true 4, .none, 4⟩
  | 13 => some ⟨.int false 4, .none, 4⟩
  | 14 => some ⟨.fp e4m3, .e8m0, 8⟩
  | 15 => some ⟨.fp e5m2, .e8m0, 8⟩
  | 16 => some ⟨.fp e3m2, .e8m0, 8⟩
  | 17 => some ⟨.fp e2m3, .e8m0, 8⟩
  | 18 => some ⟨.fp e2m1, .e8m0, 4⟩
  | 19 => some ⟨.mxint8, .e8m0, 8⟩
  | 20 => some ⟨.fp e2m1, .e4m3, 4⟩
  | 21 => some ⟨.int true 4, .e4m3, 4⟩
  | 22 => some ⟨.e2m1x, .none, 4⟩
  | 23 => some ⟨.e2m1x, .e4m3, 4⟩
  | 24 => some ⟨.book 4, .none, 4⟩
  | 25 => some ⟨.book 4, .e8m0, 4⟩
  | 26 => some ⟨.book 2, .none, 4⟩
  | 27 => some ⟨.book 2, .e8m0, 4⟩
  | _ => none

/-- K of a width class (R81). -/
def kOfClass (cls : Nat) : Nat :=
  match cls with
  | 64 => 8
  | 32 => 16
  | 19 => 16
  | 16 => 32
  | 8 => 64
  | _ => 128

/-! ## FMT (R95) -/

def fmtA (f : Word) : Nat := (f.extractLsb' 0 5).toNat
def fmtB (f : Word) : Nat := (f.extractLsb' 5 5).toNat
def fmtRound (f : Word) : Nat := (f.extractLsb' 10 3).toNat
def fmtSat (f : Word) : Bool := f.getLsbD 13
def fmtSmode (f : Word) : Nat := (f.extractLsb' 14 2).toNat
def fmtCba (f : Word) : Nat := (f.extractLsb' 16 2).toNat
def fmtCbb (f : Word) : Nat := (f.extractLsb' 18 2).toNat
def fmtXven (f : Word) : Bool := f.getLsbD 20

/-- R96: no reserved value. -/
def fmtLegal (f : Word) : Bool :=
  f.extractLsb' 21 11 == 0#11 && decide (fmtRound f ≤ 4) && decide (fmtA f ≤ 27) && decide (fmtB f ≤ 27)

/-- The element format that PACK, UNPK and COMP48 take from FMT.AFMT under b32 (R148); none where R148 refuses it. -/
def packElem (afmt : Nat) : Option Elem :=
  if afmt < 5 ∨ 24 ≤ afmt then none
  else (matFmt afmt).map fun x => x.elem

/-- Bits that an element takes in a register or a tile row: 6-bit codes take a byte (R148, R283). -/
def elemBits : Elem → Nat
  | .fp f => if f.width = 6 then 8 else if f.shift ≠ 0 then 32 else f.width
  | .int _ n => n
  | .mxint8 => 8
  | .e2m1x => 4
  | .book n => n

/-- Significant bits of an element's code. -/
def elemCodeBits : Elem → Nat
  | .fp f => if f.shift ≠ 0 then 32 else f.width
  | e => elemBits e

/-- value(fmt, element) of a code that is no codebook's; xva is the extra value where FMT.XVEN = 1 (R81, R85);
under DNF an extra value that is a BF16 subnormal is flushed as a code of the format is, which R92 leaves open (log 84). -/
def elemValue (e : Elem) (xv : Option Word) (dnf : Bool) (u : Nat) : Num :=
  match e with
  | .fp f => f.decodeSrc dnf u
  | .int signed n =>
    Num.ofInt (if signed ∧ 2 ^ (n - 1) ≤ u % 2 ^ n then (u % 2 ^ n : Int) - (2 ^ n : Nat) else (u % 2 ^ n : Int))
  | .mxint8 =>
    match Num.ofInt (if 128 ≤ u % 256 then (u % 256 : Int) - 256 else (u % 256 : Int)) with
    | .fin n m _ => .fin n m (-6)
    | x => x
  | .e2m1x =>
    if u % 16 = 8 then
      match xv with
      | some x => bf16.decodeSrc dnf x.toNat
      | none => .fin true 0 0
    else e2m1.decodeSrc dnf u
  | .book _ => .fin false 0 0

/-- A conversion into an element format (R148, R91, R86): the code and the flags. -/
def elemRound (e : Elem) (x : Num) (mode : Nat) (sat : Bool) (seed : Nat) (dnf : Bool) : Nat × Flags :=
  match e with
  | .fp f => roundTo f x mode sat seed dnf
  | .int signed n =>
    let r := roundToInt signed n x mode seed
    (r.1.emod (2 ^ n : Nat) |>.toNat, r.2)
  | .mxint8 =>
    let y := match x with | .fin n m e => Num.fin n m (e + 6) | z => z
    let r := roundToInt true 8 y mode seed
    (r.1.emod 256 |>.toNat, r.2)
  | .e2m1x =>
    let r := roundTo e2m1 x mode sat seed dnf
    (if r.1 = 8 then 0 else r.1, r.2)
  | .book _ => (0, 0#6)

end Sys2Proof.Machine
end

