-- ==== Sys2Proof/Syntax.lean ====
section
/-! DEFINITION. The instructions as the program and the opcode table name them: operand codes (R57, R60), the
six formats and the pair word (R56, R61, R35), and the inductive Instr with one constructor per row of the
opcode table. -/

namespace Sys2Proof

/-- The special operands of R60. -/
inductive Special where
  | lane | warp | team | core | exec | zero | ctx | cluster | quad | die | blk | corder | twarp | lmlt | ones
  deriving DecidableEq, Repr

/-- What a 9-bit operand code names (R57). A predicate field of R106 reads as v0 to v15: the instruction that
holds it takes the number as a predicate's. -/
inductive Operand where
  | v (n : Fin 256)
  | s (n : Fin 128)
  | imm (n : Fin 32)
  | fp (n : Fin 16)
  | sp (x : Special)
  | none
  deriving DecidableEq, Repr

/-- The common fields of an instruction word but for its opcode (R56). -/
structure Ctl where
  /-- bit 63, the switch marker -/
  sw : Bool
  /-- bit 62, guard enable -/
  g  : Bool
  /-- bits 61:58, the guard predicate -/
  gp : BitVec 4
  /-- bit 57, the sense -/
  n  : Bool
  deriving DecidableEq, Repr

/-- Format V (R61). -/
structure VFields where
  d : Operand
  a : Operand
  b : Operand
  c : Operand
  ty : BitVec 4
  minor : BitVec 5
  mod : BitVec 4
  deriving DecidableEq, Repr

/-- Format K (R61). -/
structure KFields where
  d : Operand
  func : BitVec 8
  imm : Word
  deriving DecidableEq, Repr

/-- Format M (R61). -/
structure MFields where
  data : Operand
  greg : BitVec 3
  off : Operand
  imm12 : BitVec 12
  size : BitVec 3
  hint : BitVec 3
  order : BitVec 2
  scope : BitVec 4
  minor : BitVec 4
  deriving DecidableEq, Repr

/-- Format C (R61). -/
structure CFields where
  src : Operand
  func : BitVec 8
  target : Word
  deriving DecidableEq, Repr

/-- Format E (R61). -/
structure EFields where
  d : Operand
  a : Operand
  b : Operand
  fold : BitVec 6
  func : BitVec 16
  deriving DecidableEq, Repr

/-- Format X (R61). -/
structure XFields where
  q : BitVec 4
  ap : BitVec 7
  bp : BitVec 7
  lp : BitVec 7
  mt : BitVec 8
  func : BitVec 16
  deriving DecidableEq, Repr

/-- The two halves of a pair word (R35); z is bit 0, which R68 wants zero. -/
structure PairFields where
  opA : BitVec 4
  dA : BitVec 7
  aA : BitVec 7
  bA : BitVec 8
  opB : BitVec 4
  dB : BitVec 7
  aB : BitVec 7
  bB : BitVec 8
  z : BitVec 1
  deriving DecidableEq, Repr

/-- The fields below the opcode, by format (R61). -/
inductive Body where
  | v (f : VFields)
  | k (f : KFields)
  | m (f : MFields)
  | c (f : CFields)
  | e (f : EFields)
  | x (f : XFields)
  | p (f : PairFields)
  deriving DecidableEq, Repr

/-- The kinds of access that a page's permissions and a window tell apart (R180, R407). -/
inductive Access where
  | read | write | atomic
  deriving DecidableEq, Repr

/-- The AtomicOps of the host link (R238, R399). -/
inductive HostAtomic where
  | fetchAdd | swap | cas
  deriving DecidableEq, Repr

/-- What a host request names: an offset in BAR0, or bytes of device memory through BAR2 (R400, R404). -/
inductive HostTarget where
  | bar0 (off : Nat)
  | bar2 (addr n : Nat)
  deriving DecidableEq, Repr

/-- The host registers that only store what is written (R402, R409). -/
inductive HostReg where
  | evmask
  | args (word : Nat)
  | swid (ctx : Nat)
  | swn (ctx : Nat)
  | swarg (ctx : Nat)
  deriving DecidableEq, Repr

/-- Where an uncorrectable error strikes (R398). -/
inductive ErrorSite where
  | line (addr : Nat) (words : Mask)
  | scratch (ctx team offset : Nat)
  | rows (core slot : Nat)
  | window (core slot : Nat)
  | folds (ctx team : Nat)
  /-- a peer module begins or ends to refuse the requests of a context, so that what is read there is poisoned (R407) -/
  | peer (module ctx : Nat) (refuses : Bool)
  deriving DecidableEq, Repr

/-- The instructions of the machine: one constructor for every row of the opcode table, in its order.
The words carry their common fields and their format's fields; the other constructors are the machine's
and the outside world's own steps, with the choices that they leave open as arguments. -/
inductive Instr where
  /-- NOP (R119): Does nothing; with a switch marker it parks the warp until its outstanding register writes complete. -/
  | nop (k : Ctl) (f : VFields)
  /-- BRA (R109): Relative uniform branch, taken under the convergence decision of R108. -/
  | bra (k : Ctl) (f : CFields)
  /-- BRX (R109): Uniform branch to the 64-bit address held in an s-register pair. -/
  | brx (k : Ctl) (f : CFields)
  /-- CALL (R109): Writes the return address to a link pair and branches relative. -/
  | call (k : Ctl) (f : CFields)
  /-- CALLX (R109): Writes a link pair and branches to the address held in a register pair. -/
  | callx (k : Ctl) (f : CFields)
  /-- RET (R109): Branches to the return address held in an s-register pair. -/
  | ret (k : Ctl) (f : CFields)
  /-- SPLIT (R111): Pushes a reconvergence entry and runs the taken lanes first, leaving the other lanes pending. -/
  | split (k : Ctl) (f : CFields)
  /-- JOIN (R112): Either switches to the pending path or pops the reconvergence entry, restoring EXEC and FMT. -/
  | join (k : Ctl) (f : CFields)
  /-- SKIPZ (R109): Branches when its uniform operand is zero. -/
  | skipz (k : Ctl) (f : CFields)
  /-- EXRD (R115): Reads EXEC, the stack depth, or the top RMASK or PMASK into an s-register. -/
  | exrd (k : Ctl) (f : VFields)
  /-- EXWR (R115): Writes EXEC by set, AND, OR or AND-NOT with a uniform operand. -/
  | exwr (k : Ctl) (f : VFields)
  /-- PLOG (R116): Computes a predicate from two predicates through a 4-bit truth table. -/
  | plog (k : Ctl) (f : VFields)
  /-- PMOV (R117): Packs, unpacks, sets or gets predicates to and from registers, per lane. -/
  | pmov (k : Ctl) (f : VFields)
  /-- SETFMT (R118): Writes FMT from an immediate or an s-register, or ANDs or ORs an immediate into it, refusing reserved
  values. -/
  | setfmt (k : Ctl) (f : KFields)
  /-- GETFMT (R118): Reads FMT or XV into an s-register. -/
  | getfmt (k : Ctl) (f : VFields)
  /-- MOV (R124): Copies a register or a register pair. -/
  | mov (k : Ctl) (f : VFields)
  /-- MOVK (R124): Writes a 32-bit immediate, optionally sign- or zero-extended to a pair. -/
  | movk (k : Ctl) (f : KFields)
  /-- SEL (R124): Selects between two operands by a per-lane predicate. -/
  | sel (k : Ctl) (f : VFields)
  /-- IADD (R125): Integer add, wrapping or saturating, on 32-bit or packed elements. -/
  | iadd (k : Ctl) (f : VFields)
  /-- ISUB (R125): Integer subtract, wrapping or saturating. -/
  | isub (k : Ctl) (f : VFields)
  /-- IMUL (R126): Low 32 bits of an integer product. -/
  | imul (k : Ctl) (f : VFields)
  /-- IMULH (R126): High 32 bits of a signed or unsigned 64-bit product. -/
  | imulh (k : Ctl) (f : VFields)
  /-- IMAD (R126): Integer multiply-add modulo 2^32. -/
  | imad (k : Ctl) (f : VFields)
  /-- IMIN (R127): Integer minimum under the type's signedness. -/
  | imin (k : Ctl) (f : VFields)
  /-- IMAX (R127): Integer maximum under the type's signedness. -/
  | imax (k : Ctl) (f : VFields)
  /-- IABS (R127): Integer absolute value, optionally saturating. -/
  | iabs (k : Ctl) (f : VFields)
  /-- INEG (R127): Integer negation, optionally saturating. -/
  | ineg (k : Ctl) (f : VFields)
  /-- AND (R128): Bitwise AND. -/
  | and (k : Ctl) (f : VFields)
  /-- OR (R128): Bitwise OR. -/
  | or (k : Ctl) (f : VFields)
  /-- XOR (R128): Bitwise exclusive OR. -/
  | xor (k : Ctl) (f : VFields)
  /-- ANDN (R128): Computes a AND NOT b. -/
  | andn (k : Ctl) (f : VFields)
  /-- SHL (R128): Logical shift left. -/
  | shl (k : Ctl) (f : VFields)
  /-- SHR (R128): Logical shift right. -/
  | shr (k : Ctl) (f : VFields)
  /-- SAR (R128): Arithmetic shift right. -/
  | sar (k : Ctl) (f : VFields)
  /-- ROT (R128): Rotates left, or right with .r. -/
  | rot (k : Ctl) (f : VFields)
  /-- BFX (R129): Extracts a bit field, zero- or sign-extended. -/
  | bfx (k : Ctl) (f : VFields)
  /-- BFI (R129): Inserts a bit field into a value. -/
  | bfi (k : Ctl) (f : VFields)
  /-- BPERM (R130): Permutes bytes from an 8-byte pool, with optional sign fill. -/
  | bperm (k : Ctl) (f : VFields)
  /-- POPC (R131): Counts set bits. -/
  | popc (k : Ctl) (f : VFields)
  /-- CLZ (R131): Counts leading zero bits. -/
  | clz (k : Ctl) (f : VFields)
  /-- BREV (R131): Reverses the bit order. -/
  | brev (k : Ctl) (f : VFields)
  /-- ICMP (R132): Integer compare writing a predicate by set, AND or OR. -/
  | icmp (k : Ctl) (f : VFields)
  /-- ISAT (R133): Saturates a value to an n-bit signed or unsigned range. -/
  | isat (k : Ctl) (f : VFields)
  /-- IADD64 (R134): 64-bit add with a 64-bit or extended 32-bit operand, optionally saturating. -/
  | iadd64 (k : Ctl) (f : VFields)
  /-- IMAD64 (R134): 32 by 32 multiply added to a 64-bit value. -/
  | imad64 (k : Ctl) (f : VFields)
  /-- LEA (R134): Forms a 64-bit base plus a shifted, extended index. -/
  | lea (k : Ctl) (f : VFields)
  /-- ICVT (R135): Converts between integer widths, truncating or saturating. -/
  | icvt (k : Ctl) (f : VFields)
  /-- FADD (R141): Floating add, rounded once under FMT. -/
  | fadd (k : Ctl) (f : VFields)
  /-- FSUB (R141): Floating subtract, rounded once. -/
  | fsub (k : Ctl) (f : VFields)
  /-- FMUL (R141): Floating multiply, rounded once. -/
  | fmul (k : Ctl) (f : VFields)
  /-- FFMA (R141): Fused multiply-add, rounded once. -/
  | ffma (k : Ctl) (f : VFields)
  /-- FMIN (R142): minimumNumber of two floating operands. -/
  | fmin (k : Ctl) (f : VFields)
  /-- FMAX (R142): maximumNumber of two floating operands. -/
  | fmax (k : Ctl) (f : VFields)
  /-- FCMP (R143): FP32 compare writing a predicate. -/
  | fcmp (k : Ctl) (f : VFields)
  /-- FCLASS (R144): Writes a one-hot class of a floating value. -/
  | fclass (k : Ctl) (f : VFields)
  /-- FRND (R145): Rounds to an integral value in the same format. -/
  | frnd (k : Ctl) (f : VFields)
  /-- FCVT (R146): Converts between floating formats. -/
  | fcvt (k : Ctl) (f : VFields)
  /-- F2I (R147): Converts floating to integer with saturation. -/
  | f2i (k : Ctl) (f : VFields)
  /-- I2F (R147): Converts integer to FP32 or FP64. -/
  | i2f (k : Ctl) (f : VFields)
  /-- DADD (R141): FP64 add. -/
  | dadd (k : Ctl) (f : VFields)
  /-- DMUL (R141): FP64 multiply. -/
  | dmul (k : Ctl) (f : VFields)
  /-- DFMA (R141): FP64 fused multiply-add. -/
  | dfma (k : Ctl) (f : VFields)
  /-- DCMP (R143): FP64 compare writing a predicate. -/
  | dcmp (k : Ctl) (f : VFields)
  /-- RCP (R150): Correctly rounded reciprocal in the special-function pipe. -/
  | rcp (k : Ctl) (f : VFields)
  /-- RSQ (R150): Faithful reciprocal square root. -/
  | rsq (k : Ctl) (f : VFields)
  /-- SQRT (R150): Correctly rounded square root. -/
  | sqrt (k : Ctl) (f : VFields)
  /-- EXP2 (R151): Faithful base-2 exponential. -/
  | exp2 (k : Ctl) (f : VFields)
  /-- LOG2 (R151): Faithful base-2 logarithm. -/
  | log2 (k : Ctl) (f : VFields)
  /-- EXP (R151): Faithful natural exponential. -/
  | exp (k : Ctl) (f : VFields)
  /-- LOG (R151): Faithful natural logarithm. -/
  | log (k : Ctl) (f : VFields)
  /-- SIN (R151): Faithful sine with exact argument reduction. -/
  | sin (k : Ctl) (f : VFields)
  /-- COS (R151): Faithful cosine with exact argument reduction. -/
  | cos (k : Ctl) (f : VFields)
  /-- TANH (R151): Faithful hyperbolic tangent. -/
  | tanh (k : Ctl) (f : VFields)
  /-- SIGM (R151): Faithful logistic sigmoid. -/
  | sigm (k : Ctl) (f : VFields)
  /-- PACK (R148): Converts two scaled FP32 values to narrow elements and inserts them into D. -/
  | pack (k : Ctl) (f : VFields)
  /-- UNPK (R149): Converts one narrow element to FP32 with an optional scale. -/
  | unpk (k : Ctl) (f : VFields)
  /-- FSTAT (R153): Reads, clears or writes FPSTAT for the warp. -/
  | fstat (k : Ctl) (f : VFields)
  /-- SEEDR (R154): Reads or writes the per-lane SEED. -/
  | seedr (k : Ctl) (f : VFields)
  /-- VOTE (R161): Forms a ballot of a predicate and writes ballot, any, all or eq. -/
  | vote (k : Ctl) (f : VFields)
  /-- SHFL (R163): Reads a register from another lane within a segment. -/
  | shfl (k : Ctl) (f : VFields)
  /-- BCAST (R162): Broadcasts one lane's value, by lane number or lowest effective lane. -/
  | bcast (k : Ctl) (f : VFields)
  /-- LRED (R165): Reduces the effective lanes in ascending order. -/
  | lred (k : Ctl) (f : VFields)
  /-- LSCAN (R165): Inclusive or exclusive scan over the effective lanes. -/
  | lscan (k : Ctl) (f : VFields)
  /-- MATCH (R170): Writes each lane the mask of lanes holding equal bits. -/
  | matchv (k : Ctl) (f : VFields)
  /-- RBAL (R168): Maps item indices onto owning rows and offsets. -/
  | rbal (k : Ctl) (f : VFields)
  /-- RWALK (R169): Lays a stretch of a flattened row stream across the lanes. -/
  | rwalk (k : Ctl) (f : VFields)
  /-- SEGRED (R165): Segmented reduction or scan by a head mask. -/
  | segred (k : Ctl) (f : VFields)
  /-- LD (R183): Per-lane load through a g-register, optionally acquiring. -/
  | ld (k : Ctl) (f : MFields)
  /-- ST (R183): Per-lane store through a g-register, optionally releasing. -/
  | st (k : Ctl) (f : MFields)
  /-- LDU (R183): One uniform load into s-registers. -/
  | ldu (k : Ctl) (f : MFields)
  /-- LDL (R186): Load from the team's scratchpad. -/
  | ldl (k : Ctl) (f : MFields)
  /-- STL (R186): Store to the team's scratchpad. -/
  | stl (k : Ctl) (f : MFields)
  /-- PREF (R195): Non-binding prefetch of lanes' lines into L2 or L1. -/
  | pref (k : Ctl) (f : MFields)
  /-- PREFT (R195): Non-binding background prefetch of a byte range into home L2. -/
  | preft (k : Ctl) (f : EFields)
  /-- LOCK (R192): Pins lanes' lines in L2 against the context's quota. -/
  | lock (k : Ctl) (f : MFields)
  /-- UNLOCK (R192): Removes the context's LOCK pin from lanes' lines. -/
  | unlock (k : Ctl) (f : MFields)
  /-- WINSET (R194): Pins an address window and rehomes its lines into chosen slices. -/
  | winset (k : Ctl) (f : EFields)
  /-- WINCLR (R194): Removes a window and moves its lines back to their homes. -/
  | winclr (k : Ctl) (f : EFields)
  /-- CWB (R196): Writes back the core's dirty words of lines, optionally on to memory. -/
  | cwb (k : Ctl) (f : MFields)
  /-- CINV (R196): Writes back and drops lines from L1, or recalls and drops them from L2. -/
  | cinv (k : Ctl) (f : MFields)
  /-- GBIND (R176): Translates a base address into a g-register's fast-path fields. -/
  | gbind (k : Ctl) (f : MFields)
  /-- GINV (R176): Clears VALID in a g-register. -/
  | ginv (k : Ctl) (f : MFields)
  /-- QCLASS (R197): Reports a mapping's translation, class and atomic support without trapping. -/
  | qclass (k : Ctl) (f : MFields)
  /-- FENCE (R217): Acquire, release or acquire-release fence at a scope. -/
  | fence (k : Ctl) (f : MFields)
  /-- ATOM (R235): Per-lane read-modify-write returning the old value. -/
  | atom (k : Ctl) (f : MFields)
  /-- CAS (R236): 32- or 64-bit compare-and-swap. -/
  | cas (k : Ctl) (f : MFields)
  /-- CAS128 (R236): 128-bit compare-and-swap. -/
  | cas128 (k : Ctl) (f : MFields)
  /-- RED (R239): Atomic reduction without return, performed at the home or host. -/
  | red (k : Ctl) (f : MFields)
  /-- MON (R244): Arms the warp's monitor on a line. -/
  | mon (k : Ctl) (f : MFields)
  /-- MWAIT (R245): Sleeps until the monitor fires, then disarms it. -/
  | mwait (k : Ctl) (f : MFields)
  /-- WATCH (R246): Parks the warp at a location's home until a comparison holds. -/
  | watch (k : Ctl) (f : MFields)
  /-- BAR (R249): Arrives at a team barrier and sleeps until its generation completes. -/
  | bar (k : Ctl) (f : EFields)
  /-- BARA (R249): Arrives at a team barrier and returns the generation without sleeping. -/
  | bara (k : Ctl) (f : EFields)
  /-- BARW (R249): Sleeps while the barrier's generation equals the operand. -/
  | barw (k : Ctl) (f : EFields)
  /-- SLOP (R240): Slice-ALU combine of masked words of a line, returned to the lane. -/
  | slop (k : Ctl) (f : MFields)
  /-- CPY (R264): Per-lane asynchronous copy of 4, 8 or 16 bytes counted into a fold. -/
  | cpy (k : Ctl) (f : EFields)
  /-- CPYB (R265): One asynchronous bulk copy counted into a fold. -/
  | cpyb (k : Ctl) (f : EFields)
  /-- GATH (R266): Gathers indexed rows from memory into scratchpad. -/
  | gath (k : Ctl) (f : EFields)
  /-- SCAT (R266): Scatters scratchpad rows to indexed memory rows. -/
  | scat (k : Ctl) (f : EFields)
  /-- MCAST (R267): Copies one source into the scratchpads of several teams. -/
  | mcast (k : Ctl) (f : EFields)
  /-- FALLOC (R259): Allocates a fold with a landing area and consumer count. -/
  | falloc (k : Ctl) (f : EFields)
  /-- FFREE (R259): Frees a fold when no command is in flight. -/
  | ffree (k : Ctl) (f : EFields)
  /-- FWAIT (R261): Waits for a fold to be full, optionally loading from its area or releasing a consumer. -/
  | fwait (k : Ctl) (f : EFields)
  /-- FSTATE (R262): Reads a fold's state or counts. -/
  | fstate (k : Ctl) (f : EFields)
  /-- SPOP (R274): Pops a stream slot, sleeping while the stream is empty. -/
  | spop (k : Ctl) (f : EFields)
  /-- SPUSH (R274): Pushes a stream slot, or initialises the stream. -/
  | spush (k : Ctl) (f : EFields)
  /-- BXPECT (R260): Adds a byte expectation to a fold, optionally waiting. -/
  | bxpect (k : Ctl) (f : EFields)
  /-- RXPECT (R260): Adds a row expectation to a fold, optionally waiting. -/
  | rxpect (k : Ctl) (f : EFields)
  /-- CFENCE (R272): Sleeps until all the warp's earlier engine commands are complete. -/
  | cfence (k : Ctl) (f : EFields)
  /-- YIELD (R275): Continues at a continuation once a fold is full, sleeping meanwhile. -/
  | yield (k : Ctl) (f : EFields)
  /-- MMA (R288): Matrix multiply-accumulate of unscaled operands into a tile. -/
  | mma (k : Ctl) (f : XFields)
  /-- MMAS (R288): Matrix multiply-accumulate with block scales. -/
  | mmas (k : Ctl) (f : XFields)
  /-- MMASP (R288): Matrix multiply-accumulate with a 4:8 sparse A. -/
  | mmasp (k : Ctl) (f : XFields)
  /-- ACLR (R295): Clears an accumulator tile or pair. -/
  | aclr (k : Ctl) (f : XFields)
  /-- ARD (R294): Reads rows or columns of a tile into v-registers. -/
  | ard (k : Ctl) (f : EFields)
  /-- AWR (R295): Writes v-registers into rows or columns of a tile. -/
  | awr (k : Ctl) (f : EFields)
  /-- ACVT (R296): Converts a tile to a narrow format and writes it to memory or scratchpad. -/
  | acvt (k : Ctl) (f : XFields)
  /-- COMP48 (R301): Prunes groups of eight to their four largest and writes kept values and metadata. -/
  | comp48 (k : Ctl) (f : VFields)
  /-- CBLD (R291): Loads a codebook slot from memory. -/
  | cbld (k : Ctl) (f : XFields)
  /-- XVSET (R292): Writes the extra-value register XV. -/
  | xvset (k : Ctl) (f : VFields)
  /-- SCLB (R290): Sets an operand's scale base, data base and shift. -/
  | sclb (k : Ctl) (f : XFields)
  /-- MBAT (R297): Closes the current batch and returns its number. -/
  | mbat (k : Ctl) (f : EFields)
  /-- BWAIT (R298): Sleeps until a batch and all earlier batches are complete. -/
  | bwait (k : Ctl) (f : EFields)
  /-- FACT (R340): Factorises the batched matrices of a tile by Cholesky, LDLT or LU. -/
  | fact (k : Ctl) (f : XFields)
  /-- TRSL (R343): Triangular, diagonal or permutation solve of a tile against a factor. -/
  | trsl (k : Ctl) (f : XFields)
  /-- PIVRD (R342): Reads a tile's pivot record or breakdown codes. -/
  | pivrd (k : Ctl) (f : EFields)
  /-- PATCH (R346): Applies set or add entries to a patch-mode solver object's image. -/
  | patch (k : Ctl) (f : EFields)
  /-- STAMP (R345): Rebuilds an assemble-mode solver object's image from its stamp table. -/
  | stamp (k : Ctl) (f : EFields)
  /-- HSHIFT (R348): Copies a horizon iterate shifted one stage earlier. -/
  | hshift (k : Ctl) (f : XFields)
  /-- PNEXT (R310): Puts the warp to sleep awaiting a pop of its team. -/
  | pnext (k : Ctl) (f : EFields)
  /-- PPOST (R318): Posts a value to a block's record. -/
  | ppost (k : Ctl) (f : EFields)
  /-- PEND (R312): Ends the warp's part of a phase, releasing its registers and window. -/
  | pend (k : Ctl) (f : EFields)
  /-- RESID (R314): Sets or maxes the team's local residual. -/
  | resid (k : Ctl) (f : EFields)
  /-- RPROP (R318): Posts a weighted change to every entry of a dependent list. -/
  | rprop (k : Ctl) (f : EFields)
  /-- VPUB (R324): Publishes a version of a view with its bound and settled flag. -/
  | vpub (k : Ctl) (f : EFields)
  /-- VREAD (R325): Reads a view's version, generation, bound and flags as an acquire. -/
  | vread (k : Ctl) (f : EFields)
  /-- ADMIT (R329): Admits a deadline request for a tenant class or rejects it. -/
  | admitReq (k : Ctl) (f : EFields)
  /-- DLINE (R330): Arms or cancels a deadline request handle. -/
  | dline (k : Ctl) (f : EFields)
  /-- MBRD (R327): Reads a mailbox's inbound payload, optionally emptying it. -/
  | mbrd (k : Ctl) (f : EFields)
  /-- MBWR (R328): Writes a mailbox's outbound payload, optionally notifying the host. -/
  | mbwr (k : Ctl) (f : EFields)
  /-- WFETCH (R332): Requests one sweep item to land in scratchpad. -/
  | wfetch (k : Ctl) (f : EFields)
  /-- GENRD (R333): Reads IGEN, the phase generation, the popped residual or the interval counter. -/
  | genrd (k : Ctl) (f : EFields)
  /-- SEND (R360): Posts a packet of 1 to 8 flits to a core's receive port. -/
  | send (k : Ctl) (f : EFields)
  /-- RECV (R361): Takes the oldest complete packet of a port, sleeping or polling. -/
  | recv (k : Ctl) (f : EFields)
  /-- XCHG (R362): Swaps one v-register with a partner warp in another cluster. -/
  | xchg (k : Ctl) (f : EFields)
  /-- THROT (R363): Reads the core's router THROTLVL. -/
  | throt (k : Ctl) (f : EFields)
  /-- TRAP (R382): Raises the software trap with a code. -/
  | trap (k : Ctl) (f : CFields)
  /-- TRET (R382): Returns from a trap handler, restoring EXEC, FMT and privilege. -/
  | tret (k : Ctl) (f : CFields)
  /-- SVC (R382): Raises the service trap with a number. -/
  | svc (k : Ctl) (f : CFields)
  /-- SRR (R375): Reads a system register word by selector. -/
  | srr (k : Ctl) (f : KFields)
  /-- SRW (R376): Writes a system register word by selector, refusing illegal values. -/
  | srw (k : Ctl) (f : KFields)
  /-- PREEMPT (R391): Asks a team to stop at clause boundaries or between phases. -/
  | preempt (k : Ctl) (f : EFields)
  /-- CTXSV (R393): Saves a team's image to a probed save area and releases its resources. -/
  | ctxsv (k : Ctl) (f : EFields)
  /-- CTXLD (R395): Restores a team image onto a core. -/
  | ctxld (k : Ctl) (f : EFields)
  /-- TLBINV (R389): Invalidates a page's or a context's translations module-wide. -/
  | tlbinv (k : Ctl) (f : EFields)
  /-- BIAS (R390): Flips a device page between device and host bias. -/
  | bias (k : Ctl) (f : EFields)
  /-- MAPG (R387): Maps a zeroed 64 KiB page from the context's pool. -/
  | mapg (k : Ctl) (f : EFields)
  /-- FREEZE (R386): Freezes a warp or team at its next clause boundary. -/
  | freeze (k : Ctl) (f : EFields)
  /-- THAW (R386): Resumes, skips or kills a frozen master. -/
  | thaw (k : Ctl) (f : EFields)
  /-- PAIR_WORD (R67): Executes two vector half-operations in one word. -/
  | pairWord (k : Ctl) (f : PairFields)
  /-- CLAUSE_ISSUE (R52): A scheduler selects an eligible warp whose clause wait condition holds and starts its issue run. -/
  | clauseIssue (core sched slot : Nat)
  /-- REGISTER_WRITE_COMPLETE (R55): An outstanding variable-latency register write is made, lowering the load counter and
  unparking the warp. -/
  | registerWriteComplete (core slot id : Nat) (lanes : Mask)
  /-- STORE_PERFORM (R207): A store or release performs at its scope and leaves the store counter. -/
  | storePerform (core slot id : Nat)
  /-- HOME_REQUEST (R242): A home slice starts a request for a line chosen by port arbitration. -/
  | homeRequest (slice line : Nat)
  /-- DRAIN_REQUEST (R209): A core receives a drain request and writes back lines tagged at or below its number. -/
  | drainRequest (core : Nat)
  /-- DRAIN_COMPLETE (R209): All write-backs of a drain are accepted; the home marks the record drained and serves the held
  request. -/
  | drainComplete (id : Nat)
  /-- FLUSH_MARKER (R213): A flush marker is accepted once every earlier write on its path is accepted. -/
  | flushMarker (path : Nat)
  /-- WATCH_WAKE (R246): A wake message with the satisfying value reaches a warp parked in WATCH. -/
  | watchWake (core slot : Nat)
  /-- LOOKOUT_POLL (R247): With a full Lookout, the core re-reads a watched location every 256 core clocks. -/
  | lookoutPoll (core slot : Nat)
  /-- PROBE_COMPLETE (R253): A copy command's probe succeeds, claims lines and unparks the warp. -/
  | probeComplete (core slot : Nat)
  /-- SKIDDER_LANDING (R254): Bytes or rows of a command land and are counted into its fold. -/
  | skidderLanding (core cmd piece : Nat) (good : Bool)
  /-- MULTICAST_REGISTER (R267): A multicast registers at each destination fold or records a miss. -/
  | multicastRegister (core cmd : Nat)
  /-- MATRIX_ACCEPT (R285): An engine word passes its checks, pins its tiles and enters the engine queue. -/
  | matrixAccept (core slot : Nat)
  /-- ENGINE_WORD_START (R287): The matrix engine starts the next accepted word once the previous engine time ends. -/
  | engineWordStart (core : Nat)
  /-- ACCUMULATOR_WRITE (R287): An engine word's results are written 20 core clocks after its engine time ends. -/
  | accumulatorWrite (core : Nat)
  /-- SCRUB_DONE (R397): Scrubbing of released rows, scratchpad or a window slot finishes. -/
  | scrubDone (core unit : Nat)
  /-- TEAM_POP (R310): A team with all warps in PNEXT pops a record and enters a phase. -/
  | teamPop (ctx team pick : Nat)
  /-- POST (R317): A post reaches a record's home and updates its residual, generation and queue state. -/
  | post (idx : Nat)
  /-- WITHDRAW (R323): A withdrawal reaches a view's shard, raising GEN and clearing SETTLED. -/
  | withdraw (idx : Nat)
  /-- DEADLINE_EXPIRY (R330): A request reaches its expiry and enters the deadline lane or ends unarmed. -/
  | deadlineExpiry (shard handle : Nat)
  /-- NOTIFY (R326): A host notify makes a mailbox FULL, raises IGEN and queues its record. -/
  | notify (rid ctx mbox : Nat) (relaxed : Bool)
  /-- MAILBOX_IN_WRITE (R401): A host write to a mailbox IN buffer is accepted only while EMPTY. -/
  | mailboxInWrite (rid ctx mbox word : Nat) (val : Word)
  /-- OACK (R401): A host write to OACK clears the mailbox's OFULL. -/
  | oack (rid ctx mbox : Nat)
  /-- OVRCLR (R401): A host write to OVRCLR clears the mailbox's overrun count. -/
  | ovrclr (rid ctx mbox : Nat)
  /-- SWPOST (R402): A host write to SWPOST posts a sweep to the distributor. -/
  | swpost (rid ctx : Nat)
  /-- WFETCH_LANDING (R332): The distributor writes a withdrawn item and its ready flag into scratchpad. -/
  | wfetchLanding (ctx team : Nat)
  /-- FLIT_ROUTE (R353): A router arbitrates its arriving flits, ejecting, forwarding or deflecting each. -/
  | flitRoute (router : Nat)
  /-- FLIT_EJECT (R359): A flit reaching the network interface is slotted, refused or discarded. -/
  | flitEject (core : Nat)
  /-- BRIDGE_CROSS (R10): A die-edge bridge forwards a flit to the matching router and starts a new leg. -/
  | bridgeCross (idx : Nat)
  /-- ONAUS_PACKET (R405): A transport packet arrives on an Onaus path and is acknowledged or resent. -/
  | onausPacket (path : Nat) (good : Bool)
  /-- ONAUS_LINK_LOSS (R405): An Onaus port loses link and its unacknowledged packets are resent on another path. -/
  | onausLinkLoss (port : Nat)
  /-- LINK_RETRAIN (R405): A host or Onaus link retrains and rejoins, raising EVENT bit 4. -/
  | linkRetrain (port : Nat)
  /-- PEER_REQUEST (R407): A peer module's request is served under an export window or frozen as a violation. -/
  | peerRequest (peer tenant : Nat) (kind : Access) (addr n : Nat) (data : List Byte)
  /-- HOST_BAR2_ACCESS (R400): A host access to device memory through BAR2, refused for the pen. -/
  | hostBar2Access (rid : Nat) (write : Bool) (addr n : Nat) (data : List Byte)
  /-- CXL_MEM_ACCESS (R399): A host CXL.mem access to device physical memory. -/
  | cxlMemAccess (write : Bool) (addr n : Nat) (data : List Byte)
  /-- ATOMICOP_COMPLETER (R399): A host PCI Express AtomicOp to BAR2 performed by the module. -/
  | atomicopCompleter (rid : Nat) (op : HostAtomic) (n addr : Nat) (opnd cmp : BitVec 128)
  /-- COMPLETER_ABORT (R404): A host request to an unestablished context, the pen or a locked context is aborted and recorded.
  -/
  | completerAbort (rid : Nat) (target : HostTarget)
  /-- ATOMICOP_COMPLETION (R238): The completion of a device-issued AtomicOp returns, or an error freezes the warp. -/
  | atomicopCompletion (core slot id lane : Nat) (good : Bool)
  /-- ESTABLISH (R412): Verifies an image, places teams, grants cores, posts records and spawns the context. -/
  | establish (place : List (List Nat)) (frames : List Nat)
  /-- EVENT_CLEAR (R409): A host write of ones clears EVENT bits. -/
  | eventClear (ones : Word)
  /-- REGISTER_WRITE (R409): A write to a register with no behaviour of its own stores the value. -/
  | registerWrite (rid : Nat) (reg : HostReg) (val : Word)
  /-- FAULTREC_REMOVE (R385): An SRW to FAULTREC word 0 removes the oldest record. -/
  | faultrecRemove (ctx : Nat)
  /-- WAYMASK_WRITE (R193): Removing ways or quadrants drops the context's pins in them and counts the drops. -/
  | waymaskWrite (ctx : Nat) (val : Word)
  /-- TEAM_QUIESCED (R391): A stopping team's warps have all stopped and its deferrals ended, letting a save or kill proceed. -/
  | teamQuiesced (ctx team : Nat)
  /-- BOOT (R408): Power-on verifies Birseob, trains memory and links, zeroes memory, reserves pens and sets READY. -/
  | boot (failed : Nat)
  /-- D3COLD_EXIT (R414): Leaving D3cold repeats the boot. -/
  | d3coldExit (failed : Nat)
  /-- CLKSTEP_DOWN (R414): A die reaching 95 C or power over its limit lowers the core clock one step. -/
  | clkstepDown (die : Nat)
  /-- CLKSTEP_UP (R414): After 10 ms below 90 C and the limit, the core clock steps up. -/
  | clkstepUp (die : Nat)
  /-- THERMAL_STOP (R414): A die at 110 C stops the module. -/
  | thermalStop (die : Nat)
  /-- PLDM_MONITOR (R415): A PLDM monitoring request reports power, temperatures, CLKSTEP and MEMERR. -/
  | pldmMonitor (power : Nat) (temps : List Nat) (coolant : Nat)
  /-- PLDM_FIRMWARE_UPDATE (R415): A PLDM firmware update loads a Birseob image verified before activation. -/
  | pldmFirmwareUpdate (image : List Byte)
  /-- MCTP_ATTEST (R413): An attestation request over management returns a signed report. -/
  | mctpAttest (nonce : BitVec 256)
  /-- CORRECTED_ERROR (R398): A corrected ECC error is counted in MEMERR. -/
  | correctedError (die : Nat)
  /-- UNCORRECTABLE_ERROR (R398): An uncorrectable error poisons a line, marks a scratchpad word or freezes a warp. -/
  | uncorrectableError (site : ErrorSite)
  /-- THERMAL_STOP_NEAR (R409): A die reaching 105 C sets EVENT bit 2, raising MSI-X vector 16 if enabled. -/
  | thermalStopNear (die : Nat)
  /-- CMD_WRITE_IGNORED (R409): A CMD write with an unlisted code, or while READY is 0 or BUSY is 1, is ignored and counted in
  CMDSTAT.IGN. -/
  | cmdWriteIgnored (code : Nat)
  /-- POWER_LIMIT_SET (R414): A management request sets the module power limit between 1,500 W and 4,200 W. -/
  | powerLimitSet (watts : Nat)
  /-- MAILBOX_UNIT_READ_COMPLETE (R227): The host-memory read that holds a relaxed-ordering notify completes, and the held
  message becomes visible, making the mailbox FULL and queuing its record. -/
  | mailboxUnitReadComplete (ctx mbox : Nat)
  /-- ENGINE_WRITES_LANDED (R297): The memory writes of an ACVT, STAMP, PATCH or HSHIFT have landed, completing the word and
  possibly its batch. -/
  | engineWritesLanded (core id : Nat)
  /-- CXL_CACHE_SNOOP (R23): The host's home agent snoops or invalidates a host line that the device caches under CXL.cache. -/
  | cxlCacheSnoop (line : Nat) (invalidate : Bool) (data : List Byte)

  /-- TEARDOWN (R412): Kills a context's teams, empties its state and revokes its cores. -/
  | teardown
  /-- LOCKRID (R410): Locks a context's BAR0 block to one requester ID. -/
  | lockrid
  /-- UNLOCKRID (R410): Removes a context's requester lock. -/
  | unlockrid
  /-- ATTEST (R413): Writes a signed attestation report for a nonce. -/
  | attest
  /-- CTXSTATE (R410): Returns a context's state, core count and image digest. -/
  | ctxstate
  /-- FABRIC (R406): Loads and checks a fabric table and sets FABTAB and MODID. -/
  | fabric
  /-- COMMAND_DONE (R410): A management command ends, writing CMDSTAT and raising EVENT bit 0. -/
  | commandDone
deriving DecidableEq, Repr

/-- The common and format fields of an instruction word, and its major opcode (R56, R61, R69). -/
structure View where
  op   : Nat
  ctl  : Ctl
  body : Body
  deriving DecidableEq, Repr

/-- The word fields of an instruction; the machine's own steps have no word (R69). -/
def Instr.view : Instr → Option View
  | .nop k f => some ⟨0x00, k, .v f⟩
  | .bra k f => some ⟨0x01, k, .c f⟩
  | .brx k f => some ⟨0x02, k, .c f⟩
  | .call k f => some ⟨0x03, k, .c f⟩
  | .callx k f => some ⟨0x04, k, .c f⟩
  | .ret k f => some ⟨0x05, k, .c f⟩
  | .split k f => some ⟨0x06, k, .c f⟩
  | .join k f => some ⟨0x07, k, .c f⟩
  | .skipz k f => some ⟨0x08, k, .c f⟩
  | .exrd k f => some ⟨0x09, k, .v f⟩
  | .exwr k f => some ⟨0x0A, k, .v f⟩
  | .plog k f => some ⟨0x0B, k, .v f⟩
  | .pmov k f => some ⟨0x0C, k, .v f⟩
  | .setfmt k f => some ⟨0x0D, k, .k f⟩
  | .getfmt k f => some ⟨0x0E, k, .v f⟩
  | .mov k f => some ⟨0x10, k, .v f⟩
  | .movk k f => some ⟨0x11, k, .k f⟩
  | .sel k f => some ⟨0x12, k, .v f⟩
  | .iadd k f => some ⟨0x13, k, .v f⟩
  | .isub k f => some ⟨0x14, k, .v f⟩
  | .imul k f => some ⟨0x15, k, .v f⟩
  | .imulh k f => some ⟨0x16, k, .v f⟩
  | .imad k f => some ⟨0x17, k, .v f⟩
  | .imin k f => some ⟨0x18, k, .v f⟩
  | .imax k f => some ⟨0x19, k, .v f⟩
  | .iabs k f => some ⟨0x1A, k, .v f⟩
  | .ineg k f => some ⟨0x1B, k, .v f⟩
  | .and k f => some ⟨0x1C, k, .v f⟩
  | .or k f => some ⟨0x1D, k, .v f⟩
  | .xor k f => some ⟨0x1E, k, .v f⟩
  | .andn k f => some ⟨0x1F, k, .v f⟩
  | .shl k f => some ⟨0x20, k, .v f⟩
  | .shr k f => some ⟨0x21, k, .v f⟩
  | .sar k f => some ⟨0x22, k, .v f⟩
  | .rot k f => some ⟨0x23, k, .v f⟩
  | .bfx k f => some ⟨0x24, k, .v f⟩
  | .bfi k f => some ⟨0x25, k, .v f⟩
  | .bperm k f => some ⟨0x26, k, .v f⟩
  | .popc k f => some ⟨0x27, k, .v f⟩
  | .clz k f => some ⟨0x28, k, .v f⟩
  | .brev k f => some ⟨0x29, k, .v f⟩
  | .icmp k f => some ⟨0x2A, k, .v f⟩
  | .isat k f => some ⟨0x2B, k, .v f⟩
  | .iadd64 k f => some ⟨0x2C, k, .v f⟩
  | .imad64 k f => some ⟨0x2D, k, .v f⟩
  | .lea k f => some ⟨0x2E, k, .v f⟩
  | .icvt k f => some ⟨0x2F, k, .v f⟩
  | .fadd k f => some ⟨0x30, k, .v f⟩
  | .fsub k f => some ⟨0x31, k, .v f⟩
  | .fmul k f => some ⟨0x32, k, .v f⟩
  | .ffma k f => some ⟨0x33, k, .v f⟩
  | .fmin k f => some ⟨0x34, k, .v f⟩
  | .fmax k f => some ⟨0x35, k, .v f⟩
  | .fcmp k f => some ⟨0x36, k, .v f⟩
  | .fclass k f => some ⟨0x37, k, .v f⟩
  | .frnd k f => some ⟨0x38, k, .v f⟩
  | .fcvt k f => some ⟨0x39, k, .v f⟩
  | .f2i k f => some ⟨0x3A, k, .v f⟩
  | .i2f k f => some ⟨0x3B, k, .v f⟩
  | .dadd k f => some ⟨0x3C, k, .v f⟩
  | .dmul k f => some ⟨0x3D, k, .v f⟩
  | .dfma k f => some ⟨0x3E, k, .v f⟩
  | .dcmp k f => some ⟨0x3F, k, .v f⟩
  | .rcp k f => some ⟨0x40, k, .v f⟩
  | .rsq k f => some ⟨0x41, k, .v f⟩
  | .sqrt k f => some ⟨0x42, k, .v f⟩
  | .exp2 k f => some ⟨0x43, k, .v f⟩
  | .log2 k f => some ⟨0x44, k, .v f⟩
  | .exp k f => some ⟨0x45, k, .v f⟩
  | .log k f => some ⟨0x46, k, .v f⟩
  | .sin k f => some ⟨0x47, k, .v f⟩
  | .cos k f => some ⟨0x48, k, .v f⟩
  | .tanh k f => some ⟨0x49, k, .v f⟩
  | .sigm k f => some ⟨0x4A, k, .v f⟩
  | .pack k f => some ⟨0x4B, k, .v f⟩
  | .unpk k f => some ⟨0x4C, k, .v f⟩
  | .fstat k f => some ⟨0x4D, k, .v f⟩
  | .seedr k f => some ⟨0x4E, k, .v f⟩
  | .vote k f => some ⟨0x50, k, .v f⟩
  | .shfl k f => some ⟨0x51, k, .v f⟩
  | .bcast k f => some ⟨0x52, k, .v f⟩
  | .lred k f => some ⟨0x53, k, .v f⟩
  | .lscan k f => some ⟨0x54, k, .v f⟩
  | .matchv k f => some ⟨0x55, k, .v f⟩
  | .rbal k f => some ⟨0x56, k, .v f⟩
  | .rwalk k f => some ⟨0x57, k, .v f⟩
  | .segred k f => some ⟨0x58, k, .v f⟩
  | .ld k f => some ⟨0x60, k, .m f⟩
  | .st k f => some ⟨0x61, k, .m f⟩
  | .ldu k f => some ⟨0x62, k, .m f⟩
  | .ldl k f => some ⟨0x63, k, .m f⟩
  | .stl k f => some ⟨0x64, k, .m f⟩
  | .pref k f => some ⟨0x65, k, .m f⟩
  | .preft k f => some ⟨0x66, k, .e f⟩
  | .lock k f => some ⟨0x67, k, .m f⟩
  | .unlock k f => some ⟨0x68, k, .m f⟩
  | .winset k f => some ⟨0x69, k, .e f⟩
  | .winclr k f => some ⟨0x6A, k, .e f⟩
  | .cwb k f => some ⟨0x6B, k, .m f⟩
  | .cinv k f => some ⟨0x6C, k, .m f⟩
  | .gbind k f => some ⟨0x6D, k, .m f⟩
  | .ginv k f => some ⟨0x6E, k, .m f⟩
  | .qclass k f => some ⟨0x6F, k, .m f⟩
  | .fence k f => some ⟨0x80, k, .m f⟩
  | .atom k f => some ⟨0x81, k, .m f⟩
  | .cas k f => some ⟨0x82, k, .m f⟩
  | .cas128 k f => some ⟨0x83, k, .m f⟩
  | .red k f => some ⟨0x84, k, .m f⟩
  | .mon k f => some ⟨0x85, k, .m f⟩
  | .mwait k f => some ⟨0x86, k, .m f⟩
  | .watch k f => some ⟨0x87, k, .m f⟩
  | .bar k f => some ⟨0x88, k, .e f⟩
  | .bara k f => some ⟨0x89, k, .e f⟩
  | .barw k f => some ⟨0x8A, k, .e f⟩
  | .slop k f => some ⟨0x8B, k, .m f⟩
  | .cpy k f => some ⟨0x90, k, .e f⟩
  | .cpyb k f => some ⟨0x91, k, .e f⟩
  | .gath k f => some ⟨0x92, k, .e f⟩
  | .scat k f => some ⟨0x93, k, .e f⟩
  | .mcast k f => some ⟨0x94, k, .e f⟩
  | .falloc k f => some ⟨0x95, k, .e f⟩
  | .ffree k f => some ⟨0x96, k, .e f⟩
  | .fwait k f => some ⟨0x97, k, .e f⟩
  | .fstate k f => some ⟨0x98, k, .e f⟩
  | .spop k f => some ⟨0x99, k, .e f⟩
  | .spush k f => some ⟨0x9A, k, .e f⟩
  | .bxpect k f => some ⟨0x9B, k, .e f⟩
  | .rxpect k f => some ⟨0x9C, k, .e f⟩
  | .cfence k f => some ⟨0x9D, k, .e f⟩
  | .yield k f => some ⟨0x9E, k, .e f⟩
  | .mma k f => some ⟨0xA0, k, .x f⟩
  | .mmas k f => some ⟨0xA1, k, .x f⟩
  | .mmasp k f => some ⟨0xA2, k, .x f⟩
  | .aclr k f => some ⟨0xA3, k, .x f⟩
  | .ard k f => some ⟨0xA4, k, .e f⟩
  | .awr k f => some ⟨0xA5, k, .e f⟩
  | .acvt k f => some ⟨0xA6, k, .x f⟩
  | .comp48 k f => some ⟨0xA7, k, .v f⟩
  | .cbld k f => some ⟨0xA8, k, .x f⟩
  | .xvset k f => some ⟨0xA9, k, .v f⟩
  | .sclb k f => some ⟨0xAA, k, .x f⟩
  | .mbat k f => some ⟨0xAB, k, .e f⟩
  | .bwait k f => some ⟨0xAC, k, .e f⟩
  | .fact k f => some ⟨0xB0, k, .x f⟩
  | .trsl k f => some ⟨0xB1, k, .x f⟩
  | .pivrd k f => some ⟨0xB2, k, .e f⟩
  | .patch k f => some ⟨0xB3, k, .e f⟩
  | .stamp k f => some ⟨0xB4, k, .e f⟩
  | .hshift k f => some ⟨0xB5, k, .x f⟩
  | .pnext k f => some ⟨0xB8, k, .e f⟩
  | .ppost k f => some ⟨0xB9, k, .e f⟩
  | .pend k f => some ⟨0xBA, k, .e f⟩
  | .resid k f => some ⟨0xBB, k, .e f⟩
  | .rprop k f => some ⟨0xBC, k, .e f⟩
  | .vpub k f => some ⟨0xBD, k, .e f⟩
  | .vread k f => some ⟨0xBE, k, .e f⟩
  | .admitReq k f => some ⟨0xBF, k, .e f⟩
  | .dline k f => some ⟨0xC0, k, .e f⟩
  | .mbrd k f => some ⟨0xC1, k, .e f⟩
  | .mbwr k f => some ⟨0xC2, k, .e f⟩
  | .wfetch k f => some ⟨0xC3, k, .e f⟩
  | .genrd k f => some ⟨0xC4, k, .e f⟩
  | .send k f => some ⟨0xC8, k, .e f⟩
  | .recv k f => some ⟨0xC9, k, .e f⟩
  | .xchg k f => some ⟨0xCA, k, .e f⟩
  | .throt k f => some ⟨0xCB, k, .e f⟩
  | .trap k f => some ⟨0xD0, k, .c f⟩
  | .tret k f => some ⟨0xD1, k, .c f⟩
  | .svc k f => some ⟨0xD2, k, .c f⟩
  | .srr k f => some ⟨0xD3, k, .k f⟩
  | .srw k f => some ⟨0xD4, k, .k f⟩
  | .preempt k f => some ⟨0xD5, k, .e f⟩
  | .ctxsv k f => some ⟨0xD6, k, .e f⟩
  | .ctxld k f => some ⟨0xD7, k, .e f⟩
  | .tlbinv k f => some ⟨0xD8, k, .e f⟩
  | .bias k f => some ⟨0xD9, k, .e f⟩
  | .mapg k f => some ⟨0xDA, k, .e f⟩
  | .freeze k f => some ⟨0xDB, k, .e f⟩
  | .thaw k f => some ⟨0xDC, k, .e f⟩
  | .pairWord k f => some ⟨0xF0 + f.opA.toNat, k, .p f⟩
  | .clauseIssue _ _ _ => none
  | .registerWriteComplete _ _ _ _ => none
  | .storePerform _ _ _ => none
  | .homeRequest _ _ => none
  | .drainRequest _ => none
  | .drainComplete _ => none
  | .flushMarker _ => none
  | .watchWake _ _ => none
  | .lookoutPoll _ _ => none
  | .probeComplete _ _ => none
  | .skidderLanding _ _ _ _ => none
  | .multicastRegister _ _ => none
  | .matrixAccept _ _ => none
  | .engineWordStart _ => none
  | .accumulatorWrite _ => none
  | .scrubDone _ _ => none
  | .teamPop _ _ _ => none
  | .post _ => none
  | .withdraw _ => none
  | .deadlineExpiry _ _ => none
  | .notify _ _ _ _ => none
  | .mailboxInWrite _ _ _ _ _ => none
  | .oack _ _ _ => none
  | .ovrclr _ _ _ => none
  | .swpost _ _ => none
  | .wfetchLanding _ _ => none
  | .flitRoute _ => none
  | .flitEject _ => none
  | .bridgeCross _ => none
  | .onausPacket _ _ => none
  | .onausLinkLoss _ => none
  | .linkRetrain _ => none
  | .peerRequest _ _ _ _ _ _ => none
  | .hostBar2Access _ _ _ _ _ => none
  | .cxlMemAccess _ _ _ _ => none
  | .atomicopCompleter _ _ _ _ _ _ => none
  | .completerAbort _ _ => none
  | .atomicopCompletion _ _ _ _ _ => none
  | .establish _ _ => none
  | .teardown => none
  | .lockrid => none
  | .unlockrid => none
  | .attest => none
  | .ctxstate => none
  | .fabric => none
  | .commandDone => none
  | .eventClear _ => none
  | .registerWrite _ _ _ => none
  | .faultrecRemove _ => none
  | .waymaskWrite _ _ => none
  | .teamQuiesced _ _ => none
  | .boot _ => none
  | .d3coldExit _ => none
  | .clkstepDown _ => none
  | .clkstepUp _ => none
  | .thermalStop _ => none
  | .pldmMonitor _ _ _ => none
  | .pldmFirmwareUpdate _ => none
  | .mctpAttest _ => none
  | .correctedError _ => none
  | .uncorrectableError _ => none
  | .thermalStopNear _ => none
  | .cmdWriteIgnored _ => none
  | .powerLimitSet _ => none
  | .mailboxUnitReadComplete _ _ => none
  | .engineWritesLanded _ _ => none
  | .cxlCacheSnoop _ _ _ => none

end Sys2Proof
end

