-- ==== Sys2Proof/Machine/Legal.lean ====
section
/-! DEFINITION. What makes an instruction word legal by its own bits: the operand positions of every instruction
(R58, R106, R123, R139, R160, R172, R231, R255, R281, R308, R336, R358, R373), its variant fields, the pair rules
(R68), its class bit (R70), and which words must stand last in a clause (R64, R243, R256, R298, R361, R362, R374). -/

namespace Sys2Proof.Machine

/-- What an operand position takes: which kinds of operand, how many registers one names, the multiple its number
must be, and whether the instruction reads it, writes it or both. -/
structure Slot where
  v : Bool := false
  s : Bool := false
  imm : Bool := false
  fp : Bool := false
  sp : Bool := false
  perLane : Bool := false
  none : Bool := false
  pred : Bool := false
  cnt : Nat := 1
  al : Nat := 1
  rd : Bool := false
  wr : Bool := false
  deriving DecidableEq, Repr

namespace Slot

/-- Any readable operand, of n registers (R57, R58). -/
def any (n : Nat) : Slot :=
  { v := true, s := true, imm := true, fp := true, sp := true, perLane := true, cnt := n, al := n, rd := true }

/-- A uniform operand (R106). -/
def uni : Slot := { s := true, imm := true, fp := true, sp := true, rd := true }

/-- A v-register or s-register destination of n registers. -/
def dst (n : Nat) : Slot := { v := true, s := true, cnt := n, al := n, wr := true }

def vdst (n : Nat) : Slot := { v := true, cnt := n, al := n, wr := true }

def sdst (n : Nat) : Slot := { s := true, cnt := n, al := n, wr := true }

def vsrc (n : Nat) : Slot := { v := true, cnt := n, al := n, rd := true }

def ssrc (n : Nat) : Slot := { s := true, cnt := n, al := n, rd := true }

/-- A position that the instruction does not use: it holds 0x1FF (R58). -/
def unused : Slot := { none := true }

/-- A predicate field that is read (R106). -/
def predRd : Slot := { pred := true, rd := true }

/-- A predicate field that is written (R106). -/
def predWr : Slot := { pred := true, wr := true }

/-- The same position, or 0x1FF. -/
def orNone (x : Slot) : Slot := { x with none := true }

/-- The OFF operand of format M (R172): a v-register, s-register, integer constant or special, or 0x1FF. -/
def off : Slot := { v := true, s := true, imm := true, sp := true, perLane := true, none := true, rd := true }

/-- The DATA of a store (R172): a v-register, s-register or integer constant of n registers. -/
def store (n : Nat) : Slot := { v := true, s := true, imm := true, cnt := n, al := n, rd := true }

/-- Registers in a row from any first register, for a block of n (R294, R300). -/
def vrow (n : Nat) (write : Bool) : Slot := { v := true, cnt := n, rd := !write, wr := write }

/-- Does operand o stand in position x by its code and number alone (R57, R58)? -/
def ok (x : Slot) : Operand → Bool
  | .v n => if x.pred then decide (n.val < 16) else x.v && n.val % x.al == 0 && decide (n.val + x.cnt ≤ 256)
  | .s n => x.s && n.val % x.al == 0 && decide (n.val + x.cnt ≤ 128)
  | .imm _ => x.imm
  | .fp _ => x.fp
  | .sp .lane => x.sp && x.perLane
  | .sp .lmlt => x.sp && x.perLane
  | .sp _ => x.sp
  | .none => x.none

end Slot

/-- The checks of one instruction word that its bits alone decide. -/
structure Sig where
  /-- its variant fields and unused fields hold listed values (R61, R71 order 2) -/
  fields : Bool
  /-- its operand positions, with what stands in them -/
  slots : List (Slot × Operand)
  /-- an s-register destination needs uniform sources (R58, R121) -/
  uniform : Bool := true
  deriving DecidableEq, Repr

/-- The operand varies from lane to lane. -/
def perLane : Operand → Bool
  | .v _ => true
  | .sp .lane => true
  | .sp .lmlt => true
  | _ => false

def isS : Operand → Bool
  | .s _ => true
  | _ => false

def isV : Operand → Bool
  | .v _ => true
  | _ => false

/-- Registers that a value of 2^size bytes takes (R183). -/
def sizeRegs (size : Nat) : Nat := if size = 4 then 4 else if size = 3 then 2 else 1

/-- The even s-register that an X field or a FUNC field names by number. -/
def sNum (n : Nat) : Operand := .s (Fin.ofNat 128 n)

/-- The register table of R376: number, width in 32-bit words, whether CORE and CTX are used. -/
def selectorShape : List (Nat × Nat × Bool × Bool) :=
  [(0x001, 2, false, false), (0x002, 2, false, false), (0x003, 1, false, false), (0x004, 1, false, false),
   (0x005, 1, false, false), (0x006, 2, false, false), (0x007, 1, false, false), (0x008, 1, false, false)] ++
  [(0x100, 1, false, true), (0x101, 2, false, true), (0x102, 2, false, true), (0x103, 2, false, true),
   (0x104, 2, false, true), (0x105, 2, false, true), (0x106, 2, false, true), (0x107, 2, false, true),
   (0x108, 1, false, true), (0x109, 1, false, true), (0x10A, 2, false, true), (0x10B, 2, false, true),
   (0x10C, 4, false, true), (0x10D, 1, false, true)] ++
  (List.range 8).map (fun i => (0x10E + i, 4, false, true)) ++
  [(0x200, 1, true, false), (0x201, 1, true, false), (0x202, 1, true, false)] ++
  (List.range 8).map (fun i => (0x300 + i, 2, true, false)) ++
  [(0x308, 2, true, false), (0x400, 1, true, false), (0x401, 1, true, false), (0x402, 1, false, false),
   (0x403, 2, false, false)]

/-- The fields of a system register selector (R375). -/
structure Selector where
  reg : Nat
  word : Nat
  ctx : Nat
  core : Nat
  deriving DecidableEq, Repr

def selector (imm : Word) : Selector :=
  { reg := (imm.extractLsb' 0 12).toNat, word := (imm.extractLsb' 12 4).toNat,
    ctx := (imm.extractLsb' 16 3).toNat, core := (imm.extractLsb' 19 9).toNat }

/-- R375: reserved bits zero, a listed register, a word within it, unused fields zero. -/
def selectorOk (imm : Word) : Bool :=
  let x := selector imm
  imm.extractLsb' 28 4 == 0#4 &&
    selectorShape.any fun r =>
      r.1 == x.reg && decide (x.word < r.2.1) && (r.2.2.1 || x.core == 0) && (r.2.2.2 || x.ctx == 0)

/-- Format V with listed TYPE, MINOR and MOD values. -/
def vsig (f : VFields) (ty minor mod : List Nat) (slots : List Slot) (more : Bool := true) (uniform : Bool := true) :
    Sig :=
  { fields := ty.contains f.ty.toNat && minor.contains f.minor.toNat && mod.contains f.mod.toNat && more
    slots := slots.zip [f.d, f.a, f.b, f.c], uniform }

def upTo (n : Nat) : List Nat := List.range (n + 1)

/-- OFF of a word of R231: a uniform operand where DATA is an s-register. -/
def offOf (data : Operand) : Slot := if isS data then Slot.uni.orNone else .off

/-- Registers from any first register, or from an even one where each element is an FP64 pair (R2, R58, R294; log 109). -/
def Slot.rows (n : Nat) (pairs write : Bool) : Slot :=
  if pairs then { Slot.vrow (2 * n) write with al := 2 } else .vrow n write

/-- ORDER and SCOPE of a plain access, or of the listed orders with scopes up to top (R172, R198). -/
def orderOk (f : MFields) (orders : List Nat) (top : Nat) : Bool :=
  (f.order == 0#2 && f.scope == 0#4) || (orders.contains f.order.toNat && decide (f.scope.toNat ≤ top))

def msig (f : MFields) (size : List Nat) (hint : Nat) (order : Bool) (minor : Nat) (data off : Slot)
    (more : Bool := true) : Sig :=
  { fields := size.contains f.size.toNat && decide (f.hint.toNat ≤ hint) && order && decide (f.minor.toNat ≤ minor) &&
      more
    slots := [(data, f.data), (off, f.off)] }

def plain (f : MFields) : Bool := f.order == 0#2 && f.scope == 0#4

def esig (f : EFields) (func : Bool) (foldUsed : Bool) (d a b : Slot) : Sig :=
  { fields := func && (foldUsed || f.fold == 0#6), slots := [(d, f.d), (a, f.a), (b, f.b)] }

/-- A position of format X: an even s-register pair that is read, or 0 where unused (R281). -/
def xpair (n : BitVec 7) : Slot × Operand := (Slot.ssrc 2, sNum n.toNat)

/-- The range of element positions of a packed register under b32, at most (R148, R149). -/
def laneTypes : List Nat := [1, 2, 3, 4, 5, 6]

def wide (ty : Nat) : Nat := if ty = 3 ∨ ty = 4 ∨ ty = 6 then 2 else 1

/-- FUNC bits of a copy word: SZ, DIR, HINT, SWZ (R255). -/
structure CopyFunc where
  sz : Nat
  dir : Nat
  hint : Nat
  swz : Nat
  rest : Nat
  deriving DecidableEq, Repr

def copyFunc (f : BitVec 16) : CopyFunc :=
  { sz := (f.extractLsb' 0 2).toNat, dir := (f.extractLsb' 2 2).toNat, hint := (f.extractLsb' 4 3).toNat,
    swz := (f.extractLsb' 7 3).toNat, rest := (f.extractLsb' 10 6).toNat }

def CopyFunc.ok (x : CopyFunc) : Bool :=
  decide (x.sz ≤ 2) && decide (x.dir ≤ 2) && decide (x.hint ≤ 5) && x.rest == 0 && (x.swz == 0 || decide (1 ≤ x.dir))

/-- A hint alone in FUNC 6:4 (R255). -/
def hintOnly (f : BitVec 16) : Bool := decide ((copyFunc f).hint ≤ 5) && f.toNat == (copyFunc f).hint * 16

/-- Half-operations of R35 in the multiply class (R68). -/
def multHalf (op : BitVec 4) : Bool := op == 1#4 || op == 2#4 || op == 7#4

/-- The source registers of one half (R67): FMAC reads its D, MOV reads A alone. -/
def halfSources (op : BitVec 4) (d a : BitVec 7) (b : BitVec 8) : List Nat :=
  if op == 15#4 then [a.toNat] else if op == 2#4 then [d.toNat, a.toNat, b.toNat] else [a.toNat, b.toNat]

/-- Distinct members of a short list. -/
def distinct : List Nat → List Nat
  | [] => []
  | x :: xs => if (distinct xs).contains x then distinct xs else x :: distinct xs

/-- The pair rules of R68 that the bits decide. -/
def pairOk (f : PairFields) : Bool :=
  f.z == 0#1 && f.dA.toNat % 4 != f.dB.toNat % 4 &&
  decide ((distinct (halfSources f.opA f.dA f.aA f.bA ++ halfSources f.opB f.dB f.aB f.bB)).length ≤ 3) &&
  !(multHalf f.opA && multHalf f.opB) &&
  (f.opA != 15#4 || f.bA == 0#8) && (f.opB != 15#4 || f.bB == 0#8)

def vReg (n : Nat) : Operand := .v (Fin.ofNat 256 n)

def zeroC (f : CFields) : Bool := f.func == 0#8 && f.target == 0#32

/-- No window pair, no tile and no META where a format X word does not use them (R281). -/
def xrest (f : XFields) (q ap bp lp mt : Bool) : Bool :=
  (q || f.q == 0#4) && (ap || f.ap == 0#7) && (bp || f.bp == 0#7) && (lp || f.lp == 0#7) && (mt || f.mt == 0xFF#8)

def bit16 (f : BitVec 16) (i : Nat) : Bool := f.getLsbD i

/-- The checks of every instruction word. -/
def sig : Instr → Sig
  | .nop _ f => vsig f [0] [0] [0] [.unused, .unused, .unused, .unused]
  | .bra _ f => ⟨f.func == 0#8, [(.unused, f.src)], true⟩
  | .brx _ f => ⟨zeroC f, [(.ssrc 2, f.src)], true⟩
  | .call _ f => ⟨f.func == 0#8, [(.sdst 2, f.src)], true⟩
  | .callx _ f => ⟨f.target == 0#32 && decide (f.func.toNat ≤ 126), [(.ssrc 2, f.src), (.sdst 2, sNum f.func.toNat)], true⟩
  | .ret _ f => ⟨zeroC f, [(.ssrc 2, f.src)], true⟩
  | .split _ f => ⟨f.func == 0#8, [(.unused, f.src)], true⟩
  | .join k f => ⟨zeroC f && !k.g, [(.unused, f.src)], true⟩
  | .skipz k f => ⟨f.func == 0#8 && !k.g, [(.uni, f.src)], true⟩
  | .exrd k f => vsig f [0] (upTo 3) [0] [.sdst 1, .unused, .unused, .unused] (!k.g)
  | .exwr k f => vsig f [0] (upTo 3) [0] [.unused, .uni, .unused, .unused] (!k.g)
  | .plog _ f => vsig f [0] [0] (upTo 15) [.predWr, .predRd, .predRd, .unused]
  | .pmov _ f =>
    vsig f [0] (upTo 3) [0]
      (match f.minor.toNat with
       | 0 => [.vdst 1, .unused, .unused, .unused]
       | 1 => [.unused, .any 1, .unused, .unused]
       | 2 => [.predWr, .any 1, .unused, .unused]
       | _ => [.vdst 1, .predRd, .unused, .unused])
  | .setfmt k f =>
    ⟨decide (f.func.toNat ≤ 3) && !k.g && (f.func != 1#8 || f.imm == 0#32),
     [(if f.func == 1#8 then .ssrc 1 else .unused, f.d)], true⟩
  | .getfmt k f => vsig f [0] [0, 1] [0] [.sdst 1, .unused, .unused, .unused] (!k.g)
  | .mov _ f => vsig f [0, 3] [0] [0] [.dst (wide f.ty.toNat), .any (wide f.ty.toNat), .unused, .unused]
  | .movk _ f => ⟨decide (f.func.toNat ≤ 2), [(.dst (if f.func == 0#8 then 1 else 2), f.d)], true⟩
  | .sel _ f => vsig f [0] [0] [0, 1] [.vdst 1, .any 1, .any 1, .predRd]
  | .iadd _ f => vsig f [0, 1, 2, 10, 11, 12, 13] [0] [0, 1] [.dst 1, .any 1, .any 1, .unused] (f.mod == 0#4 || f.ty != 0#4)
  | .isub _ f => vsig f [0, 1, 2, 10, 11, 12, 13] [0] [0, 1] [.dst 1, .any 1, .any 1, .unused] (f.mod == 0#4 || f.ty != 0#4)
  | .imul _ f => vsig f [0, 1, 2] [0] [0] [.dst 1, .any 1, .any 1, .unused]
  | .imulh _ f => vsig f [1, 2] [0] [0] [.dst 1, .any 1, .any 1, .unused]
  | .imad _ f => vsig f [0, 1, 2] [0] [0] [.dst 1, .any 1, .any 1, .any 1]
  | .imin _ f => vsig f [0, 1, 2, 10, 11, 12, 13] [0] [0] [.dst 1, .any 1, .any 1, .unused]
  | .imax _ f => vsig f [0, 1, 2, 10, 11, 12, 13] [0] [0] [.dst 1, .any 1, .any 1, .unused]
  | .iabs _ f => vsig f [2, 11, 13] [0] [0, 1] [.dst 1, .any 1, .unused, .unused]
  | .ineg _ f => vsig f [0, 2, 11, 13] [0] [0, 1] [.dst 1, .any 1, .unused, .unused] (f.mod == 0#4 || f.ty != 0#4)
  | .and _ f => vsig f [0] [0] [0] [.dst 1, .any 1, .any 1, .unused]
  | .or _ f => vsig f [0] [0] [0] [.dst 1, .any 1, .any 1, .unused]
  | .xor _ f => vsig f [0] [0] [0] [.dst 1, .any 1, .any 1, .unused]
  | .andn _ f => vsig f [0] [0] [0] [.dst 1, .any 1, .any 1, .unused]
  | .shl _ f => vsig f [0] [0] [0] [.dst 1, .any 1, .any 1, .unused]
  | .shr _ f => vsig f [0] [0] [0] [.dst 1, .any 1, .any 1, .unused]
  | .sar _ f => vsig f [0] [0] [0] [.dst 1, .any 1, .any 1, .unused]
  | .rot _ f => vsig f [0] [0] [0, 1] [.dst 1, .any 1, .any 1, .unused]
  | .bfx _ f => vsig f [1, 2] [0] [0] [.dst 1, .any 1, .any 1, .unused]
  | .bfi _ f => vsig f [0] [0] [0] [.dst 1, .any 1, .any 1, .any 1]
  | .bperm _ f => vsig f [0] [0] [0] [.dst 1, .any 1, .any 1, .any 1]
  | .popc _ f => vsig f [0] [0] [0] [.dst 1, .any 1, .unused, .unused]
  | .clz _ f => vsig f [0] [0] [0] [.dst 1, .any 1, .unused, .unused]
  | .brev _ f => vsig f [0] [0] [0] [.dst 1, .any 1, .unused, .unused]
  | .icmp _ f => vsig f (upTo 4) (upTo 5) (upTo 2) [.predWr, .any (wide f.ty.toNat), .any (wide f.ty.toNat), .unused]
  | .isat _ f => vsig f [1, 2] [0] [0] [.dst 1, .any 1, .any 1, .unused]
  | .iadd64 _ f => vsig f [3, 4] (upTo 2) [0, 1] [.dst 2, .any 2, .any (if f.minor == 0#5 then 2 else 1), .unused]
  | .imad64 _ f => vsig f [3, 4] [0] [0] [.dst 2, .any 1, .any 1, .any 2]
  | .lea _ f => vsig f [0] [0, 1] (upTo 15) [.dst 2, .any 2, .any 1, .unused]
  | .icvt _ f => vsig f [1, 2, 3, 4] [1, 2, 3, 4] [0, 1] [.dst (wide f.ty.toNat), .any (wide f.minor.toNat), .unused, .unused]
  | .fadd _ f => vsig f [5, 7, 8, 9] [0] (upTo 3) [.dst 1, .any 1, .any 1, .unused]
  | .fsub _ f => vsig f [5, 7, 8, 9] [0] (upTo 3) [.dst 1, .any 1, .any 1, .unused]
  | .fmul _ f => vsig f [5, 7, 8, 9] [0] (upTo 3) [.dst 1, .any 1, .any 1, .unused]
  | .ffma _ f => vsig f [5, 7, 8, 9] [0] (upTo 7) [.dst 1, .any 1, .any 1, .any 1]
  | .fmin _ f => vsig f [5, 7, 8, 9] [0] [0] [.dst 1, .any 1, .any 1, .unused]
  | .fmax _ f => vsig f [5, 7, 8, 9] [0] [0] [.dst 1, .any 1, .any 1, .unused]
  | .fcmp _ f => vsig f [5] (upTo 7) (upTo 2) [.predWr, .any 1, .any 1, .unused]
  | .fclass _ f => vsig f [5, 6] [0] [0] [.dst 1, .any (wide f.ty.toNat), .unused, .unused]
  | .frnd _ f => vsig f [5, 6] (upTo 4) [0] [.dst (wide f.ty.toNat), .any (wide f.ty.toNat), .unused, .unused]
  | .fcvt _ f => vsig f [5, 6, 7] [5, 6, 7, 8, 9] [0] [.dst (wide f.ty.toNat), .any (wide f.minor.toNat), .unused, .unused] (f.minor.toNat != f.ty.toNat)
  | .f2i _ f => vsig f [1, 2, 3, 4] [5, 6] (upTo 4) [.dst (wide f.ty.toNat), .any (wide f.minor.toNat), .unused, .unused]
  | .i2f _ f => vsig f [5, 6] [1, 2, 3, 4] (upTo 4) [.dst (wide f.ty.toNat), .any (wide f.minor.toNat), .unused, .unused]
  | .dadd _ f => vsig f [6] [0] (upTo 3) [.dst 2, .any 2, .any 2, .unused]
  | .dmul _ f => vsig f [6] [0] (upTo 3) [.dst 2, .any 2, .any 2, .unused]
  | .dfma _ f => vsig f [6] [0] (upTo 7) [.dst 2, .any 2, .any 2, .any 2]
  | .dcmp _ f => vsig f [6] (upTo 7) (upTo 2) [.predWr, .any 2, .any 2, .unused]
  | .rcp _ f => vsig f [5] [0] [0] [.dst 1, .any 1, .unused, .unused]
  | .rsq _ f => vsig f [5] [0] [0] [.dst 1, .any 1, .unused, .unused]
  | .sqrt _ f => vsig f [5] [0] [0] [.dst 1, .any 1, .unused, .unused]
  | .exp2 _ f => vsig f [5] [0] [0] [.dst 1, .any 1, .unused, .unused]
  | .log2 _ f => vsig f [5] [0] [0] [.dst 1, .any 1, .unused, .unused]
  | .exp _ f => vsig f [5] [0] [0] [.dst 1, .any 1, .unused, .unused]
  | .log _ f => vsig f [5] [0] [0] [.dst 1, .any 1, .unused, .unused]
  | .sin _ f => vsig f [5] [0] [0] [.dst 1, .any 1, .unused, .unused]
  | .cos _ f => vsig f [5] [0] [0] [.dst 1, .any 1, .unused, .unused]
  | .tanh _ f => vsig f [5] [0] [0] [.dst 1, .any 1, .unused, .unused]
  | .sigm _ f => vsig f [5] [0] [0] [.dst 1, .any 1, .unused, .unused]
  | .pack _ f => vsig f [0, 8, 9] (upTo 3) [0] [{ Slot.dst 1 with rd := true }, .any 1, .any 1, (Slot.any 1).orNone] (f.ty == 0#4 || f.minor == 0#5)
  | .unpk _ f => vsig f [0, 8, 9] (upTo 7) [0] [.dst 1, .any 1, .unused, (Slot.any 1).orNone] (f.ty == 0#4 || decide (f.minor.toNat ≤ 1))
  | .fstat k f =>
    vsig f [0] (upTo 2) [0]
      (match f.minor.toNat with
       | 0 => [.sdst 1, .unused, .unused, .unused]
       | 1 => [(Slot.sdst 1).orNone, .unused, .unused, .unused]
       | _ => [.unused, .uni, .unused, .unused]) (!k.g)
  | .seedr _ f =>
    vsig f [0] [0, 1] [0]
      (if f.minor == 0#5 then [.vdst 1, .unused, .unused, .unused] else [.unused, .any 1, .unused, .unused])
  | .vote _ f => vsig f [0] (upTo 3) [0, 1] [.dst 1, .predRd, .unused, .unused] true false
  | .shfl _ f =>
    let n := wide f.ty.toNat
    vsig f [0, 3] (upTo 3) (upTo 5) [.vdst n, .vsrc n, { v := true, s := true, imm := true, rd := true }, Slot.predWr.orNone]
  | .bcast _ f =>
    let n := wide f.ty.toNat
    vsig f [0, 3] [0, 1] [0] [.dst n, .vsrc n, if f.minor == 0#5 then .uni else .unused, .unused] true false
  | .lred _ f =>
    let n := wide f.ty.toNat
    vsig f laneTypes (upTo 5) [0, 2] [.dst n, .vsrc n, .unused, .unused]
      ((decide (f.minor.toNat ≤ 2) || decide (f.ty.toNat ≤ 4)) && (f.mod == 0#4 || (f.minor == 0#5 && decide (f.ty.toNat ≤ 4)))) false
  | .lscan _ f =>
    let n := wide f.ty.toNat
    vsig f laneTypes (upTo 5) (upTo 3) [.vdst n, .vsrc n, .unused, .unused]
      ((decide (f.minor.toNat ≤ 2) || decide (f.ty.toNat ≤ 4)) && (!f.mod.getLsbD 1 || (f.minor == 0#5 && decide (f.ty.toNat ≤ 4))))
  | .matchv _ f => vsig f [0, 3] [0] [0] [.vdst 1, .vsrc (wide f.ty.toNat), .unused, Slot.predWr.orNone]
  | .rbal _ f => vsig f [1] [0] [0] [.vdst 2, .vsrc 1, .uni, .unused]
  | .rwalk _ f => vsig f [1] [0] [0] [.vdst 2, .vsrc 1, .uni, Slot.predWr.orNone]
  | .segred _ f =>
    let n := wide f.ty.toNat
    vsig f laneTypes (upTo 5) (upTo 3) [.vdst n, .vsrc n, .uni, .unused]
      ((decide (f.minor.toNat ≤ 2) || decide (f.ty.toNat ≤ 4)) && (!f.mod.getLsbD 1 || (f.minor == 0#5 && decide (f.ty.toNat ≤ 4))))
  | .ld _ f => msig f (upTo 4) 5 (orderOk f [1] 10) 1 (.vdst (sizeRegs f.size.toNat)) .off (f.minor == 0#4 || decide (f.size.toNat ≤ 1))
  | .st _ f => msig f (upTo 4) 5 (orderOk f [2] 10) 0 (.store (sizeRegs f.size.toNat)) .off
  | .ldu _ f => msig f (upTo 4) 5 (orderOk f [1] 10) 1 (.sdst (sizeRegs f.size.toNat)) Slot.uni.orNone (f.minor == 0#4 || decide (f.size.toNat ≤ 1))
  | .ldl _ f => msig f (upTo 4) 0 (orderOk f [1] 1) 1 (.vdst (sizeRegs f.size.toNat)) .off (f.greg == 0#3 && (f.minor == 0#4 || decide (f.size.toNat ≤ 1)))
  | .stl _ f => msig f (upTo 4) 0 (orderOk f [2] 1) 0 (.store (sizeRegs f.size.toNat)) .off (f.greg == 0#3)
  | .pref _ f => msig f [0] 5 (plain f) 1 .unused .off
  | .preft _ f => esig f (decide (f.func.toNat ≤ 5)) false .unused (.ssrc 2) (.ssrc 1)
  | .lock _ f => msig f [0] 5 (plain f) 0 (.dst 1) .off
  | .unlock _ f => msig f [0] 0 (plain f) 0 (.dst 1) .off
  | .winset _ f => esig f (decide (f.func.toNat ≤ 3)) false (.sdst 1) (.ssrc 2) (.ssrc 2)
  | .winclr _ f => esig f (f.func == 0#16) false (.sdst 1) .uni .unused
  | .cwb _ f => msig f [0] 0 (plain f) 1 .unused .off
  | .cinv _ f => msig f [0] 0 (plain f) 1 .unused .off
  | .gbind _ f => msig f [0] 0 (plain f) 0 (.ssrc 2) .uni (f.imm12 == 0#12)
  | .ginv _ f => msig f [0] 0 (plain f) 0 .unused .unused (f.imm12 == 0#12)
  | .qclass _ f => msig f (upTo 4) 0 (plain f) 0 (.dst 1) .off
  | .fence _ f => msig f [0] 0 (f.order != 0#2 && decide (f.scope.toNat ≤ 10)) 0 .unused .unused (f.greg == 0#3 && f.imm12 == 0#12)
  | .atom _ f => msig f [2, 3] 5 (decide (f.scope.toNat ≤ 10)) 11 { Slot.dst (sizeRegs f.size.toNat) with rd := true } (offOf f.data)
  | .cas _ f => msig f [2, 3] 5 (decide (f.scope.toNat ≤ 10)) 0 { Slot.dst (2 * sizeRegs f.size.toNat) with rd := true } (offOf f.data)
  | .cas128 _ f => msig f [4] 5 (decide (f.scope.toNat ≤ 10)) 0 { Slot.dst 8 with rd := true } (offOf f.data)
  | .red _ f =>
    msig f [2, 3] 5 ((f.order == 0#2 || f.order == 2#2) && decide (f.scope.toNat ≤ 10)) 11
      { Slot.store (sizeRegs f.size.toNat) with s := false } .off (f.minor != 8#4)
  | .mon _ f => msig f [0] 0 (plain f) 0 .unused Slot.uni.orNone
  | .mwait _ f => msig f [0] 0 (plain f) 0 .unused .unused (f.greg == 0#3 && f.imm12 == 0#12)
  | .watch _ f =>
    msig f [2, 3] 0 ((f.order == 0#2 || f.order == 1#2) && decide (f.scope.toNat ≤ 10)) 5
      { Slot.ssrc (2 * sizeRegs f.size.toNat) with wr := true } Slot.uni.orNone
  | .bar _ f => esig f (decide (f.func.toNat ≤ 7)) false .unused .uni .unused
  | .bara _ f => esig f (decide (f.func.toNat ≤ 7)) false (.sdst 1) .uni .unused
  | .barw _ f => esig f (decide (f.func.toNat ≤ 7)) false .unused .uni .unused
  | .slop _ f =>
    msig f [2] 5 ((f.order == 0#2 || f.order == 1#2) && decide (f.scope.toNat ≤ 10)) 5 { Slot.dst 1 with rd := true } (offOf f.data)
  | .cpy _ f =>
    let x := copyFunc f.func
    esig f x.ok true .unused (.vsrc (if x.dir = 1 then 1 else 2)) (.vsrc (if x.dir = 0 then 1 else 2))
  | .cpyb _ f =>
    let x := copyFunc f.func
    let el := isV f.d
    esig f (x.ok && x.sz == 0) true (if el then .vsrc 1 else .uni)
      (if x.dir = 1 then (if el then .vsrc 1 else .uni) else if el then .vsrc 2 else .ssrc 2)
      (if x.dir = 0 then (if el then .vsrc 1 else .uni) else if el then .vsrc 2 else .ssrc 2)
  | .gath _ f =>
    let el := isV f.d
    esig f (hintOnly f.func) true (if el then .vsrc 4 else .ssrc 4) (if el then .vsrc 2 else .ssrc 2) (if el then .vsrc 2 else .ssrc 2)
  | .scat _ f =>
    let el := isV f.d
    esig f (hintOnly f.func) true (if el then .vsrc 4 else .ssrc 4) (if el then .vsrc 2 else .ssrc 2) (if el then .vsrc 2 else .ssrc 2)
  | .mcast _ f =>
    let el := isV f.d
    esig f (hintOnly f.func) true (if el then .vsrc 4 else .ssrc 4) (if el then .vsrc 2 else .ssrc 2) .unused
  | .falloc _ f => esig f (decide (f.func.toNat ≤ 16)) true (.sdst 1) .uni .uni
  | .ffree _ f => esig f (f.func == 0#16) true (.sdst 1) .unused .unused
  | .fwait _ f =>
    if f.func == 1#16 then esig f true true (.vdst 1) (.any 1) .unused
    else esig f (decide (f.func.toNat ≤ 2)) true .unused .unused .unused
  | .fstate _ f => esig f (decide (f.func.toNat ≤ 3)) true (.sdst 1) .unused .unused
  | .spop _ f => esig f (decide (f.func.toNat ≤ 7)) false (.sdst 2) .unused .unused
  | .spush _ f =>
    if bit16 f.func 3 then esig f (decide (f.func.toNat ≤ 15)) false .unused (.ssrc 2) (.ssrc 1)
    else esig f (decide (f.func.toNat ≤ 7)) false (.sdst 1) .unused .unused
  | .bxpect _ f => esig f (decide (f.func.toNat ≤ 1)) true .unused .uni .unused
  | .rxpect _ f => esig f (decide (f.func.toNat ≤ 1)) true .unused .uni .unused
  | .cfence _ f => esig f (f.func == 0#16) false .unused .unused .unused
  | .yield _ f => esig f true true .unused .unused .unused
  | .mma _ f => ⟨xrest f true true true true false && decide (f.func.toNat ≤ 3), [xpair f.ap, xpair f.bp, xpair f.lp], true⟩
  | .mmas _ f => ⟨xrest f true true true true false && decide (f.func.toNat ≤ 3), [xpair f.ap, xpair f.bp, xpair f.lp], true⟩
  | .mmasp _ f =>
    ⟨f.mt != 0xFF#8 && decide (f.func.toNat ≤ 3),
     [xpair f.ap, xpair f.bp, xpair f.lp, (.vrow 8 false, vReg f.mt.toNat)], true⟩
  | .aclr _ f => ⟨xrest f true false false false false && decide (f.func.toNat ≤ 1) && (!bit16 f.func 0 || !f.q.getLsbD 0), [], true⟩
  | .ard _ f =>
    let d64 := bit16 f.func 7
    esig f (decide (f.func.toNat < 256) && (!d64 || (!f.func.getLsbD 0 && f.func.extractLsb' 4 2 != 3#2))) false
      (.rows (2 ^ (f.func.extractLsb' 4 2).toNat) d64 true) .uni .unused
  | .awr _ f =>
    let d64 := bit16 f.func 7
    esig f (decide (f.func.toNat < 256) && (!d64 || (!f.func.getLsbD 0 && f.func.extractLsb' 4 2 != 3#2))) false
      .unused (.rows (2 ^ (f.func.extractLsb' 4 2).toNat) d64 false) .uni
  | .acvt _ f => ⟨xrest f true true true false false && decide (f.func.toNat ≤ 3), [xpair f.ap, xpair f.bp], true⟩
  | .comp48 _ f => vsig f [0, 12, 13] [0] [0, 1] [{ Slot.vdst 2 with rd := f.mod == 1#4 }, .vsrc 1, .vsrc 1, .unused]
  | .cbld _ f => ⟨xrest f false true false false false && decide (f.func.toNat ≤ 3), [xpair f.ap], true⟩
  | .xvset _ f => vsig f [0] [0] [0] [.unused, .uni, .unused, .unused]
  | .sclb _ f => ⟨xrest f false true true false false && decide (f.func.toNat ≤ 31), [xpair f.ap, xpair f.bp], true⟩
  | .mbat _ f => esig f (f.func == 0#16) false (.sdst 1) .unused .unused
  | .bwait _ f => esig f (f.func == 0#16) false .unused .uni .unused
  | .fact _ f =>
    let ldb := bit16 f.func 5
    ⟨xrest f true ldb false false false && decide (f.func.toNat < 64) && f.func.extractLsb' 0 2 != 3#2 &&
       f.func.extractLsb' 2 2 != 3#2 && (!bit16 f.func 4 || !f.q.getLsbD 0), if ldb then [xpair f.ap] else [], true⟩
  | .trsl _ f =>
    ⟨xrest f true false false false false && decide (f.func.toNat < 1024) && f.func.extractLsb' 4 3 != 7#3 &&
       f.func.extractLsb' 7 2 != 3#2 && f.func.extractLsb' 0 4 != f.q &&
       (!bit16 f.func 9 || (!f.q.getLsbD 0 && !f.func.getLsbD 0)), [], true⟩
  | .pivrd _ f => esig f (decide (f.func.toNat ≤ 31)) false (.vdst 1) .unused .unused
  | .patch _ f => esig f (f.func == 0#16) false .uni (.ssrc 2) (.ssrc 2)
  | .stamp _ f => esig f (f.func == 0#16) false .unused (.ssrc 2) .unused
  | .hshift _ f => ⟨xrest f false true true true false && f.func == 0#16, [xpair f.ap, xpair f.bp, xpair f.lp], true⟩
  | .pnext k f => esig f (f.func == 0#16 && !k.g) false .unused .unused .unused
  | .ppost _ f => esig f (decide (f.func.toNat ≤ 7) && f.func.extractLsb' 0 2 != 3#2) false .unused .uni .uni
  | .pend k f => esig f (decide (f.func.toNat ≤ 1) && !k.g) false .unused .unused .unused
  | .resid _ f => esig f (decide (f.func.toNat ≤ 1)) false .unused .uni .unused
  | .rprop _ f => esig f (decide (f.func.toNat ≤ 1)) false .unused (.ssrc 2) .uni
  | .vpub _ f => esig f (f.func == 0#16) false .unused .uni .unused
  | .vread _ f => esig f (f.func == 0#16) false (.sdst 4) .uni .unused
  | .admitReq _ f => esig f (f.func == 0#16) false (.sdst 2) .uni .uni
  | .dline _ f => esig f ([0, 1, 4].contains f.func.toNat) false (.sdst 1) .uni (.ssrc 2)
  | .mbrd _ f => esig f (decide (f.func.toNat ≤ 3)) false (.vdst 1) .uni .unused
  -- MBWR's entry pairs a status in an s-register with a payload in v-registers (R328), and R58 yields to it.
  | .mbwr _ f => { esig f (decide (f.func.toNat ≤ 3)) false (.sdst 1) (.vsrc 1) .uni with uniform := false }
  | .wfetch _ f => esig f (f.func == 0#16) false (.sdst 1) .uni .unused
  | .genrd _ f => esig f (decide (f.func.toNat ≤ 3)) false (.sdst 1) .unused .unused
  | .send _ f => esig f (decide (f.func.toNat ≤ 3)) false .uni (if bit16 f.func 0 then .uni else .vsrc 1) .unused
  | .recv _ f => esig f (decide (f.func.toNat ≤ 7)) false (if bit16 f.func 2 then .uni else .vrow 2 true) .uni (.sdst 1)
  | .xchg _ f => esig f (f.func == 0#16) false (.vdst 1) (.vsrc 1) .uni
  | .throt _ f => esig f (f.func == 0#16) false (.sdst 1) .unused .unused
  | .trap _ f => ⟨f.target == 0#32, [(.unused, f.src)], true⟩
  | .tret k f => ⟨zeroC f && !k.g, [(.unused, f.src)], true⟩
  | .svc _ f => ⟨f.target == 0#32, [(.unused, f.src)], true⟩
  | .srr k f => ⟨f.func == 0#8 && !k.g && selectorOk f.imm, [(.sdst 1, f.d)], true⟩
  | .srw k f => ⟨f.func == 0#8 && !k.g && selectorOk f.imm, [(.uni, f.d)], true⟩
  | .preempt k f => esig f (decide (f.func.toNat ≤ 1) && !k.g) false (.sdst 1) .uni .unused
  | .ctxsv k f => esig f (f.func == 0#16 && !k.g) false (.sdst 1) .uni (.ssrc 2)
  | .ctxld k f => esig f (f.func == 0#16 && !k.g) false (.sdst 1) .uni (.ssrc 2)
  | .tlbinv k f => esig f (decide (f.func.toNat ≤ 1) && !k.g) false (.sdst 1) (if f.func == 0#16 then .ssrc 2 else .unused) .uni
  | .bias k f => esig f (decide (f.func.toNat ≤ 1) && !k.g) false (.sdst 1) (.ssrc 2) .unused
  | .mapg k f => esig f (f.func == 0#16 && !k.g) false (.sdst 2) (.ssrc 2) .uni
  | .freeze k f => esig f (f.func == 0#16 && !k.g) false (.sdst 1) .uni .unused
  | .thaw k f => esig f (decide (f.func.toNat ≤ 2) && !k.g) false (.sdst 1) .uni .unused
  | .pairWord _ f =>
    ⟨pairOk f,
     [(.vdst 1, vReg f.dA.toNat), (.vdst 1, vReg f.dB.toNat)] ++
       (halfSources f.opA f.dA f.aA f.bA ++ halfSources f.opB f.dB f.aB f.bB).map fun n => (.vsrc 1, vReg n), true⟩
  | .clauseIssue _ _ _ => ⟨false, [], true⟩
  | .registerWriteComplete _ _ _ _ => ⟨false, [], true⟩
  | .storePerform _ _ _ => ⟨false, [], true⟩
  | .homeRequest _ _ => ⟨false, [], true⟩
  | .drainRequest _ => ⟨false, [], true⟩
  | .drainComplete _ => ⟨false, [], true⟩
  | .flushMarker _ => ⟨false, [], true⟩
  | .watchWake _ _ => ⟨false, [], true⟩
  | .lookoutPoll _ _ => ⟨false, [], true⟩
  | .probeComplete _ _ => ⟨false, [], true⟩
  | .skidderLanding _ _ _ _ => ⟨false, [], true⟩
  | .multicastRegister _ _ => ⟨false, [], true⟩
  | .matrixAccept _ _ => ⟨false, [], true⟩
  | .engineWordStart _ => ⟨false, [], true⟩
  | .accumulatorWrite _ => ⟨false, [], true⟩
  | .scrubDone _ _ => ⟨false, [], true⟩
  | .teamPop _ _ _ => ⟨false, [], true⟩
  | .post _ => ⟨false, [], true⟩
  | .withdraw _ => ⟨false, [], true⟩
  | .deadlineExpiry _ _ => ⟨false, [], true⟩
  | .notify _ _ _ _ => ⟨false, [], true⟩
  | .mailboxInWrite _ _ _ _ _ => ⟨false, [], true⟩
  | .oack _ _ _ => ⟨false, [], true⟩
  | .ovrclr _ _ _ => ⟨false, [], true⟩
  | .swpost _ _ => ⟨false, [], true⟩
  | .wfetchLanding _ _ => ⟨false, [], true⟩
  | .flitRoute _ => ⟨false, [], true⟩
  | .flitEject _ => ⟨false, [], true⟩
  | .bridgeCross _ => ⟨false, [], true⟩
  | .onausPacket _ _ => ⟨false, [], true⟩
  | .onausLinkLoss _ => ⟨false, [], true⟩
  | .linkRetrain _ => ⟨false, [], true⟩
  | .peerRequest _ _ _ _ _ _ => ⟨false, [], true⟩
  | .hostBar2Access _ _ _ _ _ => ⟨false, [], true⟩
  | .cxlMemAccess _ _ _ _ => ⟨false, [], true⟩
  | .atomicopCompleter _ _ _ _ _ _ => ⟨false, [], true⟩
  | .completerAbort _ _ => ⟨false, [], true⟩
  | .atomicopCompletion _ _ _ _ _ => ⟨false, [], true⟩
  | .establish _ _ => ⟨false, [], true⟩
  | .teardown => ⟨false, [], true⟩
  | .lockrid => ⟨false, [], true⟩
  | .unlockrid => ⟨false, [], true⟩
  | .attest => ⟨false, [], true⟩
  | .ctxstate => ⟨false, [], true⟩
  | .fabric => ⟨false, [], true⟩
  | .commandDone => ⟨false, [], true⟩
  | .eventClear _ => ⟨false, [], true⟩
  | .registerWrite _ _ _ => ⟨false, [], true⟩
  | .faultrecRemove _ => ⟨false, [], true⟩
  | .waymaskWrite _ _ => ⟨false, [], true⟩
  | .teamQuiesced _ _ => ⟨false, [], true⟩
  | .boot _ => ⟨false, [], true⟩
  | .d3coldExit _ => ⟨false, [], true⟩
  | .clkstepDown _ => ⟨false, [], true⟩
  | .clkstepUp _ => ⟨false, [], true⟩
  | .thermalStop _ => ⟨false, [], true⟩
  | .pldmMonitor _ _ _ => ⟨false, [], true⟩
  | .pldmFirmwareUpdate _ => ⟨false, [], true⟩
  | .mctpAttest _ => ⟨false, [], true⟩
  | .correctedError _ => ⟨false, [], true⟩
  | .uncorrectableError _ => ⟨false, [], true⟩
  | .thermalStopNear _ => ⟨false, [], true⟩
  | .cmdWriteIgnored _ => ⟨false, [], true⟩
  | .powerLimitSet _ => ⟨false, [], true⟩
  | .mailboxUnitReadComplete _ _ => ⟨false, [], true⟩
  | .engineWritesLanded _ _ => ⟨false, [], true⟩
  | .cxlCacheSnoop _ _ _ => ⟨false, [], true⟩

/-- R58, R121: an s-register destination with a source that varies from lane to lane. -/
def lanesIntoS (x : Sig) : Bool :=
  x.uniform && x.slots.any (fun p => p.1.wr && isS p.2 && !p.1.rd) && x.slots.any (fun p => p.1.rd && perLane p.2)

/-- R231, R232: a returning atomic or SLOP with an s-register DATA needs a uniform OFF. -/
def lanesIntoData (x : Sig) : Bool :=
  x.uniform && x.slots.any (fun p => p.1.wr && p.1.rd && isS p.2) && x.slots.any (fun p => p.1.rd && !p.1.wr && perLane p.2)

/-- R56: without G, the predicate and sense bits are zero. -/
def ctlOk (k : Ctl) : Bool := k.g || (k.gp == 0#4 && !k.n)

/-- The whole static check of a word: R71 orders 1 to 3 as far as the word's bits decide them. -/
def legal (i : Instr) : Bool :=
  match i.view with
  | none => false
  | some w =>
    let x := sig i
    ctlOk w.ctl && x.fields && x.slots.all (fun p => p.1.ok p.2) && !lanesIntoS x && !lanesIntoData x

/-- The class bit that a major opcode needs (R70): 0 memory, 1 copy and matrix, 2 special functions and lanes,
3 phase, packet and system; none for the others. -/
def classBit (op : Nat) : Option Nat :=
  if 0x40 ≤ op ∧ op ≤ 0x4A then some 2
  else if 0x50 ≤ op ∧ op ≤ 0x5F then some 2
  else if 0x60 ≤ op ∧ op ≤ 0x8F then some 0
  else if 0x90 ≤ op ∧ op ≤ 0xB7 then some 1
  else if 0xB8 ≤ op ∧ op ≤ 0xDF then some 3
  else none

/-- Words that must stand last in their clause: the transfer words of R64 and the sleeping words. -/
def mustBeLast : Instr → Bool
  | .bra .. | .brx .. | .call .. | .callx .. | .ret .. | .split .. | .join .. | .skipz .. => true
  | .pnext .. | .pend .. | .yield .. | .trap .. | .svc .. | .tret .. => true
  | .mwait .. | .watch .. | .bar .. | .barw .. => true
  | .fwait .. | .spop .. | .cfence .. => true
  | .bxpect _ f | .rxpect _ f => bit16 f.func 0
  | .bwait .. | .xchg .. | .ctxsv .. => true
  | .recv _ f => !bit16 f.func 0
  | _ => false

/-- Collective words (R282, R336). -/
def collective : Instr → Bool
  | .mma .. | .mmas .. | .mmasp .. | .aclr .. | .acvt .. | .fact .. | .trsl .. | .patch .. | .stamp .. | .hshift .. => true
  | _ => false

/-- Transfers that ask for agreement of the running lanes (R108, R382). -/
def agreeing : Instr → Bool
  | .bra .. | .brx .. | .call .. | .callx .. | .ret .. | .trap .. | .svc .. => true
  | _ => false

/-- Window words (R279, and the solver words). -/
def windowWord : Instr → Bool
  | .mma .. | .mmas .. | .mmasp .. | .aclr .. | .ard .. | .awr .. | .acvt .. | .cbld .. | .sclb .. | .mbat .. | .bwait .. => true
  | .fact .. | .trsl .. | .pivrd .. | .patch .. | .stamp .. | .hshift .. => true
  | _ => false

/-- Engine words: they issue only when the store counter is zero (R219, R254, R285, R337). -/
def engineWord : Instr → Bool
  | .cpy .. | .cpyb .. | .gath .. | .scat .. | .mcast .. => true
  | .mma .. | .mmas .. | .mmasp .. | .acvt .. => true
  | .fact .. | .trsl .. | .patch .. | .stamp .. | .hshift .. => true
  | _ => false

/-- Supervisor-only words (R369); SRR, MBRD and MBWR depend on their operands and are checked with them. -/
def supervisorOnly : Instr → Bool
  | .tret .. | .srw .. | .preempt .. | .ctxsv .. | .ctxld .. | .tlbinv .. | .bias .. | .mapg .. | .freeze .. | .thaw .. => true
  | _ => false

end Sys2Proof.Machine
end

