-- ==== Sys2Proof/WellFormed.lean ====
section
/-! DEFINITION. Well-formed instructions: an instruction word whose fields hold only listed values (R56, R58, R61 to
R63, R68, R71 orders 1 to 3). The machine's own steps have no word and are not well-formed words. -/

namespace Sys2Proof

/-- The word passes every check that its own bits decide. -/
abbrev Instr.WellFormed (i : Instr) : Prop := Machine.legal i = true

/-- The operand stands where the position allows it (R57, R58). -/
abbrev OperandFits (x : Machine.Slot) (o : Operand) : Prop := x.ok o = true

/-- The guard fields are zero where no guard is enabled (R56). -/
abbrev Ctl.WellFormed (k : Ctl) : Prop := Machine.ctlOk k = true

end Sys2Proof
end

