-- ==== Sys2Proof/Decode.lean ====
section
/-! DEFINITION. The decoder, total on every word and every byte list, which rejects by name; and the encoder, both
written from the field tables of R35, R56, R57, R60, R61 and the opcode map of R69. -/

namespace Sys2Proof

/-- Why a word is not an instruction of the machine. -/
inductive Reject where
  /-- fewer than eight bytes -/
  | truncated
  /-- OP is 0xE0 to 0xEF or a dash of R69 (R71 order 1) -/
  | unassigned
  /-- guard fields without a guard (R56) -/
  | commonFields
  /-- a reserved operand code (R57) -/
  | reservedOperand
  /-- a field, operand position or pair rule that the instruction's entry refuses (R58, R61, R63, R68) -/
  | refusedFields
  deriving DecidableEq, Repr

/-- The specials by code (R60); 0x1BF is reserved. -/
def specialOf : Nat → Option Special
  | 0 => some .lane | 1 => some .warp | 2 => some .team | 3 => some .core | 4 => some .exec | 5 => some .zero
  | 6 => some .ctx | 7 => some .cluster | 8 => some .quad | 9 => some .die | 10 => some .blk | 11 => some .corder
  | 12 => some .twarp | 13 => some .lmlt | 14 => some .ones
  | _ => none

def specialCode : Special → Nat
  | .lane => 0 | .warp => 1 | .team => 2 | .core => 3 | .exec => 4 | .zero => 5 | .ctx => 6 | .cluster => 7
  | .quad => 8 | .die => 9 | .blk => 10 | .corder => 11 | .twarp => 12 | .lmlt => 13 | .ones => 14

/-- The operand codes of R57. -/
def operandOf (c : BitVec 9) : Option Operand :=
  if c.toNat < 0x100 then some (.v (Fin.ofNat 256 c.toNat))
  else if c.toNat < 0x180 then some (.s (Fin.ofNat 128 (c.toNat - 0x100)))
  else if c.toNat < 0x1A0 then some (.imm (Fin.ofNat 32 (c.toNat - 0x180)))
  else if c.toNat < 0x1B0 then some (.fp (Fin.ofNat 16 (c.toNat - 0x1A0)))
  else if c.toNat < 0x1C0 then (specialOf (c.toNat - 0x1B0)).map Operand.sp
  else if c.toNat = 0x1FF then some .none
  else none

def operandCode : Operand → BitVec 9
  | .v n => BitVec.ofNat 9 n.val
  | .s n => BitVec.ofNat 9 (0x100 + n.val)
  | .imm n => BitVec.ofNat 9 (0x180 + n.val)
  | .fp n => BitVec.ofNat 9 (0x1A0 + n.val)
  | .sp x => BitVec.ofNat 9 (0x1B0 + specialCode x)
  | .none => 0x1FF#9

/-- Bits hi:lo of a word, as a vector of n bits. -/
def field (w : Dword) (lo n : Nat) : BitVec n := w.extractLsb' lo n

def ctlOf (w : Dword) : Ctl :=
  { sw := w.getLsbD 63, g := w.getLsbD 62, gp := field w 58 4, n := w.getLsbD 57 }

def vOf (w : Dword) : Option VFields := do
  let d ← operandOf (field w 40 9)
  let a ← operandOf (field w 31 9)
  let b ← operandOf (field w 22 9)
  let c ← operandOf (field w 13 9)
  return { d, a, b, c, ty := field w 9 4, minor := field w 4 5, mod := field w 0 4 }

def kOf (w : Dword) : Option KFields := do
  let d ← operandOf (field w 40 9)
  return { d, func := field w 32 8, imm := field w 0 32 }

def mOf (w : Dword) : Option MFields := do
  let data ← operandOf (field w 40 9)
  let off ← operandOf (field w 28 9)
  return { data, greg := field w 37 3, off, imm12 := field w 16 12, size := field w 13 3, hint := field w 10 3,
           order := field w 8 2, scope := field w 4 4, minor := field w 0 4 }

def cOf (w : Dword) : Option CFields := do
  let src ← operandOf (field w 40 9)
  return { src, func := field w 32 8, target := field w 0 32 }

def eOf (w : Dword) : Option EFields := do
  let d ← operandOf (field w 40 9)
  let a ← operandOf (field w 31 9)
  let b ← operandOf (field w 22 9)
  return { d, a, b, fold := field w 16 6, func := field w 0 16 }

def xOf (w : Dword) : Option XFields :=
  some { q := field w 45 4, ap := field w 38 7, bp := field w 31 7, lp := field w 24 7, mt := field w 16 8,
         func := field w 0 16 }

def pOf (w : Dword) : Option PairFields :=
  some { opA := field w 49 4, dA := field w 42 7, aA := field w 35 7, bA := field w 27 8,
         opB := field w 23 4, dB := field w 16 7, aB := field w 9 7, bB := field w 1 8, z := field w 0 1 }

/-- The opcode map of R69: none for an unassigned opcode, and inside it none for a reserved operand code. -/
def instrOf (op : Nat) (k : Ctl) (w : Dword) : Option (Option Instr) :=
  match op with
  | 0x00 => some ((vOf w).map (Instr.nop k))
  | 0x01 => some ((cOf w).map (Instr.bra k))
  | 0x02 => some ((cOf w).map (Instr.brx k))
  | 0x03 => some ((cOf w).map (Instr.call k))
  | 0x04 => some ((cOf w).map (Instr.callx k))
  | 0x05 => some ((cOf w).map (Instr.ret k))
  | 0x06 => some ((cOf w).map (Instr.split k))
  | 0x07 => some ((cOf w).map (Instr.join k))
  | 0x08 => some ((cOf w).map (Instr.skipz k))
  | 0x09 => some ((vOf w).map (Instr.exrd k))
  | 0x0A => some ((vOf w).map (Instr.exwr k))
  | 0x0B => some ((vOf w).map (Instr.plog k))
  | 0x0C => some ((vOf w).map (Instr.pmov k))
  | 0x0D => some ((kOf w).map (Instr.setfmt k))
  | 0x0E => some ((vOf w).map (Instr.getfmt k))
  | 0x10 => some ((vOf w).map (Instr.mov k))
  | 0x11 => some ((kOf w).map (Instr.movk k))
  | 0x12 => some ((vOf w).map (Instr.sel k))
  | 0x13 => some ((vOf w).map (Instr.iadd k))
  | 0x14 => some ((vOf w).map (Instr.isub k))
  | 0x15 => some ((vOf w).map (Instr.imul k))
  | 0x16 => some ((vOf w).map (Instr.imulh k))
  | 0x17 => some ((vOf w).map (Instr.imad k))
  | 0x18 => some ((vOf w).map (Instr.imin k))
  | 0x19 => some ((vOf w).map (Instr.imax k))
  | 0x1A => some ((vOf w).map (Instr.iabs k))
  | 0x1B => some ((vOf w).map (Instr.ineg k))
  | 0x1C => some ((vOf w).map (Instr.and k))
  | 0x1D => some ((vOf w).map (Instr.or k))
  | 0x1E => some ((vOf w).map (Instr.xor k))
  | 0x1F => some ((vOf w).map (Instr.andn k))
  | 0x20 => some ((vOf w).map (Instr.shl k))
  | 0x21 => some ((vOf w).map (Instr.shr k))
  | 0x22 => some ((vOf w).map (Instr.sar k))
  | 0x23 => some ((vOf w).map (Instr.rot k))
  | 0x24 => some ((vOf w).map (Instr.bfx k))
  | 0x25 => some ((vOf w).map (Instr.bfi k))
  | 0x26 => some ((vOf w).map (Instr.bperm k))
  | 0x27 => some ((vOf w).map (Instr.popc k))
  | 0x28 => some ((vOf w).map (Instr.clz k))
  | 0x29 => some ((vOf w).map (Instr.brev k))
  | 0x2A => some ((vOf w).map (Instr.icmp k))
  | 0x2B => some ((vOf w).map (Instr.isat k))
  | 0x2C => some ((vOf w).map (Instr.iadd64 k))
  | 0x2D => some ((vOf w).map (Instr.imad64 k))
  | 0x2E => some ((vOf w).map (Instr.lea k))
  | 0x2F => some ((vOf w).map (Instr.icvt k))
  | 0x30 => some ((vOf w).map (Instr.fadd k))
  | 0x31 => some ((vOf w).map (Instr.fsub k))
  | 0x32 => some ((vOf w).map (Instr.fmul k))
  | 0x33 => some ((vOf w).map (Instr.ffma k))
  | 0x34 => some ((vOf w).map (Instr.fmin k))
  | 0x35 => some ((vOf w).map (Instr.fmax k))
  | 0x36 => some ((vOf w).map (Instr.fcmp k))
  | 0x37 => some ((vOf w).map (Instr.fclass k))
  | 0x38 => some ((vOf w).map (Instr.frnd k))
  | 0x39 => some ((vOf w).map (Instr.fcvt k))
  | 0x3A => some ((vOf w).map (Instr.f2i k))
  | 0x3B => some ((vOf w).map (Instr.i2f k))
  | 0x3C => some ((vOf w).map (Instr.dadd k))
  | 0x3D => some ((vOf w).map (Instr.dmul k))
  | 0x3E => some ((vOf w).map (Instr.dfma k))
  | 0x3F => some ((vOf w).map (Instr.dcmp k))
  | 0x40 => some ((vOf w).map (Instr.rcp k))
  | 0x41 => some ((vOf w).map (Instr.rsq k))
  | 0x42 => some ((vOf w).map (Instr.sqrt k))
  | 0x43 => some ((vOf w).map (Instr.exp2 k))
  | 0x44 => some ((vOf w).map (Instr.log2 k))
  | 0x45 => some ((vOf w).map (Instr.exp k))
  | 0x46 => some ((vOf w).map (Instr.log k))
  | 0x47 => some ((vOf w).map (Instr.sin k))
  | 0x48 => some ((vOf w).map (Instr.cos k))
  | 0x49 => some ((vOf w).map (Instr.tanh k))
  | 0x4A => some ((vOf w).map (Instr.sigm k))
  | 0x4B => some ((vOf w).map (Instr.pack k))
  | 0x4C => some ((vOf w).map (Instr.unpk k))
  | 0x4D => some ((vOf w).map (Instr.fstat k))
  | 0x4E => some ((vOf w).map (Instr.seedr k))
  | 0x50 => some ((vOf w).map (Instr.vote k))
  | 0x51 => some ((vOf w).map (Instr.shfl k))
  | 0x52 => some ((vOf w).map (Instr.bcast k))
  | 0x53 => some ((vOf w).map (Instr.lred k))
  | 0x54 => some ((vOf w).map (Instr.lscan k))
  | 0x55 => some ((vOf w).map (Instr.matchv k))
  | 0x56 => some ((vOf w).map (Instr.rbal k))
  | 0x57 => some ((vOf w).map (Instr.rwalk k))
  | 0x58 => some ((vOf w).map (Instr.segred k))
  | 0x60 => some ((mOf w).map (Instr.ld k))
  | 0x61 => some ((mOf w).map (Instr.st k))
  | 0x62 => some ((mOf w).map (Instr.ldu k))
  | 0x63 => some ((mOf w).map (Instr.ldl k))
  | 0x64 => some ((mOf w).map (Instr.stl k))
  | 0x65 => some ((mOf w).map (Instr.pref k))
  | 0x66 => some ((eOf w).map (Instr.preft k))
  | 0x67 => some ((mOf w).map (Instr.lock k))
  | 0x68 => some ((mOf w).map (Instr.unlock k))
  | 0x69 => some ((eOf w).map (Instr.winset k))
  | 0x6A => some ((eOf w).map (Instr.winclr k))
  | 0x6B => some ((mOf w).map (Instr.cwb k))
  | 0x6C => some ((mOf w).map (Instr.cinv k))
  | 0x6D => some ((mOf w).map (Instr.gbind k))
  | 0x6E => some ((mOf w).map (Instr.ginv k))
  | 0x6F => some ((mOf w).map (Instr.qclass k))
  | 0x80 => some ((mOf w).map (Instr.fence k))
  | 0x81 => some ((mOf w).map (Instr.atom k))
  | 0x82 => some ((mOf w).map (Instr.cas k))
  | 0x83 => some ((mOf w).map (Instr.cas128 k))
  | 0x84 => some ((mOf w).map (Instr.red k))
  | 0x85 => some ((mOf w).map (Instr.mon k))
  | 0x86 => some ((mOf w).map (Instr.mwait k))
  | 0x87 => some ((mOf w).map (Instr.watch k))
  | 0x88 => some ((eOf w).map (Instr.bar k))
  | 0x89 => some ((eOf w).map (Instr.bara k))
  | 0x8A => some ((eOf w).map (Instr.barw k))
  | 0x8B => some ((mOf w).map (Instr.slop k))
  | 0x90 => some ((eOf w).map (Instr.cpy k))
  | 0x91 => some ((eOf w).map (Instr.cpyb k))
  | 0x92 => some ((eOf w).map (Instr.gath k))
  | 0x93 => some ((eOf w).map (Instr.scat k))
  | 0x94 => some ((eOf w).map (Instr.mcast k))
  | 0x95 => some ((eOf w).map (Instr.falloc k))
  | 0x96 => some ((eOf w).map (Instr.ffree k))
  | 0x97 => some ((eOf w).map (Instr.fwait k))
  | 0x98 => some ((eOf w).map (Instr.fstate k))
  | 0x99 => some ((eOf w).map (Instr.spop k))
  | 0x9A => some ((eOf w).map (Instr.spush k))
  | 0x9B => some ((eOf w).map (Instr.bxpect k))
  | 0x9C => some ((eOf w).map (Instr.rxpect k))
  | 0x9D => some ((eOf w).map (Instr.cfence k))
  | 0x9E => some ((eOf w).map (Instr.yield k))
  | 0xA0 => some ((xOf w).map (Instr.mma k))
  | 0xA1 => some ((xOf w).map (Instr.mmas k))
  | 0xA2 => some ((xOf w).map (Instr.mmasp k))
  | 0xA3 => some ((xOf w).map (Instr.aclr k))
  | 0xA4 => some ((eOf w).map (Instr.ard k))
  | 0xA5 => some ((eOf w).map (Instr.awr k))
  | 0xA6 => some ((xOf w).map (Instr.acvt k))
  | 0xA7 => some ((vOf w).map (Instr.comp48 k))
  | 0xA8 => some ((xOf w).map (Instr.cbld k))
  | 0xA9 => some ((vOf w).map (Instr.xvset k))
  | 0xAA => some ((xOf w).map (Instr.sclb k))
  | 0xAB => some ((eOf w).map (Instr.mbat k))
  | 0xAC => some ((eOf w).map (Instr.bwait k))
  | 0xB0 => some ((xOf w).map (Instr.fact k))
  | 0xB1 => some ((xOf w).map (Instr.trsl k))
  | 0xB2 => some ((eOf w).map (Instr.pivrd k))
  | 0xB3 => some ((eOf w).map (Instr.patch k))
  | 0xB4 => some ((eOf w).map (Instr.stamp k))
  | 0xB5 => some ((xOf w).map (Instr.hshift k))
  | 0xB8 => some ((eOf w).map (Instr.pnext k))
  | 0xB9 => some ((eOf w).map (Instr.ppost k))
  | 0xBA => some ((eOf w).map (Instr.pend k))
  | 0xBB => some ((eOf w).map (Instr.resid k))
  | 0xBC => some ((eOf w).map (Instr.rprop k))
  | 0xBD => some ((eOf w).map (Instr.vpub k))
  | 0xBE => some ((eOf w).map (Instr.vread k))
  | 0xBF => some ((eOf w).map (Instr.admitReq k))
  | 0xC0 => some ((eOf w).map (Instr.dline k))
  | 0xC1 => some ((eOf w).map (Instr.mbrd k))
  | 0xC2 => some ((eOf w).map (Instr.mbwr k))
  | 0xC3 => some ((eOf w).map (Instr.wfetch k))
  | 0xC4 => some ((eOf w).map (Instr.genrd k))
  | 0xC8 => some ((eOf w).map (Instr.send k))
  | 0xC9 => some ((eOf w).map (Instr.recv k))
  | 0xCA => some ((eOf w).map (Instr.xchg k))
  | 0xCB => some ((eOf w).map (Instr.throt k))
  | 0xD0 => some ((cOf w).map (Instr.trap k))
  | 0xD1 => some ((cOf w).map (Instr.tret k))
  | 0xD2 => some ((cOf w).map (Instr.svc k))
  | 0xD3 => some ((kOf w).map (Instr.srr k))
  | 0xD4 => some ((kOf w).map (Instr.srw k))
  | 0xD5 => some ((eOf w).map (Instr.preempt k))
  | 0xD6 => some ((eOf w).map (Instr.ctxsv k))
  | 0xD7 => some ((eOf w).map (Instr.ctxld k))
  | 0xD8 => some ((eOf w).map (Instr.tlbinv k))
  | 0xD9 => some ((eOf w).map (Instr.bias k))
  | 0xDA => some ((eOf w).map (Instr.mapg k))
  | 0xDB => some ((eOf w).map (Instr.freeze k))
  | 0xDC => some ((eOf w).map (Instr.thaw k))
  | _ => if 0xF0 ≤ op ∧ op ≤ 0xFF then some ((pOf w).map (Instr.pairWord k)) else none

/-- One instruction word (R47, R56, R69, R71 orders 1 to 3). -/
def decode (w : Dword) : Except Reject Instr :=
  match instrOf (field w 49 8).toNat (ctlOf w) w with
  | none => .error .unassigned
  | some r =>
    if !Machine.ctlOk (ctlOf w) then .error .commonFields
    else
      match r with
      | none => .error .reservedOperand
      | some i => if Machine.legal i then .ok i else .error .refusedFields

/-- Eight bytes, the lowest address first (R2). -/
def wordOfBytes : List Byte → Option (Dword × List Byte)
  | b0 :: b1 :: b2 :: b3 :: b4 :: b5 :: b6 :: b7 :: rest =>
    some ((b7 ++ b6 ++ b5 ++ b4 ++ b3 ++ b2 ++ b1 ++ b0 : BitVec 64), rest)
  | _ => none

/-- The bytes of a word as it lies in memory (R2). -/
def bytesOfWord (w : Dword) : List Byte := (List.range 8).map fun i => w.extractLsb' (8 * i) 8

/-- The decoder over bytes: the instruction and the bytes after it. -/
def decodeBytes (bs : List Byte) : Except Reject (Instr × List Byte) :=
  match wordOfBytes bs with
  | none => .error .truncated
  | some (w, rest) =>
    match decode w with
    | .error r => .error r
    | .ok i => .ok (i, rest)

/-- The format fields of a word, bits 48:0 (R61, R35). -/
def encodeBody : Body → BitVec 49
  | .v f => operandCode f.d ++ operandCode f.a ++ operandCode f.b ++ operandCode f.c ++ f.ty ++ f.minor ++ f.mod
  | .k f => operandCode f.d ++ f.func ++ f.imm
  | .m f =>
    operandCode f.data ++ f.greg ++ operandCode f.off ++ f.imm12 ++ f.size ++ f.hint ++ f.order ++ f.scope ++ f.minor
  | .c f => operandCode f.src ++ f.func ++ f.target
  | .e f => operandCode f.d ++ operandCode f.a ++ operandCode f.b ++ f.fold ++ f.func
  | .x f => f.q ++ f.ap ++ f.bp ++ f.lp ++ f.mt ++ f.func
  | .p f => f.dA ++ f.aA ++ f.bA ++ f.opB ++ f.dB ++ f.aB ++ f.bB ++ f.z

/-- A word from its parts (R56). -/
def encodeView (x : View) : Dword :=
  BitVec.ofBool x.ctl.sw ++ BitVec.ofBool x.ctl.g ++ x.ctl.gp ++ BitVec.ofBool x.ctl.n ++ BitVec.ofNat 8 x.op ++
    encodeBody x.body

/-- The word of an instruction; the machine's own steps have none, and read as 0 here. -/
def encode (i : Instr) : Dword :=
  match i.view with
  | some x => encodeView x
  | none => 0#64

/-- The clause header of R46 from its fields. -/
structure Header where
  cls : BitVec 4
  count : BitVec 4
  lw : BitVec 5
  sw : BitVec 5
  mb : BitVec 4
  fh : BitVec 6
  f63 : Bool
  deriving DecidableEq, Repr

/-- Bits 63:60 of a header are 0b1010 (R46). -/
def isHeader (w : Dword) : Bool := field w 60 4 == 0b1010#4

def headerOf (w : Dword) : Header :=
  { cls := field w 56 4, count := field w 52 4, lw := field w 47 5, sw := field w 42 5, mb := field w 38 4,
    fh := field w 32 6, f63 := w.getLsbD 31 }

/-- R51: bits 30:0 zero, and F63 only with FH = 63. -/
def headerFieldsOk (w : Dword) : Bool :=
  field w 0 31 == 0#31 && (!w.getLsbD 31 || field w 32 6 == 63#6)

def encodeHeader (h : Header) : Dword :=
  0b1010#4 ++ h.cls ++ h.count ++ h.lw ++ h.sw ++ h.mb ++ h.fh ++ BitVec.ofBool h.f63 ++ 0#31

/-- The instruction that the decoder reads from a word whose bits are w, laid out as it stands in memory. -/
def decodeTableWord (nbits w : Nat) : Option Instr :=
  if nbits ≤ 64 then
    match decodeBytes (bytesOfWord (BitVec.ofNat 64 w)) with
    | .ok (i, _) => some i
    | .error _ => none
  else none

end Sys2Proof
end

