-- ==== Sys2Proof/Config.lean ====
section
/-! DEFINITION. What the manual leaves free or leaves to an implementation: constants with no body, so that no proof
can learn their values, and the facts that an image's sections give (R37, R411). -/

namespace Sys2Proof.Config

/-- A free choice made at step tick; salt tells several choices of one step apart (log 18). -/
opaque freeNat : Nat → Nat → Nat

/-- The threshold at which a faithful special function rounds to the upper neighbour, for the function, the monotone
piece and the lower neighbour's bits (R151, log 7). -/
opaque sfThreshold : Nat → Nat → Nat → Nat

/-- Whether RSQ of an input rounds up, for an inexact result (R150, log 7). -/
opaque rsqUp : Nat → Bool

/-- The interval counter of a quadrant at the given boot (R21, log 8). -/
opaque intervalStart : Nat → Nat → BitVec 64

/-- The place of a context's block record within its shard's part of the pen (R20, R305, log 95). -/
opaque penSlot : Nat → Nat → Nat

/-- The SHA3-512 digest (R411, log 20). -/
opaque sha3 : List Byte → BitVec 512

/-- Does an ML-DSA-87 signature verify: message, signature, digest of the signer's key (R408, R411, log 20)? -/
opaque signatureVerifies : List Byte → List Byte → BitVec 512 → Bool

/-- The signature of the module's identity key, 4,627 bytes as an image's (R411, R413, log 20). -/
opaque identitySign : List Byte → BitVec 37016

/-- Serial number, identity key digest and ROM digest of this module (R413, log 20). -/
opaque moduleSerial : BitVec 64

opaque identityDigest : BitVec 512

opaque romDigest : BitVec 512

opaque vendorDigest : BitVec 512

/-- The Birseob that the module is delivered with, and the signature that goes with a Birseob image (R408, R415, log 20). -/
opaque birseobImage : List Byte

opaque birseobSignature : List Byte → List Byte

/-- The place in an image of its code, data, block, view and mailbox table, by number from 0, as offset and size: how the
48 bytes at offset 80 give the ten numbers is not said (R411, log 20). -/
opaque imageTable : List Byte → Nat → Nat × Nat

/-- A block declared by an image (R37, R306). -/
structure BlockDecl where
  entry : Dword
  tau : Word
  init : Word
  cvmap : List Nat
  csmask : BitVec 128
  deriving DecidableEq, Repr, Inhabited

/-- A view declared by an image (R37). -/
structure ViewDecl where
  blocks : List Nat
  sum : Bool
  deriving DecidableEq, Repr, Inhabited

/-- A mailbox bound by an image (R37). -/
structure MboxDecl where
  num : Nat
  entry : Dword
  key : Word
  deriving DecidableEq, Repr, Inhabited

/-- What the sections of a Trazaed image say (R37, R411). Its tables' inner layout is not given (log 20); its code and data
are its bytes. -/
structure ImageInfo where
  teams : Nat
  warps : Nat
  drvage : Dword
  drvstl : Dword
  ctxcfg : Word
  regs : Nat
  scratch : Nat
  entry : Dword
  code : List Dword
  data : List Byte
  blocks : List BlockDecl
  views : List ViewDecl
  mboxes : List MboxDecl
  deriving DecidableEq, Repr, Inhabited

/-- The contents of an image's sections. -/
opaque imageInfo : List Byte → ImageInfo

/-- The supervisor image that Birseob maps in every context: its bytes from the first supervisor page on, its trap
vector base and the entry of its supervisor mailbox (R369, R371, R412, log 20). -/
opaque supervisorBytes : Nat → List Byte

opaque supervisorTvec : Nat → BitVec 64

opaque supervisorEntry : Nat → BitVec 64


end Sys2Proof.Config
end

