-- ==== Sys2Proof/Machine/Table.lean ====
section
/-! DEFINITION. Tables: sorted lists of number and value, in one canonical form. An unlisted number reads as the
table's default, and no entry equals the default. Memory, register files and every numbered part of the state are such
tables. -/

namespace Sys2Proof.Machine

/-- A table of values by number. -/
abbrev Tbl (α : Type) := List (Nat × α)

/-- The value at k; d where k is not listed. -/
def tget {α : Type} (d : α) : Tbl α → Nat → α
  | [], _ => d
  | (k', v) :: t, k => if k' = k then v else tget d t k

/-- Without any entry for k. -/
def tdrop {α : Type} : Tbl α → Nat → Tbl α
  | [], _ => []
  | (k', v) :: t, k => if k' = k then tdrop t k else (k', v) :: tdrop t k

/-- With an entry for k before the first larger number. -/
def tput {α : Type} : Tbl α → Nat → α → Tbl α
  | [], k, v => [(k, v)]
  | (k', v') :: t, k, v => if k < k' then (k, v) :: (k', v') :: t else (k', v') :: tput t k v

/-- Write v at k; writing the default removes the entry. -/
def tset {α : Type} [DecidableEq α] (d : α) (t : Tbl α) (k : Nat) (v : α) : Tbl α :=
  if v = d then tdrop t k else tput (tdrop t k) k v

/-- Change the value at k. -/
def tmod {α : Type} [DecidableEq α] (d : α) (t : Tbl α) (k : Nat) (g : α → α) : Tbl α :=
  tset d t k (g (tget d t k))

/-- Every listed value changed; an entry that becomes the default goes. -/
def tmap {α : Type} [DecidableEq α] (d : α) (g : Nat → α → α) : Tbl α → Tbl α
  | [] => []
  | (k, v) :: t => if g k v = d then tdrop (tmap d g t) k else (k, g k v) :: tmap d g t

/-- The numbers rise strictly from above lo, and no entry is the default. -/
def tsorted {α : Type} [DecidableEq α] (d : α) : Option Nat → Tbl α → Bool
  | _, [] => true
  | lo, (k, v) :: t =>
    (match lo with | none => true | some l => decide (l < k)) && decide (v ≠ d) && tsorted d (some k) t

/-- The canonical form of a table. -/
abbrev Tbl.wf {α : Type} [DecidableEq α] (d : α) (t : Tbl α) : Prop := tsorted d none t = true

/-- Several writes, in order. -/
def tsetMany {α : Type} [DecidableEq α] (d : α) (t : Tbl α) : List (Nat × α) → Tbl α
  | [] => t
  | (k, v) :: xs => tsetMany d (tset d t k v) xs

/-- x before the first element that it precedes. -/
def insertBy {α : Type} (before : α → α → Bool) (x : α) : List α → List α
  | [] => [x]
  | y :: ys => if before x y then x :: y :: ys else y :: insertBy before x ys

/-- A list in the order of a test. -/
def sortBy {α : Type} (before : α → α → Bool) : List α → List α
  | [] => []
  | x :: xs => insertBy before x (sortBy before xs)

end Sys2Proof.Machine
end

