-- ==== Sys2Proof/Machine/State.lean ====
section
/-! DEFINITION. The state of the module as plain data: everything that the manual gives the machine, the work that is
outstanding, and the model's own agenda of turns; the reasons a step can stop; and the state after reset. -/

namespace Sys2Proof.Machine

/-- Why a run stops with a fault. -/
inductive Fault where
  /-- Raised by step alone, once a die has reached 110 C and Birseob has stopped the module, until it leaves
  D3cold (R414). Safe: a stopped module does nothing further. -/
  | moduleStopped
  deriving DecidableEq, Repr

/-- Why a step has no meaning. -/
inductive Refusal where
  /-- Raised by the dispatch alone, for an instruction whose meaning is not written yet. Safe: nothing can be proved
  of its effect. -/
  | notModelled (mnemonic : String)
  deriving DecidableEq, Repr

/-- An entry of the reconvergence stack (R110). -/
structure StackEntry where
  jpc : Dword := 0#64
  ppc : Dword := 0#64
  rmask : Mask := 0#32
  pmask : Mask := 0#32
  sfmt : Word := 0#32
  deriving DecidableEq, Repr

/-- A translation register (R175). psize is the size in bytes of the page that GBIND walked, which TLBINV asks for
(log 14). -/
structure GReg where
  vbase : Dword := 0#64
  pbase : BitVec 52 := 0#52
  limit : Word := 0#32
  host : Bool := false
  perm : BitVec 3 := 0#3
  cls : BitVec 2 := 0#2
  valid : Bool := false
  psize : Nat := 0
  deriving DecidableEq, Repr

/-- The trap registers of a warp (R380). -/
structure TrapRegs where
  tpc : Dword := 0#64
  thdr : Dword := 0#64
  tcause : Word := 0#32
  tmask : Mask := 0#32
  texec : Mask := 0#32
  taddr : Dword := 0#64
  tinfo : Word := 0#32
  tfmt : Word := 0#32
  deriving DecidableEq, Repr

/-- Where bytes lie: a memory key (see State.mem) or a team's scratchpad. -/
inductive Loc where
  | mem (key : Nat)
  | scr (team offset : Nat)
  deriving DecidableEq, Repr

/-- What one lane does at its place of performance (R183, R192, R235, R236, R240). -/
inductive MemOp where
  | load (sext : Bool)
  | store (val : Nat)
  | atom (op : Nat) (val : Nat) (returns : Bool)
  | cas (cmp new : Nat)
  | slop (op : Nat) (mask : Mask)
  /-- hint 8 and above: the page is striped (R191, code 4) -/
  | lock (hint : Nat)
  | unlock
  /-- MON: the line is brought whole into L1 (R244) -/
  | monitor
  /-- PREF and PREFT (R195) -/
  | prefetch
  /-- a line of a window moves to its new home (R194, R242); the window word ends with the status -/
  | move (status : Nat)
  deriving DecidableEq, Repr

/-- One lane's access: n bytes at key, with the register keys that receive its result, low word first. flags says that
its lane is in effective, so that its flags enter FPSTAT (R42). -/
structure LaneOp where
  lane : Nat
  key : Nat
  n : Nat
  op : MemOp
  dst : List Nat
  flags : Bool := true
  deriving DecidableEq, Repr

/-- A register word that an outstanding write will change; val is none until its value is fixed (R55). -/
structure Tgt where
  key : Nat
  val : Option Word
  deriving DecidableEq, Repr

/-- An outstanding register write of a warp (R50, R55). -/
structure Out where
  id : Nat
  tgts : List Tgt
  /-- flags that enter FPSTAT with the write (R99) -/
  flags : BitVec 6 := 0#6
  /-- counts in the load counter (R50) -/
  counts : Bool := true
  /-- holds back the later accesses of R206 until it is made -/
  acquires : Bool := false
  /-- the translation register that a GBIND writes (R176) -/
  greg : Option (Nat × GReg) := none
  /-- the network clock before which it is not made: that of a RECV's write, by R361 -/
  after : Nat := 0
  deriving DecidableEq, Repr

/-- A request that stands at, or travels to, a home (R242, R209). -/
structure Request where
  id : Nat
  core : Nat
  slot : Nat
  ctx : Nat := 0
  /-- the outstanding write or store entry it serves -/
  own : Nat
  line : Nat
  port : Nat
  ops : List LaneOp
  hint : Nat
  order : Nat
  scope : Nat
  /-- kept in L1: a load's copy or a store's ownership (R187, R233) -/
  inL1 : Bool
  /-- the page is tracked: device- or system-coherent -/
  tracked : Bool
  /-- the page is in host bias (R224, R229) -/
  bias : Bool := false
  /-- where it stands among the claims on its line: behind those of a smaller number (R220) -/
  door : Nat := 0
  arrived : Option Nat := none
  /-- started by its home, and held since by a recall, a claim or a drain (R242) -/
  begun : Bool := false
  /-- a drain that it waits for is under way -/
  held : Bool := false
  deriving DecidableEq, Repr

/-- What a release does when it performs (R208, R224): reqs are its accesses, in the form in which they leave then.
failed says that a lane's CAS of it wrote nothing, so that it ends as a fence (R237). -/
structure Release where
  scope : Nat
  reqs : List Request
  num : Word := 0#32
  failed : Bool := false
  deriving DecidableEq, Repr

/-- An entry of a warp's store counter (R50, R309). -/
inductive StKind where
  | store
  | fence (scope order : Nat)
  | release (r : Release)
  /-- CWB and CINV: the lines, and how far each goes (R196) -/
  | writeBack (lines : List Nat) (mem drop everyCopy : Bool)
  /-- a release store to scratchpad, with its bytes' offsets in key (R186) -/
  | scratch (ops : List LaneOp)
  | post
  /-- a VPUB: its view, its generation, the local residual and the running block (R324) -/
  | publish (view : Nat) (p l : Word) (own : Option Nat)
  deriving DecidableEq, Repr

structure StEnt where
  id : Nat
  kind : StKind
  /-- flush markers not yet accepted (R214) -/
  markers : Nat := 0
  /-- 0 waiting, 1 markers behind its warp's earlier writes are sent, 2 its write-backs and their markers are sent, 3 its own
  accesses are on their way -/
  stage : Nat := 0
  flags : BitVec 6 := 0#6
  deriving DecidableEq, Repr

/-- A word captured at issue: its operands are the values read then (R253, R285, R337, R97). -/
structure Captured where
  instr : Instr
  pc : Dword
  exec : Mask
  fmt : Word
  xv : Word
  vals : List Nat
  /-- lines fetched for the word in acceptance, by number (R285) -/
  got : Tbl (List Byte) := []
  deriving DecidableEq, Repr

/-- The sleeping words, with what they hold while asleep (R243, R256, R298, R310, R361, R362, R393). -/
inductive Sleep where
  | pnext
  | mwait
  | watch
  | barrier (b : Nat) (gen : Word)
  | fwait (fold form : Nat)
  | xpect (fold : Nat)
  | spop (stream : Nat)
  | cfence (upTo : Nat)
  | yield (fold : Nat)
  | bwait (n : Word)
  | recv (port : Nat)
  | xchg (core slot : Nat)
  | save (core team : Nat)
  deriving DecidableEq, Repr

/-- Asleep in CTXSV. -/
def Sleep.isSave : Sleep → Bool
  | .save .. => true
  | _ => false

/-- What a warp is doing (R52, R53, R253, R285). -/
inductive Status where
  | ready
  | parked
  | probing
  | accepting
  /-- at a word whose AtomicOps have not all come back (R238, log 90) -/
  | linking (own : Nat)
  | asleep (z : Sleep) (since : Nat)
  deriving DecidableEq, Repr

/-- The scale settings of one operand (R290). -/
structure Scale where
  sbase : Dword := 0#64
  dbase : Dword := 0#64
  shift : BitVec 4 := 0#4
  deriving DecidableEq, Repr

/-- An accumulator window (R278, R279, R87, R290, R297, R342). Tile element (i, j) of qN is number 1024 N + 32 i + j;
codebook entry i of slot n is number 16 n + i; pivot byte b of qN is number 128 N + b; breakdown slot m of qN is
number 16 N + m. -/
structure Window where
  slot : Nat
  tiles : Tbl Word := []
  books : Tbl (BitVec 16) := []
  scaleA : Scale := {}
  scaleB : Scale := {}
  bseq : Word := 0#32
  piv : Tbl Byte := []
  brk : Tbl Byte := []
  /-- matrices per tile of the last FACT on each tile; 0 where none -/
  count : Tbl Nat := []
  deriving DecidableEq, Repr

/-- The monitor of a warp (R244). -/
structure Monitor where
  line : Nat
  fired : Bool
  deriving DecidableEq, Repr

/-- A warp (R103, R17 and the chapters). Registers are tables of 32-bit words by register key (see Operands). -/
structure Warp where
  present : Bool := false
  ctx : Nat := 0
  team : Nat := 0
  twarp : Nat := 0
  pc : Dword := 0#64
  hdr : Dword := 0#64
  cmask : BitVec 4 := 0#4
  left : Nat := 0
  rewait : Bool := false
  /-- the word that it sleeps in carries a switch marker -/
  mark : Bool := false
  lastIssue : Nat := 0
  fetching : Bool := false
  status : Status := .ready
  /-- it is in an issue run (R53) -/
  running : Bool := false
  frozen : Option Nat := none
  freezeReq : Bool := false
  exec : Mask := 0xFFFFFFFF#32
  fmt : Word := 0x21#32
  fpstat : BitVec 6 := 0#6
  xv : Word := 0#32
  priv : Bool := false
  xpar : Bool := false
  stack : List StackEntry := []
  valloc : Nat := 0
  regs : Tbl Word := []
  preds : Tbl (BitVec 16) := []
  seeds : Tbl Word := []
  gregs : Tbl GReg := []
  bank : Tbl Word := []
  bankG : GReg := {}
  trap : TrapRegs := {}
  outs : List Out := []
  stq : List StEnt := []
  /-- accesses with a smaller number come before those with a larger one (R114) -/
  epoch : Nat := 0
  monitor : Option Monitor := none
  window : Option Window := none
  req : Option Captured := none
  inPhase : Bool := false
  /-- where a YIELD continues, and where a clause goes on after a sleeping word -/
  resume : Dword := 0#64
  /-- this warp has executed the PEND of the phase that its team is in: accesses numbered below this came before (R312) -/
  pended : Option Nat := none
  deriving DecidableEq, Repr

/-- A team barrier (R248); rel holds the latest release numbers of its arrivals by core (R250). -/
structure Barrier where
  gen : Word := 0#32
  count : BitVec 5 := 0#5
  arrived : BitVec 16 := 0#16
  rel : Tbl Word := []
  deriving DecidableEq, Repr

/-- A fold (R257). -/
structure Fold where
  expb : Word := 0#32
  arrb : Word := 0#32
  expr : Word := 0#32
  arrr : Word := 0#32
  abase : Word := 0#32
  asize : Word := 0#32
  infl : Byte := 0#8
  consn : BitVec 5 := 0#5
  miss : BitVec 16 := 0#16
  cons : BitVec 5 := 0#5
  err : BitVec 3 := 0#3
  armr : Bool := false
  armb : Bool := false
  /-- 0 free, 1 filling, 2 full, 3 draining -/
  state : BitVec 2 := 0#2
  deriving DecidableEq, Repr

/-- A stream register (R273). -/
structure Stream where
  base : Dword := 0#64
  stride : BitVec 24 := 0#24
  slots : Byte := 0#8
  head : Byte := 0#8
  tail : Byte := 0#8
  count : Byte := 0#8
  deriving DecidableEq, Repr

/-- The records a phase can run (R306, R307, R311). -/
inductive RecKind where
  | block | mailbox | deadline
  deriving DecidableEq, Repr

/-- The phase that a team is in (R310, R312, R317). num is the block, mailbox or handle number. -/
structure Phase where
  kind : RecKind
  num : Nat
  shard : Nat
  gen : Word
  popres : Word
  resid : Word := 0#32
  snd : Bool := false
  /-- the v-registers that warp 0 leaves for the record at its PEND, which releases them (R312, log 34) -/
  vcarry : Tbl Word := []
  deriving DecidableEq, Repr

/-- Whether a team is resident, saved or gone (R391, R393, R396). -/
inductive Life where
  | absent
  | live
  | saved
  deriving DecidableEq, Repr

/-- A stop request on a team: by PREEMPT or CTXSV, or to kill it (R391, R393, R396). -/
inductive Stop where
  | none
  | boundary
  | phase
  | kill
  deriving DecidableEq, Repr

/-- A reassembly slot (R359). word k of the payload is number k. -/
structure RSlot where
  valid : Bool := false
  data : Tbl Word := []
  pres : Byte := 0#8
  tag : Byte := 0#8
  src : BitVec 9 := 0#9
  fcnt : BitVec 3 := 0#3
  kind : BitVec 2 := 0#2
  portw : BitVec 6 := 0#6
  rel : Bool := false
  xpar : Bool := false
  cseq : BitVec 16 := 0#16
  /-- header bits 8:0: the source warp slot of an exchange, in bits 8:3 (R351, log 36) -/
  low : BitVec 9 := 0#9
  /-- allocated for a context's team (R359) -/
  ctx : Nat := 0
  team : Nat := 0
  deriving DecidableEq, Repr

/-- A team (R18, R248, R257, R273, R391). Warp i of the team stands at core cores[i], slot slots[i]. -/
structure Team where
  life : Life := .absent
  cores : List Nat := []
  slots : List Nat := []
  regs : Nat := 0
  scratchSize : Nat := 0
  scratch : Tbl Byte := []
  poison : Tbl Bool := []
  bars : Tbl Barrier := []
  folds : Tbl Fold := []
  streams : Tbl Stream := []
  phase : Option Phase := none
  /-- when its last warp fell asleep in PNEXT -/
  slept : Nat := 0
  stop : Stop := .none
  quiesced : Bool := false
  /-- scratchpad offsets with a WFETCH landing on its way, with what lands (R332) -/
  fetches : List (Nat × List Word) := []
  /-- of a saved team: the place of each 4 KiB of its save area, as the probe translated it (R393) -/
  saveKeys : List Nat := []
  /-- of a saved team: its held slots, numbered 32 core + slot, with the offset of each in its image (R366) -/
  heldSlots : List (Nat × Nat) := []
  /-- of a saved team: the core and the low header bits of its complete slots, in image order (log 36) -/
  lows : List (Nat × BitVec 9) := []
  deriving DecidableEq, Repr

/-- The release record of a line (R208). -/
structure Record where
  core : Nat
  num : Word
  drained : Bool
  deriving DecidableEq, Repr

/-- A block's phase record (R306). carry tables: number 32 i + l for slot i lane l; slot i; lane l. -/
structure BlockRec where
  declared : Bool := false
  entry : Dword := 0#64
  tau : Word := 0#32
  res : Word := 0#32
  key : Word := 0#32
  postpop : Word := 0#32
  seq : Word := 0#32
  gen : Word := 0#32
  qd : Bool := false
  run : Bool := false
  snd : Bool := false
  cls : BitVec 3 := 0#3
  cvmap : List Nat := []
  csmask : BitVec 128 := 0#128
  vcarry : Tbl Word := []
  scarry : Tbl Word := []
  pcarry : Tbl (BitVec 16) := []
  exec : Mask := 0xFFFFFFFF#32
  /-- the lazy release of the last post or phase end (R313) -/
  record : Option Record := none
  deriving DecidableEq, Repr

/-- A view (R323). -/
structure View where
  declared : Bool := false
  blocks : List Nat := []
  sum : Bool := false
  ver : Word := 0#32
  gen : Word := 0#32
  pgen : Word := 0#32
  bound : Word := 0#32
  settled : Bool := false
  /-- the lazy release of the last VPUB (R324, R325) -/
  record : Option Record := none
  deriving DecidableEq, Repr

/-- The states of a mailbox (R326). -/
inductive MboxState where
  | empty | full | taken
  deriving DecidableEq, Repr

/-- A mailbox and its record (R326, R307, R401). held counts relaxed notifies that wait (R227). -/
structure Mbox where
  st : MboxState := .empty
  inb : Tbl Word := []
  outb : Tbl Word := []
  ofull : Bool := false
  ovr : BitVec 16 := 0#16
  bound : Bool := false
  entry : Dword := 0#64
  key : Word := 0#32
  gen : Word := 0#32
  seq : Word := 0#32
  postpop : Word := 0#32
  qd : Bool := false
  run : Bool := false
  held : Nat := 0
  /-- the team whose phase has taken the message (R326) -/
  owner : Option Nat := none
  record : Option Record := none
  deriving DecidableEq, Repr

/-- A sweep of the distributor (R402, R332): items next to n - 1 are not yet withdrawn. -/
structure Sweep where
  id : Word
  next : Nat
  n : Nat
  arg : Word
  deriving DecidableEq, Repr

/-- A FAULTREC record (R385). -/
structure FaultRec where
  addr : Dword := 0#64
  cause : Byte := 0#8
  mkind : BitVec 3 := 0#3
  wslot : BitVec 6 := 0#6
  team : BitVec 6 := 0#6
  core : BitVec 9 := 0#9
  reqid : BitVec 16 := 0#16
  more : Byte := 0#8
  deriving DecidableEq, Repr

/-- A window set by WINSET (R194); unpinned are its lines whose pin a WAYMASK change has dropped (R193). moving are those of its
lines that the background engine has not moved yet: to its slices, or back to their own homes where a WINCLR closes it. -/
structure Win where
  num : Nat
  base : Dword
  lines : List Nat
  slices : List Nat
  unpinned : List Nat := []
  moving : List Nat := []
  closing : Bool := false
  deriving DecidableEq, Repr

/-- A context's state (R376 to R378, R190, R315, R385, R407, R326, R402, R410). -/
structure Ctx where
  established : Bool := false
  digest : BitVec 512 := 0#512
  nteams : Nat := 0
  nwarps : Nat := 0
  nblocks : Nat := 0
  nviews : Nat := 0
  /-- v-registers per warp in a phase (R37) -/
  regs : Nat := 0
  cores : List Nat := []
  ctxcfg : Word := 0#32
  tvec : Dword := 0#64
  ptroot : Dword := 0#64
  svent : Dword := 0#64
  strtab : Dword := 0#64
  poolnext : Dword := 0#64
  poolend : Dword := 0#64
  quotaUsed : Word := 0#32
  quotaLimit : Word := 0#32
  waymask : Word := 0xFFFFFFFF#32
  pinstat : Word := 0#32
  drvage : Dword := 0xFFFFFFFF00000001#64
  drvstl : Dword := 0#64
  faults : List FaultRec := []
  fabten : Word := 0#32
  expwin : Tbl (BitVec 128) := []
  igen : Word := 0#32
  blocks : Tbl BlockRec := []
  views : Tbl View := []
  mboxes : Tbl Mbox := []
  swid : Word := 0#32
  swn : Word := 0#32
  swarg : Word := 0#32
  sweeps : List Sweep := []
  swlost : BitVec 16 := 0#16
  lockrid : Option Nat := none
  wins : List Win := []
  /-- the 64 KiB frames that Birseob placed and that MAPG mapped for it, and the pool that it was given (R387, R439) -/
  pages : List Nat := []
  pool : Nat × Nat := (0, 0)
  deriving DecidableEq, Repr

/-- A request handle (R329, R307). -/
structure Handle where
  used : Bool := false
  ctx : Nat := 0
  cls : Nat := 0
  expiry : Dword := 0#64
  n : Nat := 0
  gen : Word := 0#32
  view : Word := 0#32
  mbox : Nat := 0
  abandon : Bool := false
  armed : Bool := false
  inLane : Bool := false
  running : Bool := false
  /-- the team whose deadline phase runs it -/
  runner : Nat := 0
  deriving DecidableEq, Repr

/-- A Drover shard (R316, R320, R329). -/
structure Shard where
  seq : Word := 0#32
  pops : Tbl Word := []
  classres : Tbl Dword := []
  out : Tbl Nat := []
  nout : Tbl Nat := []
  handles : Tbl Handle := []
  deriving DecidableEq, Repr

/-- A post on its way to its record's home (R317). st is the store queue entry that it belongs to; sent says that it stands at
the home, and waits for the withdrawals that it has sent (R323). -/
structure Post where
  ctx : Nat
  block : Nat
  x : Word
  mode : Nat
  snd : Bool
  gen : Word
  warp : Nat
  st : Nat
  sent : Bool := false
  deriving DecidableEq, Repr

/-- A withdrawal on its way to its view's shard, with the post that waits for it (R323). -/
structure Withdraw where
  ctx : Nat
  view : Nat
  block : Nat := 0
  gen : Word
  warp : Nat
  st : Nat
  deriving DecidableEq, Repr

/-- A line in a core's L1 (R187, R208). bytes holds an untracked copy of a non-coherent line (R225). -/
structure L1Line where
  valid : Mask := 0#32
  dirty : Mask := 0#32
  tag : Word := 0#32
  bytes : Tbl Byte := []
  deriving DecidableEq, Repr

/-- One move of a command: n bytes, and the row that it belongs to (R254, R264 to R267). dest is, for a multicast,
the destination's cluster position, team and fold. -/
structure Piece where
  src : Loc
  dst : Loc
  n : Nat
  row : Option Nat := none
  dest : Option (Nat × Nat × Nat) := none
  /-- the source's bytes, once read -/
  got : Option (List Byte) := none
  deriving DecidableEq, Repr

/-- A command of the Skidder (R252). team is the issuing team's key; word numbers the copy word, which the commands of a
word's lanes share (R223). -/
structure Cmd where
  id : Nat
  word : Nat := 0
  team : Nat
  slot : Nat
  fold : Nat
  pieces : List Piece
  claims : List Nat := []
  /-- of the lines to be claimed, those whose claim has not reached its home yet (R220) -/
  late : List Nat := []
  hint : Nat := 0
  swz : Nat := 0
  /-- a multicast not yet registered: D+1 to D+3, size and source (R267) -/
  mcast : Option (List Nat) := none
  deriving DecidableEq, Repr

/-- An entry of the tile fetch unit (R286): the tile's first line, its swizzle, the lines fetched by number from 0, the
warp slots in whose acceptance it is wanted, and the accepted words that have not consumed it. coh says that the
directory knows its lines. -/
structure TileEntry where
  key : Nat
  swz : Nat
  coh : Bool
  lines : Tbl (List Byte)
  /-- the lines of scale bytes that its block-scaled elements need, by line number -/
  scales : Tbl (List Byte) := []
  want : List Nat
  pins : Nat
  deriving DecidableEq, Repr

/-- The stages of an accepted engine word (R287, R297). -/
inductive Stage where
  | queued
  /-- the one that holds the engine -/
  | running
  /-- its engine time is over, and its accumulator write is still to come -/
  | writing
  | landing
  deriving DecidableEq, Repr

/-- One entry of a stamp table or patch list (R345, R346): its element's offset in the image, the value, and the keys of
the parameter and the measurement. -/
structure FeedEnt where
  off : Nat
  val : Nat
  add : Bool
  p : Option Nat
  m : Option Nat
  deriving DecidableEq, Repr

/-- An accepted matrix or solver word, with everything it reads (R285, R288, R291, R337). -/
structure EngWord where
  id : Nat
  slot : Nat
  word : Captured
  batch : Word
  stage : Stage
  /-- operand tile bytes in logical order: A, then B (two tiles for MMASP); the image of a FACT with .ld -/
  a : List Byte := []
  b : List Byte := []
  /-- scale bytes: number 256 r + k for element k of row r, k + 128 in the second tile of MMASP -/
  sa : Tbl Byte := []
  sb : Tbl Byte := []
  bookA : List (BitVec 16) := []
  bookB : List (BitVec 16) := []
  /-- what ACVT's conversion steps through: a SEED for each lane -/
  seeds : List Word := []
  /-- fetch entries pinned, and other lines held, until the engine consumes them -/
  pins : List (Nat × Nat) := []
  held : List Nat := []
  /-- memory writes to land: ACVT's bytes; STAMP's and PATCH's image lines with their entries; HSHIFT's moves -/
  writes : List (Loc × List Byte) := []
  ents : List FeedEnt := []
  img : List Nat := []
  todo : List Nat := []
  pieces : List Piece := []
  claims : List Nat := []
  late : List Nat := []
  deriving DecidableEq, Repr

/-- A flit: its header fields and its eight payload words (R351). -/
structure Flit where
  age : Nat := 0
  fidx : BitVec 3 := 0#3
  fcnt : BitVec 3 := 0#3
  tag : Byte := 0#8
  kind : BitVec 2 := 0#2
  portw : BitVec 6 := 0#6
  rel : Bool := false
  xpar : Bool := false
  ctx : BitVec 3 := 0#3
  src : BitVec 9 := 0#9
  dst : BitVec 9 := 0#9
  low : BitVec 9 := 0#9
  data : List Word := []
  deriving DecidableEq, Repr

/-- A flit in the network: it arrives at a router on an input port (N, E, S, W, vertical are 0 to 4), or stands on a
link to its next router until the clock turns. Port 5 is the local port, where a flit is injected. via is the next die of
its path, where it has one; goal is the router that serves the agent a KIND 2 flit goes to. -/
structure NetFlit where
  router : Nat
  port : Nat
  moved : Bool
  flit : Flit
  via : Option Nat
  goal : Option Nat := none
  /-- it carries a host access (R10) -/
  host : Bool := false
  deriving DecidableEq, Repr

/-- A core's parts outside its warps (R14, R208, R252, R278, R286, R359, R397). -/
structure Core where
  corectx : Word := 0#32
  unown : Word := 0#32
  relCtr : Word := 0#32
  run0 : Option Nat := none
  run1 : Option Nat := none
  l1 : Tbl L1Line := []
  tlb : Tbl Dword := []
  cmds : List Cmd := []
  tfu : List TileEntry := []
  eng : List EngWord := []
  /-- 0 free and clean, 1 held, 2 to be scrubbed -/
  windows : Tbl Nat := []
  rowsScrub : Nat := 0
  scratchScrub : Nat := 0
  rslots : Tbl RSlot := []
  cseq : BitVec 16 := 0#16
  tag : Byte := 0#8
  inject : List NetFlit := []
  /-- flits that the interface has accepted, each with the slot that it goes to (R359) -/
  eject : List (Nat × Flit) := []
  deriving DecidableEq, Repr

/-- What an agent holds of a line (R187). -/
structure Hold where
  shared : Mask := 0#32
  owned : Mask := 0#32
  deriving DecidableEq, Repr

/-- The home's entry for a line (R23, R187 to R189, R192, R208, R220, R222, R269, R398). Holders are numbered by core.
-/
structure Line where
  holders : Tbl Hold := []
  record : Option Record := none
  /-- commands that have claimed the line, each with its place among the line's requests (R220) -/
  claims : List (Nat × Nat) := []
  inL2 : Bool := false
  way : Nat := 0
  prio : Nat := 1
  stamp : Nat := 0
  dirty : Bool := false
  locks : BitVec 8 := 0#8
  swz : BitVec 3 := 0#3
  poison : Mask := 0#32
  deriving DecidableEq, Repr

/-- A drain under way (R209): req is the request that waits for it. -/
structure Drain where
  id : Nat
  core : Nat
  num : Word
  line : Nat
  req : Nat
  started : Bool := false
  markers : Nat := 0
  deriving DecidableEq, Repr

/-- What travels on a path in order (R213). -/
inductive PathItem where
  | write (req : Nat)
  /-- owner: a store entry of a warp, or a drain -/
  | marker (warp own : Nat) (drain : Bool)
  deriving DecidableEq, Repr

/-- A parked comparison (R246, R247). lookout is false while the core polls for itself. wake holds the value seen. -/
structure Watch where
  warp : Nat
  key : Nat
  n : Nat
  cond : Nat
  cmp : Nat
  order : Nat
  scope : Nat
  lookout : Bool
  wake : Option Nat
  /-- the registers that take the value seen -/
  dst : List Nat
  /-- the address and the lanes that a memory error at the word reports -/
  va : Dword := 0#64
  mask : Mask := 0#32
  deriving DecidableEq, Repr

/-- An AtomicOp of the host link whose completion has not returned (R238). -/
structure HostOp where
  warp : Nat
  own : Nat
  op : LaneOp
  deriving DecidableEq, Repr

/-- The mesh and the bridges (R351 to R357, R365). -/
structure Net where
  flits : List NetFlit := []
  /-- routers that have acted in this network clock -/
  acted : List Nat := []
  /-- deflections of each router in each of the last 256 clocks, latest first -/
  defl : Tbl (List Nat) := []
  /-- network clock of each router's last injection, plus one -/
  injected : Tbl Nat := []
  /-- flits on a bridge: clocks left, and where they come out with the next die of their path from there in via -/
  bridge : List (Nat × NetFlit) := []
  /-- KIND 2 flits that wait to be injected: number c those of core c's caches, 512 + r those of the other agents that router
  r serves (log 88) -/
  queues : Tbl (List NetFlit) := []
  /-- by router: packets of host accesses that have reached it (R10) -/
  hostAt : Tbl Nat := []
  deriving DecidableEq, Repr

/-- Teams to be spawned: their context, what their image says of each, and the cores of each team's warps (R412, R438). -/
structure Spawn where
  ctx : Nat
  entry : Dword
  regs : Nat
  scratch : Nat
  place : List (List Nat)
  deriving DecidableEq, Repr

/-- Birseob's management state (R408 to R415). cmd, status and done are what CMDSTAT shows; code, coming and subject are
those of the command that is running: its code, the status it will end with and the context it names. -/
structure Mgmt where
  ready : Bool := false
  busy : Bool := false
  booterr : Byte := 0#8
  boots : Nat := 0
  cmd : Byte := 0#8
  status : Byte := 0#8
  done : Bool := false
  code : Byte := 0#8
  coming : Byte := 0#8
  subject : Nat := 0
  ign : Byte := 0#8
  event : Word := 0#32
  evmask : Word := 0#32
  args : Tbl Word := []
  resp : Tbl Byte := []
  msix : Tbl Nat := []
  clkstep : Tbl Word := []
  memerr : Tbl Word := []
  modid : Word := 0#32
  fabtab : Dword := 0#64
  fabric : List (Nat × List Nat) := []
  powerLimit : Nat := 4200
  stopped : Bool := false
  reports : Nat := 0
  report : List Byte := []
  monitor : List Nat := []
  /-- the Birseob that an update has put in place of the first one, and the one that waits for the next reset -/
  birseob : Option (List Byte) := none
  staged : Option (List Byte) := none
  /-- the teams that an establishment has still to spawn (R412) -/
  spawns : Option Spawn := none
  deriving DecidableEq, Repr

/-- The Onaus ports and the masters outside (R404, R405, R407). -/
structure Links where
  down : List Nat := []
  /-- packets delivered so far, by path; those not yet acknowledged stand in State.paths -/
  got : Tbl Nat := []
  frozenHosts : List (Nat × Nat) := []
  /-- frozen peer masters: the context that their record stands with, the module and the tenant (R407) -/
  frozenPeers : List (Nat × Nat × Nat) := []
  /-- modules that refuse this module's requests of a context, and that context (R407) -/
  refusing : List (Nat × Nat) := []
  /-- host lines that the host-coherent port holds (R233, R399) -/
  hostLines : List Nat := []
  deriving DecidableEq, Repr

/-- Who sends or takes a KIND 2 packet (R9, R10, R13, R351): a core's caches, a slice, a Drover shard, the host port and the
mailbox unit, which stand at some router of die 0, or an Onaus port, at some router of its die (log 88). -/
inductive Agent where
  | core (n : Nat)
  | slice (n : Nat)
  | shard (quad : Nat)
  | hostSide (router : Nat)
  | onaus (port router : Nat)
  deriving DecidableEq, Repr

/-- Whose turn it is next (log 1). -/
inductive Turn where
  /-- the warp that scheduler sched of a core is running issues its next word -/
  | word (core sched : Nat)
  /-- one of the machine's own or the outside's steps -/
  | event (i : Instr)
  /-- a request reaches its home -/
  | arrive (req : Nat)
  /-- the network clock turns -/
  | netClock
  /-- the directory evicts the entry of a line (R212, log 91) -/
  | evictEntry (line : Nat)
  /-- an agent posts a KIND 2 packet of n flits to another (log 88) -/
  | traffic (src dst : Agent) (n : Nat)
  deriving DecidableEq, Repr

/-- The module. -/
structure State where
  tick : Nat
  nextId : Nat
  cur : Nat
  agenda : List Turn
  /-- device memory at its physical address; host memory from 2^52; a peer's device memory from 2^53 (m + 1) -/
  mem : Tbl Byte
  lines : Tbl Line
  reqs : List Request
  rr : Tbl Nat
  /-- lines of which a home has started a request in this network clock (R242) -/
  starts : List Nat
  /-- homes with a port that has presented a request in this network clock (R242) -/
  presented : List (Nat × Nat)
  watches : List Watch
  drains : List Drain
  paths : Tbl (List PathItem)
  hostOps : List HostOp
  netNow : Nat
  warps : Tbl Warp
  teams : Tbl Team
  ctxs : Tbl Ctx
  shards : Tbl Shard
  cores : Tbl Core
  posts : List Post
  withdraws : List Withdraw
  net : Net
  mgmt : Mgmt
  links : Links
  deriving DecidableEq, Repr

/-- The module at power-on, before the boot of R408: nothing is established, and device memory reads zero. -/
def State.reset : State :=
  { tick := 0, nextId := 1, cur := 0, agenda := [], mem := [], lines := [], reqs := [], rr := [], starts := [], presented := [],
    watches := [], drains := [], paths := [], hostOps := [], netNow := 0, warps := [], teams := [], ctxs := [], shards := [],
    cores := [], posts := [], withdraws := [], net := {}, mgmt := {}, links := {} }

end Sys2Proof.Machine
end

