-- ==== Sys2Proof/Machine/Ops.lean ====
section
/-! DEFINITION. The named operations over the state: its parts by number, a warp's registers and masks, the end of a
word, transfers, taking a trap (R379), violations (R384) and the return from a trap (R382). -/

namespace Sys2Proof.Machine

/-! ## Parts of the state by number -/

def State.warp (s : State) (k : Nat) : Warp := tget {} s.warps k

def State.setWarp (s : State) (k : Nat) (w : Warp) : State := { s with warps := tset {} s.warps k w }

def State.modWarp (s : State) (k : Nat) (g : Warp → Warp) : State := s.setWarp k (g (s.warp k))

def State.team (s : State) (k : Nat) : Team := tget {} s.teams k

def State.setTeam (s : State) (k : Nat) (t : Team) : State := { s with teams := tset {} s.teams k t }

def State.modTeam (s : State) (k : Nat) (g : Team → Team) : State := s.setTeam k (g (s.team k))

def State.ctx (s : State) (c : Nat) : Ctx := tget {} s.ctxs c

def State.setCtx (s : State) (c : Nat) (x : Ctx) : State := { s with ctxs := tset {} s.ctxs c x }

def State.modCtx (s : State) (c : Nat) (g : Ctx → Ctx) : State := s.setCtx c (g (s.ctx c))

def State.shard (s : State) (q : Nat) : Shard := tget {} s.shards q

def State.setShard (s : State) (q : Nat) (x : Shard) : State := { s with shards := tset {} s.shards q x }

def State.modShard (s : State) (q : Nat) (g : Shard → Shard) : State := s.setShard q (g (s.shard q))

def State.core (s : State) (c : Nat) : Core := tget {} s.cores c

def State.setCore (s : State) (c : Nat) (x : Core) : State := { s with cores := tset {} s.cores c x }

def State.modCore (s : State) (c : Nat) (g : Core → Core) : State := s.setCore c (g (s.core c))

def State.line (s : State) (n : Nat) : Line := tget {} s.lines n

def State.setLine (s : State) (n : Nat) (x : Line) : State := { s with lines := tset {} s.lines n x }

def State.modLine (s : State) (n : Nat) (g : Line → Line) : State := s.setLine n (g (s.line n))

/-- The warp whose word or wake is being executed. -/
def State.me (s : State) : Warp := s.warp s.cur

def State.setMe (s : State) (w : Warp) : State := s.setWarp s.cur w

def State.modMe (s : State) (g : Warp → Warp) : State := s.setMe (g s.me)

/-- A fresh number for an outstanding access or command. -/
def State.fresh (s : State) : State := { s with nextId := s.nextId + 1 }

/-- A free number of this step (log 18). -/
def State.free (s : State) (salt : Nat) : Nat := Config.freeNat s.tick salt

/-! ## Identifiers (R12, R13) -/

/-- Warp key: 64 slots are numbered on each core; a core has 48. -/
def warpKey (core slot : Nat) : Nat := core * 64 + slot

def keyCore (k : Nat) : Nat := k / 64

def keySlot (k : Nat) : Nat := k % 64

/-- Team key. -/
def teamKey (ctx team : Nat) : Nat := ctx * 64 + team

def clusterOf (core : Nat) : Nat := core / 2

def dieOf (core : Nat) : Nat := core / 128

/-- Cluster position within its die. -/
def clusterX (cluster : Nat) : Nat := cluster % 8

def clusterY (cluster : Nat) : Nat := cluster / 8 % 8

def localQuad (x y : Nat) : Nat := 2 * (if 4 ≤ y then 1 else 0) + (if 4 ≤ x then 1 else 0)

def quadOf (core : Nat) : Nat :=
  dieOf core * 4 + localQuad (clusterX (clusterOf core)) (clusterY (clusterOf core))

/-- Quadrant of a slice (R12). -/
def quadOfSlice (slice : Nat) : Nat :=
  slice / 128 * 4 + localQuad (slice % 128 / 2 % 8) (slice % 128 / 2 / 8)

/-- The slices of a quadrant, ascending (R12). -/
def slicesOfQuad (q : Nat) : List Nat :=
  (List.range 128).filterMap fun i => if quadOfSlice (q / 4 * 128 + i) = q then some (q / 4 * 128 + i) else none

/-- The team of a warp. -/
def Warp.teamKey (w : Warp) : Nat := Machine.teamKey w.ctx w.team

/-- Fold n and stream n of a team (R257, R273). -/
def Team.fold (t : Team) (n : Nat) : Fold := tget {} t.folds n

def Team.stream (t : Team) (n : Nat) : Stream := tget {} t.streams n

/-! ## Registers of a warp -/

/-- Register keys: a lane of a v-register, an s-register, a lane's predicate, a g-register, a register of the
supervisor bank (R370), two entries of a codebook slot (R87). -/
def vKey (n l : Nat) : Nat := n * 32 + l

def sKeyUser (n : Nat) : Nat := 8192 + n

def predKey (n l : Nat) : Nat := 8448 + l * 16 + n

def gKey (n : Nat) : Nat := 9000 + n

def bankKey (n : Nat) : Nat := 9100 + n

def bookKey (slot i : Nat) : Nat := 9400 + slot * 8 + i

/-- s120 to s127 name the supervisor bank at PRIV = 1 (R370). -/
def Warp.sKey (w : Warp) (n : Nat) : Nat := if w.priv ∧ 120 ≤ n then bankKey n else sKeyUser n

/-- The supervisor bank as the register table beside the user's: keys from 9100 lie in the bank. -/
def Warp.getKey (w : Warp) (k : Nat) : Word :=
  if 9100 ≤ k ∧ k < 9400 then tget 0#32 w.bank k else tget 0#32 w.regs k

/-- Two codebook entries of the window. -/
def Window.putBook (x : Window) (i : Nat) (v : Word) : Window :=
  { x with books := tset 0#16 (tset 0#16 x.books (2 * i) (v.setWidth 16)) (2 * i + 1) ((v >>> 16).setWidth 16) }

/-- Put a word where a register key names it. -/
def Warp.storeKey (w : Warp) (k : Nat) (v : Word) : Warp :=
  if 9400 ≤ k then { w with window := w.window.map fun x => x.putBook (k - 9400) v }
  else if 9100 ≤ k then { w with bank := tset 0#32 w.bank k v }
  else if 8448 ≤ k ∧ k < 9000 then
    { w with preds := tmod 0#16 w.preds ((k - 8448) / 16) fun p =>
        if v.getLsbD 0 then p ||| (1#16 <<< ((k - 8448) % 16)) else p &&& ~~~(1#16 <<< ((k - 8448) % 16)) }
  else { w with regs := tset 0#32 w.regs k v }

/-- A later write takes the register from every earlier outstanding write (R55). -/
def Out.without (o : Out) (k : Nat) : Out := { o with tgts := o.tgts.filter fun t => t.key != k }

/-- A register write in program order: outstanding writes of the same register do not overtake it (R55). -/
def Warp.putKey (w : Warp) (k : Nat) (v : Word) : Warp :=
  Warp.storeKey { w with outs := w.outs.map fun o => o.without k } k v

def Warp.getV (w : Warp) (n l : Nat) : Word := w.getKey (vKey n l)

def Warp.getS (w : Warp) (n : Nat) : Word := w.getKey (w.sKey n)

def Warp.putV (w : Warp) (n l : Nat) (v : Word) : Warp := w.putKey (vKey n l) v

def Warp.putS (w : Warp) (n : Nat) (v : Word) : Warp := w.putKey (w.sKey n) v

def Warp.getSPair (w : Warp) (n : Nat) : Dword := joinWords (w.getS n) (w.getS (n + 1))

def Warp.putSPair (w : Warp) (n : Nat) (v : Dword) : Warp := (w.putS n (loWord v)).putS (n + 1) (hiWord v)

/-- Predicate pn of lane l (R103). -/
def Warp.pred (w : Warp) (n l : Nat) : Bool := (tget 0#16 w.preds l).getLsbD n

def Warp.putPred (w : Warp) (n l : Nat) (b : Bool) : Warp := w.putKey (predKey n l) (if b then 1#32 else 0#32)

/-- g-register n: g7 names the bank's at PRIV = 1 (R370). -/
def Warp.greg (w : Warp) (n : Nat) : GReg := if w.priv ∧ n = 7 then w.bankG else tget {} w.gregs n

def Warp.putGreg (w : Warp) (bank : Bool) (n : Nat) (g : GReg) : Warp :=
  if bank then { w with bankG := g } else { w with gregs := tset {} w.gregs n g }

/-! ## Masks (R42) -/

/-- A mask from a test of each lane. -/
def maskOf (p : Nat → Bool) : Mask := (List.range 32).foldl (fun m l => if p l then m ||| (1#32 <<< l) else m) 0#32

def Warp.guardMask (w : Warp) (k : Ctl) : Mask :=
  if k.g then maskOf fun l => w.pred k.gp.toNat l != k.n else 0xFFFFFFFF#32

/-- The effective mask: EXEC AND the guard (R42). -/
def Warp.eff (w : Warp) (k : Ctl) : Mask := w.exec &&& w.guardMask k

/-- The lanes of a mask, ascending. -/
def maskLanes (m : Mask) : List Nat := (List.range 32).filter fun l => m.getLsbD l

/-- The rule of R121: the word acts once for the warp. -/
def Warp.acts (w : Warp) (k : Ctl) : Bool := !k.g || w.eff k != 0#32

/-- set_flags (R42): IV 0, DZ 1, OF 2, UF 3, NX 4, ST 5 (R98). -/
def Warp.setFlags (w : Warp) (f : BitVec 6) : Warp := { w with fpstat := w.fpstat ||| f }

/-! ## The end of a word and transfers (R53, R64, R109) -/

/-- The word is done: the PC moves on, a switch marker parks the warp, and the last word ends the run. -/
def Warp.advance (w : Warp) (sw : Bool) : Warp :=
  { w with pc := w.pc + 8#64, left := w.left - 1, rewait := false
           status := if sw then .parked else w.status
           running := w.running && !sw && decide (1 < w.left) }

def State.advance (s : State) (k : Ctl) : State := s.modMe fun w => w.advance k.sw

/-- A switch marker parks the warp (R53). -/
def afterMark (sw : Bool) : Status := if sw then .parked else .ready

/-- A taken transfer: the next word to issue is the header at the target (R64, R107). -/
def Warp.jump (w : Warp) (sw : Bool) (target : Dword) : Warp :=
  { w with pc := target, left := 0, rewait := false, running := false, fetching := true, status := afterMark sw }

/-- A transfer that is not taken, or any word after which the next word is a header (R64). -/
def Warp.fallThrough (w : Warp) (sw : Bool) : Warp :=
  { w with pc := w.pc + 8#64, left := 0, rewait := false, running := false, status := afterMark sw }

/-- The warp goes to sleep at its word (R52). -/
def Warp.sleepIn (w : Warp) (sw : Bool) (z : Sleep) (now : Nat) : Warp :=
  { w with status := .asleep z now, running := false, mark := sw }

/-- A sleeping warp goes on at the next clause. -/
def Warp.wake (w : Warp) : Warp := w.fallThrough w.mark

/-! ## Violations and traps -/

/-- One more FAULTREC record of a context, or MORE of the oldest when 16 are queued (R385). -/
def addFault (q : List FaultRec) (r : FaultRec) : List FaultRec :=
  if q.length < 16 then q ++ [r]
  else
    match q with
    | [] => [r]
    | o :: rest => { o with more := if o.more = 255#8 then 255#8 else o.more + 1#8 } :: rest

/-- MSI-X vector v is raised once more (R403). -/
def State.raise (s : State) (v : Nat) : State := { s with mgmt := { s.mgmt with msix := tmod 0 s.mgmt.msix v (· + 1) } }

/-- Queue a FAULTREC record; a queued record raises MSI-X vector 2c + 1 (R385, R403). -/
def State.recordFault (s : State) (c : Nat) (r : FaultRec) : State :=
  let t := s.modCtx c fun x => { x with faults := addFault x.faults r }
  if (s.ctx c).faults.length < 16 then t.raise (2 * c + 1) else t

/-- A violation by the current warp freezes it where it stands (R384). -/
def State.violation (s : State) (cause : Nat) (addr : Dword) : State :=
  let w := s.me
  let t := s.setMe { w with frozen := some cause, running := false }
  t.recordFault w.ctx
    { addr := addr, cause := BitVec.ofNat 8 cause, mkind := 0#3, wslot := BitVec.ofNat 6 (keySlot s.cur),
      team := BitVec.ofNat 6 w.team, core := BitVec.ofNat 9 (keyCore s.cur) }

/-- A trap: kind and cause (R381), the lanes that TMASK reports, TADDR and TINFO. -/
structure Trp where
  kind : Nat
  cause : Nat := 0
  mask : Mask
  addr : Dword := 0#64
  info : Word := 0#32
  deriving DecidableEq, Repr

/-- Trap kinds whose handler runs only in the failing lanes: privilege, alignment, page, class (R379). -/
def laneKind (kind : Nat) : Bool := kind == 4 || kind == 6 || kind == 7 || kind == 8

/-- TCAUSE (R380). -/
def tcauseOf (depth cause kind : Nat) : Word :=
  BitVec.ofNat 32 (depth % 32 * 65536 + cause % 256 * 256 + kind % 256)

/-- The warp after a trap at its word is taken; back is what TPC takes (R379). -/
def Warp.trapEntry (w : Warp) (t : Trp) (back tvec : Dword) : Warp :=
  { w with
    trap := { tpc := back, thdr := w.hdr, tcause := tcauseOf w.stack.length t.cause t.kind, tmask := t.mask,
              texec := w.exec, taddr := t.addr, tinfo := t.info, tfmt := w.fmt }
    exec := if laneKind t.kind then t.mask else w.exec
    fmt := 0x21#32
    priv := true
    pc := tvec + BitVec.ofNat 64 (128 * t.kind)
    left := 0, rewait := false, running := false, fetching := true, status := .ready, req := none }

/-- Taking a trap: at PRIV = 1 it is a violation, else the handler at TVEC + 128 kind is entered (R379). -/
def State.takeTrapAt (s : State) (t : Trp) (back : Dword) : State :=
  if s.me.priv then s.violation 3 s.me.pc
  else s.modMe fun w => w.trapEntry t back (s.ctx w.ctx).tvec

/-- A trap at the current word: TPC is the word's own address. -/
def State.takeTrap (s : State) (t : Trp) : State := s.takeTrapAt t s.me.pc

/-- The return from a trap (R382): count is COUNT of the header at THDR. -/
def Warp.trapReturn (w : Warp) (count : Nat) (cls : BitVec 4) : Warp :=
  let kind := (w.trap.tcause.setWidth 8).toNat
  let base := { w with exec := w.trap.texec, fmt := w.trap.tfmt, priv := false, running := false, fetching := true,
                       status := .ready }
  if kind = 15 ∨ kind = 16 ∨ w.trap.tpc = w.trap.thdr then { base with pc := w.trap.tpc, left := 0, rewait := false }
  else
    { base with pc := w.trap.tpc, hdr := w.trap.thdr, cmask := cls, rewait := true
                left := count + 1 - ((w.trap.tpc - w.trap.thdr).toNat / 8 - 1) }

end Sys2Proof.Machine
end

