-- ==== Sys2Proof/Machine/Operands.lean ====
section
/-! DEFINITION. Every operand form: registers, integer constants, the FP32 constant table and the specials (R57 to R60),
in 32-bit and 64-bit positions, per lane and uniform; and the writes to destinations (R121, R42). -/

namespace Sys2Proof.Machine

/-- The FP32 constant table (R59). -/
def fpConst : Nat → Word
  | 0 => 0x00000000#32 | 1 => 0x3E000000#32 | 2 => 0x3E800000#32 | 3 => 0x3F000000#32
  | 4 => 0x3F800000#32 | 5 => 0x40000000#32 | 6 => 0x40800000#32 | 7 => 0x41000000#32
  | 8 => 0x41800000#32 | 9 => 0xBF000000#32 | 10 => 0xBF800000#32 | 11 => 0xC0000000#32
  | 12 => 0x40400000#32 | 13 => 0x41200000#32 | 14 => 0x3F317218#32 | 15 => 0x3FB8AA3B#32
  | _ => 0#32

/-- FP64 bits of an FP32 normal number or zero, exactly (R59): the exponent is rebiased by 896. -/
def widenNormal (x : Word) : Dword :=
  if x.setWidth 31 = 0#31 then x.setWidth 64 <<< 32
  else ((x &&& 0x80000000#32).setWidth 64 <<< 32) ||| (((x &&& 0x7FFFFFFF#32).setWidth 64 <<< 29) + (896#64 <<< 52))

/-- Block id of the running phase as the special blk reads it (R60, R311). -/
def blkOf (t : Team) : Word :=
  match t.phase with
  | none => 0xFFFFFFFF#32
  | some p =>
    match p.kind with
    | .block => BitVec.ofNat 32 p.num
    | .mailbox => BitVec.ofNat 32 (0x100000 + p.num)
    | .deadline => BitVec.ofNat 32 (0x200000 + p.num)

/-- Position of x in a list; its length where it is absent. -/
def indexOf (x : Nat) : List Nat → Nat
  | [] => 0
  | y :: ys => if y = x then 0 else indexOf x ys + 1

/-- The value of a special in lane l (R60). -/
def special (s : State) (w : Warp) (l : Nat) : Special → Word
  | .lane => BitVec.ofNat 32 l
  | .warp => BitVec.ofNat 32 (keySlot s.cur)
  | .team => BitVec.ofNat 32 w.team
  | .core => BitVec.ofNat 32 (keyCore s.cur)
  | .exec => w.exec
  | .zero => 0#32
  | .ctx => BitVec.ofNat 32 w.ctx
  | .cluster => BitVec.ofNat 32 (clusterOf (keyCore s.cur))
  | .quad => BitVec.ofNat 32 (quadOf (keyCore s.cur))
  | .die => BitVec.ofNat 32 (dieOf (keyCore s.cur))
  | .blk => if w.inPhase then blkOf (s.team w.teamKey) else 0xFFFFFFFF#32
  | .corder => BitVec.ofNat 32 (indexOf (keyCore s.cur) (s.ctx w.ctx).cores)
  | .twarp => BitVec.ofNat 32 w.twarp
  | .lmlt => BitVec.ofNat 32 (2 ^ l - 1)
  | .ones => 0xFFFFFFFF#32

/-- read(op, l) in a 32-bit position (R42, R120). -/
def rd (s : State) (w : Warp) (o : Operand) (l : Nat) : Word :=
  match o with
  | .v n => w.getV n.val l
  | .s n => w.getS n.val
  | .imm n => BitVec.ofNat 32 n.val
  | .fp n => fpConst n.val
  | .sp x => special s w l x
  | .none => 0#32

/-- read(op, l) in a 64-bit position (R2, R59, R120). -/
def rd64 (s : State) (w : Warp) (o : Operand) (l : Nat) : Dword :=
  match o with
  | .v n => joinWords (w.getV n.val l) (w.getV (n.val + 1) l)
  | .s n => w.getSPair n.val
  | .imm n => BitVec.ofNat 64 n.val
  | .fp n => widenNormal (fpConst n.val)
  | .sp x => (special s w l x).setWidth 64
  | .none => 0#64

/-- A uniform operand: any lane reads the same (R106). -/
def rdU (s : State) (w : Warp) (o : Operand) : Word := rd s w o 0

def rdU64 (s : State) (w : Warp) (o : Operand) : Dword := rd64 s w o 0

/-- Number of the register that an operand names. -/
def regNum : Operand → Nat
  | .v n => n.val
  | .s n => n.val
  | .imm n => n.val
  | .fp n => n.val
  | .sp _ => 0
  | .none => 0

/-- The lanes that a destination is written in: those of effective for a v-register (R121). -/
def dstLanes (w : Warp) (k : Ctl) : List Nat := maskLanes (w.eff k)

/-- Register keys of n registers from a destination, in lane l; an s-register has no lanes. -/
def dstKeys (w : Warp) (d : Operand) (n l : Nat) : List Nat :=
  match d with
  | .v r => (List.range n).map fun i => vKey (r.val + i) l
  | .s r => (List.range n).map fun i => w.sKey (r.val + i)
  | _ => []

/-- Writes to register keys, in order. -/
def Warp.putMany (w : Warp) : List (Nat × Word) → Warp
  | [] => w
  | (k, v) :: xs => (w.putKey k v).putMany xs

/-- The writes of one 32-bit result g in each lane (R121): a v-register in the lanes of effective, an s-register once
with lane 0's value where the word acts. -/
def writes32 (w : Warp) (k : Ctl) (d : Operand) (g : Nat → Word) : List (Nat × Word) :=
  match d with
  | .v n => (dstLanes w k).map fun l => (vKey n.val l, g l)
  | .s n => if w.acts k then [(w.sKey n.val, g 0)] else []
  | _ => []

/-- The same for a 64-bit result in a register pair (R2). -/
def writes64 (w : Warp) (k : Ctl) (d : Operand) (g : Nat → Dword) : List (Nat × Word) :=
  match d with
  | .v n => (dstLanes w k).flatMap fun l => [(vKey n.val l, loWord (g l)), (vKey (n.val + 1) l, hiWord (g l))]
  | .s n => if w.acts k then [(w.sKey n.val, loWord (g 0)), (w.sKey (n.val + 1), hiWord (g 0))] else []
  | _ => []

/-- The writes of a predicate in the lanes of effective (R132). -/
def writesPred (w : Warp) (k : Ctl) (n : Nat) (g : Nat → Bool) : List (Nat × Word) :=
  (dstLanes w k).map fun l => (predKey n l, if g l then 1#32 else 0#32)

end Sys2Proof.Machine
end

