-- ==== Sys2Proof/Machine/Issue.lean ====
section
/-! DEFINITION. The issue of a word: the checks in the order of R71, the waits of R50, R206, R217, R219 and R254, the
hazards of R55, and the common way in which every meaning runs its body. -/

namespace Sys2Proof.Machine

/-- What stops a word, or that it may run. -/
inductive Gate where
  | go
  /-- it stalls in its run and issues later (R54) -/
  | wait
  | trap (t : Trp)
  deriving DecidableEq, Repr

/-- CTXCFG fields (R377). -/
def ctxStrict (c : Ctx) : Bool := c.ctxcfg.getLsbD 0
def ctxDnf (c : Ctx) : Bool := c.ctxcfg.getLsbD 1
def ctxSplit (c : Ctx) : Nat := (c.ctxcfg.extractLsb' 16 3).toNat
def ctxQtrap (c : Ctx) : Bool := c.ctxcfg.getLsbD 20
def ctxClass (c : Ctx) : Nat := (c.ctxcfg.extractLsb' 21 3).toNat

/-- Every v-register that the word names lies below the warp's allocation (R58). -/
def allocOk (w : Warp) (x : Sig) : Bool :=
  x.slots.all fun p =>
    match p.2 with
    | .v n => p.1.pred || decide (n.val + p.1.cnt ≤ w.valloc)
    | _ => true

/-- The format pair of a matrix word lies in one width class (R83). -/
def sameClass (fmt : Word) : Option Nat :=
  match matFmt (fmtA fmt), matFmt (fmtB fmt) with
  | some a, some b => if a.cls = b.cls then some a.cls else none
  | _, _ => none

/-- Formats without block scale (R288). -/
def unscaledFmt (n : Nat) : Bool := decide (n ≤ 13) || n == 22 || n == 24 || n == 26

/-- The checks that FMT and the allocation decide (R71 order 3, R83, R148, R149, R288, R296, R300, R301). -/
def dynLegal (w : Warp) (i : Instr) : Bool :=
  let elem := packElem (fmtA w.fmt)
  match i with
  | .mma _ f =>
    match sameClass w.fmt with
    | some c => unscaledFmt (fmtA w.fmt) && unscaledFmt (fmtB w.fmt) && (c != 64 || !f.q.getLsbD 0)
    | none => false
  | .mmas _ f =>
    match sameClass w.fmt with
    | some c => c != 64 || !f.q.getLsbD 0
    | none => false
  | .mmasp _ f =>
    match sameClass w.fmt with
    | some c =>
      (c == 8 || c == 4) && decide (fmtA w.fmt < 26) && decide (fmtB w.fmt < 26) &&
        decide (f.mt.toNat + kOfClass c / 8 ≤ w.valloc) && decide (f.mt.toNat + kOfClass c / 8 ≤ 256)
    | none => false
  | .acvt _ _ => decide (1 ≤ fmtA w.fmt) && decide (fmtA w.fmt ≤ 23)
  | .pack _ f =>
    f.ty != 0#4 ||
      match elem with
      | some e => if elemBits e = 4 then decide (f.minor.toNat ≤ 3) else decide (f.minor.toNat ≤ 1)
      | none => false
  | .unpk _ f =>
    f.ty != 0#4 ||
      match elem with
      | some e => if elemBits e = 4 then decide (f.minor.toNat ≤ 7) else decide (f.minor.toNat ≤ 3)
      | none => false
  | .comp48 _ f =>
    f.ty != 0#4 ||
      match elem with
      | some e => f.mod == 0#4 || elemBits e != 4
      | none => false
  | _ => true

/-- A word of the copy chapter names no free fold and no stream without slots (R261, R273, R275, R277). -/
def tableLegal (t : Team) (i : Instr) : Bool :=
  match i with
  | .cpy _ f | .cpyb _ f | .gath _ f | .scat _ f | .mcast _ f => (t.fold f.fold.toNat).state != 0#2
  | .fwait _ f | .bxpect _ f | .rxpect _ f | .yield _ f => (t.fold f.fold.toNat).state != 0#2
  | .spop _ f => (t.stream (f.func.toNat % 8)).slots != 0#8
  | .spush _ f => bit16 f.func 3 || (t.stream (f.func.toNat % 8)).slots != 0#8
  | _ => true

/-- The GREG that a word reads or writes through (R172, R231). -/
def gregOf : Instr → Option Nat
  | .ld _ f | .st _ f | .ldu _ f | .pref _ f | .lock _ f | .unlock _ f | .cwb _ f | .cinv _ f => some f.greg.toNat
  | .gbind _ f | .ginv _ f | .qclass _ f => some f.greg.toNat
  | .atom _ f | .cas _ f | .cas128 _ f | .red _ f | .mon _ f | .watch _ f | .slop _ f => some f.greg.toNat
  | _ => none

/-- SRR registers that a user may read (R376). -/
def userReg (r : Nat) : Bool :=
  [0x100, 0x107, 0x108, 0x109, 0x10A, 0x10B, 0x10D, 0x200, 0x202, 0x308, 0x400, 0x402, 0x403].contains r

/-- The privilege that the word needs and lacks (R369, R375, R327). A register that R376 lets a user read may be read at
PRIV 0 although R5 names its SRW fields: the rules leave the two open, and the model follows R376 (log 80). -/
def lacksPrivilege (s : State) (w : Warp) (i : Instr) : Bool :=
  !w.priv &&
    match i with
    | .srr _ f =>
      let x := selector f.imm
      !(userReg x.reg &&
        (if 0x100 ≤ x.reg ∧ x.reg < 0x200 then x.ctx == w.ctx
         else if 0x200 ≤ x.reg ∧ x.reg ≤ 0x401 then (s.ctx w.ctx).cores.contains x.core
         else true))
    | .mbrd k f => w.acts k && rdU s w f.a == 64#32
    | .mbwr k f => w.acts k && rdU s w f.b == 64#32
    | i => supervisorOnly i

/-- Is a register key's write outstanding (R55)? -/
def outstandingKey (w : Warp) (p : Nat → Bool) : Bool := w.outs.any fun o => o.tgts.any fun t => p t.key

/-- An operand's registers with an outstanding write: the operand code that TINFO takes (R381). -/
def hazardOf (w : Warp) (x : Slot) (o : Operand) : Option Nat :=
  match o with
  | .v n =>
    if x.pred then
      if outstandingKey w fun k => decide (8448 ≤ k) && decide (k < 8960) && (k - 8448) % 16 == n.val then some n.val
      else none
    else
      if outstandingKey w fun k => decide (n.val * 32 ≤ k) && decide (k < (n.val + x.cnt) * 32) && decide (k < 8192) then
        some n.val
      else none
  | .s n =>
    if (List.range x.cnt).any fun i => outstandingKey w fun k => k == w.sKey (n.val + i) then some (0x100 + n.val)
    else none
  | _ => none

def firstSome : List (Option Nat) → Option Nat
  | [] => none
  | some x :: _ => some x
  | none :: xs => firstSome xs

/-- The number under which an outstanding GBIND holds its register: 8 is the bank's g7 (R370). -/
def gregNum (w : Warp) (n : Nat) : Nat := if w.priv ∧ n = 7 then 8 else n

/-- Flits of a SEND's descriptor (R360). -/
def sendCount (d : Word) : Nat := (d.extractLsb' 16 3).toNat + 1

/-- The sixteen predicates of a lane. -/
def allPreds (write : Bool) : List (Slot × Operand) :=
  (List.range 16).map fun n => ({ pred := true, rd := !write, wr := write }, .v (Fin.ofNat 256 n))

/-- What a word reads or writes beyond its operand positions: the metadata of MMASP by its A format (R299), the second
register of a long SEND (R360), and every predicate of a lane (R117). -/
def furtherSlots (s : State) (w : Warp) (i : Instr) : List (Slot × Operand) :=
  match i with
  | .mmasp _ f =>
    match sameClass w.fmt with
    | some c => [(.vrow (kOfClass c / 8) false, .v (Fin.ofNat 256 f.mt.toNat))]
    | none => []
  | .send _ f => if bit16 f.func 0 ∨ sendCount (rdU s w f.d) ≤ 4 then [] else [(.vrow 2 false, f.a)]
  | .pmov _ f => if f.minor.toNat = 0 then allPreds false else if f.minor.toNat = 1 then allPreds true else []
  | _ => []

/-- A phase word that its guard leaves nothing to do: it reads no operand and writes no register (R335). -/
def idlePhase (w : Warp) (k : Ctl) (i : Instr) : Bool :=
  match i with
  | .resid .. | .ppost .. | .rprop .. | .vpub .. | .vread .. | .admitReq .. | .dline .. | .wfetch .. | .genrd .. => !w.acts k
  | _ => false

/-- A destination of the word is lanes': v-registers or predicates. -/
def writesLanes (i : Instr) : Bool := (sig i).slots.any fun p => p.1.wr && isV p.2

/-- A word that its mask leaves nothing to do: it reads and writes no register (R105, R108, R121, R136, R184, R198, R218, R232,
R249, R262, R265, R266, R281, R282, R335, R360 to R363). A word that acts in lanes does nothing with an empty effective mask,
one that acts for the warp where R121 does not let it act, and a transfer that is not taken. -/
def idleWord (w : Warp) (k : Ctl) (i : Instr) : Bool :=
  match i with
  | .st .. | .stl .. | .red .. | .pref .. | .lock .. | .unlock .. | .cwb .. | .cinv .. | .qclass .. => w.eff k == 0#32
  | .pmov .. | .seedr .. | .awr .. => w.eff k == 0#32
  | .cpy _ f | .cpyb _ f | .gath _ f | .scat _ f | .mcast _ f =>
    if isV f.d || isV f.a || isV f.b then w.eff k == 0#32 else !w.acts k
  | .fwait .. | .recv .. | .xchg .. | .mbrd .. => !w.acts k
  | i => if collective i || writesLanes i then w.eff k == 0#32 else !w.acts k

/-- The hazard of a word under CTXCFG.STRICT (R55): the predicate of its guard, which it reads whatever its mask turns out to
be, but for the phase words that R335 lets read nothing; and the registers that it reads or writes, lanes' only where a lane
acts (log 81). -/
def hazard (s : State) (w : Warp) (k : Ctl) (i : Instr) : Option Nat :=
  firstSome <|
    (if k.g && !idlePhase w k i then [hazardOf w { pred := true } (.v (Fin.ofNat 256 k.gp.toNat))] else []) ++
    if idleWord w k i then []
    else
      (((sig i).slots ++ furtherSlots s w i).map fun p => if isV p.2 && w.eff k == 0#32 then none else hazardOf w p.1 p.2) ++
      [match gregOf i with
       | some n => if w.outs.any (fun o => o.greg.any fun g => g.1 == gregNum w n) then some n else none
       | none => none]

/-- Words that enter the load counter (R50, R173, R241, R291, R309, R361, R363, R374). -/
def entersLoad : Instr → Bool
  | .ld .. | .ldu .. | .ldl .. | .lock .. | .unlock .. | .gbind .. | .qclass .. | .winset .. | .winclr .. => true
  | .atom .. | .cas .. | .cas128 .. | .slop .. | .mon .. | .cbld .. => true
  | .vread .. | .admitReq .. | .wfetch .. | .mbrd .. | .recv .. | .throt .. => true
  | .genrd _ f => f.func == 0#16 || f.func == 3#16
  | .srr _ f => decide (0x100 ≤ (selector f.imm).reg)
  | _ => false

/-- Words that enter the store counter (R50, R173, R217, R241, R309). -/
def entersStore : Instr → Bool
  | .st .. | .stl .. | .cwb .. | .cinv .. | .red .. | .ppost .. | .rprop .. | .vpub .. => true
  | .fence _ f => f.order != 1#2
  | .atom _ f | .cas _ f | .cas128 _ f => f.order.getLsbD 1
  | _ => false

/-- Outstanding loads and stores (R50). -/
def loadCount (w : Warp) : Nat := (w.outs.filter fun o => o.counts).length

def storeCount (w : Warp) : Nat := w.stq.length

/-- Memory, copy, matrix, solver and packet words (R206). -/
def accessWord (i : Instr) : Bool :=
  match i with
  | .send .. | .recv .. | .xchg .. | .throt .. => true
  | _ =>
    match i.view with
    | some x => classBit x.op == some 0 || classBit x.op == some 1
    | none => false

/-- Accesses of every kind: the phase and system words that touch memory or records as well (R217). -/
def anyAccess (i : Instr) : Bool :=
  match i with
  | .ppost .. | .rprop .. | .vpub .. | .vread .. | .admitReq .. | .dline .. | .mbrd .. | .mbwr .. | .wfetch .. => true
  | .ctxsv .. | .ctxld .. | .mapg .. | .bias .. | .tlbinv .. => true
  | i => accessWord i

/-- Stores and atomics, which a release fence holds back (R217). -/
def storeLike : Instr → Bool
  | .st .. | .stl .. | .red .. | .atom .. | .cas .. | .cas128 .. | .slop .. => true
  | _ => false

/-- The acquire and release parts of a word's ORDER. -/
def orderOf : Instr → Nat
  | .ld _ f | .st _ f | .ldu _ f | .ldl _ f | .stl _ f | .fence _ f => f.order.toNat
  | .atom _ f | .cas _ f | .cas128 _ f | .red _ f | .watch _ f | .slop _ f => f.order.toNat
  | _ => 0

/-- A fence, or an access that acts as one because no lane of it acts (R217, R218). -/
def fenceLike (w : Warp) (k : Ctl) (i : Instr) : Bool :=
  match i with
  | .fence .. => true
  | .ldu .. => !w.acts k
  | .atom _ f | .cas _ f | .cas128 _ f | .slop _ f => if isS f.data then !w.acts k else w.eff k == 0#32
  | .ld .. | .st .. | .ldl .. | .stl .. | .red .. => w.eff k == 0#32
  | _ => false

/-- A plain load, store or atomic without a running lane: it neither waits nor orders (R218). -/
def idleAccess (w : Warp) (k : Ctl) (i : Instr) : Bool := fenceLike w k i && orderOf i == 0

/-- The word enters no counter, because none of its lanes acts (R198, R218, R335). -/
def entersNone (w : Warp) (k : Ctl) (i : Instr) : Bool :=
  match i with
  | .lock .. | .unlock .. | .qclass .. | .cwb .. | .cinv .. => w.eff k == 0#32
  | .gbind .. | .winset .. | .winclr .. => !w.acts k
  | i => idlePhase w k i || idleAccess w k i

/-- Does a release hold a CAS that may still fail, or that has failed? Its release part is then a FENCE.rel, which later
stores wait for (R217, R237). -/
def Release.mayFence (r : Release) : Bool :=
  r.failed || r.reqs.any fun x => x.ops.any fun o =>
    match o.op with
    | .cas .. => true
    | _ => false

/-- The word stalls in its run for now. A word that would stall does so before its hazard is judged (log 81). What an acquire
holds back are the accesses of R206, and the phase and system words that touch memory or records as well (R202, log 34). -/
def mustWait (w : Warp) (k : Ctl) (i : Instr) : Bool :=
  !(idleAccess w k i || idlePhase w k i) &&
  ((w.outs.any (fun o => o.acquires) && anyAccess i) ||
   (entersLoad i && !entersNone w k i && decide (31 ≤ loadCount w)) ||
   (entersStore i && !entersNone w k i && decide (31 ≤ storeCount w)) ||
   (engineWord i && decide (0 < storeCount w)) ||
   (fenceLike w k i && (orderOf i) % 2 == 1 && decide (0 < loadCount w)) ||
   w.stq.any (fun e =>
     match e.kind with
     | .fence _ 2 => storeLike i
     | .fence _ _ => anyAccess i
     | .release r => r.mayFence && storeLike i
     | _ => false) ||
   (match i with
    | .send _ f => bit16 f.func 1 && decide (0 < storeCount w)
    | _ => false))

/-- An illegal-instruction trap at a word (R381). -/
def illegal (w : Warp) (k : Ctl) (i : Instr) : Trp := { kind := 1, mask := w.eff k, info := (encode i).setWidth 32 }

/-- Disagreement of the running lanes (R108, R282). -/
def partialMask (w : Warp) (k : Ctl) (i : Instr) : Bool :=
  let e := w.eff k
  (agreeing i && k.g && e != 0#32 && e != w.exec) || (collective i && e != 0#32 && e != 0xFFFFFFFF#32)

/-- The clause's CLASS mask lacks the bit that the word needs (R48, R70). -/
def classMissing (w : Warp) (i : Instr) : Bool :=
  match i.view with
  | none => true
  | some x =>
    match classBit x.op with
    | some b => !w.cmask.getLsbD b
    | none => false

/-- The checks of R71 on a word of the current warp, in order, and the waits. The model's choices (log 81): a word that
must wait is not yet judged for a hazard, and an illegal value that the word reads is found in its body. -/
def gate (s : State) (k : Ctl) (i : Instr) : Gate :=
  let w := s.me
  let e := w.eff k
  if !(legal i && allocOk w (sig i) && dynLegal w i && tableLegal (s.team w.teamKey) i) then .trap (illegal w k i)
  else if classMissing w i || (mustBeLast i && w.left != 1) then .trap { kind := 2, mask := e }
  else if lacksPrivilege s w i then .trap { kind := 4, mask := e }
  else if partialMask w k i then .trap { kind := 3, mask := e, info := e }
  else if mustWait w k i then .wait
  else
    match (if ctxStrict (s.ctx w.ctx) then hazard s w k i else none) with
    | some c => .trap { kind := 5, mask := e, info := BitVec.ofNat 32 c }
    | none => .go

/-- The common run of an instruction word: its checks, then its body. -/
def issue (s : State) (k : Ctl) (i : Instr) (body : State → State) :
    Host.Outcome State Fault Refusal :=
  match gate s k i with
  | .go => .next (body s)
  | .wait => .next s
  | .trap t => .next (s.takeTrap t)

/-- A word whose results are of fixed latency (R55): flags and register writes at once, then the PC moves on. -/
def State.finish (s : State) (k : Ctl) (ws : List (Nat × Word)) (fl : BitVec 6) : State :=
  s.modMe fun w => ((w.putMany ws).setFlags fl).advance k.sw

/-- A word whose result is outstanding until it is written (R55, R99): the write is queued, then the PC moves on. -/
def State.defer (s : State) (k : Ctl) (ws : List (Nat × Word)) (fl : BitVec 6) (counts acquires : Bool) : State :=
  (s.modMe fun w =>
    { w with outs := w.outs.map (fun o => { o with tgts := o.tgts.filter fun t => !(ws.any fun x => x.1 == t.key) }) ++
        [{ id := s.nextId, tgts := ws.map fun x => ⟨x.1, some x.2⟩, flags := fl, counts, acquires }] }).fresh.advance k

end Sys2Proof.Machine
end

