-- ==== Sys2Proof/Machine/Flags.lean ====
section
/-! DEFINITION. Clamping and its saturate flag (R42), packed elements (R73, R120), and the union of the flags of the
lanes that a word produces elements in (R42, R122). -/

namespace Sys2Proof.Machine

/-- x clamped to a range, and whether it changed. -/
def clampInt (lo hi x : Int) : Int × Flags := if x < lo then (lo, fST) else if hi < x then (hi, fST) else (x, 0#6)

/-- sat_s(x, n) (R42). -/
def satS (x : Int) (n : Nat) : Int × Flags := clampInt (-(2 ^ (n - 1) : Nat)) ((2 ^ (n - 1) : Nat) - 1) x

/-- sat_u(x, n) (R42). -/
def satU (x : Int) (n : Nat) : Int × Flags := clampInt 0 ((2 ^ n : Nat) - 1) x

/-- Reduced modulo 2^w, as the bits that a register takes. -/
def lowBits (x : Int) (w : Nat) : Nat := (x.emod (2 ^ w : Nat)).toNat

/-- Bits read as an integer of w bits. -/
def asInt (signed : Bool) (w : Nat) (x : Nat) : Int :=
  if signed ∧ 2 ^ (w - 1) ≤ x % 2 ^ w then (x % 2 ^ w : Int) - (2 ^ w : Nat) else (x % 2 ^ w : Int)

/-- Element width of a 32-bit or packed integer TYPE (R62, R73). -/
def typeWidth (ty : Nat) : Nat :=
  if ty = 10 ∨ ty = 11 ∨ ty = 8 ∨ ty = 9 then 16 else if ty = 12 ∨ ty = 13 then 8 else if ty = 3 ∨ ty = 4 then 64 else 32

/-- Is an integer TYPE signed? -/
def typeSigned (ty : Nat) : Bool := ty == 2 || ty == 4 || ty == 11 || ty == 13

/-- Element i of width w of a register (R73). -/
def elemAt (x w i : Nat) : Nat := x / 2 ^ (w * i) % 2 ^ w

/-- Elements of width w side by side, element 0 lowest. -/
def packElems (w : Nat) : List Nat → Nat
  | [] => 0
  | x :: xs => x % 2 ^ w + 2 ^ w * packElems w xs

def orFlags : List Flags → Flags
  | [] => 0#6
  | f :: fs => f ||| orFlags fs

/-- An operation on each element of a 32-bit register of width w, on the bits of the operands. -/
def mapElems (w : Nat) (g : Nat → Nat → Nat × Flags) (a b : Word) : Word × Flags :=
  let rs := (List.range (32 / w)).map fun i => g (elemAt a.toNat w i) (elemAt b.toNat w i)
  (BitVec.ofNat 32 (packElems w (rs.map Prod.fst)), orFlags (rs.map Prod.snd))

/-- The flags of all lanes of effective (R42). -/
def flagsOver (w : Warp) (k : Ctl) (g : Nat → Flags) : Flags := orFlags ((dstLanes w k).map g)

/-- A word that writes one 32-bit result for each lane, of fixed latency. -/
def State.value32 (s : State) (k : Ctl) (d : Operand) (g : Nat → Word × Flags) : State :=
  s.finish k (writes32 s.me k d fun l => (g l).1) (flagsOver s.me k fun l => (g l).2)

/-- The same for a 64-bit result. -/
def State.value64 (s : State) (k : Ctl) (d : Operand) (g : Nat → Dword × Flags) : State :=
  s.finish k (writes64 s.me k d fun l => (g l).1) (flagsOver s.me k fun l => (g l).2)

end Sys2Proof.Machine
end

