-- ==== Sys2Proof/Machine/Integer.lean ====
section
/-! DEFINITION. The integer and address words (R124 to R135), and the halves of a pair word that are integer. -/

namespace Sys2Proof.Machine

/-- The elementwise operations. -/
def addElem (signed sat : Bool) (w : Nat) (x : Int) : Nat × Flags :=
  if sat then
    let r := if signed then satS x w else satU x w
    (lowBits r.1 w, r.2)
  else (lowBits x w, 0#6)

/-- IADD and ISUB on the elements of TYPE (R125). -/
def addSub (ty : Nat) (sat sub : Bool) (a b : Word) : Word × Flags :=
  let w := typeWidth ty
  mapElems w (fun x y =>
    let i := asInt (typeSigned ty) w x
    let j := asInt (typeSigned ty) w y
    addElem (typeSigned ty) sat w (if sub then i - j else i + j)) a b

/-- IMIN and IMAX: b32 reads as signed (R120, R127). -/
def minMax (ty : Nat) (max : Bool) (a b : Word) : Word :=
  let w := typeWidth ty
  let sg := typeSigned ty || ty == 0
  (mapElems w (fun x y =>
    (if (if max then decide (asInt sg w y ≤ asInt sg w x) else decide (asInt sg w x ≤ asInt sg w y)) then x else y, 0#6))
    a b).1

/-- IABS and INEG (R127); INEG.b32 wraps. -/
def absNeg (ty : Nat) (sat neg : Bool) (a : Word) : Word × Flags :=
  let w := typeWidth ty
  mapElems w (fun x _ =>
    let i := asInt true w x
    addElem true sat w (if neg then -i else i.natAbs)) a 0#32

/-- IMULH (R126). -/
def mulHigh (signed : Bool) (a b : Word) : Word :=
  BitVec.ofInt 32 ((asInt signed 32 a.toNat * asInt signed 32 b.toNat) / (2 ^ 32 : Nat))

/-- SHL, SHR and SAR by n as an unsigned value (R128). -/
def shl32 (a n : Word) : Word := a <<< n.toNat
def shr32 (a n : Word) : Word := a >>> n.toNat
def sar32 (a n : Word) : Word := a.sshiftRight n.toNat

/-- ROT (R128). -/
def rot32 (right : Bool) (a n : Word) : Word :=
  if right then a.rotateRight (n.toNat % 32) else a.rotateLeft (n.toNat % 32)

/-- The field that b names: its position and length, or none (R129). -/
def bitField (b : Word) : Option (Nat × Nat) :=
  let pos := (b.extractLsb' 0 8).toNat
  let len := (b.extractLsb' 8 8).toNat
  if 32 ≤ pos ∨ len = 0 then none else some (pos, min len (32 - pos))

/-- BFX (R129). -/
def bfx32 (signed : Bool) (a b : Word) : Word :=
  match bitField b with
  | none => 0#32
  | some (pos, m) => BitVec.ofInt 32 (asInt signed m (a.toNat / 2 ^ pos))

/-- BFI (R129): b with a field replaced by the low bits of a. -/
def bfi32 (a b c : Word) : Word :=
  match bitField c with
  | none => b
  | some (pos, m) =>
    let mask : Word := BitVec.ofNat 32 ((2 ^ m - 1) * 2 ^ pos)
    (b &&& ~~~mask) ||| ((a <<< pos) &&& mask)

/-- One byte of BPERM: nibble n of the selector (R130). -/
def bpermByte (pool : Dword) (n : Nat) : Nat :=
  let x := pool.toNat / 2 ^ (8 * (n % 8)) % 256
  if n / 8 = 1 then (if 128 ≤ x then 255 else 0) else x

def bperm32 (a b c : Word) : Word :=
  let pool := joinWords a b
  BitVec.ofNat 32 (packElems 8 ((List.range 4).map fun i => bpermByte pool (elemAt c.toNat 4 i)))

/-- POPC, CLZ and BREV (R131). -/
def popc32 (a : Word) : Nat := ((List.range 32).filter fun i => a.getLsbD i).length

def clz32 (a : Word) : Nat := if a = 0#32 then 32 else 31 - Nat.log2 a.toNat

def brev32 (a : Word) : Word := maskOf fun i => a.getLsbD (31 - i)

/-- The conditions .eq to .ge. -/
def intCond (c : Nat) (x y : Int) : Bool :=
  match c with
  | 0 => x == y
  | 1 => x != y
  | 2 => decide (x < y)
  | 3 => decide (x ≤ y)
  | 4 => decide (y < x)
  | _ => decide (y ≤ x)

/-- A compare's write of its predicate under MOD 0 set, 1 .and, 2 .or (R132). -/
def State.compare (s : State) (k : Ctl) (d : Operand) (mod : Nat) (fl : Nat → Flags) (c : Nat → Bool) : State :=
  let w := s.me
  let n := regNum d
  s.finish k (writesPred w k n fun l =>
    match mod with
    | 0 => c l
    | 1 => w.pred n l && c l
    | _ => w.pred n l || c l) (flagsOver w k fl)

/-- ISAT: n of 0 or above 32 counts as 32 (R133). -/
def isat32 (signed : Bool) (a b : Word) : Word × Flags :=
  let n := (b.extractLsb' 0 6).toNat
  let n := if n = 0 ∨ 32 < n then 32 else n
  let r := if signed then satS a.toInt n else satU a.toInt n
  (BitVec.ofInt 32 r.1, r.2)

/-- A result of 64 bits, wrapped or clamped (R134). -/
def wide64 (signed sat : Bool) (x : Int) : Dword × Flags :=
  if sat then
    let r := if signed then satS x 64 else satU x 64
    (BitVec.ofInt 64 r.1, r.2)
  else (BitVec.ofInt 64 x, 0#6)

/-- ICVT from an integer to the destination type's range (R135, R78). -/
def icvtTo (ty : Nat) (sat : Bool) (x : Int) : Int × Flags :=
  let w := typeWidth ty
  if sat then if typeSigned ty then satS x w else satU x w else (x, 0#6)

/-! ## The words -/

/-- MOV (R124). -/
def execMov (k : Ctl) (f : VFields) (s : State) : Host.Outcome State Fault Refusal :=
  issue s k (.mov k f) fun s =>
    let w := s.me
    if f.ty = 3#4 then s.value64 k f.d fun l => (rd64 s w f.a l, 0#6) else s.value32 k f.d fun l => (rd s w f.a l, 0#6)

/-- MOVK (R124). -/
def execMovk (k : Ctl) (f : KFields) (s : State) : Host.Outcome State Fault Refusal :=
  issue s k (.movk k f) fun s =>
    if f.func = 0#8 then s.value32 k f.d fun _ => (f.imm, 0#6)
    else s.value64 k f.d fun _ => (if f.func = 1#8 then f.imm.signExtend 64 else f.imm.setWidth 64, 0#6)

/-- SEL (R124): its predicate field is C. -/
def execSel (k : Ctl) (f : VFields) (s : State) : Host.Outcome State Fault Refusal :=
  issue s k (.sel k f) fun s =>
    let w := s.me
    s.value32 k f.d fun l =>
      (if w.pred (regNum f.c) l != f.mod.getLsbD 0 then rd s w f.a l else rd s w f.b l, 0#6)

/-- IADD (R125). -/
def execIadd (k : Ctl) (f : VFields) (s : State) : Host.Outcome State Fault Refusal :=
  issue s k (.iadd k f) fun s =>
    let w := s.me
    s.value32 k f.d fun l => addSub f.ty.toNat (f.mod == 1#4) false (rd s w f.a l) (rd s w f.b l)

/-- ISUB (R125). -/
def execIsub (k : Ctl) (f : VFields) (s : State) : Host.Outcome State Fault Refusal :=
  issue s k (.isub k f) fun s =>
    let w := s.me
    s.value32 k f.d fun l => addSub f.ty.toNat (f.mod == 1#4) true (rd s w f.a l) (rd s w f.b l)

/-- IMUL (R126). -/
def execImul (k : Ctl) (f : VFields) (s : State) : Host.Outcome State Fault Refusal :=
  issue s k (.imul k f) fun s =>
    let w := s.me
    s.value32 k f.d fun l => (rd s w f.a l * rd s w f.b l, 0#6)

/-- IMULH (R126). -/
def execImulh (k : Ctl) (f : VFields) (s : State) : Host.Outcome State Fault Refusal :=
  issue s k (.imulh k f) fun s =>
    let w := s.me
    s.value32 k f.d fun l => (mulHigh (f.ty == 2#4) (rd s w f.a l) (rd s w f.b l), 0#6)

/-- IMAD (R126). -/
def execImad (k : Ctl) (f : VFields) (s : State) : Host.Outcome State Fault Refusal :=
  issue s k (.imad k f) fun s =>
    let w := s.me
    s.value32 k f.d fun l => (rd s w f.a l * rd s w f.b l + rd s w f.c l, 0#6)

/-- IMIN (R127). -/
def execImin (k : Ctl) (f : VFields) (s : State) : Host.Outcome State Fault Refusal :=
  issue s k (.imin k f) fun s =>
    let w := s.me
    s.value32 k f.d fun l => (minMax f.ty.toNat false (rd s w f.a l) (rd s w f.b l), 0#6)

/-- IMAX (R127). -/
def execImax (k : Ctl) (f : VFields) (s : State) : Host.Outcome State Fault Refusal :=
  issue s k (.imax k f) fun s =>
    let w := s.me
    s.value32 k f.d fun l => (minMax f.ty.toNat true (rd s w f.a l) (rd s w f.b l), 0#6)

/-- IABS (R127). -/
def execIabs (k : Ctl) (f : VFields) (s : State) : Host.Outcome State Fault Refusal :=
  issue s k (.iabs k f) fun s =>
    let w := s.me
    s.value32 k f.d fun l => absNeg f.ty.toNat (f.mod == 1#4) false (rd s w f.a l)

/-- INEG (R127). -/
def execIneg (k : Ctl) (f : VFields) (s : State) : Host.Outcome State Fault Refusal :=
  issue s k (.ineg k f) fun s =>
    let w := s.me
    s.value32 k f.d fun l => absNeg f.ty.toNat (f.mod == 1#4) true (rd s w f.a l)

/-- AND (R128). -/
def execAnd (k : Ctl) (f : VFields) (s : State) : Host.Outcome State Fault Refusal :=
  issue s k (.and k f) fun s =>
    let w := s.me
    s.value32 k f.d fun l => (rd s w f.a l &&& rd s w f.b l, 0#6)

/-- OR (R128). -/
def execOr (k : Ctl) (f : VFields) (s : State) : Host.Outcome State Fault Refusal :=
  issue s k (.or k f) fun s =>
    let w := s.me
    s.value32 k f.d fun l => (rd s w f.a l ||| rd s w f.b l, 0#6)

/-- XOR (R128). -/
def execXor (k : Ctl) (f : VFields) (s : State) : Host.Outcome State Fault Refusal :=
  issue s k (.xor k f) fun s =>
    let w := s.me
    s.value32 k f.d fun l => (rd s w f.a l ^^^ rd s w f.b l, 0#6)

/-- ANDN (R128). -/
def execAndn (k : Ctl) (f : VFields) (s : State) : Host.Outcome State Fault Refusal :=
  issue s k (.andn k f) fun s =>
    let w := s.me
    s.value32 k f.d fun l => (rd s w f.a l &&& ~~~(rd s w f.b l), 0#6)

/-- SHL (R128). -/
def execShl (k : Ctl) (f : VFields) (s : State) : Host.Outcome State Fault Refusal :=
  issue s k (.shl k f) fun s =>
    let w := s.me
    s.value32 k f.d fun l => (shl32 (rd s w f.a l) (rd s w f.b l), 0#6)

/-- SHR (R128). -/
def execShr (k : Ctl) (f : VFields) (s : State) : Host.Outcome State Fault Refusal :=
  issue s k (.shr k f) fun s =>
    let w := s.me
    s.value32 k f.d fun l => (shr32 (rd s w f.a l) (rd s w f.b l), 0#6)

/-- SAR (R128). -/
def execSar (k : Ctl) (f : VFields) (s : State) : Host.Outcome State Fault Refusal :=
  issue s k (.sar k f) fun s =>
    let w := s.me
    s.value32 k f.d fun l => (sar32 (rd s w f.a l) (rd s w f.b l), 0#6)

/-- ROT (R128). -/
def execRot (k : Ctl) (f : VFields) (s : State) : Host.Outcome State Fault Refusal :=
  issue s k (.rot k f) fun s =>
    let w := s.me
    s.value32 k f.d fun l => (rot32 (f.mod == 1#4) (rd s w f.a l) (rd s w f.b l), 0#6)

/-- BFX (R129). -/
def execBfx (k : Ctl) (f : VFields) (s : State) : Host.Outcome State Fault Refusal :=
  issue s k (.bfx k f) fun s =>
    let w := s.me
    s.value32 k f.d fun l => (bfx32 (f.ty == 2#4) (rd s w f.a l) (rd s w f.b l), 0#6)

/-- BFI (R129). -/
def execBfi (k : Ctl) (f : VFields) (s : State) : Host.Outcome State Fault Refusal :=
  issue s k (.bfi k f) fun s =>
    let w := s.me
    s.value32 k f.d fun l => (bfi32 (rd s w f.a l) (rd s w f.b l) (rd s w f.c l), 0#6)

/-- BPERM (R130). -/
def execBperm (k : Ctl) (f : VFields) (s : State) : Host.Outcome State Fault Refusal :=
  issue s k (.bperm k f) fun s =>
    let w := s.me
    s.value32 k f.d fun l => (bperm32 (rd s w f.a l) (rd s w f.b l) (rd s w f.c l), 0#6)

/-- POPC (R131). -/
def execPopc (k : Ctl) (f : VFields) (s : State) : Host.Outcome State Fault Refusal :=
  issue s k (.popc k f) fun s =>
    let w := s.me
    s.value32 k f.d fun l => (BitVec.ofNat 32 (popc32 (rd s w f.a l)), 0#6)

/-- CLZ (R131). -/
def execClz (k : Ctl) (f : VFields) (s : State) : Host.Outcome State Fault Refusal :=
  issue s k (.clz k f) fun s =>
    let w := s.me
    s.value32 k f.d fun l => (BitVec.ofNat 32 (clz32 (rd s w f.a l)), 0#6)

/-- BREV (R131). -/
def execBrev (k : Ctl) (f : VFields) (s : State) : Host.Outcome State Fault Refusal :=
  issue s k (.brev k f) fun s =>
    let w := s.me
    s.value32 k f.d fun l => (brev32 (rd s w f.a l), 0#6)

/-- ICMP (R132): b32 compares as signed (R120). -/
def execIcmp (k : Ctl) (f : VFields) (s : State) : Host.Outcome State Fault Refusal :=
  issue s k (.icmp k f) fun s =>
    let w := s.me
    let ty := f.ty.toNat
    let val (o : Operand) (l : Nat) : Int :=
      if 3 ≤ ty then asInt (typeSigned ty) 64 (rd64 s w o l).toNat
      else asInt (typeSigned ty || ty == 0) 32 (rd s w o l).toNat
    s.compare k f.d f.mod.toNat (fun _ => 0#6) fun l => intCond f.minor.toNat (val f.a l) (val f.b l)

/-- ISAT (R133). -/
def execIsat (k : Ctl) (f : VFields) (s : State) : Host.Outcome State Fault Refusal :=
  issue s k (.isat k f) fun s =>
    let w := s.me
    s.value32 k f.d fun l => isat32 (f.ty == 2#4) (rd s w f.a l) (rd s w f.b l)

/-- IADD64 (R134). -/
def execIadd64 (k : Ctl) (f : VFields) (s : State) : Host.Outcome State Fault Refusal :=
  issue s k (.iadd64 k f) fun s =>
    let w := s.me
    let sg := f.ty == 4#4
    let b (l : Nat) : Int :=
      match f.minor.toNat with
      | 0 => asInt sg 64 (rd64 s w f.b l).toNat
      | 1 => (rd s w f.b l).toNat
      | _ => (rd s w f.b l).toInt
    s.value64 k f.d fun l => wide64 sg (f.mod == 1#4) (asInt sg 64 (rd64 s w f.a l).toNat + b l)

/-- IMAD64 (R134). -/
def execImad64 (k : Ctl) (f : VFields) (s : State) : Host.Outcome State Fault Refusal :=
  issue s k (.imad64 k f) fun s =>
    let w := s.me
    let sg := f.ty == 4#4
    let val (o : Operand) (l : Nat) : Int := asInt sg 32 (rd s w o l).toNat
    s.value64 k f.d fun l => (BitVec.ofInt 64 (val f.a l * val f.b l + (rd64 s w f.c l).toNat), 0#6)

/-- LEA (R134). -/
def execLea (k : Ctl) (f : VFields) (s : State) : Host.Outcome State Fault Refusal :=
  issue s k (.lea k f) fun s =>
    let w := s.me
    let ext (l : Nat) : Dword :=
      if f.minor = 0#5 then (rd s w f.b l).setWidth 64 else (rd s w f.b l).signExtend 64
    s.value64 k f.d fun l => (rd64 s w f.a l + (ext l <<< f.mod.toNat), 0#6)

/-- ICVT (R135). -/
def execIcvt (k : Ctl) (f : VFields) (s : State) : Host.Outcome State Fault Refusal :=
  issue s k (.icvt k f) fun s =>
    let w := s.me
    let src := f.minor.toNat
    let ty := f.ty.toNat
    let x (l : Nat) : Int :=
      if 3 ≤ src then asInt (typeSigned src) 64 (rd64 s w f.a l).toNat
      else asInt (typeSigned src) 32 (rd s w f.a l).toNat
    let r (l : Nat) := icvtTo ty (f.mod == 1#4) (x l)
    if 3 ≤ ty then s.value64 k f.d fun l => (BitVec.ofInt 64 (r l).1, (r l).2)
    else s.value32 k f.d fun l => (BitVec.ofInt 32 (r l).1, (r l).2)

end Sys2Proof.Machine
end

