-- ==== Sys2Proof/Machine/SpecialFn.lean ====
section
/-! DEFINITION. The special functions (R150 to R152): fixed-point values with 640 fraction bits, far finer than any
argument needs, and the faithful rounding whose free choice is a threshold for each lower neighbour, so that the results
are monotone where the function is (R151, log 7). -/

namespace Sys2Proof.Machine

/-- Fraction bits of the fixed-point values. -/
def fxBits : Nat := 640

def fxOne : Nat := 2 ^ 640

/-- ln 2 in fixed point. -/
def fxLn2 : Nat := 0xb17217f7d1cf79abc9e3b39803f2f6af40f343267298b62d8a0d175b8baafa2be7b876206debac98559552fb4afa1b10ed2eae35c138214427573b291169b8253e96ca16224ae8c51acbda11317c387e

/-- Half of pi with 900 fraction bits, so that the largest FP32 argument reduces exactly enough. -/
def halfPi900 : Nat :=
  0x1921fb54442d18469898cc51701b839a252049c1114cf98e804177d4c76273644a29410f31c6809bbdf2a33679a748636605614dbe4be286e9fc26adadaa3848bc90b6aecc4bcfd8de89885d34c6fdad617feb96de80d6fdbdc70d7f6b5133f4b5d3e4822f8963fcc9250cca3d9c8b67b8

/-- Product of fixed-point values. -/
def fxMul (a b : Nat) : Nat := a * b / fxOne

/-- A finite value m x 2^e in fixed point, truncated. -/
def fxOf (m : Nat) (e : Int) : Nat := if 0 ≤ e + 640 then m * 2 ^ (e + 640).toNat else m / 2 ^ (-(e + 640)).toNat

/-- Sum of r^n / n! from the term t on. -/
def expSeries (r : Nat) : Nat → Nat → Nat → Nat
  | 0, _, _ => 0
  | fuel + 1, n, t => t + expSeries r fuel (n + 1) (fxMul t r / (n + 1))

/-- e^x of a fixed-point integer x, as a fixed-point mantissa in [1, 2] and a power of two. -/
def fxExp (x : Int) : Nat × Int :=
  let n := x / (fxLn2 : Int)
  (expSeries (x - n * fxLn2).toNat 150 0 fxOne, n)

/-- 2 atanh z for a fixed-point z at most 1/3: the terms 2 z^k / k from k on. -/
def atanhSeries (z2 : Nat) : Nat → Nat → Nat → Nat
  | 0, _, _ => 0
  | fuel + 1, k, t => 2 * t / k + atanhSeries z2 fuel (k + 2) (fxMul t z2)

/-- Natural logarithm of m x 2^e, m not zero, in fixed point. -/
def fxLog (m : Nat) (e : Int) : Int :=
  let len := bitLen m
  let x := fxOf m (1 - len)
  let z := (x - fxOne) * fxOne / (x + fxOne)
  (atanhSeries (fxMul z z) 220 1 z : Nat) + (e + len - 1) * fxLn2

/-- Alternating series of sine (n = 1, t = r) and cosine (n = 0, t = 1). -/
def trigSeries (r2 : Nat) : Nat → Nat → Int → Int
  | 0, _, _ => 0
  | fuel + 1, n, t => t + trigSeries r2 fuel (n + 2) (-(t * r2 / fxOne / ((n + 1) * (n + 2))))

/-- |x| modulo half of pi: the quadrant and the fixed-point rest. -/
def reduceTrig (m : Nat) (e : Int) : Nat × Nat :=
  let x := m * 2 ^ (e + 900).toNat
  (x / halfPi900, x % halfPi900 / 2 ^ 260)

/-- sin or cos of |x|: the quadrant counted from 0, and the signed fixed-point value. -/
def fxTrig (cos : Bool) (m : Nat) (e : Int) : Nat × Int :=
  let (k, r) := reduceTrig m e
  let r2 := fxMul r r
  let q := (k + if cos then 1 else 0) % 4
  let v := if q % 2 = 0 then trigSeries r2 90 1 r else trigSeries r2 90 0 fxOne
  (k, if q < 2 then v else -v)

/-- The faithful FP32 rounding of a magnitude m x 2^e that FP32 does not represent (R151, R152). fn and piece name the
function and its monotone piece. Whether a result just below 2^-126 is tiny is decided by a free threshold of its own, since its
rounding with an unbounded exponent has other neighbours (R89, log 7). -/
def faithful (fn piece : Nat) (neg : Bool) (m : Nat) (e : Int) : Word × Flags :=
  let lead := (bitLen m : Int) - 1 + e
  let pick (u : Int) (tag : Nat) : Nat × Bool :=
    let t := (roundUnits 1 neg m e u 0).1
    let frac := if u ≤ e then 0 else m % 2 ^ (u - e).toNat * 2 ^ 64 / 2 ^ (u - e).toNat
    (t, decide (Config.sfThreshold fn piece (t * 4 + tag + if neg then 1 else 0) ≤ frac))
  let sign := if neg then 0x80000000 else 0
  if lead ≥ 128 ∨ (lead = 127 ∧ (roundUnits 1 neg m e 104 0).1 = 2 ^ 24 - 1) then
    (BitVec.ofNat 32 (sign + 0x7F800000), fOF ||| fNX)
  else
    let u := if lead < -126 then -149 else lead - 23
    let (t, up) := pick u (2 * (u + 149).toNat * 2 ^ 30)
    let q := if up then t + 1 else t
    let tinyUp := lead = -127 ∧ (roundUnits 1 neg m e (-150) 0).1 = 2 ^ 24 - 1 ∧ (pick (-150) 2).2
    let tiny := decide (lead < -126) && !decide tinyUp
    (BitVec.ofNat 32 (sign + fp32.codeOf q u), fNX ||| flagIf tiny fUF)

/-- The same for a fixed-point value. -/
def faithfulFx (fn piece : Nat) (x : Int) : Word × Flags := faithful fn piece (decide (x < 0)) (max 1 x.natAbs) (-640)

def posInf : Word := 0x7F800000#32
def one32 : Word := 0x3F800000#32
def defNan32 : Word := 0x7FC00000#32

/-- A NaN made quiet in FP32, or what f gives for any other value (R140, R152). -/
def sfNan (x : Num) (f : Num → Word × Flags) : Word × Flags :=
  if x.isNan then ((rndF32 x.quieten 0).1, anySnan [x]) else f x

/-- RCP (R150, R152). -/
def sfRcp (x : Num) : Word × Flags :=
  sfNan x fun x =>
    let q := divNum (.fin false 1 0) x
    let r := rndF32 q.1 0
    (r.1, q.2 ||| r.2)

/-- SQRT (R150, R152). -/
def sfSqrt (x : Num) : Word × Flags :=
  sfNan x fun x =>
    let q := sqrtNum x
    let r := rndF32 q.1 0
    (r.1, q.2 ||| r.2)

/-- RSQ (R150, R152): exact for even powers of two, else one of the two neighbours. -/
def sfRsq (bits : Word) (x : Num) : Word × Flags :=
  sfNan x fun x =>
    match x with
    | .inf neg => if neg then (defNan32, fIV) else (0#32, 0#6)
    | .fin neg m e =>
      if m = 0 then (if neg then 0xFF800000#32 else posInf, fDZ)
      else if neg then (defNan32, fIV)
      else
        let (m1, e1) := if e % 2 = 0 then (m, e) else (2 * m, e - 1)
        let r := isqrt (2 ^ 600 / m1)
        if r * r * m1 = 2 ^ 600 then rndF32 (.fin false r (-300 - e1 / 2)) 0
        else
          let y := 2 * r + 1
          (rndF32 (.fin false y (-301 - e1 / 2)) (if Config.rsqUp bits.toNat then 2 else 1))
    | _ => (defNan32, 0#6)

/-- An integer value of x, where it is one within the exponents of FP32. -/
def intOf (neg : Bool) (m : Nat) (e : Int) : Option Int :=
  let r := roundUnits 1 neg m e 0 0
  if r.2 ∧ r.1 ≤ 200 then some (if neg then -(r.1 : Int) else r.1) else none

/-- Signed fixed-point form of a finite value. -/
def fxSigned (neg : Bool) (m : Nat) (e : Int) : Int := if neg then -(fxOf m e : Int) else fxOf m e

/-- EXP2 and EXP: beyond 300 in magnitude the result is already settled. -/
def sfExp (base2 : Bool) (x : Num) : Word × Flags :=
  sfNan x fun x =>
    match x with
    | .inf neg => if neg then (0#32, 0#6) else (posInf, 0#6)
    | .fin neg m e =>
      let fn := if base2 then 1 else 3
      if m = 0 then (one32, 0#6)
      else if fxOf m e ≥ 300 * fxOne then faithful fn 0 false 1 (if neg then -400 else 400)
      else
        match (if base2 then intOf neg m e else none) with
        | some n => rndF32exp fn n
        | none =>
          let v := fxSigned neg m e
          let (y, n) := fxExp (if base2 then v * fxLn2 / fxOne else v)
          faithful fn 0 false y (n - 640)
    | _ => (defNan32, 0#6)
where
  /-- 2^n for an integer n: exact where FP32 has it. -/
  rndF32exp (fn : Nat) (n : Int) : Word × Flags :=
    if -149 ≤ n ∧ n ≤ 127 then rndF32 (.fin false 1 n) 0 else faithful fn 0 false 1 n

/-- LOG2 and LOG. -/
def sfLog (base2 : Bool) (x : Num) : Word × Flags :=
  sfNan x fun x =>
    match x with
    | .inf neg => if neg then (defNan32, fIV) else (posInf, 0#6)
    | .fin neg m e =>
      if m = 0 then (0xFF800000#32, fDZ)
      else if neg then (defNan32, fIV)
      else if base2 ∧ m = 2 ^ (bitLen m - 1) then rndF32 (Num.ofInt (e + bitLen m - 1)) 0
      else if m = 2 ^ (bitLen m - 1) ∧ e + bitLen m - 1 = 0 then (0#32, 0#6)
      else
        let v := fxLog m e
        if base2 then faithfulFx 2 0 (v * fxOne / fxLn2) else faithfulFx 4 0 v
    | _ => (defNan32, 0#6)

/-- SIN and COS (R151, R152). Away from zero the true values of FP32 arguments lie strictly between -1 and 1. -/
def sfTrig (cos : Bool) (x : Num) : Word × Flags :=
  sfNan x fun x =>
    match x with
    | .inf _ => (defNan32, fIV)
    | .fin neg m e =>
      if m = 0 then (if cos then one32 else if neg then 0x80000000#32 else 0#32, 0#6)
      else
        let (k, v) := fxTrig cos m e
        let v := max (1 - (fxOne : Int)) (min v ((fxOne : Int) - 1))
        faithfulFx (if cos then 6 else 5) (2 * k + if neg then 1 else 0) (if neg && !cos then -v else v)
    | _ => (defNan32, 0#6)

/-- e^-|x| in fixed point. -/
def fxDecay (m : Nat) (e : Int) : Nat :=
  if fxOf m e ≥ 300 * fxOne then 0
  else
    let (y, n) := fxExp (-(fxOf m e : Int))
    y / 2 ^ (-n).toNat

/-- TANH (R151, R152). -/
def sfTanh (x : Num) : Word × Flags :=
  sfNan x fun x =>
    match x with
    | .inf neg => (if neg then 0xBF800000#32 else one32, 0#6)
    | .fin neg m e =>
      if m = 0 then (if neg then 0x80000000#32 else 0#32, 0#6)
      else
        let u := fxDecay m (e + 1)
        let y := (fxOne - u) * fxOne / (fxOne + u)
        let y := min y (fxOne - 1)
        faithfulFx 7 0 (if neg then -(y : Int) else y)
    | _ => (defNan32, 0#6)

/-- SIGM (R151, R152). -/
def sfSigm (x : Num) : Word × Flags :=
  sfNan x fun x =>
    match x with
    | .inf neg => (if neg then 0#32 else one32, 0#6)
    | .fin neg m e =>
      if m = 0 then (0x3F000000#32, 0#6)
      else
        let u := fxDecay m e
        let y := (if neg then u else fxOne) * fxOne / (fxOne + u)
        faithfulFx 8 0 (min y (fxOne - 1) : Nat)
    | _ => (defNan32, 0#6)

end Sys2Proof.Machine
end

