-- ==== Sys2Proof/Machine/Float.lean ====
section
/-! DEFINITION. The floating-point words (R137 to R156): operands by type, one rounding for each element, SEED and its
order of steps (R94, R137), comparisons, conversions, PACK and UNPK, the special functions, FPSTAT and SEED. -/

namespace Sys2Proof.Machine

/-- How a conversion rounds: mode, saturation, and CTXCFG.DNF. -/
structure Rnd where
  mode : Nat
  sat : Bool
  dnf : Bool
  deriving DecidableEq, Repr

/-- The rounding that FMT and CTXCFG select for a warp (R95, R92). -/
def rndOf (s : State) (w : Warp) : Rnd := ⟨fmtRound w.fmt, fmtSat w.fmt, ctxDnf (s.ctx w.ctx)⟩

/-- A SEED after one conversion (R43): it steps under RS. -/
def Rnd.step (r : Rnd) (seed : Word) : Word := if r.mode = 4 then seedNext seed else seed

/-- round_to with a lane's SEED: code, flags and the next SEED. -/
def Rnd.to (r : Rnd) (f : FpFmt) (x : Num) (seed : Word) : Nat × Flags × Word :=
  let y := roundTo f x r.mode r.sat seed.toNat r.dnf
  (y.1, y.2, r.step seed)

/-- What a lane's work gives: the result's bits, its flags and the lane's next SEED. -/
abbrev Lane := Nat × Flags × Word

def Warp.seed (w : Warp) (l : Nat) : Word := tget 0#32 w.seeds l

def Warp.putSeeds (w : Warp) (xs : List (Nat × Word)) : Warp := { w with seeds := tsetMany 0#32 w.seeds xs }

def isVec : Operand → Bool
  | .v _ => true
  | _ => false

/-- The lowest lane of effective, or lane 0 (R137). -/
def lowLane (w : Warp) (k : Ctl) : Nat := (dstLanes w k).headD 0

/-- A floating word: g gives each lane's work. A v-register destination works in every lane of effective; an s-register
destination works once, with the lowest lane's SEED and flags (R137). -/
def State.fpWord (s : State) (k : Ctl) (d : Operand) (pair : Bool) (g : Nat → Word → Lane) : State :=
  let w := s.me
  let ls := dstLanes w k
  let out (l : Nat) (x : Nat) : List (Nat × Word) :=
    match d with
    | .v n => if pair then [(vKey n.val l, BitVec.ofNat 32 x), (vKey (n.val + 1) l, BitVec.ofNat 32 (x / 2 ^ 32))]
              else [(vKey n.val l, BitVec.ofNat 32 x)]
    | .s n => if pair then [(w.sKey n.val, BitVec.ofNat 32 x), (w.sKey (n.val + 1), BitVec.ofNat 32 (x / 2 ^ 32))]
              else [(w.sKey n.val, BitVec.ofNat 32 x)]
    | _ => []
  let act := if isVec d then ls else if w.acts k then [lowLane w k] else []
  let rs := act.map fun l => (l, g l (w.seed l))
  let live := rs.filter fun r => ls.contains r.1
  (s.modMe fun w => w.putSeeds (live.map fun r => (r.1, r.2.2.2))).finish k (rs.flatMap fun r => out r.1 r.2.1)
    (orFlags (live.map fun r => r.2.2.1))

/-! ## Operands by type (R137) -/

/-- Format, width and number of elements of a floating TYPE. -/
def fpType (ty : Nat) : FpFmt × Nat × Nat :=
  match ty with
  | 6 => (fp64, 64, 1)
  | 7 => (f19, 32, 1)
  | 8 => (bf16, 16, 2)
  | 9 => (fp16, 16, 2)
  | _ => (fp32, 32, 1)

/-- The bits of a floating operand: an FP32 table constant supplies its value in the type's format (R137). -/
def rdFp (s : State) (w : Warp) (ty : Nat) (o : Operand) (l : Nat) : Nat :=
  match o with
  | .fp n =>
    let (f, wd, cnt) := fpType ty
    if ty = 6 then (rd64 s w o l).toNat
    else packElems wd (List.replicate cnt (roundTo f (decF32 (fpConst n.val)) 0 false 0).1)
  | _ => if ty = 6 then (rd64 s w o l).toNat else (rd s w o l).toNat

/-- Element i of a floating operand as a value, after its negation (R140, R92). -/
def fpElem (r : Rnd) (ty : Nat) (neg : Bool) (bits i : Nat) : Num :=
  let (f, wd, _) := fpType ty
  let x := f.decodeSrc r.dnf (elemAt bits wd i)
  if neg then x.negate else x

/-- The elements of a word from first to last, each stepping SEED in turn (R94): their bits, flags and the last SEED. -/
def seqElems (g : Nat → Word → Lane) : List Nat → Word → List Nat × Flags × Word
  | [], seed => ([], 0#6, seed)
  | i :: is, seed =>
    let x := g i seed
    let r := seqElems g is x.2.2
    (x.1 :: r.1, x.2.1 ||| r.2.1, r.2.2)

/-- An arithmetic word (R141): op of the exact values of the three operands, rounded once per element. -/
def State.fpArith (s : State) (k : Ctl) (f : VFields) (op : Bool → Num → Num → Num → Num × Flags) : State :=
  let w := s.me
  let r := rndOf s w
  let ty := f.ty.toNat
  let (fmt, wd, cnt) := fpType ty
  s.fpWord k f.d (ty == 6) fun l seed =>
    let a := rdFp s w ty f.a l
    let b := rdFp s w ty f.b l
    let c := rdFp s w ty f.c l
    let x := seqElems (fun i sd =>
      let v := op (r.mode == 3) (fpElem r ty (f.mod.getLsbD 0) a i) (fpElem r ty (f.mod.getLsbD 1) b i)
        (fpElem r ty (f.mod.getLsbD 2) c i)
      let y := r.to fmt v.1 sd
      (y.1, v.2 ||| y.2.1, y.2.2)) (List.range cnt) seed
    (packElems wd x.1, x.2)

/-- a - b keeps the sign of a NaN b (R140). -/
def subNum (rdn : Bool) (a b : Num) : Num × Flags := addNum rdn a (if b.isNan then b else b.negate)

/-- FMIN and FMAX on one element's codes (R142). -/
def pickElem (f : FpFmt) (dnf max : Bool) (a b : Nat) : Nat × Flags :=
  let x := f.decodeSrc dnf a
  let y := f.decodeSrc dnf b
  let p := pickNum max x y
  ((roundTo f (if p.1 = 0 then x.quieten else y.quieten) 0 false 0).1, p.2)

def State.fpPick (s : State) (k : Ctl) (f : VFields) (max : Bool) : State :=
  let w := s.me
  let r := rndOf s w
  let ty := f.ty.toNat
  let (fmt, wd, cnt) := fpType ty
  s.fpWord k f.d false fun l seed =>
    let a := rdFp s w ty f.a l
    let b := rdFp s w ty f.b l
    let xs := (List.range cnt).map fun i => pickElem fmt r.dnf max (elemAt a wd i) (elemAt b wd i)
    (packElems wd (xs.map Prod.fst), orFlags (xs.map Prod.snd), seed)

/-- The conditions of FCMP and DCMP, and the flags (R143). -/
def fpCond (c : Nat) (a b : Num) : Bool × Flags :=
  let o := cmpNum a b
  let un := a.isNan || b.isNan
  let loud := flagIf un fIV
  let quiet := anySnan [a, b]
  match c with
  | 0 => (o == some .eq, quiet)
  | 1 => (o != some .eq, quiet)
  | 2 => (o == some .lt, loud)
  | 3 => (o == some .lt || o == some .eq, loud)
  | 4 => (o == some .gt, loud)
  | 5 => (o == some .gt || o == some .eq, loud)
  | 6 => (un, quiet)
  | _ => (!un, quiet)

def State.fpCompare (s : State) (k : Ctl) (f : VFields) : State :=
  let w := s.me
  let ty := f.ty.toNat
  let at' (l : Nat) := fpCond f.minor.toNat (fpElem ⟨0, false, false⟩ ty false (rdFp s w ty f.a l) 0)
    (fpElem ⟨0, false, false⟩ ty false (rdFp s w ty f.b l) 0)
  s.compare k f.d f.mod.toNat (fun l => (at' l).2) fun l => (at' l).1

/-- The one-hot class of a code (R144). -/
def classOf (f : FpFmt) (u : Nat) : Nat :=
  match f.decode u with
  | .nan _ quiet _ => if quiet then 512 else 256
  | .inf neg => if neg then 1 else 128
  | .fin neg m _ =>
    if m = 0 then if neg then 8 else 16
    else if f.subnormal u then if neg then 4 else 32
    else if neg then 2 else 64

/-- The mode that an rnd field selects (R139): 0 is FMT's. -/
def modeOf (r : Rnd) (rnd : Nat) : Nat := if rnd = 0 then r.mode else rnd - 1

/-- FRND on one value (R145). -/
def frndTo (f : FpFmt) (mode : Nat) (x : Num) (seed : Nat) : Nat × Flags :=
  match x with
  | .fin neg m e =>
    let q := roundUnits mode neg m e 0 seed
    if q.2 then ((roundTo f x 0 false 0).1, 0#6) else ((roundTo f (.fin neg q.1 0) 0 false 0).1, fNX)
  | y => ((roundTo f y.quieten 0 false 0).1, anySnan [y])

/-- The source of FCVT (R146, R139): narrow sources are element 0 of A. -/
def cvtSource (s : State) (w : Warp) (dnf : Bool) (src : Nat) (o : Operand) (l : Nat) : Num :=
  let (f, wd, _) := fpType src
  f.decodeSrc dnf (elemAt (rdFp s w src o l) wd 0)

/-- An integer operand of F2I's and I2F's integer types (R139). -/
def intSource (s : State) (w : Warp) (ty : Nat) (o : Operand) (l : Nat) : Int :=
  if 3 ≤ ty then asInt (typeSigned ty) 64 (rd64 s w o l).toNat else asInt (typeSigned ty) 32 (rd s w o l).toNat

/-! ## The arithmetic words -/

/-- FADD (R141). -/
def execFadd (k : Ctl) (f : VFields) (s : State) : Host.Outcome State Fault Refusal :=
  issue s k (.fadd k f) fun s => s.fpArith k f fun rdn a b _ => addNum rdn a b

/-- FSUB (R141). -/
def execFsub (k : Ctl) (f : VFields) (s : State) : Host.Outcome State Fault Refusal :=
  issue s k (.fsub k f) fun s => s.fpArith k f fun rdn a b _ => subNum rdn a b

/-- FMUL (R141). -/
def execFmul (k : Ctl) (f : VFields) (s : State) : Host.Outcome State Fault Refusal :=
  issue s k (.fmul k f) fun s => s.fpArith k f fun _ a b _ => mulNum a b

/-- FFMA (R141). -/
def execFfma (k : Ctl) (f : VFields) (s : State) : Host.Outcome State Fault Refusal :=
  issue s k (.ffma k f) fun s => s.fpArith k f fun rdn a b c => fmaNum rdn a b c

/-- DADD (R141). -/
def execDadd (k : Ctl) (f : VFields) (s : State) : Host.Outcome State Fault Refusal :=
  issue s k (.dadd k f) fun s => s.fpArith k f fun rdn a b _ => addNum rdn a b

/-- DMUL (R141). -/
def execDmul (k : Ctl) (f : VFields) (s : State) : Host.Outcome State Fault Refusal :=
  issue s k (.dmul k f) fun s => s.fpArith k f fun _ a b _ => mulNum a b

/-- DFMA (R141). -/
def execDfma (k : Ctl) (f : VFields) (s : State) : Host.Outcome State Fault Refusal :=
  issue s k (.dfma k f) fun s => s.fpArith k f fun rdn a b c => fmaNum rdn a b c

/-- FMIN (R142). -/
def execFmin (k : Ctl) (f : VFields) (s : State) : Host.Outcome State Fault Refusal :=
  issue s k (.fmin k f) fun s => s.fpPick k f false

/-- FMAX (R142). -/
def execFmax (k : Ctl) (f : VFields) (s : State) : Host.Outcome State Fault Refusal :=
  issue s k (.fmax k f) fun s => s.fpPick k f true

/-- FCMP (R143). -/
def execFcmp (k : Ctl) (f : VFields) (s : State) : Host.Outcome State Fault Refusal :=
  issue s k (.fcmp k f) fun s => s.fpCompare k f

/-- DCMP (R143). -/
def execDcmp (k : Ctl) (f : VFields) (s : State) : Host.Outcome State Fault Refusal :=
  issue s k (.dcmp k f) fun s => s.fpCompare k f

/-- FCLASS (R144). -/
def execFclass (k : Ctl) (f : VFields) (s : State) : Host.Outcome State Fault Refusal :=
  issue s k (.fclass k f) fun s =>
    let w := s.me
    let ty := f.ty.toNat
    s.fpWord k f.d false fun l seed => (classOf (fpType ty).1 (rdFp s w ty f.a l), 0#6, seed)

/-- FRND (R145). -/
def execFrnd (k : Ctl) (f : VFields) (s : State) : Host.Outcome State Fault Refusal :=
  issue s k (.frnd k f) fun s =>
    let w := s.me
    let ty := f.ty.toNat
    let r := rndOf s w
    let m := modeOf r f.minor.toNat
    s.fpWord k f.d (ty == 6) fun l seed =>
      let y := frndTo (fpType ty).1 m ((fpType ty).1.decode (rdFp s w ty f.a l)) seed.toNat
      (y.1, y.2, (Rnd.mk m false false).step seed)

/-- FCVT (R146). -/
def execFcvt (k : Ctl) (f : VFields) (s : State) : Host.Outcome State Fault Refusal :=
  issue s k (.fcvt k f) fun s =>
    let w := s.me
    let r := rndOf s w
    s.fpWord k f.d (f.ty == 6#4) fun l seed =>
      r.to (fpType f.ty.toNat).1 (cvtSource s w r.dnf f.minor.toNat f.a l) seed

/-- F2I (R147, R91). -/
def execF2i (k : Ctl) (f : VFields) (s : State) : Host.Outcome State Fault Refusal :=
  issue s k (.f2i k f) fun s =>
    let w := s.me
    let ty := f.ty.toNat
    let m := modeOf (rndOf s w) f.mod.toNat
    s.fpWord k f.d (3 ≤ ty) fun l seed =>
      let y := roundToInt (typeSigned ty) (typeWidth ty) (cvtSource s w false f.minor.toNat f.a l) m seed.toNat
      (lowBits y.1 64, y.2, (Rnd.mk m false false).step seed)

/-- I2F (R147). -/
def execI2f (k : Ctl) (f : VFields) (s : State) : Host.Outcome State Fault Refusal :=
  issue s k (.i2f k f) fun s =>
    let w := s.me
    let m := modeOf (rndOf s w) f.mod.toNat
    s.fpWord k f.d (f.ty == 6#4) fun l seed =>
      (Rnd.mk m false false).to (fpType f.ty.toNat).1 (Num.ofInt (intSource s w f.minor.toNat f.a l)) seed

/-! ## PACK and UNPK (R148, R149) -/

/-- The element format of PACK, UNPK and COMP48 under TYPE and FMT (R148). -/
def packFmt (fmt : Word) (ty : Nat) : Elem :=
  if ty = 8 then .fp bf16 else if ty = 9 then .fp fp16 else (packElem (fmtA fmt)).getD (.fp e4m3)

/-- The scale operand: 1.0 where it is absent. -/
def scaleOf (s : State) (w : Warp) (o : Operand) (l : Nat) : Num :=
  match o with
  | .none => .fin false 1 0
  | _ => decF32 (rd s w o l)

/-- One element of PACK: the product, exact, then its conversion. The product is a multiplication's where the source and the
scale are both NaN (the source's NaN is kept) and where a zero meets an infinite scale (the default NaN, with IV): R148 and
R149 do not say (log 102). -/
def packOne (r : Rnd) (e : Elem) (x sc : Num) (seed : Word) : Lane :=
  let v := mulNum x sc
  let y := elemRound e v.1 r.mode r.sat seed.toNat r.dnf
  (y.1, v.2 ||| y.2, r.step seed)

/-- A word with the two elements from 2 h on replaced. -/
def insertPair (old bits h e0 e1 : Nat) : Nat :=
  packElems bits ((List.range (32 / bits)).map fun i =>
    if i = 2 * h then e0 else if i = 2 * h + 1 then e1 else elemAt old bits i)

/-- PACK (R148). -/
def execPack (k : Ctl) (f : VFields) (s : State) : Host.Outcome State Fault Refusal :=
  issue s k (.pack k f) fun s =>
    let w := s.me
    let r := rndOf s w
    let e := packFmt w.fmt f.ty.toNat
    s.fpWord k f.d false fun l seed =>
      let sc := scaleOf s w f.c l
      let x := packOne r e (decF32 (rd s w f.a l)) sc seed
      let y := packOne r e (decF32 (rd s w f.b l)) sc x.2.2
      (insertPair (rd s w f.d l).toNat (elemBits e) f.minor.toNat x.1 y.1, x.2.1 ||| y.2.1, y.2.2)

/-- XV.XVA where FMT.XVEN lets the extra value in (R85). -/
def xvA (w : Warp) : Option Word := if fmtXven w.fmt then some (w.xv &&& 0xFFFF#32) else none

/-- UNPK (R149): in the packed types, an FP32 table constant holds its value in both elements (R137). -/
def execUnpk (k : Ctl) (f : VFields) (s : State) : Host.Outcome State Fault Refusal :=
  issue s k (.unpk k f) fun s =>
    let w := s.me
    let r := rndOf s w
    let e := packFmt w.fmt f.ty.toNat
    s.fpWord k f.d false fun l seed =>
      let v := mulNum (elemValue e (xvA w) r.dnf (elemAt (rdFp s w f.ty.toNat f.a l) (elemBits e) f.minor.toNat)) (scaleOf s w f.c l)
      let y := r.to fp32 v.1 seed
      (y.1, v.2 ||| y.2.1, y.2.2)

/-! ## Special functions (R150 to R152): outstanding until they are written (R138) -/

def State.sfWord (s : State) (k : Ctl) (f : VFields) (g : Word → Num → Word × Flags) : State :=
  let w := s.me
  let at' (l : Nat) : Word × Flags := let a := rd s w f.a l; g a (decF32 a)
  s.defer k (writes32 w k f.d fun l => (at' l).1) (flagsOver w k fun l => (at' l).2) false false

/-- RCP. -/
def execRcp (k : Ctl) (f : VFields) (s : State) : Host.Outcome State Fault Refusal :=
  issue s k (.rcp k f) fun s => s.sfWord k f fun _ x => sfRcp x

/-- RSQ. -/
def execRsq (k : Ctl) (f : VFields) (s : State) : Host.Outcome State Fault Refusal :=
  issue s k (.rsq k f) fun s => s.sfWord k f sfRsq

/-- SQRT. -/
def execSqrt (k : Ctl) (f : VFields) (s : State) : Host.Outcome State Fault Refusal :=
  issue s k (.sqrt k f) fun s => s.sfWord k f fun _ x => sfSqrt x

/-- EXP2. -/
def execExp2 (k : Ctl) (f : VFields) (s : State) : Host.Outcome State Fault Refusal :=
  issue s k (.exp2 k f) fun s => s.sfWord k f fun _ x => sfExp true x

/-- LOG2. -/
def execLog2 (k : Ctl) (f : VFields) (s : State) : Host.Outcome State Fault Refusal :=
  issue s k (.log2 k f) fun s => s.sfWord k f fun _ x => sfLog true x

/-- EXP. -/
def execExp (k : Ctl) (f : VFields) (s : State) : Host.Outcome State Fault Refusal :=
  issue s k (.exp k f) fun s => s.sfWord k f fun _ x => sfExp false x

/-- LOG. -/
def execLog (k : Ctl) (f : VFields) (s : State) : Host.Outcome State Fault Refusal :=
  issue s k (.log k f) fun s => s.sfWord k f fun _ x => sfLog false x

/-- SIN. -/
def execSin (k : Ctl) (f : VFields) (s : State) : Host.Outcome State Fault Refusal :=
  issue s k (.sin k f) fun s => s.sfWord k f fun _ x => sfTrig false x

/-- COS. -/
def execCos (k : Ctl) (f : VFields) (s : State) : Host.Outcome State Fault Refusal :=
  issue s k (.cos k f) fun s => s.sfWord k f fun _ x => sfTrig true x

/-- TANH. -/
def execTanh (k : Ctl) (f : VFields) (s : State) : Host.Outcome State Fault Refusal :=
  issue s k (.tanh k f) fun s => s.sfWord k f fun _ x => sfTanh x

/-- SIGM. -/
def execSigm (k : Ctl) (f : VFields) (s : State) : Host.Outcome State Fault Refusal :=
  issue s k (.sigm k f) fun s => s.sfWord k f fun _ x => sfSigm x

/-! ## FPSTAT and SEED (R153, R154) -/

/-- Flags of outstanding writes may be in FPSTAT before their write (R99, log 18): each either enters now or later. -/
def Warp.earlyFlags (w : Warp) (free : Nat → Nat) : Warp :=
  { w with
    fpstat := w.fpstat ||| orFlags (w.outs.map fun o => if free o.id % 2 = 1 then o.flags else 0#6)
    outs := w.outs.map fun o => if free o.id % 2 = 1 then { o with flags := 0#6 } else o }

/-- FSTAT (R153). -/
def execFstat (k : Ctl) (f : VFields) (s : State) : Host.Outcome State Fault Refusal :=
  issue s k (.fstat k f) fun s =>
    let a := rdU s s.me f.a
    let s := s.modMe fun w => w.earlyFlags s.free
    let old := s.me.fpstat.setWidth 32
    match f.minor.toNat with
    | 0 => s.value32 k f.d fun _ => (old, 0#6)
    | 1 => (s.modMe fun w => { w with fpstat := 0#6 }).value32 k f.d fun _ => (old, 0#6)
    | _ => (s.modMe fun w => { w with fpstat := a.setWidth 6 }).finish k [] 0#6

/-- SEEDR (R154). -/
def execSeedr (k : Ctl) (f : VFields) (s : State) : Host.Outcome State Fault Refusal :=
  issue s k (.seedr k f) fun s =>
    let w := s.me
    if f.minor = 0#5 then s.value32 k f.d fun l => (w.seed l, 0#6)
    else
      (s.modMe fun w' => w'.putSeeds ((dstLanes w k).map fun l => (l, rd s w f.a l))).finish k [] 0#6

/-! ## Pair words (R35, R67) -/

/-- The result of one half in a lane: from its sources' bits. -/
def halfValue (r : Rnd) (op : Nat) (d a b : Word) (seed : Word) : Lane :=
  let x := decF32 a
  let y := decF32 b
  let fp (v : Num × Flags) : Lane := let z := r.to fp32 v.1 seed; (z.1, v.2 ||| z.2.1, z.2.2)
  let int (v : Word) : Lane := (v.toNat, 0#6, seed)
  match op with
  | 0 => fp (addNum (r.mode == 3) x y)
  | 1 => fp (mulNum x y)
  | 2 => fp (fmaNum (r.mode == 3) x y (decF32 d))
  | 3 => let p := pickElem fp32 false false a.toNat b.toNat; (p.1, p.2, seed)
  | 4 => let p := pickElem fp32 false true a.toNat b.toNat; (p.1, p.2, seed)
  | 5 => int (a + b)
  | 6 => int (a - b)
  | 7 => int (a * b)
  | 8 => int (minMax 0 false a b)
  | 9 => int (minMax 0 true a b)
  | 10 => int (a &&& b)
  | 11 => int (a ||| b)
  | 12 => int (a ^^^ b)
  | 13 => int (shl32 a b)
  | 14 => int (shr32 a b)
  | _ => int a

/-- A pair word (R67): both halves read before either writes; half A steps SEED before half B (R94). -/
def execPairWord (k : Ctl) (f : PairFields) (s : State) : Host.Outcome State Fault Refusal :=
  issue s k (.pairWord k f) fun s =>
    let w := s.me
    let r := rndOf s w
    let half (op : BitVec 4) (d a : BitVec 7) (b : BitVec 8) (l : Nat) (seed : Word) : Lane :=
      halfValue r op.toNat (w.getV d.toNat l) (w.getV a.toNat l) (w.getV b.toNat l) seed
    let rs := (dstLanes w k).map fun l =>
      let x := half f.opA f.dA f.aA f.bA l (w.seed l)
      let y := half f.opB f.dB f.aB f.bB l x.2.2
      (l, x, y)
    (s.modMe fun w => w.putSeeds (rs.map fun t => (t.1, t.2.2.2.2))).finish k
      (rs.flatMap fun t => [(vKey f.dA.toNat t.1, BitVec.ofNat 32 t.2.1.1), (vKey f.dB.toNat t.1, BitVec.ofNat 32 t.2.2.1)])
      (orFlags (rs.map fun t => t.2.1.2.1 ||| t.2.2.2.1))

end Sys2Proof.Machine
end

