-- ==== Sys2Proof/Machine/Translate.lean ====
section
/-! DEFINITION. Memory bytes, the table walk (R178 to R180), stripes (R181), homes (R182), the TLB, the addresses of a
word's lanes (R174, R177) and the checks that stop a word before any lane acts (R180, R185, R369). -/

namespace Sys2Proof.Machine

/-! ## Bytes of memory -/

/-- What an unlisted address reads as (log 4). -/
def blankByte : Byte := 0#8

/-- The canonical form of memory: addresses rise strictly, and no entry is what an unlisted address reads as. -/
abbrev Memory.wf (m : Tbl Byte) : Prop := Tbl.wf blankByte m

def State.byteAt (s : State) (key : Nat) : Byte := tget blankByte s.mem key

/-- n bytes from an address. -/
def State.bytesAt (s : State) (key n : Nat) : List Byte := (List.range n).map fun i => s.byteAt (key + i)

/-- A little-endian number (R2). -/
def leNat : List Byte → Nat
  | [] => 0
  | b :: bs => b.toNat + 256 * leNat bs

/-- The n low bytes of a number, lowest first. -/
def natLe : Nat → Nat → List Byte
  | 0, _ => []
  | n + 1, x => BitVec.ofNat 8 x :: natLe n (x / 256)

def State.readMem (s : State) (key n : Nat) : Nat := leNat (s.bytesAt key n)

/-- Bytes into a table from an address on. -/
def putBytes (m : Tbl Byte) (key : Nat) : List Byte → Tbl Byte
  | [] => m
  | b :: bs => putBytes (tset blankByte m key b) (key + 1) bs

def State.putBytes (s : State) (key : Nat) (bs : List Byte) : State :=
  { s with mem := Machine.putBytes s.mem key bs }

/-- Reads of 64-bit entries. -/
def State.dwordAt (s : State) (key : Nat) : Dword := BitVec.ofNat 64 (s.readMem key 8)

/-! ## Where an address lies -/

/-- First key of host memory. -/
def hostKey : Nat := 2 ^ 52

/-- First key of the device memory of peer module m. -/
def peerKey (m : Nat) : Nat := 2 ^ 53 * (m + 1)

/-- One byte beyond device memory (R182). -/
def deviceEnd : Nat := 0x6000000000

def dieSize : Nat := 0x1800000000

/-- Offset of the pen within its die (R182). -/
def penStart : Nat := 0x17F0000000

def keyIsHost (k : Nat) : Bool := decide (hostKey ≤ k) && decide (k < 2 ^ 53)

def keyIsPeer (k : Nat) : Bool := decide (2 ^ 53 ≤ k)

/-- Module that holds a peer key. -/
def keyPeer (k : Nat) : Nat := k / 2 ^ 53 - 1

def inPen (pa : Nat) : Bool := decide (pa < deviceEnd) && decide (penStart ≤ pa % dieSize)

/-- Does a range of device memory overlap the pen of any die? -/
def overlapsPen (pa n : Nat) : Bool :=
  (List.range 4).any fun d => decide (pa < (d + 1) * dieSize) && decide (d * dieSize + penStart < pa + n)

/-! ## The table walk (R178 to R180) -/

/-- Lowest index bit of a level. -/
def levelShift (l : Nat) : Nat := if l = 0 then 16 else 12 + 9 * l

def levelBits (l : Nat) : Nat := if l = 0 then 5 else 9

def pageSize (l : Nat) : Nat := 2 ^ levelShift l

def leafHost (e : Dword) : Bool := e.getLsbD 8
def leafBias (e : Dword) : Bool := e.getLsbD 9
def leafClass (e : Dword) : Nat := (e.extractLsb' 2 2).toNat
def leafPerm (e : Dword) : BitVec 3 := e.extractLsb' 4 3
def leafStripe (e : Dword) : Nat := (e.extractLsb' 10 6).toNat
def leafFrame (e : Dword) : Nat := (e.extractLsb' 16 36).toNat * 65536

/-- Malformations of a leaf at a level (R180, cause 4). -/
def leafMalformed (e : Dword) (l : Nat) : Bool :=
  decide (3 ≤ l) || e.extractLsb' 52 9 != 0#9 || e.getLsbD 7 || leafClass e == 3 || (leafHost e && leafClass e == 1) ||
  leafFrame e % pageSize l != 0 ||
  (!leafHost e && (decide (deviceEnd ≤ leafFrame e) || overlapsPen (leafFrame e) (pageSize l)))

def pointerNext (e : Dword) : Nat := (e.extractLsb' 8 44).toNat * 256

/-- Malformations of a pointer at a level (R180, cause 4). -/
def pointerMalformed (e : Dword) (l : Nat) : Bool :=
  l == 0 || e.extractLsb' 52 12 != 0#12 || e.extractLsb' 2 6 != 0#6 ||
  (l != 1 && pointerNext e % 4096 != 0) || decide (deviceEnd ≤ pointerNext e) || inPen (pointerNext e)

/-- How a walk ends: at a leaf, or with a cause of R180; level and address are those of the entry. -/
inductive Walk where
  | leaf (entry : Dword) (level addr : Nat)
  | fail (cause level addr : Nat)
  deriving DecidableEq, Repr

def walkFrom (s : State) (va : Dword) : List Nat → Nat → Walk
  | [], a => .fail 2 0 a
  | l :: ls, table =>
    let a := table + (va.extractLsb' (levelShift l) (levelBits l)).toNat * 8
    let e := s.dwordAt a
    if !e.getLsbD 0 then .fail 2 l a
    else if e.getLsbD 1 then if leafMalformed e l then .fail 4 l a else .leaf e l a
    else if pointerMalformed e l then .fail 4 l a
    else walkFrom s va ls (pointerNext e)

/-- Canonical addresses (R174). -/
def canonical (va : Dword) : Bool := va.extractLsb' 56 8 == 0#8 || va.extractLsb' 56 8 == 0xFF#8

def State.walk (s : State) (c : Nat) (va : Dword) : Walk :=
  walkFrom s va [4, 3, 2, 1, 0] ((s.ctx c).ptroot.toNat % 2 ^ 52)

/-! ## The TLB (log 9) -/

def tlbKey (c : Nat) (va : Dword) : Nat := c * 2 ^ 41 + (va.extractLsb' 16 41).toNat

/-- A leaf as a TLB holds it: bits 53:52 are its level. -/
def tlbPack (e : Dword) (l : Nat) : Dword := e ||| (BitVec.ofNat 64 l <<< 52)

def tlbLeaf (x : Dword) : Dword × Nat := (x &&& ~~~(3#64 <<< 52), (x.extractLsb' 52 2).toNat)

/-- The leaf that maps va for a context on a core: the TLB's or the walk's. -/
def State.leafOf (s : State) (core c : Nat) (va : Dword) : Except Nat (Dword × Nat) :=
  if !canonical va then .error 1
  else
    let held := tget 0#64 (s.core core).tlb (tlbKey c va)
    match s.walk c va with
    | .leaf e l _ =>
      if held ≠ 0#64 ∧ held ≠ tlbPack e l ∧ s.free (tlbKey c va) % 2 = 1 then .ok (tlbLeaf held) else .ok (e, l)
    | .fail cause _ _ => if held ≠ 0#64 ∧ s.free (tlbKey c va) % 2 = 1 then .ok (tlbLeaf held) else .error cause

/-! ## Stripes and physical places (R181, R182, R406) -/

/-- The peers of a stripe set of a context (R378). An entry whose count is 0 has none, and of one above 64 the first 64 count:
the rule gives 1 to 64 alone (log 104). -/
def State.stripeSet (s : State) (c set : Nat) : List Nat :=
  let base := (s.ctx c).strtab.toNat % 2 ^ 52 + 256 * (set - 1)
  (List.range (min 64 (s.byteAt (base + 128)).toNat)).map fun i => s.readMem (base + 2 * i) 2

/-- A physical place: its key, its class, whether it is host memory, and the leaf it came from. -/
structure Phys where
  key : Nat
  cls : Nat
  perm : BitVec 3
  entry : Dword
  level : Nat
  deriving DecidableEq, Repr

def Phys.host (p : Phys) : Bool := keyIsHost p.key

/-- Modules that this module's fabric table lists (R406). -/
def State.listed (s : State) (m : Nat) : Bool := s.mgmt.fabric.any fun x => x.1 == m

/-- The place of va under a leaf. One with HOST set is a host page whatever its STRIPE says: R181 does not say (log 103). -/
def State.place (s : State) (c : Nat) (va : Dword) (e : Dword) (l : Nat) : Except Nat Phys :=
  let off := va.toNat % pageSize l
  let at' (k : Nat) : Phys := ⟨k, leafClass e, leafPerm e, e, l⟩
  if leafHost e then .ok (at' (hostKey + leafFrame e + off))
  else if leafStripe e = 0 then .ok (at' (leafFrame e + off))
  else
    let set := s.stripeSet c (leafStripe e)
    let i := off / 4096
    let m := set.getD (i % set.length) 0
    let pa := leafFrame e + 4096 * (i / set.length) + off % 4096
    if set.isEmpty then .error 4
    else if m = s.mgmt.modid.toNat % 65536 then .ok (at' pa)
    else if !s.listed m || (s.ctx c).fabten.setWidth 16 == 0#16 then .error 4
    else .ok (at' (peerKey m + pa))

/-- The TLB of a core keeps a translation that was used; of one that fails it keeps nothing, wherever it fails (R388). -/
def State.noteTlb (s : State) (core c : Nat) (va : Dword) : State :=
  match s.leafOf core c va with
  | .ok (e, l) =>
    match s.place c va e l with
    | .ok _ => s.modCore core fun x => { x with tlb := tset 0#64 x.tlb (tlbKey c va) (tlbPack e l) }
    | .error _ => s
  | .error _ => s

/-- Does a line lie in the page that a device leaf maps? A stripe set spreads its granules over modules (R181). -/
def State.onPage (s : State) (c : Nat) (e : Dword) (l line : Nat) : Bool :=
  let key := line * 128
  let peer := keyIsPeer key
  let pa := if peer then key % 2 ^ 53 else key
  let m := if peer then keyPeer key else s.mgmt.modid.toNat % 65536
  let set := s.stripeSet c (leafStripe e)
  decide (leafFrame e ≤ pa) &&
    if leafStripe e = 0 then !peer && decide (pa < leafFrame e + pageSize l)
    else !keyIsHost key &&
      set.zipIdx.any fun x => x.1 == m && decide ((pa - leafFrame e) / 4096 * set.length + x.2 < pageSize l / 4096)

/-- Permission bits: read, write, execute. -/
def needR : BitVec 3 := 1#3
def needW : BitVec 3 := 2#3
def needX : BitVec 3 := 4#3

/-- The translation of va with the permissions that an access needs: its place, or a cause of R180. -/
def State.translate (s : State) (core c : Nat) (va : Dword) (need : BitVec 3) : Except Nat Phys :=
  match s.leafOf core c va with
  | .error e => .error e
  | .ok (e, l) =>
    match s.place c va e l with
    | .error x => .error x
    | .ok p => if p.perm &&& need = need then .ok p else .error 3

/-! ## The addresses of a word's lanes (R174, R177) -/

/-- Without its STRIPE field: a bound page has none (R176). -/
def unstriped (e : Dword) : Dword := e &&& ~~~(0xFC00#64)

/-- The fast path (R177): no TLB is visited. The leaf bits that a g-register does not hold, which are the bias, the AtomicOps
and the page size, are those of the page tables as they stand, or free where they map the page no more (log 9). -/
def State.fastPath (s : State) (w : Warp) (g : GReg) (va : Dword) (o : Int) (need : BitVec 3) : Except Nat Phys :=
  let pa := g.pbase.toNat + o.toNat
  let (e, l) :=
    match s.walk w.ctx va with
    | .leaf e l _ => (e, l)
    | .fail _ _ _ => (BitVec.ofNat 64 (s.free va.toNat), s.free (va.toNat + 1) % 3)
  if g.perm &&& need = need then .ok ⟨if g.host then hostKey + pa else pa, g.cls.toNat, g.perm, unstriped e, l⟩ else .error 3

/-- One lane's address: o and va of R174. -/
structure Addr where
  lane : Nat
  o : Int
  va : Dword
  deriving DecidableEq, Repr

/-- o[l] and va[l] (R174). -/
def addrOf (s : State) (w : Warp) (f : MFields) (l : Nat) : Addr :=
  let o := (rd s w f.off l).toInt * 2 ^ f.size.toNat + f.imm12.toInt
  { lane := l, o, va := (w.greg f.greg.toNat).vbase + BitVec.ofInt 64 o }

/-- Does a lane's access of n bytes take the fast path (R177)? -/
def GReg.fast (g : GReg) (a : Addr) (n : Nat) : Bool := g.valid && decide (0 ≤ a.o) && decide (a.o + n ≤ g.limit.toNat)

/-- Both paths of R177 for n bytes, after the privilege check of R369: the place, or the trap kind and cause. -/
def State.reach (s : State) (w : Warp) (g : GReg) (a : Addr) (n : Nat) (need : BitVec 3) : Except (Nat × Nat) Phys :=
  if !w.priv && a.va.getLsbD 56 then .error (4, 0)
  else
    let r :=
      if g.fast a n then s.fastPath w g a.va a.o need
      else s.translate (keyCore s.cur) w.ctx a.va need
    match r with
    | .ok p => .ok p
    | .error c => .error (7, c)

/-- The trap of the lowest failing lane, with every lane that fails alike (R180). -/
def failTrap : List (Addr × Option (Nat × Nat)) → Option Trp
  | [] => none
  | (_, none) :: xs => failTrap xs
  | (a, some x) :: xs =>
    some { kind := x.1, cause := x.2, addr := a.va
           mask := ((a, some x) :: xs).foldl (fun m y => if y.2 = some x then m ||| (1#32 <<< y.1.lane) else m) 0#32 }

/-- Scopes that a page class allows (R185). -/
def scopeOk (cls scope : Nat) : Bool :=
  match cls with
  | 0 => decide (scope ≤ 6) || scope == 10
  | 1 => scope != 9
  | _ => true

/-- The places of all lanes, or the trap that stops the word (R174, R180, R185): align is the alignment wanted, check
decides class causes. -/
def State.lanePlaces (s : State) (w : Warp) (g : GReg) (as : List Addr) (n align : Nat) (need : BitVec 3)
    (check : Phys → Option Nat) : Except Trp (List (Addr × Phys)) :=
  match failTrap (as.map fun a => (a, if a.va.toNat % align = 0 then none else some (6, 0))) with
  | some t => .error t
  | none =>
    let rs := as.map fun a => (a, s.reach w g a n need)
    match failTrap (rs.map fun r => (r.1, match r.2 with | .error x => some x | .ok _ => none)) with
    | some t => .error t
    | none =>
      let ps := rs.filterMap fun r => match r.2 with | .ok p => some (r.1, p) | .error _ => none
      match failTrap (ps.map fun p => (p.1, (check p.2).map fun c => (8, c))) with
      | some t => .error t
      | none => .ok ps

/-- The TLB keeps what the lanes used that did not take the fast path (R177). -/
def State.noteAll (s : State) (w : Warp) (g : GReg) (as : List Addr) (n : Nat) : State :=
  (as.filter fun a => !g.fast a n).foldl (fun t a => t.noteTlb (keyCore s.cur) w.ctx a.va) s

/-! ## Homes (R182, R194, R12) -/

/-- Home slice of a device line by its address alone. -/
def deviceHome (pa : Nat) : Nat :=
  let d := pa / dieSize
  let off := pa % dieSize
  let l := off / 128
  let x := (l % 128) ^^^ (l / 128 % 128) ^^^ (l / 16384 % 128) ^^^ (l / 2097152 % 128) ^^^ (l / 268435456 % 4)
  if penStart ≤ off then (slicesOfQuad (d * 4 + (off - penStart) / 0x4000000)).getD (x % 32) 0 else d * 128 + x

/-- Is a line homed by a window? Of one that opens, the lines that have moved; of one that closes, those that have not (R194).
-/
def Win.homes (w : Win) (line : Nat) : Bool :=
  if w.closing then w.moving.contains line else w.lines.contains line && !w.moving.contains line

/-- The window of any context that homes a line, with the line's place in it. -/
def State.windowOf (s : State) (line : Nat) : Option (Win × Nat) :=
  (s.ctxs.flatMap fun c => c.2.wins).findSome? fun w => if w.homes line then some (w, indexOf line w.lines) else none

/-- Number of the home of a line: slices 0 to 511, the host's home agent 512, slice i of peer m at 1024 (m + 1) + i. -/
def State.home (s : State) (line : Nat) : Nat :=
  let key := line * 128
  if keyIsHost key then 512
  else if keyIsPeer key then 1024 * (keyPeer key + 1) + deviceHome (key % 2 ^ 53)
  else
    match s.windowOf line with
    | some (w, i) => w.slices.getD (i % w.slices.length) 0
    | none => deviceHome key

def lineOf (key : Nat) : Nat := key / 128

/-- The words of a line that n bytes at an address touch (R187). -/
def spanOf (key n : Nat) : Mask :=
  maskOf fun i => decide (i * 4 + 4 > key % 128) && decide (i * 4 < key % 128 + n)

end Sys2Proof.Machine
end

