-- ==== Sys2Proof/Machine/Coherence.lean ====
section
/-! DEFINITION. The memory system: directory and L1 state (R187), the L2's lines and victims (R188, R189), records and
drains (R208 to R212), paths and markers (R213, R214), monitors and watches (R244, R246), and the serving of a request at
its home (R207, R234, R242). Values live in one store, s.mem; L1 copies of coherent lines are tracked by masks (log 3). -/

namespace Sys2Proof.Machine

/-! ## Small parts -/

/-- n is at or below m among release numbers (R208). -/
def atOrBelow (n m : Word) : Bool := decide ((m - n).toNat < 2 ^ 31)

/-- A list in an order that free numbers choose. -/
def shuffle {α : Type} (free : Nat → Nat) : Nat → List α → List α
  | 0, xs => xs
  | fuel + 1, xs =>
    match xs.drop (free fuel % xs.length), xs.take (free fuel % xs.length) with
    | y :: ys, zs => y :: shuffle free fuel (zs ++ ys)
    | [], zs => zs

def State.shuffled {α : Type} (s : State) (salt : Nat) (xs : List α) : List α :=
  shuffle (fun i => s.free (salt + i)) xs.length xs

/-- L1 table key of an untracked copy of a non-coherent line. -/
def ncKey (line : Nat) : Nat := line + 2 ^ 70

def State.l1 (s : State) (core line : Nat) : L1Line := tget {} (s.core core).l1 line

/-- A line without a valid word is no line. -/
def L1Line.tidy (x : L1Line) : L1Line := if x.valid = 0#32 then {} else x

def State.modL1 (s : State) (core line : Nat) (g : L1Line → L1Line) : State :=
  s.modCore core fun c => { c with l1 := tmod {} c.l1 line fun x => (g x).tidy }

/-- A line of a peer that refuses a context's requests: reads of it return poisoned data, and writes have no effect (R407). -/
def State.refused (s : State) (c line : Nat) : Bool :=
  keyIsPeer (line * 128) && s.links.refusing.contains (keyPeer (line * 128), c)

/-- The words of a line that a context reads as poisoned (R398, R407). -/
def State.poisonFor (s : State) (c line : Nat) : Mask :=
  if s.refused c line then 0xFFFFFFFF#32 else (s.line line).poison

/-- What a lane's operation is where its peer refuses it: a write has no effect, and one that returns a value only reads
(R407). -/
def LaneOp.refused (o : LaneOp) : Option LaneOp :=
  match o.op with
  | .store _ => none
  | .atom _ _ returns => if returns then some { o with op := .load false } else none
  | .cas .. => some { o with op := .load false }
  | _ => some o

/-- What is left of a request's operations at its home: a peer that refuses it makes no change (R407). -/
def State.admitted (s : State) (r : Request) : List LaneOp :=
  if s.refused r.ctx r.line then r.ops.filterMap LaneOp.refused else r.ops

def holdOf (x : Line) (core : Nat) : Hold := tget {} x.holders core

def State.modHold (s : State) (line core : Nat) (g : Hold → Hold) : State :=
  s.modLine line fun x => { x with holders := tmod {} x.holders core g }

/-- The core's own requests for a line (R215); those of the background engine of R242 are not the core's. -/
def State.ownRequest (s : State) (core line : Nat) : Bool :=
  s.reqs.any (fun r => r.core == core && r.line == line && r.port != 3) ||
    s.hostOps.any fun h => keyCore h.warp == core && lineOf h.op.key == line

/-- An earlier release of the warp has not sent its accesses to a line yet (R202). -/
def Warp.releaseOn (w : Warp) (line own : Nat) : Bool :=
  w.stq.any fun e =>
    match e.kind with
    | .release r => decide (e.id < own) && decide (e.stage < 3) && r.reqs.any fun x => x.line == line
    | _ => false

/-! ## Monitors and watches -/

/-- The monitors on a line fire, but for the writer's own (R244). -/
def State.fire (s : State) (writer : Option Nat) (line : Nat) : State :=
  { s with warps := tmap {} (fun k w =>
      if some k = writer then w
      else match w.monitor with
        | some m => if m.line = line then { w with monitor := some { m with fired := true } } else w
        | none => w) s.warps }

/-- The monitors of one core's warps on a line fire: its copy is gone (R244). -/
def State.fireCore (s : State) (core line : Nat) : State :=
  { s with warps := tmap {} (fun k w =>
      if keyCore k = core then
        match w.monitor with
        | some m => if m.line = line then { w with monitor := some { m with fired := true } } else w
        | none => w
      else w) s.warps }

/-- The conditions of WATCH on a value of n bytes (R246). -/
def watchCond (c n x y : Nat) : Bool :=
  match c with
  | 0 => x == y
  | 1 => x != y
  | 2 => decide (y ≤ x)
  | 3 => decide (x < y)
  | 4 => decide (asInt true (8 * n) y ≤ asInt true (8 * n) x)
  | _ => decide (asInt true (8 * n) x < asInt true (8 * n) y)

/-- A write of a line is compared with the Lookout entries on it (R246). -/
def State.compareWatches (s : State) (line : Nat) : State :=
  { s with watches := s.watches.map fun x =>
      if x.lookout ∧ x.wake = none ∧ lineOf x.key = line ∧ watchCond x.cond x.n (s.readMem x.key x.n) x.cmp then
        { x with wake := some (s.readMem x.key x.n) }
      else x }

/-- Does a Lookout entry watch a word of the span (R247)? -/
def State.watched (s : State) (line : Nat) (span : Mask) : Bool :=
  s.watches.any fun x => x.lookout && lineOf x.key == line && (spanOf x.key x.n &&& span) != 0#32

/-! ## Recalls, invalidations and evictions (R187) -/

/-- Owned words of the span come back with their dirty data, which the home orders as writes (R244); the copies stay,
shared. -/
def State.recall (s : State) (except : Option Nat) (line : Nat) (span : Mask) : State :=
  (s.line line).holders.foldl (fun t h =>
    if some h.1 = except ∨ h.2.owned &&& span = 0#32 then t
    else
      ((if (t.l1 h.1 line).dirty &&& span = 0#32 then t else t.fire none line).modHold line h.1 fun y =>
        { shared := y.shared ||| (y.owned &&& span), owned := y.owned &&& ~~~span }).modL1 h.1 line fun y =>
          { y with dirty := y.dirty &&& ~~~span }) s

/-- Does an entry of the tile fetch unit hold a line, of its tile or of its scale bytes? -/
def TileEntry.has (e : TileEntry) (line : Nat) : Bool :=
  (decide (e.key ≤ line) && decide (line < e.key + 16) && e.lines.any fun x => x.1 == line - e.key) ||
    e.scales.any fun x => x.1 == line

/-- Does the directory know that an entry holds a line? A non-coherent tile's lines it does not. -/
def TileEntry.knows (e : TileEntry) (line : Nat) : Bool := e.has line && (e.coh || e.scales.any fun x => x.1 == line)

/-- Is an entry kept by a word that has not consumed it? -/
def TileEntry.kept (e : TileEntry) : Bool := decide (0 < e.pins) || e.want != []

/-- Is a line pinned by a fetch: for a word in acceptance, or for an accepted word that has not consumed it (R222, R286)?
-/
def State.fetchPinned (s : State) (line : Nat) : Bool :=
  s.cores.any (fun c => c.2.tfu.any (fun e => e.kept && e.has line) || c.2.eng.any fun e => e.held.contains line) ||
  s.warps.any fun w => match w.2.req with
    | some c => c.got.any fun x => x.1 == line
    | none => false

/-- Entries of the tile fetch units that the directory knows lose a line that is written (R286). -/
def State.dropTiles (s : State) (line : Nat) : State :=
  { s with cores := tmap {} (fun _ c => { c with tfu := c.tfu.filter fun e => !(!e.kept && e.knows line) }) s.cores }

/-- Copies of the span's words are dropped in every other agent. -/
def State.invalidate (s : State) (except : Option Nat) (line : Nat) (span : Mask) : State :=
  let s := s.dropTiles line
  (s.line line).holders.foldl (fun t h =>
    if some h.1 = except ∨ (h.2.owned ||| h.2.shared) &&& span = 0#32 then t
    else
      ((t.modHold line h.1 fun y => { shared := y.shared &&& ~~~span, owned := y.owned &&& ~~~span }).modL1 h.1 line
        fun y => { y with valid := y.valid &&& ~~~span, dirty := y.dirty &&& ~~~span }).fireCore h.1 line) s

/-- A core's copy of a line leaves its L1, dirty words written back. -/
def State.dropCopy (s : State) (core line : Nat) : State :=
  ((s.modHold line core fun _ => {}).modL1 core line fun _ => {}).fireCore core line

/-! ## The L2 (R188, R189) -/

/-- Set of a line in its slice. -/
def l2Set (line : Nat) : Nat := line % (dieSize / 128) / 128 % 512

/-- Does a context pin a line by a window? -/
def State.windowPin (s : State) (c line : Nat) : Bool :=
  (s.ctx c).wins.any fun w => !w.closing && w.lines.contains line && !w.unpinned.contains line

def State.pinned (s : State) (line : Nat) : Bool :=
  (s.line line).locks != 0#8 || s.fetchPinned line || (List.range 8).any fun c => s.windowPin c line

/-- Ways of a context in a slice (R190). -/
def State.waysOf (s : State) (c slice : Nat) : BitVec 16 :=
  let m := (s.ctx c).waymask
  if m.getLsbD (16 + quadOfSlice slice) then m.setWidth 16 else 0#16

/-- The L2 lines of a slice's set. -/
def State.setLines (s : State) (slice set : Nat) : List (Nat × Line) :=
  s.lines.filter fun p => p.2.inL2 && l2Set p.1 == set && s.home p.1 == slice

/-- Priority that a hint gives on a miss and on a hit (R188). -/
def hintMiss (h : Nat) : Nat := match h with | 1 => 0 | 2 => 2 | 4 => 0 | 5 => 3 | _ => 1

def hintHit (h old : Nat) : Nat := match h with | 1 => 0 | 2 => 2 | 4 => 0 | 5 => 3 | _ => old

/-- The better victim: lower priority, then older. -/
def betterVictim (a b : Nat × Line) : Nat × Line :=
  if b.2.prio < a.2.prio ∨ (b.2.prio = a.2.prio ∧ b.2.stamp < a.2.stamp) then b else a

/-- The way that an allocation of a context takes in a slice's set, with the line that it evicts (R189). An empty way comes
before any victim, the lowest first: the rule leaves that open (log 87). -/
def State.victim (s : State) (c slice set : Nat) : Option (Nat × Option Nat) :=
  let ways := s.waysOf c slice
  let here := s.setLines slice set
  let open' := (List.range 16).filter fun w => ways.getLsbD w && !(here.any fun p => p.2.way == w)
  match open' with
  | w :: _ => some (w, none)
  | [] =>
    match here.filter fun p => ways.getLsbD p.2.way && !s.pinned p.1 with
    | [] => none
    | p :: ps => let v := ps.foldl betterVictim p; some (v.2.way, some v.1)

/-- A line leaves its way of the L2. -/
def State.leaveL2 (s : State) (line : Nat) : State :=
  s.modLine line fun x => { x with inL2 := false, dirty := false, way := 0, prio := 1, stamp := 0 }

/-- A context's window pins a line again that is allocated in one of its ways (R193). -/
def State.repin (s : State) (line way slice c : Nat) : State :=
  if ((s.ctx c).wins.any fun w => w.unpinned.contains line) ∧ (s.waysOf c slice).getLsbD way then
    s.modCtx c fun x =>
      { x with wins := x.wins.map fun w => { w with unpinned := w.unpinned.filter fun l => l != line }
               quotaUsed := x.quotaUsed + 1#32 }
  else s

/-- A line takes a way for a context at a priority, where one qualifies (R189). -/
def State.allocL2 (s : State) (c line prio : Nat) : State :=
  let slice := s.home line
  match s.victim c slice (l2Set line) with
  | none => s
  | some (w, old) =>
    let t := match old with
      | some v => s.leaveL2 v
      | none => s
    let t := t.modLine line fun x => { x with inL2 := true, way := w, prio, stamp := s.tick, dirty := false }
    (List.range 8).foldl (fun u x => u.repin line w slice x) t

/-- The hint that an access of a context is served with: 3 where its masks leave it no way at all, or where no way of the
set qualifies (R189, R190). -/
def State.servedHint (s : State) (c line hint : Nat) : Nat :=
  let m := (s.ctx c).waymask
  if m.setWidth 16 = 0#16 ∨ m >>> 16 = 0#32 then 3
  else if 512 ≤ s.home line ∨ (s.line line).inL2 then hint
  else if (s.victim c (s.home line) (l2Set line)).isNone then 3
  else hint

/-- An access of a context, served with a hint, meets the L2 of a device line (R188). A line of host memory has no slice: a
system-coherent page's lines take no way, and a prefetch to L2 of one brings nothing (log 117). -/
def State.touchL2 (s : State) (c line hint : Nat) : State :=
  if 512 ≤ s.home line then s
  else if (s.line line).inL2 then s.modLine line fun x => { x with prio := hintHit hint x.prio, stamp := s.tick }
  else if hint = 3 then s
  else s.allocL2 c line (hintMiss hint)

/-! ## Paths (R9, R213, R405) -/

/-- The local port of an Onaus path, where the fabric table has the path (R405, R406). -/
def State.pathPort (s : State) (p : Nat) : Option Nat :=
  if p < 1024 then none
  else (s.mgmt.fabric.find? fun x => x.1 == (p - 1024) / 16).bind fun x => x.2[(p - 1024) % 16]?

/-- Has a path lost its link (R405)? -/
def State.pathDown (s : State) (p : Nat) : Bool :=
  match s.pathPort p with
  | some x => s.links.down.contains x
  | none => false

/-- Paths that are live, or all of them where none is. -/
def State.livePaths (s : State) (ps : List Nat) : List Nat :=
  if ps.all s.pathDown then ps else ps.filter fun p => !s.pathDown p

/-- Is no path to the peer that holds a line live, so that its home holds every packet (R405)? -/
def State.cutOff (s : State) (line : Nat) : Bool :=
  keyIsPeer (line * 128) &&
    match s.mgmt.fabric.find? fun x => x.1 == keyPeer (line * 128) with
    | some x => (List.range x.2.length).all fun i => s.pathDown (1024 + 16 * keyPeer (line * 128) + i)
    | none => false

/-- The paths from a die to the home of a line: two bridge paths to another die, the live Onaus paths to a peer. -/
def State.pathsTo (s : State) (die line : Nat) : List Nat :=
  let h := s.home line
  if h < 512 then if h / 128 = die then [] else [die * 8 + h / 128 * 2, die * 8 + h / 128 * 2 + 1]
  else if h = 512 then []
  else
    let m := h / 1024 - 1
    match s.mgmt.fabric.find? fun x => x.1 == m with
    | some x => s.livePaths ((List.range x.2.length).map fun i => 1024 + 16 * m + i)
    | none => []

def State.pathItems (s : State) (p : Nat) : List PathItem := tget [] s.paths p

def State.modPath (s : State) (p : Nat) (g : List PathItem → List PathItem) : State :=
  { s with paths := tmod [] s.paths p g }

/-- Does a lane's work write memory? -/
def MemOp.writes : MemOp → Bool
  | .store _ => true
  | .atom .. => true
  | .cas .. => true
  | _ => false

/-- A request leaves its core; one that writes travels on one of the paths to its home, freely chosen (R9). -/
def State.push (s : State) (r : Request) : State :=
  let t : State := { s with reqs := s.reqs ++ [{ r with id := s.nextId }], nextId := s.nextId + 1 }
  let ps := s.pathsTo (dieOf r.core) r.line
  if r.ops.any (fun o => o.op.writes) ∧ ps ≠ [] then
    t.modPath (ps.getD (s.free s.nextId % ps.length) 0) fun q => q ++ [.write s.nextId]
  else t

/-- A write has been accepted by its home: it is no longer on its path. -/
def State.offPath (s : State) (req : Nat) : State :=
  { s with paths := s.paths.filterMap fun p =>
      let q := p.2.filter fun x => x != .write req
      if q = [] then none else some (p.1, q) }

/-- One marker down each of the paths; answers how many. -/
def State.sendMarkers (s : State) (ps : List Nat) (item : PathItem) : State :=
  (distinct ps).foldl (fun t p => t.modPath p fun q => q ++ [item]) s

/-! ## Release numbers, write-backs and drains (R208, R209) -/

/-- Dirty lines of a core whose tag is at or below a number. -/
def State.dirtyLines (s : State) (core : Nat) (num : Word) : List Nat :=
  ((s.core core).l1.filter fun p => p.2.dirty != 0#32 && atOrBelow p.2.tag num).map Prod.fst

/-- The core's dirty words of a line are written to the home, which orders them as a write (R244); the copy stays, clean. -/
def State.writeBack (s : State) (core line : Nat) : State :=
  if (s.l1 core line).dirty = 0#32 then s
  else
    ((s.modL1 core line fun x => { x with dirty := 0#32 }).modLine line fun x => { x with dirty := x.inL2 }).fire none line

def State.writeBackAll (s : State) (core : Nat) (ls : List Nat) : State := ls.foldl (fun t l => t.writeBack core l) s

/-- The context by whose SPLIT a core's array is divided: that of the team resident there, as long as there is one, whatever a
write of CORECTX says meanwhile; else the one that CORECTX names (R16, log 100). -/
def State.arrayCtx (s : State) (core : Nat) : Nat :=
  match s.teams.find? fun t => t.2.life == .live && t.2.cores.contains core with
  | some t => t.1 / 64
  | none => ((s.core core).corectx.setWidth 3).toNat

/-- Scratchpad that the resident teams of a core hold. -/
def State.scratchUsed (s : State) (core : Nat) : Nat :=
  ((s.teams.filter fun t => t.2.life == .live && t.2.cores.headD 512 == core).map fun t => t.2.scratchSize).sum

/-- Lines that a core's L1 holds at most: what SPLIT leaves of the 512 KiB array, and no part of it that scratchpad holds or
that is still being scrubbed (R14, R16, R397). -/
def State.l1Lines (s : State) (core : Nat) : Nat :=
  4096 - max (512 * ctxSplit (s.ctx (s.arrayCtx core))) ((s.scratchUsed core + (s.core core).scratchScrub + 127) / 128)

/-- A line leaves a core's L1; a coherent one's dirty words are written back first. -/
def State.evictL1 (s : State) (core key : Nat) : State :=
  if key < 2 ^ 70 then (s.writeBack core key).dropCopy core key else s.modL1 core key fun _ => {}

/-- A free line of a core's L1 leaves it, where it holds as many as n (log 89). -/
def State.trimOne (s : State) (core n : Nat) : State :=
  let ls := (s.core core).l1
  match if n ≤ ls.length then ls[s.free (7000 + core) % ls.length]? else none with
  | some x => s.evictL1 core x.1
  | none => s

/-- Room for one more line in a core's L1, unless it holds the line already. -/
def State.makeRoom (s : State) (core key : Nat) : State :=
  if (s.l1 core key).valid = 0#32 then s.trimOne core (s.l1Lines core) else s

/-- A core's L1 shrinks to what its split leaves it (R16). -/
def State.trimL1 (s : State) (core : Nat) : Nat → State
  | 0 => s
  | n + 1 => (s.trimOne core (s.l1Lines core + 1)).trimL1 core n

/-- The L1s of some cores shrink to what their splits leave them. -/
def State.trimAll (s : State) (cores : List Nat) : State := cores.foldl (fun t k => t.trimL1 k (t.core k).l1.length) s

/-- The next release of a core: its counter advances, and lines 32,768 behind are written back (R208). -/
def State.bumpRelease (s : State) (core : Nat) : State :=
  let n := (s.core core).relCtr + 1#32
  let old := ((s.core core).l1.filter fun p => p.2.dirty != 0#32 && atOrBelow (p.2.tag + 32768#32) n).map Prod.fst
  (s.writeBackAll core old).modCore core fun c => { c with relCtr := n }

/-- The record that a request from a core must see drained first (R209, R211). -/
def State.undrained (s : State) (core : Option Nat) (line : Nat) : Option Record :=
  match (s.line line).record with
  | some r => if r.drained ∨ some r.core = core then none else some r
  | none => none

/-- Where lines of a core's write-back go: the paths to other dies and modules. -/
def State.pathsOf (s : State) (core : Nat) (ls : List Nat) : List Nat := ls.flatMap fun l => s.pathsTo (dieOf core) l

/-- Would markers behind a core's write-backs be accepted at once: is no write under way on their paths (R213, R214)? -/
def State.markersPass (s : State) (core : Nat) (ls : List Nat) : Bool :=
  (s.pathsOf core ls).all fun p => !s.pathDown p && (s.pathItems p).all fun x =>
    match x with
    | .write _ => false
    | .marker .. => true

/-- Could a drain of what a line's record names complete within one step (log 1)? Where not, its agent waits. -/
def State.drainReady (s : State) (core : Option Nat) (line : Nat) : Bool :=
  match s.undrained core line with
  | some r => s.markersPass r.core (s.dirtyLines r.core r.num)
  | none => true

/-- A drain whose markers are accepted at once, within the step of the agent that needs it (R209, R214, log 1). -/
def State.drainNow (s : State) (core : Option Nat) (line : Nat) : State :=
  match s.undrained core line with
  | some r =>
    (s.writeBackAll r.core (s.dirtyLines r.core r.num)).modLine line fun x => { x with record := some { r with drained := true } }
  | none => s

/-- Does an agent's read of a line wait: for another's claim, for a drain, for a path (R209, R220, R405)? id is the number of
the command that reads. -/
def State.readWaits (s : State) (core id line : Nat) : Bool :=
  (s.line line).claims.any (fun c => c.1 != id) || !s.drainReady (some core) line || s.cutOff line

/-- Does an agent's write of a line wait as well: for a pinned tile (R222)? -/
def State.writeWaits (s : State) (core id line : Nat) : Bool := s.readWaits core id line || s.fetchPinned line

/-! ## Claims (R220, R254, R347; log 94) -/

/-- The line that a place lies in. -/
def Loc.line? : Loc → Option Nat
  | .mem key => some (lineOf key)
  | .scr .. => none

/-- The line that a piece writes. -/
def Piece.dstLine (p : Piece) : Option Nat := p.dst.line?

/-- The lines of the parameters and measurements that a STAMP reads for image line i. -/
def EngWord.feedLines (e : EngWord) (i : Nat) : List Nat :=
  distinct <| (e.ents.filter fun x => x.off / 128 == i).flatMap fun x => (x.p.toList ++ x.m.toList).map lineOf

/-- The lines that pieces have still to be read from. -/
def unreadOf (ps : List Piece) : List Nat := ps.filterMap fun p => if p.got.isNone then p.src.line? else none

/-- The lines that an engine word has still to read as it lands. -/
def EngWord.unread (e : EngWord) : List Nat := unreadOf e.pieces ++ e.todo.flatMap e.feedLines

/-- The engine commands of the module, each with its number, the lines that it claims and those that it has still to read. -/
def State.claimers (s : State) : List (Nat × List Nat × List Nat) :=
  s.cores.flatMap fun c =>
    c.2.cmds.map (fun x => (x.id, x.claims, unreadOf x.pieces)) ++ c.2.eng.map fun x => (x.id, x.claims, x.unread)

/-- May the claim of command id, with those lines still to be read, reach the home of a line? The requests that came before it
are served first, a line has one claim, and a fetch keeps its pin. An earlier command reads the line first, unless the claimer
reads nothing that another command claims. So a claim that has been made waits for no claim that has not (log 94). -/
def State.mayClaim (s : State) (core id line : Nat) (unread : List Nat) : Bool :=
  let others := s.claimers.filter fun z => z.1 != id
  (s.line line).claims == [] && s.drainReady (some core) line && !s.cutOff line && !s.fetchPinned line &&
    !(s.reqs.any fun r => r.line == line && r.arrived.isSome) &&
    (!(others.any fun z => decide (z.1 < id) && z.2.2.contains line) ||
      unread.all fun l => !others.any fun z => z.2.1.contains l)

/-- Of the lines that a command claims as it enters its unit, those whose claim reaches the home later: some by chance, others
because it may not yet. -/
def State.lateLines (s : State) (core id : Nat) (ls unread : List Nat) : List Nat :=
  ls.filter fun l => s.free (9000 + l) % 2 == 1 || !s.mayClaim core id l unread

/-- The home asks the recorded core to drain, once for each request. -/
def State.startDrain (s : State) (r : Record) (line req : Nat) : State :=
  if s.drains.any fun d => d.line == line && d.req == req then s
  else
    { s with
      drains := s.drains ++ [{ id := s.nextId, core := r.core, num := r.num, line, req }]
      nextId := s.nextId + 1
      reqs := s.reqs.map fun x => if x.id = req then { x with held := true } else x }

/-! ## Outstanding work of a warp -/

/-- Values arrive for the registers that an outstanding write still owns. -/
def Warp.fill (w : Warp) (id : Nat) (vs : List (Nat × Word)) (fl : Flags) : Warp :=
  { w with outs := w.outs.map fun o =>
      if o.id = id then
        { o with flags := o.flags ||| fl
                 tgts := o.tgts.map fun t => match vs.find? fun v => v.1 == t.key with
                   | some v => { t with val := some v.2 }
                   | none => t }
      else o }

/-- Flags of an access without a register result enter with its store entry. -/
def Warp.fillStore (w : Warp) (id : Nat) (fl : Flags) : Warp :=
  { w with stq := w.stq.map fun e => if e.id = id then { e with flags := e.flags ||| fl } else e }

/-- Everything of the warp numbered below id has performed. -/
def Warp.earlierDone (w : Warp) (id : Nat) : Bool :=
  w.outs.all (fun o => decide (id ≤ o.id)) && w.stq.all fun e => decide (id ≤ e.id)

/-- R114: what comes after the last popping JOIN waits for what came before it. -/
def Warp.epochOk (w : Warp) (own : Nat) : Bool := decide (own < w.epoch) || w.earlierDone w.epoch

/-! ## The operations of the slice ALU and of L1 (R235, R236, R240) -/

/-- op(old, v) of an atomic on n bytes, with its flags. -/
def atomOp (op n old v : Nat) : Nat × Flags :=
  let w := 8 * n
  let f := if n = 8 then fp64 else fp32
  match op with
  | 0 => ((old + v) % 2 ^ w, 0#6)
  | 1 => (if asInt true w old ≤ asInt true w v then old else v, 0#6)
  | 2 => (if asInt true w v ≤ asInt true w old then old else v, 0#6)
  | 3 => (min old v, 0#6)
  | 4 => (max old v, 0#6)
  | 5 => (old &&& v, 0#6)
  | 6 => (old ||| v, 0#6)
  | 7 => (old ^^^ v, 0#6)
  | 8 => (v, 0#6)
  | 9 =>
    let x := addNum false (f.decode old) (f.decode v)
    let y := roundTo f x.1 0 false 0
    (y.1, x.2 ||| y.2)
  | 10 => pickElem f false false old v
  | _ => pickElem f false true old v

/-- Identity and combination of a SLOP op (R240). -/
def slopIdentity (op : Nat) : Nat := if op = 1 then 0xFF800000 else 0

def slopCombine (op x y : Nat) : Nat × Flags :=
  match op with
  | 0 => atomOp 9 4 x y
  | 1 => pickElem fp32 false true x y
  | 2 => ((x + y) % 2 ^ 32, 0#6)
  | 3 => (max x y, 0#6)
  | 4 => (x ||| y, 0#6)
  | _ => (if y = 0 then x else x + 1, 0#6)

def slopLine (op : Nat) (ws : List Nat) : Nat × Flags :=
  ws.foldl (fun a y => let r := slopCombine op a.1 y; (r.1, a.2 ||| r.2)) (slopIdentity op, 0#6)

/-- A value of n bytes as register words, extended below 4 bytes. -/
def wordsOf (n : Nat) (sext : Bool) (x : Nat) : List Word :=
  if n < 4 then [BitVec.ofInt 32 (asInt sext (8 * n) x)] else (List.range (n / 4)).map fun i => BitVec.ofNat 32 (x / 2 ^ (32 * i))

/-- The bytes of n at a key, as a core's access reads them: from its untracked copy of a non-coherent line where its words
are valid there (R187, R225). -/
def State.readFor (s : State) (copy : Option L1Line) (key n : Nat) : Nat :=
  match copy with
  | some x => leNat ((List.range n).map fun i =>
      if x.valid.getLsbD ((key % 128 + i) / 4) then tget 0#8 x.bytes (key % 128 + i) else s.byteAt (key + i))
  | none => s.readMem key n

/-- A write of n bytes by a warp's access: the store, the Lookout and the monitors see it. -/
def State.writeFor (s : State) (writer : Option Nat) (key n v : Nat) : State :=
  ((s.putBytes key (natLe n v)).compareWatches (lineOf key)).fire writer (lineOf key)

/-- What one lane's operation gives: the state, its results, its flags, and whether it wrote. -/
structure LaneRes where
  s : State
  vals : List (Nat × Word)
  flags : Flags
  wrote : Bool

/-- What one lane's operation does at its place (R183, R235, R236, R240). copy is the untracked copy that a load reads.
-/
def State.laneAct (s : State) (warp : Nat) (copy : Option L1Line) (o : LaneOp) : LaneRes :=
  match o.op with
  | .load sext => ⟨s, o.dst.zip (wordsOf o.n sext (s.readFor copy o.key o.n)), 0#6, false⟩
  | .store v => ⟨s.writeFor (some warp) o.key o.n v, [], 0#6, true⟩
  | .atom op v returns =>
    let old := s.readMem o.key o.n
    let new := atomOp op o.n old v
    ⟨s.writeFor (some warp) o.key o.n new.1, if returns then o.dst.zip (wordsOf o.n false old) else [],
      if o.flags then new.2 else 0#6, true⟩
  | .cas cmp new =>
    let old := s.readMem o.key o.n
    ⟨if old = cmp then s.writeFor (some warp) o.key o.n new else s, o.dst.zip (wordsOf o.n false old), 0#6, old == cmp⟩
  | .slop op m =>
    let base := lineOf o.key * 128
    let r := slopLine op ((maskLanes m).map fun i => s.readMem (base + 4 * i) 4)
    ⟨s, o.dst.zip [BitVec.ofNat 32 r.1], if o.flags then r.2 else 0#6, false⟩
  | .lock _ => ⟨s, [], 0#6, false⟩
  | .unlock => ⟨s, [], 0#6, false⟩
  | .monitor => ⟨s, [], 0#6, false⟩
  | .prefetch => ⟨s, [], 0#6, false⟩
  | .move _ => ⟨s, [], 0#6, false⟩

/-- All lanes' operations in their order, with results and flags put where they belong; and how many wrote. -/
def State.actAll (s : State) (warp own : Nat) (copy : Option L1Line) : List LaneOp → State × Nat
  | [] => (s, 0)
  | o :: os =>
    let r := s.laneAct warp copy o
    let t := r.s.modWarp warp fun w => (w.fill own r.vals r.flags).fillStore own
      (if w.outs.any fun x => x.id == own then 0#6 else r.flags)
    let u := t.actAll warp own copy os
    (u.1, (if r.wrote then 1 else 0) + u.2)

/-- The words of a line that operations touch. -/
def opsSpan (os : List LaneOp) : Mask := os.foldl (fun m o => m ||| spanOf o.key o.n) 0#32

/-! ## Locks (R192, R383) -/

/-- The outcome of a LOCK by a context at a line's home, with its effect; bad says that code 4 applies. A line that is absent
takes a way at the hint's priority, hint 3 included, which the rule asks to be fetched as well (log 92). A line without a
slice of this module, a peer's among them, gives 4 before the context's ways are looked at (log 116). -/
def State.lockLine (s : State) (c line hint : Nat) (bad : Bool) : State × Nat :=
  let x := s.ctx c
  let slice := s.home line
  if (s.line line).locks.getLsbD c ∨ s.windowPin c line then (s, 3)
  else if 512 ≤ slice then (s, 4)
  else if s.waysOf c slice = 0#16 then (s, 2)
  else if bad ∨ (s.line line).poison ≠ 0#32 then (s, 4)
  else if x.quotaLimit ≤ x.quotaUsed then (s, 1)
  else if s.victim c slice (l2Set line) = none then (s, 6)
  else
    let t := (if (s.line line).inL2 then s.touchL2 c line hint else s.allocL2 c line (hintMiss hint)).modLine line fun y =>
      { y with locks := y.locks ||| (1#8 <<< c) }
    (t.modCtx c fun y => { y with quotaUsed := y.quotaUsed + 1#32 }, 0)

/-- UNLOCK's outcome and effect (R192). -/
def State.unlockLine (s : State) (c line : Nat) : State × Nat :=
  if (s.line line).locks.getLsbD c then
    ((s.modLine line fun y => { y with locks := y.locks &&& ~~~(1#8 <<< c) }).modCtx c
      fun y => { y with quotaUsed := y.quotaUsed - 1#32 }, 0)
  else (s, 5)

/-! ## Serving a request at its home -/

/-- A non-coherent line after a request for it: the copy that L1 holds takes the words of span, those that a load misses or
that a store writes, as they stand (R187, R225). -/
def State.holdUntracked (s : State) (core line : Nat) (span : Mask) (keep : Bool) : State :=
  (if keep then s.makeRoom core (ncKey line) else s).modL1 core (ncKey line) fun x =>
    let v := if keep then x.valid ||| span else x.valid
    { x with valid := v
             bytes := (List.range 128).foldl (fun b i =>
               if (span &&& v).getLsbD (i / 4) then tset 0#8 b i (s.byteAt (line * 128 + i)) else b) x.bytes }

/-- After a request's own operations: what the core holds of the line (R187, R233). -/
def State.hold (s : State) (r : Request) (span : Mask) (write : Bool) : State :=
  if !r.tracked then s.holdUntracked r.core r.line span (r.inL1 && !write)
  else if !r.inL1 then s
  else if write then
    ((s.makeRoom r.core r.line).modHold r.line r.core fun h => { h with owned := h.owned ||| span }).modL1 r.core r.line fun x =>
      { x with valid := x.valid ||| span, dirty := x.dirty ||| span
               tag := if x.dirty = 0#32 then (s.core r.core).relCtr + 1#32 else x.tag }
  else
    ((s.makeRoom r.core r.line).modHold r.line r.core fun h => { h with shared := h.shared ||| (span &&& ~~~h.owned) }).modL1 r.core
      r.line fun x => { x with valid := x.valid ||| span }

/-- A LOCK or UNLOCK request: lanes of one line are decided once (R192). -/
def State.serveLock (s : State) (r : Request) (c : Nat) : State :=
  match r.ops with
  | [] => s
  | o :: os =>
    let (t, code, again) :=
      match o.op with
      | .lock h => let x := s.lockLine c r.line (h % 8) (decide (8 ≤ h)); (x.1, x.2, 3)
      | _ => let x := s.unlockLine c r.line; (x.1, x.2, 5)
    t.modWarp (warpKey r.core r.slot) fun w =>
      w.fill r.own (o.dst.map (fun k => (k, BitVec.ofNat 32 code)) ++
        os.flatMap fun p => p.dst.map fun k => (k, BitVec.ofNat 32 again)) 0#6

/-- MON's copy is held and its monitor armed (R241, R244). -/
def State.serveMonitor (s : State) (r : Request) : State :=
  let t := (s.recall (some r.core) r.line 0xFFFFFFFF#32).hold r 0xFFFFFFFF#32 false
  t.modWarp (warpKey r.core r.slot) fun w =>
    { w with monitor := some { line := r.line, fired := false }, outs := w.outs.filter fun o => o.id != r.own }

/-- A lazy release: tracked device memory in device bias, at scope cluster to fabric (R208). -/
def Request.lazy (r : Request) : Bool :=
  r.tracked && !keyIsHost (r.line * 128) && !r.bias && decide (3 ≤ r.scope) && decide (r.scope ≤ 8)

/-- A release that writes back first and leaves no record (R224). -/
def Release.eager (x : Release) : Bool :=
  decide (9 ≤ x.scope) || x.reqs.any fun r => keyIsHost (r.line * 128) || r.bias || (decide (3 ≤ x.scope) && !r.tracked)

/-- A CAS of the release with some number failed in a lane: its release part is a fence (R237). -/
def Warp.failCas (w : Warp) (id : Nat) (x : Release) : Warp :=
  { w with stq := w.stq.map fun y => if y.id = id then { y with kind := .release { x with failed := true } } else y }

/-- The release part of a served request, n of whose lanes wrote: its record (R208), and the fence of its lanes whose CAS
failed (R237). -/
def State.leaveRecord (s : State) (r : Request) (n : Nat) : State :=
  match (s.warp (warpKey r.core r.slot)).stq.find? fun e => e.id == r.own with
  | some e =>
    match e.kind with
    | .release x =>
      let t := if n < r.ops.length ∧ x.mayFence then s.modWarp (warpKey r.core r.slot) fun w => w.failCas r.own x else s
      if 0 < n ∧ r.lazy then
        t.modLine r.line fun y => { y with record := some { core := r.core, num := x.num, drained := false } }
      else t
    | _ => s
  | none => s

/-- Is the request a LOCK or an UNLOCK, or a MON? -/
def Request.isLock (r : Request) : Bool := r.ops.any fun o => match o.op with | .lock _ => true | .unlock => true | _ => false

def Request.isMonitor (r : Request) : Bool := r.ops.any fun o => o.op == .monitor

/-- The status that a window word ends with, of which the request moves a line (R194). -/
def Request.moves (r : Request) : Option Nat := r.ops.findSome? fun o => match o.op with | .move n => some n | _ => none

def Request.isPrefetch (r : Request) : Bool := r.ops.any fun o => o.op == .prefetch

def Request.isWrite (r : Request) : Bool := r.ops.any fun o => o.op.writes

def Request.isSlop (r : Request) : Bool := r.ops.any fun o => match o.op with | .slop .. => true | _ => false

/-- Does a lane load? -/
def LaneOp.loads (o : LaneOp) : Bool :=
  match o.op with
  | .load _ => true
  | _ => false

/-- A line whose 32 words are all written loses its poison (R398). -/
def fullLine (os : List LaneOp) : Bool :=
  (List.range 128).all fun i => os.any fun o =>
    match o.op with
    | .store _ => decide (o.key % 128 ≤ i) && decide (i < o.key % 128 + o.n)
    | _ => false

/-- The host-coherent port holds a host line that the device caches (R233, R399). -/
def Links.keepHost (x : Links) (line : Nat) : Links :=
  if x.hostLines.contains line then x else { x with hostLines := line :: x.hostLines }

/-- A prefetched line (R195): every word that L1 lacks of it is brought there where the request asks for L1. -/
def State.servePrefetch (s : State) (r : Request) : State :=
  if !r.inL1 then s
  else
    let x := s.l1 r.core (if r.tracked then r.line else ncKey r.line)
    (s.recall (some r.core) r.line 0xFFFFFFFF#32).hold r (~~~x.valid) false

/-- A line of the window has moved; one that closes is gone with its last line. -/
def Ctx.moved (x : Ctx) (line : Nat) : Ctx :=
  { x with wins := (x.wins.map fun w => { w with moving := w.moving.filter fun l => l != line }).filter fun w =>
      !(w.closing && w.moving == []) }

/-- The background engine moves a line of a window: its directory state goes with it, and it leaves the L2 of its old home
(R194, log 112). The word's status is there with its last line. -/
def State.serveMove (s : State) (r : Request) (status : Nat) : State :=
  let k := warpKey r.core r.slot
  let t := (if (s.line r.line).inL2 then s.leaveL2 r.line else s).modCtx r.ctx fun x => x.moved r.line
  if s.reqs.any fun x => warpKey x.core x.slot == k && x.own == r.own then t
  else t.modWarp k fun w => w.fill r.own (r.ops.flatMap fun o => o.dst.map fun x => (x, BitVec.ofNat 32 status)) 0#6

/-- A request as its home serves it: without a copy in L1 where the hint that it is served with allows none (R189, R190), so
that an atomic of hint 3 is performed at the home whatever its scope (log 118). On non-coherent host pages hints mean nothing
(R187). -/
def Request.servedWith (r : Request) (hint : Nat) : Request :=
  { r with hint, inL1 := r.inL1 && (hint != 3 || (keyIsHost (r.line * 128) && !r.tracked)) }

/-- The home serves a request (R207, R234): other agents' copies give way, the lanes act in a free order, the core keeps
what it holds, and a lazy release leaves its record. A load asks for the words alone that its L1 misses (R187). What a peer
refuses changes no line, and nothing of it comes to the core's L1 (R407). -/
def State.serve (s : State) (r : Request) : State :=
  let wk := warpKey r.core r.slot
  let s := { s with reqs := s.reqs.filter fun x => x.id != r.id }.offPath r.id
  if r.isLock then s.serveLock r r.ctx
  else if let some n := r.moves then s.serveMove r n
  else if r.isMonitor then (s.touchL2 r.ctx r.line (s.servedHint r.ctx r.line r.hint)).serveMonitor r
  else
    let x := s.l1 r.core (if r.tracked then r.line else ncKey r.line)
    let loads := r.ops.all LaneOp.loads
    let copy := if loads ∧ !r.tracked then some x else none
    if s.refused r.ctx r.line then
      let y := s.actAll wk r.own copy (s.admitted r)
      y.1.leaveRecord r y.2
    else
    let r := r.servedWith (s.servedHint r.ctx r.line r.hint)
    let s := s.touchL2 r.ctx r.line r.hint
    if r.isPrefetch then s.servePrefetch r
    else
    let span := if loads then opsSpan r.ops &&& ~~~x.valid else opsSpan r.ops
    let full : Mask := if r.isSlop then 0xFFFFFFFF#32 else span
    let own := if r.inL1 then some r.core else none
    let s := s.recall own r.line full
    let s := if r.isWrite then s.invalidate (some r.core) r.line span else s
    let (s, wrote) := s.actAll wk r.own copy (if r.isWrite then s.shuffled r.id r.ops else r.ops)
    let s := if fullLine r.ops then s.modLine r.line fun x => { x with poison := 0#32 } else s
    let s := if keyIsHost (r.line * 128) ∧ r.tracked then { s with links := s.links.keepHost r.line } else s
    (s.hold r span r.isWrite).leaveRecord r wrote

/-- What stops the home from serving a request now: a claim that came before it, a pin, a line's record (R209, R220, R222).
A line of a window moves with its claim and its record (R194). -/
inductive Obstacle where
  | none
  | busy
  | record (r : Record)
  deriving DecidableEq, Repr

def State.obstacle (s : State) (r : Request) : Obstacle :=
  let x := s.line r.line
  if r.moves.isSome then .none
  else if x.claims.any (fun c => decide (c.2 < r.door)) ∨ ((r.isWrite ∨ r.isSlop) ∧ s.fetchPinned r.line) then .busy
  else match s.undrained (some r.core) r.line with
    | some y => .record y
    | none => .none

/-! ## Issue of an access -/

/-- Lanes' operations grouped by line, lines in order of first use (R184). -/
def groupLines : List LaneOp → List (Nat × List LaneOp)
  | [] => []
  | o :: os =>
    let l := lineOf o.key
    let rest := groupLines os
    match rest.find? fun g => g.1 == l with
    | some g => (l, o :: g.2) :: rest.filter fun g => g.1 != l
    | none => (l, [o]) :: rest

/-- How the lines of a word are reached: what a request carries besides its operations. -/
structure Via where
  own : Nat
  hint : Nat
  order : Nat
  scope : Nat
  inL1 : Bool
  tracked : Bool
  bias : Bool
  port : Nat
  deriving DecidableEq, Repr

def Via.request (v : Via) (s : State) (line : Nat) (os : List LaneOp) : Request :=
  { id := 0, core := keyCore s.cur, slot := keySlot s.cur, ctx := s.me.ctx, own := v.own, line, port := v.port, ops := os
    hint := v.hint, order := v.order, scope := v.scope, inL1 := v.inL1, tracked := v.tracked, bias := v.bias }

/-- May the current warp's access finish in its L1 at issue (R114, R202, R215)? -/
def State.inOrder (s : State) (own line : Nat) : Bool :=
  !s.ownRequest (keyCore s.cur) line && !s.me.releaseOn line own && s.me.epochOk own

/-- May a word be decided at a line's home at issue: no access of the core to it is under way, and no request that has come to
the home, no claim and no drain is before it (R192, R209, R215, R220)? -/
def State.lineClear (s : State) (own line : Nat) : Bool :=
  s.inOrder own line && (s.line line).claims == [] && (s.undrained (some (keyCore s.cur)) line).isNone && !s.cutOff line &&
    !s.reqs.any fun r => r.line == line && r.arrived.isSome

/-- The drains that lines ask for are begun (R209). -/
def State.askDrains (s : State) (ls : List Nat) : State :=
  ls.foldl (fun t l => match t.undrained (some (keyCore s.cur)) l with
    | some r => t.startDrain r l 0
    | none => t) s

/-- A load's line: lanes whose words are valid in L1 are served by it, and the others' words are requested (R187). Behind an
earlier access of the core to the line they all wait in the core (R215), and look in L1 again as they leave it. -/
def State.loadLine (s : State) (v : Via) (line : Nat) (os : List LaneOp) : State :=
  let core := keyCore s.cur
  let x := s.l1 core (if v.tracked then line else ncKey line)
  let hit (o : LaneOp) : Bool := s.inOrder v.own line && spanOf o.key o.n &&& ~~~x.valid == 0#32
  let t := (s.actAll s.cur v.own (if v.tracked then none else some x) (os.filter hit)).1
  if os.all hit then t else t.push (v.request t line (os.filter fun o => !hit o))

/-- A store's line, or an atomic's that is performed in L1: at once where the core owns the words and no Lookout entry
watches them, else by a request (R187, R207, R233, R247). What its peer refuses goes there, and changes nothing (R407). -/
def State.storeLine (s : State) (v : Via) (line : Nat) (os : List LaneOp) : State :=
  let core := keyCore s.cur
  let span := opsSpan os
  if v.tracked ∧ v.inL1 ∧ (holdOf (s.line line) core).owned &&& span = span ∧ !s.watched line span ∧
      s.inOrder v.own line ∧ !s.refused s.me.ctx line then
    let t := (s.actAll s.cur v.own none (s.shuffled line os)).1
    let t := if fullLine os then t.modLine line fun x => { x with poison := 0#32 } else t
    t.modL1 core line fun x =>
      { x with dirty := x.dirty ||| span, tag := if x.dirty = 0#32 then (s.core core).relCtr + 1#32 else x.tag }
  else s.push ((if s.watched line span then { v with inL1 := false } else v).request s line os)

/-- A request leaves its core: an atomic on a non-coherent host page as AtomicOps, one for each lane (R238). -/
def State.send (s : State) (r : Request) : State :=
  if keyIsHost (r.line * 128) ∧ !r.tracked ∧ r.ops.any (fun o => match o.op with | .atom .. => true | .cas .. => true | _ => false) then
    { s with hostOps := s.hostOps ++ r.ops.map fun o => { warp := warpKey r.core r.slot, own := r.own, op := o } }
  else s.push r

end Sys2Proof.Machine
end

