-- ==== Sys2Proof/Machine/Order.lean ====
section
/-! DEFINITION. FENCE (R217), and the steps of the memory system: a request arrives and is started at its home (R242), a
drain is received and completes (R209), a marker is accepted (R213), an outstanding register write is made (R55), a
store or a release performs (R207, R208, R224), and the completion of an AtomicOp returns (R238). -/

namespace Sys2Proof.Machine

/-! ## Outstanding register writes -/

/-- Lane of a register key, where it has one. -/
def keyLane (k : Nat) : Option Nat :=
  if k < 8192 then some (k % 32) else if 8448 ≤ k ∧ k < 8960 then some ((k - 8448) / 16) else none

/-- May this part of an outstanding write be made now, in a step that writes the lanes of m? -/
def tgtReady (m : Mask) (t : Tgt) : Bool :=
  t.val.isSome && match keyLane t.key with
    | some l => m.getLsbD l
    | none => true

/-- A parked warp goes on once it has no register write outstanding (R53). -/
def Warp.unpark (w : Warp) : Warp := if w.status = .parked ∧ w.outs = [] then { w with status := .ready } else w

/-- The write of an outstanding result in the lanes of m; the word leaves the load counter with its last part, and its
flags enter FPSTAT (R55, R99). busy says that a part of it has not come back yet. -/
def Warp.completeOut (w : Warp) (o : Out) (m : Mask) (busy : Bool) : Warp :=
  let now := o.tgts.filter (tgtReady m)
  let rest := o.tgts.filter fun t => !tgtReady m t
  let w := now.foldl (fun w t => w.storeKey t.key (t.val.getD 0#32)) w
  if rest ≠ [] ∨ busy then { w with outs := w.outs.map fun x => if x.id = o.id then { x with tgts := rest } else x }
  else
    let w := { w with outs := w.outs.filter fun x => x.id != o.id }.setFlags o.flags
    (match o.greg with
     | some (n, g) => w.putGreg (n == 8) (n % 8) g
     | none => w).unpark

/-- Is part of an access still on its way: a request, an AtomicOp? -/
def State.pending (s : State) (warp own : Nat) : Bool :=
  s.reqs.any (fun r => warpKey r.core r.slot == warp && r.own == own) || s.hostOps.any fun h => h.warp == warp && h.own == own

/-- REGISTER_WRITE_COMPLETE (R55): not before the network clock that a RECV's write waits for (R361). -/
def execRegisterWriteComplete (core slot id : Nat) (lanes : Mask) (s : State) : Host.Outcome State Fault Refusal :=
  let k := warpKey core slot
  match (s.warp k).outs.find? fun o => o.id == id with
  | some o => .next (if s.netNow < o.after then s else s.modWarp k fun w => w.completeOut o lanes (s.pending k id))
  | none => .next s

/-! ## Requests at their homes (R242) -/

/-- Another access of the core to the line goes before a request: one that stands at its home, an older one, or a release
that has not sent its own yet (R202, R215). -/
def State.outranked (s : State) (r : Request) : Bool :=
  r.port != 3 &&
    (s.reqs.any (fun x => x.id != r.id && x.port != 3 && x.core == r.core && x.line == r.line &&
        (x.arrived.isSome || decide (x.own < r.own) || (x.own == r.own && decide (x.id < r.id)))) ||
      s.hostOps.any (fun h => keyCore h.warp == r.core && lineOf h.op.key == r.line && decide (h.own < r.own)) ||
      (s.warp (warpKey r.core r.slot)).releaseOn r.line r.own)

/-- The port of its home that a request stands on: what comes from the network may come by the other slice of the cache
router, which the rule does not say of any request (R242, log 93). -/
def State.portOf (s : State) (r : Request) : Nat := if r.port = 0 ∧ s.free (8000 + r.id) % 2 = 1 then 2 else r.port

/-- The lanes of a load that find all their words in their core's L1 (R187). -/
def State.l1Lanes (s : State) (r : Request) : List LaneOp :=
  r.ops.filter fun o => o.loads && spanOf o.key o.n &&& ~~~(s.l1 r.core (if r.tracked then r.line else ncKey r.line)).valid == 0#32

/-- A request is ready to leave its core: lanes that L1 serves now are done, and only the others go on (R187, R215). -/
def State.lookInL1 (s : State) (r : Request) : State × List LaneOp :=
  let hit := s.l1Lanes r
  ((s.actAll (warpKey r.core r.slot) r.own (if r.tracked then none else some (s.l1 r.core (ncKey r.line))) hit).1,
    r.ops.filter fun o => !hit.contains o)

/-- A request reaches its home: the core keeps the order of R215 and R114, a port presents one request per network clock,
and a path that has lost its link delivers nothing (R405). -/
def State.arrive (s : State) (req : Nat) : State :=
  match s.reqs.find? fun r => r.id == req with
  | none => s
  | some r =>
    let port := s.portOf r
    let taken := s.presented.contains (s.home r.line, port)
    let cut := s.cutOff r.line || s.paths.any fun p => s.pathDown p.1 && p.2.contains (.write req)
    let ordered := r.port == 3 || (s.warp (warpKey r.core r.slot)).epochOk r.own
    let look := s.lookInL1 r
    if r.arrived.isSome ∨ s.outranked r ∨ !ordered then s
    else if look.2 = [] then ({ look.1 with reqs := look.1.reqs.filter fun x => x.id != req } : State).offPath req
    else if taken ∨ cut then s
    else
      { look.1 with nextId := s.nextId + 1, presented := (s.home r.line, port) :: s.presented
                    reqs := look.1.reqs.map fun x =>
                      if x.id = req then { x with arrived := some s.netNow, port, door := s.nextId, ops := look.2 } else x }

/-- Earliest arrival among requests. -/
def earliest : List Request → Option Nat
  | [] => none
  | r :: rs =>
    match r.arrived, earliest rs with
    | some a, some b => some (min a b)
    | some a, none => some a
    | none, x => x

/-- Does a request stand at the head of its port: is every earlier one of the port started (R242)? -/
def State.atHead (s : State) (r : Request) : Bool :=
  !s.reqs.any fun x => x.arrived.isSome && !x.begun && x.port == r.port && s.home x.line == s.home r.line && decide (x.door < r.door)

/-- The request of a line that its home has started, or else the one that it starts: one in each network clock, of the
earliest arrivals those at the head of their port, and of several the first port from the round-robin pointer on (R242). -/
def State.pickRequest (s : State) (slice line : Nat) : Option (Request × Bool) :=
  let here := s.reqs.filter fun r => r.line == line && r.arrived.isSome && s.home line == slice
  match here.find? fun r => r.begun with
  | some r => some (r, false)
  | none =>
    let first := if s.starts.contains line then [] else here.filter fun r => r.arrived == earliest here && s.atHead r
    let ptr := tget 0 s.rr slice
    (((List.range 4).map fun i => (ptr + i) % 4).findSome? fun p => first.find? fun r => r.port == p).map
      fun r => (r, decide (1 < first.length))

/-- The home starts a request (R242). -/
def State.startRequest (s : State) (r : Request) : State :=
  if r.begun then s
  else
    { s with starts := r.line :: s.starts
             reqs := s.reqs.map fun x => if x.id = r.id then { x with begun := true } else x }

/-- HOME_REQUEST (R242): the winner is served, or held until a claim, a pin or a drain is over. -/
def execHomeRequest (slice line : Nat) (s : State) : Host.Outcome State Fault Refusal :=
  match s.pickRequest slice line with
  | none => .next s
  | some (r, tie) =>
    if r.held then .next s
    else
      let t := if tie then { s with rr := tset 0 s.rr slice ((r.port + 1) % 4) } else s
      let t := t.startRequest r
      match s.obstacle r with
      | .none => .next (t.serve r)
      | .busy => .next t
      | .record x => .next (t.startDrain x line r.id)

/-! ## Drains (R209) -/

/-- DRAIN_REQUEST: the core writes back what the drain covers, and sends its markers. -/
def execDrainRequest (core : Nat) (s : State) : Host.Outcome State Fault Refusal :=
  match s.drains.find? fun d => d.core == core && !d.started with
  | none => .next s
  | some d =>
    let ls := s.dirtyLines core d.num
    let ps := distinct (s.pathsOf core ls)
    let t := (s.writeBackAll core ls).sendMarkers ps (.marker 0 d.id true)
    .next { t with drains := t.drains.map fun x => if x.id = d.id then { x with started := true, markers := ps.length } else x }

/-- DRAIN_COMPLETE: the record is drained, and the held request is served. -/
def execDrainComplete (id : Nat) (s : State) : Host.Outcome State Fault Refusal :=
  match s.drains.find? fun d => d.id == id with
  | none => .next s
  | some d =>
    if !d.started ∨ 0 < d.markers then .next s
    else
      let t : State :=
        { s with drains := s.drains.filter fun x => x.id != id
                 reqs := s.reqs.map fun x => if x.id = d.req then { x with held := false } else x }
      let t := t.modLine d.line fun x =>
        match x.record with
        | some r => if r.core = d.core ∧ r.num = d.num then { x with record := some { r with drained := true } } else x
        | none => x
      match t.reqs.find? fun x => x.id == d.req with
      | none => .next t
      | some r => if t.obstacle r = .none then .next (t.serve r) else .next t

/-- The directory evicts a line's entry (R212): a record is drained first, every copy comes back with its dirty words, and
the record goes. An entry that a claim, a fetch or a drain needs stays. -/
def State.evictEntry (s : State) (line : Nat) : State :=
  if (s.line line).claims ≠ [] ∨ s.fetchPinned line ∨ !s.drainReady none line ∨ s.drains.any fun d => d.line == line then s
  else
    (((s.drainNow none line).recall none line 0xFFFFFFFF#32).invalidate none line 0xFFFFFFFF#32).modLine line fun x =>
      { x with record := none }

/-! ## Markers (R213) -/

/-- A marker with no write before it, and the path without it. -/
def takeMarker : List PathItem → Option (PathItem × List PathItem)
  | [] => none
  | .marker w o d :: q => some (.marker w o d, q)
  | .write _ :: _ => none

/-- FLUSH_MARKER: accepted once every earlier write of its path is. -/
def execFlushMarker (path : Nat) (s : State) : Host.Outcome State Fault Refusal :=
  match if s.pathDown path then none else takeMarker (s.pathItems path) with
  | some (.marker warp own drain, q) =>
    let t := s.modPath path fun _ => q
    if drain then
      .next { t with drains := t.drains.map fun d => if d.id = own then { d with markers := d.markers - 1 } else d }
    else
      .next (t.modWarp warp fun w =>
        { w with stq := w.stq.map fun e => if e.id = own then { e with markers := e.markers - 1 } else e })
  | _ => .next s

/-! ## Stores and releases perform (R207) -/

/-- The store entry leaves the counter, with its flags (R99). -/
def Warp.dropStore (w : Warp) (e : StEnt) : Warp :=
  { w with stq := w.stq.filter fun x => x.id != e.id }.setFlags e.flags

def Warp.setStore (w : Warp) (e : StEnt) : Warp := { w with stq := w.stq.map fun x => if x.id = e.id then e else x }

/-- The markers of a release or fence go down every path to the homes of the warp's earlier writes (R214). -/
def State.sendMine (s : State) (warp : Nat) (e : StEnt) : State :=
  let mine := (s.reqs.filter fun r => warpKey r.core r.slot == warp && decide (r.own < e.id) && r.isWrite).map fun r => r.line
  let ps := distinct (s.pathsOf (keyCore warp) mine)
  (s.sendMarkers ps (.marker warp e.id false)).modWarp warp fun w => w.setStore { e with stage := 1, markers := ps.length }

/-- Once every earlier access has performed, the core's dirty lines are written back with their markers where the release is
eager, and its own accesses wait for those (R224). -/
def State.sendDirty (s : State) (warp : Nat) (e : StEnt) (eager : Bool) : State :=
  let core := keyCore warp
  let ls := if eager then s.dirtyLines core ((s.core core).relCtr + 1#32) else []
  let ps := distinct (s.pathsOf core ls)
  ((s.writeBackAll core ls).sendMarkers ps (.marker warp e.id false)).modWarp warp fun w =>
    w.setStore { e with stage := 2, markers := ps.length }

/-- CWB and CINV reach the home (R196). -/
def State.cleanLine (s : State) (core : Nat) (mem drop every : Bool) (line : Nat) : State :=
  let s := s.writeBack core line
  let s := if drop then (s.dropCopy core line).modL1 core (ncKey line) fun _ => {} else s
  let s := if every then s.invalidate none line 0xFFFFFFFF#32 else s
  let s := if mem ∨ every then s.modLine line fun x => { x with dirty := false } else s
  if every ∧ !s.pinned line then s.modLine line fun x => { x with inL2 := false, way := 0, prio := 1, stamp := 0 } else s

/-- Bytes into a team's scratchpad. -/
def State.putScratch (s : State) (team off : Nat) (bs : List Byte) : State :=
  s.modTeam team fun t => { t with scratch := Machine.putBytes t.scratch off bs }

/-- STORE_PERFORM for one entry of a warp. A write-back to a peer without a live path is held (R405). -/
def State.perform (s : State) (warp : Nat) (e : StEnt) : State :=
  let w := s.warp warp
  let core := keyCore warp
  match e.kind with
  | .store => if s.pending warp e.id then s else s.modWarp warp fun w => w.dropStore e
  | .fence scope _ =>
    if scope < 3 then if w.earlierDone e.id then s.modWarp warp fun w => w.dropStore e else s
    else if e.stage = 0 then s.sendMine warp e
    else if 0 < e.markers ∨ !w.earlierDone e.id then s
    else if e.stage = 1 then s.sendDirty warp e true
    else s.modWarp warp fun w => w.dropStore e
  | .release r =>
    if e.stage = 0 then
      if r.eager ∨ 6 ≤ r.scope then s.sendMine warp e else s.modWarp warp fun w => w.setStore { e with stage := 1 }
    else if e.stage < 3 then
      if 0 < e.markers ∨ !w.earlierDone e.id then s
      else if e.stage = 1 then s.sendDirty warp e r.eager
      else
        let t := if 3 ≤ r.scope ∨ r.eager then s.bumpRelease core else s
        r.reqs.foldl State.send (t.modWarp warp fun w =>
          w.setStore { e with stage := 3, kind := .release { r with num := (t.core core).relCtr } })
    else if s.pending warp e.id then s
    else if r.failed then s.modWarp warp fun w => w.setStore { e with stage := 0, kind := .fence r.scope 2 }
    else s.modWarp warp fun w => w.dropStore e
  | .writeBack lines mem drop every =>
    if lines.any s.cutOff ∨ s.reqs.any fun r => r.core == core && lines.contains r.line && decide (r.own < e.id) then s
    else (lines.foldl (fun t l => t.cleanLine core mem drop every l) s).modWarp warp fun w => w.dropStore e
  | .scratch ops =>
    if w.earlierDone e.id then
      ((s.shuffled e.id ops).foldl (fun t o =>
        match o.op with
        | .store v => t.putScratch w.teamKey o.key (natLe o.n v)
        | _ => t) s).modWarp warp fun w => w.dropStore e
    else s
  | .post => if s.posts.any (fun p => p.warp == warp && p.st == e.id) ∨ s.withdraws.any (fun p => p.warp == warp && p.st == e.id) then s
             else s.modWarp warp fun w => w.dropStore e
  | .publish .. => s

/-- The instruction FENCE (R216 to R218): an acquire has waited for the loads; a release enters the store counter. -/
def execFence (k : Ctl) (f : MFields) (s : State) : Host.Outcome State Fault Refusal :=
  issue s k (.fence k f) fun s =>
    if f.order = 1#2 then s.finish k [] 0#6
    else
      (s.modMe fun w =>
        { w with stq := w.stq ++ [{ id := s.nextId, kind := .fence f.scope.toNat f.order.toNat }] }).fresh.advance k

/-- An AtomicOp's error freezes its warp at the word, as a trap would leave it: nothing of the word is outstanding any more
(R238, R384). -/
def Warp.failLink (w : Warp) (id : Nat) : Warp :=
  { w with frozen := some 2, running := false, status := .ready, req := none
           outs := w.outs.filter fun o => o.id != id, stq := w.stq.filter fun e => e.id != id }

/-- ATOMICOP_COMPLETION (R238): the completer has performed the lane's operation, or an error freezes the warp. It comes
after the warp's earlier writes (R228), and after what R114 and R215 put before it. -/
def execAtomicopCompletion (core slot id lane : Nat) (good : Bool) (s : State) : Host.Outcome State Fault Refusal :=
  let k := warpKey core slot
  match s.hostOps.find? fun h => h.warp == k && h.own == id && h.op.lane == lane with
  | none => .next s
  | some h =>
    let w := s.warp k
    if (w.stq.any fun e => decide (e.id < id)) ∨ !w.epochOk id ∨
        s.reqs.any fun r => r.core == core && r.line == lineOf h.op.key && (r.arrived.isSome || decide (r.own < id)) then .next s
    else if good then .next ((({ s with hostOps := s.hostOps.filter fun x => x != h } : State).actAll k id none [h.op]).1)
    else
      .next ((({ s with hostOps := s.hostOps.filter fun x => x.warp != k || x.own != id } : State).modWarp k fun w =>
        w.failLink id).recordFault w.ctx
          { addr := BitVec.ofNat 64 (h.op.key % 2 ^ 52), cause := 2#8, mkind := 0#3, wslot := BitVec.ofNat 6 slot,
            team := BitVec.ofNat 6 w.team, core := BitVec.ofNat 9 core })

end Sys2Proof.Machine
end

