-- ==== Sys2Proof/Machine/Memory.lean ====
section
/-! DEFINITION. The load, store and cache words (R172 to R198): accesses and their ORDER, scratchpad, pins and windows,
prefetch, write-back and invalidation, and the translation registers. -/

namespace Sys2Proof.Machine

/-! ## The lanes of an access -/

/-- The addresses of a word: one for each effective lane, or one for the warp (R174, R232). -/
def accessAddrs (s : State) (w : Warp) (k : Ctl) (f : MFields) (uniform : Bool) : List Addr :=
  if uniform then if w.acts k then [addrOf s w f 0] else [] else (dstLanes w k).map fun l => addrOf s w f l

/-- A trap of a uniform access reports every effective lane (log 23). -/
def traceMask (w : Warp) (k : Ctl) (uniform : Bool) (t : Trp) : Trp := if uniform then { t with mask := w.eff k } else t

/-- Poisoned words under a read: the memory-error trap, at the line's address (R398, log 24). -/
def poisonTrap (s : State) (mask : Mask) (n : Nat) (ps : List (Addr × Phys)) : Option Trp :=
  (ps.find? fun p => s.poisonFor s.me.ctx (lineOf p.2.key) &&& spanOf p.2.key n != 0#32).map fun p =>
    { kind := 14, cause := 1, mask, addr := p.1.va &&& ~~~(127#64) }

/-- The places of an access's lanes, after every check, or the trap (R174, R180, R185, R398). -/
def State.accessPlaces (s : State) (k : Ctl) (f : MFields) (uniform : Bool) (align : Nat) (need : BitVec 3)
    (check : Phys → Option Nat) (reads : Nat) : Except Trp (List (Addr × Phys)) :=
  let w := s.me
  match s.lanePlaces w (w.greg f.greg.toNat) (accessAddrs s w k f uniform) (2 ^ f.size.toNat) align need check with
  | .error t => .error (traceMask w k uniform t)
  | .ok ps =>
    if reads = 0 then .ok ps
    else match poisonTrap s (w.eff k) reads ps with
      | some t => .error t
      | none => .ok ps

/-- R185: the scope check of an ordered access. -/
def orderCheck (f : MFields) (p : Phys) : Option Nat :=
  if f.order ≠ 0#2 ∧ !scopeOk p.cls f.scope.toNat then some 1 else none

/-- Hints 3 and 4 do not allocate in L1; hints mean nothing on non-coherent host pages (R187, R188). -/
def allocates (hint : Nat) (p : Phys) : Bool := (p.host && p.cls == 0) || !(hint == 3 || hint == 4)

/-- Device memory of this module in device bias, tracked: where lazy release and L1 atomics are possible. -/
def lazyPage (p : Phys) : Bool := !p.host && p.cls != 0 && !leafBias p.entry

/-- The place of a line among a word's lanes. -/
def physOf (ps : List (Addr × Phys)) (line : Nat) : Option Phys := (ps.find? fun p => lineOf p.2.key == line).map Prod.snd

/-- How a line of a word is reached (R187, R188, R233). -/
def viaOf (own hint order scope port : Nat) (p : Phys) (inL1 : Bool) : Via :=
  { own, hint, order, scope, inL1, tracked := p.cls != 0, bias := !p.host && leafBias p.entry, port }

/-- Every line of a word's operations, each with its place. -/
def State.eachLine (s : State) (ps : List (Addr × Phys)) (ops : List LaneOp)
    (g : State → Nat → List LaneOp → Phys → State) : State :=
  (groupLines ops).foldl (fun t x => match physOf ps x.1 with | some p => g t x.1 x.2 p | none => t) s

/-- The accesses of a release, as they will leave (R208, R224, R233). -/
def State.releaseReqs (s : State) (ps : List (Addr × Phys)) (ops : List LaneOp) (via : Phys → Via) : List Request :=
  (groupLines ops).filterMap fun x => (physOf ps x.1).map fun p => (via p).request s x.1 x.2

/-- A new outstanding register write. -/
def Warp.addOut (w : Warp) (o : Out) : Warp :=
  { w with outs := w.outs.map (fun x =>
      { x with tgts := x.tgts.filter fun t => !(o.tgts.any fun y => y.key == t.key)
               greg := match x.greg, o.greg with
                 | some a, some b => if a.1 = b.1 then none else x.greg
                 | _, _ => x.greg }) ++ [o] }

def Warp.addStore (w : Warp) (e : StEnt) : Warp := { w with stq := w.stq ++ [e] }

/-- The targets of a word's lanes, none with a value yet. -/
def tgtsOf (ops : List LaneOp) : List Tgt := ops.flatMap fun o => o.dst.map fun k => ⟨k, none⟩

/-! ## Words that hold their warp -/

/-- A word captured where the warp now stands. -/
def Warp.captured (w : Warp) (k : Ctl) (i : Instr) (vals : List Nat) : Captured :=
  { instr := i, pc := w.pc, exec := w.eff k, fmt := w.fmt, xv := w.xv, vals }

/-- A word that held its warp is done with: its run has ended, and the warp goes on at the next word (R238, R253, R285). -/
def Warp.leaveEngine (w : Warp) (sw : Bool) : Warp :=
  let w := { w with status := .ready, req := none }.advance sw
  { w with running := false }

/-- The control fields of a captured word. -/
def Captured.ctl (c : Captured) : Ctl :=
  match c.instr.view with
  | some v => v.ctl
  | none => ⟨false, false, 0#4, false⟩

/-! ## LD, LDU and ST (R183, R184) -/

/-- LD and LDU. -/
def State.load (s : State) (k : Ctl) (f : MFields) (uniform : Bool) : State :=
  let w := s.me
  let n := 2 ^ f.size.toNat
  if accessAddrs s w k f uniform = [] then s.finish k [] 0#6
  else
    match s.accessPlaces k f uniform n needR (orderCheck f) n with
    | .error t => s.takeTrap t
    | .ok ps =>
      let own := s.nextId
      let ops := ps.map fun p =>
        ({ lane := p.1.lane, key := p.2.key, n, op := .load (f.minor == 1#4), dst := dstKeys w f.data (max 1 (n / 4)) p.1.lane } : LaneOp)
      let s := (s.noteAll w (w.greg f.greg.toNat) (ps.map Prod.fst) n).fresh
      let s := (s.modMe fun w => w.addOut { id := own, tgts := tgtsOf ops, acquires := f.order == 1#2 }).advance k
      s.eachLine ps ops fun t line os p =>
        t.loadLine (viaOf own f.hint.toNat f.order.toNat f.scope.toNat 0 p (allocates f.hint.toNat p)) line os

/-- LD. -/
def execLd (k : Ctl) (f : MFields) (s : State) : Host.Outcome State Fault Refusal :=
  issue s k (.ld k f) fun s => s.load k f false

/-- LDU: one access for the warp. -/
def execLdu (k : Ctl) (f : MFields) (s : State) : Host.Outcome State Fault Refusal :=
  issue s k (.ldu k f) fun s => s.load k f true

/-- The n bytes that a DATA operand supplies in a lane (R183). -/
def storeValue (s : State) (w : Warp) (o : Operand) (n l : Nat) : Nat :=
  match o with
  | .v r => packElems 32 ((List.range (max 1 (n / 4))).map fun i => (w.getV (r.val + i) l).toNat) % 2 ^ (8 * n)
  | .s r => packElems 32 ((List.range (max 1 (n / 4))).map fun i => (w.getS (r.val + i)).toNat) % 2 ^ (8 * n)
  | o => (rd s w o l).toNat % 2 ^ (8 * n)

/-- An empty release store or atomic acts as FENCE.rel at its scope (R218). -/
def State.emptyRelease (s : State) (k : Ctl) (scope order : Nat) : State :=
  (s.modMe fun w => w.addStore { id := s.nextId, kind := .fence scope order }).fresh.advance k

/-- ST. -/
def execSt (k : Ctl) (f : MFields) (s : State) : Host.Outcome State Fault Refusal :=
  issue s k (.st k f) fun s =>
    let w := s.me
    let n := 2 ^ f.size.toNat
    if dstLanes w k = [] then
      if f.order = 2#2 then s.emptyRelease k f.scope.toNat 2 else s.finish k [] 0#6
    else
      match s.accessPlaces k f false n needW (orderCheck f) 0 with
      | .error t => s.takeTrap t
      | .ok ps =>
        let own := s.nextId
        let ops := ps.map fun p =>
          ({ lane := p.1.lane, key := p.2.key, n, op := .store (storeValue s w f.data n p.1.lane), dst := [] } : LaneOp)
        let s := (s.noteAll w (w.greg f.greg.toNat) (ps.map Prod.fst) n).fresh
        if f.order = 2#2 then
          let via (p : Phys) := viaOf own f.hint.toNat 2 f.scope.toNat 0 p (allocates f.hint.toNat p && decide (f.scope.toNat ≤ 2))
          (s.modMe fun w => w.addStore { id := own, kind := .release { scope := f.scope.toNat, reqs := s.releaseReqs ps ops via } }).advance k
        else
          let s := (s.modMe fun w => w.addStore { id := own, kind := .store }).advance k
          s.eachLine ps ops fun t line os p =>
            t.storeLine (viaOf own f.hint.toNat 0 0 0 p (allocates f.hint.toNat p)) line os

/-! ## Scratchpad (R186) -/

/-- The byte offsets of a word's lanes. -/
def scratchAddrs (s : State) (w : Warp) (k : Ctl) (f : MFields) : List Addr :=
  (dstLanes w k).map fun l =>
    let o := (rd s w f.off l).toInt * 2 ^ f.size.toNat + f.imm12.toInt
    { lane := l, o, va := BitVec.ofInt 64 o }

/-- Alignment first, then the bounds of the allocation; for a read, marked words (R186, R398). -/
def scratchTrap (s : State) (w : Warp) (k : Ctl) (n : Nat) (read : Bool) (as : List Addr) : Option Trp :=
  let t := s.team w.teamKey
  match failTrap (as.map fun a => (a, if a.o % n = 0 then none else some (6, 0))) with
  | some x => some x
  | none =>
    match failTrap (as.map fun a => (a, if a.o < 0 ∨ (t.scratchSize : Int) < a.o + n then some (7, 5) else none)) with
    | some x => some x
    | none =>
      if !read then none
      else
        (as.find? fun a => (List.range (max 1 (n / 4))).any fun i => tget false t.poison (a.o.toNat / 4 + i)).map fun a =>
          { kind := 14, cause := 2, mask := w.eff k, addr := a.va }

def State.scratchRead (s : State) (team off n : Nat) : Nat :=
  leNat ((List.range n).map fun i => tget blankByte (s.team team).scratch (off + i))

/-- Nothing holds back a scratchpad access of the warp to n bytes from off on: no release store of it to the same words is
still to be made, and what came before its last popping JOIN is done (R114, R202, R226). -/
def Warp.scratchSpan (w : Warp) (own off n : Nat) : Bool :=
  w.epochOk own && !w.stq.any fun e =>
    match e.kind with
    | .scratch ops => decide (e.id < own) && ops.any fun o =>
        decide (o.key / 4 ≤ (off + n - 1) / 4) && decide (off / 4 ≤ (o.key + o.n - 1) / 4)
    | _ => false

/-- The same for a word's lanes, n bytes each. -/
def Warp.scratchClear (w : Warp) (own n : Nat) (as : List Addr) : Bool :=
  as.all fun a => w.scratchSpan own a.o.toNat n

/-- LDL. Scratchpad accesses are made when they issue, and wait in their run for what is ordered before them (log 25). -/
def execLdl (k : Ctl) (f : MFields) (s : State) : Host.Outcome State Fault Refusal :=
  issue s k (.ldl k f) fun s =>
    let w := s.me
    let n := 2 ^ f.size.toNat
    let as := scratchAddrs s w k f
    if as = [] then s.finish k [] 0#6
    else
      match scratchTrap s w k n true as with
      | some t => s.takeTrap t
      | none =>
        if !w.scratchClear s.nextId n as then s
        else s.defer k (as.flatMap fun a =>
          (dstKeys w f.data (max 1 (n / 4)) a.lane).zip (wordsOf n (f.minor == 1#4) (s.scratchRead w.teamKey a.o.toNat n)))
          0#6 true (f.order == 1#2)

/-- STL. -/
def execStl (k : Ctl) (f : MFields) (s : State) : Host.Outcome State Fault Refusal :=
  issue s k (.stl k f) fun s =>
    let w := s.me
    let n := 2 ^ f.size.toNat
    let as := scratchAddrs s w k f
    if as = [] then
      if f.order = 2#2 then s.emptyRelease k f.scope.toNat 2 else s.finish k [] 0#6
    else
      match scratchTrap s w k n false as with
      | some t => s.takeTrap t
      | none =>
        let ops := as.map fun a =>
          ({ lane := a.lane, key := a.o.toNat, n, op := .store (storeValue s w f.data n a.lane), dst := [] } : LaneOp)
        let own := s.nextId
        if f.order = 2#2 then (s.modMe fun w => w.addStore { id := own, kind := .scratch ops }).fresh.advance k
        else if !w.scratchClear own n as then s
        else
          let t := (s.shuffled own ops).foldl (fun t o =>
            match o.op with
            | .store v => t.putScratch w.teamKey o.key (natLe o.n v)
            | _ => t) s
          (t.modMe fun w => w.addStore { id := own, kind := .store }).fresh.advance k

/-! ## Prefetch (R195) -/

/-- A line is asked for at its home: PREF by the core, PREFT by the background engine on port 3 (R195, R242, log 26). -/
def State.prefetch (s : State) (port line hint : Nat) (l1 : Bool) (p : Phys) : State :=
  if p.host && p.cls == 0 then s
  else
    s.push ((viaOf s.nextId hint 0 0 port p (l1 && hint != 3 && hint != 4)).request s line
      [{ lane := 0, key := line * 128, n := 128, op := .prefetch, dst := [] }])

/-- PREF: lanes that cannot be read are skipped. -/
def execPref (k : Ctl) (f : MFields) (s : State) : Host.Outcome State Fault Refusal :=
  issue s k (.pref k f) fun s =>
    let w := s.me
    let ps := (accessAddrs s w k f false).filterMap fun a =>
      match s.reach w (w.greg f.greg.toNat) a 1 needR with
      | .ok p => some p
      | .error _ => none
    (ps.foldl (fun t p => t.prefetch 0 (lineOf p.key) f.hint.toNat (f.minor == 0#4) p) s).finish k [] 0#6

/-- PREFT: every line that overlaps [base, base + size). -/
def execPreft (k : Ctl) (f : EFields) (s : State) : Host.Outcome State Fault Refusal :=
  issue s k (.preft k f) fun s =>
    let w := s.me
    if !w.acts k then s.finish k [] 0#6
    else
      let base := rdU64 s w f.a
      let size := (rdU s w f.b).toNat
      let n := if size = 0 then 0 else (base.toNat % 128 + size + 127) / 128
      let t := (List.range n).foldl (fun t i =>
        let va := (base &&& ~~~(127#64)) + BitVec.ofNat 64 (128 * i)
        if !w.priv && va.getLsbD 56 then t
        else match s.translate (keyCore s.cur) w.ctx va needR with
          | .ok p => t.prefetch 3 (lineOf p.key) f.func.toNat false p
          | .error _ => t) s
      t.finish k [] 0#6

/-! ## Pins and windows (R190 to R194) -/

/-- LOCK under CTXCFG.QTRAP is decided for all its lanes at once, so that status 1 raises the quota trap with no effect on any
(R383): at issue, once what its homes have of its lines before it is served (R192). -/
def State.lockNow (s : State) (c hint : Nat) (striped : Nat → Bool) : List (Nat × List LaneOp) → State × List (Nat × Word) × Bool
  | [] => (s, [], false)
  | (line, os) :: gs =>
    let x := s.lockLine c line hint (striped line)
    let r := x.1.lockNow c hint striped gs
    let vals := match os with
      | [] => []
      | o :: rest => o.dst.map (fun k => (k, BitVec.ofNat 32 x.2)) ++ rest.flatMap fun p => p.dst.map fun k => (k, 3#32)
    (r.1, vals ++ r.2.1, x.2 == 1 || r.2.2)

/-- LOCK and UNLOCK. -/
def State.lockWord (s : State) (k : Ctl) (f : MFields) (unlock : Bool) : State :=
  let w := s.me
  let uniform := isS f.data
  if w.eff k = 0#32 then s.finish k [] 0#6
  else
    match s.accessPlaces k f uniform 1 needR (fun _ => none) 0 with
    | .error t => s.takeTrap t
    | .ok ps =>
      let striped (line : Nat) : Bool := match physOf ps line with | some p => leafStripe p.entry != 0 | none => false
      let ops := ps.map fun p =>
        ({ lane := p.1.lane, key := p.2.key, n := 1
           op := if unlock then .unlock else .lock (f.hint.toNat + if striped (lineOf p.2.key) then 8 else 0)
           dst := dstKeys w f.data 1 p.1.lane } : LaneOp)
      let own := s.nextId
      let t := s.noteAll w (w.greg f.greg.toNat) (ps.map Prod.fst) 1
      if !unlock ∧ ctxQtrap (s.ctx w.ctx) then
        let ls := ps.map fun p => lineOf p.2.key
        if !ls.all (s.lineClear own) then s.askDrains ls else
        let r := t.lockNow w.ctx f.hint.toNat striped (groupLines ops)
        if r.2.2 then s.takeTrap { kind := 13, cause := 1, mask := w.eff k, addr := (ps.map fun p => p.1.va).headD 0#64 }
        else r.1.defer k r.2.1 0#6 true false
      else
        let t := (t.modMe fun w => w.addOut { id := own, tgts := tgtsOf ops }).fresh.advance k
        t.eachLine ps ops fun t line os p => t.push ((viaOf own f.hint.toNat 0 0 0 p false).request t line os)

/-- LOCK (R192). -/
def execLock (k : Ctl) (f : MFields) (s : State) : Host.Outcome State Fault Refusal :=
  issue s k (.lock k f) fun s => s.lockWord k f false

/-- UNLOCK (R192). -/
def execUnlock (k : Ctl) (f : MFields) (s : State) : Host.Outcome State Fault Refusal :=
  issue s k (.unlock k f) fun s => s.lockWord k f true

/-- The pages of a window, or the trap of the first that fails (R194). -/
def State.windowPages (s : State) (w : Warp) (mask : Mask) (base : Dword) : Nat → Except Trp (List Phys)
  | 0 => .ok []
  | n + 1 =>
    match s.windowPages w mask base n with
    | .error t => .error t
    | .ok ps =>
      let va := if n = 0 then base else (base &&& ~~~(0xFFFF#64)) + BitVec.ofNat 64 (65536 * n)
      if !w.priv && va.getLsbD 56 then .error { kind := 4, mask, addr := va }
      else match s.translate (keyCore s.cur) w.ctx va 0#3 with
        | .ok p => .ok (ps ++ [p])
        | .error c => .error { kind := 7, cause := c, mask, addr := va }

/-- The lines of a window, from the places of its pages. -/
def windowLines (base : Dword) (size : Nat) (ps : List Phys) : List Nat :=
  (List.range (size / 128)).map fun i =>
    let at' := base.toNat % 65536 + 128 * i
    match ps[at' / 65536]? with
    | some p => if at' / 65536 = 0 then lineOf (p.key + 128 * i) else lineOf (p.key + at' % 65536)
    | none => 0

/-- The lowest number from 0 to 7 that no window of the context has. -/
def freeWindow (ws : List Win) : Option Nat := (List.range 8).find? fun n => !ws.any fun w => w.num == n

/-- The lines leave the L2 of their old homes, and are allocated in the new ones as they are next reached; directory state goes
with the line. R194 names what is moved, and not what the slices keep (log 112). -/
def State.moveLines (s : State) (ls : List Nat) : State :=
  ls.foldl (fun t l => if (t.line l).inL2 then t.leaveL2 l else t) s

/-- The lines of a range with something to move: directory state, a copy, a Lookout entry, or requests on their way (R194). -/
def State.toMove (s : State) (ls : List Nat) : List Nat :=
  ls.filter fun l => s.line l != {} || s.reqs.any (fun r => r.line == l) || s.watches.any fun x => x.lookout && lineOf x.key == l

/-- The background engine is moving lines of some window: window words wait until it is done (log 112). -/
def State.inMotion (s : State) : Bool := s.ctxs.any fun c => c.2.wins.any fun w => w.moving != []

/-- The rest of a window word: its status is outstanding until the background engine has moved each line, by a request on
port 3 of the line's old home (R194, R242). -/
def State.moveWord (s : State) (k : Ctl) (d : Operand) (ls : List Nat) (status : Nat) : State :=
  let w := s.me
  let keys := dstKeys w d 1 0
  if ls = [] then s.defer k (keys.map fun x => (x, BitVec.ofNat 32 status)) 0#6 true false
  else
    let t := (s.modMe fun w => w.addOut { id := s.nextId, tgts := keys.map fun x => ⟨x, none⟩ }).fresh.advance k
    ls.foldl (fun u l => u.push
      { id := 0, core := keyCore s.cur, slot := keySlot s.cur, ctx := w.ctx, own := s.nextId, line := l, port := 3
        ops := [{ lane := 0, key := l * 128, n := 128, op := .move status, dst := keys }]
        hint := 0, order := 0, scope := 0, inL1 := false, tracked := true }) t

/-- WINSET's status, and its effect where it is 0 (R194): the window is there, and its lines start to move. -/
def State.winset (s : State) (c quad : Nat) (base : Dword) (size : Nat) (m : Word) (ps : List Phys) : State × Nat :=
  let ls := windowLines base size ps
  let die := match ps with | p :: _ => p.key / dieSize | [] => 0
  let q := die * 4 + quad
  let x := s.ctx c
  let all := s.ctxs.flatMap fun y => y.2.wins.flatMap fun w => w.lines
  if base.toNat % 128 ≠ 0 ∨ size % 128 ≠ 0 ∨ size = 0 ∨ m = 0#32 then (s, 7)
  else if ps.any fun p => p.host || leafStripe p.entry != 0 || p.key / dieSize != die then (s, 4)
  else if !x.waymask.getLsbD (16 + q) ∨ x.waymask.setWidth 16 = 0#16 then (s, 2)
  else
    match freeWindow x.wins with
    | none => (s, 8)
    | some n =>
      if ls.any all.contains then (s, 9)
      else if ls.any fun l => (s.line l).locks.getLsbD c then (s, 3)
      else if x.quotaLimit.toNat < x.quotaUsed.toNat + size / 128 then (s, 1)
      else
        let slices := ((slicesOfQuad q).zipIdx.filter fun y => m.getLsbD y.2).map Prod.fst
        (s.modCtx c fun y =>
          { y with wins := y.wins ++ [{ num := n, base, lines := ls, slices, moving := s.toMove ls }]
                   quotaUsed := y.quotaUsed + BitVec.ofNat 32 (size / 128) }, n * 256)

/-- WINSET. Its status, and the trap under CTXCFG.QTRAP, are decided as it issues (R383). -/
def execWinset (k : Ctl) (f : EFields) (s : State) : Host.Outcome State Fault Refusal :=
  issue s k (.winset k f) fun s =>
    let w := s.me
    if !w.acts k then s.finish k [] 0#6
    else if s.inMotion then s
    else
      let base := rdU64 s w f.a
      let b := rdU64 s w f.b
      let size := (loWord b).toNat
      match s.windowPages w (w.eff k) base (if size = 0 then 0 else (base.toNat % 65536 + size + 65535) / 65536) with
      | .error t => s.takeTrap t
      | .ok ps =>
        let r := s.winset w.ctx f.func.toNat base size (hiWord b) ps
        if r.2 = 1 ∧ ctxQtrap (s.ctx w.ctx) then s.takeTrap { kind := 13, cause := 2, mask := w.eff k, addr := base }
        else r.1.moveWord k f.d (if r.2 % 256 = 0 then s.toMove (windowLines base size ps) else []) r.2

/-- WINCLR (R194): the window is there until its last line is back. -/
def execWinclr (k : Ctl) (f : EFields) (s : State) : Host.Outcome State Fault Refusal :=
  issue s k (.winclr k f) fun s =>
    let w := s.me
    if !w.acts k then s.finish k [] 0#6
    else if s.inMotion then s
    else
      match (s.ctx w.ctx).wins.find? fun x => x.num == (rdU s w f.a).toNat with
      | none => s.moveWord k f.d [] 5
      | some x =>
        let ls := s.toMove x.lines
        let t := s.modCtx w.ctx fun y =>
          { y with wins := if ls = [] then y.wins.filter fun z => z.num != x.num
                           else y.wins.map fun z => if z.num = x.num then { z with closing := true, moving := ls } else z
                   quotaUsed := y.quotaUsed - BitVec.ofNat 32 (x.lines.length - x.unpinned.length) }
        t.moveWord k f.d ls 0

/-! ## Write-back and invalidation (R196) -/

/-- CWB and CINV. A stale copy of a non-coherent line is gone once the CINV has issued (R225). -/
def State.cacheWord (s : State) (k : Ctl) (f : MFields) (mem drop every : Bool) : State :=
  let w := s.me
  if dstLanes w k = [] then s.finish k [] 0#6
  else
    match s.accessPlaces k f false 1 needR (fun _ => none) 0 with
    | .error t => s.takeTrap t
    | .ok ps =>
      let ls := distinct (ps.map fun p => lineOf p.2.key)
      let t := s.noteAll w (w.greg f.greg.toNat) (ps.map Prod.fst) 1
      let t := if drop then ls.foldl (fun t l => t.modL1 (keyCore s.cur) (ncKey l) fun _ => {}) t else t
      (t.modMe fun w => w.addStore { id := s.nextId, kind := .writeBack ls mem drop every }).fresh.advance k

/-- CWB. -/
def execCwb (k : Ctl) (f : MFields) (s : State) : Host.Outcome State Fault Refusal :=
  issue s k (.cwb k f) fun s => s.cacheWord k f (f.minor == 1#4) false false

/-- CINV. -/
def execCinv (k : Ctl) (f : MFields) (s : State) : Host.Outcome State Fault Refusal :=
  issue s k (.cinv k f) fun s => s.cacheWord k f false true (f.minor == 1#4)

/-! ## Translation registers (R175, R176, R197) -/

/-- What GBIND writes (R176). -/
def State.bindValue (s : State) (c : Nat) (base : Dword) (limit : Word) : GReg :=
  match s.leafOf (keyCore s.cur) c base with
  | .error _ => { vbase := base }
  | .ok (e, l) =>
    match s.place c base e l with
    | .error _ => { vbase := base }
    | .ok p =>
      if leafStripe e ≠ 0 then { vbase := base }
      else
        { vbase := base, pbase := BitVec.ofNat 52 (p.key % 2 ^ 52)
          limit := BitVec.ofNat 32 (min limit.toNat (pageSize l - base.toNat % pageSize l))
          host := p.host, perm := p.perm, cls := BitVec.ofNat 2 p.cls, valid := true, psize := pageSize l }

/-- GBIND. -/
def execGbind (k : Ctl) (f : MFields) (s : State) : Host.Outcome State Fault Refusal :=
  issue s k (.gbind k f) fun s =>
    let w := s.me
    if !w.acts k then s.finish k [] 0#6
    else
      let base := rdU64 s w f.data
      let g := s.bindValue w.ctx base (rdU s w f.off)
      ((s.noteTlb (keyCore s.cur) w.ctx base).modMe fun w =>
        w.addOut { id := s.nextId, tgts := [], greg := some (gregNum w f.greg.toNat, g) }).fresh.advance k

/-- VALID falls in a g-register and in an outstanding GBIND of it. -/
def Warp.ginv (w : Warp) (n : Nat) : Warp :=
  ({ w with outs := w.outs.map fun o =>
      match o.greg with
      | some (m, g) => if m = gregNum w n then { o with greg := some (m, { g with valid := false }) } else o
      | none => o } : Warp).putGreg (gregNum w n == 8) n { w.greg n with valid := false }

/-- GINV. -/
def execGinv (k : Ctl) (f : MFields) (s : State) : Host.Outcome State Fault Refusal :=
  issue s k (.ginv k f) fun s =>
    if !s.me.acts k then s.finish k [] 0#6 else (s.modMe fun w => w.ginv f.greg.toNat).finish k [] 0#6

/-- QCLASS's value for one address (R197). -/
def State.qclass (s : State) (w : Warp) (g : GReg) (a : Addr) (n : Nat) : Word :=
  let r :=
    if g.fast a n then s.fastPath w g a.va a.o 0#3
    else s.translate (keyCore s.cur) w.ctx a.va 0#3
  match r with
  | .error c => BitVec.ofNat 32 (2 * c)
  | .ok p =>
    let at' (b : Nat) : Nat := if !p.host || p.cls == 2 || p.entry.getLsbD b then 1 else 0
    BitVec.ofNat 32 (at' 63 * 2 ^ 23 + at' 62 * 2 ^ 22 + at' 61 * 2 ^ 21 + leafStripe p.entry * 2 ^ 15 + p.level * 2 ^ 13 +
      (if leafBias p.entry then 2 ^ 12 else 0) + (if p.host then 2 ^ 11 else 0) + p.perm.toNat * 2 ^ 8 + p.cls * 2 ^ 6 + 1)

/-- QCLASS. -/
def execQclass (k : Ctl) (f : MFields) (s : State) : Host.Outcome State Fault Refusal :=
  issue s k (.qclass k f) fun s =>
    let w := s.me
    let as := accessAddrs s w k f (isS f.data)
    if w.eff k = 0#32 then s.finish k [] 0#6
    else
      (s.noteAll w (w.greg f.greg.toNat) as (2 ^ f.size.toNat)).defer k (as.flatMap fun a => (dstKeys w f.data 1 a.lane).map fun key =>
        (key, s.qclass w (w.greg f.greg.toNat) a (2 ^ f.size.toNat))) 0#6 true false

end Sys2Proof.Machine
end

