-- ==== Sys2Proof/Machine/Atomic.lean ====
section
/-! DEFINITION. Atomics (R231 to R241), monitors and the Lookout (R244 to R247), and the team barriers (R248 to R250). -/

namespace Sys2Proof.Machine

/-! ## ATOM, CAS, CAS128 and RED -/

/-- The leaf bit of R179 that an AtomicOp of n bytes asks for. -/
def leafAtomic (e : Dword) (n : Nat) : Bool := if n = 16 then e.getLsbD 63 else if n = 8 then e.getLsbD 62 else e.getLsbD 61

/-- Class causes of an atomic (R185, R232, R238): hostOk says that the link has an AtomicOp for the word. -/
def atomCheck (scope n : Nat) (hostOk : Bool) (p : Phys) : Option Nat :=
  if !scopeOk p.cls scope then some 1
  else if p.host ∧ p.cls = 0 ∧ !(hostOk && leafAtomic p.entry n) then some 2
  else none

/-- Where an atomic is performed (R233): in L1, by the slice ALU, or beyond the link. -/
def inL1Atomic (scope : Nat) (p : Phys) : Bool := decide (scope ≤ 2) && lazyPage p && leafStripe p.entry == 0

def atomVia (own : Nat) (f : MFields) (l1 : Bool) (p : Phys) : Via :=
  let in' := l1 && inL1Atomic f.scope.toNat p
  viaOf own f.hint.toNat f.order.toNat f.scope.toNat (if p.host || in' then 0 else 1) p in'

/-- A non-coherent host page, whose atomics are AtomicOps of the link (R233). -/
def linkedPage (p : Phys) : Bool := p.host && p.cls == 0

/-- The warp stays at its word until the word's AtomicOps have come back. -/
def Warp.linkAt (w : Warp) (k : Ctl) (i : Instr) (own : Nat) : Warp :=
  { w with status := .linking own, running := false, req := some (w.captured k i []) }

/-- An atomic word's accesses: op gives each lane's operation, hostOk the AtomicOps of R238, l1 whether it may be performed in
L1. A word with a lane on a non-coherent host page stays at issue until its AtomicOps have come back, so that an error finds
the warp at the word (R384, log 90). It enters the load counter if it returns, the store counter if it releases or does not
return (R241). -/
def State.atomicWord (s : State) (k : Ctl) (i : Instr) (f : MFields) (n regs : Nat) (returns hostOk l1 : Bool) (op : Nat → MemOp) :
    State :=
  let w := s.me
  let uniform := returns && isS f.data
  if accessAddrs s w k f uniform = [] then
    if f.order.getLsbD 1 then s.emptyRelease k f.scope.toNat f.order.toNat else s.finish k [] 0#6
  else
    match s.accessPlaces k f uniform n (if returns then needR ||| needW else needW) (atomCheck f.scope.toNat n hostOk) n with
    | .error t => s.takeTrap t
    | .ok ps =>
      let own := s.nextId
      let ops := ps.map fun p =>
        ({ lane := p.1.lane, key := p.2.key, n, op := op p.1.lane
           dst := if returns then dstKeys w f.data regs p.1.lane else [], flags := !uniform || w.eff k != 0#32 } : LaneOp)
      let s := (s.noteAll w (w.greg f.greg.toNat) (ps.map Prod.fst) n).fresh
      let s := if returns then s.modMe fun w => w.addOut { id := own, tgts := tgtsOf ops, acquires := f.order.getLsbD 0 } else s
      let s := if ps.any (fun p => linkedPage p.2) then s.modMe fun w => w.linkAt k i own else s.advance k
      if f.order.getLsbD 1 then
        let via (p : Phys) := atomVia own f (l1 && decide (f.scope.toNat ≤ 2)) p
        s.modMe fun w => w.addStore { id := own, kind := .release { scope := f.scope.toNat, reqs := s.releaseReqs ps ops via } }
      else
        let s := if returns then s else s.modMe fun w => w.addStore { id := own, kind := .store }
        s.eachLine ps ops fun t line os p =>
          let v := atomVia own f l1 p
          if v.inL1 then t.storeLine v line os else t.send (v.request t line os)

/-- ATOM (R235). -/
def execAtom (k : Ctl) (f : MFields) (s : State) : Host.Outcome State Fault Refusal :=
  issue s k (.atom k f) fun s =>
    let n := 2 ^ f.size.toNat
    s.atomicWord k (.atom k f) f n (n / 4) true (f.minor == 0#4 || f.minor == 8#4) true
      fun l => .atom f.minor.toNat (storeValue s s.me f.data n l) true

/-- The two groups of n bytes that a CAS reads (R236). -/
def casOp (s : State) (d : Operand) (n l : Nat) : MemOp :=
  let x := match d with
    | .v r => packElems 32 ((List.range (n / 2)).map fun i => (s.me.getV (r.val + i) l).toNat)
    | .s r => packElems 32 ((List.range (n / 2)).map fun i => (s.me.getS (r.val + i)).toNat)
    | _ => 0
  .cas (x % 2 ^ (8 * n)) (x / 2 ^ (8 * n))

/-- CAS (R236). -/
def execCas (k : Ctl) (f : MFields) (s : State) : Host.Outcome State Fault Refusal :=
  issue s k (.cas k f) fun s =>
    let n := 2 ^ f.size.toNat
    s.atomicWord k (.cas k f) f n (n / 4) true true true fun l => casOp s f.data n l

/-- CAS128 (R236). -/
def execCas128 (k : Ctl) (f : MFields) (s : State) : Host.Outcome State Fault Refusal :=
  issue s k (.cas128 k f) fun s => s.atomicWord k (.cas128 k f) f 16 4 true true true fun l => casOp s f.data 16 l

/-- RED (R239). -/
def execRed (k : Ctl) (f : MFields) (s : State) : Host.Outcome State Fault Refusal :=
  issue s k (.red k f) fun s =>
    let n := 2 ^ f.size.toNat
    s.atomicWord k (.red k f) f n 0 false (f.minor == 0#4) false fun l => .atom f.minor.toNat (storeValue s s.me f.data n l) false

/-- SLOP (R240): it reads the whole line, poisoned words included (R398). -/
def execSlop (k : Ctl) (f : MFields) (s : State) : Host.Outcome State Fault Refusal :=
  issue s k (.slop k f) fun s =>
    let w := s.me
    let uniform := isS f.data
    if accessAddrs s w k f uniform = [] then s.finish k [] 0#6
    else
      match s.accessPlaces k f uniform 4 needR
          (fun p => if !scopeOk p.cls f.scope.toNat ∨ p.host then some 1 else none) 0 with
      | .error t => s.takeTrap t
      | .ok ps =>
        match ps.find? fun p => s.poisonFor w.ctx (lineOf p.2.key) != 0#32 with
        | some p => s.takeTrap { kind := 14, cause := 1, mask := w.eff k, addr := p.1.va &&& ~~~(127#64) }
        | none =>
          let own := s.nextId
          let ops := ps.map fun p =>
            ({ lane := p.1.lane, key := p.2.key, n := 4, op := .slop f.minor.toNat (rd s w f.data p.1.lane)
               dst := dstKeys w f.data 1 p.1.lane, flags := !uniform || w.eff k != 0#32 } : LaneOp)
          let s := (s.noteAll w (w.greg f.greg.toNat) (ps.map Prod.fst) 4).fresh
          let s := (s.modMe fun w => w.addOut { id := own, tgts := tgtsOf ops, acquires := f.order == 1#2 }).advance k
          s.eachLine ps ops fun t line os p =>
            t.push ((viaOf own f.hint.toNat f.order.toNat f.scope.toNat 1 p false).request t line os)

/-! ## MON, MWAIT and WATCH (R244 to R247) -/

/-- MON (R244): the line is brought whole into L1, and then the monitor is armed. -/
def execMon (k : Ctl) (f : MFields) (s : State) : Host.Outcome State Fault Refusal :=
  issue s k (.mon k f) fun s =>
    let w := s.me
    if !w.acts k then s.finish k [] 0#6
    else
      match s.accessPlaces k f true 1 needR (fun p => if p.host ∨ p.cls = 0 then some 1 else none) 0 with
      | .error t => s.takeTrap t
      | .ok ps =>
        let own := s.nextId
        let ops := ps.map fun p => ({ lane := 0, key := p.2.key, n := 1, op := .monitor, dst := [] } : LaneOp)
        let s := (s.noteAll w (w.greg f.greg.toNat) (ps.map Prod.fst) 1).fresh
        let s := (s.modMe fun w => w.addOut { id := own, tgts := [] }).advance k
        s.eachLine ps ops fun t line os p => t.push ((viaOf own 0 0 0 0 p true).request t line os)

/-- MWAIT (R245). With an empty effective mask it does nothing, and the monitor stays armed (log 119). -/
def execMwait (k : Ctl) (f : MFields) (s : State) : Host.Outcome State Fault Refusal :=
  issue s k (.mwait k f) fun s =>
    match s.me.monitor with
    | none => s.finish k [] 0#6
    | some m =>
      if !s.me.acts k then s.finish k [] 0#6
      else if m.fired then (s.modMe fun w => { w with monitor := none }).finish k [] 0#6
      else s.modMe fun w => w.sleepIn k.sw .mwait s.tick

/-- WATCH (R246): the comparison is made at the home by LOOKOUT_POLL, which parks the entry. -/
def execWatch (k : Ctl) (f : MFields) (s : State) : Host.Outcome State Fault Refusal :=
  issue s k (.watch k f) fun s =>
    let w := s.me
    let n := 2 ^ f.size.toNat
    if !w.acts k then s.finish k [] 0#6
    else
      match s.accessPlaces k f true n needR (fun p => if !scopeOk p.cls f.scope.toNat ∨ p.host then some 1 else none) 0 with
      | .error t => s.takeTrap t
      | .ok ps =>
        let x := ps.map fun p =>
          ({ warp := s.cur, key := p.2.key, n, cond := f.minor.toNat, cmp := storeValue s w f.data n 0, order := f.order.toNat,
             scope := f.scope.toNat, lookout := false, wake := none
             dst := (List.range (n / 4)).map fun i => w.sKey (regNum f.data + n / 4 + i)
             va := p.1.va, mask := w.eff k } : Watch)
        let t : State := { s.noteAll w (w.greg f.greg.toNat) (ps.map Prod.fst) n with watches := s.watches ++ x }
        t.modMe fun w => w.sleepIn k.sw .watch s.tick

def State.watchOf (s : State) (warp : Nat) : Option Watch := s.watches.find? fun x => x.warp == warp

/-- A warp's entry leaves the Lookout, or the core that polls for it. -/
def State.unwatch (s : State) (k : Nat) : State := { s with watches := s.watches.filter fun y => y.warp != k }

/-- Does the read of a warp's comparison wait: for an earlier access of its core or an earlier release of the warp to the line,
for what its last popping JOIN put before it, for a claim, or for a path (R114, R202, R215, R220, R405)? -/
def State.pollWaits (s : State) (k line : Nat) : Bool :=
  s.ownRequest (keyCore k) line || (s.warp k).releaseOn line s.nextId || !(s.warp k).epochOk s.nextId ||
    (s.line line).claims != [] || s.cutOff line

/-- A comparison that reads poisoned data ends in the memory-error trap at its word (R398, R407). -/
def State.watchError (s : State) (k : Nat) (x : Watch) : State :=
  let t : State := { s.unwatch k with cur := k }
  { (t.modMe fun w => { w with status := .ready }).takeTrap
      { kind := 14, cause := 1, mask := x.mask, addr := x.va &&& ~~~(127#64) } with cur := s.cur }

/-- LOOKOUT_POLL (R246, R247): the home, or the core for a full Lookout, reads the location under the request rules; a
comparison that holds sends the wake, and one that does not parks the entry where the Lookout has room. -/
def execLookoutPoll (core slot : Nat) (s : State) : Host.Outcome State Fault Refusal :=
  let k := warpKey core slot
  match s.watchOf k with
  | none => .next s
  | some x =>
    let line := lineOf x.key
    if x.lookout ∨ x.wake.isSome ∨ s.pollWaits k line then .next s
    else if s.poisonFor (s.warp k).ctx line &&& spanOf x.key x.n ≠ 0#32 then .next (s.watchError k x)
    else
      match s.undrained (some core) line with
      | some r => .next (s.startDrain r line 0)
      | none =>
        let v := s.readMem x.key x.n
        if watchCond x.cond x.n v x.cmp then
          .next { s with watches := s.watches.map fun y => if y.warp = k then { y with wake := some v } else y }
        else if (s.watches.filter fun y => y.lookout && s.home (lineOf y.key) == s.home line).length < 256 then
          let t := s.recall none line (spanOf x.key x.n)
          .next { t with watches := t.watches.map fun y => if y.warp = k then { y with lookout := true } else y }
        else .next s

/-- WATCH_WAKE (R246): an acquire is woken once the home has drained the record that it names. The home wakes a warp that is
frozen or whose team is being stopped as well; it issues nothing for it (log 120). -/
def execWatchWake (core slot : Nat) (s : State) : Host.Outcome State Fault Refusal :=
  let k := warpKey core slot
  match s.watchOf k with
  | none => .next s
  | some x =>
    match x.wake with
    | none => .next s
    | some v =>
      match if x.order = 1 then s.undrained (some core) (lineOf x.key) else none with
      | some r => .next (s.startDrain r (lineOf x.key) 0)
      | none =>
        .next ((s.unwatch k).modWarp k fun w => (w.putMany (x.dst.zip (wordsOf x.n false v))).wake)

/-! ## Team barriers (R248 to R250) -/

def Team.bar (t : Team) (b : Nat) : Barrier := tget {} t.bars b

def Team.setBar (t : Team) (b : Nat) (x : Barrier) : Team := { t with bars := tset {} t.bars b x }

/-- Number of set bits. -/
def popcount {n : Nat} (x : BitVec n) : Nat := ((List.range n).filter fun i => x.getLsbD i).length

/-- One arrival by warp i of n (R249): the barrier after it, and whether it completed the generation. -/
def Barrier.arrive (x : Barrier) (i t core : Nat) (num : Word) : Barrier × Bool :=
  let count := if x.arrived = 0#16 then BitVec.ofNat 5 t else x.count
  let arrived := x.arrived ||| (1#16 <<< i)
  let y := { x with count, arrived, rel := tset 0#32 x.rel core num }
  if popcount arrived = count.toNat then ({ y with gen := x.gen + 1#32, arrived := 0#16, count := 0#5 }, true) else (y, false)

/-- The arrival of a word: an illegal count traps, a second arrival of a generation (in its run, log 121) and earlier accesses
that have not performed hold the word, as do drains whose markers are not accepted yet (R214, R249, R250, log 27); else g and the state
after it. -/
inductive Arrival where
  | wait
  | illegal
  | done (g : Word) (s : State)

def State.arriveBar (s : State) (b : Nat) (count : Word) : Arrival :=
  let w := s.me
  let tk := w.teamKey
  let team := s.team tk
  let n := team.cores.length
  let t := if count = 0#32 then n else count.toNat
  let x := team.bar b
  if n < t then .illegal
  else if x.arrived.getLsbD w.twarp ∨ w.stq ≠ [] ∨ w.outs.any fun o => s.pending s.cur o.id then .wait
  else
    let core := keyCore s.cur
    let r := x.arrive w.twarp t core ((s.core core).relCtr + 1#32)
    let drains := r.2 && decide (1 < (distinct team.cores).length)
    if drains && !r.1.rel.all (fun p => s.markersPass p.1 (s.dirtyLines p.1 p.2)) then .wait
    else
      let s' := s.modTeam tk fun y => y.setBar b r.1
      .done x.gen (if drains then r.1.rel.foldl (fun u p => u.writeBackAll p.1 (u.dirtyLines p.1 p.2)) s' else s')

/-- BAR (R249). -/
def execBar (k : Ctl) (f : EFields) (s : State) : Host.Outcome State Fault Refusal :=
  issue s k (.bar k f) fun s =>
    if !s.me.acts k then s.finish k [] 0#6
    else
      match s.arriveBar f.func.toNat (rdU s s.me f.a) with
      | .wait => s
      | .illegal => s.takeTrap (illegal s.me k (.bar k f))
      | .done g t =>
        if ((t.team t.me.teamKey).bar f.func.toNat).gen ≠ g then t.finish k [] 0#6
        else t.modMe fun w => w.sleepIn k.sw (.barrier f.func.toNat g) t.tick

/-- BARA (R249). -/
def execBara (k : Ctl) (f : EFields) (s : State) : Host.Outcome State Fault Refusal :=
  issue s k (.bara k f) fun s =>
    if !s.me.acts k then s.finish k [] 0#6
    else
      match s.arriveBar f.func.toNat (rdU s s.me f.a) with
      | .wait => s
      | .illegal => s.takeTrap (illegal s.me k (.bara k f))
      | .done g t => t.finish k (writes32 t.me k f.d fun _ => g) 0#6

/-- BARW (R249). -/
def execBarw (k : Ctl) (f : EFields) (s : State) : Host.Outcome State Fault Refusal :=
  issue s k (.barw k f) fun s =>
    let g := rdU s s.me f.a
    if s.me.acts k ∧ ((s.team s.me.teamKey).bar f.func.toNat).gen = g then
      s.modMe fun w => w.sleepIn k.sw (.barrier f.func.toNat g) s.tick
    else s.finish k [] 0#6

end Sys2Proof.Machine
end

