-- ==== Sys2Proof/Machine/Control.lean ====
section
/-! DEFINITION. The control words: transfers and their targets (R64, R65, R108, R109), divergence (R110 to R112), EXEC
and predicates (R115 to R117), the format register (R118) and NOP (R119). -/

namespace Sys2Proof.Machine

/-- The code word at an address, or the trap kind and cause of fetching it (R65). Running on from one word to the next is
no transfer, so no privilege is asked for (R369, log 38). -/
def State.codeFetch (s : State) (w : Warp) (va : Dword) : Except (Nat × Nat) Dword :=
  match s.translate (keyCore s.cur) w.ctx va needX with
  | .ok p => .ok (s.dwordAt p.key)
  | .error c => .error (7, c)

/-- The same at the target of a transfer, which the privilege trap covers (R369). -/
def State.codeWord (s : State) (w : Warp) (va : Dword) : Except (Nat × Nat) Dword :=
  if !w.priv && va.getLsbD 56 then .error (4, 0) else s.codeFetch w va

/-- The checks of R65 on a target: the trap at the transfer word, which reports the lanes of mask (log 21). -/
def targetTrap (s : State) (mask : Mask) (va : Dword) : Option Trp :=
  if va.toNat % 8 ≠ 0 then some { kind := 6, mask, addr := va }
  else
    match s.codeWord s.me va with
    | .error x => some { kind := x.1, cause := x.2, mask, addr := va }
    | .ok x => if isHeader x then none else some { kind := 2, mask }

/-- A taken transfer to a checked target; upd is what else it writes. -/
def State.transfer (s : State) (k : Ctl) (va : Dword) (upd : Warp → Warp) : State :=
  match targetTrap s (s.me.eff k) va with
  | some t => s.takeTrap t
  | none => s.modMe fun w => (upd w).jump k.sw va

/-- A relative target (R65): the word's address plus 8 x TARGET. -/
def relTarget (pc : Dword) (off : Word) : Dword := pc + (off.signExtend 64 <<< 3)

/-- R108: without agreement to take it, the warp goes on at the next word. -/
def State.judge (s : State) (k : Ctl) (take : State → State) : State :=
  if s.me.acts k then take s else s.modMe fun w => w.fallThrough k.sw

/-- BRA (R109). -/
def execBra (k : Ctl) (f : CFields) (s : State) : Host.Outcome State Fault Refusal :=
  issue s k (.bra k f) fun s => s.judge k fun s => s.transfer k (relTarget s.me.pc f.target) id

/-- BRX (R109). -/
def execBrx (k : Ctl) (f : CFields) (s : State) : Host.Outcome State Fault Refusal :=
  issue s k (.brx k f) fun s => s.judge k fun s => s.transfer k (rdU64 s s.me f.src) id

/-- CALL (R109): the link pair takes the next word's address. -/
def execCall (k : Ctl) (f : CFields) (s : State) : Host.Outcome State Fault Refusal :=
  issue s k (.call k f) fun s => s.judge k fun s =>
    s.transfer k (relTarget s.me.pc f.target) fun w => w.putSPair (regNum f.src) (w.pc + 8#64)

/-- CALLX (R109): the target is read before the link is written. -/
def execCallx (k : Ctl) (f : CFields) (s : State) : Host.Outcome State Fault Refusal :=
  issue s k (.callx k f) fun s => s.judge k fun s =>
    s.transfer k (rdU64 s s.me f.src) fun w => w.putSPair f.func.toNat (w.pc + 8#64)

/-- RET (R109). -/
def execRet (k : Ctl) (f : CFields) (s : State) : Host.Outcome State Fault Refusal :=
  issue s k (.ret k f) fun s => s.judge k fun s => s.transfer k (rdU64 s s.me f.src) id

/-- SKIPZ (R109): taken where its uniform operand is zero. -/
def execSkipz (k : Ctl) (f : CFields) (s : State) : Host.Outcome State Fault Refusal :=
  issue s k (.skipz k f) fun s =>
    if rdU s s.me f.src = 0#32 then s.transfer k (relTarget s.me.pc f.target) id
    else s.modMe fun w => w.fallThrough k.sw

/-- SPLIT's new entry and the path that runs first (R111). -/
def Warp.split (w : Warp) (t : Mask) (sw : Bool) (taken join : Dword) : Warp :=
  let rest := w.exec &&& ~~~t
  let e : StackEntry := { jpc := join, ppc := w.pc + 8#64, rmask := w.exec, pmask := 0#32, sfmt := w.fmt }
  if t ≠ 0#32 then ({ w with stack := { e with pmask := rest } :: w.stack, exec := t }).jump sw taken
  else ({ w with stack := e :: w.stack, exec := rest }).fallThrough sw

/-- SPLIT (R111). -/
def execSplit (k : Ctl) (f : CFields) (s : State) : Host.Outcome State Fault Refusal :=
  issue s k (.split k f) fun s =>
    let w := s.me
    let t := w.eff k
    let taken := relTarget w.pc ((f.target.extractLsb' 0 16).signExtend 32)
    let join := relTarget w.pc ((f.target.extractLsb' 16 16).signExtend 32)
    if 16 ≤ w.stack.length then s.takeTrap { kind := 11, mask := t }
    else
      match targetTrap s t taken with
      | some x => s.takeTrap x
      | none =>
        match targetTrap s t join with
        | some x => s.takeTrap x
        | none => s.modMe fun w => w.split t k.sw taken join

/-- JOIN on the top entry (R112). One that pops orders the accesses before it, which are numbered below next, before
those after it (R114). Where it goes to the pending path, PPC is checked as a target where the warp next issues, not at the JOIN
(R65, R112; log 115). -/
def Warp.join (w : Warp) (sw : Bool) (next : Nat) (e : StackEntry) (rest : List StackEntry) : Warp :=
  let w := { w with fmt := e.sfmt }
  if e.pmask ≠ 0#32 then
    ({ w with exec := e.pmask, stack := { e with pmask := 0#32 } :: rest }).jump sw e.ppc
  else ({ w with exec := e.rmask, stack := rest, epoch := next }).fallThrough sw

/-- JOIN (R112). FMT never takes a reserved value, which an image may have left in SFMT (R96). -/
def execJoin (k : Ctl) (f : CFields) (s : State) : Host.Outcome State Fault Refusal :=
  issue s k (.join k f) fun s =>
    let w := s.me
    match w.stack with
    | [] => s.takeTrap { kind := 3, mask := w.eff k, info := w.eff k }
    | e :: rest =>
      if w.hdr ≠ e.jpc then s.takeTrap { kind := 3, mask := w.eff k, info := w.eff k }
      else if !fmtLegal e.sfmt then s.takeTrap (illegal w k (.join k f))
      else s.modMe fun w => w.join k.sw s.nextId e rest

/-- EXRD (R115). -/
def execExrd (k : Ctl) (f : VFields) (s : State) : Host.Outcome State Fault Refusal :=
  issue s k (.exrd k f) fun s =>
    let w := s.me
    let top := w.stack.head?.getD {}
    s.value32 k f.d fun _ =>
      (match f.minor.toNat with
       | 0 => w.exec
       | 1 => BitVec.ofNat 32 w.stack.length
       | 2 => top.rmask
       | _ => top.pmask, 0#6)

/-- The new EXEC of an EXWR (R115). -/
def exwrMask (minor : Nat) (old a : Mask) : Mask :=
  match minor with
  | 0 => a
  | 1 => old &&& a
  | 2 => old ||| a
  | _ => old &&& ~~~a

/-- EXWR (R115). -/
def execExwr (k : Ctl) (f : VFields) (s : State) : Host.Outcome State Fault Refusal :=
  issue s k (.exwr k f) fun s =>
    let a := rdU s s.me f.a
    s.modMe fun w => ({ w with exec := exwrMask f.minor.toNat w.exec a }).advance k.sw

/-- PLOG (R116): MOD is the truth table. -/
def execPlog (k : Ctl) (f : VFields) (s : State) : Host.Outcome State Fault Refusal :=
  issue s k (.plog k f) fun s =>
    let w := s.me
    let at' (l : Nat) := (if w.pred (regNum f.a) l then 2 else 0) + (if w.pred (regNum f.b) l then 1 else 0)
    s.finish k (writesPred w k (regNum f.d) fun l => f.mod.getLsbD (at' l)) 0#6

/-- PMOV (R117). -/
def execPmov (k : Ctl) (f : VFields) (s : State) : Host.Outcome State Fault Refusal :=
  issue s k (.pmov k f) fun s =>
    let w := s.me
    match f.minor.toNat with
    | 0 => s.value32 k f.d fun l => ((tget 0#16 w.preds l).setWidth 32, 0#6)
    | 1 =>
      s.finish k ((List.range 16).flatMap fun n => writesPred w k n fun l => (rd s w f.a l).getLsbD n) 0#6
    | 2 => s.finish k (writesPred w k (regNum f.d) fun l => rd s w f.a l != 0#32) 0#6
    | _ => s.value32 k f.d fun l => (if w.pred (regNum f.a) l then 1#32 else 0#32, 0#6)

/-- The new FMT of a SETFMT (R118). -/
def setfmtValue (s : State) (w : Warp) (f : KFields) : Word :=
  match f.func.toNat with
  | 0 => f.imm
  | 1 => rdU s w f.d
  | 2 => w.fmt &&& f.imm
  | _ => w.fmt ||| f.imm

/-- SETFMT (R118, R96). -/
def execSetfmt (k : Ctl) (f : KFields) (s : State) : Host.Outcome State Fault Refusal :=
  issue s k (.setfmt k f) fun s =>
    let x := setfmtValue s s.me f
    if fmtLegal x then s.modMe fun w => ({ w with fmt := x }).advance k.sw
    else s.takeTrap (illegal s.me k (.setfmt k f))

/-- GETFMT (R118). -/
def execGetfmt (k : Ctl) (f : VFields) (s : State) : Host.Outcome State Fault Refusal :=
  issue s k (.getfmt k f) fun s => s.value32 k f.d fun _ => (if f.minor = 0#5 then s.me.fmt else s.me.xv, 0#6)

/-- NOP (R119). -/
def execNop (k : Ctl) (f : VFields) (s : State) : Host.Outcome State Fault Refusal :=
  issue s k (.nop k f) fun s => s.finish k [] 0#6

end Sys2Proof.Machine
end

