-- ==== Sys2Proof/Machine/Copy.lean ====
section
/-! DEFINITION. The Skidder's copies (R252 to R272), folds (R257 to R263), streams (R273, R274) and continuations
(R275). -/

namespace Sys2Proof.Machine

/-! ## Folds -/

def State.modFold (s : State) (team n : Nat) (g : Fold → Fold) : State :=
  s.modTeam team fun t => { t with folds := tmod {} t.folds n g }

def State.fold (s : State) (team n : Nat) : Fold := (s.team team).fold n

/-- Full, draining, or with an error: what every wait on a fold waits for (R49, R261). -/
def Fold.met (x : Fold) : Bool := x.state == 2#2 || x.state == 3#2 || x.err != 0#3

/-- The first error is kept (R263). -/
def Fold.fail (x : Fold) (code : BitVec 3) : Fold := if x.err = 0#3 then { x with err := code } else x

/-- Filling turns full once every armed count meets its expectation (R258). -/
def Fold.settle (x : Fold) : Fold :=
  if x.state = 1#2 ∧ (x.armb ∨ x.armr) ∧ (!x.armb ∨ x.arrb = x.expb) ∧ (!x.armr ∨ x.arrr = x.expr) then
    { x with state := 2#2 }
  else x

/-- A new fill (R258). -/
def Fold.refill (x : Fold) : Fold :=
  { x with state := 1#2, expb := 0#32, arrb := 0#32, expr := 0#32, arrr := 0#32, armb := false, armr := false
           err := 0#3, miss := 0#16, cons := x.consn }

/-- One consumer's release (R258). -/
def Fold.release (x : Fold) : Fold :=
  if x.state ≠ 2#2 ∧ x.state ≠ 3#2 then x
  else if 1#5 < x.cons then { x with state := 3#2, cons := x.cons - 1#5 }
  else x.refill

/-- Bytes and rows land (R254, R258, R263). Counts that pass 2^32 - 1 while they are not armed wrap, without an error: R258
does not say what ARRB and ARRR hold then (log 106). -/
def Fold.land (x : Fold) (bytes rows : Nat) : Fold :=
  let b := x.arrb.toNat + bytes
  let r := x.arrr.toNat + rows
  let excess := x.state = 2#2 ∨ x.state = 3#2 ∨ (x.armb ∧ x.expb.toNat < b) ∨ (x.armr ∧ x.expr.toNat < r)
  ({ (if excess then x.fail 2#3 else x) with arrb := BitVec.ofNat 32 b, arrr := BitVec.ofNat 32 r } : Fold).settle

/-- An expectation (R260). -/
def Fold.expect (x : Fold) (rows : Bool) (n : Word) : Fold :=
  if x.state = 2#2 ∨ x.state = 3#2 then x.fail 3#3
  else if rows then
    if 2 ^ 32 ≤ x.expr.toNat + n.toNat then x.fail 2#3 else { x with expr := x.expr + n, armr := true : Fold }.settle
  else
    if 2 ^ 32 ≤ x.expb.toNat + n.toNat then x.fail 2#3 else { x with expb := x.expb + n, armb := true : Fold }.settle

/-- Bits 31:0 and 63:32 of an entry (R257). -/
def Fold.status (x : Fold) : Word :=
  BitVec.ofNat 32 (x.miss.toNat * 65536 + x.cons.toNat * 2048 + x.err.toNat * 256 + (if x.armr then 32 else 0) +
    (if x.armb then 16 else 0) + x.state.toNat)

def Fold.high (x : Fold) : Word := BitVec.ofNat 32 (x.infl.toNat * 2 ^ 24 + x.consn.toNat * 2 ^ 19)

/-- The fold error at a word that reads the fold (R261); the manual gives no TADDR for it (log 28). -/
def State.foldTrap (s : State) (k : Ctl) (n : Nat) (x : Fold) : Option Trp :=
  if x.err = 0#3 then none
  else some { kind := 14, cause := 3, mask := s.me.eff k, addr := BitVec.ofNat 64 (s.free 14)
              info := BitVec.ofNat 32 (n + 256 * x.err.toNat) }

/-! ## Moves of a command -/

/-- One end of a move: a virtual address or a scratchpad offset. -/
inductive Side where
  | va (a : Dword)
  | sp (off : Nat)
  deriving DecidableEq, Repr

/-- Where a side's address stands among numbers. -/
def Side.num : Side → Nat
  | .va a => a.toNat
  | .sp o => o

def Side.step (x : Side) (n : Nat) : Side :=
  match x with
  | .va a => .va (a + BitVec.ofNat 64 n)
  | .sp o => .sp (o + n)

structure Move where
  src : Side
  dst : Side
  n : Nat
  row : Option Nat
  deriving DecidableEq, Repr

/-- The permutation of R269. -/
def swizzle (z a : Nat) : Nat :=
  let sp := 16 * 2 ^ z
  a - a % sp + 16 * ((a % sp / 16) ^^^ (a / sp % 2 ^ z)) + a % 16

def Side.swizzled (x : Side) (z : Nat) : Side :=
  match x with
  | .va a => .va (BitVec.ofNat 64 (swizzle z a.toNat))
  | x => x

/-- A copy cut into moves that stay within a line at both ends, and within 16 bytes where the destination is swizzled. -/
def cutMoves (z : Nat) (row : Option Nat) : Nat → Side → Side → Nat → List Move
  | 0, _, _, _ => []
  | fuel + 1, src, dst, n =>
    if n = 0 then []
    else
      let k := min n (min (128 - src.num % 128) (min (128 - dst.num % 128) (if z = 0 then 128 else 16 - dst.num % 16)))
      ⟨src, dst.swizzled z, k, row⟩ :: cutMoves z row fuel (src.step k) (dst.step k) (n - k)

def movesOf (z : Nat) (row : Option Nat) (src dst : Side) (n : Nat) : List Move := cutMoves z row n src dst n

/-! ## The words at issue -/

/-- A list in groups of n. -/
def groupsOf (n : Nat) : Nat → List Nat → List (List Nat)
  | 0, _ => []
  | fuel + 1, xs => if xs = [] then [] else xs.take n :: groupsOf n fuel (xs.drop n)

/-- Commands of a captured copy word. -/
def Captured.count (c : Captured) : Nat :=
  match c.instr with
  | .gath .. => c.vals.length / 7
  | .scat .. => c.vals.length / 7
  | _ => 1

/-- Commands that the Skidder of a core holds, those that probe included (R252). -/
def State.commands (s : State) (core : Nat) : Nat :=
  (s.core core).cmds.length +
    ((s.warps.filter fun p => keyCore p.1 == core && p.2.status == .probing).map fun p =>
      match p.2.req with | some c => c.count | none => 0).sum

/-- The common part of the copy words: an access to a failed fold traps, a word with nothing to do ends its run, and one
that fits the Skidder begins to probe. A word that meets the fold's error and a misaligned operand takes the fold-error fault:
R261 and R253 do not order them (log 108). -/
def State.startCopy (s : State) (k : Ctl) (i : Instr) (fold : Nat) (acts : Bool) (align : Option Trp) (vals : List Nat) :
    State :=
  let w := s.me
  if !acts then s.modMe fun w => w.leaveEngine k.sw
  else
    match s.foldTrap k fold (s.fold w.teamKey fold) with
    | some t => s.takeTrap t
    | none =>
      match align with
      | some t => s.takeTrap t
      | none =>
        if vals = [] then s.modMe fun w => w.leaveEngine k.sw
        else
          let c := w.captured k i vals
          if 32 < s.commands (keyCore s.cur) + c.count then s
          else s.modMe fun w => { w with status := .probing, running := false, req := some c }

/-- A side's address from an operand in a lane: a pair for memory, a register for scratchpad. -/
def sideNum (s : State) (w : Warp) (mem : Bool) (o : Operand) (l : Nat) : Nat :=
  if mem then (rd64 s w o l).toNat else (rd s w o l).toNat

def sideOf (mem : Bool) (x : Nat) : Side := if mem then .va (BitVec.ofNat 64 x) else .sp x

/-- The alignment trap of the lowest lane that fails, lanes and addresses given. -/
def alignTrap (xs : List (Nat × Nat × Bool)) : Option Trp :=
  failTrap (xs.map fun x => (⟨x.1, 0, BitVec.ofNat 64 x.2.1⟩, if x.2.2 then none else some (6, 0)))

/-- CPY (R264). -/
def execCpy (k : Ctl) (f : EFields) (s : State) : Host.Outcome State Fault Refusal :=
  issue s k (.cpy k f) fun s =>
    let w := s.me
    let x := copyFunc f.func
    let n := 4 * 2 ^ x.sz
    let ls := (dstLanes w k).map fun l => (l, sideNum s w (x.dir != 1) f.a l, sideNum s w (x.dir != 0) f.b l)
    s.startCopy k (.cpy k f) f.fold.toNat (ls != [])
      (alignTrap (ls.map fun y => (y.1, if y.2.1 % n = 0 then y.2.2 else y.2.1, y.2.1 % n == 0 && y.2.2 % n == 0)))
      (ls.flatMap fun y => [y.1, y.2.1, y.2.2])

/-- The lane that elected operands are read in, and whether the word acts (R255, R265). -/
def electedLane (w : Warp) (k : Ctl) (d : Operand) : Nat := if isV d then (dstLanes w k).headD 0 else 0

def electedActs (w : Warp) (k : Ctl) (d : Operand) : Bool := if isV d then w.eff k != 0#32 else w.acts k

/-- A trap of an elected or uniform word reports every effective lane. -/
def wholeTrap (w : Warp) (k : Ctl) (kind : Nat) (bad : Option Nat) : Option Trp :=
  bad.map fun a => { kind, mask := w.eff k, addr := BitVec.ofNat 64 a }

/-- CPYB (R265). Of what breaks its alignment, the trap names the source first, then the destination, which stands for the size
as well (log 122). -/
def execCpyb (k : Ctl) (f : EFields) (s : State) : Host.Outcome State Fault Refusal :=
  issue s k (.cpyb k f) fun s =>
    let w := s.me
    let x := copyFunc f.func
    let l := electedLane w k f.d
    let size := (rd s w f.d l).toNat
    let src := sideNum s w (x.dir != 1) f.a l
    let dst := sideNum s w (x.dir != 0) f.b l
    s.startCopy k (.cpyb k f) f.fold.toNat (electedActs w k f.d)
      (wholeTrap w k 6 (if src % 16 ≠ 0 then some src
        else if dst % 16 ≠ 0 ∨ size % 16 ≠ 0 ∨ 2 ^ 24 < size then some dst else none))
      (if size = 0 then [] else [size, src, dst])

/-- The lanes of GATH and SCAT: one command for each, or one for the warp (R266). -/
def rowAsks (s : State) (w : Warp) (k : Ctl) (f : EFields) : List (List Nat) :=
  let ls := if isV f.d then dstLanes w k else [0]
  ls.map fun l => [l] ++ ((List.range 4).map fun i =>
      match f.d with
      | .v r => (w.getV (r.val + i) l).toNat
      | .s r => (w.getS (r.val + i)).toNat
      | _ => 0) ++ [(rd64 s w f.a l).toNat, (rd64 s w f.b l).toNat]

/-- The limits of a group (R266), as an alignment breach (log 29): an index base that is no multiple of 4 is one, since its
indices are words (log 123), and a lane of no rows keeps the limits of the others (log 124). -/
def rowsOk (y : List Nat) : Bool :=
  let rows := y.getD 1 0
  let bytes := y.getD 2 0
  decide (rows ≤ 65536) && bytes % 4 == 0 && decide (4 ≤ bytes) && decide (bytes ≤ 2048) && y.getD 3 0 % 4 == 0 &&
    (rows == 0 || y.getD 6 0 % 4 == 0)

def State.startRows (s : State) (k : Ctl) (f : EFields) (i : Instr) : State :=
  let w := s.me
  let ys := rowAsks s w k f
  let bad := alignTrap (ys.map fun y => (y.getD 0 0, y.getD 6 0, rowsOk y))
  s.startCopy k i f.fold.toNat (electedActs w k f.d)
    (bad.map fun t => if isV f.d then t else { t with mask := w.eff k })
    (ys.filter fun y => y.getD 1 0 != 0).flatten

/-- GATH (R266). -/
def execGath (k : Ctl) (f : EFields) (s : State) : Host.Outcome State Fault Refusal :=
  issue s k (.gath k f) fun s => s.startRows k f (.gath k f)

/-- SCAT (R266). -/
def execScat (k : Ctl) (f : EFields) (s : State) : Host.Outcome State Fault Refusal :=
  issue s k (.scat k f) fun s => s.startRows k f (.scat k f)

/-- MCAST (R267): unnamed bits of its group are illegal; size and offset are multiples of 16 (log 29), and a trap for either
names the source (log 125). -/
def execMcast (k : Ctl) (f : EFields) (s : State) : Host.Outcome State Fault Refusal :=
  issue s k (.mcast k f) fun s =>
    let w := s.me
    let l := electedLane w k f.d
    let d (i : Nat) : Nat := match f.d with
      | .v r => (w.getV (r.val + i) l).toNat
      | .s r => (w.getS (r.val + i)).toNat
      | _ => 0
    let src := (rd64 s w f.a l).toNat
    if electedActs w k f.d ∧ (2 ^ 18 ≤ d 1 ∨ 128 ≤ d 2) then s.takeTrap (illegal w k (.mcast k f))
    else
      s.startCopy k (.mcast k f) f.fold.toNat (electedActs w k f.d)
        (wholeTrap w k 6 (if d 0 % 16 ≠ 0 ∨ d 0 < 16 ∨ 65536 < d 0 ∨ d 3 % 16 ≠ 0 then some src else none))
        [d 0, d 1, d 2, d 3, src]

/-! ## The probe (R253) -/

/-- A failure of a probe: trap kind, cause and address. -/
structure Fail where
  kind : Nat
  cause : Nat
  addr : Dword
  deriving DecidableEq, Repr

/-- n bytes at a side: where they lie and, for memory, whether the line is coherent. -/
def State.probeSide (s : State) (w : Warp) (need : BitVec 3) (x : Side) (n : Nat) : Except Fail (Loc × Bool) :=
  match x with
  | .va a =>
    match s.reach w {} ⟨0, 0, a⟩ n need with
    | .ok p => .ok (.mem p.key, p.cls != 0)
    | .error e => .error ⟨e.1, e.2, a⟩
  | .sp o => if o + n ≤ (s.team w.teamKey).scratchSize then .ok (.scr w.teamKey o, false) else .error ⟨7, 5, BitVec.ofNat 64 o⟩

/-- The pieces of a command's moves with the coherent lines that they write, or the first failure. -/
def State.probeMoves (s : State) (w : Warp) : List Move → Except Fail (List Piece × List Nat)
  | [] => .ok ([], [])
  | m :: ms =>
    match s.probeSide w needR m.src m.n with
    | .error e => .error e
    | .ok (src, _) =>
      match s.probeSide w needW m.dst m.n with
      | .error e => .error e
      | .ok (dst, coh) =>
        match s.probeMoves w ms with
        | .error e => .error e
        | .ok (ps, ls) =>
          .ok ({ src, dst, n := m.n, row := m.row } :: ps,
            match dst with | .mem key => if coh then lineOf key :: ls else ls | .scr .. => ls)

/-- The source alone, for a multicast: its pieces carry their offset as destination. -/
def State.probeSource (s : State) (w : Warp) : List Move → Except Fail (List Piece × List Nat)
  | [] => .ok ([], [])
  | m :: ms =>
    match s.probeSide w needR m.src m.n with
    | .error e => .error e
    | .ok (src, _) =>
      match s.probeSource w ms with
      | .error e => .error e
      | .ok (ps, ls) => .ok ({ src, dst := .scr 0 m.dst.num, n := m.n } :: ps, ls)

/-- The indices of a gather or scatter, read whole (R253). -/
def State.readIndices (s : State) (w : Warp) (base : Nat) : Nat → Except Fail (List Nat)
  | 0 => .ok []
  | n + 1 =>
    match s.readIndices w base n with
    | .error e => .error e
    | .ok xs =>
      let a := BitVec.ofNat 64 (base + 4 * n)
      match s.reach w {} ⟨0, 0, a⟩ 4 needR with
      | .error e => .error ⟨e.1, e.2, a⟩
      | .ok p =>
        if s.poisonFor w.ctx (lineOf p.key) &&& spanOf p.key 4 ≠ 0#32 then .error ⟨14, 1, a &&& ~~~(127#64)⟩
        else .ok (xs ++ [s.readMem p.key 4])

/-- The moves of one lane's rows (R266): y is the lane and its group. -/
def rowMoves (gath : Bool) (y xs : List Nat) : Except Fail (List Move) :=
  let bytes := y.getD 2 0
  xs.zipIdx.foldl (fun r x =>
    match r with
    | .error e => .error e
    | .ok ms =>
      let m := (y.getD 5 0 + x.1 * y.getD 4 0) % 2 ^ 64
      let mem := Side.va (BitVec.ofNat 64 m)
      let sp := Side.sp (y.getD 3 0 + x.2 * bytes)
      if m % 4 ≠ 0 then .error ⟨6, 0, BitVec.ofNat 64 m⟩
      else .ok (ms ++ if gath then movesOf 0 (some x.2) mem sp bytes else movesOf 0 (some x.2) sp mem bytes)) (.ok [])

/-- One lane's command of a GATH or SCAT. -/
def State.probeRows (s : State) (w : Warp) (gath : Bool) (y : List Nat) : Except Fail (List Piece × List Nat) :=
  match s.readIndices w (y.getD 6 0) (y.getD 1 0) with
  | .error e => .error e
  | .ok xs =>
    match rowMoves gath y xs with
    | .error e => .error e
    | .ok ms => s.probeMoves w ms

/-- The commands of a captured word by lane: pieces, claims, and what a multicast names. -/
def State.probe (s : State) (w : Warp) (c : Captured) :
    List (Nat × Except Fail (List Piece × List Nat)) × Option (List Nat) :=
  match c.instr with
  | .cpy _ f =>
    let x := copyFunc f.func
    let n := 4 * 2 ^ x.sz
    ((groupsOf 3 c.vals.length c.vals).map fun y =>
      (y.getD 0 0, s.probeMoves w (movesOf x.swz none (sideOf (x.dir != 1) (y.getD 1 0)) (sideOf (x.dir != 0) (y.getD 2 0)) n)),
      none)
  | .cpyb _ f =>
    let x := copyFunc f.func
    ([(32, s.probeMoves w (movesOf x.swz none (sideOf (x.dir != 1) (c.vals.getD 1 0)) (sideOf (x.dir != 0) (c.vals.getD 2 0))
      (c.vals.getD 0 0)))], none)
  | .gath _ f => ((groupsOf 7 c.vals.length c.vals).map fun y => (if isV f.d then y.getD 0 0 else 32, s.probeRows w true y), none)
  | .scat _ f => ((groupsOf 7 c.vals.length c.vals).map fun y => (if isV f.d then y.getD 0 0 else 32, s.probeRows w false y), none)
  | .mcast _ _ =>
    ([(32, s.probeSource w (movesOf 0 none (.va (BitVec.ofNat 64 (c.vals.getD 4 0))) (.sp 0) (c.vals.getD 0 0)))], some c.vals)
  | _ => ([], none)

/-- The failures of a word's lanes; number 32 stands for every effective lane. -/
def failures {α : Type} (rs : List (Nat × Except Fail α)) : List (Nat × Fail) :=
  rs.filterMap fun r =>
    match r.2 with
    | .error e => some (r.1, e)
    | .ok _ => none

/-- What each lane gave that did not fail. -/
def successes {α : Type} (rs : List (Nat × Except Fail α)) : List α :=
  rs.filterMap fun r =>
    match r.2 with
    | .error _ => none
    | .ok x => some x

/-- The order in which R180 checks every lane: alignment, then privilege and translation, then class, then errors. -/
def Fail.rank (e : Fail) : Nat :=
  match e.kind with
  | 6 => 0
  | 4 => 1
  | 7 => 1
  | 8 => 2
  | _ => 3

/-- The trap of the lowest lane that fails in the first check that any lane fails, with the lanes that fail alike (R180,
R253). -/
def probeTrap (mask : Mask) (xs : List (Nat × Fail)) : Option Trp :=
  (xs.find? fun x => xs.all fun y => decide (x.2.rank ≤ y.2.rank)).map fun x =>
    { kind := x.2.kind, cause := x.2.cause, addr := x.2.addr
      mask := if x.1 = 32 ∨ x.2.kind = 14 then mask
        else maskOf fun l => xs.any fun y => y.1 == l && y.2.kind == x.2.kind && y.2.cause == x.2.cause }

/-- Fold, hint and swizzle of a copy word. -/
def copyFields : Instr → Nat × Nat × Nat
  | .cpy _ f => (f.fold.toNat, (copyFunc f.func).hint, (copyFunc f.func).swz)
  | .cpyb _ f => (f.fold.toNat, (copyFunc f.func).hint, (copyFunc f.func).swz)
  | .gath _ f => (f.fold.toNat, (copyFunc f.func).hint, 0)
  | .scat _ f => (f.fold.toNat, (copyFunc f.func).hint, 0)
  | .mcast _ f => (f.fold.toNat, (copyFunc f.func).hint, 0)
  | _ => (0, 0, 0)

/-- A command's claim reaches the home of a line: every copy of it gives way, and what comes after it waits (R220). -/
def State.claim (s : State) (core id line : Nat) : State :=
  (((s.drainNow (some core) line).invalidate none line 0xFFFFFFFF#32).modLine line fun x =>
    { x with claims := x.claims ++ [(id, s.nextId)] }).fresh

/-- Does a word's command wait for an earlier word of its warp on the same fold (R223, R271)? -/
def State.behindWord (s : State) (core slot team fold word : Nat) : Bool :=
  (s.core core).cmds.any fun x => x.slot == slot && x.team == team && x.fold == fold && decide (x.word < word)

/-- A command enters the Skidder: its fold counts it and its destination lines are claimed (R254), but for those whose claim
comes later; that of a command behind another on its fold claims none yet (log 94). INFL, which has 8 bits, wraps where more
than 255 commands count into one fold: R257 does not say what it shows then (log 105). -/
def State.addCommand (s : State) (core slot team word fold hint swz : Nat) (mc : Option (List Nat))
    (x : List Piece × List Nat) : State :=
  let id := s.nextId
  let ls := distinct x.2
  let late := if s.behindWord core slot team fold word then ls else s.lateLines core id ls (unreadOf x.1)
  let s := (s.fresh.modFold team fold fun y => { y with infl := y.infl + 1#8 }).modCore core fun c =>
    { c with cmds := c.cmds ++ [{ id, word, team, slot, fold, pieces := x.1, claims := ls, late, hint, swz, mcast := mc }] }
  (ls.filter fun l => !late.contains l).foldl (fun t l => t.claim core id l) s

/-- The engine of a core reads n bytes coherently. -/
def State.engineRead (s : State) (c core hint key n : Nat) : State :=
  let line := lineOf key
  ((s.drainNow (some core) line).touchL2 c line (s.servedHint c line hint)).recall none line (spanOf key n)

/-- The engine of a core writes bytes at the home: copies give way, the Lookout and the monitors see it (R207, R398). -/
def State.engineWrite (s : State) (c core hint key : Nat) (bs : List Byte) : State :=
  let line := lineOf key
  let span := spanOf key bs.length
  if s.refused c line then s
  else
  let s := (((s.drainNow (some core) line).touchL2 c line (s.servedHint c line hint)).recall none line span).invalidate none line span
  let s := ((s.putBytes key bs).compareWatches line).fire none line
  s.modLine line fun x => { x with poison := if bs.length = 128 then 0#32 else x.poison, dirty := x.inL2 }

/-- The commands of a word whose lanes have all probed: one for a CPY, whatever its lanes, and one for each lane of a GATH or
SCAT (R252, R264). -/
def commandsOf (i : Instr) (xs : List (List Piece × List Nat)) : List (List Piece × List Nat) :=
  match i with
  | .cpy _ _ => [(xs.flatMap Prod.fst, xs.flatMap Prod.snd)]
  | _ => xs

/-- After a copy word's lanes have probed. -/
def State.probed (s : State) (c : Captured) (r : List (Nat × Except Fail (List Piece × List Nat)) × Option (List Nat)) : State :=
  let w := s.me
  let x := copyFields c.instr
  match probeTrap c.exec (failures r.1) with
  | some t => s.takeTrap t
  | none =>
    if (s.fold w.teamKey x.1).state = 0#2 then s.takeTrap (illegal w c.ctl c.instr)
    else
      ((commandsOf c.instr (successes r.1)).foldl (fun t p =>
        t.addCommand (keyCore s.cur) (keySlot s.cur) w.teamKey s.nextId x.1 x.2.1 x.2.2 r.2 p) s).modMe fun w =>
          w.leaveEngine c.ctl.sw

/-- The lines that the probe of a gather or scatter reads its indices from (R253). -/
def State.indexLines (s : State) (w : Warp) (c : Captured) : List Nat :=
  let rows (ys : List (List Nat)) : List Nat := distinct <| ys.flatMap fun y => (List.range (y.getD 1 0)).filterMap fun i =>
    match s.reach w {} ⟨0, 0, BitVec.ofNat 64 (y.getD 6 0 + 4 * i)⟩ 4 needR with
    | .ok p => some (lineOf p.key)
    | .error _ => none
  match c.instr with
  | .gath .. => rows (groupsOf 7 c.vals.length c.vals)
  | .scat .. => rows (groupsOf 7 c.vals.length c.vals)
  | _ => []

/-- PROBE_COMPLETE (R253): the word traps where a probe fails, and else its commands start. It waits for what its index
reads wait for. A fold freed while the word probed is a free fold that it names (log 30). -/
def execProbeComplete (core slot : Nat) (s : State) : Host.Outcome State Fault Refusal :=
  let t : State := { s with cur := warpKey core slot }
  match t.me.req with
  | some c =>
    let ls := t.indexLines t.me c
    let r := t.probe t.me c
    if t.me.status ≠ .probing ∨ t.me.frozen ≠ none ∨ ls.any (t.readWaits core t.nextId) then .next s
    else .next ((ls.foldl (fun u l => u.engineRead t.me.ctx core 3 (l * 128) 128) t).probed c r)
  | none => .next s

/-! ## Landing (R254) -/

/-- Bytes at a place. -/
def State.bytesOf (s : State) (x : Loc) (n : Nat) : List Byte :=
  match x with
  | .mem key => s.bytesAt key n
  | .scr t o => (List.range n).map fun i => tget blankByte (s.team t).scratch (o + i)

/-- An uncorrectable error among n bytes at a place that a context reads (R398, R407). -/
def State.badBytes (s : State) (ctx : Nat) (x : Loc) (n : Nat) : Bool :=
  match x with
  | .mem key => s.poisonFor ctx (lineOf key) &&& spanOf key n != 0#32
  | .scr t o => (List.range n).any fun i => tget false (s.team t).poison ((o + i) / 4)

/-- Does a place lie in host memory? -/
def Loc.host : Loc → Bool
  | .mem key => keyIsHost key
  | .scr .. => false

/-- Claims of a command on lines that it has written are released. -/
def State.releaseClaims (s : State) (id : Nat) (ls : List Nat) : State :=
  ls.foldl (fun t l => t.modLine l fun x => { x with claims := x.claims.filter fun y => y.1 != id }) s

def State.modCmd (s : State) (core id : Nat) (g : Cmd → Cmd) : State :=
  s.modCore core fun c => { c with cmds := c.cmds.map fun x => if x.id = id then g x else x }

/-- The command is complete: its share of INFL goes (R254). -/
def State.dropCmd (s : State) (core : Nat) (c : Cmd) : State :=
  ((s.modCore core fun x => { x with cmds := x.cmds.filter fun y => y.id != c.id }).releaseClaims c.id c.claims).modFold
    c.team c.fold fun y => { y with infl := y.infl - 1#8 }

/-- The destinations of a multicast whose landing is still to end. -/
def Cmd.dests (c : Cmd) : List (Nat × Nat × Nat) :=
  c.pieces.foldl (fun ds p => match p.dest with
    | some d => if ds.contains d then ds else ds ++ [d]
    | none => ds) []

/-- A command ends with an error: nothing more lands (R263). The folds of a multicast's open landings fail with it
(log 31). -/
def State.failCmd (s : State) (core : Nat) (c : Cmd) (code : BitVec 3) : State :=
  c.dests.foldl (fun t d => t.modFold d.2.1 d.2.2 fun y => { y.fail code with infl := y.infl - 1#8 })
    ((s.dropCmd core c).modFold c.team c.fold fun y => y.fail code)

/-- A piece has landed: what its folds count, and whether the command is complete. -/
def State.countPiece (s : State) (core : Nat) (c : Cmd) (p : Piece) (rest : List Piece) : State :=
  let s := s.modCmd core c.id fun x => { x with pieces := rest }
  let s := match p.dstLine with
    | some l => if rest.any fun q => q.dstLine == some l then s else s.releaseClaims c.id [l]
    | none => s
  let s := match p.dest with
    | none =>
      s.modFold c.team c.fold fun y =>
        y.land p.n (if p.row.isSome && !rest.any (fun q => q.row == p.row) then 1 else 0)
    | some d =>
      let t := s.modFold d.2.1 d.2.2 fun y => y.land p.n 0
      if rest.any fun q => q.dest == some d then t
      else
        (t.modFold d.2.1 d.2.2 fun y => { y with infl := y.infl - 1#8 }).modFold c.team c.fold fun y =>
          y.land ((c.mcast.getD []).getD 0 0) 0
  if rest = [] then s.dropCmd core c else s

/-- Does a move of a command wait for an earlier word of its warp on the same fold (R223, R271)? -/
def State.behindFold (s : State) (core : Nat) (c : Cmd) : Bool := s.behindWord core c.slot c.team c.fold c.word

/-- A landing of one piece, once its line's claim has reached the home. -/
def State.landPiece (s : State) (core : Nat) (c : Cmd) (p : Piece) (rest : List Piece) (bs : List Byte) : State :=
  let ctx := c.team / 64
  match p.dst with
  | .mem key =>
    let line := lineOf key
    if c.late.contains line then
      if s.mayClaim core c.id line (unreadOf c.pieces) then
        (s.claim core c.id line).modCmd core c.id fun x => { x with late := x.late.filter fun l => l != line }
      else s
    else if s.writeWaits core c.id line then s
    else
      let t := s.engineWrite ctx core c.hint key bs
      let t := if keyIsHost key then t else t.modLine (lineOf key) fun x => { x with swz := BitVec.ofNat 3 c.swz }
      t.countPiece core c p rest
  | .scr team off => (s.putScratch team off bs).countPiece core c p rest

/-- Does the read of a source wait? -/
def State.sourceWaits (s : State) (core id : Nat) (x : Loc) : Bool :=
  match x with
  | .mem key => s.readWaits core id (lineOf key)
  | .scr .. => false

/-- A read of one piece's source, for every piece of the command that has the same (R267). -/
def State.readPiece (s : State) (core : Nat) (c : Cmd) (p : Piece) : State :=
  let bs := s.bytesOf p.src p.n
  let t := match p.src with
    | .mem key => s.engineRead (c.team / 64) core c.hint key p.n
    | .scr .. => s
  if s.sourceWaits core c.id p.src then s
  else t.modCmd core c.id fun x =>
    { x with pieces := x.pieces.map fun q => if q.src = p.src ∧ q.n = p.n ∧ q.got = none then { q with got := some bs } else q }

/-- SKIDDER_LANDING (R254): a piece of a command is read from its source or, once read, lands. good is false where the
host link answers with an error (R263, code 4). -/
def execSkidderLanding (core cmd piece : Nat) (good : Bool) (s : State) : Host.Outcome State Fault Refusal :=
  match (s.core core).cmds.find? fun c => c.id == cmd with
  | none => .next s
  | some c =>
    if (c.mcast.isSome ∧ c.pieces.all (fun p => p.dest.isNone)) ∨ s.behindFold core c then .next s
    else
      match c.pieces[piece]? with
      | none => .next s
      | some p =>
        match p.got with
        | none =>
          if s.badBytes (c.team / 64) p.src p.n then .next (s.failCmd core c 1#3)
          else if !good ∧ p.src.host then .next (s.failCmd core c 4#3)
          else .next (s.readPiece core c p)
        | some bs =>
          if !good ∧ p.dst.host then .next (s.failCmd core c 4#3)
          else .next (s.landPiece core c p (c.pieces.eraseIdx piece) bs)

/-! ## Multicast (R267, R268) -/

/-- The port team of a core for a context: of its teams, resident or saved, with warp 0 there, the lowest (R359). -/
def State.portTeam (s : State) (ctx core : Nat) : Option Nat :=
  (List.range 64).find? fun t =>
    let x := s.team (teamKey ctx t)
    x.life != .absent && x.cores.headD 512 == core

/-- The core that a multicast's cluster position names. -/
def mcastCore (die d1 d2 i : Nat) : Nat :=
  let q := d1 / 65536 % 4
  (die * 64 + (4 * (q / 2) + i / 4) * 8 + 4 * (q % 2) + i % 4) * 2 + d2 / 64 % 2

/-- The destination at a cluster position: team key and fold, or a miss. -/
def State.mcastDest (s : State) (ctx die : Nat) (vs : List Nat) (i : Nat) : Option (Nat × Nat × Nat) :=
  match s.portTeam ctx (mcastCore die (vs.getD 1 0) (vs.getD 2 0) i) with
  | none => none
  | some t =>
    let tk := teamKey ctx t
    let fold := vs.getD 2 0 % 64
    if (s.team tk).life = .live ∧ (s.fold tk fold).state ≠ 0#2 ∧
        vs.getD 3 0 + vs.getD 0 0 ≤ (s.team tk).scratchSize then some (i, tk, fold)
    else none

/-- MULTICAST_REGISTER: the destinations are registered or miss. -/
def execMulticastRegister (core cmd : Nat) (s : State) : Host.Outcome State Fault Refusal :=
  match (s.core core).cmds.find? fun c => c.id == cmd with
  | none => .next s
  | some c =>
    match c.mcast with
    | none => .next s
    | some vs =>
      if c.pieces.any fun p => p.dest.isSome then .next s
      else
        let want := (List.range 16).filter fun i => (vs.getD 1 0).testBit i
        let ds := want.filterMap fun i => s.mcastDest (c.team / 64) (dieOf core) vs i
        let missed := want.filter fun i => !ds.any fun d => d.1 == i
        let ps := ds.flatMap fun d => c.pieces.map fun p =>
          { p with dest := some d
                   dst := match p.dst with
                     | .scr _ o => .scr d.2.1 (vs.getD 3 0 + o)
                     | .mem k => .mem k }
        let t := ds.foldl (fun t d => t.modFold d.2.1 d.2.2 fun y => { y with infl := y.infl + 1#8 }) s
        let t := missed.foldl (fun t i => t.modFold c.team c.fold fun y =>
          { y.land (vs.getD 0 0) 0 with miss := y.miss ||| (1#16 <<< i) }) t
        let t := t.modCmd core cmd fun x => { x with pieces := ps }
        .next (if ps = [] then t.dropCmd core c else t)

/-! ## The fold words -/

/-- A result of fixed latency in an s-register. -/
def State.answer (s : State) (k : Ctl) (d : Operand) (v : Word) : State := s.finish k (writes32 s.me k d fun _ => v) 0#6

/-- FALLOC (R259). -/
def execFalloc (k : Ctl) (f : EFields) (s : State) : Host.Outcome State Fault Refusal :=
  issue s k (.falloc k f) fun s =>
    let w := s.me
    let base := rdU s w f.a
    let size := rdU s w f.b
    let n := f.fold.toNat
    if !w.acts k then s.finish k [] 0#6
    else if (s.fold w.teamKey n).state ≠ 0#2 then s.answer k f.d 1#32
    else if base.toNat % 16 ≠ 0 ∨ size.toNat % 16 ≠ 0 ∨ (s.team w.teamKey).scratchSize < base.toNat + size.toNat then
      s.answer k f.d 2#32
    else
      (s.modFold w.teamKey n fun x =>
        ({ x with abase := base, asize := size
                  consn := BitVec.ofNat 5 (max 1 (f.func.toNat % 32)) } : Fold).refill).answer k f.d 0#32

/-- FFREE (R259). -/
def execFfree (k : Ctl) (f : EFields) (s : State) : Host.Outcome State Fault Refusal :=
  issue s k (.ffree k f) fun s =>
    let w := s.me
    let x := s.fold w.teamKey f.fold.toNat
    if !w.acts k then s.finish k [] 0#6
    else if x.state = 0#2 then s.answer k f.d 1#32
    else if x.infl ≠ 0#8 then s.answer k f.d 2#32
    else (s.modFold w.teamKey f.fold.toNat fun _ => {}).answer k f.d 0#32

/-- FSTATE (R262). -/
def execFstate (k : Ctl) (f : EFields) (s : State) : Host.Outcome State Fault Refusal :=
  issue s k (.fstate k f) fun s =>
    let x := s.fold s.me.teamKey f.fold.toNat
    s.answer k f.d
      (match f.func.toNat with
       | 0 => x.status
       | 1 => x.arrb
       | 2 => x.arrr
       | _ => x.high)

/-- What an FWAIT form does once its wait is over (R261): offs are .ld's lanes and offsets. -/
def State.fwaitDone (s : State) (f : EFields) (offs : List (Nat × Nat)) : State :=
  let tk := s.me.teamKey
  match f.func.toNat with
  | 1 =>
    s.modMe fun w => w.putMany (offs.map fun x => (vKey (regNum f.d) x.1, BitVec.ofNat 32 (s.scratchRead tk x.2 4)))
  | 2 => s.modFold tk f.fold.toNat Fold.release
  | _ => s

/-- .ld's lanes and offsets (R261). -/
def fwaitOffsets (s : State) (w : Warp) (k : Ctl) (f : EFields) (x : Fold) : List (Nat × Nat) :=
  if f.func = 1#16 then (dstLanes w k).map fun l => (l, x.abase.toNat + 4 * (rd s w f.a l).toNat) else []

/-- Nothing holds back the reads of .ld (R114, R202, R226). -/
def State.fwaitClear (s : State) (offs : List (Nat × Nat)) : Bool := offs.all fun y => s.me.scratchSpan s.nextId y.2 4

/-- FWAIT (R261). -/
def execFwait (k : Ctl) (f : EFields) (s : State) : Host.Outcome State Fault Refusal :=
  issue s k (.fwait k f) fun s =>
    let w := s.me
    let n := f.fold.toNat
    let x := s.fold w.teamKey n
    if !w.acts k then s.finish k [] 0#6
    else
      match s.foldTrap k n x with
      | some t => s.takeTrap t
      | none =>
        let offs := fwaitOffsets s w k f x
        match failTrap (offs.map fun y =>
            (⟨y.1, 0, BitVec.ofNat 64 y.2⟩, if y.2 + 4 ≤ x.abase.toNat + x.asize.toNat then none else some (7, 5))) with
        | some t => s.takeTrap t
        | none =>
          if x.met then if s.fwaitClear offs then (s.fwaitDone f offs).finish k [] 0#6 else s
          else
            let c := w.captured k (.fwait k f) (offs.flatMap fun y => [y.1, y.2])
            s.modMe fun w => { w.sleepIn k.sw (.fwait n f.func.toNat) s.tick with req := some c }

/-- A warp asleep in FWAIT wakes: it does what its form says, or reports the fold's error at the word (R261). -/
def State.wakeFwait (s : State) (n : Nat) : State :=
  let x := s.fold s.me.teamKey n
  match s.me.req with
  | some c =>
    match c.instr with
    | .fwait k f =>
      match s.foldTrap k n x with
      | some t => s.takeTrap t
      | none =>
        let offs := (groupsOf 2 c.vals.length c.vals).map fun y => (y.getD 0 0, y.getD 1 0)
        if s.fwaitClear offs then (s.fwaitDone f offs).modMe fun w => { w with req := none }.wake else s
    | _ => s
  | none => s

/-- BXPECT and RXPECT (R260). -/
def State.expectWord (s : State) (k : Ctl) (f : EFields) (rows : Bool) : State :=
  let w := s.me
  let n := f.fold.toNat
  let x := s.fold w.teamKey n
  if !w.acts k then s.finish k [] 0#6
  else if f.func = 0#16 then (s.modFold w.teamKey n fun x => x.expect rows (rdU s w f.a)).finish k [] 0#6
  else
    match s.foldTrap k n x with
    | some t => s.takeTrap t
    | none =>
      let y := x.expect rows (rdU s w f.a)
      let t := s.modFold w.teamKey n fun _ => y
      if y.met then t.finish k [] 0#6 else t.modMe fun w => w.sleepIn k.sw (.xpect n) s.tick

/-- BXPECT (R260). -/
def execBxpect (k : Ctl) (f : EFields) (s : State) : Host.Outcome State Fault Refusal :=
  issue s k (.bxpect k f) fun s => s.expectWord k f false

/-- RXPECT (R260). -/
def execRxpect (k : Ctl) (f : EFields) (s : State) : Host.Outcome State Fault Refusal :=
  issue s k (.rxpect k f) fun s => s.expectWord k f true

/-- Every engine command of a warp that it issued before is complete (R272). -/
def State.engineIdle (s : State) (core slot : Nat) : Bool :=
  !((s.core core).cmds.any fun c => c.slot == slot) && !((s.core core).eng.any fun e => e.slot == slot)

/-- CFENCE (R272). -/
def execCfence (k : Ctl) (f : EFields) (s : State) : Host.Outcome State Fault Refusal :=
  issue s k (.cfence k f) fun s =>
    if !s.me.acts k ∨ s.engineIdle (keyCore s.cur) (keySlot s.cur) then s.finish k [] 0#6
    else s.modMe fun w => w.sleepIn k.sw (.cfence s.nextId) s.tick

/-- YIELD (R275). -/
def execYield (k : Ctl) (f : EFields) (s : State) : Host.Outcome State Fault Refusal :=
  issue s k (.yield k f) fun s =>
    let w := s.me
    let target := relTarget w.pc (f.func.signExtend 32)
    if !w.acts k then s.modMe fun w => w.fallThrough k.sw
    else if (s.fold w.teamKey f.fold.toNat).met then s.transfer k target id
    else
      match targetTrap s (w.eff k) target with
      | some t => s.takeTrap t
      | none => s.modMe fun w => { w.sleepIn k.sw (.yield f.fold.toNat) s.tick with resume := target }

/-! ## Streams (R273, R274) -/

def State.modStream (s : State) (team n : Nat) (g : Stream → Stream) : State :=
  s.modTeam team fun t => { t with streams := tmod {} t.streams n g }

/-- One slot is popped: where it stands, and the stream after it. -/
def Stream.pop (x : Stream) : Dword × Stream :=
  (x.base + BitVec.ofNat 64 (x.stride.toNat * x.head.toNat),
   { x with head := BitVec.ofNat 8 ((x.head.toNat + 1) % x.slots.toNat), count := x.count - 1#8 })

/-- One slot is pushed. -/
def Stream.push (x : Stream) : Stream :=
  { x with tail := BitVec.ofNat 8 ((x.tail.toNat + 1) % x.slots.toNat), count := x.count + 1#8 }

/-- SPOP's effect where a slot is filled. -/
def State.popStream (s : State) (n : Nat) (d : Operand) : State :=
  let tk := s.me.teamKey
  let r := ((s.team tk).stream n).pop
  (s.modStream tk n fun _ => r.2).modMe fun w => w.putSPair (regNum d) r.1

/-- SPOP (R274). -/
def execSpop (k : Ctl) (f : EFields) (s : State) : Host.Outcome State Fault Refusal :=
  issue s k (.spop k f) fun s =>
    let w := s.me
    let n := f.func.toNat
    if !w.acts k then s.finish k [] 0#6
    else if ((s.team w.teamKey).stream n).count ≠ 0#8 then (s.popStream n f.d).finish k [] 0#6
    else s.modMe fun w => { w.sleepIn k.sw (.spop n) s.tick with req := some (w.captured k (.spop k f) []) }

/-- A warp asleep in SPOP takes a slot. -/
def State.wakeSpop (s : State) (n : Nat) : State :=
  match s.me.req with
  | some c =>
    match c.instr with
    | .spop _ f => (s.popStream n f.d).modMe fun w => { w with req := none }.wake
    | _ => s
  | none => s

/-- SPUSH (R273, R274): a push that succeeds is a release, so it waits until the warp's earlier accesses have performed
(log 27). -/
def execSpush (k : Ctl) (f : EFields) (s : State) : Host.Outcome State Fault Refusal :=
  issue s k (.spush k f) fun s =>
    let w := s.me
    let n := f.func.toNat % 8
    let x := (s.team w.teamKey).stream n
    if !w.acts k then s.finish k [] 0#6
    else if bit16 f.func 3 then
      let b := rdU s w f.b
      if b.extractLsb' 24 8 = 0#8 then s.takeTrap (illegal w k (.spush k f))
      else
        (s.modStream w.teamKey n fun _ =>
          { base := rdU64 s w f.a, stride := b.setWidth 24, slots := b.extractLsb' 24 8 }).finish k [] 0#6
    else if x.count = x.slots then s.answer k f.d 1#32
    else if w.stq ≠ [] ∨ w.outs.any fun o => s.pending s.cur o.id then s
    else (s.modStream w.teamKey n Stream.push).answer k f.d 0#32

end Sys2Proof.Machine
end

