-- ==== Sys2Proof/Machine/Lanes.lean ====
section
/-! DEFINITION. The cross-lane words (R157 to R171). Their results are outstanding until they are written (R55). -/

namespace Sys2Proof.Machine

/-- Writes of a 32-bit or 64-bit result by lane. -/
def writesLane (w : Warp) (k : Ctl) (d : Operand) (pair : Bool) (g : Nat → Nat) : List (Nat × Word) :=
  if pair then writes64 w k d fun l => BitVec.ofNat 64 (g l) else writes32 w k d fun l => BitVec.ofNat 32 (g l)

/-- Writes of an optional predicate field. -/
def writesPredOpt (w : Warp) (k : Ctl) (o : Operand) (g : Nat → Bool) : List (Nat × Word) :=
  match o with
  | .v n => writesPred w k n.val g
  | _ => []

/-- The bits of a lane's register or pair. -/
def laneBits (s : State) (w : Warp) (ty : Nat) (o : Operand) (l : Nat) : Nat :=
  if wide ty = 2 then (rd64 s w o l).toNat else (rd s w o l).toNat

/-- A cross-lane word enters no counter. -/
def State.crossLane (s : State) (k : Ctl) (ws : List (Nat × Word)) (fl : Flags) : State := s.defer k ws fl false false

/-! ## Votes, broadcasts and shuffles -/

/-- VOTE's value (R161). -/
def voteValue (minor : Nat) (ballot e : Mask) : Word :=
  match minor with
  | 0 => ballot
  | 1 => if ballot ≠ 0#32 then 1#32 else 0#32
  | 2 => if ballot = e then 1#32 else 0#32
  | _ => if ballot = 0#32 ∨ ballot = e then 1#32 else 0#32

/-- VOTE (R161). -/
def execVote (k : Ctl) (f : VFields) (s : State) : Host.Outcome State Fault Refusal :=
  issue s k (.vote k f) fun s =>
    let w := s.me
    let e := w.eff k
    let ballot := e &&& maskOf fun m => w.pred (regNum f.a) m != f.mod.getLsbD 0
    s.crossLane k (writes32 w k f.d fun _ => voteValue f.minor.toNat ballot e) 0#6

/-- BCAST (R162). -/
def execBcast (k : Ctl) (f : VFields) (s : State) : Host.Outcome State Fault Refusal :=
  issue s k (.bcast k f) fun s =>
    let w := s.me
    let src : Option Nat := if f.minor = 0#5 then some ((rdU s w f.b).toNat % 32) else (dstLanes w k).head?
    let v := match src with | some l => laneBits s w f.ty.toNat f.a l | none => 0
    s.crossLane k (writesLane w k f.d (f.ty == 3#4) fun _ => v) 0#6

/-- SHFL's source lane and whether the offset was in range (R163). -/
def shflSource (minor seg : Nat) (b l : Nat) : Nat × Bool :=
  let w := 32 / 2 ^ seg
  let i := l % w
  let base := l - i
  match minor with
  | 0 => (base + b % w, true)
  | 1 => if i < b then (l, false) else (base + (i - b), true)
  | 2 => if w ≤ i + b then (l, false) else (base + (i + b), true)
  | _ => (base + (i ^^^ (b % w)), true)

/-- SHFL (R163). -/
def execShfl (k : Ctl) (f : VFields) (s : State) : Host.Outcome State Fault Refusal :=
  issue s k (.shfl k f) fun s =>
    let w := s.me
    let e := w.eff k
    let src (l : Nat) := shflSource f.minor.toNat f.mod.toNat (rd s w f.b l).toNat l
    s.crossLane k
      (writesLane w k f.d (f.ty == 3#4) (fun l => laneBits s w f.ty.toNat f.a (src l).1) ++
        writesPredOpt w k f.c fun l => e.getLsbD (src l).1 && (src l).2) 0#6

/-! ## Reductions, scans and segments (R164 to R166) -/


def redFmt (ty : Nat) : FpFmt := if ty = 6 then fp64 else fp32

def isFpType (ty : Nat) : Bool := ty == 5 || ty == 6

/-- A lane's value as it enters a combination. -/
def redIn (ty : Nat) (bits : Nat) : Int := if isFpType ty then bits else asInt (typeSigned ty) (typeWidth ty) bits

/-- combine (R164). -/
def redCombine (ty op : Nat) (c a : Int) : Int × Flags :=
  if isFpType ty then
    let f := redFmt ty
    match op with
    | 0 =>
      let v := addNum false (f.decode c.toNat) (f.decode a.toNat)
      let y := roundTo f v.1 0 false 0
      (y.1, v.2 ||| y.2)
    | 1 => let p := pickElem f false false c.toNat a.toNat; (p.1, p.2)
    | _ => let p := pickElem f false true c.toNat a.toNat; (p.1, p.2)
  else
    match op with
    | 0 => (c + a, 0#6)
    | 1 => (min c a, 0#6)
    | 2 => (max c a, 0#6)
    | 3 => (redIn ty (lowBits c 64 &&& lowBits a 64), 0#6)
    | 4 => (redIn ty (lowBits c 64 ||| lowBits a 64), 0#6)
    | _ => (redIn ty (lowBits c 64 ^^^ lowBits a 64), 0#6)

/-- The first running value: a signalling NaN is made quiet and sets invalid (R164, R166). -/
def redFirst (ty : Nat) (a : Int) : Int × Flags :=
  if isFpType ty then
    let f := redFmt ty
    let x := f.decode a.toNat
    if x.isSnan then ((roundTo f x.quieten 0 false 0).1, fIV) else (a, 0#6)
  else (a, 0#6)

/-- The running values of a run, with the flags of the value that entered (R164, R166). -/
def runValues (ty op : Nat) : Option Int → List Int → List (Int × Flags)
  | _, [] => []
  | none, a :: as => let c := redFirst ty a; c :: runValues ty op (some c.1) as
  | some c, a :: as => let r := redCombine ty op c a; r :: runValues ty op (some r.1) as

/-- The identity of an op (R164), as an unbounded value or a code. -/
def redIdentity (ty op : Nat) : Int :=
  let w := typeWidth ty
  match op with
  | 1 => if ty = 5 then 0x7F800000 else if ty = 6 then 0x7FF0000000000000
         else if typeSigned ty then (2 ^ (w - 1) : Nat) - 1 else (2 ^ w : Nat) - 1
  | 2 => if ty = 5 then 0xFF800000 else if ty = 6 then 0xFFF0000000000000
         else if typeSigned ty then -(2 ^ (w - 1) : Nat) else 0
  | 3 => -1
  | _ => 0

/-- A running value as it is written: reduced, or clamped under .sat. -/
def redOut (ty : Nat) (sat : Bool) (c : Int) : Nat × Flags :=
  if isFpType ty then (c.toNat, 0#6)
  else if sat then
    let w := typeWidth ty
    let r := if typeSigned ty then satS c w else satU c w
    (lowBits r.1 64, r.2)
  else (lowBits c 64, 0#6)

/-- Width in bits of a reduction's type. -/
def redPair (ty : Nat) : Bool := wide ty == 2

/-- Last element of a list, or d. -/
def lastOr {α : Type} (d : α) : List α → α
  | [] => d
  | [x] => x
  | _ :: xs => lastOr d xs

/-- LRED (R165). -/
def execLred (k : Ctl) (f : VFields) (s : State) : Host.Outcome State Fault Refusal :=
  issue s k (.lred k f) fun s =>
    let w := s.me
    let ty := f.ty.toNat
    let op := f.minor.toNat
    let rs := runValues ty op none ((dstLanes w k).map fun l => redIn ty (laneBits s w ty f.a l))
    let v := redOut ty (f.mod.getLsbD 1) (lastOr (redIdentity ty op) (rs.map Prod.fst))
    let fl := orFlags (rs.map Prod.snd) ||| (if (dstLanes w k).isEmpty then 0#6 else v.2)
    s.crossLane k (writesLane w k f.d (redPair ty) fun _ => v.1) fl

/-- Writes of per-lane results in the lanes of effective. -/
def writesPer (n : Nat) (pair : Bool) (rs : List (Nat × Nat)) : List (Nat × Word) :=
  rs.flatMap fun r =>
    if pair then [(vKey n r.1, BitVec.ofNat 32 r.2), (vKey (n + 1) r.1, BitVec.ofNat 32 (r.2 / 2 ^ 32))]
    else [(vKey n r.1, BitVec.ofNat 32 r.2)]

/-- LSCAN (R165, R166): the exclusive form leaves the last combination out. -/
def execLscan (k : Ctl) (f : VFields) (s : State) : Host.Outcome State Fault Refusal :=
  issue s k (.lscan k f) fun s =>
    let w := s.me
    let ty := f.ty.toNat
    let op := f.minor.toNat
    let ls := dstLanes w k
    let as := ls.map fun l => redIn ty (laneBits s w ty f.a l)
    let excl := f.mod.getLsbD 0
    let rs := runValues ty op none (if excl then as.dropLast else as)
    let vs := (if excl ∧ ls ≠ [] then [redIdentity ty op] else []) ++ rs.map Prod.fst
    let os := vs.map (redOut ty (f.mod.getLsbD 1))
    s.crossLane k (writesPer (regNum f.d) (redPair ty) (ls.zip (os.map Prod.fst)))
      (orFlags (rs.map Prod.snd) ||| orFlags (os.map Prod.snd))

/-- Effective lanes cut into runs at the heads (R165). -/
def runsOf (h : Mask) : List Nat → List (List Nat)
  | [] => []
  | l :: ls =>
    match runsOf h ls with
    | [] => [[l]]
    | r :: rs =>
      match r with
      | [] => [l] :: rs
      | m :: _ => if h.getLsbD m then [l] :: r :: rs else (l :: r) :: rs

/-- SEGRED (R165). -/
def execSegred (k : Ctl) (f : VFields) (s : State) : Host.Outcome State Fault Refusal :=
  issue s k (.segred k f) fun s =>
    let w := s.me
    let ty := f.ty.toNat
    let op := f.minor.toNat
    let scan := f.mod.getLsbD 0
    let outs := (runsOf (rdU s w f.b) (dstLanes w k)).map fun ls =>
      let rs := runValues ty op none (ls.map fun l => redIn ty (laneBits s w ty f.a l))
      let vs := if scan then rs.map Prod.fst else ls.map fun _ => lastOr 0 (rs.map Prod.fst)
      let os := vs.map (redOut ty (f.mod.getLsbD 1))
      (ls.zip (os.map Prod.fst), orFlags (rs.map Prod.snd) ||| orFlags (os.map Prod.snd))
    s.crossLane k (writesPer (regNum f.d) (redPair ty) (outs.flatMap Prod.fst)) (orFlags (outs.map Prod.snd))

/-! ## Row balancing and matching (R167 to R170) -/

/-- The row that holds item t of rows with these lengths, and t's place in it; none beyond the total. -/
def rowAt : List (Nat × Nat) → Nat → Option (Nat × Nat)
  | [], _ => none
  | (row, n) :: rs, t => if t < n then some (row, t) else rowAt rs (t - n)

/-- RBAL (R168). -/
def execRbal (k : Ctl) (f : VFields) (s : State) : Host.Outcome State Fault Refusal :=
  issue s k (.rbal k f) fun s =>
    let w := s.me
    let ls := dstLanes w k
    let rows := ls.map fun m => (m, (rd s w f.a m).toNat)
    let b := (rdU s w f.b).toNat
    s.crossLane k (writesPer (regNum f.d) true (ls.map fun l =>
      (l, match rowAt rows (b + indexOf l ls) with
          | some (o, x) => o + 2 ^ 32 * (x % 2 ^ 32)
          | none => 0xFFFFFFFF))) 0#6

/-- RWALK (R169). -/
def execRwalk (k : Ctl) (f : VFields) (s : State) : Host.Outcome State Fault Refusal :=
  issue s k (.rwalk k f) fun s =>
    let w := s.me
    let rows := lanes.map fun i => (i, (rd s w f.a i).toNat)
    let total := (rows.map Prod.snd).foldl (· + ·) 0
    let e := (rdU s w f.b).toNat
    let at' (l : Nat) : Nat × Nat × Bool :=
      match rowAt rows (e + l) with
      | some (i, x) => (i, x, x == 0)
      | none => (32, e + l - total, false)
    s.crossLane k
      (writesPer (regNum f.d) true ((dstLanes w k).map fun l => (l, (at' l).1 + 2 ^ 32 * ((at' l).2.1 % 2 ^ 32))) ++
        writesPredOpt w k f.c fun l => (at' l).2.2) 0#6

/-- MATCH (R170). -/
def execMatchv (k : Ctl) (f : VFields) (s : State) : Host.Outcome State Fault Refusal :=
  issue s k (.matchv k f) fun s =>
    let w := s.me
    let e := w.eff k
    let same (l : Nat) : Mask := e &&& maskOf fun m => laneBits s w f.ty.toNat f.a m == laneBits s w f.ty.toNat f.a l
    s.crossLane k (writes32 w k f.d same ++ writesPredOpt w k f.c fun l => same l == e) 0#6

end Sys2Proof.Machine
end

