-- ==== Sys2Proof/Machine/Matrix.lean ====
section
/-! DEFINITION. The matrix words (R278 to R304): windows and tiles, acceptance and the tile fetch unit, the order of
accumulation (R100 to R102), accumulator access, codebooks, scales, batches, and the pruning of COMP48. -/

namespace Sys2Proof.Machine

/-! ## Windows and tiles -/

/-- The window of a warp; an empty one where it has none. -/
def Warp.win (w : Warp) : Window := w.window.getD { slot := 0 }

def Warp.modWin (w : Warp) (g : Window → Window) : Warp := { w with window := w.window.map g }

/-- Element (i, j) of tile qN (R278). -/
def tileKey (q i j : Nat) : Nat := 1024 * q + 32 * i + j

def Window.elem (x : Window) (q i j : Nat) : Word := tget 0#32 x.tiles (tileKey q i j)

def Window.putElems (x : Window) (vs : List (Nat × Word)) : Window := { x with tiles := tsetMany 0#32 x.tiles vs }

/-- An FP64 element in the pair q, q + 1 (R278). -/
def Window.elem64 (x : Window) (q i j : Nat) : Dword := joinWords (x.elem q i j) (x.elem (q + 1) i j)

/-- The tiles that an engine word names. -/
def wordTiles (i : Instr) (fmt : Word) : List Nat :=
  let pair (q : Nat) (d : Bool) : List Nat := if d then [q, q + 1] else [q]
  let wide := match matFmt (fmtA fmt) with | some x => x.cls == 64 | none => false
  match i with
  | .mma _ f => pair f.q.toNat wide
  | .mmas _ f => pair f.q.toNat wide
  | .mmasp _ f => [f.q.toNat]
  | .acvt _ f => [f.q.toNat]
  | .fact _ f => pair f.q.toNat (bit16 f.func 4)
  | .trsl _ f => pair f.q.toNat (bit16 f.func 9) ++ pair (f.func.extractLsb' 0 4).toNat (bit16 f.func 9)
  | _ => []

/-- Accepted words of a warp that are not complete. -/
def State.wordsOf (s : State) (core slot : Nat) : List EngWord := (s.core core).eng.filter fun e => e.slot == slot

/-- An earlier word of the warp still has to read or write a tile (R293). -/
def State.tileBusy (s : State) (core slot : Nat) (qs : List Nat) : Bool :=
  (s.wordsOf core slot).any fun e => e.stage != .landing && (wordTiles e.word.instr e.word.fmt).any qs.contains

/-- An earlier word of the warp on a tile is not complete (R294, R297). -/
def State.tileOpen (s : State) (core slot : Nat) (qs : List Nat) : Bool :=
  (s.wordsOf core slot).any fun e => (wordTiles e.word.instr e.word.fmt).any qs.contains

/-- Closed batches of a warp with words that are not complete: the batch counter (R297). -/
def State.openBatches (s : State) (core slot : Nat) (bseq : Word) : List Nat :=
  distinct (((s.wordsOf core slot).filter fun e => e.batch != bseq).map fun e => e.batch.toNat)

/-! ## The words at issue -/

/-- An engine word waits to be accepted (R285). -/
def State.startEngine (s : State) (k : Ctl) (i : Instr) (vals : List Nat) : State :=
  s.modMe fun w => { w with status := .accepting, running := false, req := some (w.captured k i vals) }

/-- Register values that a matrix word reads at issue: addresses of A and B, their layout words, then the metadata. -/
def matrixVals (s : State) (w : Warp) (f : XFields) (meta' : Nat) : List Nat :=
  [(w.getSPair f.ap.toNat).toNat, (w.getSPair f.bp.toNat).toNat, (w.getS f.lp.toNat).toNat, (w.getS (f.lp.toNat + 1)).toNat] ++
    lanes.flatMap fun l => (List.range meta').map fun i => (rd s w (vReg (f.mt.toNat + i)) l).toNat

/-- A collective word: with an empty effective mask it does nothing (R282). -/
def State.collective (s : State) (k : Ctl) (act : State → State) : State :=
  if s.me.eff k = 0#32 then s.finish k [] 0#6 else act s

/-- MMA (R288). -/
def execMma (k : Ctl) (f : XFields) (s : State) : Host.Outcome State Fault Refusal :=
  issue s k (.mma k f) fun s => s.collective k fun s => s.startEngine k (.mma k f) (matrixVals s s.me f 0)

/-- MMAS (R288). -/
def execMmas (k : Ctl) (f : XFields) (s : State) : Host.Outcome State Fault Refusal :=
  issue s k (.mmas k f) fun s => s.collective k fun s => s.startEngine k (.mmas k f) (matrixVals s s.me f 0)

/-- K of the class of FMT.AFMT. -/
def kOfFmt (fmt : Word) : Nat :=
  match matFmt (fmtA fmt) with
  | some x => kOfClass x.cls
  | none => 0

/-- MMASP (R288, R299): its metadata is read at issue, in all lanes. -/
def execMmasp (k : Ctl) (f : XFields) (s : State) : Host.Outcome State Fault Refusal :=
  issue s k (.mmasp k f) fun s => s.collective k fun s =>
    s.startEngine k (.mmasp k f) (matrixVals s s.me f (kOfFmt s.me.fmt / 8))

/-- Bytes of one row that ACVT writes (R296). -/
def acvtRow (fmt : Word) : Nat :=
  match matFmt (fmtA fmt) with
  | some x => 32 * elemBits x.elem / 8
  | none => 128

/-- ACVT (R296): destination, factor and row stride. -/
def execAcvt (k : Ctl) (f : XFields) (s : State) : Host.Outcome State Fault Refusal :=
  issue s k (.acvt k f) fun s => s.collective k fun s =>
    let w := s.me
    let stride := (w.getS (f.bp.toNat + 1)).toNat
    let rb := acvtRow w.fmt
    if stride ≠ 0 ∧ (stride % 16 ≠ 0 ∨ stride < rb) then s.takeTrap (illegal w k (.acvt k f))
    else
      s.startEngine k (.acvt k f)
        [if bit16 f.func 1 then (w.getS f.ap.toNat).toNat else (w.getSPair f.ap.toNat).toNat,
         if bit16 f.func 0 then (w.getS f.bp.toNat).toNat else 0x3F800000, if stride = 0 then rb else stride]

/-- ACLR (R295). -/
def execAclr (k : Ctl) (f : XFields) (s : State) : Host.Outcome State Fault Refusal :=
  issue s k (.aclr k f) fun s => s.collective k fun s =>
    let q := f.q.toNat
    let qs := if bit16 f.func 0 then [q, q + 1] else [q]
    if s.tileBusy (keyCore s.cur) (keySlot s.cur) qs then s
    else
      (s.modMe fun w => w.modWin fun x =>
        { x with tiles := x.tiles.filter fun e => !qs.contains (e.1 / 1024) }).finish k [] 0#6

/-- The fields of ARD and AWR (R294): tile, count, .col and .d64. -/
structure TileAccess where
  q : Nat
  n : Nat
  col : Bool
  d64 : Bool
  deriving DecidableEq, Repr

def tileAccess (f : BitVec 16) : TileAccess :=
  { q := (f.extractLsb' 0 4).toNat, n := 2 ^ (f.extractLsb' 4 2).toNat, col := bit16 f 6, d64 := bit16 f 7 }

def TileAccess.tiles (x : TileAccess) : List Nat := if x.d64 then [x.q, x.q + 1] else [x.q]

/-- Register offset and tile element of every part of lane l's access from index i on (R294). -/
def TileAccess.parts (x : TileAccess) (i l : Nat) : List (Nat × Nat) :=
  (List.range x.n).flatMap fun m =>
    let r := (i + m) % 32
    let key (q : Nat) : Nat := if x.col then tileKey q l r else tileKey q r l
    if x.d64 then [(2 * m, key x.q), (2 * m + 1, key (x.q + 1))] else [(m, key x.q)]

/-- ARD (R294): its result is outstanding, and it enters no counter. It comes no earlier than the warp's earlier words on its
tiles are complete. -/
def execArd (k : Ctl) (f : EFields) (s : State) : Host.Outcome State Fault Refusal :=
  issue s k (.ard k f) fun s =>
    let w := s.me
    let x := tileAccess f.func
    let i := (rdU s w f.a).toNat % 32
    if dstLanes w k = [] then s.finish k [] 0#6
    else if s.tileOpen (keyCore s.cur) (keySlot s.cur) x.tiles then s
    else
      s.defer k ((dstLanes w k).flatMap fun l => (x.parts i l).map fun p =>
        (vKey (regNum f.d + p.1) l, tget 0#32 w.win.tiles p.2)) 0#6 false false

/-- AWR (R295). -/
def execAwr (k : Ctl) (f : EFields) (s : State) : Host.Outcome State Fault Refusal :=
  issue s k (.awr k f) fun s =>
    let w := s.me
    let x := tileAccess f.func
    let i := (rdU s w f.b).toNat % 32
    if s.tileBusy (keyCore s.cur) (keySlot s.cur) x.tiles then s
    else
      (s.modMe fun w => w.modWin fun y => y.putElems ((dstLanes w k).flatMap fun l => (x.parts i l).map fun p =>
        (p.2, w.getV (regNum f.a + p.1) l))).finish k [] 0#6

/-! ## COMP48 (R301) -/

/-- Does magnitude a outrank b? -/
def outranks (a b : Num) : Bool :=
  if a.isNan then !b.isNan else if b.isNan then false else cmpNum a.abs b.abs == some .gt

/-- The places that a group of eight keeps, ascending. -/
def keptPlaces (xs : List Num) : List Nat :=
  let x (i : Nat) : Num := xs.getD i (.fin false 0 0)
  (List.range 8).filter fun p =>
    decide (((List.range 8).filter fun q => outranks (x q) (x p) || (!outranks (x p) (x q) && decide (q < p))).length < 4)

/-- The code of a group (R299). -/
def groupCode (ps : List Nat) : Nat := packElems 3 ps

/-- One lane of COMP48: D and D + 1. -/
def comp48Lane (e : Elem) (hi : Bool) (a b old : Nat) : Word × Word :=
  let eb := elemBits e
  let code (x i : Nat) : Nat := elemAt x eb i % 2 ^ elemCodeBits e
  let prune (cs : List Nat) : Nat × Nat :=
    let ps := keptPlaces (cs.map fun c => elemValue e none false c)
    (packElems eb (ps.map fun p => cs.getD p 0), groupCode ps)
  if eb = 4 then
    let x := prune ((List.range 8).map (code a))
    let y := prune ((List.range 8).map (code b))
    (BitVec.ofNat 32 (x.1 + y.1 * 65536), BitVec.ofNat 32 (x.2 + y.2 * 4096))
  else
    let x := prune ((List.range 4).map (code a) ++ (List.range 4).map (code b))
    (BitVec.ofNat 32 x.1, BitVec.ofNat 32 (if hi then old % 4096 + x.2 * 4096 else x.2))

/-- COMP48. -/
def execComp48 (k : Ctl) (f : VFields) (s : State) : Host.Outcome State Fault Refusal :=
  issue s k (.comp48 k f) fun s =>
    let w := s.me
    let e : Elem := if f.ty = 13#4 then .int true 8 else if f.ty = 12#4 then .int false 8
      else (packElem (fmtA w.fmt)).getD (.int true 8)
    s.finish k ((dstLanes w k).flatMap fun l =>
      let r := comp48Lane e (f.mod == 1#4) (rd s w f.a l).toNat (rd s w f.b l).toNat (w.getV (regNum f.d + 1) l).toNat
      [(vKey (regNum f.d) l, r.1), (vKey (regNum f.d + 1) l, r.2)]) 0#6

/-! ## CBLD, XVSET, SCLB, MBAT and BWAIT -/

/-- CBLD (R291): a plain load of 32 bytes into a codebook slot. -/
def execCbld (k : Ctl) (f : XFields) (s : State) : Host.Outcome State Fault Refusal :=
  issue s k (.cbld k f) fun s =>
    let w := s.me
    if !w.acts k then s.finish k [] 0#6
    else
      match s.lanePlaces w {} [⟨0, 0, w.getSPair f.ap.toNat⟩] 32 32 needR (fun _ => none) with
      | .error t => s.takeTrap { t with mask := w.eff k }
      | .ok ps =>
        match poisonTrap s (w.eff k) 32 ps with
        | some t => s.takeTrap t
        | none =>
          let own := s.nextId
          let ops := ps.map fun p =>
            ({ lane := 0, key := p.2.key, n := 32, op := .load false
               dst := (List.range 8).map fun i => bookKey f.func.toNat i } : LaneOp)
          let s := (s.noteAll w {} (ps.map Prod.fst) 32).fresh
          let s := (s.modMe fun w => w.addOut { id := own, tgts := tgtsOf ops }).advance k
          s.eachLine ps ops fun t line os p => t.loadLine (viaOf own 0 0 0 0 p true) line os

/-- XVSET (R292). -/
def execXvset (k : Ctl) (f : VFields) (s : State) : Host.Outcome State Fault Refusal :=
  issue s k (.xvset k f) fun s =>
    if s.me.acts k then (s.modMe fun w => { w with xv := rdU s w f.a }).finish k [] 0#6 else s.finish k [] 0#6

/-- SCLB (R290). -/
def execSclb (k : Ctl) (f : XFields) (s : State) : Host.Outcome State Fault Refusal :=
  issue s k (.sclb k f) fun s =>
    if s.me.acts k then
      (s.modMe fun w =>
        let c : Scale := { sbase := w.getSPair f.ap.toNat, dbase := w.getSPair f.bp.toNat, shift := f.func.extractLsb' 1 4 }
        w.modWin fun x => if bit16 f.func 0 then { x with scaleB := c } else { x with scaleA := c }).finish k [] 0#6
    else s.finish k [] 0#6

/-- MBAT (R297). -/
def execMbat (k : Ctl) (f : EFields) (s : State) : Host.Outcome State Fault Refusal :=
  issue s k (.mbat k f) fun s =>
    let w := s.me
    let n := w.win.bseq
    let core := keyCore s.cur
    let slot := keySlot s.cur
    if !w.acts k then s.finish k [] 0#6
    else if 15 ≤ (s.openBatches core slot n).length ∧ (s.wordsOf core slot).any (fun e => e.batch == n) then s
    else (s.modMe fun w => w.modWin fun x => { x with bseq := n + 1#32 }).answer k f.d n

/-- Batch n and every batch closed before it are complete (R298). -/
def State.batchDone (s : State) (core slot : Nat) (n : Word) : Bool :=
  !(s.wordsOf core slot).any fun e => decide ((n - e.batch).toNat < 2 ^ 31)

/-- BWAIT (R298). -/
def execBwait (k : Ctl) (f : EFields) (s : State) : Host.Outcome State Fault Refusal :=
  issue s k (.bwait k f) fun s =>
    let w := s.me
    let n := rdU s w f.a
    if !w.acts k then s.finish k [] 0#6
    else if (n - w.win.bseq).toNat < 2 ^ 31 then s.takeTrap (illegal w k (.bwait k f))
    else if s.batchDone (keyCore s.cur) (keySlot s.cur) n then s.finish k [] 0#6
    else s.modMe fun w => w.sleepIn k.sw (.bwait n) s.tick

/-! ## Elements of a tile (R82 to R88, R283) -/

/-- n bits of a byte string from bit position pos on. -/
def fieldAt (bs : List Byte) (pos n : Nat) : Nat := leNat ((bs.drop (pos / 8)).take 9) / 2 ^ (pos % 8) % 2 ^ n

/-- Width of an element in a K-major row (R82). -/
def rowBits : Elem → Nat
  | .fp f => if f.width = 6 then 6 else elemBits (.fp f)
  | e => elemBits e

/-- Element k of row r of a tile: for a B that is N-major, element (k, r) (R283). -/
def tileCode (e : Elem) (bs : List Byte) (nmaj half : Bool) (r k : Nat) : Nat :=
  let k := if half then k + 128 else k
  let n := elemCodeBits e
  if nmaj then fieldAt bs (k * 32 * elemBits e + elemBits e * r) n else fieldAt bs (512 * r + rowBits e * k) n

/-- NaNs of narrow formats are quiet (R102). -/
def quietNarrow (e : Elem) (x : Num) : Num :=
  match e with
  | .fp f => if f.narrow then x.quieten else x
  | _ => x.quieten

/-- A block-scaled element (R79, R80, R84). -/
def scaled (kind : ScaleKind) (c : Nat) (x : Num) : Num :=
  match kind with
  | .none => x
  | .e8m0 =>
    if c = 255 then defaultNan
    else match x with
      | .fin n m e => .fin n m (e + (c : Int) - 127)
      | y => y
  | .e4m3 =>
    match e4m3.decode c with
    | .nan .. => defaultNan
    | y => if y.isZero then .fin (x.neg? != y.neg?) 0 0 else if x.isNan then x else (mulNum x y).1

/-- An operand of an accepted word: everything that decoding it reads. -/
structure Opnd where
  fmt : MatFmt
  bytes : List Byte
  nmaj : Bool
  half : Bool
  book : List (BitVec 16)
  xv : Option Word
  scales : Tbl Byte
  /-- where the tile's scale numbers begin: 0, or 128 for the second tile of an MMASP -/
  first : Nat
  useScale : Bool
  deriving DecidableEq, Repr

/-- Element k of row r, decoded (R85, R88, R92: matrix operands are never flushed). -/
def Opnd.value (x : Opnd) (r k : Nat) : Num :=
  let u := tileCode x.fmt.elem x.bytes x.nmaj x.half r k
  let v := match x.fmt.elem with
    | .book _ => bf16.decode (x.book.getD u 0#16).toNat
    | e => elemValue e x.xv false u
  let v := quietNarrow x.fmt.elem v
  if x.useScale then scaled x.fmt.scale (tget 0#8 x.scales (256 * r + x.first + k)).toNat v else v

/-! ## Accumulation (R100 to R102) -/

/-- The exact sum of a group's products, with its flags. -/
def groupSum (ps : List (Num × Flags)) : Num × Flags :=
  let fl := orFlags (ps.map Prod.snd)
  let clash := ps.any (fun p => p.1 == .inf false) && ps.any fun p => p.1 == .inf true
  if clash then (defaultNan, fl ||| fIV)
  else if ps.any fun p => p.1.isNan then (defaultNan, fl)
  else
    match ps with
    | [] => (.fin false 0 0, 0#6)
    | p :: rest => (rest.foldl (fun a q => (addNum false a q.1).1) p.1, fl)

/-- One output element: groups of g products from k on, each rounded once and added under one rounding. Where the
accumulator and the group are both NaN the sum is the accumulator's NaN made quiet: R102 leaves it open (log 83). -/
def accumulate (f : FpFmt) (g : Nat) (prod : Nat → Num × Flags) : Nat → Nat → Nat → Nat × Flags
  | 0, _, acc => (acc, 0#6)
  | fuel + 1, k, acc =>
    let t := groupSum ((List.range g).map fun i => prod (k + i))
    let x := roundTo f t.1 0 false 0
    let y := addNum false (f.decode acc) (f.decode x.1)
    let z := roundTo f y.1 0 false 0
    let r := accumulate f g prod fuel (k + g) z.1
    (r.1, t.2 ||| x.2 ||| y.2 ||| z.2 ||| r.2)

/-- A product, negated under .neg (R288). -/
def productOf (neg : Bool) (a b : Num) : Num × Flags :=
  let p := mulNum a b
  (if neg && !p.1.isNan then p.1.negate else p.1, p.2)

/-- Logical element k of row i of a sparse A (R299): its four kept places by group, zeros elsewhere. -/
def sparseElem (a : Opnd) (meta' : Nat → Nat → Nat) (i k : Nat) : Num :=
  let g := k / 8
  let code := meta' i (g / 2) / 2 ^ (12 * (g % 2)) % 4096
  match (List.range 4).find? fun t => code / 8 ^ t % 8 == k % 8 with
  | some t => a.value i (4 * g + t)
  | none => .fin false 0 0

/-- Metadata register n of lane i, from the values captured at issue. -/
def metaReg (vals : List Nat) (per i n : Nat) : Nat := vals.getD (4 + per * i + n) 0

/-- The lowest row, and in it the lowest group, whose indices do not rise strictly (R300). -/
def badMeta (vals : List Nat) (kk : Nat) : Option (Nat × Nat) :=
  ((List.range 32).flatMap fun i => (List.range (kk / 4)).map fun g => (i, g)).find? fun x =>
    let code := metaReg vals (kk / 8) x.1 (x.2 / 2) / 2 ^ (12 * (x.2 % 2)) % 4096
    let d (t : Nat) : Nat := code / 8 ^ t % 8
    !(decide (d 0 < d 1) && decide (d 1 < d 2) && decide (d 2 < d 3))

/-! ## Acceptance (R285) -/

/-- A layout word (R284): swizzle, orientation and half; it is malformed for a reserved bit, an N-major A, and a HALF
without a CB2 format. -/
def layoutBad (lw fmt : Nat) (isB : Bool) : Bool :=
  decide (32 ≤ lw) || (!isB && lw.testBit 3) || (lw.testBit 4 && !(fmt == 26 || fmt == 27))

/-- The address of a scale byte (R289). -/
def scaleVa (c : Scale) (tile : Dword) (r k cls : Nat) : Dword :=
  let e := tile + BitVec.ofNat 64 (64 * r + k * cls / 8)
  c.sbase + ((e - c.dbase) >>> c.shift.toNat)

/-- Without neighbours that are equal. -/
def dropRuns : List Dword → List Dword
  | [] => []
  | x :: xs =>
    match dropRuns xs with
    | [] => [x]
    | y :: ys => if x = y then y :: ys else x :: y :: ys

/-- Places of addresses, or the first failure. -/
def State.placesAt (s : State) (w : Warp) (need : BitVec 3) (n : Nat) : List Dword → Except Fail (List (Dword × Phys))
  | [] => .ok []
  | a :: as =>
    match s.reach w {} ⟨0, 0, a⟩ n need with
    | .error e => .error ⟨e.1, e.2, a⟩
    | .ok p =>
      match s.placesAt w need n as with
      | .error e => .error e
      | .ok ps => .ok ((a, p) :: ps)

/-- Operands stand in unstriped device memory (R285). -/
def classFail (ps : List (Dword × Phys)) : Option Fail :=
  (ps.find? fun p => p.2.host || leafStripe p.2.entry != 0).map fun p => ⟨8, 3, p.1⟩

/-- A tile that a word needs: its address, first line, swizzle and whether its lines are coherent. -/
structure TileReq where
  va : Dword
  key : Nat
  swz : Nat
  coh : Bool
  /-- the lines of its scale bytes, with an address in each -/
  scales : List (Nat × Dword) := []
  deriving DecidableEq, Repr

/-- What one step of fetching does. -/
inductive Fetch where
  | ready
  | wait
  | fail (kind cause : Nat) (addr : Dword)
  | step (s : State)

def findTile (es : List TileEntry) (t : TileReq) : Option TileEntry := es.find? fun e => e.key == t.key && e.swz == t.swz

def State.modTfu (s : State) (core : Nat) (g : List TileEntry → List TileEntry) : State :=
  s.modCore core fun c => { c with tfu := g c.tfu }

/-- Put an entry in place of the one for the same tile. -/
def putEntry (es : List TileEntry) (e : TileEntry) : List TileEntry :=
  es.map fun x => if x.key = e.key ∧ x.swz = e.swz then e else x

/-- An entry for a tile: a free one, or the place of one that no word keeps, freely chosen (R286). -/
def State.newEntry (s : State) (core slot : Nat) (t : TileReq) : Fetch :=
  let es := (s.core core).tfu
  let e : TileEntry := { key := t.key, swz := t.swz, coh := t.coh, lines := [], want := [slot], pins := 0 }
  let idle := es.filter fun x => !x.kept
  if es.length < 16 then .step (s.modTfu core fun es => es ++ [e])
  else
    match idle[s.free 16 % idle.length]? with
    | some old => .step (s.modTfu core fun es => (es.filter fun x => x != old) ++ [e])
    | none => .wait

/-- A line that fetching still needs: a tile's, one of its scale bytes, or one of the word's own. -/
inductive Need where
  | tile (t : TileReq) (i : Nat)
  | scale (t : TileReq) (line : Nat) (va : Dword)
  | own (line : Nat) (va : Dword)
  deriving DecidableEq, Repr

/-- The bytes of a line of device memory. -/
def State.lineBytes (s : State) (line : Nat) : List Byte := s.bytesAt (line * 128) 128

/-- One line is read, whole, at one point of its coherence order (R222). -/
def State.fetchLine (s : State) (core slot c : Nat) (n : Need) : Fetch :=
  match n with
  | .tile t i =>
    let line := t.key + i
    let x := s.line line
    if s.readWaits core s.nextId line then .wait
    else if x.swz.toNat ≠ t.swz then .fail 9 2 t.va
    else if s.poisonFor c line ≠ 0#32 then .fail 14 1 (t.va + BitVec.ofNat 64 (128 * i))
    else
      match findTile (s.core core).tfu t with
      | none => .wait
      | some e =>
        .step ((s.engineRead c core 0 (line * 128) 128).modTfu core fun es =>
          putEntry es { e with lines := tset [] e.lines i (s.lineBytes line) })
  | .scale t line va =>
    if s.readWaits core s.nextId line then .wait
    else if s.poisonFor c line ≠ 0#32 then .fail 14 1 va
    else
      match findTile (s.core core).tfu t with
      | none => .wait
      | some e =>
        .step ((s.engineRead c core 0 (line * 128) 128).modTfu core fun es =>
          putEntry es { e with scales := tset [] e.scales line (s.lineBytes line) })
  | .own line va =>
    if s.readWaits core s.nextId line then .wait
    else if s.poisonFor c line ≠ 0#32 then .fail 14 1 va
    else
      .step ((s.engineRead c core 0 (line * 128) 128).modWarp (warpKey core slot) fun w =>
        { w with req := w.req.map fun r => { r with got := tset [] r.got line (s.lineBytes line) } })

/-- The next step of fetching a word's tiles and its own lines. -/
def State.fetchStep (s : State) (core slot c : Nat) (got : Tbl (List Byte)) (ts : List TileReq) (ls : List (Nat × Dword)) :
    Fetch :=
  let es := (s.core core).tfu
  match ts.find? fun t => (findTile es t).isNone with
  | some t => s.newEntry core slot t
  | none =>
    match ts.findSome? fun t => (findTile es t).bind fun e => if e.want.contains slot then none else some e with
    | some e =>
      let stale := !e.coh && !e.kept && s.free 17 % 2 == 1
      .step (s.modTfu core fun es =>
        putEntry es { e with want := slot :: e.want, lines := if stale then [] else e.lines, scales := if stale then [] else e.scales })
    | none =>
      let need := (ts.flatMap fun t => ((List.range 16).filter fun i =>
          match findTile es t with
          | some e => !e.lines.any fun x => x.1 == i
          | none => false).map fun i => Need.tile t i) ++
        (ts.flatMap fun t => (t.scales.filter fun l =>
          match findTile es t with
          | some e => !e.scales.any fun x => x.1 == l.1
          | none => false).map fun l => Need.scale t l.1 l.2) ++
        (ls.filter fun l => !got.any fun x => x.1 == l.1).map fun l => Need.own l.1 l.2
      match need[s.free 18 % need.length]? with
      | some n => s.fetchLine core slot c n
      | none => .ready

/-- The word leaves acceptance: nothing is wanted for it any more. -/
def State.leaveAcceptance (s : State) (core slot : Nat) : State :=
  (s.modTfu core fun es => es.map fun e => { e with want := e.want.filter fun x => x != slot }).modWarp (warpKey core slot)
    fun w => { w with req := w.req.map fun r => { r with got := [] } }

/-- A trap at acceptance: precise at the word, and without effect (R285). -/
def State.acceptTrap (s : State) (c : Captured) (kind cause : Nat) (addr : Dword) (info : Word) : State :=
  (s.leaveAcceptance (keyCore s.cur) (keySlot s.cur)).takeTrap { kind, cause, mask := c.exec, addr, info }

/-- A tile's 2,048 bytes in logical order (R284). -/
def State.tileBytes (s : State) (core : Nat) (t : TileReq) : List Byte :=
  match findTile (s.core core).tfu t with
  | none => []
  | some e =>
    let raw := (List.range 16).flatMap fun i => tget [] e.lines i
    if t.swz = 0 then raw
    else (List.range 2048).map fun a => raw.getD (swizzle t.swz (t.va.toNat + a) - t.va.toNat) 0#8

/-- The lines of scale bytes that a tile's entry holds. -/
def State.tileScales (s : State) (core : Nat) (t : TileReq) : Tbl (List Byte) :=
  match findTile (s.core core).tfu t with
  | none => []
  | some e => e.scales

/-- Words that hold the engine (R338). -/
def onEngine : Instr → Bool
  | .patch .. => false
  | .stamp .. => false
  | .hshift .. => false
  | _ => true

/-- The engine has room for one more word: a core holds at most 8 accepted words that are not complete (R287, R303). -/
def State.queueRoom (s : State) (core : Nat) : Bool :=
  decide (((s.core core).eng.filter fun e => onEngine e.word.instr).length < 8)

/-- A word is accepted: it joins the current batch, and the warp goes on (R285, R297). A word whose moves have an order of
their own waits until it may make all its claims at once (R348, log 94). -/
def State.accept (s : State) (c : Captured) (e : EngWord) (ts : List TileReq) : State :=
  let core := keyCore s.cur
  let slot := keySlot s.cur
  let moves := e.pieces != []
  if moves ∧ !e.claims.all fun l => s.mayClaim core s.nextId l e.unread then s else
  let e : EngWord := { e with id := s.nextId, slot, word := { c with got := [] }, batch := s.me.win.bseq
                              pins := ts.map fun t => (t.key, t.swz)
                              late := if moves then [] else s.lateLines core s.nextId e.claims e.unread }
  let s := s.fresh.leaveAcceptance core slot
  let s := s.modCore core fun x =>
    { x with eng := x.eng ++ [e]
             tfu := x.tfu.map fun y => { y with pins := y.pins + (e.pins.filter fun p => p == (y.key, y.swz)).length } }
  ((e.claims.filter fun l => !e.late.contains l).foldl (fun t l => t.claim core e.id l) s).modMe fun w => w.leaveEngine c.ctl.sw

/-- A codebook slot, all 16 entries (R87). -/
def Window.book (x : Window) (slot : Nat) : List (BitVec 16) := (List.range 16).map fun i => tget 0#16 x.books (16 * slot + i)

/-- A CBLD to a slot has not written it yet (R291). -/
def Warp.bookPending (w : Warp) (slot : Nat) : Bool :=
  outstandingKey w fun k => decide (9400 + slot * 8 ≤ k) && decide (k < 9408 + slot * 8)

/-- Does a format decode through a codebook? -/
def usesBook (fmt : Nat) : Bool := decide (24 ≤ fmt) && decide (fmt ≤ 27)

/-- The scale addresses of an operand's tile, by element. -/
def scaleVas (c : Scale) (tile : Dword) (kk cls : Nat) : List (Nat × Nat × Dword) :=
  (List.range 32).flatMap fun r => (List.range kk).map fun k => (r, k, scaleVa c tile r k cls)

/-- A byte of memory from lines that were fetched, at an address whose page is among ps. -/
def gotByte (got : Tbl (List Byte)) (ps : List (Dword × Phys)) (va : Dword) : Byte :=
  match ps.find? fun p => p.1.toNat / 65536 == va.toNat / 65536 with
  | none => 0#8
  | some p =>
    let key := p.2.key - p.1.toNat % 65536 + va.toNat % 65536
    (tget [] got (lineOf key)).getD (key % 128) 0#8

/-- Key of an address whose page is among ps. -/
def keyIn (ps : List (Dword × Phys)) (va : Dword) : Nat :=
  match ps.find? fun p => p.1.toNat / 65536 == va.toNat / 65536 with
  | none => 0
  | some p => p.2.key - p.1.toNat % 65536 + va.toNat % 65536

/-- First addresses of the pages that a list of addresses touches. -/
def firstOfPages : List Dword → List Dword
  | [] => []
  | a :: as => if (firstOfPages as).any fun b => b.toNat / 65536 == a.toNat / 65536 then
      a :: (firstOfPages as).filter fun b => b.toNat / 65536 != a.toNat / 65536
    else a :: firstOfPages as

/-- Does operand side's format have scales that SMODE lets apply, in a word that reads scales (R84, R288)? -/
def readsScale (mmas : Bool) (fmt : Word) (isB : Bool) : Bool :=
  let n := if isB then fmtB fmt else fmtA fmt
  mmas && !((fmtSmode fmt).testBit (if isB then 1 else 0)) &&
    match matFmt n with
    | some x => x.scale != .none
    | none => false

/-- Addresses of a word's tiles: A's, then B's one or two (R285, R299). -/
def Captured.tileVas (c : Captured) (sparse : Bool) : List Dword :=
  let va (i : Nat) : Dword := BitVec.ofNat 64 (c.vals.getD i 0)
  va 0 :: if sparse then [va 1, va 1 + 2048#64] else [va 1]

/-- Row, element and scale address of the elements of an operand's tile; none where no scale applies (R288, R289). -/
def State.tileScaleVas (s : State) (c : Captured) (mmas isB : Bool) (tile : Dword) : List (Nat × Nat × Dword) :=
  let cls := match matFmt (fmtA c.fmt) with | some x => if x.cls = 19 then 32 else x.cls | none => 8
  if readsScale mmas c.fmt isB then
    scaleVas (if isB then s.me.win.scaleB else s.me.win.scaleA) tile (kOfFmt c.fmt) cls
  else []

/-- Every address that a word's operands are read at: its tiles, and a scale byte in each page that holds some. -/
def State.operandVas (s : State) (c : Captured) (mmas sparse : Bool) : List Dword :=
  let vas := c.tileVas sparse
  vas ++ firstOfPages (dropRuns ((vas.zipIdx.flatMap fun x => s.tileScaleVas c mmas (x.2 != 0) x.1).map fun x => x.2.2))

/-- The layout word of a word's A or B (R284). -/
def Captured.layout (c : Captured) (isB : Bool) : Nat := c.vals.getD (if isB then 3 else 2) 0

/-- The tile at an address, as the fetch unit is asked for it. -/
def State.tileReq (s : State) (c : Captured) (mmas isB : Bool) (ps : List (Dword × Phys)) (a : Dword) : TileReq :=
  { va := a, key := lineOf (keyIn ps a), swz := c.layout isB % 8
    coh := match ps.find? fun p => p.1 == a with | some p => p.2.cls != 0 | none => false
    scales := (dropRuns ((s.tileScaleVas c mmas isB a).map fun x => x.2.2 &&& ~~~(127#64))).map fun x => (lineOf (keyIn ps x), x) }

/-- A word's tiles, A's first. -/
def State.tileReqs (s : State) (c : Captured) (mmas sparse : Bool) (ps : List (Dword × Phys)) : List TileReq :=
  (c.tileVas sparse).zipIdx.map fun x => s.tileReq c mmas (x.2 != 0) ps x.1

/-- The scale numbers of a fetched tile, those of a second tile from 128 on. -/
def State.fetchedScales (s : State) (c : Captured) (mmas isB : Bool) (ps : List (Dword × Phys)) (t : TileReq) (first : Nat) :
    List (Nat × Byte) :=
  (s.tileScaleVas c mmas isB t.va).map fun x =>
    (256 * x.1 + first + x.2.1, gotByte (s.tileScales (keyCore s.cur) t) ps x.2.2)

/-- A codebook that a format decodes through is still being loaded (R291). -/
def Warp.booksPending (w : Warp) (fmt : Word) : Bool :=
  (usesBook (fmtA fmt) && w.bookPending (fmtCba fmt)) || (usesBook (fmtB fmt) && w.bookPending (fmtCbb fmt))

/-- Acceptance of MMA, MMAS and MMASP, in the order of R285. Where both operands fail one of its checks, A's address is the one
reported: the rule does not say which (log 110). -/
def State.acceptMma (s : State) (c : Captured) (mmas sparse : Bool) : State :=
  let core := keyCore s.cur
  let va (i : Nat) : Dword := BitVec.ofNat 64 (c.vals.getD i 0)
  if (va 0).toNat % 2048 ≠ 0 then s.acceptTrap c 6 0 (va 0) 0#32
  else if (va 1).toNat % (if sparse then 4096 else 2048) ≠ 0 then s.acceptTrap c 6 0 (va 1) 0#32
  else
    match s.placesAt s.me needR 1 (s.operandVas c mmas sparse) with
    | .error e => s.acceptTrap c e.kind e.cause e.addr 0#32
    | .ok ps =>
      match classFail ps with
      | some e => s.acceptTrap c e.kind e.cause e.addr 0#32
      | none =>
        if layoutBad (c.layout false) (fmtA c.fmt) false then s.acceptTrap c 9 1 (va 0) 0#32
        else if layoutBad (c.layout true) (fmtB c.fmt) true then s.acceptTrap c 9 1 (va 1) 0#32
        else
          let ts := s.tileReqs c mmas sparse ps
          match s.fetchStep core (keySlot s.cur) s.me.ctx c.got ts [] with
          | .fail kind cause addr => s.acceptTrap c kind cause addr 0#32
          | .wait => s
          | .step t => t
          | .ready =>
            match if sparse then badMeta c.vals (kOfFmt c.fmt) else none with
            | some x => s.acceptTrap c 10 0 0#64 (BitVec.ofNat 32 (x.1 + 32 * x.2))
            | none =>
              if !s.queueRoom core ∨ s.me.booksPending c.fmt then s
              else
                s.accept c
                  { id := 0, slot := keySlot s.cur, word := c, batch := 0#32, stage := .queued
                    a := (ts.take 1).flatMap (s.tileBytes core)
                    b := (ts.drop 1).flatMap (s.tileBytes core)
                    sa := tsetMany 0#8 [] ((ts.take 1).flatMap fun t => s.fetchedScales c mmas false ps t 0)
                    sb := tsetMany 0#8 [] ((ts.drop 1).zipIdx.flatMap fun x => s.fetchedScales c mmas true ps x.1 (128 * x.2))
                    bookA := s.me.win.book (fmtCba c.fmt), bookB := s.me.win.book (fmtCbb c.fmt) } ts

/-- n bytes written from an address on, cut at lines: where they go, and the coherent lines among them. -/
def State.probeWrite (s : State) (w : Warp) (x : Side) (n : Nat) : Except Fail (List (Loc × Nat) × List Nat) :=
  (movesOf 0 none (.sp (x.num % 128)) x n).foldl (fun r m =>
    match r with
    | .error e => .error e
    | .ok (ps, ls) =>
      match s.probeSide w needW m.dst m.n with
      | .error e => .error e
      | .ok (d, coh) => .ok (ps ++ [(d, m.n)], match d with | .mem key => if coh then ls ++ [lineOf key] else ls | .scr .. => ls))
    (.ok ([], []))

/-- The rows of an ACVT, one after another. -/
def State.probeRowsOut (s : State) (w : Warp) (mem : Bool) (dst rb stride : Nat) :
    Nat → Except Fail (List (Loc × Nat) × List Nat)
  | 0 => .ok ([], [])
  | n + 1 =>
    match s.probeRowsOut w mem dst rb stride n with
    | .error e => .error e
    | .ok (ps, ls) =>
      match s.probeWrite w (sideOf mem (dst + n * stride)) rb with
      | .error e => .error e
      | .ok (qs, ms) => .ok (ps ++ qs, ls ++ ms)

/-- A SEED after n steps. -/
def seedAfter : Nat → Word → Word
  | 0, x => x
  | n + 1, x => seedAfter n (seedNext x)

/-- Acceptance of ACVT: its SEEDs step once, as it is accepted (R94, R296). -/
def State.acceptAcvt (s : State) (c : Captured) (f : XFields) : State :=
  let w := s.me
  let dst := c.vals.getD 0 0
  if dst % 16 ≠ 0 then s.acceptTrap c 6 0 (BitVec.ofNat 64 dst) 0#32
  else
    match s.probeRowsOut w (!bit16 f.func 1) dst (acvtRow c.fmt) (c.vals.getD 2 0) 32 with
    | .error e => s.acceptTrap c e.kind e.cause e.addr 0#32
    | .ok (ps, ls) =>
      if !s.queueRoom (keyCore s.cur) then s
      else
        let seeds := lanes.map w.seed
        let t := s.accept c
          { id := 0, slot := keySlot s.cur, word := c, batch := 0#32, stage := .queued, seeds
            writes := ps.map fun p => (p.1, List.replicate p.2 0#8), claims := distinct ls } []
        if fmtRound c.fmt = 4 then
          t.modMe fun w => w.putSeeds (lanes.map fun l => (l, seedAfter 32 (w.seed l)))
        else t

/-! ## Results -/

/-- The operands of an accepted word. -/
def EngWord.opnd (e : EngWord) (isB : Bool) (second : Bool) : Opnd :=
  let fmt := e.word.fmt
  let n := if isB then fmtB fmt else fmtA fmt
  let lw := e.word.vals.getD (if isB then 3 else 2) 0
  let mmas := match e.word.instr with | .mma .. => false | _ => true
  { fmt := (matFmt n).getD ⟨.fp fp32, .none, 32⟩
    bytes := if !isB then e.a else if second then e.b.drop 2048 else e.b.take 2048
    nmaj := lw.testBit 3, half := lw.testBit 4, book := if isB then e.bookB else e.bookA
    xv := if fmtXven fmt then some (if isB then e.word.xv >>> 16 else e.word.xv &&& 0xFFFF#32) else none
    scales := if isB then e.sb else e.sa, first := if second then 128 else 0, useScale := readsScale mmas fmt isB }

/-- The result of an MMA, MMAS or MMASP on a window (R288): elements and flags. -/
def EngWord.mmaResult (e : EngWord) (x : Window) (f : XFields) (sparse : Bool) : List (Nat × Word) × Flags :=
  let a := e.opnd false false
  let b := e.opnd true false
  let b2 := e.opnd true true
  let kk := kOfFmt e.word.fmt
  let q := f.q.toNat
  let wide := a.fmt.cls == 64
  let va (i k : Nat) : Num := if sparse then sparseElem a (metaReg e.word.vals (kk / 8)) i k else a.value i k
  let vb (j k : Nat) : Num := if sparse ∧ kk ≤ k then b2.value j (k - kk) else b.value j k
  let n := if sparse then 2 * kk else kk
  let rs := (List.range 32).flatMap fun i => (List.range 32).map fun j =>
    let prod (k : Nat) : Num × Flags := productOf (bit16 f.func 0) (va i k) (vb j k)
    if wide then
      let acc := if bit16 f.func 1 then 0 else (x.elem64 q i j).toNat
      let r := accumulate fp64 4 prod (n / 4) 0 acc
      ([(tileKey q i j, BitVec.ofNat 32 r.1), (tileKey (q + 1) i j, BitVec.ofNat 32 (r.1 / 2 ^ 32))], r.2)
    else
      let acc := if bit16 f.func 1 then 0 else (x.elem q i j).toNat
      let r := accumulate fp32 16 prod (n / 16) 0 acc
      ([(tileKey q i j, BitVec.ofNat 32 r.1)], r.2)
  (rs.flatMap Prod.fst, orFlags (rs.map Prod.snd))

/-- One lane's column of an ACVT: codes by row, with flags (R296). -/
def acvtLane (r : Rnd) (e : Elem) (sc : Num) : List Word → Word → List Nat × Flags
  | [], _ => ([], 0#6)
  | v :: vs, seed =>
    let x := packOne r e (decF32 v) sc seed
    let y := acvtLane r e sc vs x.2.2
    (x.1 :: y.1, x.2.1 ||| y.2)

/-- The bytes of an ACVT, row after row, with flags. -/
def EngWord.acvtResult (e : EngWord) (x : Window) (f : XFields) (dnf : Bool) : List Byte × Flags :=
  let el := ((matFmt (fmtA e.word.fmt)).map fun m => m.elem).getD (.fp fp32)
  let r : Rnd := ⟨fmtRound e.word.fmt, fmtSat e.word.fmt, dnf⟩
  let cols := (List.range 32).map fun j =>
    acvtLane r el (decF32 (BitVec.ofNat 32 (e.word.vals.getD 1 0))) ((List.range 32).map fun i => x.elem f.q.toNat i j)
      (e.seeds.getD j 0#32)
  let eb := elemBits el
  ((List.range 32).flatMap fun i => natLe (4 * eb) (packElems eb (cols.map fun c => c.1.getD i 0)), orFlags (cols.map Prod.snd))

/-- Bytes dealt out to writes of known lengths. -/
def dealBytes : List (Loc × List Byte) → List Byte → List (Loc × List Byte)
  | [], _ => []
  | (l, b) :: ws, bs => (l, bs.take b.length) :: dealBytes ws (bs.drop b.length)

end Sys2Proof.Machine
end

