-- ==== Sys2Proof/Machine/Network.lean ====
section
/-! DEFINITION. The mesh (R351 to R357), its interfaces and reassembly slots (R359), the packet words SEND, RECV, XCHG
and THROT (R358 to R363), and the bridges between dies (R10, R365). -/

namespace Sys2Proof.Machine

/-! ## Routers (R9 to R12) -/

/-- Router number: die, layer, row and column. -/
def routerNum (die z y x : Nat) : Nat := die * 128 + z * 64 + y * 8 + x

def routerDie (r : Nat) : Nat := r / 128

def routerZ (r : Nat) : Nat := r / 64 % 2

def routerY (r : Nat) : Nat := r / 8 % 8

def routerX (r : Nat) : Nat := r % 8

/-- The router of a core's cluster. -/
def coreRouter (core : Nat) : Nat := routerNum (dieOf core) 0 (clusterY (clusterOf core)) (clusterX (clusterOf core))

/-- The cores of a compute router. -/
def routerCores (r : Nat) : List Nat :=
  let c := (routerDie r * 64 + r % 64) * 2
  [c, c + 1]

/-- The die beside a die, east or west, and north or south (R9). -/
def dieBeside (d : Nat) : Nat := d ^^^ 1

def dieAcross (d : Nat) : Nat := d ^^^ 2

/-- Where a link port (N, E, S, W, vertical are 0 to 4) leads: the next router, its input port, and whether a bridge
carries the flit; none where the port is permanently busy (R10, R11). -/
def linkTo (r port : Nat) : Option (Nat × Nat × Bool) :=
  let d := routerDie r
  let x := routerX r
  let y := routerY r
  let z := routerZ r
  match port with
  | 0 => if 0 < y then some (routerNum d z (y - 1) x, 2, false)
         else if 2 ≤ d then some (routerNum (dieAcross d) z 7 x, 2, true) else none
  | 1 => if x < 7 then some (routerNum d z y (x + 1), 3, false)
         else if d % 2 = 0 then some (routerNum (dieBeside d) z y 0, 3, true) else none
  | 2 => if y < 7 then some (routerNum d z (y + 1) x, 0, false)
         else if d < 2 then some (routerNum (dieAcross d) z 0 x, 0, true) else none
  | 3 => if 0 < x then some (routerNum d z y (x - 1), 1, false)
         else if d % 2 = 1 then some (routerNum (dieBeside d) z y 7, 1, true) else none
  | _ => some (routerNum d (1 - z) y x, 4, false)

/-- The link ports of a router that are not permanently busy. -/
def livePorts (r : Nat) : List Nat := (List.range 5).filter fun p => (linkTo r p).isSome

/-- The router of a quadrant's Drover shard, nearest the die centre (R13). -/
def shardRouter (q : Nat) : Nat := routerNum (q / 4) 1 (if q / 2 % 2 = 0 then 3 else 4) (if q % 2 = 0 then 3 else 4)

/-- The router whose local port serves a slice (R12). -/
def sliceRouter (slice : Nat) : Nat := routerNum (slice / 128) 1 (slice % 128 / 16) (slice % 128 / 2 % 8)

/-- The die of an Onaus port (R9). -/
def onausDie (port : Nat) : Nat := port / 4 % 4

/-- The router whose local port serves an agent; the host port and the mailbox unit sit on die 0, four Onaus ports on each
die (R9, R10). -/
def Agent.router : Agent → Nat
  | .core n => coreRouter (n % 512)
  | .slice n => sliceRouter (n % 512)
  | .shard q => shardRouter (q % 16)
  | .hostSide r => r % 128
  | .onaus p r => onausDie p * 128 + r % 128

/-- A flit's destination router: its core's, or for KIND 2 that of its agent. -/
def NetFlit.dest (f : NetFlit) : Nat := f.goal.getD (coreRouter f.flit.dst.toNat)

/-- The target of a flit at a router, and the bridge port when the target is an attachment router (R352, R365). -/
def flitTarget (r : Nat) (f : NetFlit) : (Nat × Nat × Nat) × Option Nat :=
  let d := routerDie r
  let c := f.dest
  if routerDie c = d then ((routerX c, routerY c, routerZ c), none)
  else if f.via = some (dieBeside d) then
    if d % 2 = 0 then ((7, routerY c, routerZ r), some 1) else ((0, routerY c, routerZ r), some 3)
  else if d < 2 then ((routerX c, 7, routerZ r), some 2) else ((routerX c, 0, routerZ r), some 0)

/-- The productive ports of a flit, in order (R352). -/
def productive (r : Nat) (f : NetFlit) : List Nat :=
  let t := flitTarget r f
  let x := routerX r
  let y := routerY r
  if t.1 = (x, y, routerZ r) then t.2.toList
  else
    (List.range 5).filter fun p =>
      match p with
      | 0 => decide (t.1.2.1 < y)
      | 1 => decide (x < t.1.1)
      | 2 => decide (y < t.1.2.1)
      | 3 => decide (t.1.1 < x)
      | _ => t.1.2.2 != routerZ r

/-- Does a flit stand at its destination router? -/
def atDestination (r : Nat) (f : NetFlit) : Bool := f.dest == r

/-! ## The throttle (R357) -/

/-- DEFL of a router. -/
def State.defl (s : State) (r : Nat) : Nat := (tget [] s.net.defl r).sum

/-- LEVEL of a DEFL. -/
def throttleLevel (d : Nat) : Nat := if d < 16 then 0 else min 7 (d.log2 - 3)

/-- QLVL of a quadrant: the highest LEVEL of its compute routers. -/
def State.qlvl (s : State) (q : Nat) : Nat :=
  ((s.net.defl.filter fun p => routerZ p.1 == 0 && routerDie p.1 * 4 + localQuad (routerX p.1) (routerY p.1) == q).map
    fun p => throttleLevel p.2.sum).foldl max 0

/-- THROTLVL of a core. -/
def State.throtlvl (s : State) (core : Nat) : Word :=
  let d := s.defl (coreRouter core)
  BitVec.ofNat 32 (d * 65536 + s.qlvl (quadOf core) * 16 + throttleLevel d)

/-- One more deflection in this clock. -/
def bumpHead : List Nat → List Nat
  | [] => [1]
  | n :: ns => (n + 1) :: ns

/-- A clock turns: the window of 256 clocks moves on; an empty window is dropped. -/
def shiftWindow (l : List Nat) : List Nat :=
  let m := (0 :: l).take 256
  if m.all fun n => n == 0 then [] else m

/-! ## Interfaces (R359) -/

/-- Is a core granted to a context (R376)? -/
def State.granted (s : State) (core c : Nat) : Bool :=
  let x := (s.core core).corectx
  x.getLsbD 31 && (x.setWidth 3).toNat == c

/-- All flits of the packet have arrived. -/
def RSlot.complete (x : RSlot) : Bool := x.valid && popcount x.pres == x.fcnt.toNat + 1

def State.rslot (s : State) (core i : Nat) : RSlot := tget {} (s.core core).rslots i

def State.setRslot (s : State) (core i : Nat) (x : RSlot) : State :=
  s.modCore core fun c => { c with rslots := tset {} c.rslots i x }

/-- A slot as 264 bytes (R359). -/
def RSlot.bytes (x : RSlot) : List Byte :=
  let head := (if x.valid then 1 else 0) + x.cseq.toNat * 2 ^ 8 + (if x.xpar then 2 ^ 26 else 0) +
    (if x.rel then 2 ^ 27 else 0) + x.portw.toNat * 2 ^ 28 + x.kind.toNat * 2 ^ 34 + x.fcnt.toNat * 2 ^ 36 +
    x.src.toNat * 2 ^ 39 + x.tag.toNat * 2 ^ 48 + x.pres.toNat * 2 ^ 56
  natLe 8 head ++ (List.range 64).flatMap fun k => natLe 4 (tget 0#32 x.data k).toNat

/-- The owner of a KIND 0 port or a KIND 1 warp slot at a core: a resident team, or one saved from the core. -/
inductive Owner where
  | resident (team : Nat)
  | saved (team : Nat)
  | nobody
  deriving DecidableEq, Repr

def State.ownerOf (s : State) (core : Nat) (f : Flit) : Owner :=
  let c := f.ctx.toNat
  let gone : Owner → Owner := fun o => if s.granted core c then o else .nobody
  if f.kind = 0#2 then
    match s.portTeam c core with
    | some t => if (s.team (teamKey c t)).life = .live then .resident t else gone (.saved t)
    | none => .nobody
  else
    let w := s.warp (warpKey core f.portw.toNat)
    if w.present ∧ w.ctx = c then .resident w.team
    else
      match (List.range 64).find? fun t =>
          let x := s.team (teamKey c t)
          x.life == .saved && x.cores.headD 512 == core && (x.cores.zip x.slots).contains (core, f.portw.toNat) with
      | some t => gone (.saved t)
      | none => .nobody

/-- What the interface does with a flit (R359). -/
inductive Slotting where
  | put (slot : Nat)
  | take (slot team : Nat)
  | refuse
  | discard
  deriving DecidableEq, Repr

def State.slotting (s : State) (core : Nat) (f : Flit) : Slotting :=
  let slot (i : Nat) : RSlot := s.rslot core i
  match (List.range 32).find? fun i => (slot i).valid && (slot i).src == f.src && (slot i).tag == f.tag && (slot i).kind == f.kind with
  | some i => .put i
  | none =>
    match s.ownerOf core f with
    | .resident t =>
      match (List.range 32).find? fun i => !(slot i).valid with
      | some i => .take i t
      | none => .refuse
    | .saved _ => .refuse
    | .nobody => .discard

/-- A flit's payload into a slot. -/
def RSlot.write (x : RSlot) (f : Flit) : RSlot :=
  { x with data := tsetMany 0#32 x.data ((List.range 8).map fun k => (8 * f.fidx.toNat + k, f.data.getD k 0#32))
           pres := x.pres ||| (1#8 <<< f.fidx.toNat) }

/-- Bytes into a save area from offset off on, through their homes (R393). -/
def State.putFrames (s : State) (c core : Nat) (keys : List Nat) : Nat → Nat → List Byte → State
  | 0, _, _ => s
  | _ + 1, _, [] => s
  | fuel + 1, off, b :: bs =>
    let n := 128 - off % 128
    (s.engineWrite c core 0 (keys.getD (off / 4096) 0 + off % 4096) ((b :: bs).take n)).putFrames c core keys fuel (off + n)
      ((b :: bs).drop n)

/-- A slot that a saved team holds is written into its image as well (R366). -/
def State.writeHeld (s : State) (core i : Nat) (x : RSlot) : State :=
  let t := s.team (teamKey x.ctx x.team)
  match t.heldSlots.find? fun h => h.1 == 32 * core + i with
  | some h => if t.life = .saved then s.putFrames x.ctx core t.saveKeys 264 h.2 x.bytes else s
  | none => s

/-- The flit is written; a packet that becomes complete by it takes the core's next completion number. -/
def State.fillSlot (s : State) (core i : Nat) (x : RSlot) (f : Flit) : State :=
  let y := x.write f
  let n := (s.core core).cseq
  if y.complete ∧ !x.complete then
    let y := { y with cseq := n }
    ((s.setRslot core i y).modCore core fun c => { c with cseq := n + 1#16 }).writeHeld core i y
  else (s.setRslot core i y).writeHeld core i y

/-- One more flit that nobody owns (R359). -/
def State.countUnowned (s : State) (core : Nat) : State :=
  s.modCore core fun c => { c with unown := if c.unown = 0xFFFFFFFF#32 then c.unown else c.unown + 1#32 }

/-- The interface takes a flit for a core (R359): it allocates a slot for the first of a packet, and the payload goes there
once the flit has left the local port; a flit that nobody owns is counted. A refused flit is not taken. -/
def State.acceptFlit (s : State) (core : Nat) (f : Flit) : State :=
  match s.slotting core f with
  | .put i => s.modCore core fun c => { c with eject := c.eject ++ [(i, f)] }
  | .take i t =>
    (s.setRslot core i
      { valid := true, tag := f.tag, src := f.src, fcnt := f.fcnt, kind := f.kind, portw := f.portw, rel := f.rel,
        xpar := f.xpar, low := f.low, ctx := f.ctx.toNat, team := t }).modCore core fun c =>
          { c with eject := c.eject ++ [(i, f)] }
  | .refuse => s
  | .discard => s.countUnowned core

/-- The first accepted flit of a core is written into its slot; one whose slot has gone with its team is nobody's. -/
def State.slotFirst (s : State) (core : Nat) : State :=
  match (s.core core).eject with
  | [] => s
  | (i, f) :: fs =>
    let t := s.modCore core fun c => { c with eject := fs }
    let x := t.rslot core i
    if x.valid ∧ x.src = f.src ∧ x.tag = f.tag ∧ x.kind = f.kind then t.fillSlot core i x f else t.countUnowned core

/-- Every accepted flit of a core is written into its slot. -/
def State.slotAll (s : State) (core : Nat) : Nat → State
  | 0 => s
  | n + 1 => (s.slotFirst core).slotAll core n

/-- FLIT_EJECT (R359). -/
def execFlitEject (core : Nat) (s : State) : Host.Outcome State Fault Refusal := .next (s.slotFirst core)

/-! ## The router's rule (R353 to R355) -/

/-- The order of arrivals: greater AGE first, then the input port. -/
def before (a b : NetFlit) : Bool := decide (b.flit.age < a.flit.age) || (a.flit.age == b.flit.age && decide (a.port ≤ b.port))

/-- The next die of a flit's path after a bridge from die a to die b: along its ring direction, or a free choice where it
was deflected onto the bridge (R365). -/
def State.viaAfter (s : State) (a b : Nat) (f : NetFlit) : Option Nat :=
  if routerDie f.dest = b then none
  else if f.via = some b then some (if dieBeside b = a then dieAcross b else dieBeside b)
  else some (if s.free (20 + f.flit.tag.toNat) % 2 = 0 then dieBeside b else dieAcross b)

/-- A flit is sent on a link port: one hop more, and one deflection more where it is one. -/
def State.hop (s : State) (r port : Nat) (f : NetFlit) (deflected : Bool) : State :=
  let g : Flit := { f.flit with age := min (f.flit.age + 1) 1023 }
  let n := if deflected then { s.net with defl := tmod [] s.net.defl r bumpHead } else s.net
  match linkTo r port with
  | none => s
  | some (dest, input, false) =>
    let y : NetFlit := { router := dest, port := input, moved := true, flit := g, via := f.via, goal := f.goal, host := f.host }
    { s with net := { n with flits := n.flits ++ [y] } }
  | some (dest, input, true) =>
    { s with net := { n with bridge := n.bridge ++
        [(7, { router := dest, port := input, moved := false, flit := g, via := s.viaAfter (routerDie r) (routerDie dest) f
               goal := f.goal, host := f.host })] } }

/-- A packet that carries a host access reaches a router (R10). -/
def State.hostArrives (s : State) (r : Nat) : State :=
  { s with net := { s.net with hostAt := tmod 0 s.net.hostAt r fun n => n + 1 } }

/-- One arriving flit: ejected, sent on a productive port, or deflected; a refusal starts a new leg. 5 is the local port,
which takes one flit in a clock: a KIND 2 flit there reaches its cache, slice or shard (R13). -/
def State.routeOne (s : State) (r : Nat) (free : List Nat) (f : NetFlit) : State × List Nat :=
  let core := f.flit.dst.toNat
  let send (f : NetFlit) : State × List Nat :=
    match (productive r f).find? fun p => free.contains p with
    | some p => (s.hop r p f false, free.filter fun q => q != p)
    | none =>
      match free.find? fun p => p < 5 with
      | some p => (s.hop r p f true, free.filter fun q => q != p)
      | none => ({ s with net := { s.net with flits := s.net.flits ++ [{ f with moved := true }] } }, free)
  if atDestination r f ∧ free.contains 5 then
    if f.goal.isSome then (if f.host then s.hostArrives r else s, free.filter fun q => q != 5)
    else if s.slotting core f.flit = .refuse then send { f with flit := { f.flit with age := 0 } }
    else (s.acceptFlit core f.flit, free.filter fun q => q != 5)
  else send f

def State.routeAll (s : State) (r : Nat) : List Nat → List NetFlit → State × List Nat
  | free, [] => (s, free)
  | free, f :: fs =>
    let x := s.routeOne r free f
    x.1.routeAll r x.2 fs

/-- KIND 2 flits that wait under a queue number. -/
def State.queue (s : State) (n : Nat) : List NetFlit := tget [] s.net.queues n

/-- The core whose turn it is to inject, its packets' flits and those of its caches alike (R354). -/
def State.injector (s : State) (r : Nat) : Option Nat :=
  let waits (c : Nat) : Bool := (s.core c).inject != [] || s.queue c != []
  match routerCores r with
  | [a, b] =>
    let x := if s.netNow % 2 = 0 then a else b
    let y := if s.netNow % 2 = 0 then b else a
    if waits x then some x else if waits y then some y else none
  | _ => none

/-- May the router inject under its throttle (R357)? -/
def State.mayInject (s : State) (r : Nat) : Bool :=
  let last := tget 0 s.net.injected r
  last == 0 || decide (last + 2 ^ throttleLevel (s.defl r) ≤ s.netNow + 1)

/-- A queue that a router injects from: a core's injection queue, or KIND 2 flits under a number of Net.queues. -/
inductive Feed where
  | packets (core : Nat)
  | traffic (n : Nat)
  deriving DecidableEq, Repr

/-- The flit at the head of a queue. -/
def State.feedHead (s : State) : Feed → Option NetFlit
  | .packets c => (s.core c).inject.head?
  | .traffic n => (s.queue n).head?

/-- The queues that a router may inject from: those of the cluster's core whose turn it is, and that of the other agents it
serves. Which of several goes first is free (log 88). -/
def State.feeds (s : State) (r : Nat) : List Feed :=
  let mine := match if routerZ r = 0 then s.injector r else none with
    | some c => [.packets c, .traffic c]
    | none => []
  (mine ++ [.traffic (512 + r)]).filter fun x => (s.feedHead x).isSome

/-- The flit that a router would inject. -/
def State.injectable (s : State) (r : Nat) : Option (Feed × NetFlit) :=
  match (s.feeds r)[s.free (60 + r) % (s.feeds r).length]? with
  | some x => (s.feedHead x).map fun f => (x, f)
  | none => none

/-- A flit leaves the queue that it waited in. -/
def State.dequeue (s : State) : Feed → State
  | .packets c => s.modCore c fun x => { x with inject := x.inject.drop 1 }
  | .traffic n => { s with net := { s.net with queues := tmod [] s.net.queues n fun l => l.drop 1 } }

/-- Injection after the arbitration (R354). -/
def State.inject (s : State) (r : Nat) (free : List Nat) : State :=
  match s.injectable r with
  | none => s
  | some (x, f) =>
    match (if atDestination r f then [0, 1, 2, 3, 4] else productive r f).find? fun p => free.contains p with
    | none => s
    | some p =>
      if s.mayInject r then
        let t := (s.dequeue x).hop r p { f with flit := { f.flit with age := 0 } } false
        { t with net := { t.net with injected := tset 0 t.net.injected r (s.netNow + 1) } }
      else s

/-- A router acts, once in each network clock. -/
def State.route (s : State) (r : Nat) : State :=
  if s.net.acted.contains r then s
  else
    let here := s.net.flits.filter fun f => f.router == r && !f.moved
    let t : State := { s with net := { s.net with flits := s.net.flits.filter fun f => !(f.router == r && !f.moved)
                                                  acted := r :: s.net.acted } }
    let x := t.routeAll r (livePorts r ++ [5]) (sortBy before here)
    x.1.inject r x.2

/-- FLIT_ROUTE (R353). -/
def execFlitRoute (router : Nat) (s : State) : Host.Outcome State Fault Refusal :=
  .next (if router < 512 then s.route router else s)

/-! ## Bridges (R10, R365) -/

/-- A flit leaves a bridge: it starts a new leg at the router on the other die. -/
def State.leaveBridge (s : State) (i : Nat) : State :=
  match s.net.bridge[i]? with
  | none => s
  | some (_, f) =>
    { s with net := { s.net with bridge := s.net.bridge.eraseIdx i
                                 flits := s.net.flits ++ [{ f with moved := false, flit := { f.flit with age := 0 } }] } }

/-- May flit i leave its bridge now: its crossing is over, none before it is still on the bridge, and the port is free? -/
def State.mayLeave (s : State) (i : Nat) : Bool :=
  match s.net.bridge[i]? with
  | none => false
  | some (n, f) =>
    decide (n ≤ 1) && !((s.net.bridge.take i).any fun g => g.2.router == f.router && g.2.port == f.port) &&
      !(s.net.flits.any fun g => g.router == f.router && g.port == f.port && !g.moved) && !s.net.acted.contains f.router

/-- BRIDGE_CROSS: 6 network clocks after it was sent, or one later, a flit comes out. -/
def execBridgeCross (idx : Nat) (s : State) : Host.Outcome State Fault Refusal :=
  .next (if s.mayLeave idx then s.leaveBridge idx else s)

/-- Flits whose time on the bridge is up come out. -/
def State.flushBridge (s : State) : Nat → State
  | 0 => s
  | n + 1 =>
    match s.net.bridge.findIdx? fun x => x.1 == 0 with
    | some i => (s.leaveBridge i).flushBridge n
    | none => s

/-- The network clock turns: every router that has not acted acts, what was sent arrives, and the interval counters
advance; homes may start requests of every line again (R242). -/
def State.netClock (s : State) : State :=
  let work := (s.net.flits.filter fun f => !f.moved).map (fun f => f.router) ++
    ((s.cores.filter fun c => c.2.inject != []).map fun c => coreRouter c.1) ++
    s.net.queues.map fun q => if q.1 < 512 then coreRouter q.1 else q.1 - 512
  let s := (distinct work).foldl State.route s
  let s := (s.cores.filter fun c => c.2.eject != []).foldl (fun t c => t.slotAll c.1 c.2.eject.length) s
  let t : State :=
    { s with netNow := s.netNow + 1
             starts := []
             presented := []
             net := { s.net with acted := []
                                 flits := s.net.flits.map fun f => { f with moved := false }
                                 defl := tmap [] (fun _ l => shiftWindow l) s.net.defl
                                 bridge := s.net.bridge.map fun x => (x.1 - 1, x.2) } }
  t.flushBridge t.net.bridge.length

/-! ## Packets of KIND 2 (R351, R354, log 88) -/

/-- The first die of a path to a die; each flit chooses its own (R365). -/
def State.firstVia (s : State) (d target salt : Nat) : Option Nat :=
  if target = d then none else some (if s.free salt % 2 = 0 then dieBeside d else dieAcross d)

/-- The number under which an agent's KIND 2 flits wait. -/
def Agent.queue : Agent → Nat
  | .core n => n % 512
  | x => 512 + x.router

/-- The number that SRC and DST of a KIND 2 flit give an agent: its core, where it has one. For the others R351 names none,
and it is free. -/
def State.agentNum (s : State) (salt : Nat) : Agent → BitVec 9
  | .core n => BitVec.ofNat 9 n
  | _ => BitVec.ofNat 9 (s.free salt)

/-- The context of the sender of a KIND 2 flit: for a core's caches that of the core, where it has one (R16, R351); the other
agents serve every context, and R351 names none. -/
def State.agentCtx (s : State) (salt : Nat) : Agent → BitVec 3
  | .core n =>
    if s.teams.any (fun t => t.2.life == .live && t.2.cores.contains n) ∨ (s.core n).corectx.getLsbD 31 then BitVec.ofNat 3 (s.arrayCtx n)
    else BitVec.ofNat 3 (s.free salt)
  | _ => BitVec.ofNat 3 (s.free salt)

/-- Does a packet carry a host access (R10)? -/
def Agent.isHost : Agent → Bool
  | .hostSide _ => true
  | _ => false

/-- An agent posts a packet of 1 to 8 flits, which share SRC, TAG and KIND. What R351 does not give of a KIND 2 header is free
(log 88). -/
def State.postTraffic (s : State) (x y : Agent) (n : Nat) : State :=
  if n = 0 ∨ 8 < n then s
  else
    let dst := y.router
    let h : Flit :=
      { fcnt := BitVec.ofNat 3 (n - 1), kind := 2#2, tag := BitVec.ofNat 8 (s.free 70), ctx := s.agentCtx 71 x
        portw := BitVec.ofNat 6 (s.free 72), low := BitVec.ofNat 9 (s.free 73), src := s.agentNum 74 x, dst := s.agentNum 75 y }
    let fs := (List.range n).map fun i =>
      ({ router := x.router, port := 5, moved := false, goal := some dst, host := x.isHost && i == 0
         flit := { h with fidx := BitVec.ofNat 3 i }
         via := s.firstVia (routerDie x.router) (routerDie dst) (80 + i) } : NetFlit)
    { s with net := { s.net with queues := tmod [] s.net.queues x.queue fun l => l ++ fs } }

/-! ## SEND (R360) -/

/-- Words in groups of eight. -/
def flitWords (ws : List Word) (i : Nat) : List Word := (ws.drop (8 * i)).take 8

/-- A packet is posted into the injection queue; each flit chooses its own path (R365). -/
def State.postPacket (s : State) (core : Nat) (h : Flit) (ws : List Word) : State :=
  let n := h.fcnt.toNat + 1
  let d := dieOf core
  let fs := (List.range n).map fun i =>
    ({ router := coreRouter core, port := 5, moved := false
       flit := { h with fidx := BitVec.ofNat 3 i, tag := (s.core core).tag, data := flitWords ws i }
       via := s.firstVia d (dieOf h.dst.toNat) (40 + i) } : NetFlit)
  s.modCore core fun c => { c with inject := c.inject ++ fs, tag := c.tag + 1#8 }

/-- Room for n more flits in the injection queue. -/
def State.injectRoom (s : State) (core n : Nat) : Bool := decide ((s.core core).inject.length + n ≤ 32)

/-- Word k of a packet from registers: lanes outside effective give 0. -/
def packetWords (w : Warp) (k : Ctl) (a : Operand) (n : Nat) : List Word :=
  (List.range n).map fun i => if (w.eff k).getLsbD (i % 32) then w.getV (regNum a + i / 32) (i % 32) else 0#32

/-- A packet form in scratchpad: a multiple of 32 within the allocation (R360, R361). -/
def scratchForm (s : State) (w : Warp) (k : Ctl) (off n : Nat) : Option Trp :=
  if off % 32 ≠ 0 ∨ (s.team w.teamKey).scratchSize < off + n then
    some { kind := 7, cause := 5, mask := w.eff k, addr := BitVec.ofNat 64 off }
  else none

/-- SEND. A descriptor or second register whose value is illegal is found here, after the checks that come with issue
(log 81). -/
def execSend (k : Ctl) (f : EFields) (s : State) : Host.Outcome State Fault Refusal :=
  issue s k (.send k f) fun s =>
    let w := s.me
    let core := keyCore s.cur
    if !w.acts k then s.finish k [] 0#6
    else
      let d := rdU s w f.d
      let dst := (d.extractLsb' 0 9).toNat
      let c := sendCount d
      let sp := bit16 f.func 0
      let rel := bit16 f.func 1
      if d.extractLsb' 9 3 ≠ 0#3 ∨ d.extractLsb' 19 13 ≠ 0#13 ∨ (!sp && decide (w.valloc < regNum f.a + (8 * c - 1) / 32 + 1)) then
        s.takeTrap (illegal w k (.send k f))
      else
        let off := (rdU s w f.a).toNat
        match if sp then scratchForm s w k off (32 * c) else none with
        | some t => s.takeTrap t
        | none =>
          if !s.granted dst w.ctx then s.violation 1 0#64
          else if !s.injectRoom core c ∨ (sp ∧ !w.scratchSpan s.nextId off (32 * c)) then s
          else
            let ws := if sp then (List.range (8 * c)).map fun i => BitVec.ofNat 32 (s.scratchRead w.teamKey (off + 4 * i) 4)
              else packetWords w k f.a (8 * c)
            let s := if rel then s.bumpRelease core else s
            (s.postPacket core
              { fcnt := BitVec.ofNat 3 (c - 1), kind := 0#2, portw := (d.extractLsb' 12 4).setWidth 6, rel,
                ctx := BitVec.ofNat 3 w.ctx, src := BitVec.ofNat 9 core, dst := BitVec.ofNat 9 dst } ws).finish k [] 0#6

/-! ## RECV (R361) -/

/-- The complete slot of a port or warp slot that a test admits, with the oldest completion. -/
def State.oldestSlot (s : State) (core : Nat) (p : RSlot → Bool) : Option Nat :=
  let next := (s.core core).cseq
  let age (i : Nat) : Nat := ((s.rslot core i).cseq - next).toNat
  ((List.range 32).filter fun i => (s.rslot core i).complete && p (s.rslot core i)).foldl
    (fun best i => match best with
      | none => some i
      | some j => if age i < age j then some i else some j) none

/-- A slot of a receive port of the warp's team. -/
def portSlot (w : Warp) (port : Nat) (x : RSlot) : Bool :=
  x.kind == 0#2 && x.portw.toNat == port && x.ctx == w.ctx && x.team == w.team

/-- The lanes' register writes of a taken packet, and B. -/
def takenWrites (w : Warp) (m : Mask) (f : EFields) (x : RSlot) : List (Nat × Word) :=
  let n := 8 * (x.fcnt.toNat + 1)
  let info : Word := BitVec.ofNat 32 (x.src.toNat + x.fcnt.toNat * 65536 + 2 ^ 31)
  (if bit16 f.func 2 then []
   else ((List.range n).filter fun i => m.getLsbD (i % 32)).map fun i => (vKey (regNum f.d + i / 32) (i % 32), tget 0#32 x.data i)) ++
    [(w.sKey (regNum f.b), info)]

/-- A packet is taken from slot i: an acquire of a packet sent with .rel drains its source, and the slot is free. m is the
effective mask and off the scratchpad offset of the .sp form, both as they were at issue. The registers are written 6 core
clocks later, which are 4 network clocks, or more (R361, R414, R434). -/
def State.takeSlot (s : State) (core i : Nat) (m : Mask) (off : Nat) (f : EFields) : State :=
  let x := s.rslot core i
  let src := x.src.toNat
  let w := s.me
  let n := 8 * (x.fcnt.toNat + 1)
  let s := if bit16 f.func 1 ∧ x.rel then s.writeBackAll src (s.dirtyLines src (s.core src).relCtr) else s
  let s := if bit16 f.func 2 then
      s.putScratch w.teamKey off ((List.range n).flatMap fun j => natLe 4 (tget 0#32 x.data j).toNat)
    else s
  (s.setRslot core i {}).modMe fun w =>
    w.addOut { id := s.nextId, tgts := (takenWrites w m f x).map fun y => ⟨y.1, some y.2⟩, acquires := bit16 f.func 1
               after := s.netNow + 4 }

/-- May a packet be taken from slot i: would the write-backs that an acquire asks its source for be accepted at once (R209,
R214, log 1), and is the scratchpad that it goes to clear (R114, R202, R226)? -/
def State.slotReady (s : State) (core i off : Nat) (f : EFields) : Bool :=
  let x := s.rslot core i
  let src := x.src.toNat
  (!(bit16 f.func 1 && x.rel) || s.markersPass src (s.dirtyLines src (s.core src).relCtr)) &&
    (!bit16 f.func 2 || s.me.scratchSpan s.nextId off (32 * (x.fcnt.toNat + 1)))

/-- RECV: with .acq it waits for the drain of its packet's source. -/
def execRecv (k : Ctl) (f : EFields) (s : State) : Host.Outcome State Fault Refusal :=
  issue s k (.recv k f) fun s =>
    let w := s.me
    let core := keyCore s.cur
    if !w.acts k then s.finish k [] 0#6
    else
      let p := (rdU s w f.a).toNat
      let off := (rdU s w f.d).toNat
      if 16 ≤ p ∨ s.portTeam w.ctx core ≠ some w.team then s.takeTrap (illegal w k (.recv k f))
      else
        match if bit16 f.func 2 then scratchForm s w k off 256 else none with
        | some t => s.takeTrap t
        | none =>
          match s.oldestSlot core (portSlot w p) with
          | some i => if s.slotReady core i off f then ((s.takeSlot core i (w.eff k) off f).fresh).advance k else s
          | none =>
            if bit16 f.func 0 then s.defer k [(w.sKey (regNum f.b), 0#32)] 0#6 true (bit16 f.func 1)
            else s.modMe fun w => { w.sleepIn k.sw (.recv p) s.tick with req := some (w.captured k (.recv k f) [off]) }

/-- A warp asleep in RECV takes a packet once one is complete. -/
def State.wakeRecv (s : State) (p : Nat) : State :=
  let core := keyCore s.cur
  match s.me.req with
  | some c =>
    match c.instr, s.oldestSlot core (portSlot s.me p) with
    | .recv _ f, some i =>
      if s.slotReady core i (c.vals.getD 0 0) f then
        ((s.takeSlot core i c.exec (c.vals.getD 0 0) f).fresh).modMe fun w => { w with req := none }.wake
      else s
    | _, _ => s
  | none => s

/-! ## XCHG (R362) -/

/-- XCHG: 5 flits to the partner, and sleep until its packet of the same parity is complete. -/
def execXchg (k : Ctl) (f : EFields) (s : State) : Host.Outcome State Fault Refusal :=
  issue s k (.xchg k f) fun s =>
    let w := s.me
    let core := keyCore s.cur
    let e := w.eff k
    if !w.acts k then s.finish k [] 0#6
    else
      let b := rdU s w f.b
      let dest := (b.extractLsb' 0 9).toNat
      let slot := (b.extractLsb' 16 6).toNat
      if b.extractLsb' 9 7 ≠ 0#7 ∨ b.extractLsb' 22 10 ≠ 0#10 ∨ 48 ≤ slot ∨ clusterOf dest = clusterOf core then
        s.takeTrap (illegal w k (.xchg k f))
      else if !s.granted dest w.ctx then s.violation 1 0#64
      else if !s.injectRoom core 5 then s
      else
        (s.postPacket core
          { fcnt := 4#3, kind := 1#2, portw := BitVec.ofNat 6 slot, xpar := w.xpar, ctx := BitVec.ofNat 3 w.ctx,
            src := BitVec.ofNat 9 core, dst := BitVec.ofNat 9 dest, low := BitVec.ofNat 9 (keySlot s.cur * 8) }
          (packetWords w k f.a 32 ++ [e] ++ List.replicate 7 0#32)).modMe fun w =>
            { w.sleepIn k.sw (.xchg dest slot) s.tick with req := some (w.captured k (.xchg k f) []) }

/-- The partner's packet. -/
def partnerSlot (w : Warp) (mine core slot : Nat) (x : RSlot) : Bool :=
  x.kind == 1#2 && x.portw.toNat == mine && x.src.toNat == core && x.low.toNat / 8 == slot && x.xpar == w.xpar && x.ctx == w.ctx

/-- A warp asleep in XCHG takes its partner's packet. -/
def State.wakeXchg (s : State) (core slot : Nat) : State :=
  let here := keyCore s.cur
  match s.me.req with
  | some c =>
    match c.instr, s.oldestSlot here (partnerSlot s.me (keySlot s.cur) core slot) with
    | .xchg _ f, some i =>
      let x := s.rslot here i
      let held := tget 0#32 x.data 32
      (s.setRslot here i {}).modMe fun w =>
        { w.putMany ((maskLanes (c.exec &&& held)).map fun l => (vKey (regNum f.d) l, tget 0#32 x.data l)) with
          req := none, xpar := !w.xpar }.wake
    | _, _ => s
  | none => s

/-! ## THROT (R363) -/

/-- THROT. -/
def execThrot (k : Ctl) (f : EFields) (s : State) : Host.Outcome State Fault Refusal :=
  issue s k (.throt k f) fun s =>
    let w := s.me
    if !w.acts k then s.finish k [] 0#6
    else s.defer k (writes32 w k f.d fun _ => s.throtlvl (keyCore s.cur)) 0#6 true false

end Sys2Proof.Machine
end

