-- ==== Sys2Proof/Machine/Phase.lean ====
section
/-! DEFINITION. Phases (R305 to R335): records and their shards, the choice of the next record, posts, views, mailboxes,
admission and deadlines, sweeps, the thirteen words, and the host's side of mailboxes and of the distributor (R401,
R402). -/

namespace Sys2Proof.Machine

/-! ## Records and shards (R305, R307, R320) -/

/-- The quadrants in which a context has granted cores, ascending. -/
def State.quads (s : State) (c : Nat) : List Nat := (List.range 16).filter fun q => (s.ctx c).cores.any fun k => quadOf k == q

/-- Home shard of a block or a mailbox. -/
def State.homeShard (s : State) (c n : Nat) : Nat := (s.quads c).getD (n % (s.quads c).length) 0

def State.block (s : State) (c b : Nat) : BlockRec := tget {} (s.ctx c).blocks b

def State.modBlock (s : State) (c b : Nat) (g : BlockRec → BlockRec) : State :=
  s.modCtx c fun x => { x with blocks := tmod {} x.blocks b g }

def State.mbox (s : State) (c n : Nat) : Mbox := tget {} (s.ctx c).mboxes n

def State.modMbox (s : State) (c n : Nat) (g : Mbox → Mbox) : State :=
  s.modCtx c fun x => { x with mboxes := tmod {} x.mboxes n g }

def State.view (s : State) (c v : Nat) : View := tget {} (s.ctx c).views v

def State.modView (s : State) (c v : Nat) (g : View → View) : State :=
  s.modCtx c fun x => { x with views := tmod {} x.views v g }

def State.handle (s : State) (q h : Nat) : Handle := tget {} (s.shard q).handles h

def State.setHandle (s : State) (q h : Nat) (x : Handle) : State :=
  s.modShard q fun y => { y with handles := tset {} y.handles h x }

/-- Pops of a context at a shard. -/
def State.pops (s : State) (q c : Nat) : Word := tget 0#32 (s.shard q).pops c

/-- The interval counter of a quadrant (R21). -/
def State.icnt (s : State) (q : Nat) : Dword := Config.intervalStart q s.mgmt.boots + BitVec.ofNat 64 s.netNow

def plusInf : Word := 0x7F800000#32

/-! ## Release records of a phase record or a view (R208, R313) -/

/-- An acquire by agents on some cores: what the record names on another core is written back first. -/
def State.acquireRecord (s : State) (cores : List Nat) (r : Option Record) : State × Option Record :=
  match r with
  | some x =>
    if x.drained ∨ cores.all fun c => c == x.core then (s, r)
    else (s.writeBackAll x.core (s.dirtyLines x.core x.num), some { x with drained := true })
  | none => (s, none)

/-- Would what an acquire drains be accepted at once (R209, R214, log 1)? Where not, the acquire waits. -/
def State.recordReady (s : State) (cores : List Nat) (r : Option Record) : Bool :=
  match r with
  | some x => x.drained || (cores.all fun c => c == x.core) || s.markersPass x.core (s.dirtyLines x.core x.num)
  | none => true

/-- The lines of a block's record in its shard's part of the pen (R20, R182, log 95). -/
def penLines (q c b : Nat) : List Nat :=
  let first := (q / 4 * dieSize + penStart + q % 4 * 0x4000000) / 128 + 8 * (Config.penSlot c b % 65536)
  (List.range 8).map fun i => first + i

/-- An access to a block's record meets the L2 with evict-last priority (R20, R188). -/
def State.touchPen (s : State) (c b : Nat) : State :=
  (penLines (s.homeShard c b) c b).foldl (fun t l => t.touchL2 c l 2) s

/-- A lazy release by a core: its release counter advances, and the record takes its number. -/
def State.releaseRecord (s : State) (core : Nat) : State × Option Record :=
  let t := s.bumpRelease core
  (t, some { core, num := (t.core core).relCtr, drained := false })

/-! ## Queueing and posts (R316, R317) -/

/-- A record takes the shard's next sequence number; the second value is it, the third the context's pop count. -/
def State.nextSeq (s : State) (q c : Nat) : State × Word × Word :=
  (s.modShard q fun x => { x with seq := x.seq + 1#32 }, (s.shard q).seq, s.pops q c)

/-- Queue a block record. -/
def State.queueBlock (s : State) (c b : Nat) : State :=
  let n := s.nextSeq (s.homeShard c b) c
  n.1.modBlock c b fun x => { x with qd := true, key := keyOf x.res, seq := n.2.1, postpop := n.2.2 }

/-- Queue a mailbox record, whose key stays the bound one. -/
def State.queueMbox (s : State) (c m : Nat) : State :=
  let n := s.nextSeq (s.homeShard c m) c
  n.1.modMbox c m fun x => { x with qd := true, seq := n.2.1, postpop := n.2.2 }

/-- A view is withdrawn with a generation (R323). -/
def View.withdraw (x : View) (g : Word) : View :=
  if x.gen < g then { x with gen := g, settled := false, bound := plusInf } else x

/-- The views of a context that list a block. -/
def State.viewsOf (s : State) (c b : Nat) : List Nat := ((s.ctx c).views.filter fun v => v.2.blocks.contains b).map Prod.fst

/-- RES of a record after a post in a mode. -/
def BlockRec.accept (x : BlockRec) (mode : Nat) (v : Word) : Word :=
  match mode with
  | 0 => addUp x.res v
  | 1 => if x.res < v then v else x.res
  | _ => v

/-- The views that list the block of a post are withdrawn with a generation. -/
def State.withdrawViews (s : State) (p : Post) (gen : Word) : State :=
  (s.viewsOf p.ctx p.block).foldl (fun t v => t.modView p.ctx v fun x => x.withdraw gen) s

/-- The withdrawal messages of a post: it raises its block's generation, and its views lie at another shard (R323). -/
def State.messagesOf (s : State) (p : Post) : List Withdraw :=
  if s.homeShard p.ctx p.block = s.homeShard p.ctx 0 ∨ p.gen ≤ (s.block p.ctx p.block).gen then []
  else (s.viewsOf p.ctx p.block).map fun v =>
    { ctx := p.ctx, view := v, block := p.block, gen := p.gen, warp := p.warp, st := p.st }

/-- A post stands at a block's record and waits for its withdrawals: no other post, pop or PEND comes between (R317). -/
def State.recordHeld (s : State) (c b : Nat) : Bool := s.posts.any fun p => p.sent && p.ctx == c && p.block == b

/-- A post is performed at its record's home. -/
def State.applyPost (s : State) (p : Post) : State :=
  let core := keyCore p.warp
  let s := s.touchPen p.ctx p.block
  let x := s.block p.ctx p.block
  let a := s.acquireRecord [core] x.record
  let r := a.1.releaseRecord core
  let gen := if x.gen < p.gen then p.gen else x.gen
  let y : BlockRec := { x with res := x.accept p.mode (residOf p.x), gen, snd := x.snd || p.snd, record := r.2 }
  let s := r.1.modBlock p.ctx p.block fun _ => y
  let s := if x.gen < gen then s.withdrawViews p gen else s
  if y.run then s
  else if y.qd then s.modBlock p.ctx p.block fun z => { z with key := if keyOf z.res < z.key then keyOf z.res else z.key }
  else if gtF32 y.res y.tau then s.queueBlock p.ctx p.block
  else s

/-- POST (R317): a post reaches its record's home, after every earlier access of its warp (R313). It performs once other
shards have applied its withdrawals (R323). -/
def execPost (idx : Nat) (s : State) : Host.Outcome State Fault Refusal :=
  match s.posts[idx]? with
  | none => .next s
  | some p =>
    let r := (s.block p.ctx p.block).record
    if !(s.warp p.warp).earlierDone p.st ∨ !s.recordReady [keyCore p.warp] r then .next s
    else if p.sent then
      if s.withdraws.any fun x => x.warp == p.warp && x.st == p.st && x.block == p.block then .next s
      else .next ({ s with posts := s.posts.eraseIdx idx }.applyPost p)
    else if s.recordHeld p.ctx p.block then .next s
    else if s.messagesOf p = [] then .next ({ s with posts := s.posts.eraseIdx idx }.applyPost p)
    else .next { s with posts := s.posts.set idx { p with sent := true }, withdraws := s.withdraws ++ s.messagesOf p }

/-- WITHDRAW (R323). -/
def execWithdraw (idx : Nat) (s : State) : Host.Outcome State Fault Refusal :=
  match s.withdraws[idx]? with
  | none => .next s
  | some x => .next ({ s with withdraws := s.withdraws.eraseIdx idx }.modView x.ctx x.view fun y => y.withdraw x.gen)

/-! ## How a shard chooses (R320 to R322) -/

/-- A queued record as a shard sees it. -/
structure Cand where
  mbox : Bool
  num : Nat
  key : Word
  seq : Word
  postpop : Word
  snd : Bool
  tau : Word
  deriving DecidableEq, Repr

/-- The queued records of a context at a shard. -/
def State.queued (s : State) (q c : Nat) : List Cand :=
  ((s.ctx c).blocks.filter fun p => p.2.qd && s.homeShard c p.1 == q).map (fun p =>
    { mbox := false, num := p.1, key := p.2.key, seq := p.2.seq, postpop := p.2.postpop, snd := p.2.snd, tau := p.2.tau }) ++
  ((s.ctx c).mboxes.filter fun p => p.2.qd && s.homeShard c p.1 == q).map fun p =>
    { mbox := true, num := p.1, key := p.2.key, seq := p.2.seq, postpop := p.2.postpop, snd := false, tau := 0#32 }

/-- The fields of DRVAGE and DRVSTL (R315). -/
def ageCap (x : Dword) : Nat := (x.extractLsb' 48 16).toNat
def ageA (x : Dword) : Nat := (x.extractLsb' 32 16).toNat
def ageW (x : Dword) : Nat := 2 ^ (x.extractLsb' 29 3).toNat
def ageD (x : Dword) : Nat := (x.extractLsb' 0 25).toNat
def stealPenalty (x : Dword) : Nat := (x.extractLsb' 32 32).toNat
def stealStep (x : Dword) : Nat := (x.extractLsb' 0 24).toNat

/-- w(r) and ek(r) at a shard. -/
def Cand.age (r : Cand) (pops : Word) : Nat := (pops - r.postpop).toNat

def State.effKey (s : State) (q c : Nat) (r : Cand) : Nat :=
  let x := s.ctx c
  let up := r.key.toNat + (if r.snd then s.qlvl q * stealStep x.drvstl else 0)
  let down := r.age (s.pops q c) / ageA x.drvage * ageD x.drvage
  min (up - down) 0xFFFFFFFF

/-- The least of a list under a key and SEQ. -/
def least (key : Cand → Nat) : List Cand → Option Cand
  | [] => none
  | r :: rs =>
    match least key rs with
    | none => some r
    | some x => if key r < key x ∨ (key r = key x ∧ r.seq ≤ x.seq) then some r else some x

/-- The first n of the records in the order of effective key and SEQ. -/
def firstOf (key : Cand → Nat) : Nat → List Cand → List Cand
  | 0, _ => []
  | n + 1, rs =>
    match least key rs with
    | none => []
    | some r => r :: firstOf key n (rs.filter fun x => x != r)

/-- Steps 2 and 3 of R320; pick chooses within the window. -/
def State.chooseHere (s : State) (q c pick : Nat) : Option Cand :=
  let rs := s.queued q c
  let x := s.ctx c
  match least (fun _ => 0) (rs.filter fun r => decide (ageCap x.drvage ≤ r.age (s.pops q c))) with
  | some r => some r
  | none =>
    let first := firstOf (s.effKey q c) (ageW x.drvage) rs
    first[pick % first.length]?

/-- The other quadrants of a die in ring order, from after q on (R13). -/
def ringFrom (q : Nat) : List Nat :=
  (match q % 4 with
   | 0 => [1, 3, 2]
   | 1 => [3, 2, 0]
   | 3 => [2, 0, 1]
   | _ => [0, 1, 3]).map fun i => q / 4 * 4 + i

/-- A steal: the shard stolen from and the record (R322). -/
def State.steal (s : State) (q c : Nat) : Option (Nat × Cand) :=
  let pen := stealPenalty (s.ctx c).drvstl
  (ringFrom q).findSome? fun v =>
    (least (s.effKey v c) ((s.queued v c).filter fun r => !r.mbox && decide (s.effKey v c r + pen < (keyOf r.tau).toNat))).map
      fun r => (v, r)

/-- The first record of the deadline lane of a context at a shard (R330). -/
def State.lane (s : State) (q c : Nat) : Option (Nat × Handle) :=
  ((s.shard q).handles.filter fun h => h.2.inLane && h.2.ctx == c).foldl
    (fun best h => match best with
      | none => some h
      | some b => if h.2.expiry < b.2.expiry then some h else some b) none

/-- What a team pops. -/
inductive Choice where
  | deadline (handle : Nat)
  | record (shard : Nat) (r : Cand)
  deriving DecidableEq, Repr

/-- The choice for a team of a context at a shard. -/
def State.choose (s : State) (q c pick : Nat) : Option Choice :=
  match s.lane q c with
  | some (h, _) => some (.deadline h)
  | none =>
    match s.chooseHere q c pick with
    | some r => some (.record q r)
    | none => (s.steal q c).map fun x => .record x.1 x.2

/-! ## Entering a phase (R310, R311) -/

/-- The warps of a team, warp 0 first. -/
def Team.warps (t : Team) : List Nat := (t.cores.zip t.slots).map fun p => warpKey p.1 p.2

/-- The shard at which a team sleeps. -/
def Team.shard (t : Team) : Nat := quadOf (t.cores.headD 0)

/-- Register rows of a core that are given out or being scrubbed (R15, R397). -/
def State.rowsUsed (s : State) (core : Nat) : Nat :=
  ((s.warps.filter fun p => keyCore p.1 == core && p.2.present).map fun p => p.2.valloc).sum + (s.core core).rowsScrub

/-- Each core of a team has rows for its warps. -/
def State.rowsFor (s : State) (t : Team) : Bool :=
  (distinct t.cores).all fun c => decide (s.rowsUsed c + t.regs * (t.cores.filter fun x => x == c).length ≤ 4096)

/-- Every warp of the team is asleep in PNEXT, and it may pop (R310, R334, R391). -/
def State.mayPop (s : State) (tk : Nat) : Bool :=
  let t := s.team tk
  t.life == .live && t.stop == .none && t.phase.isNone && t.warps != [] && s.rowsFor t &&
    t.warps.all fun k =>
      (s.warp k).frozen.isNone && match (s.warp k).status with | .asleep .pnext _ => true | _ => false

/-- The team of a context at a shard that has slept longest among those that may pop; of equals the lowest number. -/
def State.nextTeam (s : State) (c q : Nat) : Option Nat :=
  ((List.range 64).filter fun i => (s.team (teamKey c i)).shard == q && s.mayPop (teamKey c i)).foldl
    (fun best i => match best with
      | none => some i
      | some j => if (s.team (teamKey c i)).slept < (s.team (teamKey c j)).slept then some i else some j) none

/-- The register values that a phase delivers. -/
structure Entry where
  pc : Dword
  sup : Bool := false
  regs : Tbl Word := []
  preds : Tbl (BitVec 16) := []
  exec : Mask := 0xFFFFFFFF#32
  deriving DecidableEq, Repr

/-- Set bits of a mask of s-registers, ascending. -/
def carriedS (m : BitVec 128) : List Nat := (List.range 128).filter fun n => m.getLsbD n

/-- VCARRY and SCARRY in the registers that CVMAP and CSMASK name. -/
def BlockRec.entryRegs (x : BlockRec) : Tbl Word :=
  tsetMany 0#32 []
    ((x.cvmap.zipIdx.filter fun p => p.1 != 0xFF).flatMap (fun p => lanes.map fun l => (vKey p.1 l, tget 0#32 x.vcarry (32 * p.2 + l))) ++
      (carriedS x.csmask).zipIdx.map fun p => (sKeyUser p.1, tget 0#32 x.scarry p.2))

/-- A warp enters a phase: it takes its rows and what the record carries; everything else reads zero (R310). -/
def Warp.enter (w : Warp) (e : Entry) (rows : Nat) : Warp :=
  { w with pc := e.pc, left := 0, rewait := false, running := false, fetching := true, mark := false, status := .ready
           valloc := rows, regs := e.regs, preds := e.preds, exec := e.exec, stack := [], fmt := 0x21#32, xv := 0#32
           priv := w.priv || e.sup, inPhase := true, pended := none
           outs := w.outs.map fun o => { o with tgts := o.tgts.filter fun t => decide (9000 ≤ t.key) } }

/-- The checks of R65 on the entry, for the first warp of the team. A word there that is no header is the phase-state fault of
R65 and R310, not the illegal-clause trap that R40 gives for a target: no ruling decides between them (log 101). -/
def State.entryOk (s : State) (k : Nat) (e : Entry) : Bool :=
  let t : State := { s with cur := k }
  e.pc.toNat % 8 == 0 &&
    match t.codeWord { t.me with priv := t.me.priv || e.sup } e.pc with
    | .ok x => isHeader x
    | .error _ => false

/-- The phase-state fault at a word (R335). -/
def phaseFault (w : Warp) (k : Ctl) : Trp := { kind := 12, mask := w.eff k }

/-- The phase-state fault at the PNEXT of every warp of a team. -/
def State.faultAll (s : State) (ks : List Nat) : State :=
  ks.foldl (fun t k => ({ t with cur := k } : State).takeTrap { kind := 12, mask := (t.warp k).exec }) s

/-- Every warp of a team enters. -/
def State.enterAll (s : State) (t : Team) (e : Entry) : State := t.warps.foldl (fun u k => u.modWarp k fun w => w.enter e t.regs) s

/-- A request ends: its class counts fall, and its handle is free (R329). -/
def State.endRequest (s : State) (q h : Nat) : State :=
  let x := s.handle q h
  if x.used then
    (s.setHandle q h {}).modShard q fun y =>
      { y with out := tmod 0 y.out x.cls (· - 1), nout := tmod 0 y.nout x.cls (· - x.n) }
  else s

/-- A mailbox becomes EMPTY (R326). -/
def Mbox.empty (x : Mbox) : Mbox := { x with st := .empty, owner := none }

/-- A team pops a block record (R310). -/
def State.popBlock (s : State) (tk q b : Nat) : State :=
  let c := tk / 64
  let t := s.team tk
  let x := s.block c b
  let a := (s.touchPen c b).acquireRecord t.cores x.record
  let s := (a.1.modShard q fun y => { y with pops := tmod 0#32 y.pops c (· + 1#32) })
  let e : Entry := { pc := x.entry, regs := x.entryRegs, preds := x.pcarry, exec := x.exec }
  if s.entryOk (t.warps.headD 0) e then
    let p : Phase := { kind := .block, num := b, shard := s.homeShard c b, gen := x.gen, popres := x.res }
    ((s.modBlock c b fun y => { y with run := true, qd := false, res := 0#32, record := a.2 }).modTeam tk fun y =>
      { y with phase := some p }).enterAll t e
  else (s.modBlock c b fun y => { y with run := false, qd := false, record := a.2 }).faultAll t.warps

/-- A team pops a mailbox record (R311, R326, R371). -/
def State.popMbox (s : State) (tk q n : Nat) : State :=
  let c := tk / 64
  let t := s.team tk
  let x := s.mbox c n
  let a := s.acquireRecord t.cores x.record
  let s := (a.1.modShard q fun y => { y with pops := tmod 0#32 y.pops c (· + 1#32) })
  let e : Entry := { pc := x.entry, sup := n == 64, regs := tsetMany 0#32 [] [(sKeyUser 0, BitVec.ofNat 32 n)] }
  if s.entryOk (t.warps.headD 0) e then
    let p : Phase := { kind := .mailbox, num := n, shard := s.homeShard c n, gen := x.gen, popres := 0#32 }
    ((s.modMbox c n fun y => { y with run := true, qd := false, st := .taken, owner := some tk, record := a.2 }).modTeam tk
      fun y => { y with phase := some p }).enterAll t e
  else (s.modMbox c n fun y => { y with run := false, qd := false, record := a.2 }.empty).faultAll t.warps

/-- Is a block's record one that the deadline of a generation abandons (R330)? -/
def State.abandons (s : State) (q c : Nat) (gen : Word) (b : Nat) (x : BlockRec) : Bool :=
  x.qd && x.gen == gen && s.homeShard c b == q

/-- Queued block records of a generation leave their shard's queue (R330). -/
def State.abandon (s : State) (q c : Nat) (gen : Word) : State :=
  s.modCtx c fun x => { x with blocks := tmap {} (fun b y =>
    if s.abandons q c gen b y then { y with qd := false } else y) x.blocks }

/-- Does the pop of a deadline wait for a post that stands at a record which it abandons (R317)? -/
def State.deadlineWaits (s : State) (q c h : Nat) : Bool :=
  let x := s.handle q h
  x.abandon && (s.ctx c).blocks.any fun b => s.abandons q c x.gen b.1 b.2 && s.recordHeld c b.1

/-- A team pops a deadline record (R311, R330). -/
def State.popDeadline (s : State) (tk q h : Nat) : State :=
  let c := tk / 64
  let t := s.team tk
  let x := s.handle q h
  let s := if x.abandon then s.abandon q c x.gen else s
  let e : Entry :=
    { pc := (s.mbox c x.mbox).entry
      regs := tsetMany 0#32 [] [(sKeyUser 0, BitVec.ofNat 32 h), (sKeyUser 1, x.view), (sKeyUser 2, 1#32), (sKeyUser 3, x.gen)] }
  if s.entryOk (t.warps.headD 0) e then
    let p : Phase := { kind := .deadline, num := h, shard := q, gen := x.gen, popres := 0#32 }
    ((s.setHandle q h { x with inLane := false, running := true, runner := tk }).modTeam tk fun y => { y with phase := some p }).enterAll t e
  else (s.endRequest q h).faultAll t.warps

/-- Does the pop of a chosen record wait: for a post that stands at it, with which it is indivisible (R317), or for what its
record names to be drained (R209)? -/
def State.popWaits (s : State) (tk : Nat) (r : Cand) : Bool :=
  let c := tk / 64
  let cores := (s.team tk).cores
  if r.mbox then !s.recordReady cores (s.mbox c r.num).record
  else s.recordHeld c r.num || !s.recordReady cores (s.block c r.num).record

/-- TEAM_POP (R310, R320): the team of the context that has slept longest at its shard takes a record. -/
def execTeamPop (ctx team pick : Nat) (s : State) : Host.Outcome State Fault Refusal :=
  let tk := teamKey ctx team
  let q := (s.team tk).shard
  if s.nextTeam ctx q = some team then
    match s.choose q ctx pick with
    | some (.deadline h) => .next (if s.deadlineWaits q ctx h then s else s.popDeadline tk q h)
    | some (.record v r) =>
      .next (if s.popWaits tk r then s
        else if r.mbox then s.popMbox tk v r.num else s.popBlock tk v r.num)
    | none => .next s
  else .next s

/-- PNEXT (R310). -/
def execPnext (k : Ctl) (f : EFields) (s : State) : Host.Outcome State Fault Refusal :=
  issue s k (.pnext k f) fun s =>
    if s.me.inPhase then s.takeTrap (phaseFault s.me k)
    else (s.modMe fun w => w.sleepIn k.sw .pnext s.tick).modTeam s.me.teamKey fun t => { t with slept := s.tick }

/-! ## The end of a phase (R312, R313) -/

/-- The v-registers that warp 0 leaves for its block's record: taken at its PEND, which releases them (log 34). -/
def Phase.carry (p : Phase) (w : Warp) (x : BlockRec) : Phase :=
  { p with vcarry := tsetMany 0#32 [] ((x.cvmap.zipIdx.filter fun y => y.1 != 0xFF).flatMap fun y =>
      lanes.map fun l => (32 * y.2 + l, w.getV y.1 l)) }

/-- The spill of a phase's end: those, and warp 0's carried s-registers, predicates and EXEC as they are now (R312). -/
def BlockRec.spill (x : BlockRec) (p : Phase) (w : Warp) : BlockRec :=
  { x with
    vcarry := p.vcarry
    scarry := tsetMany 0#32 [] ((carriedS x.csmask).zipIdx.map fun y => (y.2, tget 0#32 w.regs (sKeyUser y.1)))
    pcarry := w.preds
    exec := w.exec }

/-- The request of a deadline phase ends with it, unless it has ended already and its handle is another's (R329). -/
def State.endOwn (s : State) (tk : Nat) (p : Phase) : State :=
  let x := s.handle p.shard p.num
  if x.running ∧ x.runner = tk then s.endRequest p.shard p.num else s

/-- The window of a warp goes to the scrub (R280). -/
def State.dropWindow (s : State) (core : Nat) (w : Warp) : State :=
  match w.window with
  | some x => s.modCore core fun c => { c with windows := tset 0 c.windows x.slot 2 }
  | none => s

/-- The warp's part of the phase is over: its v-registers and its window are released. -/
def Warp.leavePhase (w : Warp) (sup : Bool) (next : Nat) : Warp :=
  { w with valloc := 0, regs := w.regs.filter fun e => decide (8192 ≤ e.1), window := none, inPhase := false
           pended := some next, priv := w.priv && !sup }

/-- A lazy release that continues an earlier one: what the record names on another core is drained first (R210). -/
def State.continueRecord (s : State) (core : Nat) (r : Option Record) : State × Option Record :=
  (s.acquireRecord [core] r).1.releaseRecord core

/-- The record's part of the end of a phase. -/
def State.closePhase (s : State) (tk : Nat) (p : Phase) : State :=
  let c := tk / 64
  let t := s.team tk
  let core := t.cores.headD 0
  let s := ((distinct t.cores).filter fun k => k != core).foldl (fun u k => u.writeBackAll k (u.dirtyLines k ((u.core k).relCtr + 1#32))) s
  match p.kind with
  | .block =>
    let r := (s.touchPen c p.num).continueRecord core (s.block c p.num).record
    let x := r.1.block c p.num
    let y : BlockRec :=
      { x.spill p (r.1.warp (t.warps.headD 0)) with
        res := addUp p.resid x.res, run := false, snd := p.snd, record := r.2 }
    let s := r.1.modBlock c p.num fun _ => y
    if gtF32 y.res y.tau then s.queueBlock c p.num else s
  | .mailbox =>
    let r := s.continueRecord core (s.mbox c p.num).record
    r.1.modMbox c p.num fun x =>
      if x.owner = some tk then { x with run := false, record := r.2 }.empty
      else if x.owner = none then { x with run := false, record := r.2 } else { x with record := r.2 }
  | .deadline => s.endOwn tk p

/-- The release record that the end of a phase meets. -/
def State.phaseRecord (s : State) (c : Nat) (p : Phase) : Option Record :=
  match p.kind with
  | .block => (s.block c p.num).record
  | .mailbox => (s.mbox c p.num).record
  | .deadline => none

/-- May a phase end now? Its record is no post's, and the drain of the record's last poster and the write-backs of the team's
other core would be accepted. -/
def State.mayEnd (s : State) (tk : Nat) (p : Phase) : Bool :=
  let cores := (s.team tk).cores
  !(p.kind == .block && s.recordHeld (tk / 64) p.num) && s.recordReady [cores.headD 0] (s.phaseRecord (tk / 64) p) &&
    (distinct cores).all fun k => k == cores.headD 0 || s.markersPass k (s.dirtyLines k ((s.core k).relCtr + 1#32))

/-- The phase ends once every warp has executed PEND and its earlier accesses have performed. -/
def State.endPhase (s : State) (tk : Nat) : State :=
  let t := s.team tk
  match t.phase with
  | none => s
  | some p =>
    if s.mayEnd tk p && t.warps.all fun k => match (s.warp k).pended with | some n => (s.warp k).earlierDone n | none => false then
      t.warps.foldl (fun u k => u.modWarp k fun w => { w with pended := none })
        ((s.closePhase tk p).modTeam tk fun y => { y with phase := none })
    else s

/-- PEND (R312). -/
def execPend (k : Ctl) (f : EFields) (s : State) : Host.Outcome State Fault Refusal :=
  issue s k (.pend k f) fun s =>
    let w := s.me
    let tk := w.teamKey
    let core := keyCore s.cur
    match (s.team tk).phase with
    | none => s.takeTrap (phaseFault w k)
    | some p =>
      if !w.inPhase ∨ w.stack ≠ [] then s.takeTrap (phaseFault w k)
      else if w.outs ≠ [] ∨ s.wordsOf core (keySlot s.cur) ≠ [] then s
      else
        let p := { p with snd := p.snd || bit16 f.func 0 }
        let p := if w.twarp = 0 ∧ p.kind = .block then p.carry w (s.block w.ctx p.num) else p
        let s := (s.dropWindow core w).modCore core fun c => { c with rowsScrub := c.rowsScrub + w.valloc }
        let s := s.modTeam tk fun t => { t with phase := some p }
        (s.modMe fun w => (w.leavePhase (p.kind == .mailbox && p.num == 64) s.nextId).fallThrough k.sw).endPhase tk

/-! ## RESID, PPOST and RPROP (R314, R318) -/

/-- The phase of a warp that is inside one. -/
def State.phaseOf (s : State) (w : Warp) : Option Phase := if w.inPhase then (s.team w.teamKey).phase else none

/-- The phase's generation (R317); 0 outside a phase (R333). -/
def State.phaseGen (s : State) (w : Warp) : Word := match s.phaseOf w with | some p => p.gen | none => 0#32

/-- RESID (R314). -/
def execResid (k : Ctl) (f : EFields) (s : State) : Host.Outcome State Fault Refusal :=
  issue s k (.resid k f) fun s =>
    let w := s.me
    if !w.acts k then s.finish k [] 0#6
    else
      match s.phaseOf w with
      | none => s.takeTrap (phaseFault w k)
      | some p =>
        if p.kind ≠ .block then s.takeTrap (phaseFault w k)
        else
          let x := residOf (rdU s w f.a)
          let l := if f.func = 0#16 then x else if p.resid < x then x else p.resid
          (s.modTeam w.teamKey fun t => { t with phase := some { p with resid := l } }).finish k [] 0#6

/-- Posts leave the warp as one entry of its store counter. -/
def State.sendPosts (s : State) (k : Ctl) (ps : List (Nat × Word)) (mode : Nat) (snd : Bool) : State :=
  let w := s.me
  let id := s.nextId
  let gen := s.phaseGen w
  let t : State := { s with posts := s.posts ++ ps.map fun p =>
    { ctx := w.ctx, block := p.1, x := p.2, mode, snd, gen, warp := s.cur, st := id } }
  (t.modMe fun w => w.addStore { id, kind := .post }).fresh.advance k

/-- PPOST (R318). -/
def execPpost (k : Ctl) (f : EFields) (s : State) : Host.Outcome State Fault Refusal :=
  issue s k (.ppost k f) fun s =>
    let w := s.me
    if !w.acts k then s.finish k [] 0#6
    else
      let b := (rdU s w f.a).toNat
      if (s.ctx w.ctx).nblocks ≤ b then s.takeTrap (phaseFault w k)
      else s.sendPosts k [(b, rdU s w f.b)] (f.func.extractLsb' 0 2).toNat (bit16 f.func 2)

/-- One entry of a dependent list (R318). -/
def listEntry (x : Nat) : Word × Bool × Nat × Nat :=
  (BitVec.ofNat 32 (x / 2 ^ 32), x.testBit 31, x / 2 ^ 20 % 2 ^ 11, x % 2 ^ 20)

/-- |WEIGHT x r|, rounded upward. -/
def coupled (weight r : Word) : Word := (rndF32 (mulNum (decF32 weight) (decF32 r)).1.abs 2).1

/-- RPROP (R318): the list is a plain load, read as the word issues (log 35); so the word stalls for what a plain load of the
line comes after (R114, R202, R205, R209, R215, R220). -/
def execRprop (k : Ctl) (f : EFields) (s : State) : Host.Outcome State Fault Refusal :=
  issue s k (.rprop k f) fun s =>
    let w := s.me
    if !w.acts k then s.finish k [] 0#6
    else
      match s.lanePlaces w {} [⟨0, 0, rdU64 s w f.a⟩] 128 128 needR (fun _ => none) with
      | .error t => s.takeTrap { t with mask := w.eff k }
      | .ok ps =>
        match poisonTrap s (w.eff k) 128 ps with
        | some t => s.takeTrap t
        | none =>
          let key := (ps.head?.map fun p => p.2.key).getD 0
          let plain := ps.any fun p => p.2.cls == 0
          let core := keyCore s.cur
          let x := s.l1 core (ncKey (lineOf key))
          let line := lineOf key
          if s.readWaits core s.nextId line ∨ !s.inOrder s.nextId line ∨ w.outs.any (fun o => o.acquires) then s
          else
            let copy := if plain then some x else none
            let es := (List.range 16).map fun i => listEntry (s.readFor copy (key + 8 * i) 8)
            let used := es.filter fun e => e.2.1
            let t := (s.noteAll w {} (ps.map Prod.fst) 128).engineRead w.ctx core 0 key 128
            if used.any fun e => e.2.2.1 != 0 || decide ((s.ctx w.ctx).nblocks ≤ e.2.2.2) then s.takeTrap (phaseFault w k)
            else
              let r := rdU s w f.b
              t.sendPosts k (used.map fun e => (e.2.2.2, coupled e.1 r)) 0 (bit16 f.func 0)

/-! ## Views (R324, R325) -/

/-- The residual of a block as VPUB reads it. -/
def State.rho (s : State) (c : Nat) (own : Option Nat) (l : Word) (b : Nat) : Word :=
  if own = some b then addUp l (s.block c b).res else (s.block c b).res

/-- A VPUB performs at the view's shard. l is the local residual that the phase held as the word issued: R324 does not say at
which moment it is read (log 111). -/
def State.publish (s : State) (c core v : Nat) (p l : Word) (own : Option Nat) : State :=
  let x := s.view c v
  let bs := (List.range (s.ctx c).nblocks).filter fun b => x.blocks.contains b
  let rs := bs.map fun b => (b, s.rho c own l b)
  let gen := if x.gen < p then p else x.gen
  let bound := if x.sum then rs.foldl (fun a r => addUp a r.2) 0#32 else rs.foldl (fun a r => if a < r.2 then r.2 else a) 0#32
  let settled := rs.all (fun r => !gtF32 r.2 (s.block c r.1).tau && !(s.block c r.1).qd &&
      !((s.block c r.1).run && decide (own ≠ some r.1))) && p == gen
  let r := s.continueRecord core x.record
  r.1.modView c v fun x =>
    { x with ver := x.ver + 1#32, pgen := p, gen, bound, settled, record := r.2 }

/-- VPUB (R324): it performs after every earlier access of its warp, with the local residual of now (log 111). -/
def execVpub (k : Ctl) (f : EFields) (s : State) : Host.Outcome State Fault Refusal :=
  issue s k (.vpub k f) fun s =>
    let w := s.me
    if !w.acts k then s.finish k [] 0#6
    else
      let v := (rdU s w f.a).toNat
      match s.phaseOf w with
      | none => s.takeTrap (phaseFault w k)
      | some p =>
        if (s.ctx w.ctx).nviews ≤ v then s.takeTrap (phaseFault w k)
        else
          let own := if p.kind = .block then some p.num else none
          (s.modMe fun w => w.addStore { id := s.nextId, kind := .publish v p.gen p.resid own }).fresh.advance k

/-- A VPUB of a view by the warp that has not performed (R202). -/
def Warp.publishes (w : Warp) (v : Nat) : Bool :=
  w.stq.any fun e =>
    match e.kind with
    | .publish x .. => x == v
    | _ => false

/-- VREAD (R325): an acquire, which comes after the warp's own VPUBs of the view, and after what its last popping JOIN put
before it (R114, R202). -/
def execVread (k : Ctl) (f : EFields) (s : State) : Host.Outcome State Fault Refusal :=
  issue s k (.vread k f) fun s =>
    let w := s.me
    if !w.acts k then s.finish k [] 0#6
    else
      let v := (rdU s w f.a).toNat
      if (s.ctx w.ctx).nviews ≤ v then s.takeTrap (phaseFault w k)
      else
        let x := s.view w.ctx v
        if !s.recordReady [keyCore s.cur] x.record ∨ w.publishes v ∨ !w.epochOk s.nextId then s else
        let a := s.acquireRecord [keyCore s.cur] x.record
        let t := a.1.modView w.ctx v fun y => { y with record := a.2 }
        let flags : Word := BitVec.ofNat 32 ((if x.settled then 1 else 0) + if x.pgen < x.gen then 2 else 0)
        t.defer k ((dstKeys w f.d 4 0).zip [x.ver, x.gen, x.bound, flags]) 0#6 true true

/-! ## STORE_PERFORM (R207, R324) -/

/-- STORE_PERFORM: an entry of a warp's store counter performs, and a phase that waits for it may end. -/
def execStorePerform (core slot id : Nat) (s : State) : Host.Outcome State Fault Refusal :=
  let k := warpKey core slot
  let w := s.warp k
  match w.stq.find? fun e => e.id == id with
  | none => .next s
  | some e =>
    let t :=
      match e.kind with
      | .publish v p l own =>
        if w.earlierDone id ∧ s.recordReady [core] (s.view w.ctx v).record then
          (s.publish w.ctx core v p l own).modWarp k fun w => w.dropStore e
        else s
      | _ => s.perform k e
    .next (t.endPhase w.teamKey)

/-! ## Mailboxes (R326 to R328) -/

/-- The number of a mailbox operand, or the phase-state fault. -/
def mboxNum (s : State) (w : Warp) (o : Operand) : Option Nat := if (rdU s w o).toNat ≤ 64 then some (rdU s w o).toNat else none

/-- MBRD (R327): an acquire, which comes after what its warp's last popping JOIN put before it (R114, R202). -/
def execMbrd (k : Ctl) (f : EFields) (s : State) : Host.Outcome State Fault Refusal :=
  issue s k (.mbrd k f) fun s =>
    let w := s.me
    if !w.acts k then s.finish k [] 0#6
    else
      match mboxNum s w f.a with
      | none => s.takeTrap (phaseFault w k)
      | some n =>
        if !w.epochOk s.nextId then s else
        let x := s.mbox w.ctx n
        let hi := if bit16 f.func 0 then 32 else 0
        let t := if bit16 f.func 1 then s.modMbox w.ctx n Mbox.empty else s
        if dstLanes w k = [] then t.finish k [] 0#6
        else t.defer k ((dstLanes w k).map fun l => (vKey (regNum f.d) l, tget 0#32 x.inb (l + hi))) 0#6 true true

/-- MBWR (R328): with .ntf it is a release at host scope, so it waits until the warp's earlier accesses have performed and the
markers behind its write-backs would be accepted (R214). It comes after what its warp's last popping JOIN put before it
(R114, R202). -/
def execMbwr (k : Ctl) (f : EFields) (s : State) : Host.Outcome State Fault Refusal :=
  issue s k (.mbwr k f) fun s =>
    let w := s.me
    let core := keyCore s.cur
    let ntf := bit16 f.func 1
    if !w.acts k then s.finish k [] 0#6
    else
      match mboxNum s w f.b with
      | none => s.takeTrap (phaseFault w k)
      | some n =>
        let x := s.mbox w.ctx n
        let hi := if bit16 f.func 0 then 32 else 0
        let dirty := s.dirtyLines core ((s.core core).relCtr + 1#32)
        if !w.epochOk s.nextId then s
        else if x.ofull then s.answer k f.d 1#32
        else if ntf ∧ (w.stq ≠ [] ∨ (w.outs.any fun o => s.pending s.cur o.id) ∨ !s.markersPass core dirty) then s
        else
          let ws := (dstLanes w k).map fun l => (l + hi, w.getV (regNum f.a) l)
          let t := s.modMbox w.ctx n fun y => { y with outb := tsetMany 0#32 y.outb ws, ofull := y.ofull || ntf }
          let t := if ntf then
              ((t.writeBackAll core dirty).bumpRelease core).raise (2 * w.ctx)
            else t
          t.answer k f.d 0#32

/-! ## Admission and deadlines (R329, R330) -/

/-- The fields of CLASSRES. -/
def classMaxreq (x : Dword) : Nat := (x.extractLsb' 56 8).toNat
def classDpub (x : Dword) : Nat := (x.extractLsb' 40 16).toNat
def classPhb (x : Dword) : Nat := (x.extractLsb' 16 24).toNat
def classRate (x : Dword) : Nat := (x.extractLsb' 0 11).toNat

/-- The outcome of an ADMIT: status, handle, and the bound P. -/
def State.admission (s : State) (q cls n limit : Nat) : Nat × Nat × Nat :=
  let y := s.shard q
  let x := tget 0#64 y.classres cls
  let rate := classRate x
  let qd := ((tget 0 y.nout cls + n) * 1024 + rate - 1) / rate
  let p := qd + classPhb x + classMaxreq x * classDpub x
  if rate = 0 then (3, 0, 0)
  else if tget 0 y.out cls = classMaxreq x then (2, 0, 0)
  else
    match (List.range 256).find? fun h => !(tget {} y.handles h).used with
    | none => (1, 0, 0)
    | some h => if n = 0 ∨ limit < p then (1, 0, 0) else (0, h, p)

/-- ADMIT. -/
def execAdmitReq (k : Ctl) (f : EFields) (s : State) : Host.Outcome State Fault Refusal :=
  issue s k (.admitReq k f) fun s =>
    let w := s.me
    if !w.acts k then s.finish k [] 0#6
    else
      let q := quadOf (keyCore s.cur)
      let cls := ctxClass (s.ctx w.ctx)
      let n := (rdU s w f.a).toNat
      let r := s.admission q cls n (rdU s w f.b).toNat
      let x := tget 0#64 (s.shard q).classres cls
      let qd := ((tget 0 (s.shard q).nout cls + n) * 1024 + classRate x - 1) / classRate x
      let t :=
        if r.1 = 0 then
          (s.setHandle q r.2.1 { used := true, ctx := w.ctx, cls, expiry := s.icnt q + BitVec.ofNat 64 qd, n, gen := s.phaseGen w }).modShard
            q fun y => { y with out := tmod 0 y.out cls (· + 1), nout := tmod 0 y.nout cls (· + n) }
        else s
      t.defer k ((dstKeys w f.d 2 0).zip [BitVec.ofNat 32 (r.1 + r.2.1 * 256), BitVec.ofNat 32 r.2.2]) 0#6 true false

/-- Has a request reached its expiry? -/
def State.expired (s : State) (q : Nat) (x : Handle) : Bool := decide ((s.icnt q - x.expiry).toNat < 2 ^ 63)

/-- DLINE (R330). -/
def execDline (k : Ctl) (f : EFields) (s : State) : Host.Outcome State Fault Refusal :=
  issue s k (.dline k f) fun s =>
    let w := s.me
    if !w.acts k then s.finish k [] 0#6
    else
      let q := quadOf (keyCore s.cur)
      let h := (rdU s w f.a).toNat
      let x := s.handle q h
      let b := rdU64 s w f.b
      let view := loWord b
      if 256 ≤ h ∨ !x.used ∨ x.ctx ≠ w.ctx ∨ (!x.armed ∧ s.expired q x) then s.answer k f.d 1#32
      else if bit16 f.func 0 then (s.endRequest q h).answer k f.d 0#32
      else if (s.ctx w.ctx).nviews ≤ view.toNat then s.answer k f.d 1#32
      else if x.armed then s.answer k f.d 2#32
      else
        (s.setHandle q h { x with view, mbox := ((hiWord b).extractLsb' 0 6).toNat, abandon := bit16 f.func 2, armed := true }).answer
          k f.d 0#32

/-- A request at its expiry: an armed one enters the lane, and one that is not armed ends (R329, R330). -/
def State.expire (s : State) (q h : Nat) : State :=
  let x := s.handle q h
  if x.used ∧ !x.inLane ∧ !x.running ∧ s.expired q x then
    if x.armed then s.setHandle q h { x with inLane := true } else s.endRequest q h
  else s

/-- Every request of the module that has reached its expiry. No step leaves one behind (R330, R331, log 44). -/
def State.expireAll (s : State) : State :=
  (s.shards.flatMap fun q => q.2.handles.map fun h => (q.1, h.1)).foldl (fun t x => t.expire x.1 x.2) s

/-- DEADLINE_EXPIRY (R330). -/
def execDeadlineExpiry (shard handle : Nat) (s : State) : Host.Outcome State Fault Refusal := .next (s.expire shard handle)

/-! ## Sweeps (R332, R402) -/

/-- The distributor withdraws the lowest item of the oldest sweep: the landing's words, and what is left. -/
def takeItem : List Sweep → Option (List Word × List Sweep)
  | [] => none
  | x :: xs =>
    some ([x.id, BitVec.ofNat 32 x.next, x.arg, 1#32], if x.next + 1 < x.n then { x with next := x.next + 1 } :: xs else xs)

/-- WFETCH. -/
def execWfetch (k : Ctl) (f : EFields) (s : State) : Host.Outcome State Fault Refusal :=
  issue s k (.wfetch k f) fun s =>
    let w := s.me
    let t := s.team w.teamKey
    if !w.acts k then s.finish k [] 0#6
    else
      let o := (rdU s w f.a).toNat
      let answer (s : State) (v : Word) : State := s.defer k (writes32 w k f.d fun _ => v) 0#6 true false
      if o % 16 ≠ 0 ∨ t.scratchSize < o + 16 then
        s.takeTrap { kind := 7, cause := 5, mask := w.eff k, addr := BitVec.ofNat 64 o }
      else
        match takeItem (s.ctx w.ctx).sweeps with
        | none => answer s 1#32
        | some (ws, rest) =>
          if t.fetches.any fun x => x.1 == o then answer s 2#32
          else
            answer ((s.modCtx w.ctx fun x => { x with sweeps := rest }).modTeam w.teamKey fun y =>
              { y with fetches := y.fetches ++ [(o, ws)] }) 0#32

/-- WFETCH_LANDING (R332): the item's words and its ready flag are written into scratchpad. -/
def execWfetchLanding (ctx team : Nat) (s : State) : Host.Outcome State Fault Refusal :=
  let tk := teamKey ctx team
  match (s.team tk).fetches with
  | [] => .next s
  | (o, ws) :: rest =>
    .next ((s.putScratch tk o (ws.flatMap fun x => natLe 4 x.toNat)).modTeam tk fun t => { t with fetches := rest })

/-- GENRD (R333). -/
def execGenrd (k : Ctl) (f : EFields) (s : State) : Host.Outcome State Fault Refusal :=
  issue s k (.genrd k f) fun s =>
    let w := s.me
    if !w.acts k then s.finish k [] 0#6
    else
      match f.func.toNat with
      | 0 => s.defer k (writes32 w k f.d fun _ => (s.ctx w.ctx).igen) 0#6 true false
      | 1 => s.answer k f.d (s.phaseGen w)
      | 2 => s.answer k f.d (match s.phaseOf w with | some p => p.popres | none => 0#32)
      | _ => s.defer k (writes32 w k f.d fun _ => loWord (s.icnt (quadOf (keyCore s.cur)))) 0#6 true false

/-! ## The host's side (R326, R227, R400 to R402, R404) -/

/-- May a requester reach a context's BAR0 block (R404, R410)? -/
def State.hostAllowed (s : State) (rid c : Nat) : Bool :=
  (s.ctx c).established && (match (s.ctx c).lockrid with | some r => r == rid | none => true) &&
    !s.links.frozenHosts.contains (c, rid)

/-- A host request that is refused: the function is frozen towards context c, and the violation is recorded with context
at' (R384, R404); a function that is frozen already is refused without another record (log 37). -/
def State.refuseHost (s : State) (rid c at' : Nat) (addr : Dword) : State :=
  if s.links.frozenHosts.contains (c, rid) then s
  else
    ({ s with links := { s.links with frozenHosts := (c, rid) :: s.links.frozenHosts } } : State).recordFault at'
      { addr, cause := 6#8, mkind := 4#3, reqid := BitVec.ofNat 16 rid }

/-- A request to a context's BAR0 block. While the module has not come up, its host link is in reset, or its driver waits for
READY (R408). -/
def State.barAccess (s : State) (rid c : Nat) (act : State → State) : State :=
  if !s.mgmt.ready then s
  else if s.hostAllowed rid c then act s else s.refuseHost rid c (if (s.ctx c).established then c else 0) 0#64

/-- One more overrun; the count saturates. -/
def Mbox.overrun (x : Mbox) : Mbox := { x with ovr := if x.ovr = 0xFFFF#16 then x.ovr else x.ovr + 1#16 }

/-- A message becomes visible (R326). -/
def State.visible (s : State) (c n : Nat) : State :=
  let x := s.mbox c n
  if x.bound ∧ x.st = .empty then
    let g := (s.ctx c).igen + 1#32
    ((s.modCtx c fun y => { y with igen := g }).modMbox c n fun y => { y with st := .full, gen := g }).queueMbox c n
  else s.modMbox c n Mbox.overrun

/-- NOTIFY (R227): one with the relaxed-ordering attribute is held for the mailbox unit's read. -/
def execNotify (rid ctx mbox : Nat) (relaxed : Bool) (s : State) : Host.Outcome State Fault Refusal :=
  .next (if 64 < mbox then s
    else s.barAccess rid ctx fun s =>
      if relaxed then s.modMbox ctx mbox fun x => { x with held := x.held + 1 } else s.visible ctx mbox)

/-- MAILBOX_UNIT_READ_COMPLETE (R227): a held message becomes visible. -/
def execMailboxUnitReadComplete (ctx mbox : Nat) (s : State) : Host.Outcome State Fault Refusal :=
  if (s.mbox ctx mbox).held = 0 then .next s
  else .next ((s.modMbox ctx mbox fun x => { x with held := x.held - 1 }).visible ctx mbox)

/-- MAILBOX_IN_WRITE (R326, R401). -/
def execMailboxInWrite (rid ctx mbox word : Nat) (val : Word) (s : State) : Host.Outcome State Fault Refusal :=
  .next (if 64 < mbox ∨ 64 ≤ word then s
    else s.barAccess rid ctx fun s => s.modMbox ctx mbox fun x =>
      if x.st = .empty then { x with inb := tset 0#32 x.inb word val } else x.overrun)

/-- OACK (R401). -/
def execOack (rid ctx mbox : Nat) (s : State) : Host.Outcome State Fault Refusal :=
  .next (if 64 < mbox then s else s.barAccess rid ctx fun s => s.modMbox ctx mbox fun x => { x with ofull := false })

/-- OVRCLR (R401). -/
def execOvrclr (rid ctx mbox : Nat) (s : State) : Host.Outcome State Fault Refusal :=
  .next (if 64 < mbox then s else s.barAccess rid ctx fun s => s.modMbox ctx mbox fun x => { x with ovr := 0#16 })

/-- SWPOST (R402): a context holds at most 16 sweeps. -/
def execSwpost (rid ctx : Nat) (s : State) : Host.Outcome State Fault Refusal :=
  .next (s.barAccess rid ctx fun s => s.modCtx ctx fun x =>
    if 16 ≤ x.sweeps.length then { x with swlost := if x.swlost = 0xFFFF#16 then x.swlost else x.swlost + 1#16 }
    else if x.swn = 0#32 then x
    else { x with sweeps := x.sweeps ++ [{ id := x.swid, next := 0, n := x.swn.toNat, arg := x.swarg }] })

/-- SCRUB_DONE (R397): a window slot, the released register rows, or the released scratchpad of a core. -/
def execScrubDone (core unit : Nat) (s : State) : Host.Outcome State Fault Refusal :=
  .next (s.modCore core fun c =>
    if unit < 4 then if tget 0 c.windows unit = 2 then { c with windows := tset 0 c.windows unit 0 } else c
    else if unit = 4 then { c with rowsScrub := 0 }
    else if unit = 5 then { c with scratchScrub := 0 } else c)

end Sys2Proof.Machine
end

