-- ==== Sys2Proof/Machine/SysReg.lean ====
section
/-! DEFINITION. The system registers (R375 to R378, R190, R193, R315, R329, R357, R385, R407): their values, what a write
changes, and which writes are illegal; SRR and SRW. -/

namespace Sys2Proof.Machine

/-! ## Values -/

/-- A FAULTREC record as 128 bits (R385). -/
def FaultRec.bits (r : FaultRec) : BitVec 128 :=
  BitVec.ofNat 128
    (r.addr.toNat * 2 ^ 64 + r.cause.toNat * 2 ^ 56 + r.mkind.toNat * 2 ^ 53 + r.wslot.toNat * 2 ^ 47 + r.team.toNat * 2 ^ 41 +
      r.core.toNat * 2 ^ 32 + r.reqid.toNat * 2 ^ 16 + r.more.toNat * 2 ^ 8 + 1)

/-- A trap register of a warp (R380). -/
def TrapRegs.value (t : TrapRegs) (reg : Nat) : BitVec 128 :=
  match reg with
  | 1 => t.tpc.setWidth 128
  | 2 => t.thdr.setWidth 128
  | 3 => t.tcause.setWidth 128
  | 4 => t.tmask.setWidth 128
  | 5 => t.texec.setWidth 128
  | 6 => t.taddr.setWidth 128
  | 7 => t.tinfo.setWidth 128
  | _ => t.tfmt.setWidth 128

/-- A context register. -/
def Ctx.value (x : Ctx) (reg : Nat) : BitVec 128 :=
  match reg with
  | 0x100 => x.ctxcfg.setWidth 128
  | 0x101 => x.tvec.setWidth 128
  | 0x102 => x.ptroot.setWidth 128
  | 0x103 => x.svent.setWidth 128
  | 0x104 => x.strtab.setWidth 128
  | 0x105 => x.poolnext.setWidth 128
  | 0x106 => x.poolend.setWidth 128
  | 0x107 => (joinWords x.quotaLimit x.quotaUsed).setWidth 128
  | 0x108 => x.waymask.setWidth 128
  | 0x109 => x.pinstat.setWidth 128
  | 0x10A => x.drvage.setWidth 128
  | 0x10B => x.drvstl.setWidth 128
  | 0x10C => match x.faults with
    | [] => 0#128
    | r :: _ => r.bits
  | 0x10D => x.fabten.setWidth 128
  | r => tget 0#128 x.expwin (r - 0x10E)

/-- A core, quadrant, die or module register. -/
def State.partValue (s : State) (reg core : Nat) : BitVec 128 :=
  match reg with
  | 0x200 => (s.throtlvl core).setWidth 128
  | 0x201 => (s.core core).unown.setWidth 128
  | 0x202 => (s.core core).corectx.setWidth 128
  | 0x308 => (s.icnt (quadOf core)).setWidth 128
  | 0x400 => (tget 0#32 s.mgmt.clkstep (dieOf core)).setWidth 128
  | 0x401 => (tget 0#32 s.mgmt.memerr (dieOf core)).setWidth 128
  | 0x402 => s.mgmt.modid.setWidth 128
  | 0x403 => s.mgmt.fabtab.setWidth 128
  | r => (tget 0#64 (s.shard (quadOf core)).classres (r - 0x300)).setWidth 128

/-- Is a register a warp's own, or a context's (R376)? -/
def Selector.perWarp (x : Selector) : Bool := decide (x.reg < 0x100)

def Selector.perCtx (x : Selector) : Bool := decide (0x100 ≤ x.reg) && decide (x.reg < 0x200)

/-- The register that a selector names; registers of a context that is not established read zero (R375). -/
def State.sysValue (s : State) (w : Warp) (x : Selector) : BitVec 128 :=
  if x.perWarp then w.trap.value x.reg
  else if x.perCtx then if (s.ctx x.ctx).established then (s.ctx x.ctx).value x.reg else 0#128
  else s.partValue x.reg x.core

/-- Word i of a register. -/
def wordAt (v : BitVec 128) (i : Nat) : Word := v.extractLsb' (32 * i) 32

/-- SRR (R375): a per-warp register has fixed latency, every other one is outstanding until it is written (R374). -/
def execSrr (k : Ctl) (f : KFields) (s : State) : Host.Outcome State Fault Refusal :=
  issue s k (.srr k f) fun s =>
    let x := selector f.imm
    let v := wordAt (s.sysValue s.me x) x.word
    if x.perWarp then s.finish k (writes32 s.me k f.d fun _ => v) 0#6
    else s.defer k (writes32 s.me k f.d fun _ => v) 0#6 true false

/-! ## Writes -/

/-- A register with word i replaced. -/
def putWordAt (v : BitVec 128) (i : Nat) (x : Word) : BitVec 128 :=
  (v &&& ~~~(0xFFFFFFFF#128 <<< (32 * i))) ||| (x.setWidth 128 <<< (32 * i))

/-- A trap register with a new value; TCAUSE is read-only (R380), and so are TFMT's reserved bits (R4, R95). -/
def TrapRegs.put (t : TrapRegs) (reg : Nat) (v : BitVec 128) : TrapRegs :=
  match reg with
  | 1 => { t with tpc := v.setWidth 64 }
  | 2 => { t with thdr := v.setWidth 64 }
  | 4 => { t with tmask := v.setWidth 32 }
  | 5 => { t with texec := v.setWidth 32 }
  | 6 => { t with taddr := v.setWidth 64 }
  | 7 => { t with tinfo := v.setWidth 32 }
  | 8 => { t with tfmt := v.setWidth 32 &&& 0x1FFFFF#32 }
  | _ => t

/-- Is a team of the context resident (R16)? -/
def State.hasTeam (s : State) (c : Nat) : Bool := s.teams.any fun t => t.1 / 64 == c && t.2.life == .live

/-- Lines that a context pins, by LOCK or by a window, in a way that a new mask takes from it (R193). -/
def State.lostPins (s : State) (c : Nat) (v : Word) : List Nat :=
  let t := s.modCtx c fun x => { x with waymask := v }
  (s.lines.filter fun p => (p.2.locks.getLsbD c || s.windowPin c p.1) && p.2.inL2 &&
    (s.waysOf c (s.home p.1)).getLsbD p.2.way && !(t.waysOf c (s.home p.1)).getLsbD p.2.way).map Prod.fst

/-- Pins of a context on lines: one by LOCK, one by a window. -/
def State.pinsOn (s : State) (c : Nat) (ls : List Nat) : Nat :=
  (ls.map fun l => (if (s.line l).locks.getLsbD c then 1 else 0) + if s.windowPin c l then 1 else 0).sum

/-- A new WAYMASK: every pin in a removed way is dropped and counted; a window pins its lines again when they are next
allocated (R193). -/
def State.setWaymask (s : State) (c : Nat) (v : Word) : State :=
  let t := s.modCtx c fun x => { x with waymask := v }
  let ls := s.lostPins c v
  let n := s.pinsOn c ls
  (ls.foldl (fun u l => u.modLine l fun y => { y with locks := y.locks &&& ~~~(1#8 <<< c) }) t).modCtx c fun x =>
    { x with quotaUsed := x.quotaUsed - BitVec.ofNat 32 n
             pinstat := BitVec.ofNat 32 (min 0xFFFFFFFF (x.pinstat.toNat + n))
             wins := x.wins.map fun w =>
               { w with unpinned := w.unpinned ++ ls.filter fun l => w.lines.contains l && !w.unpinned.contains l } }

/-- WAYMASK_WRITE (R193). -/
def execWaymaskWrite (ctx : Nat) (val : Word) (s : State) : Host.Outcome State Fault Refusal :=
  .next (if (s.ctx ctx).established then s.setWaymask ctx val else s)

/-- The oldest record goes (R385). -/
def Ctx.dropFault (x : Ctx) : Ctx := { x with faults := x.faults.drop 1 }

/-- FAULTREC_REMOVE (R385). -/
def execFaultrecRemove (ctx : Nat) (s : State) : Host.Outcome State Fault Refusal :=
  .next (if (s.ctx ctx).established then s.modCtx ctx Ctx.dropFault else s)

/-- Bits of DRVAGE and DRVSTL that hold fields (R4, R315). -/
def drvageFields : Dword := ~~~(0x1E000000#64)

def drvstlFields : Dword := ~~~(0xFF000000#64)

/-- DRVAGE values that R315 refuses. -/
def drvageBad (v : Dword) : Bool :=
  decide (ageCap v < ageW v) || ageA v == 0 || ageD v == 0 || decide (2 ^ 24 < ageD v) || v.extractLsb' 29 3 == 7#3

/-- A pool that overlaps a pen (R378). -/
def poolBad (next fin' : Dword) : Bool :=
  next.toNat % 65536 != 0 || fin'.toNat % 65536 != 0 ||
    (decide (next.toNat < fin'.toNat) && overlapsPen next.toNat (fin'.toNat - next.toNat))

/-- The fields of EXPWIN (R407). -/
def expValid (v : BitVec 128) : Bool := v.getLsbD 64
def expBase (v : BitVec 128) : Nat := (v.extractLsb' 16 36).toNat * 65536
def expEnd (v : BitVec 128) : Nat := ((v.extractLsb' 80 36).toNat + 1) * 65536
def expSet (v : BitVec 128) : Nat := (v.extractLsb' 70 6).toNat

/-- A valid window that overlaps a pen, leaves device memory or is turned round (R407). -/
def expBad (v : BitVec 128) : Bool :=
  expValid v && (decide (expEnd v ≤ expBase v) || decide (deviceEnd < expEnd v) || overlapsPen (expBase v) (expEnd v - expBase v))

/-- Bits of EXPWIN that hold fields. -/
def expMask : BitVec 128 :=
  BitVec.ofNat 128 ((2 ^ 36 - 1) * 2 ^ 80 + (2 ^ 6 - 1) * 2 ^ 70 + 7 * 2 ^ 67 + 2 ^ 64 + (2 ^ 36 - 1) * 2 ^ 16)

/-- A context register with a new value, or none where the write is illegal (R376 to R378, R315, R407). word is the word
written. -/
def State.putCtx (s : State) (c reg word : Nat) (v : BitVec 128) : Option State :=
  let x := s.ctx c
  let lo : Word := v.setWidth 32
  let d : Dword := v.setWidth 64
  let page : Bool := d.toNat % 4096 != 0
  match reg with
  | 0x100 =>
    if ctxSplit { x with ctxcfg := lo } ≠ ctxSplit x ∧ s.hasTeam c then none
    else some ((s.modCtx c fun x => { x with ctxcfg := lo &&& 0x00F70003#32 }).trimAll x.cores)
  | 0x101 => if page then none else some (s.modCtx c fun x => { x with tvec := d })
  | 0x102 => if page then none else some (s.modCtx c fun x => { x with ptroot := d })
  | 0x103 => some (s.modCtx c fun x => { x with svent := d })
  | 0x104 => if page then none else some (s.modCtx c fun x => { x with strtab := d })
  | 0x105 => if poolBad d x.poolend then none else some (s.modCtx c fun x => { x with poolnext := d })
  | 0x106 => if poolBad x.poolnext d then none else some (s.modCtx c fun x => { x with poolend := d })
  | 0x107 => some (s.modCtx c fun x => { x with quotaLimit := lo })
  | 0x108 => some (s.setWaymask c lo)
  | 0x109 => some (s.modCtx c fun x => { x with pinstat := lo })
  | 0x10A => if drvageBad d then none else some (s.modCtx c fun x => { x with drvage := d &&& drvageFields })
  | 0x10B => if 2 ^ 31 < stealPenalty d then none else some (s.modCtx c fun x => { x with drvstl := d &&& drvstlFields })
  | 0x10C => some (if word = 0 then s.modCtx c Ctx.dropFault else s)
  | 0x10D => some (s.modCtx c fun x => { x with fabten := lo &&& 0xFFFF#32 })
  | r =>
    if expBad v then none
    else some (s.modCtx c fun x => { x with expwin := tset 0#128 x.expwin (r - 0x10E) (v &&& expMask) })

/-- The cores granted to a context, from every core's CORECTX (R24). Where the context's quadrants change with them, its records
are found at their new home shards at once, as they stand with SEQ and POSTPOP, and no limit is checked: R305 limits what
ESTABLISH does alone (log 100). -/
def State.regrant (s : State) (c : Nat) : State :=
  s.modCtx c fun x => { x with cores := (List.range 512).filter fun k => s.granted k c }

/-- A core, quadrant, die or module register with a new value, or none where the write is illegal. Warps of another context
that stand on a core whose CORECTX is written stay there, and keep the new one's off it, until they are gone: R24 does not
say what the write does to them (log 69). -/
def State.putPart (s : State) (reg core : Nat) (v : BitVec 128) : Option State :=
  let lo : Word := v.setWidth 32
  let d : Dword := v.setWidth 64
  match reg with
  | 0x200 => some s
  | 0x201 => some (if lo = 0#32 then s.modCore core fun c => { c with unown := 0#32 } else s)
  | 0x202 =>
    let old := ((s.core core).corectx.setWidth 3 : BitVec 3).toNat
    let t := s.modCore core fun c => { c with corectx := lo &&& 0x80000007#32 }
    some (((t.regrant old).regrant (lo.setWidth 3 : BitVec 3).toNat).trimAll [core])
  | 0x308 => some s
  | 0x400 => some s
  | 0x401 => some s
  | 0x402 => some s
  | 0x403 => some s
  | r =>
    if 1024 < classRate d then none
    else some (s.modShard (quadOf core) fun y => { y with classres := tset 0#64 y.classres (r - 0x300) (d &&& ~~~(0xF800#64)) })

/-- SRW's effect; writes to a context that is not established are ignored (R375). -/
def State.sysWrite (s : State) (x : Selector) (v : Word) : Option State :=
  let y := putWordAt (s.sysValue s.me x) x.word v
  if x.perWarp then some (s.modMe fun w => { w with trap := w.trap.put x.reg y })
  else if x.perCtx then if (s.ctx x.ctx).established then s.putCtx x.ctx x.reg x.word y else some s
  else s.putPart x.reg x.core y

/-- SRW (R376): an illegal value is refused whole; it is found here, after the checks that come with issue (log 81). -/
def execSrw (k : Ctl) (f : KFields) (s : State) : Host.Outcome State Fault Refusal :=
  issue s k (.srw k f) fun s =>
    match s.sysWrite (selector f.imm) (rdU s s.me f.d) with
    | some t => t.finish k [] 0#6
    | none => s.takeTrap (illegal s.me k (.srw k f))

end Sys2Proof.Machine
end

