-- ==== Sys2Proof/Machine/Image.lean ====
section
/-! DEFINITION. Team images (R394, log 11): the bytes of a team's header, team block, scratchpad, reassembly slots and
warps, and the team and warps that an image's bytes give back. -/

namespace Sys2Proof.Machine

/-! ## Writing -/

/-- Bytes followed by zeros up to n. -/
def padTo (n : Nat) (bs : List Byte) : List Byte := bs ++ List.replicate (n - bs.length) 0#8

/-- The next multiple of 128. -/
def up128 (n : Nat) : Nat := (n + 127) / 128 * 128

/-- A table of words as bytes, numbers 0 to n - 1 from lo on. -/
def wordsBytes (t : Tbl Word) (lo n : Nat) : List Byte := (List.range n).flatMap fun i => natLe 4 (tget 0#32 t (lo + i)).toNat

/-- A stack entry (R110). -/
def StackEntry.bytes (e : StackEntry) : List Byte :=
  natLe 4 e.sfmt.toNat ++ natLe 4 0 ++ natLe 4 e.pmask.toNat ++ natLe 4 e.rmask.toNat ++ natLe 8 e.ppc.toNat ++ natLe 8 e.jpc.toNat

/-- A g-register (R175). -/
def GReg.bytes (g : GReg) : List Byte :=
  natLe 4 ((if g.valid then 1 else 0) + g.cls.toNat * 2 ^ 4 + g.perm.toNat * 2 ^ 6 + (if g.host then 2 ^ 9 else 0)) ++
    natLe 4 g.limit.toNat ++ natLe 8 g.pbase.toNat ++ natLe 8 g.vbase.toNat

/-- The trap registers, 44 bytes. -/
def TrapRegs.bytes (t : TrapRegs) : List Byte :=
  natLe 8 t.tpc.toNat ++ natLe 8 t.thdr.toNat ++ natLe 4 t.tcause.toNat ++ natLe 4 t.tmask.toNat ++ natLe 4 t.texec.toNat ++
    natLe 8 t.taddr.toNat ++ natLe 4 t.tinfo.toNat ++ natLe 4 t.tfmt.toNat

/-- A fold (R257). -/
def Fold.bytes (x : Fold) : List Byte :=
  natLe 4 x.status.toNat ++ natLe 4 x.high.toNat ++ natLe 4 x.asize.toNat ++ natLe 4 x.abase.toNat ++ natLe 4 x.arrr.toNat ++
    natLe 4 x.expr.toNat ++ natLe 4 x.arrb.toNat ++ natLe 4 x.expb.toNat

/-- A barrier (R248). -/
def Barrier.bytes (x : Barrier) : List Byte := natLe 4 (x.arrived.toNat + x.count.toNat * 65536) ++ natLe 4 x.gen.toNat

/-- A stream (R273). -/
def Stream.bytes (x : Stream) : List Byte :=
  [0#8, x.count, x.tail, x.head, x.slots] ++ natLe 3 x.stride.toNat ++ natLe 8 x.base.toNat

/-- The phase state (R334): L, the record's block id and its generation. -/
def phaseBytes (t : Team) : List Byte :=
  match t.phase with
  | some p => natLe 4 p.resid.toNat ++ natLe 4 (blkOf t).toNat ++ natLe 4 p.gen.toNat
  | none => natLe 4 0 ++ natLe 4 0xFFFFFFFF ++ natLe 4 0

/-- The team block, 4,096 bytes. -/
def Team.block (t : Team) : List Byte :=
  padTo 4096 (((List.range 8).flatMap fun i => (t.bar i).bytes) ++ ((List.range 8).flatMap fun i => (t.stream i).bytes) ++
    ((List.range 64).flatMap fun i => (t.fold i).bytes) ++ phaseBytes t)

/-- What a sleeping warp is saved as: its code, and the generation that a barrier's sleeper waits on. -/
def Sleep.code : Sleep → Nat × Word
  | .pnext => (1, 0#32)
  | .barrier _ g => (2, g)
  | .fwait _ _ => (3, 0#32)
  | .xpect _ => (4, 0#32)
  | .spop _ => (5, 0#32)
  | .cfence _ => (6, 0#32)
  | .yield _ => (7, 0#32)
  | .bwait _ => (8, 0#32)
  | .recv _ => (9, 0#32)
  | .xchg _ _ => (10, 0#32)
  | _ => (0, 0#32)

/-- A warp as it is saved: one asleep in MWAIT has been woken, one in WATCH or CTXSV will issue its word again (R243). -/
def Warp.forSave (w : Warp) : Warp :=
  match w.status with
  | .asleep .mwait _ => w.wake
  | .asleep .watch _ => { w with status := .ready, rewait := true }
  | .asleep (.save _ _) _ => { w with status := .ready, rewait := true, req := none }
  | _ => w

/-- The 8 bytes of sleep state and flags. -/
def Warp.stateBytes (w : Warp) : List Byte :=
  let z := match w.status with
    | .asleep z _ => z.code
    | _ => (0, 0#32)
  let bit (b : Bool) (i : Nat) : Nat := if b then 2 ^ i else 0
  [BitVec.ofNat 8 z.1,
   BitVec.ofNat 8 (bit w.xpar 0 + bit w.priv 1 + bit w.inPhase 2 + bit w.pended.isSome 3 + bit w.rewait 4 + bit w.mark 5),
   BitVec.ofNat 8 w.left, BitVec.ofNat 8 (w.cmask.toNat + 16 * (match w.frozen with | some c => c % 16 | none => 0))] ++ natLe 4 z.2.toNat

/-- A warp's control part, 2,048 bytes. Stack entries that have been popped are saved as zeros (log 86). -/
def Warp.control (w : Warp) : List Byte :=
  padTo 2048 (wordsBytes w.regs 8192 128 ++ ((List.range 32).flatMap fun l => natLe 2 (tget 0#16 w.preds l).toNat) ++
    wordsBytes w.seeds 0 32 ++ padTo 512 (w.stack.reverse.flatMap StackEntry.bytes) ++ natLe 4 w.stack.length ++
    ((List.range 8).flatMap fun i => (tget {} w.gregs i : GReg).bytes) ++ wordsBytes w.bank (bankKey 120) 8 ++ w.bankG.bytes ++
    natLe 8 w.pc.toNat ++ natLe 8 w.hdr.toNat ++ natLe 4 w.exec.toNat ++ natLe 4 w.fmt.toNat ++ natLe 4 w.fpstat.toNat ++
    natLe 4 w.xv.toNat ++ w.stateBytes ++ w.trap.bytes)

/-- Scale settings (R290). -/
def Scale.bytes (x : Scale) : List Byte := natLe 4 x.shift.toNat ++ natLe 8 x.dbase.toNat ++ natLe 8 x.sbase.toNat

/-- A window, 68,096 bytes. -/
def Window.bytes (x : Window) : List Byte :=
  padTo 68096 (wordsBytes x.tiles 0 16384 ++ ((List.range 64).flatMap fun i => natLe 2 (tget 0#16 x.books i).toNat) ++
    x.scaleA.bytes ++ x.scaleB.bytes ++ natLe 4 x.bseq.toNat ++
    (List.range 16).flatMap fun q => ((List.range 128).map fun i => tget 0#8 x.piv (128 * q + i)) ++
      (List.range 16).map fun m => tget 0#8 x.brk (16 * q + m))

/-- A warp's parts: control, v-registers, window. -/
def Warp.parts (w : Warp) : List Byte :=
  w.control ++ wordsBytes w.regs 0 (32 * w.valloc) ++ match w.window with
    | some x => x.bytes
    | none => []

/-- Size of a team's image with n slots. -/
def imageSize (scratch slots : Nat) (ws : List (Nat × Bool)) : Nat :=
  256 + 4096 + up128 scratch + up128 (264 * slots) + (ws.map fun w => 2048 + 128 * w.1 + if w.2 then 68096 else 0).sum

/-- Per-warp v-registers and window flags. -/
def State.shapes (s : State) (t : Team) : List (Nat × Bool) :=
  t.warps.map fun k => ((s.warp k).valloc, (s.warp k).window.isSome)

/-- A team's slots on its cores, numbered 32 core + slot: complete ones in CSEQ order, then held ones (R366, R394). -/
def State.teamSlots (s : State) (tk : Nat) : List Nat × List Nat :=
  let t := s.team tk
  let mine := (distinct t.cores).flatMap fun c =>
    ((List.range 32).filter fun i => (s.rslot c i).valid && (s.rslot c i).ctx == tk / 64 && (s.rslot c i).team == tk % 64).map
      fun i => 32 * c + i
  let slot (n : Nat) : RSlot := s.rslot (n / 32) (n % 32)
  let age (n : Nat) : Nat := ((slot n).cseq - (s.core (n / 32)).cseq).toNat
  (sortBy (fun a b => decide (age a ≤ age b)) (mine.filter fun n => (slot n).complete), mine.filter fun n => !(slot n).complete)

/-- The image's header, 256 bytes: the cores of warp 0 and of warp 1, all ones where there is no warp 1; and for each warp its
v-registers and in bits 16 and 17 whether it holds a window and whether it stands on the other core of the cluster (log 11).
-/
def State.imageHeader (s : State) (tk size held complete mode : Nat) : List Byte :=
  let t := s.team tk
  let core0 := t.cores.headD 0
  let other := t.cores.getD 1 0xFFFFFFFF
  padTo 256 (natLe 4 0x1C590009 ++ natLe 4 1 ++ natLe 8 size ++ natLe 4 (tk / 64) ++ natLe 4 (tk % 64) ++ natLe 4 core0 ++
    natLe 4 other ++ natLe 4 t.cores.length ++
    padTo 64 (((s.shapes t).zip t.cores).flatMap fun p =>
      natLe 4 (p.1.1 + (if p.1.2 then 65536 else 0) + if p.2 = core0 then 0 else 131072)) ++
    natLe 4 t.scratchSize ++ natLe 4 held ++ natLe 4 complete ++ natLe 4 mode)

/-- The mode of a stop request in an image. -/
def Stop.code : Stop → Nat
  | .phase => 1
  | _ => 0

/-- A team's whole image. -/
def State.imageBytes (s : State) (tk : Nat) : List Byte :=
  let t := s.team tk
  let sl := s.teamSlots tk
  let slots := sl.1 ++ sl.2
  let size := imageSize t.scratchSize slots.length (s.shapes t)
  s.imageHeader tk size sl.2.length sl.1.length t.stop.code ++ t.block ++
    padTo (up128 t.scratchSize) ((List.range t.scratchSize).map fun i => tget blankByte t.scratch i) ++
    padTo (up128 (264 * slots.length)) (slots.flatMap fun n => (s.rslot (n / 32) (n % 32)).bytes) ++
    t.warps.flatMap fun k => (s.warp k).forSave.parts

/-! ## Reading -/

/-- n bytes at an offset, as a number. -/
def numAt (bs : List Byte) (off n : Nat) : Nat := leNat ((bs.drop off).take n)

def word32 (bs : List Byte) (off : Nat) : Word := BitVec.ofNat 32 (numAt bs off 4)

def word64 (bs : List Byte) (off : Nat) : Dword := BitVec.ofNat 64 (numAt bs off 8)

/-- n words from an offset into a table, from number lo on. -/
def readWords (t : Tbl Word) (bs : List Byte) (off lo n : Nat) : Tbl Word :=
  tsetMany 0#32 t ((List.range n).map fun i => (lo + i, word32 bs (off + 4 * i)))

/-- What an image's header says. -/
structure ImgHead where
  ctx : Nat
  team : Nat
  /-- v-registers, window, and whether it stands on the second core, for each warp -/
  warps : List (Nat × Bool × Bool)
  scratch : Nat
  held : Nat
  complete : Nat
  core0 : Nat
  size : Nat
  ok : Bool
  deriving DecidableEq, Repr

/-- v-registers that a warp may be given (R15). -/
def regsOk (n : Nat) : Bool := n % 8 == 0 && decide (8 ≤ n) && decide (n ≤ 256)

/-- Does a warp of the image stand on a second core? -/
def ImgHead.two (h : ImgHead) : Bool := h.warps.any fun w => w.2.2

/-- A header, in which warp 0 stands on the first core whatever its flag says (R395); ok says that magic, version and size
are right, the size for register counts that R15 allows (log 96). -/
def imgHead (bs : List Byte) : ImgHead :=
  let n := numAt bs 32 4
  let ws := (List.range (min n 16)).map fun i =>
    let x := numAt bs (36 + 4 * i) 4
    (x % 65536, x.testBit 16, x.testBit 17 && decide (0 < i))
  let scratch := numAt bs 100 4
  let held := numAt bs 104 4
  let complete := numAt bs 108 4
  { ctx := numAt bs 16 4, team := numAt bs 20 4, warps := ws, scratch, held, complete,
    core0 := numAt bs 24 4, size := numAt bs 8 8
    ok := numAt bs 0 4 == 0x1C590009 && numAt bs 4 4 == 1 && (ws.all fun w => w.1 == 0 || regsOk w.1) && decide (1 ≤ n) &&
      decide (n ≤ 16) && decide (numAt bs 16 4 < 8) && decide (numAt bs 20 4 < 64) &&
      numAt bs 8 8 == imageSize scratch (held + complete) (ws.map fun w => (w.1, w.2.1)) }

/-- Offsets of the slots and of warp i's parts. -/
def ImgHead.slotsAt (h : ImgHead) : Nat := 4352 + up128 h.scratch

def ImgHead.warpAt (h : ImgHead) (i : Nat) : Nat :=
  h.slotsAt + up128 (264 * (h.held + h.complete)) + ((h.warps.take i).map fun w => 2048 + 128 * w.1 + if w.2.1 then 68096 else 0).sum

/-- The FMT of every warp holds no reserved value (R96). -/
def ImgHead.formats (h : ImgHead) (bs : List Byte) : Bool :=
  (List.range h.warps.length).all fun i => fmtLegal (word32 bs (h.warpAt i + 1488))

def stackEntryAt (bs : List Byte) (off : Nat) : StackEntry :=
  { sfmt := word32 bs off, pmask := word32 bs (off + 8), rmask := word32 bs (off + 12), ppc := word64 bs (off + 16),
    jpc := word64 bs (off + 24) }

/-- A restored g-register; its page size is taken as the largest, so that a TLBINV of any page in it finds it (log 14). -/
def gregAt (bs : List Byte) (off : Nat) : GReg :=
  let f := numAt bs off 4
  let valid := f.testBit 0
  { valid, cls := BitVec.ofNat 2 (f / 16), perm := BitVec.ofNat 3 (f / 64), host := f.testBit 9, limit := word32 bs (off + 4)
    pbase := BitVec.ofNat 52 (numAt bs (off + 8) 8), vbase := word64 bs (off + 16), psize := if valid then 2 ^ 30 else 0 }

/-- Bits of TCAUSE, and of FMT as TFMT holds it, that are not reserved (R95, R380). -/
def trapFields : Word := 0x1FFFFF#32

/-- Restored trap registers; reserved fields read zero (R4). -/
def trapRegsAt (bs : List Byte) (off : Nat) : TrapRegs :=
  { tpc := word64 bs off, thdr := word64 bs (off + 8), tcause := word32 bs (off + 16) &&& trapFields, tmask := word32 bs (off + 20),
    texec := word32 bs (off + 24), taddr := word64 bs (off + 28), tinfo := word32 bs (off + 36), tfmt := word32 bs (off + 40) &&& trapFields }

def foldAt (bs : List Byte) (off : Nat) : Fold :=
  let a := word32 bs off
  let b := word32 bs (off + 4)
  { state := a.extractLsb' 0 2, armb := a.getLsbD 4, armr := a.getLsbD 5, err := a.extractLsb' 8 3, cons := a.extractLsb' 11 5
    miss := a.extractLsb' 16 16, consn := b.extractLsb' 19 5, infl := b.extractLsb' 24 8, asize := word32 bs (off + 8)
    abase := word32 bs (off + 12), arrr := word32 bs (off + 16), expr := word32 bs (off + 20), arrb := word32 bs (off + 24)
    expb := word32 bs (off + 28) }

def barrierAt (bs : List Byte) (off : Nat) : Barrier :=
  let a := word32 bs off
  { arrived := a.setWidth 16, count := a.extractLsb' 16 5, gen := word32 bs (off + 4) }

def streamAt (bs : List Byte) (off : Nat) : Stream :=
  { count := BitVec.ofNat 8 (numAt bs (off + 1) 1), tail := BitVec.ofNat 8 (numAt bs (off + 2) 1)
    head := BitVec.ofNat 8 (numAt bs (off + 3) 1), slots := BitVec.ofNat 8 (numAt bs (off + 4) 1)
    stride := BitVec.ofNat 24 (numAt bs (off + 5) 3), base := word64 bs (off + 8) }

/-- The record that a block id names (R311): none for no phase. -/
def recordOf (blk : Nat) : Option (RecKind × Nat) :=
  if blk = 0xFFFFFFFF then none
  else if blk < 0x100000 then some (.block, blk)
  else if blk < 0x200000 then some (.mailbox, blk - 0x100000)
  else some (.deadline, blk - 0x200000)

/-- The restored phase: L is the image's; what the shards keep of the phase comes from the saved team, where there is one
(R334, log 11). -/
def State.phaseAt (s : State) (c : Nat) (old : Option Phase) (bs : List Byte) (off : Nat) : Option Phase :=
  match recordOf (numAt bs (off + 4) 4), old with
  | none, _ => none
  | some r, some p =>
    if p.kind = r.1 ∧ p.num = r.2 then some { p with resid := word32 bs off, gen := word32 bs (off + 8) }
    else some { kind := r.1, num := r.2, shard := s.homeShard c r.2, gen := word32 bs (off + 8), popres := 0#32, resid := word32 bs off }
  | some r, none =>
    some { kind := r.1, num := r.2, shard := s.homeShard c r.2, gen := word32 bs (off + 8), popres := 0#32, resid := word32 bs off }

/-- A restored window in a slot. -/
def windowAt (bs : List Byte) (off slot : Nat) : Window :=
  let scale (o : Nat) : Scale := { shift := BitVec.ofNat 4 (numAt bs o 1), dbase := word64 bs (o + 4), sbase := word64 bs (o + 12) }
  let byte (o : Nat) : Byte := BitVec.ofNat 8 (numAt bs o 1)
  { slot
    tiles := readWords [] bs off 0 16384
    books := tsetMany 0#16 [] ((List.range 64).map fun i => (i, BitVec.ofNat 16 (numAt bs (off + 65536 + 2 * i) 2)))
    scaleA := scale (off + 65664), scaleB := scale (off + 65684), bseq := word32 bs (off + 65704)
    piv := tsetMany 0#8 [] ((List.range 16).flatMap fun q => (List.range 128).map fun i =>
      (128 * q + i, byte (off + 65708 + 144 * q + i)))
    brk := tsetMany 0#8 [] ((List.range 16).flatMap fun q => (List.range 16).map fun m =>
      (16 * q + m, byte (off + 65708 + 144 * q + 128 + m)))
    count := tsetMany 0 [] ((List.range 16).map fun q => (q, 16)) }

/-- A restored warp, but for what it sleeps in: the code of its sleeping word and its generation come with it. -/
def warpAt (bs : List Byte) (h : ImgHead) (i slot now next : Nat) : Warp × Nat × Word :=
  let o := h.warpAt i
  let x := h.warps.getD i (0, false, false)
  let depth := min 16 (numAt bs (o + 1216) 4)
  let f := numAt bs (o + 1501) 1
  let g := numAt bs (o + 1503) 1
  let w : Warp :=
    { present := true, ctx := h.ctx, team := h.team, twarp := i
      regs := readWords (readWords [] bs (o + 2048) 0 (32 * x.1)) bs o 8192 128
      preds := tsetMany 0#16 [] ((List.range 32).map fun l => (l, BitVec.ofNat 16 (numAt bs (o + 512 + 2 * l) 2)))
      seeds := readWords [] bs (o + 576) 0 32
      stack := ((List.range depth).map fun j => stackEntryAt bs (o + 704 + 32 * j)).reverse
      gregs := tsetMany {} [] ((List.range 8).map fun j => (j, gregAt bs (o + 1220 + 24 * j)))
      bank := readWords [] bs (o + 1412) (bankKey 120) 8
      bankG := gregAt bs (o + 1444)
      pc := word64 bs (o + 1468), hdr := word64 bs (o + 1476), exec := word32 bs (o + 1484), fmt := word32 bs (o + 1488)
      fpstat := BitVec.ofNat 6 (numAt bs (o + 1492) 4), xv := word32 bs (o + 1496)
      xpar := f.testBit 0, priv := f.testBit 1, inPhase := f.testBit 2, pended := if f.testBit 3 then some next else none
      rewait := f.testBit 4 || decide (0 < numAt bs (o + 1502) 1), mark := f.testBit 5, left := numAt bs (o + 1502) 1
      cmask := BitVec.ofNat 4 g, frozen := if g / 16 = 0 then none else some (g / 16)
      trap := trapRegsAt bs (o + 1508)
      valloc := x.1, window := if x.2.1 then some (windowAt bs (o + 2048 + 128 * x.1) slot) else none
      lastIssue := now, fetching := true }
  (w, numAt bs (o + 1500) 1, word32 bs (o + 1504))

/-- A teardown is running. -/
def Mgmt.down (m : Mgmt) : Bool := m.busy && m.code == 2#8 && m.coming == 0#8

/-- A restored team. A teardown of its context that is running kills it as well (R412). -/
def State.teamAt (s : State) (h : ImgHead) (bs : List Byte) (cores slots : List Nat) : Team :=
  let old := s.team (teamKey h.ctx h.team)
  { life := .live, cores, slots, regs := (s.ctx h.ctx).regs, scratchSize := h.scratch
    scratch := Machine.putBytes [] 0 ((bs.drop 4352).take h.scratch)
    bars := tsetMany {} [] ((List.range 8).map fun i => (i, barrierAt bs (256 + 8 * i)))
    streams := tsetMany {} [] ((List.range 8).map fun i => (i, streamAt bs (320 + 16 * i)))
    folds := tsetMany {} [] ((List.range 64).map fun i => (i, foldAt bs (448 + 32 * i)))
    phase := s.phaseAt h.ctx old.phase bs 2496
    stop := if s.mgmt.down && s.mgmt.subject == h.ctx then .kill else .none
    slept := s.tick }

/-- A reassembly slot from its 264 bytes; the source warp slot of an exchange follows from the held slot's own (log 36).
-/
def rslotAt (bs : List Byte) (off : Nat) (low : BitVec 9) (ctx team : Nat) : RSlot :=
  let x := numAt bs off 8
  { valid := x.testBit 0, cseq := BitVec.ofNat 16 (x / 2 ^ 8), xpar := x.testBit 26, rel := x.testBit 27
    portw := BitVec.ofNat 6 (x / 2 ^ 28), kind := BitVec.ofNat 2 (x / 2 ^ 34), fcnt := BitVec.ofNat 3 (x / 2 ^ 36)
    src := BitVec.ofNat 9 (x / 2 ^ 39), tag := BitVec.ofNat 8 (x / 2 ^ 48), pres := BitVec.ofNat 8 (x / 2 ^ 56)
    data := readWords [] bs (off + 8) 0 64, low, ctx, team }

/-- The sleep that a saved warp goes back to, from the word it sleeps at (R243, R276, R298, R366); none where that word is
not one, so that it issues again. s has the warp as its current one. -/
def State.sleepAt (s : State) (code : Nat) (gen : Word) : Option (Sleep × Option Captured × Dword) :=
  let w := s.me
  match s.codeFetch w w.pc with
  | .error _ => none
  | .ok x =>
    match decode x with
    | .error _ => none
    | .ok i =>
      match code, i with
      | 1, .pnext _ _ => some (.pnext, none, 0#64)
      | 2, .bar _ f => some (.barrier f.func.toNat gen, none, 0#64)
      | 2, .barw _ f => some (.barrier f.func.toNat gen, none, 0#64)
      | 3, .fwait k f =>
        let offs := fwaitOffsets s w k f (s.fold w.teamKey f.fold.toNat)
        some (.fwait f.fold.toNat f.func.toNat, some (w.captured k i (offs.flatMap fun y => [y.1, y.2])), 0#64)
      | 4, .bxpect _ f => some (.xpect f.fold.toNat, none, 0#64)
      | 4, .rxpect _ f => some (.xpect f.fold.toNat, none, 0#64)
      | 5, .spop k f => some (.spop f.func.toNat, some (w.captured k i []), 0#64)
      | 6, .cfence _ _ => some (.cfence s.nextId, none, 0#64)
      | 7, .yield _ f => some (.yield f.fold.toNat, none, relTarget w.pc (f.func.signExtend 32))
      | 8, .bwait _ f => some (.bwait (rdU s w f.a), none, 0#64)
      | 9, .recv k f => some (.recv (rdU s w f.a).toNat, some (w.captured k i [(rdU s w f.d).toNat]), 0#64)
      | 10, .xchg k f =>
        let b := rdU s w f.b
        some (.xchg (b.extractLsb' 0 9).toNat (b.extractLsb' 16 6).toNat, some (w.captured k i []), 0#64)
      | _, _ => none

/-- A restored warp goes back to sleep. -/
def State.resleep (s : State) (key code : Nat) (gen : Word) : State :=
  let t : State := { s with cur := key }
  if code = 0 then s
  else
    match t.sleepAt code gen with
    | some (z, req, resume) => s.modWarp key fun w => { w with status := .asleep z s.tick, req, resume }
    | none => s

end Sys2Proof.Machine
end

