-- ==== Sys2Proof/Machine/System.lean ====
section
/-! DEFINITION. The trap words and TRET (R382), PREEMPT, CTXSV and CTXLD (R391 to R395), TLBINV (R389), BIAS (R390, R229),
MAPG (R387), FREEZE and THAW (R386), and the ending of a team (R396). -/

namespace Sys2Proof.Machine

/-! ## TRAP, SVC and TRET (R382) -/

/-- A software or service trap: TPC is the next word, and a switch marker parks the warp. -/
def State.softTrap (s : State) (k : Ctl) (kind : Nat) (code : BitVec 8) : State :=
  if s.me.priv then s.violation 3 s.me.pc
  else
    s.modMe fun w =>
      { w.trapEntry { kind, mask := w.eff k, info := code.setWidth 32 } (w.pc + 8#64) (s.ctx w.ctx).tvec with
        status := afterMark k.sw }

/-- TRAP. -/
def execTrap (k : Ctl) (f : CFields) (s : State) : Host.Outcome State Fault Refusal :=
  issue s k (.trap k f) fun s => s.judge k fun s => s.softTrap k 15 f.func

/-- SVC. -/
def execSvc (k : Ctl) (f : CFields) (s : State) : Host.Outcome State Fault Refusal :=
  issue s k (.svc k f) fun s => s.judge k fun s => s.softTrap k 16 f.func

/-- The return from the trap that the trap registers hold (R382, R66). A reserved value of TFMT does not reach FMT (R96). -/
def State.returnFromTrap (s : State) (k : Ctl) (i : Instr) : State :=
  let w := s.me
  let kind := (w.trap.tcause.setWidth 8).toNat
  let back (count : Nat) (cls : BitVec 4) (w : Warp) : Warp := { w.trapReturn count cls with status := afterMark k.sw }
  if (w.trap.tcause.extractLsb' 16 5).toNat ≠ w.stack.length then s.violation 8 w.pc
  else if !fmtLegal w.trap.tfmt then s.takeTrap (illegal w k i)
  else if kind = 15 ∨ kind = 16 then
    match targetTrap s (w.eff k) w.trap.tpc with
    | some t => s.takeTrap t
    | none => s.modMe (back 0 0#4)
  else if w.trap.tpc = w.trap.thdr then s.modMe (back 0 0#4)
  else
    match s.codeFetch w w.trap.thdr with
    | .ok x => s.modMe (back (headerOf x).count.toNat (headerOf x).cls)
    | .error e =>
      (s.modMe fun w => { back 0 0#4 w with hdr := w.trap.thdr }).takeTrap
        { kind := e.1, cause := e.2, mask := w.trap.texec, addr := w.trap.thdr }

/-- TRET. -/
def execTret (k : Ctl) (f : CFields) (s : State) : Host.Outcome State Fault Refusal :=
  issue s k (.tret k f) fun s => s.returnFromTrap k (.tret k f)

/-! ## References (R373, R386) -/

/-- A team reference: core in bits 8:0, team in bits 21:16, every other bit zero. -/
def teamRefOk (r : Word) : Bool := r.extractLsb' 9 7 == 0#7 && r.extractLsb' 22 10 == 0#10

/-- The resident team that a reference names: its key. -/
def State.teamNamed (s : State) (r : Word) : Option Nat :=
  let core := (r.extractLsb' 0 9).toNat
  let x := (s.core core).corectx
  let tk := teamKey (x.setWidth 3 : BitVec 3).toNat (r.extractLsb' 16 6).toNat
  if x.getLsbD 31 ∧ (s.team tk).life = .live ∧ (s.team tk).cores.headD 512 = core then some tk else none

/-- The kind of a master reference. -/
def masterKind (r : Word) : Nat := (r.extractLsb' 29 3).toNat

/-- Bits of a master reference that its kind does not use are zero. -/
def masterRefOk (r : Word) : Bool :=
  match masterKind r with
  | 0 => r.extractLsb' 9 1 == 0#1 && r.extractLsb' 16 13 == 0#13
  | 1 => r.extractLsb' 9 7 == 0#7 && r.extractLsb' 22 7 == 0#7
  | 4 => r.extractLsb' 19 10 == 0#10
  | 5 => r.extractLsb' 19 10 == 0#10
  | _ => false

/-- The warps of a warp or team master, empty where there is no such master. -/
def State.masterWarps (s : State) (r : Word) : List Nat :=
  if masterKind r = 0 then
    let k := warpKey (r.extractLsb' 0 9).toNat (r.extractLsb' 10 6).toNat
    if (s.warp k).present then [k] else []
  else
    match s.teamNamed (r &&& 0x1FFFFFFF#32) with
    | some tk => (s.team tk).warps
    | none => []

/-! ## Words that hold their run (R374) -/

/-- The word stays at issue with what it goes on with; it gives its scheduler up where that has other warps to run first. -/
def State.holdRun (s : State) (k : Ctl) (i : Instr) (vals : List Nat) (give : Bool) : State :=
  s.modMe fun w => { w with req := some (w.captured k i vals), running := w.running && !give }

/-- What the word at issue has captured, when it has been at issue before. -/
def Warp.heldVals (w : Warp) (i : Instr) : Option (List Nat) :=
  match w.req with
  | some c => if c.instr = i ∧ c.pc = w.pc then some c.vals else none
  | none => none

/-- The word is done, with its status. -/
def State.answerDone (s : State) (k : Ctl) (d : Operand) (v : Word) : State := (s.modMe fun w => { w with req := none }).answer k d v

/-- Does a warp among some share the current warp's scheduler (R52)? -/
def State.sharesSched (s : State) (ks : List Nat) : Bool :=
  ks.any fun k => keyCore k == keyCore s.cur && keySlot k % 2 == keySlot s.cur % 2

/-! ## Stopping (R391, R392) -/

/-- The warp stands at a clause boundary, or asleep. -/
def Warp.atBoundary (w : Warp) : Bool :=
  match w.status with
  | .asleep _ _ => true
  | .ready => decide (w.left = 0) && !w.running
  | _ => false

/-- A requested freeze takes place once the warp stands at a clause boundary (R386). -/
def Warp.freezeHere (w : Warp) : Warp :=
  if w.freezeReq ∧ w.frozen.isNone ∧ w.atBoundary then { w with frozen := some 5, freezeReq := false } else w

/-- The warp has stopped for a stop request (R392). -/
def Warp.stopped (w : Warp) (x : Stop) : Bool :=
  w.frozen.isSome ||
    match x with
    | .phase => match w.status with
      | .asleep .pnext _ => true
      | _ => false
    | _ => w.atBoundary

/-- Every deferral of a team has ended (R158, R276, R303, R334, R349, R366). -/
def State.settled (s : State) (tk : Nat) : Bool :=
  let t := s.team tk
  t.fetches == [] && t.folds.all (fun f => f.2.infl == 0#8) &&
    t.warps.all (fun k => (s.warp k).outs == [] && (s.warp k).stq == [] && s.engineIdle (keyCore k) (keySlot k)) &&
    t.cores.all (fun c => (s.core c).cmds.all (fun x => x.team != tk) &&
      (s.core c).inject.all fun f => f.flit.ctx.toNat != tk / 64)

/-- A team that was asked to stop is quiet: every warp has stopped and every deferral has ended (R391). -/
def State.quiet (s : State) (tk : Nat) : Bool :=
  let t := s.team tk
  t.life == .live && t.stop != .none && (t.warps.all fun k => (s.warp k).stopped t.stop) && s.settled tk

/-- A team is quiesced: seen to be so, and still so. A THAW or a landing in between makes it wait again (R158, R276). -/
def State.isQuiesced (s : State) (tk : Nat) : Bool := (s.team tk).quiesced && s.quiet tk

/-- TEAM_QUIESCED (R391). -/
def execTeamQuiesced (ctx team : Nat) (s : State) : Host.Outcome State Fault Refusal :=
  let tk := teamKey ctx team
  .next (if s.quiet tk then s.modTeam tk fun t => { t with quiesced := true } else s)

/-- PREEMPT (R391). -/
def execPreempt (k : Ctl) (f : EFields) (s : State) : Host.Outcome State Fault Refusal :=
  issue s k (.preempt k f) fun s =>
    let r := rdU s s.me f.a
    if !teamRefOk r then s.takeTrap (illegal s.me k (.preempt k f))
    else
      match s.teamNamed r with
      | none => s.answer k f.d 1#32
      | some tk =>
        if tk = s.me.teamKey then s.answer k f.d 3#32
        else if (s.team tk).stop ≠ .none then s.answer k f.d 2#32
        else (s.modTeam tk fun t => { t with stop := if f.func = 1#16 then .phase else .boundary }).answer k f.d 0#32

/-! ## Releasing a team's resources (R393, R396, R397) -/

/-- A warp leaves its core: its rows and window go to the scrub. -/
def State.releaseWarp (s : State) (k : Nat) : State :=
  let w := s.warp k
  let core := keyCore k
  let slot := keySlot k
  let s := (s.leaveAcceptance core slot).dropWindow core w
  let s := s.modCore core fun c =>
    { c with rowsScrub := c.rowsScrub + w.valloc
             run0 := if c.run0 = some slot then none else c.run0
             run1 := if c.run1 = some slot then none else c.run1 }
  (s.unwatch k).setWarp k {}

/-- The team's warps, scratchpad and the slots listed are released. -/
def State.releaseTeam (s : State) (tk : Nat) (slots : List Nat) : State :=
  let t := s.team tk
  let s := t.warps.foldl State.releaseWarp s
  let s := s.modCore (t.cores.headD 0) fun c => { c with scratchScrub := c.scratchScrub + t.scratchSize }
  slots.foldl (fun u n => u.setRslot (n / 32) (n % 32) {}) s

/-- The record of a killed team's phase (R396). -/
def State.killRecord (s : State) (tk : Nat) : State :=
  let c := tk / 64
  match (s.team tk).phase with
  | none => s
  | some p =>
    match p.kind with
    | .block => (s.modBlock c p.num fun x => { x with run := false, res := plusInf }).queueBlock c p.num
    | .mailbox =>
      let x := s.mbox c p.num
      if x.owner = some tk then
        (s.modMbox c p.num fun x => { x with run := false, st := .full, owner := none }).queueMbox c p.num
      else if x.owner = none then s.modMbox c p.num fun x => { x with run := false }
      else s
    | .deadline => s.endOwn tk p

/-- Flits that the interfaces of a team's cores have accepted are written into their slots. -/
def State.slotTeam (s : State) (tk : Nat) : State :=
  (distinct (s.team tk).cores).foldl (fun u c => u.slotAll c (u.core c).eject.length) s

/-- The end of a quiesced team (R396). -/
def State.killTeam (s : State) (tk : Nat) : State :=
  let s := s.slotTeam tk
  let sl := s.teamSlots tk
  (((s.killRecord tk).releaseTeam tk (sl.1 ++ sl.2)).setTeam tk {}).trimAll (distinct (s.team tk).cores)

/-! ## CTXSV (R393) -/

/-- The places of the 4 KiB pieces of an area, or the first trap of its translation. -/
def State.areaKeys (s : State) (w : Warp) (mask : Mask) (base : Dword) (need : BitVec 3) : Nat → Except Trp (List Nat)
  | 0 => .ok []
  | n + 1 =>
    match s.areaKeys w mask base need n with
    | .error t => .error t
    | .ok ks =>
      let va := base + BitVec.ofNat 64 (4096 * n)
      match s.translate (keyCore s.cur) w.ctx va need with
      | .ok p => .ok (ks ++ [p.key])
      | .error c => .error { kind := 7, cause := c, mask, addr := va }

/-- The save itself, to the places that the probe found. -/
def State.saveTeam (s : State) (tk : Nat) (keys : List Nat) : State :=
  let t := s.team tk
  let core := t.cores.headD 0
  let img := s.imageBytes tk
  let sl := s.teamSlots tk
  let base := 4352 + up128 t.scratchSize + 264 * sl.1.length
  let lows := sl.1.map fun n => (n / 32, (s.rslot (n / 32) (n % 32)).low)
  let s := (distinct t.cores).foldl (fun u c => u.writeBackAll c (u.dirtyLines c ((u.core c).relCtr + 1#32))) s
  let s := s.putFrames (tk / 64) core keys img.length 0 img
  ((s.releaseTeam tk sl.1).setTeam tk
    { life := .saved, cores := t.cores, slots := t.slots, regs := t.regs, phase := t.phase, saveKeys := keys, lows
      heldSlots := sl.2.zipIdx.map fun x => (x.1, base + 264 * x.2) }).trimAll (distinct t.cores)

/-- 4 KiB pages of the area that a team's image may need: its slots may come to be all of its cores' (R359). -/
def State.areaPages (s : State) (tk : Nat) : Nat :=
  let t := s.team tk
  (imageSize t.scratchSize (32 * (distinct t.cores).length) (s.shapes t) + 4095) / 4096

/-- CTXSV. -/
def execCtxsv (k : Ctl) (f : EFields) (s : State) : Host.Outcome State Fault Refusal :=
  issue s k (.ctxsv k f) fun s =>
    let w := s.me
    let r := rdU s w f.a
    let base := rdU64 s w f.b
    if !teamRefOk r then s.takeTrap (illegal w k (.ctxsv k f))
    else
      match s.teamNamed r with
      | none => s.answer k f.d 1#32
      | some tk =>
        if tk = w.teamKey then s.answer k f.d 3#32
        else if base.toNat % 4096 ≠ 0 then s.takeTrap { kind := 6, mask := w.eff k, addr := base }
        else
          match s.areaKeys w (w.eff k) base needW (s.areaPages tk) with
          | .error x => s.takeTrap x
          | .ok keys =>
            (s.modTeam tk fun t => { t with stop := if t.stop = .none then .boundary else t.stop }).modMe fun w =>
              { w.sleepIn k.sw (.save (keyCore s.cur) tk) s.tick with req := some (w.captured k (.ctxsv k f) keys) }

/-- A save may be made: the write-backs that come before it, and its own writes, would be accepted (R209, R214, R220), and the
warp's earlier accesses to the lines of the area have performed (R202). -/
def State.saveReady (s : State) (tk : Nat) (keys : List Nat) : Bool :=
  ((distinct (s.team tk).cores).all fun c => s.markersPass c (s.dirtyLines c ((s.core c).relCtr + 1#32))) &&
    keys.all fun k => (List.range 32).all fun i =>
      !s.writeWaits ((s.team tk).cores.headD 0) s.nextId (lineOf k + i) && s.inOrder s.nextId (lineOf k + i)

/-- A warp asleep in CTXSV: the team has quiesced, or is gone. Where the team's image has grown past the pages that were
probed, the word is issued again, so that all of its area is probed. -/
def State.wakeSave (s : State) (tk : Nat) : State :=
  match s.me.req with
  | some c =>
    match c.instr with
    | .ctxsv k f =>
      let done (t : State) (v : Word) : State := t.modMe fun w => { w.putMany (writes32 w k f.d fun _ => v) with req := none }.wake
      if (s.team tk).life ≠ .live then done s 1#32
      else if c.vals.length < s.areaPages tk then s.modMe fun w => { w with status := .ready, req := none }
      else if s.isQuiesced tk && s.saveReady tk c.vals then done (s.saveTeam tk c.vals) 0#32
      else s
    | _ => s
  | none => s

/-! ## CTXLD (R395) -/

/-- The lines that hold n bytes of an area from an offset on. -/
def areaLines (keys : List Nat) (off n : Nat) : List Nat :=
  (List.range ((off % 128 + n + 127) / 128)).map fun i =>
    let o := off / 128 * 128 + 128 * i
    lineOf (keys.getD (o / 4096) 0 + o % 4096)

/-- May the current warp's word read lines at issue: its earlier accesses to them have performed (R202, R215), and no claim,
drain or lost path holds them (R209, R220, R405)? -/
def State.areaReady (s : State) (ls : List Nat) : Bool :=
  ls.all fun l => s.inOrder s.nextId l && !s.readWaits (keyCore s.cur) s.nextId l

/-- Lines are read at their homes: their records are drained, and other cores' dirty words come back (R207, R209). -/
def State.readLines (s : State) (ls : List Nat) : State :=
  let core := keyCore s.cur
  ls.foldl (fun t l => (t.drainNow (some core) l).recall (some core) l 0xFFFFFFFF#32) s

/-- n bytes of an area from its places, from an offset on. -/
def State.areaBytes (s : State) (keys : List Nat) (off n : Nat) : List Byte :=
  (List.range n).map fun i => s.byteAt (keys.getD ((off + i) / 4096) 0 + (off + i) % 4096)

/-- The free warp slots of a core, ascending. -/
def State.freeWarps (s : State) (core : Nat) : List Nat := (List.range 48).filter fun i => !(s.warp (warpKey core i)).present

/-- Core of each warp of an image that goes to a core. -/
def ImgHead.coresFor (h : ImgHead) (core : Nat) : List Nat := h.warps.map fun w => if w.2.2 then core ^^^ 1 else core

/-- Lowest free slots for warps on the cores listed, in order: some of them may be missing. -/
def State.slotsFor (s : State) : List Nat → List Nat → List (Option Nat)
  | _, [] => []
  | before, c :: cs => (s.freeWarps c)[(before.filter fun x => x == c).length]? :: s.slotsFor (before ++ [c]) cs

/-- What an image asks of a core: register rows, windows. -/
def ImgHead.rowsOn (h : ImgHead) (core c : Nat) : Nat :=
  (((h.coresFor core).zip h.warps).filter fun x => x.1 == c).map (fun x => x.2.1) |>.sum

def ImgHead.windowsOn (h : ImgHead) (core c : Nat) : Nat := (((h.coresFor core).zip h.warps).filter fun x => x.1 == c && x.2.2.1).length

/-- Window slots of a core in a state. -/
def State.windowSlots (s : State) (core : Nat) (p : Nat → Bool) : List Nat :=
  (List.range 4).filter fun i => p (tget 0 (s.core core).windows i)

/-- Scratchpad of a core under its context's split (R16). -/
def State.scratchCap (s : State) (c : Nat) : Nat := 65536 * ctxSplit (s.ctx c)

/-- The core that takes what stood on a core of the saved team. -/
def ImgHead.coreFrom (h : ImgHead) (core old : Nat) : Nat := if old = h.core0 ∨ !h.two then core else core ^^^ 1

/-- The complete slots of an image, each with the core that it was saved from. -/
def ImgHead.completeSlots (h : ImgHead) (bs : List Byte) (old : Team) : List (Nat × RSlot) :=
  (List.range h.complete).map fun i =>
    let x := old.lows.getD i (h.core0, 0#9)
    (x.1, rslotAt bs (h.slotsAt + 264 * i) x.2 h.ctx h.team)

/-- The held slots of an image: each is its core's own (R366). -/
def State.heldAt (s : State) (h : ImgHead) (bs : List Byte) (old : Team) : List (Nat × RSlot) :=
  (List.range h.held).map fun i =>
    match old.heldSlots[i]? with
    | some x => (x.1 / 32, s.rslot (x.1 / 32) (x.1 % 32))
    | none => (h.core0, rslotAt bs (h.slotsAt + 264 * (h.complete + i)) 0#9 h.ctx h.team)

/-- Free slots that an image asks of a core: those of its complete slots, and of held ones that come from another core
(log 36). -/
def State.slotsAsked (s : State) (h : ImgHead) (bs : List Byte) (old : Team) (core c : Nat) : Nat :=
  (((h.completeSlots bs old).filter fun x => h.coreFrom core x.1 == c).length) +
    (((s.heldAt h bs old).filter fun x => h.coreFrom core x.1 == c && x.1 != c).length)

/-- Do warps of another context stand on a core (R24, log 69)? -/
def State.foreign (s : State) (core c : Nat) : Bool := s.warps.any fun p => keyCore p.1 == core && p.2.present && p.2.ctx != c

/-- The status of a CTXLD before its waits (R395). A team that an establishment is about to spawn has its number. -/
def State.loadStatus (s : State) (h : ImgHead) (bs : List Byte) (core : Nat) : Nat :=
  let old := s.team (teamKey h.ctx h.team)
  let cs := if h.two then [core, core ^^^ 1] else [core]
  if !h.ok then 3
  else if 512 ≤ core ∨ !(cs.all fun c => s.granted c h.ctx && !s.foreign c h.ctx) then 1
  else if old.life = .live ∨ s.mgmt.spawns.any (fun p => p.ctx == h.ctx && decide (h.team < p.place.length)) then 4
  else if (s.slotsFor [] (h.coresFor core)).contains none ∨
      (cs.any fun c => decide (4096 < s.rowsUsed c - (s.core c).rowsScrub + h.rowsOn core c) ||
        decide ((s.windowSlots c fun x => x != 1).length < h.windowsOn core c) ||
        decide (((List.range 32).filter fun i => !(s.rslot c i).valid).length < s.slotsAsked h bs old core c)) ∨
      s.scratchCap h.ctx < s.scratchUsed core + h.scratch then 2
  else 0

/-- What CTXLD still waits for: held slots, and the scrub of what it takes. -/
def State.loadWaits (s : State) (h : ImgHead) (core : Nat) : Bool :=
  let old := s.team (teamKey h.ctx h.team)
  old.heldSlots.any (fun x => !(s.rslot (x.1 / 32) (x.1 % 32)).complete) ||
    ((if h.two then [core, core ^^^ 1] else [core]).any fun c =>
      decide (4096 < s.rowsUsed c + h.rowsOn core c) || decide ((s.windowSlots c fun x => x == 0).length < h.windowsOn core c)) ||
    decide (s.scratchCap h.ctx < s.scratchUsed core + (s.core core).scratchScrub + h.scratch)

/-- A slot goes into the lowest free one of a core; on another core than the saved one it is numbered anew. -/
def State.putSlot (s : State) (core : Nat) (same : Bool) (x : RSlot) : State :=
  match (List.range 32).find? fun i => !(s.rslot core i).valid with
  | none => s
  | some i =>
    if same then s.setRslot core i x
    else (s.setRslot core i { x with cseq := (s.core core).cseq }).modCore core fun c => { c with cseq := c.cseq + 1#16 }

/-- PORTW of a restored slot: an exchange's names the new slot of the warp that it waits for (log 36). -/
def Team.newPort (old : Team) (slots : List Nat) (x : Nat × RSlot) : BitVec 6 :=
  match (old.cores.zip old.slots).findIdx? fun p => p == (x.1, x.2.portw.toNat) with
  | some j => if x.2.kind = 1#2 then BitVec.ofNat 6 (slots.getD j 0) else x.2.portw
  | none => x.2.portw

/-- The slots of an image take their places in the order of their completion (R366). -/
def State.putSlots (s : State) (h : ImgHead) (core : Nat) (old : Team) (slots : List Nat) (xs : List (Nat × RSlot)) : State :=
  let age (x : Nat × RSlot) : Nat := (x.2.cseq - (s.core x.1).cseq).toNat
  (sortBy (fun a b => decide (age a ≤ age b)) xs).foldl (fun u x =>
    u.putSlot (h.coreFrom core x.1) (h.coreFrom core x.1 == x.1) { x.2 with portw := old.newPort slots x }) s

/-- One warp of an image takes its slot. -/
def State.loadWarp (s : State) (h : ImgHead) (bs : List Byte) (i core slot : Nat) : State :=
  let win := (s.windowSlots core fun x => x == 0).headD 0
  let r := warpAt bs h i win s.tick s.nextId
  let s := if r.1.window.isSome then s.modCore core fun c => { c with windows := tset 0 c.windows win 1 } else s
  (s.setWarp (warpKey core slot) r.1).resleep (warpKey core slot) r.2.1 r.2.2

/-- The restore (R395). -/
def State.loadTeam (s : State) (h : ImgHead) (bs : List Byte) (core : Nat) : State :=
  let tk := teamKey h.ctx h.team
  let old := s.team tk
  let cores := h.coresFor core
  let slots := (s.slotsFor [] cores).map fun x => x.getD 0
  let xs := h.completeSlots bs old ++ s.heldAt h bs old
  let s := old.heldSlots.foldl (fun u x => u.setRslot (x.1 / 32) (x.1 % 32) {}) s
  let s := s.setTeam tk (s.teamAt h bs cores slots)
  let s := s.putSlots h core old slots xs
  ((cores.zip slots).zipIdx).foldl (fun u p => u.loadWarp h bs p.2 p.1.1 p.1.2) s

/-- CTXLD. It waits at issue until its image may be read; the warp's earlier accesses to it come first (R202). -/
def execCtxld (k : Ctl) (f : EFields) (s : State) : Host.Outcome State Fault Refusal :=
  issue s k (.ctxld k f) fun s =>
    let w := s.me
    let core := (rdU s w f.a).toNat
    let base := rdU64 s w f.b
    let page : Dword := base &&& ~~~0xFFF#64
    let off := base.toNat % 4096
    let trap (t : Trp) : State := s.takeTrap { t with addr := if t.addr = page then base else t.addr }
    match s.areaKeys w (w.eff k) page needR ((off + 4351) / 4096) with
    | .error t => trap t
    | .ok k0 =>
      let h := imgHead (s.areaBytes k0 off 256)
      if !s.areaReady (areaLines k0 off 256) then s
      else if !h.ok then (s.readLines (areaLines k0 off 256)).answer k f.d 3#32
      else
        match s.areaKeys w (w.eff k) page needR ((off + h.size + 4095) / 4096) with
        | .error t => trap t
        | .ok keys =>
            let bs := s.areaBytes keys off h.size
            let st := s.loadStatus h bs core
            let t := s.readLines (areaLines keys off h.size)
            if !s.areaReady (areaLines keys off h.size) then s
            else if st ≠ 0 then t.answer k f.d (BitVec.ofNat 32 st)
            else if s.loadWaits h core then s
            else if !h.formats bs then t.takeTrap (illegal w k (.ctxld k f))
            else (t.loadTeam h bs core).answer k f.d 0#32

/-! ## TLBINV (R389) -/

/-- Is a TLB entry of a context on the page that holds va? -/
def tlbOnPage (c : Nat) (va : Dword) (key : Nat) (x : Dword) : Bool :=
  let n := pageSize (tlbLeaf x).2
  key / 2 ^ 41 == c && key % 2 ^ 41 * 65536 / n == va.toNat % 2 ^ 57 / n

/-- Was a g-register bound on the page that holds va? -/
def GReg.onPage (g : GReg) (va : Dword) : Bool := g.valid && decide (0 < g.psize) && g.vbase.toNat / g.psize == va.toNat / g.psize

/-- VALID falls in the g-registers of a warp that a test names, and in outstanding GBINDs. -/
def Warp.dropGregs (w : Warp) (p : GReg → Bool) : Warp :=
  let g (x : GReg) : GReg := if p x then { x with valid := false } else x
  { w with gregs := tmap {} (fun _ x => g x) w.gregs, bankG := g w.bankG
           outs := w.outs.map fun o => { o with greg := o.greg.map fun y => (y.1, g y.2) } }

/-- The TLBs of the module lose what is invalidated: one page, or the whole context. -/
def State.dropTlb (s : State) (c : Nat) (page : Option Dword) : State :=
  let gone (key : Nat) (x : Dword) : Bool := match page with
    | some va => tlbOnPage c va key x
    | none => key / 2 ^ 41 == c
  { s with cores := tmap {} (fun _ x => { x with tlb := x.tlb.filter fun e => !gone e.1 e.2 }) s.cores }

/-- The g-registers as well (R175, R176, R389). -/
def State.dropTranslations (s : State) (c : Nat) (page : Option Dword) : State :=
  let bound (g : GReg) : Bool := match page with
    | some va => g.onPage va
    | none => true
  let t := s.dropTlb c page
  { t with warps := tmap {} (fun _ w => if w.ctx = c then w.dropGregs bound else w) t.warps }

/-- May the area of a sleeping CTXSV touch the page that holds va? A page of up to 1 GiB holds what the probe read (R178). -/
def State.savesOn (s : State) (w : Warp) (va : Dword) : Bool :=
  match w.req with
  | some c =>
    match c.instr with
    | .ctxsv _ f =>
      let base := (rdU64 s w f.b).toNat
      decide (base / 2 ^ 30 ≤ va.toNat / 2 ^ 30) && decide (va.toNat / 2 ^ 30 ≤ (base + 4096 * c.vals.length) / 2 ^ 30)
    | _ => false
  | none => false

/-- Is a save of a warp still to be written to a page, or to any: not that of the current warp's own team, which waits for this
word, nor that of a team which is being killed, which is never made (R393, R396, log 128)? -/
def State.savesStill (s : State) (w : Warp) (page : Option Dword) (now : Nat) : Bool :=
  match w.status with
  | .asleep (.save _ tk) t =>
    decide (t < now) && tk != s.me.teamKey && (s.team w.teamKey).stop != .kill &&
      match page with
      | some va => s.savesOn w va
      | none => true
  | _ => false

/-- Accesses, commands and saves of a context's warps that began before (numbers below id, or asleep in CTXSV since before
now). Of saves, those to the page alone count (R389). -/
def State.stillUses (s : State) (c id now : Nat) (page : Option Dword) : Bool :=
  s.warps.any fun p =>
    p.2.ctx == c &&
      (p.2.outs.any (fun o => decide (o.id < id)) || p.2.stq.any (fun e => decide (e.id < id)) ||
        p.2.status == .probing || p.2.status == .accepting ||
        ((s.core (keyCore p.1)).cmds.any fun x => x.slot == keySlot p.1 && decide (x.id < id)) ||
        ((s.core (keyCore p.1)).eng.any fun x => x.slot == keySlot p.1 && decide (x.id < id)) ||
        s.savesStill p.2 page now)

/-- TLBINV. -/
def execTlbinv (k : Ctl) (f : EFields) (s : State) : Host.Outcome State Fault Refusal :=
  issue s k (.tlbinv k f) fun s =>
    let w := s.me
    let i : Instr := .tlbinv k f
    let c := (rdU s w f.b).toNat
    let core := keyCore s.cur
    let page := if f.func = 0#16 then some (rdU64 s w f.a) else none
    if 8 ≤ c then s.takeTrap (illegal w k i)
    else
      match w.heldVals i with
      | some vs =>
        if s.stillUses c (vs.getD 0 0) (vs.getD 1 0) page then s.holdRun k i vs false else s.answerDone k f.d 0#32
      | none =>
        let dirty := s.dirtyLines core ((s.core core).relCtr + 1#32)
        if w.stq ≠ [] ∨ w.outs ≠ [] ∨ !s.markersPass core dirty then s
        else
          let t := (s.writeBackAll core dirty).dropTranslations c page
          if t.stillUses c t.nextId t.tick page then t.holdRun k i [t.nextId, t.tick] false else t.answerDone k f.d 0#32

/-! ## BIAS (R390, R229) -/

/-- Does a place exist? -/
def okPlace (x : Except Nat Phys) : Bool :=
  match x with
  | .ok _ => true
  | .error _ => false

/-- The lines of a page, here or at peers (R181), that the directory knows. -/
def State.pageLines (s : State) (page : Nat → Bool) : List Nat := (s.lines.filter fun p => page p.1).map Prod.fst

/-- A page leaves device bias: its lines are drained, recalled, written back and dropped from L2. -/
def State.flushPage (s : State) (ls : List Nat) : State :=
  ls.foldl (fun t l =>
    ((t.drainNow none l).invalidate none l 0xFFFFFFFF#32).modLine l fun x =>
      { x with inL2 := false, dirty := false, way := 0, prio := 1, stamp := 0 }) s

/-- A request that has not left for its home goes by the new bias of its page. -/
def Request.rebias (r : Request) (page : Nat → Bool) (on : Bool) : Request := if page r.line then { r with bias := on } else r

/-- A release that has not sent its own accesses is judged by the new bias of their pages; one that becomes eager writes
back first (R224, R229). -/
def StEnt.rebias (e : StEnt) (page : Nat → Bool) (on : Bool) : StEnt :=
  match e.kind with
  | .release r =>
    let r' : Release := { r with reqs := r.reqs.map fun x => x.rebias page on }
    { e with kind := .release r', stage := if r'.eager && !r.eager && e.stage == 2 then 1 else e.stage }
  | _ => e

/-- What waits takes on the new bias of a page. -/
def State.rebias (s : State) (page : Nat → Bool) (on : Bool) : State :=
  { s with reqs := s.reqs.map fun r => r.rebias page on
           warps := tmap {} (fun _ w => { w with stq := w.stq.map fun e => e.rebias page on }) s.warps }

/-- The leaf of a page is written with its new bias, and no TLB keeps the old one. -/
def State.setBias (s : State) (c core : Nat) (va e : Dword) (addr : Nat) (on : Bool) : State :=
  let e' : Dword := if on then e ||| 0x200#64 else e &&& ~~~(0x200#64)
  (s.engineWrite c core 0 addr (natLe 8 e'.toNat)).dropTlb c (some va)

/-- What a BIAS waits for: engines that own lines of the page, drains, releases on their way to it, paths to its lines, and
the leaf's line (R209, R220, R229, R405). -/
def State.biasWaits (s : State) (core : Nat) (page : Nat → Bool) (addr : Nat) : Bool :=
  (s.pageLines page).any (fun n => (s.line n).claims != [] || !s.drainReady none n || s.cutOff n) ||
    s.reqs.any (fun r => r.order.testBit 1 && page r.line) || s.writeWaits core s.nextId (lineOf addr)

/-- BIAS. A leaf of which the granule of va is malformed (R180, cause 4) is no valid leaf, as R387 says of MAPG (log 114). -/
def execBias (k : Ctl) (f : EFields) (s : State) : Host.Outcome State Fault Refusal :=
  issue s k (.bias k f) fun s =>
    let w := s.me
    let va := rdU64 s w f.a
    let host := f.func == 1#16
    match if canonical va then s.walk w.ctx va else .fail 1 0 0 with
    | .fail _ _ _ => s.answer k f.d 3#32
    | .leaf e l addr =>
      if !okPlace (s.place w.ctx va e l) then s.answer k f.d 3#32
      else if leafHost e ∨ leafClass e ≠ 2 then s.answer k f.d 2#32
      else if leafBias e = host then s.answer k f.d 1#32
      else
        let page := s.onPage w.ctx e l
        if s.biasWaits (keyCore s.cur) page addr then s
        else
          (((if host then s.flushPage (s.pageLines page) else s).rebias page host).setBias w.ctx (keyCore s.cur) va e addr host).answer
            k f.d 0#32

/-! ## MAPG (R387) -/

/-- The lines of a 64 KiB frame. -/
def frameLines (frame : Nat) : List Nat := (List.range 512).map fun i => frame / 128 + i

/-- A 64 KiB frame is written with zeros, through its homes; its lines, newly the context's, have swizzle tag 0 (R269). -/
def State.zeroFrame (s : State) (c core frame : Nat) : State :=
  (frameLines frame).foldl (fun t l =>
    (t.engineWrite c core 0 (128 * l) (List.replicate 128 0#8)).modLine l fun x => { x with swz := 0#3 }) s

/-- The level-0 leaf that MAPG writes. -/
def mapgLeaf (frame : Dword) (b : Word) : Dword :=
  frame ||| 3#64 ||| ((b.extractLsb' 3 2).setWidth 64 <<< 2) ||| ((b.extractLsb' 0 3).setWidth 64 <<< 4)

/-- MAPG's status, and where its leaf goes on 0. A leaf that places the granule of va nowhere is malformed too (R180,
cause 4). -/
def State.mapgStatus (s : State) (c : Nat) (va : Dword) : Nat × Nat :=
  match s.walk c va with
  | .leaf e l _ =>
    if !canonical va then (4, 0)
    else if okPlace (s.place c va e l) then (1, 0)
    else if va.getLsbD 56 then (4, 0)
    else (5, 0)
  | .fail cause level addr =>
    if !canonical va || va.getLsbD 56 then (4, 0)
    else if cause = 4 then (5, 0)
    else if level ≠ 0 then (3, 0)
    else if (s.ctx c).poolend ≤ (s.ctx c).poolnext then (2, 0)
    else (0, addr)

/-- MAPG. -/
def execMapg (k : Ctl) (f : EFields) (s : State) : Host.Outcome State Fault Refusal :=
  issue s k (.mapg k f) fun s =>
    let w := s.me
    let b := rdU s w f.b
    let core := keyCore s.cur
    let r := s.mapgStatus w.ctx (rdU64 s w f.a)
    if b.extractLsb' 5 27 ≠ 0#27 ∨ b.extractLsb' 3 2 = 3#2 then s.takeTrap (illegal w k (.mapg k f))
    else if r.1 ≠ 0 then s.answer k f.d (BitVec.ofNat 32 r.1)
    else if (lineOf r.2 :: frameLines (s.ctx w.ctx).poolnext.toNat).any (s.writeWaits core s.nextId) then s
    else
      let frame := (s.ctx w.ctx).poolnext
      let t := s.modCtx w.ctx fun x => { x with poolnext := frame + 65536#64, pages := frame.toNat :: x.pages }
      let t := (t.zeroFrame w.ctx core frame.toNat).engineWrite w.ctx core 0 r.2 (natLe 8 (mapgLeaf frame b).toNat)
      t.finish k ((dstKeys w f.d 2 0).zip [0#32, frame.extractLsb' 16 32]) 0#6

/-! ## FREEZE and THAW (R386) -/

/-- The record of a FREEZE. -/
def freezeRecord (r : Word) (ks : List Nat) (team : Nat) : FaultRec :=
  let first := ks.headD 0
  { cause := 5#8, mkind := BitVec.ofNat 3 (masterKind r), team := BitVec.ofNat 6 team, core := BitVec.ofNat 9 (keyCore first)
    wslot := if masterKind r = 0 then BitVec.ofNat 6 (keySlot first) else 0#6 }

/-- FREEZE. A reference whose value is illegal is found here, after the checks that come with issue (log 81). -/
def execFreeze (k : Ctl) (f : EFields) (s : State) : Host.Outcome State Fault Refusal :=
  issue s k (.freeze k f) fun s =>
    let w := s.me
    let i : Instr := .freeze k f
    let r := rdU s w f.a
    let waits (t : State) (ks : List Nat) : State :=
      if ks.any fun x => (t.warp x).freezeReq then t.holdRun k i ks (t.sharesSched ks) else t.answerDone k f.d 0#32
    if 1 < masterKind r ∨ !masterRefOk r then s.takeTrap (illegal w k i)
    else
      match w.heldVals i with
      | some ks => waits s ks
      | none =>
        let ks := s.masterWarps r
        let first := s.warp (ks.headD 0)
        if ks = [] then s.answer k f.d 1#32
        else if ks.contains s.cur then s.answer k f.d 3#32
        else if ks.all fun x => (s.warp x).frozen.isSome then s.answer k f.d 2#32
        else
          let t := ks.foldl (fun u x => u.modWarp x fun y =>
            if y.frozen.isSome then y else ({ y with freezeReq := true } : Warp).freezeHere) s
          waits (t.recordFault first.ctx (freezeRecord r ks first.team)) ks

/-- A warp inside a clause evaluates its header's wait condition again when it is thawed: the rules name TRET and a
restore alone (log 82). A warp under way in a probe or an acceptance goes on with it. -/
def Warp.resumeFrozen (w : Warp) : Warp := { w with rewait := decide (0 < w.left) }

/-- The frozen word is passed by: an instruction word, or the header that the warp stands at. -/
def Warp.skipFrozen (w : Warp) : Warp :=
  match w.status with
  | .asleep _ _ => { w.wake with req := none }
  | _ =>
    { w with pc := w.pc + 8#64, left := w.left - 1, running := false, rewait := decide (1 < w.left), req := none
             status := if w.status = .parked then .parked else .ready }

/-- A frozen warp resumes; with .skip after its frozen word, which then has no effect (R386). -/
def Warp.thaw (w : Warp) (skip : Bool) : Warp :=
  match w.frozen with
  | none => w
  | some _ =>
    if skip then ({ w with frozen := none, freezeReq := false } : Warp).skipFrozen
    else
      match w.status with
      | .asleep _ _ => { w with frozen := none, freezeReq := false }
      | _ => ({ w with frozen := none, freezeReq := false } : Warp).resumeFrozen

/-- THAW of one warp; a word in acceptance that is skipped leaves the fetch unit too, and a WATCH that is skipped its
comparison. -/
def State.thawWarp (s : State) (k : Nat) (skip : Bool) : State :=
  (if skip ∧ (s.warp k).frozen.isSome then (s.leaveAcceptance (keyCore k) (keySlot k)).unwatch k else s).modWarp k fun w =>
    w.thaw skip

/-- THAW on a host function or a peer, of which a reference may name several: a module's tenants whose records stand with the
context (R386, R407, log 97). -/
def thawOutside {α : Type} (xs : List α) (named : α → Bool) (func : Nat) (exists' : Bool) : Nat × List α :=
  if !exists' then (1, xs)
  else if !xs.any named then (2, xs)
  else if func = 2 then (1, xs)
  else (0, xs.filter fun x => !named x)

/-- THAW. A reference whose value is illegal is found here, after the checks that come with issue (log 81). -/
def execThaw (k : Ctl) (f : EFields) (s : State) : Host.Outcome State Fault Refusal :=
  issue s k (.thaw k f) fun s =>
    let w := s.me
    let i : Instr := .thaw k f
    let r := rdU s w f.a
    let id := (r.extractLsb' 0 16).toNat
    let c := (r.extractLsb' 16 3).toNat
    let kills (t : State) (tk : Nat) : State :=
      if (t.team tk).life ≠ .live ∨ (t.team tk).stop ≠ .kill then t.answerDone k f.d 0#32
      else if t.isQuiesced tk then (t.killTeam tk).answerDone k f.d 0#32
      else t.holdRun k i [tk] (t.sharesSched (t.team tk).warps)
    if !masterRefOk r then s.takeTrap (illegal w k i)
    else
      match w.heldVals i with
      | some vs => kills s (vs.headD 0)
      | none =>
        if masterKind r = 4 then
          let x := thawOutside s.links.frozenHosts (fun x => x == (c, id)) f.func.toNat true
          ({ s with links := { s.links with frozenHosts := x.2 } } : State).answer k f.d (BitVec.ofNat 32 x.1)
        else if masterKind r = 5 then
          let x := thawOutside s.links.frozenPeers (fun x => x.1 == c && x.2.1 == id) f.func.toNat (s.listed id)
          ({ s with links := { s.links with frozenPeers := x.2 } } : State).answer k f.d (BitVec.ofNat 32 x.1)
        else
          let ks := s.masterWarps r
          if ks = [] then s.answer k f.d 1#32
          else if ks.all fun x => (s.warp x).frozen.isNone then s.answer k f.d 2#32
          else if f.func = 2#16 then
            let tk := (s.warp (ks.headD 0)).teamKey
            kills (s.modTeam tk fun t => { t with stop := .kill }) tk
          else (ks.foldl (fun u x => u.thawWarp x (f.func == 1#16)) s).answer k f.d 0#32

end Sys2Proof.Machine
end

