-- ==== Sys2Proof/Machine/Manage.lean ====
section
/-! DEFINITION. The outside of the module: host accesses (R399, R400, R404, R23), peers and the Onaus links (R405 to
R407), Birseob's commands and registers (R408 to R413), errors (R398), power and management (R414, R415). -/

namespace Sys2Proof.Machine

/-! ## Accesses from outside (R200, R207) -/

/-- The lines that n bytes at a physical address touch. -/
def rangeLines (addr n : Nat) : List Nat :=
  if n = 0 then [] else (List.range ((addr + n - 1) / 128 - addr / 128 + 1)).map fun i => addr / 128 + i

/-- An access from outside waits for engine claims on its lines and for their drains (R209, R214, R220), a write for fetch
pins as well (R222). -/
def State.outsideWaits (s : State) (write : Bool) (addr n : Nat) : Bool :=
  (rangeLines addr n).any fun l => (s.line l).claims != [] || !s.drainReady none l || (write && s.fetchPinned l)

/-- A coherent read from outside: owned words come back. -/
def State.outsideRead (s : State) (addr n : Nat) : State :=
  (rangeLines addr n).foldl (fun t l => (t.drainNow none l).recall none l 0xFFFFFFFF#32) s

/-- A coherent write from outside, line by line: copies give way, the Lookout and the monitors see it, and a line that is
written whole loses its poison. -/
def State.outsideWrite (s : State) : Nat → Nat → List Byte → State
  | 0, _, _ => s
  | _ + 1, _, [] => s
  | fuel + 1, addr, b :: bs =>
    let n := 128 - addr % 128
    let now := (b :: bs).take n
    let line := lineOf addr
    let span := spanOf addr now.length
    let t := (((s.drainNow none line).recall none line span).invalidate none line span).putBytes addr now
    let t := ((t.compareWatches line).fire none line).modLine line fun x =>
      { x with poison := if now.length = 128 then 0#32 else x.poison, dirty := x.inL2 }
    t.outsideWrite fuel (addr + n) ((b :: bs).drop n)

/-- Exactly n bytes of what came with a request. -/
def exactly (n : Nat) (bs : List Byte) : List Byte := padTo n (bs.take n)

/-- n bytes at an address lie in device memory, outside every pen (R182, R400). -/
def inDevice (addr n : Nat) : Bool := decide (addr + n ≤ deviceEnd) && !overlapsPen addr n

/-- Has a host access come as far as the home of the line at an address? The host port sits on die 0, so one to memory homed on
another die comes once a packet of it has crossed the mesh and the bridges (R10, log 88). -/
def State.hostReaches (s : State) (addr : Nat) : Bool :=
  let h := s.home (addr / 128)
  decide (h / 128 = 0) || decide (0 < tget 0 s.net.hostAt (sliceRouter h))

/-- The packet that a host access to another die came by is used up. -/
def State.takeHost (s : State) (addr : Nat) : State :=
  let h := s.home (addr / 128)
  if h / 128 = 0 then s else { s with net := { s.net with hostAt := tmod 0 s.net.hostAt (sliceRouter h) fun n => n - 1 } }

/-- HOST_BAR2_ACCESS (R400, R404). -/
def execHostBar2Access (rid : Nat) (write : Bool) (addr n : Nat) (data : List Byte) (s : State) :
    Host.Outcome State Fault Refusal :=
  .next (if !s.mgmt.ready then s
    else if !inDevice addr n ∨ s.links.frozenHosts.contains (0, rid) then s.refuseHost rid 0 0 (BitVec.ofNat 64 addr)
    else if !s.hostReaches addr ∨ s.outsideWaits write addr n then s
    else if write then (s.takeHost addr).outsideWrite n addr (exactly n data) else (s.takeHost addr).outsideRead addr n)

/-- CXL_MEM_ACCESS (R399): the pen is refused as on BAR2; the access names no requester (log 37). -/
def execCxlMemAccess (write : Bool) (addr n : Nat) (data : List Byte) (s : State) : Host.Outcome State Fault Refusal :=
  .next (if !s.mgmt.ready then s
    else if !inDevice addr n then
      s.recordFault 0 { addr := BitVec.ofNat 64 addr, cause := 6#8, mkind := 4#3 }
    else if !s.hostReaches addr ∨ s.outsideWaits write addr n then s
    else if write then (s.takeHost addr).outsideWrite n addr (exactly n data) else (s.takeHost addr).outsideRead addr n)

/-- The new value of a host AtomicOp. -/
def hostAtomic (op : HostAtomic) (n old opnd cmp : Nat) : Nat :=
  match op with
  | .fetchAdd => (old + opnd) % 2 ^ (8 * n)
  | .swap => opnd % 2 ^ (8 * n)
  | .cas => if old = cmp % 2 ^ (8 * n) then opnd % 2 ^ (8 * n) else old

/-- ATOMICOP_COMPLETER (R399): 32, 64 and 128 bits, naturally aligned. -/
def execAtomicopCompleter (rid : Nat) (op : HostAtomic) (n addr : Nat) (opnd cmp : BitVec 128) (s : State) :
    Host.Outcome State Fault Refusal :=
  .next (if !s.mgmt.ready ∨ !(n == 4 || n == 8 || n == 16) ∨ addr % n ≠ 0 then s
    else if !inDevice addr n ∨ s.links.frozenHosts.contains (0, rid) then s.refuseHost rid 0 0 (BitVec.ofNat 64 addr)
    else if !s.hostReaches addr ∨ s.outsideWaits true addr n then s
    else (s.takeHost addr).outsideWrite n addr (natLe n (hostAtomic op n (s.readMem addr n) opnd.toNat cmp.toNat)))

/-! ## BAR0 (R400 to R402, R404, R409) -/

/-- What stands at an offset of BAR0. Offsets that no table names are unassigned, and a context's block is what a hole in it
names (log 98). -/
inductive Bar0 where
  | mgmt (off : Nat)
  | msix (off : Nat)
  | mailbox (ctx n off : Nat)
  | sweeps (ctx off : Nat)
  | hole (ctx : Option Nat)
  deriving DecidableEq, Repr

/-- The offsets that the management buffer assigns (R409). -/
def mgmtAssigned (off : Nat) : Bool :=
  decide (off < 0x14) || (decide (0x40 ≤ off) && decide (off < 0xC0)) || (decide (0x100 ≤ off) && decide (off < 0x1000))

/-- The offsets that a mailbox assigns (R401). -/
def mboxAssigned (off : Nat) : Bool := decide (off < 0x210)

/-- A block of 0x2_0000 bytes for each context (R400). -/
def blockAt (c off : Nat) : Bar0 :=
  if off < 0x10000 then if mboxAssigned (off % 0x400) then .mailbox c (off / 0x400) (off % 0x400) else .hole (some c)
  else if off < 0x10400 then if mboxAssigned (off % 0x400) then .mailbox c 64 (off % 0x400) else .hole (some c)
  else if 0x18000 ≤ off ∧ off < 0x18014 then .sweeps c (off - 0x18000)
  else .hole (some c)

/-- The layout of BAR0 (R400); the MSI-X table has 16 bytes for each of the 17 vectors of R403. -/
def bar0At (off : Nat) : Bar0 :=
  if off < 0x1000 then if mgmtAssigned off then .mgmt off else .hole none
  else if off < 0x1110 then .msix (off - 0x1000)
  else if 0x100000 ≤ off ∧ off < 0x200000 then blockAt ((off - 0x100000) / 0x20000) ((off - 0x100000) % 0x20000)
  else .hole none

/-- A mailbox's STATUS (R401). -/
def Mbox.statusWord (x : Mbox) : Word :=
  BitVec.ofNat 32 ((match x.st with | .empty => 0 | .full => 1 | .taken => 2) + (if x.ofull then 4 else 0) + 65536 * x.ovr.toNat)

/-- What the host reads in a mailbox; IN and the registers that only take writes read zero (R401). -/
def Mbox.read (x : Mbox) (off : Nat) : Word :=
  if 0x100 ≤ off ∧ off < 0x200 then tget 0#32 x.outb (off / 4 - 64)
  else if off / 4 = 0x81 then x.statusWord
  else 0#32

/-- SWSTAT (R402): the posts discarded, and the sweeps that hold items. -/
def Ctx.swstat (x : Ctx) : Word :=
  BitVec.ofNat 32 (65536 * x.swlost.toNat + (x.sweeps.filter fun y => decide (y.next < y.n)).length)

/-- What the host reads in the distributor (R402). -/
def Ctx.sweepRead (x : Ctx) (off : Nat) : Word :=
  match off / 4 with
  | 0 => x.swid
  | 1 => x.swn
  | 2 => x.swarg
  | 4 => x.swstat
  | _ => 0#32

/-- MGMTSTAT (R409). -/
def Mgmt.stat (m : Mgmt) : Word :=
  BitVec.ofNat 32 ((if m.ready then 1 else 0) + (if m.busy then 2 else 0) + 256 * m.booterr.toNat +
    65536 * ((List.range 4).foldl (fun v d => max v (tget 0#32 m.clkstep d).toNat) 0 % 256))

/-- CMDSTAT (R409). -/
def Mgmt.cmdStat (m : Mgmt) : Word :=
  BitVec.ofNat 32 (m.status.toNat + 256 * m.cmd.toNat + (if m.done then 65536 else 0) + 16777216 * m.ign.toNat)

/-- What the host reads in the management buffer (R409). -/
def Mgmt.read (m : Mgmt) (off : Nat) : Word :=
  if 0x100 ≤ off then
    (tget 0#8 m.resp (off / 4 * 4 - 0x100 + 3) ++ tget 0#8 m.resp (off / 4 * 4 - 0x100 + 2) ++
      tget 0#8 m.resp (off / 4 * 4 - 0x100 + 1) ++ tget 0#8 m.resp (off / 4 * 4 - 0x100) : BitVec 32)
  else if 0x40 ≤ off then tget 0#32 m.args (off / 4 - 16)
  else
    match off / 4 with
    | 0 => m.stat
    | 2 => m.cmdStat
    | 3 => m.event
    | 4 => m.evmask
    | _ => 0#32

/-- The word that an allowed host read of BAR0 returns. The MSI-X table's own contents are PCI Express's. -/
def State.bar0Read (s : State) (off : Nat) : Word :=
  match bar0At off with
  | .mgmt o => s.mgmt.read o
  | .mailbox c n o => (s.mbox c n).read o
  | .sweeps c o => (s.ctx c).sweepRead o
  | .msix _ => 0#32
  | .hole _ => 0#32

/-- The row that a host write of one word at a BAR0 offset is. A write that is ignored changes nothing unless it is refused,
as a read is (R401). place and frames are Birseob's choices for an ESTABLISH. -/
def bar0Row (rid off : Nat) (relaxed : Bool) (val : Word) (place : List (List Nat)) (frames : List Nat) : Instr :=
  match bar0At off with
  | .mgmt o =>
    if o / 4 = 1 then
      match val.toNat with
      | 1 => .establish place frames
      | 2 => .teardown
      | 3 => .lockrid
      | 4 => .unlockrid
      | 5 => .attest
      | 6 => .ctxstate
      | 7 => .fabric
      | n => .cmdWriteIgnored n
    else if o / 4 = 3 then .eventClear val
    else if o / 4 = 4 then .registerWrite rid .evmask val
    else if 0x40 ≤ o ∧ o < 0xC0 then .registerWrite rid (.args (o / 4 - 16)) val
    else .completerAbort rid (.bar0 off)
  | .mailbox c n o =>
    if o < 0x100 then .mailboxInWrite rid c n (o / 4) val
    else
      match o / 4 with
      | 0x80 => .notify rid c n relaxed
      | 0x82 => .oack rid c n
      | 0x83 => .ovrclr rid c n
      | _ => .completerAbort rid (.bar0 off)
  | .sweeps c o =>
    match o / 4 with
    | 0 => .registerWrite rid (.swid c) val
    | 1 => .registerWrite rid (.swn c) val
    | 2 => .registerWrite rid (.swarg c) val
    | 3 => .swpost rid c
    | _ => .completerAbort rid (.bar0 off)
  | .msix _ => .completerAbort rid (.bar0 off)
  | .hole _ => .completerAbort rid (.bar0 off)

/-- An access to BAR0 that changes nothing, unless it is refused (R404). -/
def State.bar0Access (s : State) (rid off : Nat) : State :=
  match bar0At off with
  | .mgmt _ => s
  | .msix _ => s
  | .mailbox c _ _ => s.barAccess rid c fun t => t
  | .sweeps c _ => s.barAccess rid c fun t => t
  | .hole (some c) => s.refuseHost rid c (if (s.ctx c).established then c else 0) 0#64
  | .hole none => s.refuseHost rid 0 0 0#64

/-- COMPLETER_ABORT (R404): a host request that its target refuses; one that it does not refuse changes nothing here. -/
def execCompleterAbort (rid : Nat) (target : HostTarget) (s : State) : Host.Outcome State Fault Refusal :=
  .next (if !s.mgmt.ready then s
    else
      match target with
      | .bar0 off => s.bar0Access rid off
      | .bar2 addr n =>
        if !inDevice addr n ∨ s.links.frozenHosts.contains (0, rid) then s.refuseHost rid 0 0 (BitVec.ofNat 64 addr) else s)

/-- CXL_CACHE_SNOOP (R23, R399): a host line that the device caches is given back; an invalidation takes it, and the host
writes it then. While an engine has claimed the line the host waits (R220). -/
def execCxlCacheSnoop (line : Nat) (invalidate : Bool) (data : List Byte) (s : State) : Host.Outcome State Fault Refusal :=
  .next (if !s.mgmt.ready ∨ !keyIsHost (line * 128) ∨ s.outsideWaits invalidate (line * 128) 128 then s
    else
      let t := s.recall none line 0xFFFFFFFF#32
      if invalidate then
        let t := t.invalidate none line 0xFFFFFFFF#32
        let t : State := { t with links := { t.links with hostLines := t.links.hostLines.filter fun l => l != line } }
        ((t.putBytes (line * 128) (data.take 128)).compareWatches line).fire none line
      else t)

/-! ## Peers (R407) -/

/-- The contexts with a fabric tenant number. -/
def State.tenantCtxs (s : State) (tenant : Nat) : List Nat :=
  if tenant = 0 then []
  else (List.range 8).filter fun c => (s.ctx c).established && (s.ctx c).fabten.toNat % 65536 == tenant

/-- Does an export window of a context cover an access by a peer? -/
def State.exports (s : State) (c peer : Nat) (kind : Access) (addr n : Nat) : Bool :=
  (List.range 8).any fun i =>
    let v := tget 0#128 (s.ctx c).expwin i
    expValid v && decide (expBase v ≤ addr) && decide (addr + n ≤ expEnd v) &&
      (match kind with
       | .read => v.getLsbD 67
       | .write => v.getLsbD 68
       | .atomic => v.getLsbD 69) &&
      (if expSet v = 0 then s.listed peer else (s.stripeSet c (expSet v)).contains peer)

/-- What a peer's atomic or slice-ALU command does to n bytes: its first byte is the op, 12 a CAS, above that a read only;
its operands follow. -/
def peerAtomic (old n : Nat) (data : List Byte) : Option Nat :=
  match data with
  | [] => none
  | b :: bs =>
    if b.toNat < 12 then some (atomOp b.toNat n old (leNat (bs.take n))).1
    else if b.toNat = 12 then
      if old = leNat (bs.take n) then some (leNat ((bs.drop n).take n)) else none
    else none

/-- Is a peer master, a module with a tenant, frozen? -/
def Links.peerFrozen (x : Links) (peer tenant : Nat) : Bool := x.frozenPeers.any fun y => y.2 == (peer, tenant)

/-- A refused request freezes its master, once, and is recorded with the context whose TENANT it names, the lowest of several
(log 97), or context 0. -/
def State.refusePeer (s : State) (peer tenant addr : Nat) : State :=
  let c := (s.tenantCtxs tenant).headD 0
  if s.links.peerFrozen peer tenant then s
  else
    ({ s with links := { s.links with frozenPeers := (c, peer, tenant) :: s.links.frozenPeers } } : State).recordFault c
      { addr := BitVec.ofNat 64 addr, cause := 7#8, mkind := 5#3, reqid := BitVec.ofNat 16 peer }

/-- PEER_REQUEST (R407). -/
def execPeerRequest (peer tenant : Nat) (kind : Access) (addr n : Nat) (data : List Byte) (s : State) :
    Host.Outcome State Fault Refusal :=
  .next (if !s.mgmt.ready then s
    else if s.links.peerFrozen peer tenant ∨ !(s.tenantCtxs tenant).any (fun c => s.exports c peer kind addr n) then
      s.refusePeer peer tenant addr
    else if s.outsideWaits (kind != .read) addr n then s
    else
      match kind with
      | .read => s.outsideRead addr n
      | .write => s.outsideWrite n addr (exactly n data)
      | .atomic =>
        match peerAtomic (s.readMem addr n) n data with
        | some v => s.outsideWrite n addr (natLe n v)
        | none => s.outsideRead addr n)

/-! ## Onaus links (R405) -/

/-- An EVENT bit goes from 0 to 1; where EVMASK has it, MSI-X vector 16 is raised (R409). -/
def State.raiseEvent (s : State) (i : Nat) : State :=
  if s.mgmt.event.getLsbD i then s
  else
    let t : State := { s with mgmt := { s.mgmt with event := s.mgmt.event ||| (1#32 <<< i) } }
    if s.mgmt.evmask.getLsbD i then t.raise 16 else t

/-- The first packet of a path that has not been delivered: a write that has not reached its home, or a marker before
which every write is accepted. -/
def State.deliver (s : State) (path : Nat) : State :=
  match (s.pathItems path).find? fun x =>
      match x with
      | .write r => s.reqs.any fun q => q.id == r && q.arrived.isNone
      | .marker .. => true with
  | some (.write r) => s.arrive r
  | some (.marker ..) => match execFlushMarker path s with
    | .next t => t
    | _ => s
  | none => s

/-- ONAUS_PACKET: the next packet of a path is delivered and acknowledged; a damaged one is sent again. -/
def execOnausPacket (path : Nat) (good : Bool) (s : State) : Host.Outcome State Fault Refusal :=
  .next (if !good ∨ s.pathDown path ∨ (s.pathPort path).isNone then s
    else
      let t := s.deliver path
      if t = s then s else { t with links := { t.links with got := tmod 0 t.links.got path (· + 1) } })

/-- What stood on a path that has lost its link goes on a live path of the same set. -/
def State.movePath (s : State) (p : Nat) : State :=
  let m := (p - 1024) / 16
  let set := match s.mgmt.fabric.find? fun x => x.1 == m with
    | some x => (List.range x.2.length).map fun i => 1024 + 16 * m + i
    | none => []
  match set.filter fun q => !s.pathDown q with
  | q :: _ => (s.modPath q fun xs => xs ++ s.pathItems p).modPath p fun _ => []
  | [] => s

/-- ONAUS_LINK_LOSS. -/
def execOnausLinkLoss (port : Nat) (s : State) : Host.Outcome State Fault Refusal :=
  .next (if 16 ≤ port ∨ s.links.down.contains port then s
    else
      let t : State := { s with links := { s.links with down := port :: s.links.down } }
      ((s.paths.map Prod.fst).filter fun p => s.pathPort p == some port).foldl State.movePath t)

/-- A destination that had no live path sends what it holds, now that one is back. -/
def State.releaseHeld (s : State) : State :=
  ((s.paths.map Prod.fst).filter s.pathDown).foldl State.movePath s

/-- LINK_RETRAIN: ports 0 to 15 are the Onaus ports, 16 the host link; those of a module that has not come up are in reset
(R408). -/
def execLinkRetrain (port : Nat) (s : State) : Host.Outcome State Fault Refusal :=
  .next (if !s.mgmt.ready ∨ 16 < port then s
    else (({ s with links := { s.links with down := s.links.down.filter fun p => p != port } } : State).releaseHeld).raiseEvent 4)

/-! ## Birseob's commands (R409, R410) -/

/-- The 128 bytes of ARGS. -/
def State.argBytes (s : State) : List Byte := wordsBytes s.mgmt.args 0 32

def State.arg (s : State) (off n : Nat) : Nat := numAt s.argBytes off n

/-- A response at an offset of RESP. -/
def State.respond (s : State) (off : Nat) (bs : List Byte) : State :=
  { s with mgmt := { s.mgmt with resp := tsetMany 0#8 s.mgmt.resp (bs.zipIdx.map fun x => (off + x.2, x.1)) } }

/-- One more ignored write of CMD. -/
def Mgmt.ignore (m : Mgmt) : Mgmt := { m with ign := if m.ign = 255#8 then 255#8 else m.ign + 1#8 }

/-- A write of CMD with a listed code: it starts the command where READY = 1 and BUSY = 0, and is ignored else. act does
the command's work and gives the status that CMDSTAT shows at its end. -/
def State.command (s : State) (code : Nat) (act : State → State × Nat) : State :=
  if !s.mgmt.ready || s.mgmt.busy then { s with mgmt := s.mgmt.ignore }
  else
    let r := act { s with mgmt := { s.mgmt with resp := [] } }
    { r.1 with mgmt := { r.1.mgmt with
      busy := true, code := BitVec.ofNat 8 code, coming := BitVec.ofNat 8 r.2, subject := s.arg 16 1 } }

/-- The codes of R410. -/
def listedCommand (code : Nat) : Bool := decide (1 ≤ code) && decide (code ≤ 7)

/-- CMD_WRITE_IGNORED (R409). -/
def execCmdWriteIgnored (code : Nat) (s : State) : Host.Outcome State Fault Refusal :=
  .next (if listedCommand code ∧ s.mgmt.ready ∧ !s.mgmt.busy then s else { s with mgmt := s.mgmt.ignore })

/-! ## ESTABLISH (R411, R412, R438 to R440) -/

/-- A digest's 64 bytes as a number. -/
def digestAt (bs : List Byte) (off : Nat) : BitVec 512 := BitVec.ofNat 512 (numAt bs off 64)

/-- An image's tables lie in it, from byte 8,192 on (R411). -/
def tablesOk (bs : List Byte) : Bool :=
  (List.range 5).all fun i =>
    let t := Config.imageTable ((bs.drop 80).take 48) i
    decide (8192 ≤ t.1) && decide (t.1 + t.2 ≤ bs.length)

/-- The bytes of an image's table i. -/
def imagePart (bs : List Byte) (i : Nat) : List Byte :=
  let t := Config.imageTable ((bs.drop 80).take 48) i
  (bs.drop t.1).take t.2

/-- What an image says: its code words and its data are the bytes of its first two tables. -/
def imageOf (bs : List Byte) : Config.ImageInfo :=
  { Config.imageInfo bs with
    code := (List.range ((imagePart bs 0).length / 8)).map fun i => BitVec.ofNat 64 (numAt (imagePart bs 0) (8 * i) 8)
    data := imagePart bs 1 }

/-- Does an image verify (R411)? -/
def imageVerifies (bs : List Byte) : Bool :=
  decide (8192 ≤ bs.length) && numAt bs 0 4 == 0x09545A44 && numAt bs 4 4 == 1 && numAt bs 8 8 == bs.length &&
    digestAt bs 128 == Config.sha3 (bs.drop 8192) &&
    Config.signatureVerifies (bs.take 256) ((bs.drop 256).take 4627) (digestAt bs 192) &&
    (((bs.drop 4883).take 3309).all fun b => b == 0#8) && tablesOk bs

/-- The cores of the granted-core mask. -/
def State.maskCores (s : State) : List Nat := let m := s.arg 64 64; (List.range 512).filter fun k => m.testBit k

/-- The placement is one that Birseob may choose (R438): every team on granted cores of one cluster. -/
def placeOk (x : Config.ImageInfo) (cores : List Nat) (place : List (List Nat)) : Bool :=
  place.length == x.teams && place.all fun p =>
    p.length == x.warps && p.all fun c => cores.contains c && clusterOf c == clusterOf (p.headD 0)

/-- Scratchpad that a placement puts on a core. -/
def placeScratch (x : Config.ImageInfo) (place : List (List Nat)) (core : Nat) : Nat :=
  up128 x.scratch * (place.filter fun p => p.headD 512 == core).length

/-- Of n numbers, those that are i modulo m. -/
def countMod (n m i : Nat) : Nat := (n + m - 1 - i) / m

/-- Block records that a context with n blocks has at a quadrant's shard, given its quadrants. -/
def recordsAt (qs : List Nat) (n q : Nat) : Nat := if qs.contains q then countMod n qs.length (indexOf q qs) else 0

/-- The cores that a context has once those of the mask are granted to it (R24). -/
def State.coming (s : State) (c : Nat) (cores : List Nat) : List Nat :=
  (List.range 512).filter fun k => cores.contains k || s.granted k c

/-- The limits of R15, R19, R305 and R412 that no placement changes. -/
def State.countsOk (s : State) (x : Config.ImageInfo) (c : Nat) (cores : List Nat) : Bool :=
  let qs := (List.range 16).filter fun q => (s.coming c cores).any fun k => quadOf k == q
  decide (1 ≤ x.teams) && decide (x.teams ≤ 64) && decide (1 ≤ x.warps) && decide (x.warps ≤ 16) && cores != [] &&
    regsOk x.regs && decide (x.blocks.length ≤ 2 ^ 20) &&
    (x.blocks.all fun b => decide (b.cvmap.length ≤ 6) && decide (popcount b.csmask ≤ 16)) &&
    (x.views.all fun v => decide (v.blocks.length ≤ 4096)) &&
    ((List.range x.blocks.length).all fun b => decide ((x.views.filter fun v => v.blocks.contains b).length ≤ 8)) &&
    (List.range 16).all fun q =>
      decide (recordsAt qs x.blocks.length q +
        ((List.range 8).map fun c => if (s.ctx c).established then recordsAt (s.quads c) (s.ctx c).nblocks q else 0).sum ≤ 65536)

/-- The limits of R310 and R412 on every granted core. -/
def placeFits (x : Config.ImageInfo) (cores : List Nat) (place : List (List Nat)) : Bool :=
  cores.all fun c => decide (placeScratch x place c ≤ 458752) &&
    decide ((place.flatten.filter fun k => k == c).length ≤ 48) &&
    place.all fun p => decide (x.regs * (p.filter fun k => k == c).length ≤ 4096)

/-- The most teams that a cluster's granted cores, one or both, can take under those limits: with both, teams whose warps
are divided evenly between them fill the warp slots of the two together. -/
def clusterRoom (x : Config.ImageInfo) (both : Bool) : Nat :=
  let n := if both then 2 else 1
  let byScratch := if up128 x.scratch = 0 then 64 else 458752 / up128 x.scratch * n
  if x.regs * ((x.warps + n - 1) / n) ≤ 4096 then min (48 * n / x.warps) byScratch else 0

/-- Is there a placement within the limits (R438)? -/
def mayFit (x : Config.ImageInfo) (cores : List Nat) : Bool :=
  decide (x.teams ≤ ((distinct (cores.map clusterOf)).map fun k =>
    clusterRoom x (cores.contains (2 * k) && cores.contains (2 * k + 1))).sum)

/-- Pages of an image: code, data, supervisor. -/
def codePages (x : Config.ImageInfo) : Nat := (8 * x.code.length + 65535) / 65536

def dataPages (x : Config.ImageInfo) : Nat := (x.data.length + 65535) / 65536

def supPages (c : Nat) : Nat := ((Config.supervisorBytes c).length + 65535) / 65536

/-- Pages for the page tables of an image, 16 tables in each. -/
def tablePages (x : Config.ImageInfo) (c : Nat) : Nat := (8 + 4 * (codePages x + dataPages x + supPages c) + 15) / 16

/-- Pages that Birseob places for an image. -/
def placedPages (x : Config.ImageInfo) (c : Nat) : Nat := tablePages x c + codePages x + dataPages x + supPages c

/-- May Birseob place the pages of a context in these frames (R439)? The first hold the page tables, then come code, data and
supervisor. Another context's frames are those that Birseob placed and MAPG has mapped for it, the pool that it was given, and
what POOLNEXT and POOLEND say now. -/
def State.framesOk (s : State) (x : Config.ImageInfo) (c : Nat) (frames : List Nat) (pool poolEnd : Nat) : Bool :=
  frames.length == placedPages x c && (distinct frames).length == frames.length && frames.all fun f =>
    f % 65536 == 0 && inDevice f 65536 && (decide (f + 65536 ≤ pool) || decide (poolEnd ≤ f)) &&
      (List.range 8).all fun d => d == c || (!(s.ctx d).pages.contains f &&
        (decide (f + 65536 ≤ (s.ctx d).pool.1) || decide ((s.ctx d).pool.2 ≤ f)) &&
        (decide (f + 65536 ≤ (s.ctx d).poolnext.toNat) || decide ((s.ctx d).poolend.toNat ≤ f)))

/-- Address of page table n of those that stand in some frames. -/
def tableAt (frames : List Nat) (n : Nat) : Nat := frames.getD (n / 16) 0 + n % 16 * 4096

/-- A page is entered in the tables; new tables are taken from number next on. -/
def State.mapPage (s : State) (frames : List Nat) (va leaf : Dword) : List Nat → Nat → Nat → State × Nat
  | [], _, next => (s, next)
  | l :: ls, table, next =>
    let a := table + (va.extractLsb' (levelShift l) (levelBits l)).toNat * 8
    let e := s.dwordAt a
    if l = 0 then (s.putBytes a (natLe 8 leaf.toNat), next)
    else if e.getLsbD 0 then s.mapPage frames va leaf ls (pointerNext e) next
    else (s.putBytes a (natLe 8 (tableAt frames next + 1))).mapPage frames va leaf ls (tableAt frames next) (next + 1)

/-- Pages from va on at some of the frames, with a leaf's low bits. -/
def State.mapPages (s : State) (frames : List Nat) (low : Nat) : Dword → List Nat → Nat → State × Nat
  | _, [], next => (s, next)
  | va, f :: fs, next =>
    let r := s.mapPage frames va (BitVec.ofNat 64 (f + low)) [4, 3, 2, 1, 0] (tableAt frames 0) next
    r.1.mapPages frames low (va + 65536#64) fs r.2

/-- A frame takes its contents, through its lines' homes, and the lines, newly the context's, have swizzle tag 0 (R269). -/
def State.placeFrame (s : State) (f : Nat) (bs : List Byte) : State :=
  (frameLines f).foldl (fun t l => t.modLine l fun x => { x with swz := 0#3 }) (s.outsideWrite 65536 f (exactly 65536 bs))

/-- Frames take bytes in order, 64 KiB each. -/
def State.placeFrames (s : State) : List Nat → List Byte → State
  | [], _ => s
  | f :: fs, bs => (s.placeFrame f bs).placeFrames fs (bs.drop 65536)

/-- First virtual address of code (R440), and of the supervisor's pages (log 20). -/
def codeVa : Dword := 0x0000000100000000#64

def supVa : Dword := 0xFF00000000000000#64

/-- An image's pages and tables are written into device memory (R439, R440). -/
def State.placeImage (s : State) (x : Config.ImageInfo) (c : Nat) (frames : List Nat) : State :=
  let tabs := frames.take (tablePages x c)
  let rest := frames.drop (tablePages x c)
  let code := rest.take (codePages x)
  let rest := rest.drop (codePages x)
  let data := rest.take (dataPages x)
  let sup := rest.drop (dataPages x)
  let s := (((s.placeFrames tabs []).placeFrames code (x.code.flatMap fun w => natLe 8 w.toNat)).placeFrames data x.data).placeFrames
    sup (Config.supervisorBytes c)
  let r := s.mapPages tabs 0x57 codeVa code 1
  let r := r.1.mapPages tabs 0x37 (codeVa + BitVec.ofNat 64 (65536 * codePages x)) data r.2
  (r.1.mapPages tabs 0x77 supVa sup r.2).1

/-- CTXCFG at establishment: the defaults, the tenant class, and the smallest SPLIT that holds the scratchpads. -/
def establishedCfg (x : Config.ImageInfo) (cores : List Nat) (place : List (List Nat)) (tclass : Nat) : Word :=
  let most := (cores.map fun c => placeScratch x place c).foldl max 0
  (x.ctxcfg &&& 0x00100003#32) ||| BitVec.ofNat 32 (tclass * 2 ^ 21 + (most + 65535) / 65536 * 65536)

/-- A context's registers and records at establishment (R412, R37). A block whose init is negative or a NaN starts with the
RES that RESID would give for it, |init| or +infinity, since RES is never negative (R306): R37 says no more than RES = init
(log 99). -/
def establishedCtx (x : Config.ImageInfo) (c : Nat) (digest : BitVec 512) (cores : List Nat) (place : List (List Nat))
    (frames : List Nat) (tclass pool poolEnd : Nat) : Ctx :=
  { established := true, digest, nteams := x.teams, nwarps := x.warps, nblocks := x.blocks.length, nviews := x.views.length
    regs := x.regs, cores, ctxcfg := establishedCfg x cores place tclass, tvec := Config.supervisorTvec c
    ptroot := BitVec.ofNat 64 (tableAt frames 0), svent := Config.supervisorEntry c, poolnext := BitVec.ofNat 64 pool
    poolend := BitVec.ofNat 64 poolEnd, drvage := x.drvage &&& drvageFields, drvstl := x.drvstl &&& drvstlFields
    pages := frames, pool := (pool, poolEnd)
    blocks := tsetMany {} [] (x.blocks.zipIdx.map fun b =>
      (b.2, { declared := true, entry := b.1.entry, tau := b.1.tau, res := residOf b.1.init, key := keyOf (residOf b.1.init)
              cvmap := b.1.cvmap, csmask := b.1.csmask, cls := BitVec.ofNat 3 tclass }))
    views := tsetMany {} [] (x.views.zipIdx.map fun v => (v.2, { declared := true, blocks := v.1.blocks, sum := v.1.sum }))
    mboxes := tsetMany {} [] ((x.mboxes.map fun m => (m.num, { bound := true, entry := m.entry, key := m.key })) ++
      [(64, { bound := true, entry := Config.supervisorEntry c })]) }

/-- The warps of a team are spawned (R438, R93, R412). -/
def State.spawnWarps (s : State) (c team : Nat) (entry : Dword) (cores slots : List Nat) : State :=
  ((cores.zip slots).zipIdx).foldl (fun t p =>
    t.setWarp (warpKey p.1.1 p.1.2)
      { present := true, ctx := c, team, twarp := p.2, pc := entry, lastIssue := s.tick, fetching := true
        seeds := tsetMany 0#32 [] (lanes.map fun l => (l, BitVec.ofNat 32 (p.1.1 * 2048 + p.1.2 * 32 + l + 1))) }) s

/-- The teams are spawned: each takes the lowest free slots of its cores, teams in ascending number. -/
def State.spawnTeams (s : State) (p : Spawn) : Nat → List (List Nat) → State
  | _, [] => s
  | i, cores :: rest =>
    let slots := (s.slotsFor [] cores).map fun y => y.getD 0
    ((s.setTeam (teamKey p.ctx i) { life := .live, cores, slots, regs := p.regs, scratchSize := p.scratch }).spawnWarps p.ctx i
      p.entry cores slots).spawnTeams p (i + 1) rest

/-- The teams of an establishment wait for the scrub of the scratchpad that they take, and for their warps' slots (R397, log
126). -/
def State.spawnWaits (s : State) (p : Spawn) : Bool :=
  (s.slotsFor [] p.place.flatten).contains none ||
    p.place.flatten.any fun k => decide (s.scratchCap p.ctx <
      s.scratchUsed k + (s.core k).scratchScrub + p.scratch * (p.place.filter fun q => q.headD 512 == k).length)

/-- The initial records are posted in ascending block number (R412): those whose init is above their tau (R37). -/
def State.postInitial (s : State) (x : Config.ImageInfo) (c : Nat) : State :=
  x.blocks.zipIdx.foldl (fun t b => if gtF32 b.1.init b.1.tau then t.queueBlock c b.2 else t) s

/-- Every shard starts a context's pop count anew. -/
def State.zeroPops (s : State) (c : Nat) : State :=
  (List.range 16).foldl (fun t q => t.modShard q fun x => { x with pops := tset 0#32 x.pops c 0#32 }) s

/-- An establishment that succeeds, but for its teams, which are spawned last (R412). Cores that CORECTX granted to the
context before are its own too, in core order (R24). -/
def State.establish (s : State) (x : Config.ImageInfo) (c : Nat) (digest : BitVec 512) (cores : List Nat)
    (place : List (List Nat)) (frames : List Nat) (tclass pool poolEnd : Nat) : State :=
  let all := s.coming c cores
  let s := (s.placeImage x c frames).setCtx c { establishedCtx x c digest cores place frames tclass pool poolEnd with cores := all }
  let s := (cores.foldl (fun t k => t.modCore k fun y => { y with corectx := BitVec.ofNat 32 (2 ^ 31 + c) }) s).trimAll all
  let s := ((s.zeroPops c).postInitial x c).respond 0 (natLe 64 digest.toNat)
  { s with mgmt := { s.mgmt with
    spawns := some { ctx := c, entry := x.entry, regs := x.regs, scratch := up128 x.scratch, place } } }

/-- The status of an ESTABLISH, but for its limits (R410). A core on which warps of another context still stand is not free
(log 69). -/
def State.establishStatus (s : State) (img : List Byte) (cores : List Nat) : Nat :=
  let addr := s.arg 0 8
  let c := s.arg 16 1
  if addr % 4096 ≠ 0 ∨ !inDevice addr (s.arg 8 8) ∨ 8 ≤ c ∨ 8 ≤ s.arg 17 1 ∨
      poolBad (BitVec.ofNat 64 (s.arg 24 8)) (BitVec.ofNat 64 (s.arg 32 8)) then 2
  else if (s.ctx c).established then 6
  else if !imageVerifies img then 3
  else if cores.any fun k => (s.core k).corectx.getLsbD 31 || s.foreign k c then 5
  else 0

/-- Does an image keep the limits on some placement (R305, R412, R438)? -/
def State.possible (s : State) (x : Config.ImageInfo) (c : Nat) (cores : List Nat) : Bool :=
  s.countsOk x c cores && mayFit x cores

/-- Are a placement and frames such as Birseob may choose (R438, R439)? -/
def State.choiceOk (s : State) (x : Config.ImageInfo) (c : Nat) (cores : List Nat) (place : List (List Nat)) (frames : List Nat)
    (pool poolEnd : Nat) : Bool :=
  placeOk x cores place && placeFits x cores place && s.framesOk x c frames pool poolEnd

/-- ESTABLISH (R410, R412): place and frames are Birseob's choices (log 19); what it may not choose is no event. -/
def execEstablish (place : List (List Nat)) (frames : List Nat) (s : State) : Host.Outcome State Fault Refusal :=
  let img := s.bytesAt (s.arg 0 8) (s.arg 8 8)
  let x := imageOf img
  let cores := s.maskCores
  let c := s.arg 16 1
  let st := s.establishStatus img cores
  let go := st == 0 && s.possible x c cores
  .next (if go ∧ s.mgmt.ready ∧ !s.mgmt.busy ∧ !s.choiceOk x c cores place frames (s.arg 24 8) (s.arg 32 8) then s
    else s.command 1 fun t =>
      if st ≠ 0 then (t, st)
      else if !go then (t, 4)
      else (t.establish x c (digestAt img 128) cores place frames (s.arg 17 1) (s.arg 24 8) (s.arg 32 8), 0))

/-! ## TEARDOWN (R412) -/

/-- The teams of a context that are not absent. -/
def State.ctxTeams (s : State) (c : Nat) : List Nat := (s.teams.filter fun t => t.1 / 64 == c && t.2.life != .absent).map Prod.fst

/-- TEARDOWN: the context's teams are asked to stop; the command ends once they have (R396). -/
def execTeardown (s : State) : Host.Outcome State Fault Refusal :=
  .next (s.command 2 fun t =>
    let c := s.arg 16 1
    if 8 ≤ c then (t, 2)
    else if !(s.ctx c).established then (t, 6)
    else ((s.ctxTeams c).foldl (fun u k => u.modTeam k fun x => { x with stop := .kill }) t, 0))

/-- Every resident team of a context has quiesced. -/
def State.allQuiet (s : State) (c : Nat) : Bool :=
  (s.ctxTeams c).all fun k => (s.team k).life != .live || s.isQuiesced k

/-- A saved team goes, with the slots that it holds. -/
def State.dropTeam (s : State) (k : Nat) : State :=
  if (s.team k).life = .live then s.killTeam k
  else ((s.team k).heldSlots.foldl (fun u x => u.setRslot (x.1 / 32) (x.1 % 32) {}) (s.slotTeam k)).setTeam k {}

/-- The rest of a teardown: teams, records, handles, windows, pins, mailboxes and cores. -/
def State.clearCtx (s : State) (c : Nat) : State :=
  let s := (s.ctxTeams c).foldl State.dropTeam s
  let s := (s.ctx c).wins.foldl (fun t w => t.moveLines w.lines) s
  let s : State :=
    { s with
      lines := tmap {} (fun _ x => { x with locks := x.locks &&& ~~~(1#8 <<< c) }) s.lines
      reqs := s.reqs.filter fun r => r.ctx != c || r.moves.isNone
      posts := s.posts.filter fun p => p.ctx != c
      withdraws := s.withdraws.filter fun p => p.ctx != c
      cores := tmap {} (fun k x => { x with
        tlb := x.tlb.filter fun e => e.1 / 2 ^ 41 != c
        corectx := if s.granted k c then 0#32 else x.corectx }) s.cores }
  let s := (List.range 16).foldl (fun t q => (List.range 256).foldl (fun u h =>
    if (u.handle q h).used ∧ (u.handle q h).ctx = c then u.endRequest q h else u) t) s
  (s.zeroPops c).setCtx c {}

/-- The state of a context in a CTXSTATE and in a report (R410, R413). -/
def State.ctxState (s : State) (c : Nat) : Nat :=
  if !(s.ctx c).established then 0 else if s.mgmt.down && s.mgmt.subject == c then 2 else 1

/-- What is left of an establishment: its teams (R412). -/
def State.spawn (s : State) : State :=
  match s.mgmt.spawns with
  | some p => ({ s with mgmt := { s.mgmt with spawns := none } } : State).spawnTeams p 0 p.place
  | none => s

/-- COMMAND_DONE (R410): CMDSTAT shows the command with DONE, and EVENT bit 0 is raised; an establishment ends once its teams
are spawned, and a teardown once its context is clear, which raises bit 5. -/
def execCommandDone (s : State) : Host.Outcome State Fault Refusal :=
  let m := s.mgmt
  .next (if !m.busy ∨ (m.down ∧ !s.allQuiet m.subject) ∨ m.spawns.any s.spawnWaits then s
    else
      let t := if m.down then (s.clearCtx m.subject).raiseEvent 5 else s.spawn
      ({ t with mgmt := { t.mgmt with busy := false, cmd := m.code, status := m.coming, done := true } } : State).raiseEvent 0)

/-! ## The other commands -/

/-- A command that names a context. -/
def State.ctxCommand (s : State) (code : Nat) (act : State → Nat → State × Nat) : State :=
  s.command code fun t => if 8 ≤ s.arg 16 1 then (t, 2) else act t (s.arg 16 1)

/-- LOCKRID (R410). -/
def execLockrid (s : State) : Host.Outcome State Fault Refusal :=
  .next (s.ctxCommand 3 fun t c =>
    if (s.ctx c).established then (t.modCtx c fun x => { x with lockrid := some (s.arg 20 2) }, 0) else (t, 6))

/-- UNLOCKRID (R410). -/
def execUnlockrid (s : State) : Host.Outcome State Fault Refusal :=
  .next (s.ctxCommand 4 fun t c =>
    if (s.ctx c).established then (t.modCtx c fun x => { x with lockrid := none }, 0) else (t, 6))

/-- CTXSTATE (R410). -/
def execCtxstate (s : State) : Host.Outcome State Fault Refusal :=
  .next (s.ctxCommand 6 fun t c =>
    let x := s.ctx c
    (t.respond 0 (natLe 4 (s.ctxState c) ++ natLe 4 x.cores.length ++ natLe 64 x.digest.toNat), 0))

/-- The Birseob that runs. -/
def Mgmt.running (m : Mgmt) : List Byte := m.birseob.getD Config.birseobImage

/-- An attestation report for a nonce (R413, log 20). -/
def State.attestation (s : State) (nonce : List Byte) : List Byte :=
  let body := padTo 32 nonce ++ natLe 8 Config.moduleSerial.toNat ++ natLe 64 Config.identityDigest.toNat ++ natLe 64 Config.romDigest.toNat ++
    natLe 64 (Config.sha3 s.mgmt.running).toNat ++
    ((List.range 8).flatMap fun c => natLe 4 (s.ctxState c) ++ natLe 64 (s.ctx c).digest.toNat) ++
    natLe 8 s.mgmt.reports
  body ++ natLe 4627 (Config.identitySign body).toNat

/-- The report counter rises. -/
def State.countReport (s : State) : State := { s with mgmt := { s.mgmt with reports := s.mgmt.reports + 1 } }

/-- ATTEST (R410, R413). -/
def execAttest (s : State) : Host.Outcome State Fault Refusal :=
  let dest := s.arg 32 8
  let r := s.attestation (s.argBytes.take 32)
  .next (if s.mgmt.ready ∧ !s.mgmt.busy ∧ dest % 4096 = 0 ∧ inDevice dest 16384 ∧ s.outsideWaits true dest r.length then s
    else s.command 5 fun t =>
      if dest % 4096 ≠ 0 ∨ !inDevice dest 16384 ∨ 16384 < r.length then (t, 2)
      else (((t.outsideWrite r.length dest r).respond 0 (natLe 4 r.length)).countReport, 0))

/-- MCTP_ATTEST (R413, R415). -/
def execMctpAttest (nonce : BitVec 256) (s : State) : Host.Outcome State Fault Refusal :=
  let r := s.attestation (natLe 32 nonce.toNat)
  .next (if !s.mgmt.ready then s else ({ s with mgmt := { s.mgmt with report := r } } : State).countReport)

/-- One entry of a fabric table: module and local ports, or none where a limit is broken (R406). -/
def fabricEntry (bs : List Byte) : Option (Nat × List Nat) :=
  let p := numAt bs 2 1
  let path (i : Nat) : Nat := numAt bs (8 + 8 * i) 8
  if 1 ≤ p ∧ p ≤ 16 ∧ numAt bs 3 5 = 0 ∧ ((List.range p).all fun i => path i / 16 % 4096 == 0) ∧
      ((bs.drop (8 + 8 * p)).all fun b => b == 0#8) then
    some (numAt bs 0 2, (List.range p).map fun i => path i % 16)
  else none

/-- The entries of a fabric table at an address: own number and entries, or none. -/
def State.fabricTable (s : State) (addr : Nat) : Option (Nat × List (Nat × List Nat)) :=
  let head := s.bytesAt addr 64
  let own := numAt head 0 2
  let e := numAt head 2 2
  let xs := (List.range e).map fun i => fabricEntry (s.bytesAt (addr + 64 + 256 * i) 256)
  let ys := xs.filterMap id
  let ms := ys.map Prod.fst
  if e ≤ 4095 ∧ inDevice addr (64 + 256 * e) ∧ ((head.drop 4).all fun b => b == 0#8) ∧ ys.length = e ∧
      (distinct ms).length = e ∧ !ms.contains own then some (own, ys)
  else none

/-- FABRIC (R406, R410). -/
def execFabric (s : State) : Host.Outcome State Fault Refusal :=
  let addr := s.arg 0 8
  .next (s.command 7 fun t =>
    if !inDevice addr 64 then (t, 2)
    else
      match s.fabricTable addr with
      | none => (t, 2)
      | some (own, ys) =>
        ({ t with mgmt := { t.mgmt with modid := BitVec.ofNat 32 own, fabtab := BitVec.ofNat 64 addr, fabric := ys } }, 0))

/-- EVENT_CLEAR (R409). -/
def execEventClear (ones : Word) (s : State) : Host.Outcome State Fault Refusal :=
  .next { s with mgmt := { s.mgmt with event := s.mgmt.event &&& ~~~ones } }

/-- REGISTER_WRITE (R402, R409). -/
def execRegisterWrite (rid : Nat) (reg : HostReg) (val : Word) (s : State) : Host.Outcome State Fault Refusal :=
  .next (match reg with
    | .evmask => { s with mgmt := { s.mgmt with evmask := val } }
    | .args w => if w < 32 then { s with mgmt := { s.mgmt with args := tset 0#32 s.mgmt.args w val } } else s
    | .swid c => s.barAccess rid c fun t => t.modCtx c fun x => { x with swid := val }
    | .swn c => s.barAccess rid c fun t => t.modCtx c fun x => { x with swn := val }
    | .swarg c => s.barAccess rid c fun t => t.modCtx c fun x => { x with swarg := val })

/-! ## Boot, power and management (R408, R414, R415) -/

/-- Step 1 of R408: the ROM verifies a Birseob's signature over its digest, against the vendor's key. -/
def birseobOk (img : List Byte) : Bool :=
  Config.signatureVerifies (natLe 64 (Config.sha3 img).toNat) (Config.birseobSignature img) Config.vendorDigest

/-- The Birseob that a reset activates: the one that waits, where it verifies (R415). -/
def Mgmt.nextBirseob (m : Mgmt) : Option (List Byte) :=
  match m.staged with
  | some img => if birseobOk img then some img else m.birseob
  | none => m.birseob

/-- Can a boot fail at this step, or at none where 0? It fails at step 1 exactly where the Birseob that it would run does not
verify. -/
def State.bootCan (s : State) (failed : Nat) : Bool :=
  decide (failed ≤ 5) && (failed == 1) == !birseobOk (s.mgmt.nextBirseob.getD Config.birseobImage)

/-- The module after the steps of R408; failed is 0, or the step that failed. What management holds outlives it, and so
does memory outside the module. -/
def State.bootUp (s : State) (failed : Nat) : State :=
  { State.reset with
    tick := s.tick, nextId := s.nextId, agenda := s.agenda
    mem := s.mem.filter fun e => decide (hostKey ≤ e.1)
    mgmt := { ready := failed == 0, booterr := BitVec.ofNat 8 failed, boots := s.mgmt.boots + 1, reports := s.mgmt.reports
              powerLimit := s.mgmt.powerLimit, birseob := s.mgmt.nextBirseob } }

/-- BOOT (R408): at power-on. -/
def execBoot (failed : Nat) (s : State) : Host.Outcome State Fault Refusal :=
  .next (if s.mgmt.ready ∨ !s.bootCan failed then s else s.bootUp failed)

/-- D3COLD_EXIT (R414). -/
def execD3coldExit (failed : Nat) (s : State) : Host.Outcome State Fault Refusal :=
  .next (if s.bootCan failed then s.bootUp failed else s)

/-- A die's clock step changes: EVENT bit 1 (R409). -/
def State.setClkstep (s : State) (die : Nat) (v : Word) : State :=
  ({ s with mgmt := { s.mgmt with clkstep := tset 0#32 s.mgmt.clkstep die v } } : State).raiseEvent 1

/-- CLKSTEP_DOWN (R414): one step slower, at most 5. -/
def execClkstepDown (die : Nat) (s : State) : Host.Outcome State Fault Refusal :=
  let v := tget 0#32 s.mgmt.clkstep die
  .next (if die < 4 ∧ v < 5#32 then s.setClkstep die (v + 1#32) else s)

/-- CLKSTEP_UP (R414). -/
def execClkstepUp (die : Nat) (s : State) : Host.Outcome State Fault Refusal :=
  let v := tget 0#32 s.mgmt.clkstep die
  .next (if die < 4 ∧ v ≠ 0#32 then s.setClkstep die (v - 1#32) else s)

/-- THERMAL_STOP (R414). -/
def execThermalStop (die : Nat) (s : State) : Host.Outcome State Fault Refusal :=
  .next (if die < 4 then { s with mgmt := { s.mgmt with stopped := true } } else s)

/-- THERMAL_STOP_NEAR (R409). -/
def execThermalStopNear (die : Nat) (s : State) : Host.Outcome State Fault Refusal :=
  .next (if die < 4 then s.raiseEvent 2 else s)

/-- PLDM_MONITOR (R415): power, the temperature of each die and of the coolant, and CLKSTEP and MEMERR of each die. -/
def execPldmMonitor (power : Nat) (temps : List Nat) (coolant : Nat) (s : State) : Host.Outcome State Fault Refusal :=
  .next { s with mgmt := { s.mgmt with
    monitor := power :: ((List.range 4).map fun d => temps.getD d 0) ++ [coolant] ++
      ((List.range 4).map fun d => (tget 0#32 s.mgmt.clkstep d).toNat) ++
      (List.range 4).map fun d => (tget 0#32 s.mgmt.memerr d).toNat } }

/-- PLDM_FIRMWARE_UPDATE (R415): the next reset verifies the image, and activates it. -/
def execPldmFirmwareUpdate (image : List Byte) (s : State) : Host.Outcome State Fault Refusal :=
  .next { s with mgmt := { s.mgmt with staged := some image } }

/-- POWER_LIMIT_SET (R414). -/
def execPowerLimitSet (watts : Nat) (s : State) : Host.Outcome State Fault Refusal :=
  .next (if 1500 ≤ watts ∧ watts ≤ 4200 then { s with mgmt := { s.mgmt with powerLimit := watts } } else s)

/-! ## Errors (R398) -/

/-- One more error counted in a die's MEMERR. -/
def State.countError (s : State) (die : Nat) : State :=
  { s with mgmt := { s.mgmt with memerr := tmod 0#32 s.mgmt.memerr die (· + 1#32) } }

/-- CORRECTED_ERROR. -/
def execCorrectedError (die : Nat) (s : State) : Host.Outcome State Fault Refusal :=
  .next (if die < 4 then s.countError die else s)

/-- A violation with cause 4 freezes a warp where it stands (R384). -/
def State.freezeWarp (s : State) (k : Nat) : State :=
  let w := s.warp k
  if !w.present ∨ w.frozen.isSome then s
  else
    (s.modWarp k fun w => { w with frozen := some 4, running := false }).recordFault w.ctx
      { cause := 4#8, mkind := 0#3, wslot := BitVec.ofNat 6 (keySlot k), team := BitVec.ofNat 6 w.team
        core := BitVec.ofNat 9 (keyCore k) }

/-- UNCORRECTABLE_ERROR. -/
def execUncorrectableError (site : ErrorSite) (s : State) : Host.Outcome State Fault Refusal :=
  .next (match site with
    | .line addr m =>
      if addr < deviceEnd then
        ((s.modLine (lineOf addr) fun x => { x with poison := x.poison ||| m }).countError (addr / dieSize)).raiseEvent 3
      else s
    | .scratch c t off =>
      if off < (s.team (teamKey c t)).scratchSize then
        s.modTeam (teamKey c t) fun x => { x with poison := tset false x.poison (off / 4) true }
      else s
    | .rows core slot => s.freezeWarp (warpKey core slot)
    | .window core slot => if (s.warp (warpKey core slot)).window.isSome then s.freezeWarp (warpKey core slot) else s
    | .folds c t => (s.team (teamKey c t)).warps.foldl State.freezeWarp s
    | .peer m c refuses =>
      let xs := s.links.refusing.filter fun x => x != (m, c)
      { s with links := { s.links with refusing := if refuses then (m, c) :: xs else xs } })

end Sys2Proof.Machine
end

