-- ==== Sys2Proof/Machine/Solver.lean ====
section
/-! DEFINITION. The solver words (R336 to R350): batched factorisation and triangular solves, pivot records, solver
objects and their feeds, the horizon shift; and the steps of the engine: acceptance (R285), the start of a word (R287), the
accumulator write and the landing of an engine word's memory writes (R297). -/

namespace Sys2Proof.Machine

/-! ## Rounded arithmetic on codes (R340) -/

def negKeep (x : Num) : Num := if x.isNan then x else x.negate

def fmaCode (f : FpFmt) (neg : Bool) (a b c : Nat) : Nat × Flags :=
  let x := f.decode a
  let y := fmaNum false (if neg then negKeep x else x) (f.decode b) (f.decode c)
  let z := roundTo f y.1 0 false 0
  (z.1, y.2 ||| z.2)

def divCode (f : FpFmt) (a b : Nat) : Nat × Flags :=
  let y := divNum (f.decode a) (f.decode b)
  let z := roundTo f y.1 0 false 0
  (z.1, y.2 ||| z.2)

def sqrtCode (f : FpFmt) (a : Nat) : Nat × Flags :=
  let y := sqrtNum (f.decode a)
  let z := roundTo f y.1 0 false 0
  (z.1, y.2 ||| z.2)

/-! ## Matrices -/

/-- A square matrix of codes, row by row. -/
abbrev Mat := List (List Nat)

def Mat.at (m : Mat) (i j : Nat) : Nat := (m.getD i []).getD j 0

/-- A matrix from its elements, with the flags that they raised. -/
def buildMat (n : Nat) (g : Nat → Nat → Nat × Flags) : Mat × Flags :=
  let rows := (List.range n).map fun i => (List.range n).map (g i)
  (rows.map fun r => r.map Prod.fst, orFlags (rows.map fun r => orFlags (r.map Prod.snd)))

/-- The orders of FACT and TRSL: 32, 16 and 8. -/
def orderOfSize (size : Nat) : Nat := if size = 0 then 32 else if size = 1 then 16 else 8

/-- Matrices in a tile (R339). -/
def matCount (n : Nat) : Nat := (32 / n) * (32 / n)

/-- Tile row and column of element (i, j) of matrix m (R339). -/
def matPlace (n m i j : Nat) : Nat × Nat := (n * (m / (32 / n)) + i, n * (m % (32 / n)) + j)

def Window.code (x : Window) (d64 : Bool) (q i j : Nat) : Nat := if d64 then (x.elem64 q i j).toNat else (x.elem q i j).toNat

def Window.matrix (x : Window) (d64 : Bool) (q n m : Nat) : Mat :=
  (List.range n).map fun i => (List.range n).map fun j =>
    let p := matPlace n m i j
    x.code d64 q p.1 p.2

/-- The tile elements of a matrix. -/
def matWrites (d64 : Bool) (q n m : Nat) (a : Mat) : List (Nat × Word) :=
  (List.range n).flatMap fun i => (List.range n).flatMap fun j =>
    let p := matPlace n m i j
    let v := a.at i j
    if d64 then [(tileKey q p.1 p.2, BitVec.ofNat 32 v), (tileKey (q + 1) p.1 p.2, BitVec.ofNat 32 (v / 2 ^ 32))]
    else [(tileKey q p.1 p.2, BitVec.ofNat 32 v)]

/-! ## Factorisation (R340, R341) -/

/-- The pivot candidates of step j. -/
def candidates (kind n j : Nat) (a : Mat) : List (Nat × Nat) :=
  if kind = 2 then ((List.range n).filter fun i => decide (j ≤ i)).map fun i => (i, a.at i j) else [(j, a.at j j)]

/-- The breakdown of step j, 0 for none (R341). -/
def breakdown (f : FpFmt) (kind : Nat) (cs : List (Nat × Nat)) : Nat :=
  if cs.any fun c => (f.decode c.2).isNan || (f.decode c.2).isInf then 3
  else if kind = 0 then if cs.any fun c => (f.decode c.2).isZero || (f.decode c.2).neg? then 1 else 0
  else if cs.all fun c => (f.decode c.2).isZero then 2
  else 0

/-- The candidate of largest magnitude, the lowest row of several. -/
def pivotRow (f : FpFmt) (j : Nat) (cs : List (Nat × Nat)) : Nat :=
  (cs.foldl (fun b c =>
    match b with
    | none => some c
    | some x => if cmpNum (f.decode c.2).abs (f.decode x.2).abs = some .gt then some c else b) none).elim j Prod.fst

/-- Step j of a factorisation that does not break down: the matrix, its pivot and the flags. -/
def factStep (f : FpFmt) (kind n j : Nat) (a : Mat) : Mat × Nat × Flags :=
  match kind with
  | 0 =>
    let d := sqrtCode f (a.at j j)
    let x := buildMat n fun i k =>
      if i = j ∧ k = j then (d.1, 0#6) else if k = j ∧ j < i then divCode f (a.at i j) d.1 else (a.at i k, 0#6)
    let y := buildMat n fun i k =>
      if j < k ∧ k ≤ i then fmaCode f true (x.1.at i j) (x.1.at k j) (x.1.at i k) else (x.1.at i k, 0#6)
    (y.1, j, d.2 ||| x.2 ||| y.2)
  | 1 =>
    let x := buildMat n fun i k => if k = j ∧ j < i then divCode f (a.at i j) (a.at j j) else (a.at i k, 0#6)
    let y := buildMat n fun i k =>
      if j < k ∧ k ≤ i then fmaCode f true (x.1.at i j) (a.at k j) (x.1.at i k) else (x.1.at i k, 0#6)
    (y.1, j, x.2 ||| y.2)
  | _ =>
    let p := pivotRow f j (candidates 2 n j a)
    let sw (i : Nat) : Nat := if i = j then p else if i = p then j else i
    let b := (buildMat n fun i k => (a.at (sw i) k, 0#6)).1
    let x := buildMat n fun i k => if k = j ∧ j < i then divCode f (b.at i j) (b.at j j) else (b.at i k, 0#6)
    let y := buildMat n fun i k =>
      if j < k ∧ j < i then fmaCode f true (x.1.at i j) (x.1.at j k) (x.1.at i k) else (x.1.at i k, 0#6)
    (y.1, p, x.2 ||| y.2)

/-- What factorising one matrix gives: the matrix, its pivots, code and step of a breakdown, and the flags. -/
structure Fact where
  a : Mat
  piv : List Nat
  code : Nat
  stop : Nat
  flags : Flags
  deriving DecidableEq, Repr

/-- The steps from j on. -/
def factFrom (f : FpFmt) (kind n : Nat) : Nat → Nat → Mat → List Nat → Flags → Fact
  | 0, _, a, piv, fl =>
    if kind = 2 then ⟨a, piv, 0, 0, fl⟩
    else ⟨(buildMat n fun i k => (if i < k then 0 else a.at i k, 0#6)).1, piv, 0, 0, fl⟩
  | fuel + 1, j, a, piv, fl =>
    let c := breakdown f kind (candidates kind n j a)
    if c ≠ 0 then ⟨a, piv ++ (List.range (n - j)).map fun i => j + i, c, j, fl⟩
    else
      let r := factStep f kind n j a
      factFrom f kind n fuel (j + 1) r.1 (piv ++ [r.2.1]) (fl ||| r.2.2)

def factorise (f : FpFmt) (kind n : Nat) (a : Mat) : Fact := factFrom f kind n n 0 a [] 0#6

/-- FUNC of a FACT (R336): kind, size, .d64 and .ld. -/
structure FactFunc where
  kind : Nat
  n : Nat
  d64 : Bool
  ld : Bool
  deriving DecidableEq, Repr

def factFunc (f : BitVec 16) : FactFunc :=
  { kind := (f.extractLsb' 0 2).toNat, n := orderOfSize (f.extractLsb' 2 2).toNat, d64 := bit16 f 4, ld := bit16 f 5 }

/-- Tile elements from an image (R344). -/
def imageWrites (d64 : Bool) (q : Nat) (bs : List Byte) : List (Nat × Word) :=
  (List.range 32).flatMap fun i => (List.range 32).flatMap fun j =>
    if d64 then
      let v := leNat ((bs.drop (256 * i + 8 * j)).take 8)
      [(tileKey q i j, BitVec.ofNat 32 v), (tileKey (q + 1) i j, BitVec.ofNat 32 (v / 2 ^ 32))]
    else [(tileKey q i j, BitVec.ofNat 32 (leNat ((bs.drop (128 * i + 4 * j)).take 4)))]

/-- FACT's effect on a window (R340 to R342), and its flags. -/
def EngWord.factResult (e : EngWord) (x : Window) (f : XFields) : Window × Flags :=
  let z := factFunc f.func
  let q := f.q.toNat
  let fmt := if z.d64 then fp64 else fp32
  let x := if z.ld then x.putElems (imageWrites z.d64 q e.a) else x
  let rs := (List.range (matCount z.n)).map fun m => factorise fmt z.kind z.n (x.matrix z.d64 q z.n m)
  let y := x.putElems ((rs.zipIdx).flatMap fun r => matWrites z.d64 q z.n r.2 r.1.a)
  let piv := (List.range 128).map fun b =>
    (128 * q + b, if b < z.n * matCount z.n then BitVec.ofNat 8 ((((rs[b / z.n]?).map fun r => r.piv).getD []).getD (b % z.n) 0) else 0#8)
  let brk := (List.range 16).map fun m =>
    (16 * q + m, match rs[m]? with | some r => BitVec.ofNat 8 (r.code * 32 + r.stop) | none => 0#8)
  ({ y with piv := tsetMany 0#8 y.piv piv, brk := tsetMany 0#8 y.brk brk, count := tset 0 y.count q (matCount z.n) },
   orFlags (rs.map fun r => r.flags))

/-! ## Triangular solves (R343) -/

/-- s after fma(-q, b, s) over a list of places, in order. -/
def solveSum (f : FpFmt) (q b : Nat → Nat) : List Nat → Nat → Nat × Flags
  | [], s => (s, 0#6)
  | k :: ks, s =>
    let x := fmaCode f true (q k) (b k) s
    let r := solveSum f q b ks x.1
    (r.1, x.2 ||| r.2)

/-- A list with place i changed. -/
def putAt (xs : List Nat) (i v : Nat) : List Nat := xs.set i v

/-- One column of a triangular form over the rows given in order: row i reads the places of ks i. -/
def solveRows (f : FpFmt) (unit : Bool) (q : Nat → Nat → Nat) (ks : Nat → List Nat) : List Nat → List Nat → List Nat × Flags
  | [], b => (b, 0#6)
  | i :: is, b =>
    let x := solveSum f (q i) (fun k => b.getD k 0) (ks i) (b.getD i 0)
    let y := if unit then (x.1, 0#6) else divCode f x.1 (q i i)
    let r := solveRows f unit q ks is (putAt b i y.1)
    (r.1, x.2 ||| y.2 ||| r.2)

/-- The exchanges of .perm, for j ascending (log 33). -/
def permRows (piv : Nat → Nat) : List Nat → List Nat → List Nat
  | [], b => b
  | j :: js, b =>
    let p := piv j
    permRows piv js (if j < p ∧ p < b.length then putAt (putAt b j (b.getD p 0)) p (b.getD j 0) else b)

/-- One column of a TRSL. -/
def solveColumn (f : FpFmt) (form n : Nat) (q : Mat) (piv : Nat → Nat) (b : List Nat) : List Nat × Flags :=
  let below (i : Nat) : List Nat := List.range i
  let above (i : Nat) : List Nat := (List.range n).filter fun k => decide (i < k)
  let down := List.range n
  let up := (List.range n).reverse
  match form with
  | 0 => solveRows f false (fun i k => q.at i k) below down b
  | 1 => solveRows f true (fun i k => q.at i k) below down b
  | 2 => solveRows f false (fun i k => q.at k i) above up b
  | 3 => solveRows f true (fun i k => q.at k i) above up b
  | 4 => solveRows f false (fun i k => q.at i k) above up b
  | 5 => solveRows f false (fun i k => q.at i k) (fun _ => []) down b
  | _ => (permRows piv down b, 0#6)

/-- TRSL's effect on a window, and its flags. -/
def EngWord.trslResult (x : Window) (f : XFields) : Window × Flags :=
  let d64 := bit16 f.func 9
  let q := f.q.toNat
  let t := (f.func.extractLsb' 0 4).toNat
  let n := orderOfSize (f.func.extractLsb' 7 2).toNat
  let form := (f.func.extractLsb' 4 3).toNat
  let fmt := if d64 then fp64 else fp32
  let rs := (List.range (matCount n)).map fun m =>
    let a := x.matrix d64 q n m
    let b := x.matrix d64 t n m
    let cols := (List.range n).map fun c =>
      solveColumn fmt form n a (fun j => (tget 0#8 x.piv (128 * q + n * m + j)).toNat) ((List.range n).map fun i => b.at i c)
    (m, (List.range n).map fun i => cols.map fun c => c.1.getD i 0, orFlags (cols.map Prod.snd))
  (x.putElems (rs.flatMap fun r => matWrites d64 t n r.1 r.2.1), orFlags (rs.map fun r => r.2.2))

/-! ## The words -/

/-- FACT. -/
def execFact (k : Ctl) (f : XFields) (s : State) : Host.Outcome State Fault Refusal :=
  issue s k (.fact k f) fun s => s.collective k fun s => s.startEngine k (.fact k f) [(s.me.getSPair f.ap.toNat).toNat]

/-- TRSL. -/
def execTrsl (k : Ctl) (f : XFields) (s : State) : Host.Outcome State Fault Refusal :=
  issue s k (.trsl k f) fun s => s.collective k fun s => s.startEngine k (.trsl k f) []

/-- PIVRD's value in a lane (R342). -/
def Window.pivrd (x : Window) (q : Nat) (brk : Bool) (l : Nat) : Word :=
  if brk then
    if l < tget 0 x.count q then
      let b := (tget 0#8 x.brk (16 * q + l)).toNat
      BitVec.ofNat 32 (b / 32 + b % 32 * 256)
    else 0#32
  else BitVec.ofNat 32 (packElems 8 ((List.range 4).map fun i => (tget 0#8 x.piv (128 * q + 4 * l + i)).toNat))

/-- PIVRD (R337, R342). -/
def execPivrd (k : Ctl) (f : EFields) (s : State) : Host.Outcome State Fault Refusal :=
  issue s k (.pivrd k f) fun s =>
    let w := s.me
    let q := (f.func.extractLsb' 0 4).toNat
    if dstLanes w k = [] then s.finish k [] 0#6
    else if s.tileOpen (keyCore s.cur) (keySlot s.cur) [q] then s
    else s.defer k ((dstLanes w k).map fun l => (vKey (regNum f.d) l, w.win.pivrd q (bit16 f.func 4) l)) 0#6 false false

/-- PATCH (R346): object, count and list. -/
def execPatch (k : Ctl) (f : EFields) (s : State) : Host.Outcome State Fault Refusal :=
  issue s k (.patch k f) fun s => s.collective k fun s =>
    s.startEngine k (.patch k f) [(rdU64 s s.me f.a).toNat, (rdU s s.me f.d).toNat, (rdU64 s s.me f.b).toNat]

/-- STAMP (R345). -/
def execStamp (k : Ctl) (f : EFields) (s : State) : Host.Outcome State Fault Refusal :=
  issue s k (.stamp k f) fun s => s.collective k fun s => s.startEngine k (.stamp k f) [(rdU64 s s.me f.a).toNat]

/-- HSHIFT (R348): source, destination, stage size and number of stages. -/
def execHshift (k : Ctl) (f : XFields) (s : State) : Host.Outcome State Fault Refusal :=
  issue s k (.hshift k f) fun s => s.collective k fun s =>
    let w := s.me
    s.startEngine k (.hshift k f)
      [(w.getSPair f.ap.toNat).toNat, (w.getSPair f.bp.toNat).toNat, (w.getS f.lp.toNat).toNat, (w.getS (f.lp.toNat + 1)).toNat]

/-! ## Acceptance of the solver words -/

/-- The header of a solver object (R344). -/
structure ObjHeader where
  mode : Nat
  d64 : Bool
  size : Nat
  nst : Nat
  bad : Bool
  stab : Dword
  parb : Dword
  meas : Dword
  deriving DecidableEq, Repr

def dwordOf (bs : List Byte) (i : Nat) : Dword := BitVec.ofNat 64 (leNat ((bs.drop (8 * i)).take 8))

def objHeader (bs : List Byte) : ObjHeader :=
  let h := dwordOf bs 0
  { mode := (h.extractLsb' 0 2).toNat, d64 := h.getLsbD 2, size := (h.extractLsb' 3 2).toNat
    nst := (h.extractLsb' 16 12).toNat
    bad := h.extractLsb' 28 36 != 0#36 || h.extractLsb' 5 11 != 0#11 || h.extractLsb' 0 2 == 3#2 || h.extractLsb' 3 2 == 3#2 ||
      (bs.drop 32).any fun b => b != 0#8
    stab := dwordOf bs 1, parb := dwordOf bs 2, meas := dwordOf bs 3 }

/-- The addresses of the lines that n bytes touch. -/
def linesFrom (a : Dword) (n : Nat) : List Dword :=
  (List.range ((a.toNat % 128 + n + 127) / 128)).map fun i => (a &&& ~~~(127#64)) + BitVec.ofNat 64 (128 * i)

/-- n bytes from fetched lines. -/
def gotBytes (got : Tbl (List Byte)) (ps : List (Dword × Phys)) (a : Dword) (n : Nat) : List Byte :=
  (List.range n).map fun i => gotByte got ps (a + BitVec.ofNat 64 i)

/-- Acceptance goes on with a list of lines to fetch, once they are all there. -/
def State.whenFetched (s : State) (c : Captured) (ls : List (Nat × Dword)) (go : State) : State :=
  match s.fetchStep (keyCore s.cur) (keySlot s.cur) s.me.ctx c.got [] ls with
  | .fail kind cause addr => s.acceptTrap c kind cause addr 0#32
  | .wait => s
  | .step t => t
  | .ready => go

/-- Pages that must be reached, and stand in unstriped device memory where dev is set; else the trap. -/
def State.whenPlaced (s : State) (c : Captured) (need : BitVec 3) (dev : Bool) (vas : List Dword)
    (go : List (Dword × Phys) → State) : State :=
  match s.placesAt s.me need 1 (firstOfPages vas) with
  | .error e => s.acceptTrap c e.kind e.cause e.addr 0#32
  | .ok ps =>
    match if dev then classFail ps else none with
    | some e => s.acceptTrap c e.kind e.cause e.addr 0#32
    | none => go ps

/-- Lines by number, with their addresses. -/
def lineList (ps : List (Dword × Phys)) (vas : List Dword) : List (Nat × Dword) := vas.map fun a => (lineOf (keyIn ps a), a)

/-- Coherent lines among those of addresses. -/
def coherentLines (ps : List (Dword × Phys)) (vas : List Dword) : List Nat :=
  distinct <| vas.filterMap fun a =>
    match ps.find? fun p => p.1.toNat / 65536 == a.toNat / 65536 with
    | some p => if p.2.cls = 0 then none else some (lineOf (keyIn ps a))
    | none => none

/-- An empty accepted word. -/
def blankWord (c : Captured) (stage : Stage) : EngWord := { id := 0, slot := 0, word := c, batch := 0#32, stage }

/-- Acceptance of FACT: with .ld, its object is fetched (R337, R344, R347). -/
def State.acceptFact (s : State) (c : Captured) (f : XFields) : State :=
  let z := factFunc f.func
  let obj : Dword := BitVec.ofNat 64 (c.vals.getD 0 0)
  if !z.ld then if s.queueRoom (keyCore s.cur) then s.accept c (blankWord c .queued) [] else s
  else if obj.toNat % 128 ≠ 0 then s.acceptTrap c 6 0 obj 0#32
  else
    let n := if z.d64 then 8192 else 4096
    let vas := linesFrom obj (128 + n)
    s.whenPlaced c needR true vas fun ps =>
      s.whenFetched c ((lineList ps vas).take 1)
        (let h := objHeader (gotBytes c.got ps obj 128)
         if h.bad ∨ orderOfSize h.size ≠ z.n ∨ h.d64 ≠ z.d64 then s.acceptTrap c 9 3 obj 0#32
         else
           s.whenFetched c (lineList ps vas)
             (if !s.queueRoom (keyCore s.cur) then s
              else
                s.accept c { blankWord c .queued with a := gotBytes c.got ps (obj + 128#64) n, held := (lineList ps vas).map Prod.fst } []))

/-- Acceptance of TRSL. -/
def State.acceptTrsl (s : State) (c : Captured) : State :=
  if s.queueRoom (keyCore s.cur) then s.accept c (blankWord c .queued) [] else s

/-- The header of a STAMP's or PATCH's object, once it is fetched, with its place: its class is judged after every translation
(R337). -/
def State.whenHeader (s : State) (c : Captured) (obj : Dword) (go : ObjHeader → List (Dword × Phys) → State) : State :=
  s.whenPlaced c needR false [obj] fun ps => s.whenFetched c (lineList ps [obj]) (go (objHeader (gotBytes c.got ps obj 128)) ps)

/-- Acceptance goes on where pages stand in unstriped device memory; this check comes after every translation (R337). -/
def State.whenClass (s : State) (c : Captured) (ps : List (Dword × Phys)) (go : State) : State :=
  match classFail ps with
  | some e => s.acceptTrap c e.kind e.cause e.addr 0#32
  | none => go

/-- Acceptance goes on with a header of the word's mode (R344). -/
def State.whenMode (s : State) (c : Captured) (obj : Dword) (mode : Nat) (h : ObjHeader) (go : State) : State :=
  if h.bad ∨ h.mode ≠ mode then s.acceptTrap c 9 3 obj 0#32 else go

/-- Offset of element (i, j) in an image (R344). -/
def imageOff (d64 : Bool) (i j : Nat) : Nat := if d64 then 256 * i + 8 * j else 128 * i + 4 * j

/-- A stamp entry's fields (R345): reserved bits set, row, column, coefficient, parameter and measurement. -/
structure StampEnt where
  bad : Bool
  row : Nat
  col : Nat
  coef : Nat
  pidx : Nat
  midx : Nat
  deriving DecidableEq, Repr

def stampEnt (bs : List Byte) : StampEnt :=
  let lo := dwordOf bs 0
  let hi := dwordOf bs 1
  { bad := hi.extractLsb' 13 51 != 0#51 || hi.extractLsb' 5 3 != 0#3
    row := (hi.extractLsb' 0 5).toNat, col := (hi.extractLsb' 8 5).toNat, coef := (lo.extractLsb' 0 32).toNat
    pidx := (lo.extractLsb' 32 16).toNat, midx := (lo.extractLsb' 48 16).toNat }

/-- Addresses of the parameters and measurements that entries name. -/
def stampVas (h : ObjHeader) (es : List StampEnt) : List Dword :=
  let n := if h.d64 then 8 else 4
  es.flatMap fun e =>
    (if e.pidx = 0xFFFF then [] else [h.parb + BitVec.ofNat 64 (n * e.pidx)]) ++
    (if e.midx = 0xFFFF then [] else [h.meas + BitVec.ofNat 64 (n * e.midx)])

/-- Acceptance of STAMP (R337, R345): alignment, translation, class and layout in that order, over all that the object
names. A parameter or measurement that reads as poisoned raises the memory-error trap here, where the word can still trap
(R398, R407, log 113). -/
def State.acceptStamp (s : State) (c : Captured) : State :=
  let obj : Dword := BitVec.ofNat 64 (c.vals.getD 0 0)
  if obj.toNat % 128 ≠ 0 then s.acceptTrap c 6 0 obj 0#32
  else
    s.whenHeader c obj fun h hp =>
      let al := if h.d64 then 8 else 4
      let image := linesFrom (obj + 128#64) (if h.d64 then 8192 else 4096)
      let table := if h.nst = 0 then [] else linesFrom h.stab (16 * h.nst)
      if h.stab.toNat % 16 ≠ 0 then s.acceptTrap c 6 0 h.stab 0#32
      else if h.parb.toNat % al ≠ 0 then s.acceptTrap c 6 0 h.parb 0#32
      else if h.meas.toNat % al ≠ 0 then s.acceptTrap c 6 0 h.meas 0#32
      else
        s.whenPlaced c needW false image fun ps =>
          s.whenPlaced c needR false table fun ts =>
            s.whenFetched c (lineList ts table)
              (let es := (List.range h.nst).map fun e => stampEnt (gotBytes c.got ts (h.stab + BitVec.ofNat 64 (16 * e)) 16)
               s.whenPlaced c needR false (stampVas h es) fun vs =>
                 s.whenClass c (hp ++ ps)
                   (s.whenMode c obj 1 h
                     (match es.zipIdx.find? fun e => e.1.bad with
                      | some e => s.acceptTrap c 9 4 obj (BitVec.ofNat 32 e.2)
                      | none =>
                       match (stampVas h es).find? fun a => s.badBytes s.me.ctx (.mem (keyIn vs a)) al with
                       | some a => s.acceptTrap c 14 1 a 0#32
                       | none =>
                        let key (base : Dword) (i : Nat) : Option Nat :=
                          if i = 0xFFFF then none else some (keyIn vs (base + BitVec.ofNat 64 (al * i)))
                        s.accept c
                          { blankWord c .landing with
                            ents := es.map fun e =>
                              ⟨imageOff h.d64 e.row e.col, e.coef, false, key h.parb e.pidx, key h.meas e.midx⟩
                            img := (lineList ps image).map Prod.fst, todo := List.range image.length
                            claims := coherentLines ps image
                            seeds := if h.d64 then [1#32] else [] } [])))

/-- A patch entry (R346): reserved bits set, and what it does. -/
def patchEnt (d64 : Bool) (bs : List Byte) : Bool × FeedEnt :=
  let lo := dwordOf bs 0
  let hi := dwordOf bs 1
  (hi.extractLsb' 17 47 != 0#47 || hi.extractLsb' 13 3 != 0#3 || hi.extractLsb' 5 3 != 0#3 ||
     (!d64 && lo.extractLsb' 32 32 != 0#32),
   ⟨imageOff d64 (hi.extractLsb' 0 5).toNat (hi.extractLsb' 8 5).toNat, lo.toNat, hi.getLsbD 16, none, none⟩)

/-- Acceptance of PATCH (R337, R346, R350). -/
def State.acceptPatch (s : State) (c : Captured) : State :=
  let obj : Dword := BitVec.ofNat 64 (c.vals.getD 0 0)
  let count := c.vals.getD 1 0
  let list : Dword := BitVec.ofNat 64 (c.vals.getD 2 0)
  if 4096 < count then (s.leaveAcceptance (keyCore s.cur) (keySlot s.cur)).takeTrap (illegal s.me c.ctl c.instr)
  else if count = 0 then (s.leaveAcceptance (keyCore s.cur) (keySlot s.cur)).modMe fun w => w.leaveEngine c.ctl.sw
  else if obj.toNat % 128 ≠ 0 then s.acceptTrap c 6 0 obj 0#32
  else if list.toNat % 16 ≠ 0 then s.acceptTrap c 6 0 list 0#32
  else
    let table := linesFrom list (16 * count)
    s.whenHeader c obj fun h hp =>
      let image := linesFrom (obj + 128#64) (if h.d64 then 8192 else 4096)
      s.whenPlaced c needW false image fun ps =>
        s.whenPlaced c needR false table fun ts =>
          s.whenClass c (hp ++ ps)
            (s.whenMode c obj 2 h
              (s.whenFetched c (lineList ts table)
                (let es := (List.range count).map fun e =>
                   patchEnt h.d64 (gotBytes c.got ts (list + BitVec.ofNat 64 (16 * e)) 16)
                 match es.zipIdx.find? fun e => e.1.1 with
                 | some e => s.acceptTrap c 9 4 obj (BitVec.ofNat 32 e.2)
                 | none =>
                   let ents := es.map Prod.snd
                   let todo := (List.range image.length).filter fun i => ents.any fun e => e.off / 128 == i
                   s.accept c
                     { blankWord c .landing with
                       ents, img := (lineList ps image).map Prod.fst, todo
                       claims := coherentLines ps (todo.filterMap fun i => image[i]?)
                       seeds := if h.d64 then [1#32] else [] } [])))

/-- The moves of a horizon shift (R348). -/
def shiftMoves (src dst : Dword) (size n : Nat) : List Move :=
  (List.range n).flatMap fun k =>
    let from' := if k + 1 < n then k + 1 else k
    movesOf 0 (some k) (.va (src + BitVec.ofNat 64 (from' * size))) (.va (dst + BitVec.ofNat 64 (k * size))) size

/-- Acceptance of HSHIFT (R348); a source that reads as poisoned raises the memory-error trap (R398, R407, log 113). -/
def State.acceptHshift (s : State) (c : Captured) : State :=
  let src : Dword := BitVec.ofNat 64 (c.vals.getD 0 0)
  let dst : Dword := BitVec.ofNat 64 (c.vals.getD 1 0)
  let size := c.vals.getD 2 0
  let n := c.vals.getD 3 0
  if src.toNat % 16 ≠ 0 ∨ size % 16 ≠ 0 ∨ size < 16 ∨ 65536 < size ∨ n = 0 ∨ 4096 < n then s.acceptTrap c 6 0 src 0#32
  else if dst.toNat % 16 ≠ 0 then s.acceptTrap c 6 0 dst 0#32
  else
    match s.probeMoves s.me (shiftMoves src dst size n) with
    | .error e => s.acceptTrap c e.kind e.cause e.addr 0#32
    | .ok (ps, ls) =>
      match ((shiftMoves src dst size n).zip ps).find? fun x => s.badBytes s.me.ctx x.2.src x.2.n with
      | some x => s.acceptTrap c 14 1 (BitVec.ofNat 64 x.1.src.num) 0#32
      | none => s.accept c { blankWord c .landing with pieces := ps, claims := distinct ls } []

/-- MATRIX_ACCEPT (R285, R337): one step of the acceptance of the word that a warp waits in. -/
def execMatrixAccept (core slot : Nat) (s : State) : Host.Outcome State Fault Refusal :=
  let t : State := { s with cur := warpKey core slot }
  match t.me.req with
  | none => .next s
  | some c =>
    if t.me.status ≠ .accepting ∨ t.me.frozen.isSome then .next s
    else
      .next (match c.instr with
        | .mma _ _ => t.acceptMma c false false
        | .mmas _ _ => t.acceptMma c true false
        | .mmasp _ _ => t.acceptMma c true true
        | .acvt _ f => t.acceptAcvt c f
        | .fact _ f => t.acceptFact c f
        | .trsl _ _ => t.acceptTrsl c
        | .stamp _ _ => t.acceptStamp c
        | .patch _ _ => t.acceptPatch c
        | .hshift _ _ => t.acceptHshift c
        | _ => s)

/-! ## The engine -/

def State.modEng (s : State) (core id : Nat) (g : EngWord → EngWord) : State :=
  s.modCore core fun c => { c with eng := c.eng.map fun e => if e.id = id then g e else e }

/-- A word is complete: it leaves the engine, with its claims. -/
def State.dropEng (s : State) (core : Nat) (e : EngWord) : State :=
  (s.modCore core fun c => { c with eng := c.eng.filter fun x => x.id != e.id }).releaseClaims e.id e.claims

/-- One pin less on each entry that a word names (R286). -/
def unpinTiles (es : List TileEntry) (pins : List (Nat × Nat)) : List TileEntry :=
  es.map fun y => { y with pins := y.pins - (pins.filter fun p => p == (y.key, y.swz)).length }

/-- The word that holds the engine is done with it. -/
def EngWord.leave (e : EngWord) : EngWord := if e.stage = .running then { e with stage := .writing } else e

/-- ENGINE_WORD_START (R287): the engine time of the word before is over, and the engine takes the next accepted word and
consumes its tiles. -/
def execEngineWordStart (core : Nat) (s : State) : Host.Outcome State Fault Refusal :=
  match (s.core core).eng.find? fun e => e.stage == .queued with
  | none => .next s
  | some e =>
    let t := (s.modTfu core fun es => unpinTiles es e.pins).modCore core fun c => { c with eng := c.eng.map EngWord.leave }
    .next (t.modEng core e.id fun x => { x with stage := .running, pins := [], held := [] })

/-- The warp of an engine word takes its tile results and flags. -/
def State.putWindow (s : State) (core slot : Nat) (x : Window) (fl : Flags) : State :=
  s.modWarp (warpKey core slot) fun w => (w.modWin fun _ => x).setFlags fl

/-- ACCUMULATOR_WRITE (R287): the first word that the engine has run writes its result; an ACVT's bytes go on to memory.
CTXCFG.DNF is read here, not when the ACVT issued: R92 does not say when (log 85). -/
def execAccumulatorWrite (core : Nat) (s : State) : Host.Outcome State Fault Refusal :=
  match (s.core core).eng.find? fun e => e.stage == .running || e.stage == .writing with
  | none => .next s
  | some e =>
    let w := s.warp (warpKey core e.slot)
    let x := w.win
    let mma (f : XFields) (sparse : Bool) : State :=
      let r := e.mmaResult x f sparse
      (s.putWindow core e.slot (x.putElems r.1) r.2).dropEng core e
    .next (match e.word.instr with
      | .mma _ f => mma f false
      | .mmas _ f => mma f false
      | .mmasp _ f => mma f true
      | .fact _ f => let r := e.factResult x f; (s.putWindow core e.slot r.1 r.2).dropEng core e
      | .trsl _ f => let r := EngWord.trslResult x f; (s.putWindow core e.slot r.1 r.2).dropEng core e
      | .acvt _ f =>
        let r := e.acvtResult x f (ctxDnf (s.ctx w.ctx))
        ((s.putWindow core e.slot x r.2).modEng core e.id fun y =>
          { y with stage := .landing, writes := dealBytes y.writes r.1 })
      | _ => s.dropEng core e)

/-! ## Memory writes of engine words (R296, R297, R345 to R348) -/

/-- How a write of an engine word goes. -/
inductive Landed where
  | wait
  /-- its line's claim reaches the home first -/
  | claimed (s : State)
  | written (s : State)

/-- Writes within one line for an engine word, each at an offset from a place (R220, R222, R347). -/
def State.engineStore (s : State) (c core : Nat) (e : EngWord) (x : Loc) (ws : List (Nat × List Byte)) : Landed :=
  match x with
  | .mem key =>
    let line := lineOf key
    if e.late.contains line then
      if s.mayClaim core e.id line e.unread then
        .claimed ((s.claim core e.id line).modEng core e.id fun y => { y with late := y.late.filter fun l => l != line })
      else .wait
    else if s.writeWaits core e.id line then .wait
    else .written (ws.foldl (fun t w => t.engineWrite c core 0 (key + w.1) w.2) s)
  | .scr t o => .written (ws.foldl (fun u w => u.putScratch t (o + w.1) w.2) s)

/-- What comes from poisoned words leaves the n bytes at its destination poisoned (log 113). -/
def State.spoil (s : State) (c : Nat) (x : Loc) (n : Nat) : State :=
  match x with
  | .mem key =>
    if s.refused c (lineOf key) then s else s.modLine (lineOf key) fun y => { y with poison := y.poison ||| spanOf key n }
  | .scr t o => s.modTeam t fun y => { y with poison := tsetMany false y.poison ((List.range n).map fun i => ((o + i) / 4, true)) }

/-- A claim is released once no part of the word is left to write its line. -/
def State.doneWith (s : State) (e : EngWord) (x : Loc) (rest : List Loc) : State :=
  match x.line? with
  | some l => if rest.any fun y => y.line? == some l then s else s.releaseClaims e.id [l]
  | none => s

/-- The word is complete once nothing of it is left to land. -/
def State.settleEng (s : State) (core id : Nat) : State :=
  match (s.core core).eng.find? fun e => e.id == id with
  | none => s
  | some e => if e.writes = [] ∧ e.todo = [] ∧ e.pieces = [] then s.dropEng core e else s

/-- One element of a STAMP's image: entries in ascending order, one rounding for each (R345). -/
def stampElem (s : State) (f : FpFmt) (n : Nat) (ents : List FeedEnt) : Nat × Flags :=
  ents.foldl (fun a e =>
    let val (k : Option Nat) : Num := match k with | some k => f.decode (s.readMem k n) | none => .fin false 1 0
    let p := mulNum (fp32.decode e.val) (val e.p)
    let q := mulNum p.1 (val e.m)
    let y := addNum false (f.decode a.1) q.1
    let z := roundTo f y.1 0 false 0
    (z.1, a.2 ||| p.2 ||| q.2 ||| y.2 ||| z.2)) (0, 0#6)

/-- One element of an image under the entries of a PATCH that name it, in order (R346). -/
def patchElem (f : FpFmt) (old : Nat) (ents : List FeedEnt) : Nat × Flags :=
  ents.foldl (fun a e =>
    if e.add then
      let y := addNum false (f.decode a.1) (f.decode e.val)
      let z := roundTo f y.1 0 false 0
      (z.1, a.2 ||| y.2 ||| z.2)
    else (e.val, a.2)) (old, 0#6)

/-- Bytes of an element of the image that a STAMP or PATCH writes. -/
def EngWord.elemSize (e : EngWord) : Nat := if e.seeds != [] then 8 else 4

/-- Entries that name element j of image line i. -/
def EngWord.entsAt (e : EngWord) (i j : Nat) : List FeedEnt := e.ents.filter fun x => x.off == 128 * i + e.elemSize * j

/-- What a STAMP or PATCH writes into image line i, at offsets in the line, with the flags: a STAMP the whole line, a PATCH the
elements that its list names (R345, R346). -/
def State.imageLine (s : State) (e : EngWord) (i line : Nat) : List (Nat × List Byte) × Flags :=
  let n := e.elemSize
  let f := if n = 8 then fp64 else fp32
  let stamp := match e.word.instr with | .stamp .. => true | _ => false
  let js := (List.range (128 / n)).filter fun j => stamp || e.entsAt i j != []
  let vs := js.map fun j =>
    if stamp then stampElem s f n (e.entsAt i j) else patchElem f (s.readMem (line * 128 + n * j) n) (e.entsAt i j)
  (if js.length = 128 / n then [(0, vs.flatMap fun v => natLe n v.1)] else (js.zip vs).map fun x => (n * x.1, natLe n x.2.1),
    orFlags (vs.map Prod.snd))

/-- Offsets of the elements of image line i that a STAMP computes from poisoned values. -/
def State.badElems (s : State) (c : Nat) (e : EngWord) (i : Nat) : List Nat :=
  ((List.range (128 / e.elemSize)).filter fun j =>
    (e.entsAt i j).any fun x => (x.p.toList ++ x.m.toList).any fun k => s.badBytes c (.mem k) e.elemSize).map fun j => e.elemSize * j

/-- One part of an engine word's memory writes lands. -/
def State.landEng (s : State) (core : Nat) (e : EngWord) : State :=
  let c := (s.warp (warpKey core e.slot)).ctx
  if e.writes ≠ [] then
    let i := s.free 19 % e.writes.length
    match e.writes[i]? with
    | none => s
    | some (x, bs) =>
      match s.engineStore c core e x [(0, bs)] with
      | .wait => s
      | .claimed t => t
      | .written t =>
        let rest := e.writes.eraseIdx i
        ((t.doneWith e x (rest.map Prod.fst)).modEng core e.id fun y => { y with writes := rest }).settleEng core e.id
  else if e.todo ≠ [] then
    match e.todo[s.free 19 % e.todo.length]? with
    | none => s
    | some i =>
      let line := e.img.getD i 0
      let r := s.imageLine e i line
      let fs := e.feedLines i
      if fs.any (s.readWaits core e.id) then s
      else match s.engineStore c core e (.mem (line * 128)) r.1 with
      | .wait => s
      | .claimed t => t
      | .written t =>
        let t := (s.badElems c e i).foldl (fun u o => u.spoil c (.mem (line * 128 + o)) e.elemSize) t
        let t := (fs.foldl (fun u l => u.engineRead c core 0 (l * 128) 128) t).modWarp (warpKey core e.slot) fun w => w.setFlags r.2
        ((t.releaseClaims e.id [line]).modEng core e.id fun y => { y with todo := y.todo.filter fun x => x != i }).settleEng core e.id
  else
    let row := (e.pieces.head?.bind fun p => p.row).getD 0
    let first := e.pieces.takeWhile fun p => p.row == some row
    match first[s.free 19 % first.length]? with
    | none => s.settleEng core e.id
    | some p =>
      if s.sourceWaits core e.id p.src then s
      else match s.engineStore c core e p.dst [(0, s.bytesOf p.src p.n)] with
      | .wait => s
      | .claimed t => t
      | .written t =>
        let rest := e.pieces.filter fun q => q != p
        let t := if s.badBytes c p.src p.n then t.spoil c p.dst p.n else t
        let t := match p.src with
          | .mem key => t.engineRead c core 0 key p.n
          | .scr .. => t
        ((t.doneWith e p.dst (rest.map fun q => q.dst)).modEng core e.id fun y => { y with pieces := rest }).settleEng core e.id

/-- ENGINE_WRITES_LANDED (R297): memory writes of an accepted word land, and the last completes it. -/
def execEngineWritesLanded (core id : Nat) (s : State) : Host.Outcome State Fault Refusal :=
  match (s.core core).eng.find? fun e => e.id == id && e.stage == .landing with
  | none => .next s
  | some e => .next (s.landEng core e)

end Sys2Proof.Machine
end

