-- ==== Sys2Proof/Machine/Sched.lean ====
section
/-! DEFINITION. Issue schedulers (R52 to R54), clause headers and their wait conditions (R46 to R51, R66, R279), the waking
of sleeping warps (R243, R256, R298, R361, R362, R393), fetching, and the model's own order of turns (log 1). -/

namespace Sys2Proof.Machine

/-! ## Headers (R46 to R51) -/

/-- The fold that a header waits on. -/
def headerFold (h : Header) : Option Nat :=
  if h.fh = 63#6 then if h.f63 then some 63 else none else some h.fh.toNat

/-- The wait condition of a header for a warp, all fields at once (R49). -/
def State.waitOk (s : State) (k : Nat) (h : Header) : Bool :=
  let w := s.warp k
  (h.lw == 31#5 || decide (loadCount w ≤ h.lw.toNat)) && (h.sw == 31#5 || decide (storeCount w ≤ h.sw.toNat)) &&
    (h.mb == 15#4 || decide ((s.openBatches (keyCore k) (keySlot k) w.win.bseq).length ≤ h.mb.toNat)) &&
    match headerFold h with
    | some n => (s.fold w.teamKey n).met
    | none => true

/-- A header that names a free fold (R49). -/
def State.freeFold (s : State) (k : Nat) (h : Header) : Bool :=
  match headerFold h with
  | some n => (s.fold (s.warp k).teamKey n).state == 0#2
  | none => false

/-- A fetch trap of a warp at an address: every lane of EXEC is reported (log 21). -/
def fetchTrap (w : Warp) (e : Nat × Nat) (va : Dword) : Trp := { kind := e.1, cause := e.2, mask := w.exec, addr := va }

/-- The code word of a warp at an address, or the trap of fetching it. -/
def State.fetchAt (s : State) (k : Nat) (va : Dword) : Except Trp Dword :=
  let t : State := { s with cur := k }
  if va.toNat % 8 ≠ 0 then .error (fetchTrap t.me (6, 0) va)
  else match t.codeFetch t.me va with
    | .ok x => .ok x
    | .error e => .error (fetchTrap t.me e va)

/-- The header of a warp at an address with its checks (R51). -/
def State.headerAt (s : State) (k : Nat) (va : Dword) : Except Trp Header :=
  let w := s.warp k
  match s.fetchAt k va with
  | .error t => .error t
  | .ok x =>
    if !isHeader x then .error { kind := 2, mask := w.exec }
    else if !headerFieldsOk x then .error { kind := 1, mask := w.exec, info := x.setWidth 32 }
    else if s.freeFold k (headerOf x) then .error { kind := 2, mask := w.exec }
    else .ok (headerOf x)

/-- Does a clause of n words at an address hold a window word (R279)? -/
def State.hasWindowWord (s : State) (k : Nat) (va : Dword) (n : Nat) : Bool :=
  (List.range n).any fun i =>
    match s.fetchAt k (va + BitVec.ofNat 64 (8 * i)) with
    | .ok x => match decode x with
      | .ok y => windowWord y
      | .error _ => false
    | .error _ => false

/-! ## Selection (R52) -/

/-- What a warp would do if its scheduler selected it. -/
inductive Ready where
  | no
  /-- its next clause, with whether it takes a window first -/
  | clause (h : Header) (window : Bool)
  /-- it goes on inside its clause, with whether it takes a window first -/
  | resume (window : Bool)
  /-- its header, or the re-evaluation of its wait condition, traps -/
  | trap (t : Trp)
  deriving DecidableEq, Repr

/-- May a warp take part in issue at all: present, not frozen, not parked or asleep, not stopped (R52, R384, R391)? -/
def State.mayRun (s : State) (k : Nat) : Bool :=
  let w := s.warp k
  w.present && w.frozen.isNone && !w.running && w.status == .ready &&
    (decide (0 < w.left) || match (s.team w.teamKey).stop with
      | .boundary => false
      | .kill => false
      | _ => true)

/-- A warp without a window whose next n words, from va on, hold a window word must be granted one first (R279). -/
def State.needsWindow (s : State) (k : Nat) (va : Dword) (n : Nat) : Bool := (s.warp k).window.isNone && s.hasWindowWord k va n

/-- A header's wait condition holds, the grant of a window being part of it (R49, R279). -/
def State.mayGo (s : State) (k : Nat) (h : Header) (need : Bool) : Bool :=
  s.waitOk k h && (!need || s.windowSlots (keyCore k) (fun x => x == 0) != [])

/-- The readiness of a warp for issue: its wait condition is evaluated at a header, and again where it resumes inside a clause
(R66). -/
def State.ready (s : State) (k : Nat) : Ready :=
  let w := s.warp k
  if !s.mayRun k then .no
  else if 0 < w.left then
    if !w.rewait then .resume false
    else
      match s.headerAt k w.hdr with
      | .error t => .trap t
      | .ok h =>
        let need := s.needsWindow k w.pc w.left
        if s.mayGo k h need then .resume need else .no
  else
    match s.headerAt k w.pc with
    | .error t => .trap t
    | .ok h =>
      let need := s.needsWindow k (w.pc + 8#64) (h.count.toNat + 1)
      if s.mayGo k h need then .clause h need else .no

/-- The warp that scheduler sched of a core is running. -/
def State.runner (s : State) (core sched : Nat) : Option Nat :=
  match if sched = 0 then (s.core core).run0 else (s.core core).run1 with
  | some slot => if (s.warp (warpKey core slot)).running then some (warpKey core slot) else none
  | none => none

/-- Warp slots of a scheduler (R52). -/
def schedSlots (sched : Nat) : List Nat := (List.range 24).map fun i => 2 * i + sched

/-- No other eligible warp of the scheduler has waited longer; one whose words are still being fetched may be passed by
(R52, R107). -/
def State.firstInLine (s : State) (core sched slot : Nat) : Bool :=
  let me := s.warp (warpKey core slot)
  (schedSlots sched).all fun i =>
    let w := s.warp (warpKey core i)
    i == slot || w.fetching || s.ready (warpKey core i) == .no ||
      decide (me.lastIssue < w.lastIssue) || (me.lastIssue == w.lastIssue && decide (slot < i))

/-- A window slot is granted to a warp (R279). -/
def State.grantWindow (s : State) (core k : Nat) : State :=
  match s.windowSlots core fun x => x == 0 with
  | i :: _ =>
    (s.modCore core fun c => { c with windows := tset 0 c.windows i 1 }).modWarp k fun w => { w with window := some { slot := i } }
  | [] => s

/-- The issue run starts. -/
def State.startRun (s : State) (core sched slot : Nat) (upd : Warp → Warp) : State :=
  (s.modCore core fun c => if sched = 0 then { c with run0 := some slot } else { c with run1 := some slot }).modWarp
    (warpKey core slot) fun w => { upd w with running := true, rewait := false, fetching := false }

/-- A warp begins a clause at its header. -/
def Warp.begin (w : Warp) (h : Header) : Warp :=
  { w with hdr := w.pc, cmask := h.cls, left := h.count.toNat + 1, pc := w.pc + 8#64 }

/-- A trap at a header is the header's own: its THDR is its own address (R51). -/
def State.headerTrap (s : State) (k : Nat) (t : Trp) : State :=
  let u : State := { s with cur := k }
  (u.modMe fun w => { w with hdr := if w.left = 0 then w.pc else w.hdr, fetching := false }).takeTrap t

/-- CLAUSE_ISSUE (R52, R279). -/
def execClauseIssue (core sched slot : Nat) (s : State) : Host.Outcome State Fault Refusal :=
  let k := warpKey core slot
  .next (if 2 ≤ sched ∨ slot % 2 ≠ sched ∨ 48 ≤ slot ∨ (s.runner core sched).isSome ∨ !s.firstInLine core sched slot then s
    else
      match s.ready k with
      | .no => s
      | .trap t => s.headerTrap k t
      | .resume need => (if need then s.grantWindow core k else s).startRun core sched slot id
      | .clause h need => (if need then s.grantWindow core k else s).startRun core sched slot fun w => w.begin h)

/-! ## Waking (R52) -/

/-- The current warp's sleep ends where its condition holds. A monitor may fire for no write (R245). A fold that another warp
frees meanwhile counts as not met, so that one asleep on it stays so until the fold is allocated again and met: R261 does not
say what becomes of it (log 107). -/
def State.wakeMe (s : State) (z : Sleep) : State :=
  let w := s.me
  let core := keyCore s.cur
  let slot := keySlot s.cur
  let team := s.team w.teamKey
  let wakes (b : Bool) : State := if b then s.modMe Warp.wake else s
  match z with
  | .pnext => s
  | .watch => s
  | .mwait =>
    match w.monitor with
    | none => s.modMe Warp.wake
    | some m => if m.fired ∨ s.free (5000 + s.cur) % 2 = 1 then s.modMe fun w => { w with monitor := none }.wake else s
  | .barrier b g => wakes ((team.bar b).gen != g)
  | .fwait n _ => if (team.fold n).met then s.wakeFwait n else s
  | .xpect n => wakes (team.fold n).met
  | .spop n => if (team.stream n).count ≠ 0#8 then s.wakeSpop n else s
  | .cfence _ => wakes (s.engineIdle core slot)
  | .yield n => if (team.fold n).met then s.modMe fun w => w.jump w.mark w.resume else s
  | .bwait n => wakes (s.batchDone core slot n)
  | .recv p => s.wakeRecv p
  | .xchg c i => s.wakeXchg c i
  | .save _ tk => s.wakeSave tk

/-- The AtomicOps of the word that a warp stands at have all been sent, and have come back (R238, log 90). -/
def State.linked (s : State) (k own : Nat) : Bool :=
  !(s.hostOps.any fun h => h.warp == k && h.own == own) && !(s.warp k).stq.any fun e => e.id == own && decide (e.stage < 3) &&
    match e.kind with
    | .release _ => true
    | _ => false

/-- What comes about for one warp without a turn of its own: a parked warp goes on (R53), a requested freeze takes place
(R386), a phase ends whose warps have all executed PEND (R312), and a sleeping warp wakes, unless it is frozen or its team is
being stopped (R384, R392). A save is made while its warp's team is asked to stop, unless the team is being killed (log 128). -/
def State.settleWarp (s : State) (k : Nat) : State :=
  let s := s.modWarp k fun w => w.unpark.freezeHere
  let s := if (s.warp k).pended.isSome then s.endPhase (s.warp k).teamKey else s
  let w := s.warp k
  match w.status with
  | .linking own => if s.linked k own then s.modWarp k fun w => w.leaveEngine (w.req.elim false fun c => c.ctl.sw) else s
  | .asleep z _ =>
    if w.frozen.isSome ∨ ((s.team w.teamKey).stop = .boundary ∧ !z.isSave) ∨ (s.team w.teamKey).stop = .kill then s
    else { ({ s with cur := k } : State).wakeMe z with cur := s.cur }
  | _ => s

/-- When a warp fell asleep. -/
def Warp.sleptAt (w : Warp) : Nat :=
  match w.status with
  | .asleep _ t => t
  | _ => 0

/-- Requests that have expired are dealt with (R330), and every warp settles, those that have slept longest first. -/
def State.settle (s : State) : State :=
  let s := s.expireAll
  (sortBy (fun a b => decide ((s.warp a).sleptAt ≤ (s.warp b).sleptAt)) (s.warps.map Prod.fst)).foldl State.settleWarp s

/-! ## Fetching an instruction (R47) -/

/-- The instruction of the current warp's next word, or the trap of fetching or decoding it. -/
def State.fetchInstr (s : State) : Except Trp Instr :=
  let w := s.me
  match s.fetchAt s.cur w.pc with
  | .error t => .error t
  | .ok x =>
    match decode x with
    | .ok i => .ok i
    | .error _ => .error { kind := 1, mask := w.eff (ctlOf x), info := x.setWidth 32 }

/-! ## The order of turns where the agenda says nothing (log 1) -/

/-- A turn where a test holds. -/
def turnIf (b : Bool) (t : Turn) : List Turn := if b then [t] else []

/-- Turns of a core's units. -/
def coreTurns (c : Nat) (x : Core) : List Turn :=
  List.flatten [turnIf x.run0.isSome (.word c 0), turnIf x.run1.isSome (.word c 1),
    x.cmds.map fun y => .event (if y.mcast.isSome && y.pieces.all (fun p => p.dest.isNone) then .multicastRegister c y.id
      else .skidderLanding c y.id 0 true),
    x.eng.map fun e => .event (match e.stage with
      | .queued => .engineWordStart c
      | .running => .accumulatorWrite c
      | .writing => .accumulatorWrite c
      | .landing => .engineWritesLanded c e.id),
    (x.windows.filter fun y => y.2 == 2).map fun y => .event (.scrubDone c y.1),
    turnIf (decide (0 < x.rowsScrub)) (.event (.scrubDone c 4)), turnIf (decide (0 < x.scratchScrub)) (.event (.scrubDone c 5))]

/-- Turns that a warp's outstanding work and its readiness ask for. -/
def warpTurns (k : Nat) (w : Warp) : List Turn :=
  let c := keyCore k
  let i := keySlot k
  List.flatten [w.outs.map fun o => .event (.registerWriteComplete c i o.id 0xFFFFFFFF#32),
    w.stq.map fun e => .event (.storePerform c i e.id),
    match w.status with
    | .probing => [.event (.probeComplete c i)]
    | .accepting => [.event (.matrixAccept c i)]
    | .asleep .watch _ => [.event (.lookoutPoll c i), .event (.watchWake c i)]
    | .ready => turnIf (!w.running) (.event (.clauseIssue c (i % 2) i))
    | _ => []]

/-- Turns of a team. -/
def teamTurns (k : Nat) (t : Team) : List Turn :=
  List.flatten [turnIf t.phase.isNone (.event (.teamPop (k / 64) (k % 64) 0)),
    turnIf (t.stop != .none && !t.quiesced) (.event (.teamQuiesced (k / 64) (k % 64))),
    turnIf (!t.fetches.isEmpty) (.event (.wfetchLanding (k / 64) (k % 64)))]

/-- Turns of a context and of a shard. -/
def ctxTurns (c : Nat) (x : Ctx) : List Turn :=
  (x.mboxes.filter fun m => decide (0 < m.2.held)).map fun m => .event (.mailboxUnitReadComplete c m.1)

def shardTurns (q : Nat) (x : Shard) : List Turn :=
  (x.handles.filter fun h => h.2.used).map fun h => .event (.deadlineExpiry q h.1)

/-- Turns of the memory system. -/
def State.memoryTurns (s : State) : List Turn :=
  List.flatten [
    s.reqs.map fun r => if r.arrived.isSome then .event (.homeRequest (s.home r.line) r.line) else .arrive r.id,
    s.drains.map fun d => .event (if d.started then .drainComplete d.id else .drainRequest d.core),
    s.paths.map fun p => .event (.flushMarker p.1),
    s.hostOps.map fun h => .event (.atomicopCompletion (keyCore h.warp) (keySlot h.warp) h.own h.op.lane true)]

/-- Everything that may come next without an input, the network clock last. -/
def State.candidates (s : State) : List Turn :=
  List.flatten [turnIf (!s.mgmt.ready && s.mgmt.boots == 0) (.event (.boot (if s.bootCan 0 then 0 else 1))),
    s.cores.flatMap fun c => coreTurns c.1 c.2, s.warps.flatMap fun w => warpTurns w.1 w.2, s.memoryTurns, s.teams.flatMap fun t => teamTurns t.1 t.2,
    s.ctxs.flatMap fun c => ctxTurns c.1 c.2, s.shards.flatMap fun q => shardTurns q.1 q.2,
    (List.range s.posts.length).map fun i => .event (.post i), turnIf (!s.withdraws.isEmpty) (.event (.withdraw 0)),
    turnIf s.mgmt.busy (.event .commandDone), [.netClock]]

/-- The turn that step takes: the agenda's first, or one of the candidates in rotation. -/
def State.nextTurn (s : State) : Turn :=
  match s.agenda with
  | t :: _ => t
  | [] => s.candidates.getD (s.tick % s.candidates.length) .netClock

/-- Does a turn act on a module that Birseob has stopped? Leaving D3cold does, and boots it anew (R414). -/
def Turn.revives : Turn → Bool
  | .event (.d3coldExit _) => true
  | _ => false

/-- Time passes, and the agenda moves on. -/
def State.beginStep (s : State) : State := { s with tick := s.tick + 1, agenda := s.agenda.drop 1 }

/-- The warp that issues a word is the current one, and has issued now. -/
def State.asIssuer (s : State) (k : Nat) : State := ({ s with cur := k } : State).modWarp k fun w => { w with lastIssue := s.tick }

end Sys2Proof.Machine
end

