-- ==== Sys2Proof/Machine/Dispatch.lean ====
section
/-! DEFINITION. One arm for every constructor of Instr: the call of its meaning. -/

namespace Sys2Proof.Machine

def exec (i : Instr) (s : State) : Host.Outcome State Fault Refusal :=
  match i with
  | .nop k f => Sys2Proof.Machine.execNop k f s
  | .bra k f => Sys2Proof.Machine.execBra k f s
  | .brx k f => Sys2Proof.Machine.execBrx k f s
  | .call k f => Sys2Proof.Machine.execCall k f s
  | .callx k f => Sys2Proof.Machine.execCallx k f s
  | .ret k f => Sys2Proof.Machine.execRet k f s
  | .split k f => Sys2Proof.Machine.execSplit k f s
  | .join k f => Sys2Proof.Machine.execJoin k f s
  | .skipz k f => Sys2Proof.Machine.execSkipz k f s
  | .exrd k f => Sys2Proof.Machine.execExrd k f s
  | .exwr k f => Sys2Proof.Machine.execExwr k f s
  | .plog k f => Sys2Proof.Machine.execPlog k f s
  | .pmov k f => Sys2Proof.Machine.execPmov k f s
  | .setfmt k f => Sys2Proof.Machine.execSetfmt k f s
  | .getfmt k f => Sys2Proof.Machine.execGetfmt k f s
  | .mov k f => Sys2Proof.Machine.execMov k f s
  | .movk k f => Sys2Proof.Machine.execMovk k f s
  | .sel k f => Sys2Proof.Machine.execSel k f s
  | .iadd k f => Sys2Proof.Machine.execIadd k f s
  | .isub k f => Sys2Proof.Machine.execIsub k f s
  | .imul k f => Sys2Proof.Machine.execImul k f s
  | .imulh k f => Sys2Proof.Machine.execImulh k f s
  | .imad k f => Sys2Proof.Machine.execImad k f s
  | .imin k f => Sys2Proof.Machine.execImin k f s
  | .imax k f => Sys2Proof.Machine.execImax k f s
  | .iabs k f => Sys2Proof.Machine.execIabs k f s
  | .ineg k f => Sys2Proof.Machine.execIneg k f s
  | .and k f => Sys2Proof.Machine.execAnd k f s
  | .or k f => Sys2Proof.Machine.execOr k f s
  | .xor k f => Sys2Proof.Machine.execXor k f s
  | .andn k f => Sys2Proof.Machine.execAndn k f s
  | .shl k f => Sys2Proof.Machine.execShl k f s
  | .shr k f => Sys2Proof.Machine.execShr k f s
  | .sar k f => Sys2Proof.Machine.execSar k f s
  | .rot k f => Sys2Proof.Machine.execRot k f s
  | .bfx k f => Sys2Proof.Machine.execBfx k f s
  | .bfi k f => Sys2Proof.Machine.execBfi k f s
  | .bperm k f => Sys2Proof.Machine.execBperm k f s
  | .popc k f => Sys2Proof.Machine.execPopc k f s
  | .clz k f => Sys2Proof.Machine.execClz k f s
  | .brev k f => Sys2Proof.Machine.execBrev k f s
  | .icmp k f => Sys2Proof.Machine.execIcmp k f s
  | .isat k f => Sys2Proof.Machine.execIsat k f s
  | .iadd64 k f => Sys2Proof.Machine.execIadd64 k f s
  | .imad64 k f => Sys2Proof.Machine.execImad64 k f s
  | .lea k f => Sys2Proof.Machine.execLea k f s
  | .icvt k f => Sys2Proof.Machine.execIcvt k f s
  | .fadd k f => Sys2Proof.Machine.execFadd k f s
  | .fsub k f => Sys2Proof.Machine.execFsub k f s
  | .fmul k f => Sys2Proof.Machine.execFmul k f s
  | .ffma k f => Sys2Proof.Machine.execFfma k f s
  | .fmin k f => Sys2Proof.Machine.execFmin k f s
  | .fmax k f => Sys2Proof.Machine.execFmax k f s
  | .fcmp k f => Sys2Proof.Machine.execFcmp k f s
  | .fclass k f => Sys2Proof.Machine.execFclass k f s
  | .frnd k f => Sys2Proof.Machine.execFrnd k f s
  | .fcvt k f => Sys2Proof.Machine.execFcvt k f s
  | .f2i k f => Sys2Proof.Machine.execF2i k f s
  | .i2f k f => Sys2Proof.Machine.execI2f k f s
  | .dadd k f => Sys2Proof.Machine.execDadd k f s
  | .dmul k f => Sys2Proof.Machine.execDmul k f s
  | .dfma k f => Sys2Proof.Machine.execDfma k f s
  | .dcmp k f => Sys2Proof.Machine.execDcmp k f s
  | .rcp k f => Sys2Proof.Machine.execRcp k f s
  | .rsq k f => Sys2Proof.Machine.execRsq k f s
  | .sqrt k f => Sys2Proof.Machine.execSqrt k f s
  | .exp2 k f => Sys2Proof.Machine.execExp2 k f s
  | .log2 k f => Sys2Proof.Machine.execLog2 k f s
  | .exp k f => Sys2Proof.Machine.execExp k f s
  | .log k f => Sys2Proof.Machine.execLog k f s
  | .sin k f => Sys2Proof.Machine.execSin k f s
  | .cos k f => Sys2Proof.Machine.execCos k f s
  | .tanh k f => Sys2Proof.Machine.execTanh k f s
  | .sigm k f => Sys2Proof.Machine.execSigm k f s
  | .pack k f => Sys2Proof.Machine.execPack k f s
  | .unpk k f => Sys2Proof.Machine.execUnpk k f s
  | .fstat k f => Sys2Proof.Machine.execFstat k f s
  | .seedr k f => Sys2Proof.Machine.execSeedr k f s
  | .vote k f => Sys2Proof.Machine.execVote k f s
  | .shfl k f => Sys2Proof.Machine.execShfl k f s
  | .bcast k f => Sys2Proof.Machine.execBcast k f s
  | .lred k f => Sys2Proof.Machine.execLred k f s
  | .lscan k f => Sys2Proof.Machine.execLscan k f s
  | .matchv k f => Sys2Proof.Machine.execMatchv k f s
  | .rbal k f => Sys2Proof.Machine.execRbal k f s
  | .rwalk k f => Sys2Proof.Machine.execRwalk k f s
  | .segred k f => Sys2Proof.Machine.execSegred k f s
  | .ld k f => Sys2Proof.Machine.execLd k f s
  | .st k f => Sys2Proof.Machine.execSt k f s
  | .ldu k f => Sys2Proof.Machine.execLdu k f s
  | .ldl k f => Sys2Proof.Machine.execLdl k f s
  | .stl k f => Sys2Proof.Machine.execStl k f s
  | .pref k f => Sys2Proof.Machine.execPref k f s
  | .preft k f => Sys2Proof.Machine.execPreft k f s
  | .lock k f => Sys2Proof.Machine.execLock k f s
  | .unlock k f => Sys2Proof.Machine.execUnlock k f s
  | .winset k f => Sys2Proof.Machine.execWinset k f s
  | .winclr k f => Sys2Proof.Machine.execWinclr k f s
  | .cwb k f => Sys2Proof.Machine.execCwb k f s
  | .cinv k f => Sys2Proof.Machine.execCinv k f s
  | .gbind k f => Sys2Proof.Machine.execGbind k f s
  | .ginv k f => Sys2Proof.Machine.execGinv k f s
  | .qclass k f => Sys2Proof.Machine.execQclass k f s
  | .fence k f => Sys2Proof.Machine.execFence k f s
  | .atom k f => Sys2Proof.Machine.execAtom k f s
  | .cas k f => Sys2Proof.Machine.execCas k f s
  | .cas128 k f => Sys2Proof.Machine.execCas128 k f s
  | .red k f => Sys2Proof.Machine.execRed k f s
  | .mon k f => Sys2Proof.Machine.execMon k f s
  | .mwait k f => Sys2Proof.Machine.execMwait k f s
  | .watch k f => Sys2Proof.Machine.execWatch k f s
  | .bar k f => Sys2Proof.Machine.execBar k f s
  | .bara k f => Sys2Proof.Machine.execBara k f s
  | .barw k f => Sys2Proof.Machine.execBarw k f s
  | .slop k f => Sys2Proof.Machine.execSlop k f s
  | .cpy k f => Sys2Proof.Machine.execCpy k f s
  | .cpyb k f => Sys2Proof.Machine.execCpyb k f s
  | .gath k f => Sys2Proof.Machine.execGath k f s
  | .scat k f => Sys2Proof.Machine.execScat k f s
  | .mcast k f => Sys2Proof.Machine.execMcast k f s
  | .falloc k f => Sys2Proof.Machine.execFalloc k f s
  | .ffree k f => Sys2Proof.Machine.execFfree k f s
  | .fwait k f => Sys2Proof.Machine.execFwait k f s
  | .fstate k f => Sys2Proof.Machine.execFstate k f s
  | .spop k f => Sys2Proof.Machine.execSpop k f s
  | .spush k f => Sys2Proof.Machine.execSpush k f s
  | .bxpect k f => Sys2Proof.Machine.execBxpect k f s
  | .rxpect k f => Sys2Proof.Machine.execRxpect k f s
  | .cfence k f => Sys2Proof.Machine.execCfence k f s
  | .yield k f => Sys2Proof.Machine.execYield k f s
  | .mma k f => Sys2Proof.Machine.execMma k f s
  | .mmas k f => Sys2Proof.Machine.execMmas k f s
  | .mmasp k f => Sys2Proof.Machine.execMmasp k f s
  | .aclr k f => Sys2Proof.Machine.execAclr k f s
  | .ard k f => Sys2Proof.Machine.execArd k f s
  | .awr k f => Sys2Proof.Machine.execAwr k f s
  | .acvt k f => Sys2Proof.Machine.execAcvt k f s
  | .comp48 k f => Sys2Proof.Machine.execComp48 k f s
  | .cbld k f => Sys2Proof.Machine.execCbld k f s
  | .xvset k f => Sys2Proof.Machine.execXvset k f s
  | .sclb k f => Sys2Proof.Machine.execSclb k f s
  | .mbat k f => Sys2Proof.Machine.execMbat k f s
  | .bwait k f => Sys2Proof.Machine.execBwait k f s
  | .fact k f => Sys2Proof.Machine.execFact k f s
  | .trsl k f => Sys2Proof.Machine.execTrsl k f s
  | .pivrd k f => Sys2Proof.Machine.execPivrd k f s
  | .patch k f => Sys2Proof.Machine.execPatch k f s
  | .stamp k f => Sys2Proof.Machine.execStamp k f s
  | .hshift k f => Sys2Proof.Machine.execHshift k f s
  | .pnext k f => Sys2Proof.Machine.execPnext k f s
  | .ppost k f => Sys2Proof.Machine.execPpost k f s
  | .pend k f => Sys2Proof.Machine.execPend k f s
  | .resid k f => Sys2Proof.Machine.execResid k f s
  | .rprop k f => Sys2Proof.Machine.execRprop k f s
  | .vpub k f => Sys2Proof.Machine.execVpub k f s
  | .vread k f => Sys2Proof.Machine.execVread k f s
  | .admitReq k f => Sys2Proof.Machine.execAdmitReq k f s
  | .dline k f => Sys2Proof.Machine.execDline k f s
  | .mbrd k f => Sys2Proof.Machine.execMbrd k f s
  | .mbwr k f => Sys2Proof.Machine.execMbwr k f s
  | .wfetch k f => Sys2Proof.Machine.execWfetch k f s
  | .genrd k f => Sys2Proof.Machine.execGenrd k f s
  | .send k f => Sys2Proof.Machine.execSend k f s
  | .recv k f => Sys2Proof.Machine.execRecv k f s
  | .xchg k f => Sys2Proof.Machine.execXchg k f s
  | .throt k f => Sys2Proof.Machine.execThrot k f s
  | .trap k f => Sys2Proof.Machine.execTrap k f s
  | .tret k f => Sys2Proof.Machine.execTret k f s
  | .svc k f => Sys2Proof.Machine.execSvc k f s
  | .srr k f => Sys2Proof.Machine.execSrr k f s
  | .srw k f => Sys2Proof.Machine.execSrw k f s
  | .preempt k f => Sys2Proof.Machine.execPreempt k f s
  | .ctxsv k f => Sys2Proof.Machine.execCtxsv k f s
  | .ctxld k f => Sys2Proof.Machine.execCtxld k f s
  | .tlbinv k f => Sys2Proof.Machine.execTlbinv k f s
  | .bias k f => Sys2Proof.Machine.execBias k f s
  | .mapg k f => Sys2Proof.Machine.execMapg k f s
  | .freeze k f => Sys2Proof.Machine.execFreeze k f s
  | .thaw k f => Sys2Proof.Machine.execThaw k f s
  | .pairWord k f => Sys2Proof.Machine.execPairWord k f s
  | .clauseIssue core sched slot => Sys2Proof.Machine.execClauseIssue core sched slot s
  | .registerWriteComplete core slot id lanes => Sys2Proof.Machine.execRegisterWriteComplete core slot id lanes s
  | .storePerform core slot id => Sys2Proof.Machine.execStorePerform core slot id s
  | .homeRequest slice line => Sys2Proof.Machine.execHomeRequest slice line s
  | .drainRequest core => Sys2Proof.Machine.execDrainRequest core s
  | .drainComplete id => Sys2Proof.Machine.execDrainComplete id s
  | .flushMarker path => Sys2Proof.Machine.execFlushMarker path s
  | .watchWake core slot => Sys2Proof.Machine.execWatchWake core slot s
  | .lookoutPoll core slot => Sys2Proof.Machine.execLookoutPoll core slot s
  | .probeComplete core slot => Sys2Proof.Machine.execProbeComplete core slot s
  | .skidderLanding core cmd piece good => Sys2Proof.Machine.execSkidderLanding core cmd piece good s
  | .multicastRegister core cmd => Sys2Proof.Machine.execMulticastRegister core cmd s
  | .matrixAccept core slot => Sys2Proof.Machine.execMatrixAccept core slot s
  | .engineWordStart core => Sys2Proof.Machine.execEngineWordStart core s
  | .accumulatorWrite core => Sys2Proof.Machine.execAccumulatorWrite core s
  | .scrubDone core unit => Sys2Proof.Machine.execScrubDone core unit s
  | .teamPop ctx team pick => Sys2Proof.Machine.execTeamPop ctx team pick s
  | .post idx => Sys2Proof.Machine.execPost idx s
  | .withdraw idx => Sys2Proof.Machine.execWithdraw idx s
  | .deadlineExpiry shard handle => Sys2Proof.Machine.execDeadlineExpiry shard handle s
  | .notify rid ctx mbox relaxed => Sys2Proof.Machine.execNotify rid ctx mbox relaxed s
  | .mailboxInWrite rid ctx mbox word val => Sys2Proof.Machine.execMailboxInWrite rid ctx mbox word val s
  | .oack rid ctx mbox => Sys2Proof.Machine.execOack rid ctx mbox s
  | .ovrclr rid ctx mbox => Sys2Proof.Machine.execOvrclr rid ctx mbox s
  | .swpost rid ctx => Sys2Proof.Machine.execSwpost rid ctx s
  | .wfetchLanding ctx team => Sys2Proof.Machine.execWfetchLanding ctx team s
  | .flitRoute router => Sys2Proof.Machine.execFlitRoute router s
  | .flitEject core => Sys2Proof.Machine.execFlitEject core s
  | .bridgeCross idx => Sys2Proof.Machine.execBridgeCross idx s
  | .onausPacket path good => Sys2Proof.Machine.execOnausPacket path good s
  | .onausLinkLoss port => Sys2Proof.Machine.execOnausLinkLoss port s
  | .linkRetrain port => Sys2Proof.Machine.execLinkRetrain port s
  | .peerRequest peer tenant kind addr n data => Sys2Proof.Machine.execPeerRequest peer tenant kind addr n data s
  | .hostBar2Access rid write addr n data => Sys2Proof.Machine.execHostBar2Access rid write addr n data s
  | .cxlMemAccess write addr n data => Sys2Proof.Machine.execCxlMemAccess write addr n data s
  | .atomicopCompleter rid op n addr opnd cmp => Sys2Proof.Machine.execAtomicopCompleter rid op n addr opnd cmp s
  | .completerAbort rid target => Sys2Proof.Machine.execCompleterAbort rid target s
  | .atomicopCompletion core slot id lane good => Sys2Proof.Machine.execAtomicopCompletion core slot id lane good s
  | .establish place frames => Sys2Proof.Machine.execEstablish place frames s
  | .teardown => Sys2Proof.Machine.execTeardown s
  | .lockrid => Sys2Proof.Machine.execLockrid s
  | .unlockrid => Sys2Proof.Machine.execUnlockrid s
  | .attest => Sys2Proof.Machine.execAttest s
  | .ctxstate => Sys2Proof.Machine.execCtxstate s
  | .fabric => Sys2Proof.Machine.execFabric s
  | .commandDone => Sys2Proof.Machine.execCommandDone s
  | .eventClear ones => Sys2Proof.Machine.execEventClear ones s
  | .registerWrite rid reg val => Sys2Proof.Machine.execRegisterWrite rid reg val s
  | .faultrecRemove ctx => Sys2Proof.Machine.execFaultrecRemove ctx s
  | .waymaskWrite ctx val => Sys2Proof.Machine.execWaymaskWrite ctx val s
  | .teamQuiesced ctx team => Sys2Proof.Machine.execTeamQuiesced ctx team s
  | .boot failed => Sys2Proof.Machine.execBoot failed s
  | .d3coldExit failed => Sys2Proof.Machine.execD3coldExit failed s
  | .clkstepDown die => Sys2Proof.Machine.execClkstepDown die s
  | .clkstepUp die => Sys2Proof.Machine.execClkstepUp die s
  | .thermalStop die => Sys2Proof.Machine.execThermalStop die s
  | .pldmMonitor power temps coolant => Sys2Proof.Machine.execPldmMonitor power temps coolant s
  | .pldmFirmwareUpdate image => Sys2Proof.Machine.execPldmFirmwareUpdate image s
  | .mctpAttest nonce => Sys2Proof.Machine.execMctpAttest nonce s
  | .correctedError die => Sys2Proof.Machine.execCorrectedError die s
  | .uncorrectableError site => Sys2Proof.Machine.execUncorrectableError site s
  | .thermalStopNear die => Sys2Proof.Machine.execThermalStopNear die s
  | .cmdWriteIgnored code => Sys2Proof.Machine.execCmdWriteIgnored code s
  | .powerLimitSet watts => Sys2Proof.Machine.execPowerLimitSet watts s
  | .mailboxUnitReadComplete ctx mbox => Sys2Proof.Machine.execMailboxUnitReadComplete ctx mbox s
  | .engineWritesLanded core id => Sys2Proof.Machine.execEngineWritesLanded core id s
  | .cxlCacheSnoop line invalidate data => Sys2Proof.Machine.execCxlCacheSnoop line invalidate data s

end Sys2Proof.Machine
end

