-- ==== Sys2Proof/Machine/Step.lean ====
section
/-! DEFINITION. One step of the module (log 1): the next turn runs, then what needs no turn of its own settles. -/

namespace Sys2Proof.Machine

/-- The warp that a scheduler runs issues its next word: the instruction that the word decodes to, or the trap of fetching
or decoding it (R51, R54, R71). -/
def State.runWord (s : State) (core sched : Nat) : Host.Outcome State Fault Refusal :=
  match s.runner core sched with
  | none => .next s
  | some k =>
    match (s.asIssuer k).fetchInstr with
    | .ok i => exec i (s.asIssuer k)
    | .error t => .next ((s.asIssuer k).takeTrap t)

/-- One turn. Only what is no word of a program can be an event. -/
def State.runTurn (s : State) (t : Turn) : Host.Outcome State Fault Refusal :=
  match t with
  | .word core sched => s.runWord core sched
  | .event i => if i.view.isNone then exec i s else .next s
  | .arrive r => .next (s.arrive r)
  | .netClock => .next s.netClock
  | .evictEntry line => .next (s.evictEntry line)
  | .traffic src dst n => .next (s.postTraffic src dst n)

/-- What an outcome leaves once everything has settled. -/
def settleOutcome (o : Host.Outcome State Fault Refusal) : Host.Outcome State Fault Refusal :=
  match o with
  | .next s => .next s.settle
  | .fault r => .fault r
  | .refused r => .refused r

/-- One step: a stopped module does nothing until it leaves D3cold (R414). -/
def step (s : State) : Host.Outcome State Fault Refusal :=
  if s.mgmt.stopped && !s.nextTurn.revives then .fault .moduleStopped else settleOutcome (s.beginStep.runTurn s.nextTurn)

/-! ## A word where step fetches next (log 2) -/

/-- The header of the placed clause: every class, no wait, COUNT 0. -/
def placedHeader : Dword := encodeHeader { cls := 0xF#4, lw := 31#5, sw := 31#5, mb := 15#4, fh := 63#6, f63 := false, count := 0#4 }

/-- The entries of the placed tables, each with its address: five levels that map one page of 64 KiB at
0x1_0000_0000 to 0x20000. -/
def placedTables : List (Nat × Nat) :=
  [(0x10000, 0x11001), (0x11000, 0x12001), (0x12000 + 8 * 4, 0x13001), (0x13000, 0x14001), (0x14000, 0x20077)]

/-- The machine with an instruction's bytes placed after a header, and warp 0 of core 0 in an issue run at them. Its
mode is the supervisor's for a word that only a supervisor may run. -/
def State.withFetchWord (s : State) (_nbits w : Nat) : State :=
  let word := BitVec.ofNat 64 w
  let priv :=
    match decode word with
    | .ok (.srr ..) => true
    | .ok i => supervisorOnly i
    | .error _ => false
  let mem := placedTables.foldl (fun m e => Machine.putBytes m e.1 (natLe 8 e.2)) s.mem
  let mem := Machine.putBytes (Machine.putBytes mem 0x20000 (natLe 8 placedHeader.toNat)) 0x20008 (natLe 8 word.toNat)
  { s with
    mem
    agenda := .word 0 0 :: s.agenda
    cores := tmod {} s.cores 0 fun c => { c with corectx := 0x80000000#32, run0 := some 0 }
    ctxs := tmod {} s.ctxs 0 fun c =>
      { c with established := true, ptroot := 0x10000#64, cores := [0], nteams := 1, nwarps := 1, nblocks := 1, regs := 256 }
    teams := tset {} s.teams 0
      { life := .live, cores := [0], slots := [0], regs := 256
        phase := some { kind := .block, num := 0, shard := 0, gen := 0#32, popres := 0#32 } }
    warps := tset {} s.warps 0
      { present := true, valloc := 256, pc := 0x100000008#64, hdr := 0x100000000#64, cmask := 0xF#4, left := 1
        running := true, inPhase := true, priv } }

end Sys2Proof.Machine
end

