-- ==== Sys2Proof/Safety.lean ====
section
/-! DEFINITION. What claims about instructions and runs are stated in: when a word issues (R71), what a word that is
done leaves alone, how results reach registers, and what every step keeps. -/

namespace Sys2Proof.Machine

/-- A step is safe when it answers a next state. -/
def Safe (s : State) : Prop := ∃ t, step s = .next t

/-- Memory keeps its one canonical form. -/
def MemoryCanonical (s : State) : Prop := Memory.wf s.mem

/-! ## Words -/

/-- Every check of R71 passes at a word of the current warp, nothing makes it wait (R50, R206, R217, R219, R254) and,
under CTXCFG.STRICT, it meets no hazard (R55). -/
structure Issues (s : State) (k : Ctl) (i : Instr) : Prop where
  fields : legal i = true
  allocation : allocOk s.me (sig i) = true
  format : dynLegal s.me i = true
  tables : tableLegal (s.team s.me.teamKey) i = true
  isWord : i.view.isSome = true
  classBits : ∀ x b, i.view = some x → classBit x.op = some b → s.me.cmask.getLsbD b = true
  last : mustBeLast i = true → s.me.left = 1
  privilege : lacksPrivilege s s.me i = false
  agree : partialMask s.me k i = false
  ready : mustWait s.me k i = false
  noHazard : ctxStrict (s.ctx s.me.ctx) = true → hazard s s.me k i = none

/-- The word is done and the warp stands at the next one (R53, R64): a switch marker parks it, and the last word of a clause
ends the run. Nothing outside the current warp has changed, and of the warp nothing but its registers, predicates, SEEDs,
outstanding writes and FPSTAT. -/
structure WordDone (s t : State) (k : Ctl) : Prop where
  machine : t = s.setMe t.me
  warp : t.me = { s.me with
    pc := s.me.pc + 8#64, left := s.me.left - 1, rewait := false
    status := if k.sw then .parked else s.me.status
    running := s.me.running && !k.sw && decide (1 < s.me.left)
    regs := t.me.regs, bank := t.me.bank, preds := t.me.preds, seeds := t.me.seeds, outs := t.me.outs
    fpstat := t.me.fpstat }

/-- The registers that a destination of n registers is written in: a v-register's lanes of effective, an s-register where
the word acts (R121). -/
def wroteKeys (w : Warp) (k : Ctl) (d : Operand) (n : Nat) : List Nat :=
  match d with
  | .v _ => (maskLanes (w.eff k)).flatMap fun l => dstKeys w d n l
  | .s _ => if w.acts k then dstKeys w d n 0 else []
  | _ => []

/-- Registers other than those of ks keep their values; outstanding writes lose the registers of ks (R55). -/
structure OtherRegs (s t : State) (ks : List Nat) : Prop where
  regs : ∀ key, key ∉ ks → t.me.getKey key = s.me.getKey key
  outs : t.me.outs = s.me.outs.map fun o => { o with tgts := o.tgts.filter fun x => !ks.contains x.key }

/-- A 32-bit result g in each lane reached destination d, and the flags FPSTAT (R42, R121); nothing else changed. -/
structure Wrote32 (s t : State) (k : Ctl) (d : Operand) (fl : Flags) (g : Nat → Word) : Prop where
  done : WordDone s t k
  lanes : ∀ n l, d = .v n → l < 32 → t.me.getV n.val l = if (s.me.eff k).getLsbD l then g l else s.me.getV n.val l
  scalar : ∀ n, d = .s n → t.me.getS n.val = if s.me.acts k then g 0 else s.me.getS n.val
  others : OtherRegs s t (wroteKeys s.me k d 1)
  preds : t.me.preds = s.me.preds
  seeds : t.me.seeds = s.me.seeds
  flags : t.me.fpstat = s.me.fpstat ||| fl

/-- The same for a 64-bit result in a register pair (R2). -/
structure Wrote64 (s t : State) (k : Ctl) (d : Operand) (fl : Flags) (g : Nat → Dword) : Prop where
  done : WordDone s t k
  lanes : ∀ n l, d = .v n → l < 32 → (s.me.eff k).getLsbD l = true →
    joinWords (t.me.getV n.val l) (t.me.getV (n.val + 1) l) = g l
  scalar : ∀ n, d = .s n → s.me.acts k = true → t.me.getSPair n.val = g 0
  others : OtherRegs s t (wroteKeys s.me k d 2)
  preds : t.me.preds = s.me.preds
  seeds : t.me.seeds = s.me.seeds
  flags : t.me.fpstat = s.me.fpstat ||| fl

/-- Predicate n took g in the lanes of effective (R132); every other predicate and register keeps its value. -/
structure WrotePred (s t : State) (k : Ctl) (n : Nat) (fl : Flags) (g : Nat → Bool) : Prop where
  done : WordDone s t k
  lanes : ∀ l, l < 32 → t.me.pred n l = if (s.me.eff k).getLsbD l then g l else s.me.pred n l
  preds : ∀ m l, m < 16 → m ≠ n → t.me.pred m l = s.me.pred m l
  regs : ∀ key, t.me.getKey key = s.me.getKey key
  outs : OtherRegs s t ((maskLanes (s.me.eff k)).map (predKey n))
  seeds : t.me.seeds = s.me.seeds
  flags : t.me.fpstat = s.me.fpstat ||| fl

/-- The word's results are outstanding until they are written (R55, R99): an outstanding write is queued last with the
registers' values and the flags, and earlier ones lose those registers. Nothing else changed. -/
structure Deferred (s t : State) (k : Ctl) (ws : List (Nat × Word)) (fl : Flags) (counts acquires : Bool) : Prop where
  machine : t = { s.setMe t.me with nextId := s.nextId + 1 }
  warp : t.me = { s.me with
    pc := s.me.pc + 8#64, left := s.me.left - 1, rewait := false
    status := if k.sw then .parked else s.me.status
    running := s.me.running && !k.sw && decide (1 < s.me.left)
    outs := s.me.outs.map (fun o => { o with tgts := o.tgts.filter fun x => !(ws.map Prod.fst).contains x.key }) ++
      [{ id := s.nextId, tgts := ws.map fun x => ⟨x.1, some x.2⟩, flags := fl, counts, acquires }] }

/-- The current warp went to sleep in its word (R52); nothing else changed. -/
structure Sleeps (s t : State) (k : Ctl) (z : Sleep) : Prop where
  machine : t = s.setMe t.me
  warp : t.me = { s.me with status := .asleep z s.tick, running := false, mark := k.sw, req := t.me.req, resume := t.me.resume }

/-- Every byte of memory reads as before. -/
def SameMemory (s t : State) : Prop := ∀ a, t.byteAt a = s.byteAt a

/-! ## Transfers (R64, R65) -/

/-- A clause header stands at an address that the current warp may transfer to. -/
def HeaderAt (s : State) (va : Dword) : Prop :=
  va.toNat % 8 = 0 ∧ ∃ x, s.codeWord s.me va = .ok x ∧ isHeader x = true

/-- The warp goes on at the header at va; nothing else changed but registers, stack, EXEC and FMT. -/
structure Jumped (s t : State) (k : Ctl) (va : Dword) : Prop where
  machine : t = s.setMe t.me
  warp : t.me = { s.me with
    pc := va, left := 0, rewait := false, running := false, fetching := true
    status := if k.sw then .parked else .ready
    regs := t.me.regs, bank := t.me.bank, outs := t.me.outs, stack := t.me.stack, exec := t.me.exec, fmt := t.me.fmt }

/-- The warp goes on at the next word, which is a header (R64); nothing else changed but stack, EXEC and FMT. -/
structure FellThrough (s t : State) (k : Ctl) : Prop where
  machine : t = s.setMe t.me
  warp : t.me = { s.me with
    pc := s.me.pc + 8#64, left := 0, rewait := false, running := false
    status := if k.sw then .parked else .ready
    stack := t.me.stack, exec := t.me.exec, fmt := t.me.fmt, epoch := t.me.epoch }

/-- The registers, predicates and outstanding writes of the current warp stay. -/
def SameRegs (s t : State) : Prop :=
  (∀ key, t.me.getKey key = s.me.getKey key) ∧ t.me.preds = s.me.preds ∧ t.me.outs = s.me.outs

/-- EXEC, the reconvergence stack and FMT of the current warp stay. -/
def SameDivergence (s t : State) : Prop :=
  t.me.exec = s.me.exec ∧ t.me.stack = s.me.stack ∧ t.me.fmt = s.me.fmt ∧ t.me.epoch = s.me.epoch

/-! ## Traps and violations (R379 to R385) -/

/-- The current warp has entered the handler of a trap, whose TPC is back (R379, R380). sw is a switch marker, which
parks it there. -/
structure Trapped (s t : State) (x : Trp) (back : Dword) (sw : Bool) : Prop where
  machine : t = s.setMe t.me
  warp : t.me = { s.me with
    trap := { tpc := back, thdr := s.me.hdr, texec := s.me.exec, tfmt := s.me.fmt, tmask := x.mask, taddr := x.addr
              tinfo := x.info, tcause := BitVec.ofNat 32 (s.me.stack.length % 32 * 65536 + x.cause % 256 * 256 + x.kind % 256) }
    exec := if x.kind = 4 ∨ x.kind = 6 ∨ x.kind = 7 ∨ x.kind = 8 then x.mask else s.me.exec
    fmt := 0x21#32
    priv := true
    pc := (s.ctx s.me.ctx).tvec + BitVec.ofNat 64 (128 * x.kind)
    left := 0, rewait := false, running := false, fetching := true, req := none
    status := if sw then .parked else .ready }

/-- The current warp is frozen by a violation of cause c that concerns address a, which its context's FAULTREC records
(R384, R385); nothing else has changed but the count of MSI-X vector 2c + 1 (R403). -/
structure Frozen (s t : State) (c : Nat) (a : Dword) : Prop where
  warp : t.me = { s.me with frozen := some c, running := false }
  machine : t = { (s.setMe t.me).setCtx s.me.ctx { s.ctx s.me.ctx with faults := (t.ctx s.me.ctx).faults } with mgmt := t.mgmt }
  queued : (s.ctx s.me.ctx).faults.length < 16 →
    (t.ctx s.me.ctx).faults = (s.ctx s.me.ctx).faults ++
      [{ addr := a, cause := BitVec.ofNat 8 c, mkind := 0#3, wslot := BitVec.ofNat 6 (keySlot s.cur)
         team := BitVec.ofNat 6 s.me.team, core := BitVec.ofNat 9 (keyCore s.cur) }] ∧
    tget 0 t.mgmt.msix (2 * s.me.ctx + 1) = tget 0 s.mgmt.msix (2 * s.me.ctx + 1) + 1
  full : 16 ≤ (s.ctx s.me.ctx).faults.length → t.mgmt = s.mgmt ∧
    ∃ o rest, (s.ctx s.me.ctx).faults = o :: rest ∧
      (t.ctx s.me.ctx).faults = { o with more := if o.more = 255#8 then 255#8 else o.more + 1#8 } :: rest
  others : t.mgmt = { s.mgmt with msix := t.mgmt.msix }

/-- The current warp has returned from its handler to TPC (R382). -/
structure Returned (s t : State) (k : Ctl) : Prop where
  machine : t = s.setMe t.me
  warp : t.me = { s.me with
    exec := s.me.trap.texec, fmt := s.me.trap.tfmt, priv := false, pc := s.me.trap.tpc
    running := false, fetching := true, status := if k.sw then .parked else .ready
    hdr := t.me.hdr, cmask := t.me.cmask, left := t.me.left, rewait := t.me.rewait }

/-! ## Floating-point words (R137, R94) -/

/-- Does lane l do the work of a floating word? Every lane of effective does for a v-register, and for an s-register the
lowest lane alone. -/
def fpWorks (w : Warp) (k : Ctl) (d : Operand) (l : Nat) : Prop :=
  (w.eff k).getLsbD l = true ∧ ∀ n, d = .s n → ∀ m, m < l → (w.eff k).getLsbD m = false

/-- The lane whose value an s-register takes: the lowest of effective, or lane 0 where none is (R137). -/
def fpLane (w : Warp) (k : Ctl) (l : Nat) : Prop :=
  ((w.eff k).getLsbD l = true ∧ l < 32 ∧ ∀ m, m < l → (w.eff k).getLsbD m = false) ∨ (w.eff k = 0#32 ∧ l = 0)

/-- A floating word is done: g l seed is what lane l's work gives from its SEED, as the result's bits, flags and the next
SEED. -/
structure WroteFp (s t : State) (k : Ctl) (d : Operand) (pair : Bool) (g : Nat → Word → Nat × Flags × Word) : Prop where
  done : WordDone s t k
  lanes : ∀ n l, d = .v n → l < 32 → (s.me.eff k).getLsbD l = true →
    (t.me.getV n.val l).toNat = (g l (s.me.seed l)).1 % 2 ^ 32 ∧
    (pair = true → (t.me.getV (n.val + 1) l).toNat = (g l (s.me.seed l)).1 / 2 ^ 32 % 2 ^ 32)
  scalar : ∀ n l, d = .s n → s.me.acts k = true → fpLane s.me k l →
    (t.me.getS n.val).toNat = (g l (s.me.seed l)).1 % 2 ^ 32 ∧
    (pair = true → (t.me.getS (n.val + 1)).toNat = (g l (s.me.seed l)).1 / 2 ^ 32 % 2 ^ 32)
  others : OtherRegs s t (wroteKeys s.me k d (if pair then 2 else 1))
  preds : t.me.preds = s.me.preds
  worked : ∀ l, l < 32 → fpWorks s.me k d l → t.me.seed l = (g l (s.me.seed l)).2.2
  idle : ∀ l, l < 32 → ¬fpWorks s.me k d l → t.me.seed l = s.me.seed l
  flags : ∀ b, t.me.fpstat.getLsbD b = true ↔
    s.me.fpstat.getLsbD b = true ∨ ∃ l, l < 32 ∧ fpWorks s.me k d l ∧ (g l (s.me.seed l)).2.1.getLsbD b = true

/-- One rounding (R43): the exact value v, with the flags that forming it raised, into format f. -/
def roundOne (r : Rnd) (f : FpFmt) (v : Num × Flags) (seed : Word) : Nat × Flags × Word :=
  let y := roundTo f v.1 r.mode r.sat seed.toNat r.dnf
  (y.1, v.2 ||| y.2, if r.mode = 4 then seedNext seed else seed)

/-- An arithmetic word rounds the exact value v l e of each element e once; a packed word's element 0 steps SEED before
element 1 (R94, R141). -/
def WroteRounded (s t : State) (k : Ctl) (f : VFields) (v : Nat → Nat → Num × Flags) : Prop :=
  let ty := f.ty.toNat
  let r := rndOf s s.me
  let fmt := (fpType ty).1
  ∃ g, WroteFp s t k f.d (ty == 6) g ∧ ∀ l sd,
    if ty = 8 ∨ ty = 9 then
      let x := roundOne r fmt (v l 0) sd
      let y := roundOne r fmt (v l 1) x.2.2
      g l sd = (x.1 % 2 ^ 16 + 2 ^ 16 * (y.1 % 2 ^ 16), x.2.1 ||| y.2.1, y.2.2)
    else
      let x := roundOne r fmt (v l 0) sd
      (g l sd).1 % 2 ^ 64 = x.1 % 2 ^ (if ty = 6 then 64 else 32) ∧ (g l sd).2 = x.2

/-- minimumNumber and maximumNumber (R142): the other value of one NaN, a of two made quiet, and -0.0 below +0.0. -/
def lesserOf (max : Bool) (a b : Num) : Num :=
  if a.isNan then (if b.isNan then a.quieten else b)
  else if b.isNan then a
  else
    match cmpNum a b with
    | some .lt => if max then b else a
    | some .gt => if max then a else b
    | _ => if a.neg? = max then b else a

/-- What a half of a pair word gives in a lane (R35, R67), as the single-word instruction of its op does: the floating
halves with type f32 (R141, R142), rounded once, and the integer halves with b32 (R125 to R128). -/
def halfResult (r : Rnd) (op : Nat) (d a b seed : Word) : Nat × Flags × Word :=
  let x := decF32 a
  let y := decF32 b
  let pick (max : Bool) : Nat × Flags × Word :=
    ((roundTo fp32 (lesserOf max x y) 0 false 0).1, flagIf (x.isSnan || y.isSnan) fIV, seed)
  let int (v : Word) : Nat × Flags × Word := (v.toNat, 0#6, seed)
  match op with
  | 0x0 => roundOne r fp32 (addNum (r.mode == 3) x y) seed
  | 0x1 => roundOne r fp32 (mulNum x y) seed
  | 0x2 => roundOne r fp32 (fmaNum (r.mode == 3) x y (decF32 d)) seed
  | 0x3 => pick false
  | 0x4 => pick true
  | 0x5 => int (a + b)
  | 0x6 => int (a - b)
  | 0x7 => int (a * b)
  | 0x8 => int (if a.toInt ≤ b.toInt then a else b)
  | 0x9 => int (if b.toInt ≤ a.toInt then a else b)
  | 0xA => int (a &&& b)
  | 0xB => int (a ||| b)
  | 0xC => int (a ^^^ b)
  | 0xD => int (if b < 32#32 then a <<< b.toNat else 0#32)
  | 0xE => int (if b < 32#32 then a >>> b.toNat else 0#32)
  | _ => int a

/-- The number that a finite value stands for (R75); 0 for any other. -/
def Num.val : Num → ℚ
  | .fin neg m e => (if neg then -1 else 1) * (m : ℚ) * (2 : ℚ) ^ e
  | _ => 0

/-- A finite FP32 value: its sign and the number that it stands for. -/
def FiniteF32 (w : Word) (neg : Bool) (v : ℚ) : Prop := ∃ m e, decF32 w = .fin neg m e ∧ (decF32 w).val = v

/-- r is the FP32 value of x ≥ 0 rounded upward: the least that is no smaller, or infinity where none is (R43). -/
def RoundedUp (r : Word) (x : ℚ) : Prop :=
  (∃ y, FiniteF32 r false y ∧ x ≤ y ∧ ∀ z n w, FiniteF32 z n w → x ≤ w → y ≤ w) ∨
    (r = 0x7F800000#32 ∧ ∀ z n w, FiniteF32 z n w → w < x)

/-! ## Pruning (R301) -/

/-- Does place p rank before place q: by a larger magnitude, a NaN before every number, and of equals the lower place? -/
def RanksBefore (x : Nat → Num) (p q : Nat) : Prop :=
  let larger (i j : Nat) : Prop := ((x i).isNan = true ∧ (x j).isNan = false) ∨
    ((x i).isNan = false ∧ (x j).isNan = false ∧ cmpNum (x i).abs (x j).abs = some .gt)
  larger p q ∨ ¬larger q p ∧ p < q

/-- The kept codes of a group of eight, n bits each, and its group code: the four places that rank before the rest,
ascending. x gives the values, c the codes. -/
def Pruned (n : Nat) (x : Nat → Num) (c : Nat → Nat) (kept code : Nat) : Prop :=
  ∃ p0 p1 p2 p3, p0 < p1 ∧ p1 < p2 ∧ p2 < p3 ∧ p3 < 8 ∧
    (∀ q, q < 8 → q ∉ [p0, p1, p2, p3] → ∀ p ∈ [p0, p1, p2, p3], RanksBefore x p q) ∧
    kept = c p0 + 2 ^ n * (c p1 + 2 ^ n * (c p2 + 2 ^ n * c p3)) ∧ code = p0 + 8 * (p1 + 8 * (p2 + 8 * p3))

/-! ## Values of integer words (R42, R73, R120) -/

/-- The common fields of a word without marker and guard. -/
def plainCtl : Ctl := { sw := false, g := false, gp := 0#4, n := false }

/-- Does x lie outside the range of an integer of n bits? -/
def OutOfRange (signed : Bool) (n : Nat) (x : Int) : Prop :=
  if signed then x < -(2 ^ (n - 1) : Int) ∨ (2 ^ (n - 1) : Int) ≤ x else x < 0 ∨ (2 ^ n : Int) ≤ x

/-- x clamped to the range of an integer of n bits. -/
def clampTo (signed : Bool) (n : Nat) (x : Int) : Int :=
  if signed then max (-(2 ^ (n - 1) : Int)) (min x ((2 ^ (n - 1) : Int) - 1)) else max 0 (min x ((2 ^ n : Int) - 1))

/-- The bits of an element of n bits that holds x, clamped where sat is set and reduced modulo 2^n otherwise. -/
def elemBitsOf (sat signed : Bool) (n : Nat) (x : Int) : Nat :=
  (((if sat then clampTo signed n x else x) % (2 ^ n : Int)) : Int).toNat

/-- An elementwise word has written, in element e of each lane, what val gives for the operands' elements; FPSTAT.ST
rises where a lane of effective clamped an element, and no other flag does. -/
def WroteElems (s t : State) (k : Ctl) (f : VFields) (sat : Bool) (val : Int → Int → Int) : Prop :=
  let ty := f.ty.toNat
  let n := typeWidth ty
  let sg := typeSigned ty
  let x (l e : Nat) : Int := val (asInt sg n (elemAt (rd s s.me f.a l).toNat n e)) (asInt sg n (elemAt (rd s s.me f.b l).toNat n e))
  ∃ fl g, Wrote32 s t k f.d fl g ∧
    (∀ l e, l < 32 → e < 32 / n → elemAt (g l).toNat n e = elemBitsOf sat sg n (x l e)) ∧
    (fl = fST ∨ fl = 0#6) ∧
    (fl = fST ↔ sat = true ∧ ∃ l e, l < 32 ∧ (s.me.eff k).getLsbD l = true ∧ e < 32 / n ∧ OutOfRange sg n (x l e))

/-! ## Words without effect, and accesses (R121, R172 to R241) -/

/-- The warp at its next word (R53, R64). -/
def atNext (w : Warp) (k : Ctl) : Warp :=
  { w with
    pc := w.pc + 8#64, left := w.left - 1, rewait := false
    status := if k.sw then .parked else w.status
    running := w.running && !k.sw && decide (1 < w.left) }

/-- The word is done, and nothing but the warp's place has changed. -/
def NoEffect (s t : State) (k : Ctl) : Prop := t = s.setMe (atNext s.me k)

/-- An access word has begun (R173): its warp is w, but for its outstanding accesses, some served already, and its monitor.
Of the rest only monitors, L1 copies, TLBs, directory entries, poison, requests on their way, parked comparisons and memory
may have changed. -/
structure AccessBegan (s t : State) (w : Warp) : Prop where
  machine : t = { s with
    warps := t.warps, cores := t.cores, lines := t.lines, reqs := t.reqs, paths := t.paths, watches := t.watches
    hostOps := t.hostOps, mem := t.mem, nextId := t.nextId }
  warp : t.me = { w with outs := t.me.outs, stq := t.me.stq, monitor := t.me.monitor }
  others : ∀ x, x ≠ s.cur → t.warp x = { s.warp x with monitor := (t.warp x).monitor }
  cores : ∀ c, t.core c = { s.core c with l1 := (t.core c).l1, tlb := (t.core c).tlb }
  lines : ∀ n, t.line n = { s.line n with holders := (t.line n).holders, poison := (t.line n).poison }

/-- An access word is done: the warp stands at its next word. -/
def Accessed (s t : State) (k : Ctl) : Prop := AccessBegan s t (atNext s.me k)

/-- An atomic's word waits for its AtomicOps (R238): the warp stays at the word, which is captured. -/
def Linking (s t : State) (k : Ctl) (i : Instr) : Prop :=
  AccessBegan s t { s.me with status := .linking s.nextId, running := false, req := some (s.me.captured k i []) }

/-- The warps are as before, but for monitors that a write has fired (R244). -/
def OnlyMonitors (s u : State) : Prop :=
  ∀ y, u.warp y = { s.warp y with monitor := (u.warp y).monitor } ∧
    ((u.warp y).monitor = (s.warp y).monitor ∨
      ∃ m, (s.warp y).monitor = some m ∧ (u.warp y).monitor = some { m with fired := true })

/-- Homes have given way to an agent's access: copies in L1 and tile entries, monitors, directory entries and places in the
L2 may have changed, and nothing else. -/
structure CopiesMoved (s u : State) : Prop where
  machine : u = { s with warps := u.warps, cores := u.cores, lines := u.lines, ctxs := u.ctxs }
  warps : OnlyMonitors s u
  cores : ∀ c, u.core c = { s.core c with l1 := (u.core c).l1, tfu := (u.core c).tfu }
  ctxs : ∀ c, u.ctx c = { s.ctx c with wins := (u.ctx c).wins, quotaUsed := (u.ctx c).quotaUsed }

/-- Lane operation o of the word's access waits in a request, among the request's operations on its line. -/
def Requested (s t : State) (o : LaneOp) : Prop :=
  ∃ r ∈ t.reqs, r.own = s.nextId ∧ warpKey r.core r.slot = s.cur ∧ r.line = lineOf o.key ∧ o ∈ r.ops

/-- The registers of lane operation o have the values vals in the word's outstanding write. -/
def Answered (s t : State) (o : LaneOp) (vals : List Word) : Prop :=
  ∃ x ∈ t.me.outs, x.id = s.nextId ∧ ∀ (i : Nat) (key : Nat), o.dst[i]? = some key → (⟨key, vals[i]?⟩ : Tgt) ∈ x.tgts

/-- The word's outstanding write of registers ks stands in the load counter (R50, R55). -/
def Outstanding (s t : State) (ks : List Nat) (acquires : Bool) : Prop :=
  ∃ x ∈ t.me.outs, x.id = s.nextId ∧ x.counts = true ∧ x.acquires = acquires ∧ x.tgts.map (fun y => y.key) = ks

/-- The n bytes of a memory from an address on, as a little-endian number. -/
def numIn (m : Nat → Byte) (a n : Nat) : Nat := leNat ((List.range n).map fun i => m (a + i))

/-- A memory in which the n bytes from an address on are those of v. -/
def putIn (m : Nat → Byte) (a n v : Nat) : Nat → Byte := fun x =>
  if a ≤ x ∧ x < a + n then BitVec.ofNat 8 (v / 256 ^ (x - a)) else m x

/-- A memory after one lane's operation, indivisible (R183, R235, R236). -/
def LaneOp.after (o : LaneOp) (m : Nat → Byte) : Nat → Byte :=
  let old := numIn m o.key o.n
  match o.op with
  | .store v => putIn m o.key o.n v
  | .atom op v _ => putIn m o.key o.n (atomOp op o.n old v).1
  | .cas cmp new => if old = cmp then putIn m o.key o.n new else m
  | _ => m

/-- A memory after lanes' operations, one after another. -/
def afterOps (os : List LaneOp) (m : Nat → Byte) : Nat → Byte := os.foldl (fun x o => o.after x) m

/-- Of the lanes' operations ps of an access word, each waits in a request, or is sent beyond the link, or is performed at
once: those that are, in some order, one after another, and each finds what the ones before it left (R184, R200, R235).
-/
def Performed (s t : State) (beyond : Bool) (ps : List LaneOp) : Prop :=
  ∃ done rest, (done ++ rest).Perm ps ∧
    (∀ o ∈ rest, Requested s t o ∨ beyond = true ∧ ∃ h ∈ t.hostOps, h.warp = s.cur ∧ h.own = s.nextId ∧ h.op = o) ∧
    (∀ a, t.byteAt a = afterOps done s.byteAt a) ∧
    ∀ before o later, done = before ++ o :: later → o.dst ≠ [] →
      Answered s t o (wordsOf o.n false (numIn (afterOps before s.byteAt) o.key o.n))

/-- Bytes outside those of n at each place keep their values. -/
def MemoryOutside (s t : State) (ps : List (Addr × Phys)) (n : Nat) : Prop :=
  ∀ a, (∀ p ∈ ps, a < p.2.key ∨ p.2.key + n ≤ a) → t.byteAt a = s.byteAt a

/-- The outcome of a LOCK of a device line by context c (R192): the first case that applies, in the rule's order. -/
structure LockOutcome (s : State) (c line : Nat) (striped : Bool) (code : Nat) : Prop where
  known : code = 0 ∨ code = 1 ∨ code = 2 ∨ code = 3 ∨ code = 4 ∨ code = 6
  pinned : code = 3 ↔ (s.line line).locks.getLsbD c = true ∨ s.windowPin c line = true
  ways : code = 2 ↔ code ≠ 3 ∧ s.waysOf c (s.home line) = 0#16
  absent : code = 4 ↔ code ≠ 3 ∧ code ≠ 2 ∧ (striped = true ∨ (s.line line).poison ≠ 0#32)
  quota : code = 1 ↔ code ≠ 3 ∧ code ≠ 2 ∧ code ≠ 4 ∧ (s.ctx c).quotaLimit ≤ (s.ctx c).quotaUsed
  full : code = 6 ↔ code ≠ 3 ∧ code ≠ 2 ∧ code ≠ 4 ∧ code ≠ 1 ∧ s.victim c (s.home line) (l2Set line) = none

/-- What a LOCK with that outcome leaves: with 0 the line pinned in L2 for the context and counted in USED, else nothing
changed. A window of the context that pins the line again as it arrives (R193) is counted beside the LOCK. -/
structure LockEffect (s u : State) (c line code : Nat) : Prop where
  refused : code ≠ 0 → u.lines = s.lines ∧ u.ctxs = s.ctxs
  pins : code = 0 → c < 8 → (u.line line).locks.getLsbD c = true ∧ (u.line line).inL2 = true
  counts : code = 0 → (∀ w ∈ (s.ctx c).wins, line ∉ w.unpinned) → (u.ctx c).quotaUsed = (s.ctx c).quotaUsed + 1#32

/-- The registers of a word's outstanding write id in warp k hold: those of o the value v, those of os alone the value z. -/
def Shares (t : State) (k id : Nat) (o : LaneOp) (os : List LaneOp) (v z : Word) : Prop :=
  ∀ x ∈ (t.warp k).outs, x.id = id → ∀ y ∈ x.tgts, (y.key ∈ o.dst → y.val = some v) ∧
    (y.key ∉ o.dst → (∃ p ∈ os, y.key ∈ p.dst) → y.val = some z)

/-! ## The Skidder, folds and streams (R252 to R275) -/

/-- An engine word with nothing to do: its run ends, and the warp goes on at the next word (R253, R285). -/
def LeftEngine (s t : State) (k : Ctl) : Prop :=
  t = s.setMe { atNext s.me k with status := if k.sw then .parked else .ready, running := false, req := none }

/-- The warp waits in its word for an engine, which goes on with the operands vals that the word had when it issued. -/
def HandedOver (s t : State) (k : Ctl) (i : Instr) (z : Status) (vals : List Nat) : Prop :=
  t = s.setMe { s.me with
    status := z, running := false
    req := some { instr := i, pc := s.me.pc, exec := s.me.eff k, fmt := s.me.fmt, xv := s.me.xv, vals } }

/-- Nothing but fold n of a team has changed. -/
structure FoldOnly (s u : State) (tk n : Nat) : Prop where
  machine : u = { s with teams := u.teams }
  teams : ∀ y, y ≠ tk → u.team y = s.team y
  team : u.team tk = { s.team tk with folds := (u.team tk).folds }
  folds : ∀ m, m ≠ n → u.fold tk m = s.fold tk m

/-- Nothing but stream n of a team has changed. -/
structure StreamOnly (s u : State) (tk n : Nat) : Prop where
  machine : u = { s with teams := u.teams }
  teams : ∀ y, y ≠ tk → u.team y = s.team y
  team : u.team tk = { s.team tk with streams := (u.team tk).streams }
  streams : ∀ m, m ≠ n → (u.team tk).stream m = (s.team tk).stream m

/-! ## The matrix engine (R100, R285, R337 to R343) -/

/-- An exact value, with the flags that forming it raised, rounded once into f under RNE (R340). -/
def near (f : FpFmt) (v : Num × Flags) : Nat × Flags :=
  let y := roundTo f v.1 0 false 0
  (y.1, v.2 ||| y.2)

/-- The exact sum t of a group of products, with its flags (R100, R102). -/
structure GroupSum (ps : List (Num × Flags)) (t : Num × Flags) : Prop where
  flags : ∀ i, t.2.getLsbD i = true ↔ (∃ p ∈ ps, p.2.getLsbD i = true) ∨
    (Num.inf false ∈ ps.map Prod.fst ∧ Num.inf true ∈ ps.map Prod.fst ∧ fIV.getLsbD i = true)
  nan : (∃ p ∈ ps, p.1.isNan = true) ∨ (Num.inf false ∈ ps.map Prod.fst ∧ Num.inf true ∈ ps.map Prod.fst) → t.1 = defaultNan
  inf : ∀ n, (∀ p ∈ ps, p.1.isNan = false ∧ p.1 ≠ .inf !n) → Num.inf n ∈ ps.map Prod.fst → t.1 = .inf n
  fin : ps ≠ [] → (∀ p ∈ ps, p.1.isNan = false ∧ p.1.isInf = false) → ∃ n m e, t.1 = .fin n m e ∧
    t.1.val = (ps.map fun p => p.1.val).sum ∧ (t.1.val = 0 → (n = true ↔ ∀ p ∈ ps, p.1.isZero = true ∧ p.1.neg? = true))

/-- From acc an element comes to res over n groups of g products (R100): each group's exact sum is rounded once, and added to
the accumulator under one rounding. fl has the flags that this raises. -/
def Accumulated (f : FpFmt) (g n : Nat) (prod : Nat → Num × Flags) (acc res : Nat) (fl : Flags) : Prop :=
  ∃ (a : Nat → Nat) (t : Nat → Num × Flags),
    let x (i : Nat) : Nat × Flags := near f (t i)
    let y (i : Nat) : Nat × Flags := near f (addNum false (f.decode (a i)) (f.decode (x i).1))
    a 0 = acc ∧ a n = res ∧
    (∀ i, i < n → GroupSum ((List.range g).map fun j => prod (g * i + j)) (t i) ∧ a (i + 1) = (y i).1) ∧
    ∀ b, fl.getLsbD b = true ↔ ∃ i, i < n ∧ ((x i).2 ||| (y i).2).getLsbD b = true

/-- The code of the breakdown check of step j, 0 where it finds none (R341). -/
structure Breaks (f : FpFmt) (kind n j : Nat) (a : Nat → Nat → Nat) (code : Nat) : Prop where
  known : code = 0 ∨ code = 1 ∨ code = 2 ∨ code = 3
  special : code = 3 ↔ ∃ i, (if kind = 2 then j ≤ i ∧ i < n else i = j) ∧
    ((f.decode (a i j)).isNan = true ∨ (f.decode (a i j)).isInf = true)
  low : code = 1 ↔ code ≠ 3 ∧ kind = 0 ∧ ((f.decode (a j j)).isZero = true ∨ (f.decode (a j j)).neg? = true)
  zero : code = 2 ↔ code ≠ 3 ∧ kind ≠ 0 ∧ ∀ i, (if kind = 2 then j ≤ i ∧ i < n else i = j) → (f.decode (a i j)).isZero = true

/-- Row p holds step j's candidate of largest magnitude, the lowest such row (R341). -/
def PivotOf (f : FpFmt) (n j : Nat) (a : Nat → Nat → Nat) (p : Nat) : Prop :=
  j ≤ p ∧ p < n ∧ ∀ i, j ≤ i → i < n →
    let c := cmpNum (f.decode (a i j)).abs (f.decode (a p j)).abs
    c = some .lt ∨ c = some .eq ∧ p ≤ i

/-- Element (i, k) after step j of a factorisation with pivot row p, from the elements before it, and its flags (R340). -/
def stepElem (f : FpFmt) (kind j p : Nat) (a : Nat → Nat → Nat) (i k : Nat) : Nat × Flags :=
  let b (x y : Nat) : Nat := a (if x = j then p else if x = p then j else x) y
  let d : Nat × Flags := if kind = 0 then near f (sqrtNum (f.decode (b j j))) else (b j j, 0#6)
  let q (x : Nat) : Nat × Flags := near f (divNum (f.decode (b x j)) (f.decode d.1))
  if i = j ∧ k = j then d
  else if k = j ∧ j < i then q i
  else if j < i ∧ j < k ∧ (kind = 2 ∨ k ≤ i) then
    let y := if kind = 0 then (q k).1 else if kind = 1 then b k j else b j k
    near f (fmaNum false (negKeep (f.decode (q i).1)) (f.decode y) (f.decode (b i k)))
  else (b i k, 0#6)

/-- A matrix of order n factorised in place from a to r (R340, R341), with its pivots, the code and step of its breakdown (0 and
0 for none), and the flags: A goes through its steps, and m of them are done. -/
def Factorised (f : FpFmt) (kind n : Nat) (a r : Nat → Nat → Nat) (piv : Nat → Nat) (code stop : Nat) (fl : Flags) : Prop :=
  ∃ (A : Nat → Nat → Nat → Nat) (m : Nat), m ≤ n ∧ (∀ i k, i < n → k < n → A 0 i k = a i k) ∧
    (∀ j, j < m → Breaks f kind n j (A j) 0 ∧ (if kind = 2 then PivotOf f n j (A j) (piv j) else piv j = j) ∧
      ∀ i k, i < n → k < n → A (j + 1) i k = (stepElem f kind j (piv j) (A j) i k).1) ∧
    (m = n → code = 0 ∧ stop = 0) ∧ (m < n → code ≠ 0 ∧ stop = m ∧ Breaks f kind n m (A m) code) ∧
    (∀ i, m ≤ i → i < n → piv i = i) ∧
    (∀ i k, i < n → k < n → r i k = if m = n ∧ kind ≠ 2 ∧ i < k then 0 else A m i k) ∧
    ∀ b, fl.getLsbD b = true ↔
      ∃ j i k, j < m ∧ i < n ∧ k < n ∧ (stepElem f kind j (piv j) (A j) i k).2.getLsbD b = true

/-- s after s := fma(-q(k), b(k), s) for each k of a list in turn (R343). -/
def fmaChain (f : FpFmt) (q b : Nat → Nat) (ks : List Nat) (s : Nat) : Nat × Flags :=
  ks.foldl (fun x k =>
    let y := near f (fmaNum false (negKeep (f.decode (q k))) (f.decode (b k)) (f.decode x.1))
    (y.1, x.2 ||| y.2)) (s, 0#6)

/-- One column solved in place from b to r with the factor q (R343); form 6 makes the exchanges that the pivots give (log 33
where a byte names no row). -/
def Solved (f : FpFmt) (form n : Nat) (q : Nat → Nat → Nat) (piv b r : Nat → Nat) (fl : Flags) : Prop :=
  let g (i k : Nat) : Nat := if form = 2 ∨ form = 3 then q k i else q i k
  let ks (i : Nat) : List Nat :=
    if form = 5 then [] else if form < 2 then List.range i else (List.range n).filter fun k => decide (i < k)
  let s (i : Nat) : Nat × Flags := fmaChain f (g i) r (ks i) (b i)
  let out (i : Nat) : Nat × Flags :=
    if form = 1 ∨ form = 3 then s i
    else
      let y := near f (divNum (f.decode (s i).1) (f.decode (q i i)))
      (y.1, (s i).2 ||| y.2)
  if form < 6 then
    (∀ i, i < n → r i = (out i).1) ∧ ∀ x, fl.getLsbD x = true ↔ ∃ i, i < n ∧ (out i).2.getLsbD x = true
  else
    fl = 0#6 ∧ ((∀ j, j < n → piv j < n) → ∃ B : Nat → Nat → Nat, (∀ i, i < n → B 0 i = b i ∧ r i = B n i) ∧
      ∀ i j, i < n → j < n → B (j + 1) i =
        if j < piv j then B j (if i = j then piv j else if i = piv j then j else i) else B j i)

/-- Warp k has trapped in the word that it waited in to be accepted: precisely, and without effect (R285, R337). -/
structure AcceptTrapped (s t : State) (k : Nat) (x : Trp) : Prop where
  machine : t = { s with warps := t.warps, cores := t.cores }
  others : ∀ y, y ≠ k → t.warp y = s.warp y
  cores : ∀ c, t.core c = { s.core c with tfu := (t.core c).tfu }
  warp : let w := s.warp k
    t.warp k = { w with
      trap := { tpc := w.pc, thdr := w.hdr, texec := w.exec, tfmt := w.fmt, tmask := x.mask, taddr := x.addr
                tinfo := x.info, tcause := BitVec.ofNat 32 (w.stack.length % 32 * 65536 + x.cause % 256 * 256 + x.kind % 256) }
      exec := if x.kind = 4 ∨ x.kind = 6 ∨ x.kind = 7 ∨ x.kind = 8 then x.mask else w.exec
      fmt := 0x21#32
      priv := true
      pc := (s.ctx w.ctx).tvec + BitVec.ofNat 64 (128 * x.kind)
      left := 0, rewait := false, running := false, fetching := true, req := none, status := .ready }

/-- Word c of warp k is accepted as e, the last word of its core's engine, into the warp's current batch; the warp goes on, with
seeds sd (R285, R297). -/
structure AcceptedAs (s t : State) (core k : Nat) (c : Captured) (e : EngWord) (sd : Tbl Word) : Prop where
  eng : (t.core core).eng = (s.core core).eng ++ [e]
  slot : warpKey core e.slot = k
  word : e.word = { c with got := [] }
  batch : e.batch = (s.warp k).win.bseq
  memory : SameMemory s t
  warp : t.warp k = { s.warp k with
    pc := (s.warp k).pc + 8#64, left := (s.warp k).left - 1, rewait := false, running := false, req := none
    status := afterMark c.ctl.sw, seeds := sd, monitor := (t.warp k).monitor }

end Sys2Proof.Machine
end

