-- ==== Sys2Proof/Certificates/Slice0/Obligations.lean ====
section
/-! DEFINITION. The statements for the provers. Each docstring names the rules of the spec that it rests on. -/

open Sys2Proof Sys2Proof.Machine

/-! ## Encodings (R46 to R72) -/

/-- Words of the spec, one of each format and of several families, decode to what they stand for: NOP (R119), the
listing's loop branch (R65), LD.32.ro v1, g1[lane] (R63), the region's SPLIT and SETFMT (R113), JOIN (R106), and TRET.
-/
def Obligations.DecodeWords : Prop :=
  decode 0x0001FFFFFFFFE000#64 = .ok (.nop plainCtl ⟨.none, .none, .none, .none, 0#4, 0#5, 0#4⟩) ∧
  decode 0x0003FF00FFFFFFE1#64 = .ok (.bra plainCtl ⟨.none, 0#8, 0xFFFFFFE1#32⟩) ∧
  decode 0x00C0013B00005000#64 =
    .ok (.ld plainCtl ⟨.v 1, 1#3, .sp .lane, 0#12, 2#3, 4#3, 0#2, 0#4, 0#4⟩) ∧
  decode 0x440DFF0000070004#64 = .ok (.split ⟨false, true, 1#4, false⟩ ⟨.none, 0#8, 0x00070004#32⟩) ∧
  decode 0x001BFF0000000421#64 = .ok (.setfmt plainCtl ⟨.none, 0#8, 0x421#32⟩) ∧
  decode 0x000FFF0000000000#64 = .ok (.join plainCtl ⟨.none, 0#8, 0#32⟩) ∧
  decode 0x01A3FF0000000000#64 = .ok (.tret plainCtl ⟨.none, 0#8, 0#32⟩) ∧
  decode 0#64 = .error .refusedFields

/-- Encoding a well-formed instruction and decoding the word gives it back, whatever its operands. -/
def Obligations.DecodeEncode : Prop :=
  ∀ i : Instr, i.WellFormed → decode (encode i) = .ok i

/-- Every word that decodes is the encoding of a well-formed instruction: no bit of it is ignored (R72). -/
def Obligations.EncodeDecode : Prop :=
  ∀ (w : Dword) (i : Instr), decode w = .ok i → i.WellFormed ∧ encode i = w

/-- The unassigned opcodes are 0xE0 to 0xEF and the dashes of R69, and no other is refused as unassigned. No word passes
as both a header and an instruction (R47). -/
def Obligations.RefusedWords : Prop :=
  (∀ w : Dword, decode w = .error .unassigned ↔
     let op := (w >>> 49).toNat % 256
     op = 0x0F ∨ op = 0x4F ∨ (0x59 ≤ op ∧ op ≤ 0x5F) ∨ (0x70 ≤ op ∧ op ≤ 0x7F) ∨ (0x8C ≤ op ∧ op ≤ 0x8F) ∨ op = 0x9F ∨
       (0xAD ≤ op ∧ op ≤ 0xAF) ∨ op = 0xB6 ∨ op = 0xB7 ∨ (0xC5 ≤ op ∧ op ≤ 0xC7) ∨ (0xCC ≤ op ∧ op ≤ 0xCF) ∨
       (0xDD ≤ op ∧ op ≤ 0xEF)) ∧
  (∀ w : Dword, w >>> 60 = 0b1010#64 → ∃ r, decode w = .error r)

/-! ## Steps and traps (R66, R71, R379 to R385, R414) -/

/-- When the word at the program counter of the warp that a scheduler runs decodes to an instruction, the step is that
instruction's, run for that warp, after which what needs no turn settles; a word that decodes to none takes the
illegal-instruction trap with the word's low half in TINFO (R71 orders 1 to 3). That the scheduler is the one whose turn
it is, is the model's order of turns (log 1). -/
def Obligations.StepRunsWord : Prop :=
  ∀ (s : State) (core sched k : Nat) (w : Dword),
    s.mgmt.stopped = false → s.nextTurn = .word core sched → s.runner core sched = some k →
    let u := s.beginStep.asIssuer k
    u.me.pc.toNat % 8 = 0 → u.codeFetch u.me u.me.pc = .ok w →
    (∀ i, decode w = .ok i → step s = settleOutcome (exec i u)) ∧
    (∀ r, decode w = .error r → step s = settleOutcome (.next (u.takeTrap
      { kind := 1, mask := u.me.eff (ctlOf w), info := w.setWidth 32 })))

/-- A module that is not stopped always takes a step; one that Birseob has stopped takes none but leaving D3cold, which
boots it anew (R414, R408). -/
def Obligations.EveryStepAnswers : Prop :=
  ∀ s : State, (s.mgmt.stopped = false → Safe s) ∧
    (s.mgmt.stopped = true → (∀ failed, s.nextTurn ≠ .event (.d3coldExit failed)) → step s = .fault .moduleStopped) ∧
    (∀ failed, s.bootCan failed = true → s.mgmt.stopped = true → s.nextTurn = .event (.d3coldExit failed) →
      ∃ t, step s = .next t ∧ t.mgmt.stopped = false ∧ t.mgmt.ready = decide (failed = 0))

/-- A trap at PRIV = 0 enters its handler (R379): TPC, THDR, TEXEC, TFMT, TMASK, TCAUSE, TADDR and TINFO are saved, EXEC
becomes TMASK for the kinds alignment, page, class and privilege, FMT its reset value, PRIV 1, and the PC TVEC + 128
kind; predicates, registers, the reconvergence stack and all else are left as they are. A trap at PRIV = 1 is the
violation of cause 3 (R379, R384): the warp freezes at its word, and a FAULTREC record with the word's address joins the
context's queue, or raises MORE of the oldest where 16 are queued (R385). That the record's address is the word's is the
model's reading (log 39). -/
def Obligations.TakingATrap : Prop :=
  (∀ (s : State) (x : Trp) (back : Dword), s.me.priv = false → Trapped s (s.takeTrapAt x back) x back false) ∧
  (∀ (s : State) (x : Trp) (back : Dword), s.me.priv = true → Frozen s (s.takeTrapAt x back) 3 s.me.pc)

/-- The checks of R71 in their order, for every instruction word: fields and operands, then class bit and place in the
clause, then privilege, then agreement of the lanes, then, for a word that nothing holds back, the hazard of R55. The
first that applies decides the trap. R71 does not say where a word that must wait stands in that order: that it waits, and
leaves the state as it is, before its hazard is looked for is the model's choice (log 81). -/
def Obligations.IssueChecksInOrder : Prop :=
  ∀ (s : State) (i : Instr) (x : Sys2Proof.View), i.view = some x →
    let k := x.ctl
    let e := s.me.eff k
    let fields := legal i = true ∧ allocOk s.me (sig i) = true ∧ dynLegal s.me i = true ∧
      tableLegal (s.team s.me.teamKey) i = true
    let clause := (∀ b, classBit x.op = some b → s.me.cmask.getLsbD b = true) ∧ (mustBeLast i = true → s.me.left = 1)
    let privilege := lacksPrivilege s s.me i = false
    (¬fields → exec i s = .next (s.takeTrap { kind := 1, mask := e, info := (encode i).setWidth 32 })) ∧
    (fields → ¬clause → exec i s = .next (s.takeTrap { kind := 2, mask := e })) ∧
    (fields → clause → ¬privilege → exec i s = .next (s.takeTrap { kind := 4, mask := e })) ∧
    (fields → clause → privilege → partialMask s.me k i = true →
      exec i s = .next (s.takeTrap { kind := 3, mask := e, info := e })) ∧
    (fields → clause → privilege → partialMask s.me k i = false → mustWait s.me k i = true → exec i s = .next s) ∧
    (fields → clause → privilege → partialMask s.me k i = false → mustWait s.me k i = false →
      ctxStrict (s.ctx s.me.ctx) = true → ∀ c, hazard s s.me k i = some c →
        exec i s = .next (s.takeTrap { kind := 5, mask := e, info := BitVec.ofNat 32 c }))

/-- TRAP and SVC (R382): taken, they trap with kind 15 or 16, TPC the address of the next word and TINFO their FUNC
code; under an empty effective mask with a guard they do nothing. -/
def Obligations.TrapAndService : Prop :=
  ∀ (s : State) (k : Ctl) (f : CFields),
    (Issues s k (.trap k f) → s.me.priv = false → ∃ t, exec (.trap k f) s = .next t ∧
      if s.me.acts k then Trapped s t { kind := 15, mask := s.me.eff k, info := f.func.setWidth 32 } (s.me.pc + 8#64) k.sw
      else FellThrough s t k ∧ SameDivergence s t) ∧
    (Issues s k (.svc k f) → s.me.priv = false → ∃ t, exec (.svc k f) s = .next t ∧
      if s.me.acts k then Trapped s t { kind := 16, mask := s.me.eff k, info := f.func.setWidth 32 } (s.me.pc + 8#64) k.sw
      else FellThrough s t k ∧ SameDivergence s t)

/-- TRET (R382): at the depth of entry it restores EXEC and FMT, clears PRIV and goes on at TPC: after TRAP and SVC as
at a transfer target, and otherwise under the header at THDR, whose wait condition is evaluated again, with the words of
that clause that are left (R66), or at the header itself where TPC is its address. At another depth it is violation 8,
and where TFMT holds a value that R96 reserves, which FMT never takes, violation 3, being a trap of the supervisor (R379).
That the record of either violation holds the word's address is the model's reading (log 39). -/
def Obligations.TrapReturn : Prop :=
  ∀ (s : State) (k : Ctl) (f : CFields), Issues s k (.tret k f) →
    let x := s.me.trap
    let kind := x.tcause.toNat % 256
    let same := x.tcause.toNat / 65536 % 32 = s.me.stack.length
    (¬same → ∃ t, exec (.tret k f) s = .next t ∧ Frozen s t 8 s.me.pc) ∧
    (same → fmtLegal x.tfmt = false → ∃ t, exec (.tret k f) s = .next t ∧ Frozen s t 3 s.me.pc) ∧
    (same → fmtLegal x.tfmt = true → ((kind = 15 ∨ kind = 16) ∧ HeaderAt s x.tpc) ∨ (kind ≠ 15 ∧ kind ≠ 16 ∧ x.tpc = x.thdr) →
      ∃ t, exec (.tret k f) s = .next t ∧ Returned s t k ∧ t.me.left = 0 ∧ t.me.rewait = false ∧ t.me.hdr = s.me.hdr) ∧
    (same → fmtLegal x.tfmt = true → kind ≠ 15 → kind ≠ 16 → x.tpc ≠ x.thdr → ∀ h, s.codeFetch s.me x.thdr = .ok h →
      ∃ t, exec (.tret k f) s = .next t ∧ Returned s t k ∧ t.me.hdr = x.thdr ∧ t.me.rewait = true ∧
        t.me.cmask = (headerOf h).cls ∧
        t.me.left = (headerOf h).count.toNat + 1 - ((x.tpc - x.thdr).toNat / 8 - 1))

/-! ## Integer words (R120 to R135) -/

/-- MOV, MOVK and SEL (R124). IADD and ISUB (R125): each element, modulo 2^w, or clamped with .sat. IMUL, IMULH and IMAD
(R126). -/
def Obligations.MovesAndArithmetic : Prop :=
  (∀ (s : State) (k : Ctl),
     (∀ f, Issues s k (.mov k f) → ∃ t, exec (.mov k f) s = .next t ∧
       (if f.ty = 3#4 then Wrote64 s t k f.d 0#6 fun l => rd64 s s.me f.a l
        else Wrote32 s t k f.d 0#6 fun l => rd s s.me f.a l)) ∧
     (∀ f, Issues s k (.movk k f) → ∃ t, exec (.movk k f) s = .next t ∧
       (if f.func = 0#8 then Wrote32 s t k f.d 0#6 fun _ => f.imm
        else if f.func = 1#8 then Wrote64 s t k f.d 0#6 fun _ => f.imm.signExtend 64
        else Wrote64 s t k f.d 0#6 fun _ => f.imm.setWidth 64)) ∧
     (∀ f, Issues s k (.sel k f) → ∃ t, exec (.sel k f) s = .next t ∧
       Wrote32 s t k f.d 0#6 fun l =>
         if s.me.pred (regNum f.c) l = f.mod.getLsbD 0 then rd s s.me f.b l else rd s s.me f.a l)) ∧
  (∀ (s : State) (k : Ctl) (f : VFields),
     (Issues s k (.iadd k f) → ∃ t, exec (.iadd k f) s = .next t ∧
       WroteElems s t k f (decide (f.mod = 1#4)) fun x y => x + y) ∧
     (Issues s k (.isub k f) → ∃ t, exec (.isub k f) s = .next t ∧
       WroteElems s t k f (decide (f.mod = 1#4)) fun x y => x - y)) ∧
  (∀ (s : State) (k : Ctl) (f : VFields),
     (Issues s k (.imul k f) → ∃ t, exec (.imul k f) s = .next t ∧
       Wrote32 s t k f.d 0#6 fun l => rd s s.me f.a l * rd s s.me f.b l) ∧
     (Issues s k (.imulh k f) → ∃ t, exec (.imulh k f) s = .next t ∧
       Wrote32 s t k f.d 0#6 fun l =>
         if f.ty = 2#4 then (((rd s s.me f.a l).signExtend 64 * (rd s s.me f.b l).signExtend 64) >>> 32).setWidth 32
         else (((rd s s.me f.a l).setWidth 64 * (rd s s.me f.b l).setWidth 64) >>> 32).setWidth 32) ∧
     (Issues s k (.imad k f) → ∃ t, exec (.imad k f) s = .next t ∧
       Wrote32 s t k f.d 0#6 fun l => rd s s.me f.a l * rd s s.me f.b l + rd s s.me f.c l))

/-- IMIN, IMAX, IABS and INEG (R127): b32 compares as signed; IABS and INEG wrap, or with .sat clamp the most negative
element and set ST, which nothing else does. ISAT and ICVT (R133, R135): a clamp to n bits, and a conversion of integer
width; ST rises where a lane of effective was clamped. -/
def Obligations.IntegerRanges : Prop :=
  (∀ (s : State) (k : Ctl) (f : VFields),
     let n := typeWidth f.ty.toNat
     let sg := typeSigned f.ty.toNat || f.ty == 0#4
     let el (o : Operand) (l e : Nat) : Nat := elemAt (rd s s.me o l).toNat n e
     (Issues s k (.imin k f) → ∃ t, exec (.imin k f) s = .next t ∧ ∃ g, Wrote32 s t k f.d 0#6 g ∧
       ∀ l e, l < 32 → e < 32 / n → elemAt (g l).toNat n e =
         if asInt sg n (el f.a l e) ≤ asInt sg n (el f.b l e) then el f.a l e else el f.b l e) ∧
     (Issues s k (.imax k f) → ∃ t, exec (.imax k f) s = .next t ∧ ∃ g, Wrote32 s t k f.d 0#6 g ∧
       ∀ l e, l < 32 → e < 32 / n → elemAt (g l).toNat n e =
         if asInt sg n (el f.b l e) ≤ asInt sg n (el f.a l e) then el f.a l e else el f.b l e) ∧
     let ranged (t : State) (v : Int → Int) : Prop := ∃ fl g, Wrote32 s t k f.d fl g ∧
       (∀ l e, l < 32 → e < 32 / n →
         elemAt (g l).toNat n e = elemBitsOf (decide (f.mod = 1#4)) true n (v (asInt true n (el f.a l e)))) ∧
       (fl = fST ∨ fl = 0#6) ∧
       (fl = fST ↔ f.mod = 1#4 ∧ ∃ l e, l < 32 ∧ (s.me.eff k).getLsbD l = true ∧ e < 32 / n ∧
         asInt true n (el f.a l e) = -(2 ^ (n - 1) : Int))
     (Issues s k (.iabs k f) → ∃ t, exec (.iabs k f) s = .next t ∧ ranged t fun x => x.natAbs) ∧
     (Issues s k (.ineg k f) → ∃ t, exec (.ineg k f) s = .next t ∧ ranged t fun x => -x)) ∧
  (∀ (s : State) (k : Ctl) (f : VFields),
     let wide' (ty : Nat) (o : Operand) (l : Nat) : Int :=
       match ty with
       | 1 => (rd s s.me o l).toNat
       | 2 => (rd s s.me o l).toInt
       | 3 => (rd64 s s.me o l).toNat
       | _ => (rd64 s s.me o l).toInt
     let n (l : Nat) : Nat :=
       let x := ((rd s s.me f.b l).extractLsb' 0 6).toNat
       if x = 0 ∨ 32 < x then 32 else x
     let v (l : Nat) : Int := wide' f.minor.toNat f.a l
     let w := typeWidth f.ty.toNat
     let sg := typeSigned f.ty.toNat
     let y (l : Nat) : Int := if f.mod = 1#4 then clampTo sg w (v l) else v l
     (Issues s k (.isat k f) → ∃ t, exec (.isat k f) s = .next t ∧ ∃ fl, (fl = fST ∨ fl = 0#6) ∧
       Wrote32 s t k f.d fl (fun l => BitVec.ofInt 32 (clampTo (decide (f.ty = 2#4)) (n l) (rd s s.me f.a l).toInt)) ∧
       (fl = fST ↔ ∃ l, l < 32 ∧ (s.me.eff k).getLsbD l = true ∧
         OutOfRange (decide (f.ty = 2#4)) (n l) (rd s s.me f.a l).toInt)) ∧
     (Issues s k (.icvt k f) → ∃ t, exec (.icvt k f) s = .next t ∧ ∃ fl, (fl = fST ∨ fl = 0#6) ∧
       (if 3 ≤ f.ty.toNat then Wrote64 s t k f.d fl fun l => BitVec.ofInt 64 (y l)
        else Wrote32 s t k f.d fl fun l => BitVec.ofInt 32 (y l)) ∧
       (fl = fST ↔ f.mod = 1#4 ∧ ∃ l, l < 32 ∧ (s.me.eff k).getLsbD l = true ∧ OutOfRange sg w (v l))))

/-- AND, OR, XOR, ANDN, SHL, SHR, SAR and ROT (R128): a shift by 32 or more leaves zeros or copies of the sign. BFX,
BFI, BPERM, POPC, CLZ and BREV (R129 to R131), bit by bit. -/
def Obligations.BitsAndShifts : Prop :=
  (∀ (s : State) (k : Ctl) (f : VFields),
     let a (l : Nat) : Word := rd s s.me f.a l
     let b (l : Nat) : Word := rd s s.me f.b l
     (Issues s k (.and k f) → ∃ t, exec (.and k f) s = .next t ∧ Wrote32 s t k f.d 0#6 fun l => a l &&& b l) ∧
     (Issues s k (.or k f) → ∃ t, exec (.or k f) s = .next t ∧ Wrote32 s t k f.d 0#6 fun l => a l ||| b l) ∧
     (Issues s k (.xor k f) → ∃ t, exec (.xor k f) s = .next t ∧ Wrote32 s t k f.d 0#6 fun l => a l ^^^ b l) ∧
     (Issues s k (.andn k f) → ∃ t, exec (.andn k f) s = .next t ∧ Wrote32 s t k f.d 0#6 fun l => a l &&& ~~~b l) ∧
     (Issues s k (.shl k f) → ∃ t, exec (.shl k f) s = .next t ∧
       Wrote32 s t k f.d 0#6 fun l => if b l < 32#32 then a l <<< (b l).toNat else 0#32) ∧
     (Issues s k (.shr k f) → ∃ t, exec (.shr k f) s = .next t ∧
       Wrote32 s t k f.d 0#6 fun l => if b l < 32#32 then a l >>> (b l).toNat else 0#32) ∧
     (Issues s k (.sar k f) → ∃ t, exec (.sar k f) s = .next t ∧
       Wrote32 s t k f.d 0#6 fun l =>
         if b l < 32#32 then (a l).sshiftRight (b l).toNat else if (a l).msb then 0xFFFFFFFF#32 else 0#32) ∧
     (Issues s k (.rot k f) → ∃ t, exec (.rot k f) s = .next t ∧ ∃ g, Wrote32 s t k f.d 0#6 g ∧
       ∀ l i, l < 32 → i < 32 → (g l).getLsbD i =
         if f.mod = 1#4 then (a l).getLsbD ((i + (b l).toNat) % 32)
         else (a l).getLsbD ((i + 32 - (b l).toNat % 32) % 32))) ∧
  (∀ (s : State) (k : Ctl) (f : VFields),
     let a (l : Nat) : Word := rd s s.me f.a l
     let b (l : Nat) : Word := rd s s.me f.b l
     let c (l : Nat) : Word := rd s s.me f.c l
     let pos (x : Word) : Nat := (x.extractLsb' 0 8).toNat
     let len (x : Word) : Nat := (x.extractLsb' 8 8).toNat
     let none' (x : Word) : Prop := 32 ≤ pos x ∨ len x = 0
     let m (x : Word) : Nat := min (len x) (32 - pos x)
     (Issues s k (.bfx k f) → ∃ t, exec (.bfx k f) s = .next t ∧ ∃ g, Wrote32 s t k f.d 0#6 g ∧
       ∀ l i, l < 32 → i < 32 → (none' (b l) → (g l).getLsbD i = false) ∧
         (¬none' (b l) → i < m (b l) → (g l).getLsbD i = (a l).getLsbD (pos (b l) + i)) ∧
         (¬none' (b l) → m (b l) ≤ i →
           (g l).getLsbD i = (decide (f.ty = 2#4) && (a l).getLsbD (pos (b l) + m (b l) - 1)))) ∧
     (Issues s k (.bfi k f) → ∃ t, exec (.bfi k f) s = .next t ∧ ∃ g, Wrote32 s t k f.d 0#6 g ∧
       ∀ l i, l < 32 → i < 32 → (none' (c l) → (g l).getLsbD i = (b l).getLsbD i) ∧
         (¬none' (c l) → (g l).getLsbD i =
           if pos (c l) ≤ i ∧ i < pos (c l) + m (c l) then (a l).getLsbD (i - pos (c l)) else (b l).getLsbD i)) ∧
     (Issues s k (.bperm k f) → ∃ t, exec (.bperm k f) s = .next t ∧ ∃ g, Wrote32 s t k f.d 0#6 g ∧
       ∀ l i, l < 32 → i < 4 →
         let n := elemAt (c l).toNat 4 i
         let x := elemAt (joinWords (a l) (b l)).toNat 8 (n % 8)
         elemAt (g l).toNat 8 i = if n < 8 then x else if 128 ≤ x then 255 else 0) ∧
     (Issues s k (.popc k f) → ∃ t, exec (.popc k f) s = .next t ∧
       Wrote32 s t k f.d 0#6 fun l => BitVec.ofNat 32 ((List.range 32).countP fun i => (a l).getLsbD i)) ∧
     (Issues s k (.clz k f) → ∃ t, exec (.clz k f) s = .next t ∧ ∃ g, Wrote32 s t k f.d 0#6 g ∧
       ∀ l, l < 32 → (g l).toNat ≤ 32 ∧ (∀ i, i < 32 → 32 ≤ i + (g l).toNat → (a l).getLsbD i = false) ∧
         ((g l).toNat < 32 → (a l).getLsbD (31 - (g l).toNat) = true)) ∧
     (Issues s k (.brev k f) → ∃ t, exec (.brev k f) s = .next t ∧ ∃ g, Wrote32 s t k f.d 0#6 g ∧
       ∀ l i, l < 32 → i < 32 → (g l).getLsbD i = (a l).getLsbD (31 - i)))

/-- PLOG (R116): `p[D][l] := MOD[2 × p[A][l] + p[B][l]]` in each lane of effective, with the old values read. PMOV
(R117): its four forms, in the lanes of effective. ICMP (R132): the condition on integers of TYPE, b32 as signed,
written by set, .and or .or. -/
def Obligations.Predicates : Prop :=
  (∀ (s : State) (k : Ctl) (f : VFields), Issues s k (.plog k f) →
     ∃ t, exec (.plog k f) s = .next t ∧ WrotePred s t k (regNum f.d) 0#6 fun l =>
       f.mod.getLsbD (2 * (s.me.pred (regNum f.a) l).toNat + (s.me.pred (regNum f.b) l).toNat)) ∧
  (∀ (s : State) (k : Ctl) (f : VFields), Issues s k (.pmov k f) →
     ∃ t, exec (.pmov k f) s = .next t ∧
       (f.minor = 0#5 → ∃ g, Wrote32 s t k f.d 0#6 g ∧
         ∀ l i, l < 32 → i < 32 → (g l).getLsbD i = (decide (i < 16) && s.me.pred i l)) ∧
       (f.minor = 1#5 → WordDone s t k ∧ (∀ key, t.me.getKey key = s.me.getKey key) ∧ t.me.fpstat = s.me.fpstat ∧
         ∀ n l, n < 16 → l < 32 →
           t.me.pred n l = if (s.me.eff k).getLsbD l then (rd s s.me f.a l).getLsbD n else s.me.pred n l) ∧
       (f.minor = 2#5 → WrotePred s t k (regNum f.d) 0#6 fun l => decide (rd s s.me f.a l ≠ 0#32)) ∧
       (f.minor = 3#5 → Wrote32 s t k f.d 0#6 fun l => if s.me.pred (regNum f.a) l then 1#32 else 0#32)) ∧
  (∀ (s : State) (k : Ctl) (f : VFields) (n : Fin 256), f.d = .v n → Issues s k (.icmp k f) →
     let x (o : Operand) (l : Nat) : Int :=
       match f.ty.toNat with
       | 1 => (rd s s.me o l).toNat
       | 3 => (rd64 s s.me o l).toNat
       | 4 => (rd64 s s.me o l).toInt
       | _ => (rd s s.me o l).toInt
     let c (l : Nat) : Bool :=
       match f.minor.toNat with
       | 0 => decide (x f.a l = x f.b l)
       | 1 => decide (x f.a l ≠ x f.b l)
       | 2 => decide (x f.a l < x f.b l)
       | 3 => decide (x f.a l ≤ x f.b l)
       | 4 => decide (x f.b l < x f.a l)
       | _ => decide (x f.b l ≤ x f.a l)
     ∃ t, exec (.icmp k f) s = .next t ∧
       WrotePred s t k n.val 0#6 fun l =>
         if f.mod = 0#4 then c l else if f.mod = 1#4 then s.me.pred n.val l && c l else s.me.pred n.val l || c l)

/-- IADD64, IMAD64 and LEA (R134). -/
def Obligations.WideArithmetic : Prop :=
  ∀ (s : State) (k : Ctl) (f : VFields),
    let ext (l : Nat) : Dword :=
      if f.minor = 0#5 then rd64 s s.me f.b l
      else if f.minor = 1#5 then (rd s s.me f.b l).setWidth 64 else (rd s s.me f.b l).signExtend 64
    let e32 (o : Operand) (l : Nat) : Dword :=
      if f.ty = 4#4 then (rd s s.me o l).signExtend 64 else (rd s s.me o l).setWidth 64
    (f.mod = 0#4 → Issues s k (.iadd64 k f) → ∃ t, exec (.iadd64 k f) s = .next t ∧
      Wrote64 s t k f.d 0#6 fun l => rd64 s s.me f.a l + ext l) ∧
    (f.mod = 1#4 → Issues s k (.iadd64 k f) → ∃ t, exec (.iadd64 k f) s = .next t ∧ ∃ fl,
      let sg := decide (f.ty = 4#4)
      let num (x : Dword) : Int := if sg then x.toInt else x.toNat
      let x (l : Nat) : Int := num (rd64 s s.me f.a l) +
        (if f.minor = 2#5 then (ext l).toInt else if f.minor = 1#5 then ((ext l).toNat : Int) else num (ext l))
      (fl = fST ∨ fl = 0#6) ∧ Wrote64 s t k f.d fl (fun l => BitVec.ofInt 64 (clampTo sg 64 (x l))) ∧
      (fl = fST ↔ ∃ l, l < 32 ∧ (s.me.eff k).getLsbD l = true ∧ OutOfRange sg 64 (x l))) ∧
    (Issues s k (.imad64 k f) → ∃ t, exec (.imad64 k f) s = .next t ∧
      Wrote64 s t k f.d 0#6 fun l => e32 f.a l * e32 f.b l + rd64 s s.me f.c l) ∧
    (Issues s k (.lea k f) → ∃ t, exec (.lea k f) s = .next t ∧
      Wrote64 s t k f.d 0#6 fun l =>
        rd64 s s.me f.a l +
          ((if f.minor = 0#5 then (rd s s.me f.b l).setWidth 64 else (rd s s.me f.b l).signExtend 64 : Dword) <<< f.mod.toNat))

/-! ## Control words (R103 to R119) -/

/-- BRA, BRX, CALL, CALLX, RET and SKIPZ taken (R108, R109): the warp goes on at the target; CALL and CALLX write their
link pair, and a CALLX with one pair reads its target first. No other register, and no part of EXEC, stack or FMT,
changes. A transfer that is not taken has no effect, and the warp continues at the next word (R108, R109): BRA, BRX,
CALL, CALLX and RET under a guard that no lane meets, and SKIPZ of a value other than zero. It checks no target (R65).
The checks of a taken transfer's target (R65), before any effect: alignment, then privilege (R369), then the page, then
that a header stands there. They report the effective lanes (log 21). -/
def Obligations.Transfers : Prop :=
  (∀ (s : State) (k : Ctl) (f : CFields),
     let rel : Dword := s.me.pc + 8#64 * f.target.signExtend 64
     let reg : Dword := rd64 s s.me f.src 0
     let plain (t : State) (va : Dword) : Prop := Jumped s t k va ∧ SameRegs s t ∧ SameDivergence s t
     let linked (t : State) (va : Dword) (n : Nat) : Prop := Jumped s t k va ∧ SameDivergence s t ∧
       t.me.preds = s.me.preds ∧ t.me.getSPair n = s.me.pc + 8#64 ∧ OtherRegs s t [s.me.sKey n, s.me.sKey (n + 1)]
     (Issues s k (.bra k f) → s.me.acts k = true → HeaderAt s rel → ∃ t, exec (.bra k f) s = .next t ∧ plain t rel) ∧
     (Issues s k (.brx k f) → s.me.acts k = true → HeaderAt s reg → ∃ t, exec (.brx k f) s = .next t ∧ plain t reg) ∧
     (Issues s k (.ret k f) → s.me.acts k = true → HeaderAt s reg → ∃ t, exec (.ret k f) s = .next t ∧ plain t reg) ∧
     (Issues s k (.call k f) → s.me.acts k = true → HeaderAt s rel →
       ∃ t, exec (.call k f) s = .next t ∧ linked t rel (regNum f.src)) ∧
     (Issues s k (.callx k f) → s.me.acts k = true → HeaderAt s reg →
       ∃ t, exec (.callx k f) s = .next t ∧ linked t reg f.func.toNat) ∧
     (Issues s k (.skipz k f) → rd s s.me f.src 0 = 0#32 → HeaderAt s rel →
       ∃ t, exec (.skipz k f) s = .next t ∧ plain t rel)) ∧
  (∀ (s : State) (k : Ctl) (f : CFields),
     let passed (i : Instr) : Prop := ∃ t, exec i s = .next t ∧ FellThrough s t k ∧ SameRegs s t ∧ SameDivergence s t
     (∀ i, i = .bra k f ∨ i = .brx k f ∨ i = .call k f ∨ i = .callx k f ∨ i = .ret k f →
       Issues s k i → s.me.acts k = false → passed i) ∧
     (Issues s k (.skipz k f) → rd s s.me f.src 0 ≠ 0#32 → passed (.skipz k f))) ∧
  (∀ (s : State) (k : Ctl) (f : CFields) (i : Instr) (va : Dword),
     (i = .bra k f ∧ va = s.me.pc + 8#64 * f.target.signExtend 64) ∨
       (i = .call k f ∧ va = s.me.pc + 8#64 * f.target.signExtend 64) ∨
       ((i = .brx k f ∨ i = .callx k f ∨ i = .ret k f) ∧ va = rd64 s s.me f.src 0) →
     Issues s k i → s.me.acts k = true →
     (va.toNat % 8 ≠ 0 → exec i s = .next (s.takeTrap { kind := 6, mask := s.me.eff k, addr := va })) ∧
     (va.toNat % 8 = 0 → s.me.priv = false → va.getLsbD 56 = true →
       exec i s = .next (s.takeTrap { kind := 4, mask := s.me.eff k, addr := va })) ∧
     (va.toNat % 8 = 0 → (s.me.priv = true ∨ va.getLsbD 56 = false) →
       (∀ c, s.translate (keyCore s.cur) s.me.ctx va needX = .error c →
         exec i s = .next (s.takeTrap { kind := 7, cause := c, mask := s.me.eff k, addr := va })) ∧
       (∀ p, s.translate (keyCore s.cur) s.me.ctx va needX = .ok p → isHeader (s.dwordAt p.key) = false →
         exec i s = .next (s.takeTrap { kind := 2, mask := s.me.eff k }))))

/-- SPLIT (R111): with 16 entries it traps and pushes nothing; else, both targets being headers, it pushes an entry and
the taken lanes, if any, run first. JOIN (R112): it restores FMT and switches to the pending path, or pops, after which
the accesses before it come before those after it (R114); without an entry whose JPC is its header it traps, and where
SFMT holds a value that R96 reserves it is an illegal instruction. -/
def Obligations.SplitAndJoin : Prop :=
  (∀ (s : State) (k : Ctl) (f : CFields), Issues s k (.split k f) →
     let w := s.me
     let t0 := w.eff k
     let rest := w.exec &&& ~~~t0
     let taken : Dword := w.pc + 8#64 * (f.target.setWidth 16 : BitVec 16).signExtend 64
     let join : Dword := w.pc + 8#64 * (f.target.extractLsb' 16 16).signExtend 64
     let entry (p : Mask) : StackEntry := { jpc := join, ppc := w.pc + 8#64, rmask := w.exec, pmask := p, sfmt := w.fmt }
     (16 ≤ w.stack.length → exec (.split k f) s = .next (s.takeTrap { kind := 11, mask := t0 })) ∧
     (w.stack.length < 16 → HeaderAt s taken → HeaderAt s join →
       ∃ t, exec (.split k f) s = .next t ∧ SameRegs s t ∧ t.me.fmt = w.fmt ∧
         (t0 ≠ 0#32 → Jumped s t k taken ∧ t.me.stack = entry rest :: w.stack ∧ t.me.exec = t0) ∧
         (t0 = 0#32 → FellThrough s t k ∧ t.me.stack = entry 0#32 :: w.stack ∧ t.me.exec = rest ∧ t.me.epoch = w.epoch))) ∧
  (∀ (s : State) (k : Ctl) (f : CFields), Issues s k (.join k f) →
     let w := s.me
     let bad := exec (.join k f) s = .next (s.takeTrap { kind := 3, mask := w.eff k, info := w.eff k })
     (w.stack = [] → bad) ∧
     (∀ e rest, w.stack = e :: rest →
       (w.hdr ≠ e.jpc → bad) ∧
       (w.hdr = e.jpc → fmtLegal e.sfmt = false → exec (.join k f) s = .next
         (s.takeTrap { kind := 1, mask := w.eff k, info := (encode (.join k f)).setWidth 32 })) ∧
       (w.hdr = e.jpc → fmtLegal e.sfmt = true → e.pmask ≠ 0#32 → ∃ t, exec (.join k f) s = .next t ∧ Jumped s t k e.ppc ∧ SameRegs s t ∧
         t.me.fmt = e.sfmt ∧ t.me.exec = e.pmask ∧ t.me.stack = { e with pmask := 0#32 } :: rest) ∧
       (w.hdr = e.jpc → fmtLegal e.sfmt = true → e.pmask = 0#32 → ∃ t, exec (.join k f) s = .next t ∧ FellThrough s t k ∧ SameRegs s t ∧
         t.me.fmt = e.sfmt ∧ t.me.exec = e.rmask ∧ t.me.stack = rest ∧ t.me.epoch = s.nextId)))

/-- EXRD and EXWR, for the warp as a whole whatever EXEC holds (R115): EXRD's destination is an s-register, written
where the word acts (R121). SETFMT and GETFMT, whatever EXEC holds (R118): a value that R96 reserves traps and leaves
FMT. NOP has no effect (R119). -/
def Obligations.WarpRegisters : Prop :=
  (∀ (s : State) (k : Ctl) (f : VFields),
     (Issues s k (.exrd k f) → ∃ t, exec (.exrd k f) s = .next t ∧ Wrote32 s t k f.d 0#6 fun _ =>
       if f.minor = 0#5 then s.me.exec
       else if f.minor = 1#5 then BitVec.ofNat 32 s.me.stack.length
       else
         match s.me.stack with
         | [] => 0#32
         | e :: _ => if f.minor = 2#5 then e.rmask else e.pmask) ∧
     (Issues s k (.exwr k f) → ∃ t, exec (.exwr k f) s = .next t ∧ SameRegs s t ∧ t.me.fpstat = s.me.fpstat ∧
       (∃ u, WordDone s u k ∧ t = u.setMe { u.me with exec := t.me.exec }) ∧
       t.me.exec =
         let a := rd s s.me f.a 0
         if f.minor = 0#5 then a else if f.minor = 1#5 then s.me.exec &&& a else if f.minor = 2#5 then s.me.exec ||| a
         else s.me.exec &&& ~~~a)) ∧
  (∀ (s : State) (k : Ctl) (f : VFields) (g : KFields),
     let x : Word :=
       if g.func = 0#8 then g.imm else if g.func = 1#8 then rd s s.me g.d 0
       else if g.func = 2#8 then s.me.fmt &&& g.imm else s.me.fmt ||| g.imm
     (Issues s k (.setfmt k g) → fmtLegal x = true → ∃ t, exec (.setfmt k g) s = .next t ∧ SameRegs s t ∧
       t.me.fmt = x ∧ t.me.fpstat = s.me.fpstat ∧ (∃ u, WordDone s u k ∧ t = u.setMe { u.me with fmt := t.me.fmt })) ∧
     (Issues s k (.setfmt k g) → fmtLegal x = false → exec (.setfmt k g) s = .next
       (s.takeTrap { kind := 1, mask := s.me.eff k, info := (encode (.setfmt k g)).setWidth 32 })) ∧
     (Issues s k (.getfmt k f) → ∃ t, exec (.getfmt k f) s = .next t ∧
       Wrote32 s t k f.d 0#6 fun _ => if f.minor = 0#5 then s.me.fmt else s.me.xv) ∧
     (Issues s k (.nop k f) → ∃ t, exec (.nop k f) s = .next t ∧ WordDone s t k ∧ SameRegs s t ∧
       t.me.seeds = s.me.seeds ∧ t.me.fpstat = s.me.fpstat))

/-! ## Numbers and floating-point words (R43, R44, R75, R89, R137 to R155) -/

/-- seed_next on every 32-bit s, with its worked values (R44). -/
def Obligations.SeedNext : Prop :=
  (∀ s : Word, seedNext s =
    let a := if s = 0#32 then 1#32 else s
    let b := a ^^^ (a <<< 13)
    let c := b ^^^ (b >>> 17)
    c ^^^ (c <<< 5)) ∧ seedNext 0#32 = 0x00042021#32 ∧ seedNext 1#32 = 0x00042021#32

/-- A value that a format holds is returned with no flag, whatever the mode, saturation and seed (R43), for every code
of every plain format that stands for a finite value, zeros with their signs and subnormals among them. The rounding
modes on a magnitude m × 2^e in units of 2^(e + n) (R43): RNE takes a nearest multiple, and the even one of two; RTZ,
RUP and RDN the one on their side; RS the lower one or the next as the seed's 32 bits decide. The result is exact where
m is a multiple. What those exact results are for finite operands, and the rules of R140: the exact sum and product,
zeros with their signs, the first NaN made quiet, and the invalid operations. -/
def Obligations.Rounding : Prop :=
  (∀ (f : FpFmt), f ∈ [fp64, fp32, f19, bf16, fp16, e4m3, e5m2, e3m2, e2m3, e2m1] →
     ∀ (c : Nat) (neg : Bool) (m : Nat) (e : Int) (mode : Nat) (sat : Bool) (seed : Nat), c < 2 ^ f.width →
       f.decode (c * 2 ^ f.shift) = .fin neg m e →
       roundTo f (.fin neg m e) mode sat seed = (c * 2 ^ f.shift, 0#6)) ∧
  (∀ (mode : Nat) (neg : Bool) (m : Nat) (e : Int) (n seed : Nat), 0 < n → seed < 2 ^ 32 →
     let q := (roundUnits mode neg m e (e + n) seed).1
     let lower := m / 2 ^ n
     let rest := m % 2 ^ n
     ((roundUnits mode neg m e (e + n) seed).2 = true ↔ rest = 0) ∧ (rest = 0 → q = lower) ∧
     (mode = 0 → rest ≠ 0 → (2 * q * 2 ^ n ≤ 2 * m + 2 ^ n ∧ 2 * m ≤ 2 * q * 2 ^ n + 2 ^ n) ∧
       (2 * rest = 2 ^ n → q % 2 = 0)) ∧
     (mode = 1 → q = lower) ∧
     (mode = 2 → rest ≠ 0 → q = if neg then lower else lower + 1) ∧
     (mode = 3 → rest ≠ 0 → q = if neg then lower + 1 else lower) ∧
     (mode = 4 → q = if 2 ^ 32 ≤ rest * 2 ^ 32 / 2 ^ n + seed then lower + 1 else lower)) ∧
  (let num (neg : Bool) (m : Nat) : Int := if neg then -(m : Int) else m
   (∀ rdn n1 m1 n2 m2 (e : Int), addNum rdn (.fin n1 m1 e) (.fin n2 m2 e) =
     let x := num n1 m1 + num n2 m2
     (if x = 0 then .fin (if n1 = n2 then n1 else rdn) 0 0 else .fin (decide (x < 0)) x.natAbs e, 0#6)) ∧
   (∀ n1 m1 e1 n2 m2 e2, mulNum (.fin n1 m1 e1) (.fin n2 m2 e2) = (.fin (n1 != n2) (m1 * m2) (e1 + e2), 0#6)) ∧
   (∀ rdn n q x b, addNum rdn (.nan n q x) b = ((Machine.Num.nan n q x).quieten, flagIf (!q || b.isSnan) fIV) ∧
     mulNum (.nan n q x) b = ((Machine.Num.nan n q x).quieten, flagIf (!q || b.isSnan) fIV)) ∧
   (∀ rdn n q x a, a.isNan = false → addNum rdn a (.nan n q x) = ((Machine.Num.nan n q x).quieten, flagIf (!q) fIV) ∧
     mulNum a (.nan n q x) = ((Machine.Num.nan n q x).quieten, flagIf (!q) fIV)) ∧
   (∀ rdn n, addNum rdn (.inf n) (.inf (!n)) = (defaultNan, fIV) ∧ addNum rdn (.inf n) (.inf n) = (.inf n, 0#6)) ∧
   (∀ n1 n2 e, mulNum (.inf n1) (.fin n2 0 e) = (defaultNan, fIV) ∧ mulNum (.fin n2 0 e) (.inf n1) = (defaultNan, fIV)) ∧
   (∀ rdn n1 n2 e n q x, fmaNum rdn (.inf n1) (.fin n2 0 e) (.nan n q x) = ((Machine.Num.nan n q x).quieten, fIV)))

/-- FADD, FSUB, FMUL, FFMA, DADD, DMUL and DFMA (R141): the exact result of each element, rounded once to the format of
TYPE; the result of a NaN, of an invalid operation and of exact zeros is that of R140. -/
def Obligations.FloatArithmetic : Prop :=
  ∀ (s : State) (k : Ctl) (f : VFields),
    let r := rndOf s s.me
    let ty := f.ty.toNat
    let x (i : Nat) (o : Operand) (l e : Nat) : Machine.Num :=
      let v := (fpType ty).1.decodeSrc r.dnf (elemAt (rdFp s s.me ty o l) (fpType ty).2.1 e)
      if f.mod.getLsbD i then v.negate else v
    let sum (l e : Nat) : Machine.Num × Flags := addNum (r.mode == 3) (x 0 f.a l e) (x 1 f.b l e)
    let diff (l e : Nat) : Machine.Num × Flags :=
      addNum (r.mode == 3) (x 0 f.a l e) (if (x 1 f.b l e).isNan then x 1 f.b l e else (x 1 f.b l e).negate)
    let prod (l e : Nat) : Machine.Num × Flags := mulNum (x 0 f.a l e) (x 1 f.b l e)
    let fused (l e : Nat) : Machine.Num × Flags := fmaNum (r.mode == 3) (x 0 f.a l e) (x 1 f.b l e) (x 2 f.c l e)
    (Issues s k (.fadd k f) → ∃ t, exec (.fadd k f) s = .next t ∧ WroteRounded s t k f sum) ∧
    (Issues s k (.fsub k f) → ∃ t, exec (.fsub k f) s = .next t ∧ WroteRounded s t k f diff) ∧
    (Issues s k (.fmul k f) → ∃ t, exec (.fmul k f) s = .next t ∧ WroteRounded s t k f prod) ∧
    (Issues s k (.ffma k f) → ∃ t, exec (.ffma k f) s = .next t ∧ WroteRounded s t k f fused) ∧
    (Issues s k (.dadd k f) → ∃ t, exec (.dadd k f) s = .next t ∧ WroteRounded s t k f sum) ∧
    (Issues s k (.dmul k f) → ∃ t, exec (.dmul k f) s = .next t ∧ WroteRounded s t k f prod) ∧
    (Issues s k (.dfma k f) → ∃ t, exec (.dfma k f) s = .next t ∧ WroteRounded s t k f fused)

/-- FMIN and FMAX (R142), element by element, with SEED left: the other operand of one NaN, A's of two made quiet, and
-0.0 below +0.0. FCMP and DCMP (R143): the condition, written by set, .and or .or, and invalid for any NaN under the
ordered relations and for a signalling NaN under the others. -/
def Obligations.FloatMinMaxAndCompare : Prop :=
  (∀ (s : State) (k : Ctl) (f : VFields),
     let ty := f.ty.toNat
     let fmt := (fpType ty).1
     let x (o : Operand) (l e : Nat) : Machine.Num :=
       fmt.decodeSrc (rndOf s s.me).dnf (elemAt (rdFp s s.me ty o l) (fpType ty).2.1 e)
     let wrote (max : Bool) (t : State) : Prop := ∃ g, WroteFp s t k f.d false g ∧ ∀ l sd,
       (∀ e, e < (fpType ty).2.2 → elemAt (g l sd).1 (fpType ty).2.1 e =
         (roundTo fmt (lesserOf max (x f.a l e) (x f.b l e)) 0 false 0).1 % 2 ^ (fpType ty).2.1) ∧
       ((g l sd).2.1 = fIV ∨ (g l sd).2.1 = 0#6) ∧
       ((g l sd).2.1 = fIV ↔ ∃ e, e < (fpType ty).2.2 ∧ ((x f.a l e).isSnan = true ∨ (x f.b l e).isSnan = true)) ∧
       (g l sd).2.2 = sd
     (Issues s k (.fmin k f) → ∃ t, exec (.fmin k f) s = .next t ∧ wrote false t) ∧
     (Issues s k (.fmax k f) → ∃ t, exec (.fmax k f) s = .next t ∧ wrote true t)) ∧
  (∀ (s : State) (k : Ctl) (f : VFields) (n : Fin 256), f.d = .v n →
     let ty := f.ty.toNat
     let x (o : Operand) (l : Nat) : Machine.Num :=
       (fpType ty).1.decode (elemAt (rdFp s s.me ty o l) (fpType ty).2.1 0)
     let un (l : Nat) : Bool := (x f.a l).isNan || (x f.b l).isNan
     let c (l : Nat) : Bool :=
       let o := cmpNum (x f.a l) (x f.b l)
       match f.minor.toNat with
       | 0 => o == some .eq
       | 1 => o != some .eq
       | 2 => o == some .lt
       | 3 => o == some .lt || o == some .eq
       | 4 => o == some .gt
       | 5 => o == some .gt || o == some .eq
       | 6 => un l
       | _ => !un l
     let bad (l : Nat) : Bool :=
       if 2 ≤ f.minor.toNat ∧ f.minor.toNat ≤ 5 then un l else (x f.a l).isSnan || (x f.b l).isSnan
     let wrote (t : State) : Prop := ∃ fl, (fl = fIV ∨ fl = 0#6) ∧
       (fl = fIV ↔ ∃ l, l < 32 ∧ (s.me.eff k).getLsbD l = true ∧ bad l = true) ∧
       WrotePred s t k n.val fl fun l =>
         if f.mod = 0#4 then c l else if f.mod = 1#4 then s.me.pred n.val l && c l else s.me.pred n.val l || c l
     (Issues s k (.fcmp k f) → ∃ t, exec (.fcmp k f) s = .next t ∧ wrote t) ∧
     (Issues s k (.dcmp k f) → ∃ t, exec (.dcmp k f) s = .next t ∧ wrote t))

/-- FCLASS (R144): a one-hot value that names the class of the code; no flag, and DNF has no effect. -/
def Obligations.Classify : Prop :=
  ∀ (s : State) (k : Ctl) (f : VFields), Issues s k (.fclass k f) →
    let fmt := (fpType f.ty.toNat).1
    ∃ t, exec (.fclass k f) s = .next t ∧ ∃ g, WroteFp s t k f.d false g ∧ ∀ l sd,
      let u := rdFp s s.me f.ty.toNat f.a l
      (g l sd).2 = (0#6, sd) ∧
      ∃ b, b < 10 ∧ (g l sd).1 = 2 ^ b ∧
        match fmt.decode u with
        | .inf neg => b = if neg then 0 else 7
        | .nan _ quiet _ => b = if quiet then 9 else 8
        | .fin neg m _ =>
          if m = 0 then b = if neg then 3 else 4
          else if fmt.subnormal u = true then b = if neg then 2 else 5
          else b = if neg then 1 else 6

/-- FRND, FCVT, F2I and I2F (R145 to R147). PACK and UNPK (R148, R149): elements 2h and 2h + 1 replaced, the first
stepping SEED before the second, the others kept; element i widened exactly by its scale. That the source's NaN is kept of two
and a zero times an infinity is the default NaN with IV in both (log 102), and that the extra value of an X format is flushed
under DNF (log 84), are the model's choices, which R148 and R149 leave open. -/
def Obligations.FloatFormats : Prop :=
  (∀ (s : State) (k : Ctl) (f : VFields),
     let r := rndOf s s.me
     let ty := f.ty.toNat
     let mode (x : Nat) : Nat := if x = 0 then r.mode else x - 1
     let src (dnf : Bool) (l : Nat) : Machine.Num :=
       let y := fpType f.minor.toNat
       y.1.decodeSrc dnf (elemAt (rdFp s s.me f.minor.toNat f.a l) y.2.1 0)
     let stepped (m : Nat) (sd : Word) : Word := if m = 4 then seedNext sd else sd
     (Issues s k (.frnd k f) → ∃ t, exec (.frnd k f) s = .next t ∧ ∃ g, WroteFp s t k f.d (ty == 6) g ∧ ∀ l sd,
       let m := mode f.minor.toNat
       (g l sd).2.2 = stepped m sd ∧
       match (fpType ty).1.decode (rdFp s s.me ty f.a l) with
       | .fin neg x e =>
         let q := roundUnits m neg x e 0 sd.toNat
         (g l sd).1 = (roundTo (fpType ty).1 (if q.2 then .fin neg x e else .fin neg q.1 0) 0 false 0).1 ∧
           (g l sd).2.1 = flagIf (!q.2) fNX
       | y => (g l sd).1 = (roundTo (fpType ty).1 y.quieten 0 false 0).1 ∧ (g l sd).2.1 = flagIf y.isSnan fIV) ∧
     (Issues s k (.fcvt k f) → ∃ t, exec (.fcvt k f) s = .next t ∧ ∃ g, WroteFp s t k f.d (ty == 6) g ∧ ∀ l sd,
       g l sd = roundOne r (fpType ty).1 (src r.dnf l, 0#6) sd) ∧
     (Issues s k (.f2i k f) → ∃ t, exec (.f2i k f) s = .next t ∧ ∃ g, WroteFp s t k f.d (decide (3 ≤ ty)) g ∧ ∀ l sd,
       let m := mode f.mod.toNat
       let sg := typeSigned ty
       let n := typeWidth ty
       (g l sd).2.2 = stepped m sd ∧
       match src false l with
       | .nan _ _ _ => (g l sd).1 = 0 ∧ (g l sd).2.1 = fIV
       | .inf neg => (g l sd).1 = ((clampTo sg n (if neg then -(2 ^ 70) else 2 ^ 70)) % 2 ^ 64).toNat ∧ (g l sd).2.1 = fST
       | .fin neg x e =>
         let q := roundUnits m neg x e 0 sd.toNat
         let v : Int := if neg then -(q.1 : Int) else q.1
         (g l sd).1 = ((clampTo sg n v) % 2 ^ 64).toNat ∧
           (OutOfRange sg n v → (g l sd).2.1 = fST ||| fNX) ∧ (¬OutOfRange sg n v → (g l sd).2.1 = flagIf (!q.2) fNX)) ∧
     (Issues s k (.i2f k f) → ∃ t, exec (.i2f k f) s = .next t ∧ ∃ g, WroteFp s t k f.d (ty == 6) g ∧ ∀ l sd,
       let m := mode f.mod.toNat
       let x : Int :=
         match f.minor.toNat with
         | 1 => (rd s s.me f.a l).toNat
         | 3 => (rd64 s s.me f.a l).toNat
         | 4 => (rd64 s s.me f.a l).toInt
         | _ => (rd s s.me f.a l).toInt
       g l sd = roundOne ⟨m, false, false⟩ (fpType ty).1 (.fin (decide (x < 0)) x.natAbs 0, 0#6) sd)) ∧
  (∀ (s : State) (k : Ctl) (f : VFields),
     let r := rndOf s s.me
     let e := packFmt s.me.fmt f.ty.toNat
     let n := elemBits e
     let sc (l : Nat) : Machine.Num := if f.c = .none then .fin false 1 0 else decF32 (rd s s.me f.c l)
     let conv (x : Word) (l : Nat) (sd : Word) : Nat × Flags × Word :=
       let v := mulNum (decF32 x) (sc l)
       let y := elemRound e v.1 r.mode r.sat sd.toNat r.dnf
       (y.1, v.2 ||| y.2, if r.mode = 4 then seedNext sd else sd)
     (Issues s k (.pack k f) → ∃ t, exec (.pack k f) s = .next t ∧ ∃ g, WroteFp s t k f.d false g ∧ ∀ l sd,
       let x := conv (rd s s.me f.a l) l sd
       let y := conv (rd s s.me f.b l) l x.2.2
       (g l sd).2 = (x.2.1 ||| y.2.1, y.2.2) ∧ ∀ i, i < 32 / n →
         elemAt (g l sd).1 n i =
           if i = 2 * f.minor.toNat then x.1 % 2 ^ n else if i = 2 * f.minor.toNat + 1 then y.1 % 2 ^ n
           else elemAt (rd s s.me f.d l).toNat n i) ∧
     (Issues s k (.unpk k f) → ∃ t, exec (.unpk k f) s = .next t ∧ ∃ g, WroteFp s t k f.d false g ∧ ∀ l sd,
       let xv := if fmtXven s.me.fmt then some (s.me.xv &&& 0xFFFF#32) else none
       g l sd = roundOne r fp32
         (mulNum (elemValue e xv r.dnf (elemAt (rdFp s s.me f.ty.toNat f.a l) n f.minor.toNat)) (sc l)) sd))

/-- The eleven special-function words (R138, R150): the results of the lanes of effective, and their flags, are
outstanding until they are written, and no SEED steps. The table of R152 for zeros, infinities and negative values, with
the flags it shows, and a NaN made quiet in every word, invalid where it was signalling. RCP and SQRT correctly rounded,
RCP overflowing and tiny as R152 says, and RSQ faithful (R150). For the eight words of R151: their exact results, their
bounds, and that an inexact result is a faithful rounding, one of the two FP32 values on either side, infinite beyond
the largest finite value, and not decreasing in what is rounded. What is rounded is the function's value in fixed point with
640 fraction bits, which for each word is said in full, the model's own; so is the threshold that decides (log 7). -/
def Obligations.SpecialFunctionUnit : Prop :=
  (∀ (s : State) (k : Ctl) (f : VFields),
     let outstanding (i : Instr) (fn : Word → Machine.Num → Word × Flags) : Prop := Issues s k i →
       ∃ t, exec i s = .next t ∧ ∃ fl,
         Deferred s t k (writes32 s.me k f.d fun l => (fn (rd s s.me f.a l) (decF32 (rd s s.me f.a l))).1) fl false false ∧
         ∀ b, fl.getLsbD b = true ↔ ∃ l, l < 32 ∧ (s.me.eff k).getLsbD l = true ∧
           (fn (rd s s.me f.a l) (decF32 (rd s s.me f.a l))).2.getLsbD b = true
     outstanding (.rcp k f) (fun _ => sfRcp) ∧ outstanding (.rsq k f) sfRsq ∧ outstanding (.sqrt k f) (fun _ => sfSqrt) ∧
     outstanding (.exp2 k f) (fun _ => sfExp true) ∧ outstanding (.exp k f) (fun _ => sfExp false) ∧
     outstanding (.log2 k f) (fun _ => sfLog true) ∧ outstanding (.log k f) (fun _ => sfLog false) ∧
     outstanding (.sin k f) (fun _ => sfTrig false) ∧ outstanding (.cos k f) (fun _ => sfTrig true) ∧
     outstanding (.tanh k f) (fun _ => sfTanh) ∧ outstanding (.sigm k f) (fun _ => sfSigm)) ∧
  ((∀ e, sfRcp (.fin false 0 e) = (0x7F800000#32, fDZ) ∧ sfRcp (.fin true 0 e) = (0xFF800000#32, fDZ) ∧
     sfRcp (.inf false) = (0#32, 0#6) ∧ sfRcp (.inf true) = (0x80000000#32, 0#6)) ∧
   (∀ b e, sfRsq b (.fin false 0 e) = (0x7F800000#32, fDZ) ∧ sfRsq b (.fin true 0 e) = (0xFF800000#32, fDZ) ∧
     sfRsq b (.inf false) = (0#32, 0#6) ∧ sfRsq b (.inf true) = (0x7FC00000#32, fIV)) ∧
   (∀ e, sfSqrt (.fin false 0 e) = (0#32, 0#6) ∧ sfSqrt (.fin true 0 e) = (0x80000000#32, 0#6) ∧
     sfSqrt (.inf false) = (0x7F800000#32, 0#6) ∧ sfSqrt (.inf true) = (0x7FC00000#32, fIV)) ∧
   (∀ base2 neg e, sfExp base2 (.fin neg 0 e) = (0x3F800000#32, 0#6) ∧ sfExp base2 (.inf false) = (0x7F800000#32, 0#6) ∧
     sfExp base2 (.inf true) = (0#32, 0#6) ∧ sfLog base2 (.fin neg 0 e) = (0xFF800000#32, fDZ) ∧
     sfLog base2 (.inf false) = (0x7F800000#32, 0#6) ∧ sfLog base2 (.inf true) = (0x7FC00000#32, fIV)) ∧
   (∀ neg e, sfTrig false (.fin neg 0 e) = (if neg then 0x80000000#32 else 0#32, 0#6) ∧
     sfTrig true (.fin neg 0 e) = (0x3F800000#32, 0#6) ∧ sfTrig false (.inf neg) = (0x7FC00000#32, fIV) ∧
     sfTrig true (.inf neg) = (0x7FC00000#32, fIV) ∧ sfTanh (.fin neg 0 e) = (if neg then 0x80000000#32 else 0#32, 0#6) ∧
     sfTanh (.inf neg) = (if neg then 0xBF800000#32 else 0x3F800000#32, 0#6) ∧
     sfSigm (.fin neg 0 e) = (0x3F000000#32, 0#6) ∧ sfSigm (.inf neg) = (if neg then 0#32 else 0x3F800000#32, 0#6)) ∧
   (∀ m e, 0 < m → (∀ b, sfRsq b (.fin true m e) = (0x7FC00000#32, fIV)) ∧ sfSqrt (.fin true m e) = (0x7FC00000#32, fIV) ∧
     sfLog true (.fin true m e) = (0x7FC00000#32, fIV) ∧ sfLog false (.fin true m e) = (0x7FC00000#32, fIV)) ∧
   (∀ fn ∈ ([fun _ => sfRcp, sfRsq, fun _ => sfSqrt, fun _ => sfExp true, fun _ => sfExp false, fun _ => sfLog true,
       fun _ => sfLog false, fun _ => sfTrig false, fun _ => sfTrig true, fun _ => sfTanh, fun _ => sfSigm] :
       List (Word → Machine.Num → Word × Flags)),
     ∀ w, (decF32 w).isNan = true → fn w (decF32 w) = (w ||| 0x00400000#32, flagIf (!w.getLsbD 22) fIV))) ∧
  ((∀ (w : Word) (neg : Bool) (v : ℚ), FiniteF32 w neg v → v ≠ 0 →
     let r := sfRcp (decF32 w)
     (2 ^ 128 - 2 ^ 103 ≤ |1 / v| → r = (if neg then 0xFF800000#32 else 0x7F800000#32, fOF ||| fNX)) ∧
     (|1 / v| < 2 ^ 128 - 2 ^ 103 → ∃ y, FiniteF32 r.1 neg y ∧
       (∀ z n u, FiniteF32 z n u → |y - 1 / v| ≤ |u - 1 / v|) ∧
       r.2 = if y = 1 / v then 0#6 else if |1 / v| < 1 / 2 ^ 126 - 1 / 2 ^ 151 then fNX ||| fUF else fNX)) ∧
   (∀ (w : Word) (v : ℚ), FiniteF32 w false v → 0 < v →
     (∃ y, FiniteF32 (sfSqrt (decF32 w)).1 false y ∧ (sfSqrt (decF32 w)).2 = (if y * y = v then 0#6 else fNX) ∧
       ∀ z n u, FiniteF32 z n u → 0 ≤ u → (y < u → 4 * v ≤ (y + u) * (y + u)) ∧ (u < y → (u + y) * (u + y) ≤ 4 * v)) ∧
     (∃ y, FiniteF32 (sfRsq w (decF32 w)).1 false y ∧ (sfRsq w (decF32 w)).2 = (if y * y * v = 1 then 0#6 else fNX) ∧
       ∀ z n u, FiniteF32 z n u → 0 ≤ u → (u * u * v = 1 → y = u) ∧ (y < u → y * y * v < 1 → 1 < u * u * v) ∧
         (u < y → 1 < y * y * v → u * u * v < 1))) ∧
   (∀ (neg : Bool) (m : Nat) (e n : Int), (Machine.Num.fin neg m e).val = n → -149 ≤ n → n ≤ 127 →
     FiniteF32 (sfExp true (.fin neg m e)).1 false (2 ^ n) ∧ (sfExp true (.fin neg m e)).2 = 0#6) ∧
   (∀ (m : Nat) (e n : Int), (Machine.Num.fin false m e).val = 2 ^ n → n.natAbs < 2 ^ 24 →
     FiniteF32 (sfLog true (.fin false m e)).1 (decide (n < 0)) n ∧ (sfLog true (.fin false m e)).2 = 0#6) ∧
   (∀ (m : Nat) (e : Int), (Machine.Num.fin false m e).val = 1 → sfLog false (.fin false m e) = (0#32, 0#6)) ∧
   (∀ (w : Word) (neg : Bool) (v : ℚ), FiniteF32 w neg v →
     (∀ r ∈ [sfTrig false (decF32 w), sfTrig true (decF32 w), sfTanh (decF32 w)], ∃ n y, FiniteF32 r.1 n y ∧ -1 ≤ y ∧ y ≤ 1) ∧
     (∃ n y, FiniteF32 (sfSigm (decF32 w)).1 n y ∧ 0 ≤ y ∧ y ≤ 1) ∧
     (∀ base2, (sfExp base2 (decF32 w)).1.getLsbD 31 = false) ∧
     ∀ p ∈ [(sfExp true, 1), (sfLog true, 2), (sfExp false, 3), (sfLog false, 4), (sfTrig false, 5), (sfTrig true, 6),
         (sfTanh, 7), (sfSigm, 8)],
       (p.1 (decF32 w)).2.getLsbD 4 = true → ∃ piece n m e, 0 < m ∧ p.1 (decF32 w) = faithful p.2 piece n m e) ∧
   (∀ (neg : Bool) (m : Nat) (e : Int), 0 < m →
     let x := Machine.Num.fin neg m e
     (∀ base2 : Bool,
       let fn := if base2 = true then 1 else 3
       let v := if neg = true then -(fxOf m e : Int) else fxOf m e
       let y := fxExp (if base2 = true then v * fxLn2 / fxOne else v)
       (300 * fxOne ≤ fxOf m e → sfExp base2 x = faithful fn 0 false 1 (if neg = true then -400 else 400)) ∧
       (fxOf m e < 300 * fxOne → (base2 = true → ∀ n : Int, x.val = n → 200 < n.natAbs) →
         sfExp base2 x = faithful fn 0 false y.1 (y.2 - 640))) ∧
     (∀ n : Int, x.val = n → n.natAbs ≤ 200 → n < -149 ∨ 127 < n → sfExp true x = faithful 1 0 false 1 n) ∧
     (neg = false → (∀ n : Int, x.val ≠ 2 ^ n) → sfLog true x = faithfulFx 2 0 (fxLog m e * fxOne / fxLn2)) ∧
     (neg = false → x.val ≠ 1 → sfLog false x = faithfulFx 4 0 (fxLog m e)) ∧
     (∀ cos : Bool, let y := fxTrig cos m e
       let z := max (1 - (fxOne : Int)) (min y.2 ((fxOne : Int) - 1))
       sfTrig cos x = faithfulFx (if cos = true then 6 else 5) (2 * y.1 + if neg = true then 1 else 0)
         (if neg = true ∧ cos = false then -z else z)) ∧
     (let u := fxDecay m (e + 1)
      let y : Int := (min ((fxOne - u) * fxOne / (fxOne + u)) (fxOne - 1) : Nat)
      sfTanh x = faithfulFx 7 0 (if neg = true then -y else y)) ∧
     (let u := fxDecay m e
      sfSigm x = faithfulFx 8 0 ((min ((if neg = true then u else fxOne) * fxOne / (fxOne + u)) (fxOne - 1) : Nat) : Int))) ∧
   (∀ fn piece x, faithfulFx fn piece x = faithful fn piece (decide (x < 0)) (max 1 x.natAbs) (-640)) ∧
   (∀ (fn piece : Nat) (neg : Bool) (m : Nat) (e : Int), 0 < m →
     let r := faithful fn piece neg m e
     let v : ℚ := m * 2 ^ e
     (2 ^ 128 - 2 ^ 104 ≤ v → r = (if neg then 0xFF800000#32 else 0x7F800000#32, fOF ||| fNX)) ∧
     (v < 2 ^ 128 - 2 ^ 104 → (∃ y, FiniteF32 r.1 neg (if neg then -y else y) ∧
         (y ≤ v → ∀ z n u, FiniteF32 z n u → y < u → v < u) ∧ (v < y → ∀ z n u, FiniteF32 z n u → u < y → u ≤ v)) ∧
       (r.2 = fNX ∨ r.2 = fNX ||| fUF) ∧ (1 / 2 ^ 126 ≤ v → r.2 = fNX) ∧
       (v < 1 / 2 ^ 126 - 1 / 2 ^ 150 → r.2 = fNX ||| fUF)) ∧
     ∀ (m' : Nat) (e' : Int), 0 < m' → (m' : ℚ) * 2 ^ e' ≤ v → (faithful fn piece neg m' e').1 ≤ r.1))

/-- FSTAT (R153, R99): the flags of fixed-latency words are there, those of outstanding words each may be, which is a
free choice (log 18), and none is lost by a read. SEEDR (R154) reads and writes SEED in the lanes of effective. -/
def Obligations.StatusAndSeed : Prop :=
  ∀ (s : State) (k : Ctl) (f : VFields),
    let later (t : State) : Flags := orFlags (t.me.outs.map fun o => o.flags)
    (Issues s k (.fstat k f) → ∃ t, exec (.fstat k f) s = .next t ∧ ∃ old,
      old &&& s.me.fpstat = s.me.fpstat ∧ old ||| later t = s.me.fpstat ||| later s ∧
      (f.minor = 0#5 → t.me.fpstat = old) ∧ (f.minor = 1#5 → t.me.fpstat = 0#6) ∧
      (f.minor = 2#5 → t.me.fpstat = (rd s s.me f.a 0).setWidth 6) ∧
      (∀ n, f.d = .s n → f.minor ≠ 2#5 → t.me.getS n.val = old.setWidth 32) ∧
      t.me.pc = s.me.pc + 8#64 ∧ t = s.setMe t.me ∧
      (∀ key, key ∉ wroteKeys s.me k f.d 1 → t.me.getKey key = s.me.getKey key) ∧ t.me.preds = s.me.preds ∧
      t.me.seeds = s.me.seeds) ∧
    (Issues s k (.seedr k f) → ∃ t, exec (.seedr k f) s = .next t ∧
      (f.minor = 0#5 → Wrote32 s t k f.d 0#6 fun l => s.me.seed l) ∧
      (f.minor = 1#5 → WordDone s t k ∧ SameRegs s t ∧ t.me.fpstat = s.me.fpstat ∧
        ∀ l, l < 32 → t.me.seed l = if (s.me.eff k).getLsbD l then rd s s.me f.a l else s.me.seed l))

/-- A pair word (R35, R67): in each lane of effective both halves read before either writes, half A steps SEED before half B,
and each half's result is that of its op among the sixteen (R35), which is that of the single-word instruction with the
same operands: FADD, FMUL, FMIN, FMAX, IADD, ISUB, IMUL, IMIN, IMAX, AND, OR, XOR, SHL and SHR, FMAC as FFMA D, A, B, D
rounded once, and MOV a copy of A. The flags of both halves enter FPSTAT. -/
def Obligations.PairWords : Prop :=
  ∀ (s : State) (k : Ctl) (f : PairFields), Issues s k (.pairWord k f) →
    let r := rndOf s s.me
    let x (l : Nat) := halfResult r f.opA.toNat (s.me.getV f.dA.toNat l) (s.me.getV f.aA.toNat l) (s.me.getV f.bA.toNat l) (s.me.seed l)
    let y (l : Nat) := halfResult r f.opB.toNat (s.me.getV f.dB.toNat l) (s.me.getV f.aB.toNat l) (s.me.getV f.bB.toNat l) (x l).2.2
    ∃ t, exec (.pairWord k f) s = .next t ∧ WordDone s t k ∧ t.me.preds = s.me.preds ∧
      (∀ l, l < 32 → (s.me.eff k).getLsbD l = true → t.me.seed l = (y l).2.2 ∧
        t.me.getV f.dA.toNat l = BitVec.ofNat 32 (x l).1 ∧ t.me.getV f.dB.toNat l = BitVec.ofNat 32 (y l).1) ∧
      (∀ l, l < 32 → (s.me.eff k).getLsbD l = false → t.me.seed l = s.me.seed l) ∧
      OtherRegs s t ((maskLanes (s.me.eff k)).flatMap fun l => [vKey f.dA.toNat l, vKey f.dB.toNat l]) ∧
      (∀ b, t.me.fpstat.getLsbD b = true ↔ s.me.fpstat.getLsbD b = true ∨
        ∃ l, l < 32 ∧ (s.me.eff k).getLsbD l = true ∧ ((x l).2.1 ||| (y l).2.1).getLsbD b = true)

/-! ## Cross-lane words (R157 to R171) -/

/-- VOTE and BCAST (R161, R162): one value for the whole warp, outstanding until it is written (R55); no flag. SHFL and
MATCH (R163, R170): each lane's source in its segment and the predicate that says whether it ran and was in range; each
lane's mask of equals. The writes are outstanding and named one by one. -/
def Obligations.CrossLane : Prop :=
  (∀ (s : State) (k : Ctl) (f : VFields),
     let e := s.me.eff k
     let bits (l : Nat) : Dword := if f.ty = 3#4 then rd64 s s.me f.a l else (rd s s.me f.a l).setWidth 64
     (Issues s k (.vote k f) → ∃ t, exec (.vote k f) s = .next t ∧ ∃ ballot,
       (∀ m, m < 32 → ballot.getLsbD m = (e.getLsbD m && (s.me.pred (regNum f.a) m != f.mod.getLsbD 0))) ∧
       Deferred s t k (writes32 s.me k f.d fun _ =>
         if f.minor = 0#5 then ballot
         else if f.minor = 1#5 then (if ballot ≠ 0#32 then 1#32 else 0#32)
         else if f.minor = 2#5 then (if ballot = e then 1#32 else 0#32)
         else if ballot = 0#32 ∨ ballot = e then 1#32 else 0#32) 0#6 false false) ∧
     (Issues s k (.bcast k f) → ∃ t, exec (.bcast k f) s = .next t ∧ ∃ v,
       Deferred s t k (if f.ty = 3#4 then writes64 s.me k f.d fun _ => v else writes32 s.me k f.d fun _ => v.setWidth 32) 0#6
         false false ∧
       (f.minor = 0#5 → v = bits ((rd s s.me f.b 0).toNat % 32)) ∧
       (f.minor = 1#5 → (∀ l, l < 32 → e.getLsbD l = true → (∀ m, m < l → e.getLsbD m = false) → v = bits l) ∧
         (e = 0#32 → v = 0#64)))) ∧
  (∀ (s : State) (k : Ctl) (f : VFields) (d : Fin 256), f.d = .v d →
     let e := s.me.eff k
     let on (l : Nat) : Prop := l < 32 ∧ e.getLsbD l = true
     let width := 32 / 2 ^ f.mod.toNat
     let b (l : Nat) : Nat := (rd s s.me f.b l).toNat
     let i (l : Nat) : Nat := l % width
     let out (l : Nat) : Prop := (f.minor = 1#5 ∧ i l < b l) ∨ (f.minor = 2#5 ∧ width ≤ i l + b l)
     let j (l : Nat) : Nat :=
       if f.minor = 0#5 then b l % width
       else if f.minor = 1#5 then (if i l < b l then i l else i l - b l)
       else if f.minor = 2#5 then (if width ≤ i l + b l then i l else i l + b l)
       else i l ^^^ (b l % width)
     let src (l : Nat) : Nat := l - i l + j l
     let same (l m : Nat) : Prop := on m ∧
       (if f.ty = 3#4 then rd64 s s.me f.a m = rd64 s s.me f.a l else rd s s.me f.a m = rd s s.me f.a l)
     (Issues s k (.shfl k f) → ∃ t, exec (.shfl k f) s = .next t ∧ ∃ ws, Deferred s t k ws 0#6 false false ∧
       ∀ key v, (key, v) ∈ ws ↔ ∃ l, on l ∧
         ((key = vKey d.val l ∧ v = if f.ty = 3#4 then loWord (rd64 s s.me f.a (src l)) else rd s s.me f.a (src l)) ∨
          (f.ty = 3#4 ∧ key = vKey (d.val + 1) l ∧ v = hiWord (rd64 s s.me f.a (src l))) ∨
          (∃ p : Fin 256, f.c = .v p ∧ key = predKey p.val l ∧
            (v = 1#32 ∧ on (src l) ∧ ¬out l ∨ v = 0#32 ∧ ¬(on (src l) ∧ ¬out l))))) ∧
     (Issues s k (.matchv k f) → ∃ t, exec (.matchv k f) s = .next t ∧ ∃ ws, Deferred s t k ws 0#6 false false ∧
       ∀ key v, (key, v) ∈ ws ↔ ∃ l, on l ∧
         ((key = vKey d.val l ∧ ∀ m, m < 32 → (v.getLsbD m = true ↔ same l m)) ∨
          (∃ p : Fin 256, f.c = .v p ∧ key = predKey p.val l ∧
            (v = 1#32 ∧ (∀ m, on m → same l m) ∨ v = 0#32 ∧ ∃ m, on m ∧ ¬same l m)))))

/-- LRED, LSCAN and SEGRED (R164 to R166): the values of the lanes of a run, combined in ascending lane order and written
reduced or clamped; the whole of effective for LRED, the lanes up to a lane (or below it, from the identity) for LSCAN,
and for SEGRED the lanes between a lane and its heads. The flags (R166): what each value raises that enters a run, the
last lane's entering none under .excl, and ST for a written result that .sat clamps. What the combinations, identities,
first values and written results are (R164): the integer sum kept unbounded, min and max under the type's signedness, and,
or and xor bit by bit, and for floating types the sum rounded by RNE, min and max as FMIN and FMAX take them, and a first
value made quiet if it is a signalling NaN. -/
def Obligations.ReductionsScansAndSums : Prop :=
  (∀ (s : State) (k : Ctl) (f : VFields),
     let ty := f.ty.toNat
     let op := f.minor.toNat
     let e := s.me.eff k
     let on (l : Nat) : Prop := l < 32 ∧ e.getLsbD l = true
     let a (l : Nat) : Int := redIn ty (laneBits s s.me ty f.a l)
     let run (ls : List Nat) : Int :=
       match ls with
       | [] => redIdentity ty op
       | l :: rest => rest.foldl (fun c m => (redCombine ty op c (a m)).1) (redFirst ty (a l)).1
     let written (ls : List Nat) : Nat := (redOut ty (f.mod.getLsbD 1) (run ls)).1
     let head (m : Nat) : Bool := (rd s s.me f.b 0).getLsbD m
     let together (l m : Nat) : Bool :=
       (maskLanes e).all fun p => !(head p && decide (min l m < p) && decide (p ≤ max l m))
     let parts (d : Fin 256) (ws : List (Nat × Word)) (ls : Nat → List Nat) : Prop :=
       ∀ key v, (key, v) ∈ ws ↔ ∃ l, on l ∧
         ((key = vKey d.val l ∧ v = BitVec.ofNat 32 (written (ls l))) ∨
          (redPair ty = true ∧ key = vKey (d.val + 1) l ∧ v = BitVec.ofNat 32 (written (ls l) / 2 ^ 32)))
     let below (ls : List Nat) (l : Nat) : List Nat := ls.filter fun m => decide (m < l)
     let enters (ls : List Nat) (l : Nat) : Flags :=
       if below ls l = [] then (redFirst ty (a l)).2 else (redCombine ty op (run (below ls l)) (a l)).2
     let raised (fl : Flags) (runOf : Nat → List Nat) (last : Nat → Prop) (ls : Nat → List Nat) : Prop :=
       ∀ b, fl.getLsbD b = true ↔ ∃ l, on l ∧ ((¬last l ∧ (enters (runOf l) l).getLsbD b = true) ∨
         (redOut ty (f.mod.getLsbD 1) (run (ls l))).2.getLsbD b = true)
     (Issues s k (.lred k f) → ∃ t, exec (.lred k f) s = .next t ∧ ∃ fl,
       raised fl (fun _ => maskLanes e) (fun _ => False) (fun _ => maskLanes e) ∧
       Deferred s t k (if redPair ty then writes64 s.me k f.d fun _ => BitVec.ofNat 64 (written (maskLanes e))
         else writes32 s.me k f.d fun _ => BitVec.ofNat 32 (written (maskLanes e))) fl false false) ∧
     (∀ d, f.d = .v d → Issues s k (.lscan k f) → ∃ t, exec (.lscan k f) s = .next t ∧ ∃ fl ws,
       let ls (l : Nat) : List Nat := (maskLanes e).filter fun m => if f.mod.getLsbD 0 then decide (m < l) else decide (m ≤ l)
       Deferred s t k ws fl false false ∧ parts d ws ls ∧
       raised fl (fun _ => maskLanes e) (fun l => f.mod.getLsbD 0 = true ∧ ∀ m, on m → m ≤ l) ls) ∧
     (∀ d, f.d = .v d → Issues s k (.segred k f) → ∃ t, exec (.segred k f) s = .next t ∧ ∃ fl ws,
       let ls (l : Nat) : List Nat := (maskLanes e).filter fun m => together l m && (!f.mod.getLsbD 0 || decide (m ≤ l))
       Deferred s t k ws fl false false ∧ parts d ws ls ∧
       raised fl (fun l => (maskLanes e).filter fun m => together l m) (fun _ => False) ls)) ∧
  (∀ (ty : Nat), ty = 1 ∨ ty = 2 ∨ ty = 3 ∨ ty = 4 →
     let n := typeWidth ty
     let sg := typeSigned ty
     (∀ c a, redCombine ty 0 c a = (c + a, 0#6) ∧ redCombine ty 1 c a = (min c a, 0#6) ∧
       redCombine ty 2 c a = (max c a, 0#6)) ∧
     (∀ x, x = 0 ∨ x = 4 ∨ x = 5 → redIdentity ty x = 0) ∧
     (∀ x, OutOfRange sg n (redIdentity ty 1 + 1) ∧ ¬OutOfRange sg n (redIdentity ty 1) ∧
       OutOfRange sg n (redIdentity ty 2 - 1) ∧ ¬OutOfRange sg n (redIdentity ty 2) ∧
       (redOut ty false x).1 % 2 ^ n = elemBitsOf false sg n x ∧ (redOut ty false x).2 = 0#6 ∧
       (redOut ty true x).1 % 2 ^ n = elemBitsOf true sg n x ∧ ((redOut ty true x).2 = fST ∨ (redOut ty true x).2 = 0#6) ∧
       ((redOut ty true x).2 = fST ↔ OutOfRange sg n x)) ∧
     (∀ x, redFirst ty x = (x, 0#6)) ∧ lowBits (redIdentity ty 3) n = 2 ^ n - 1 ∧
     (∀ c a, lowBits (redCombine ty 3 c a).1 n = lowBits c n &&& lowBits a n ∧
       lowBits (redCombine ty 4 c a).1 n = lowBits c n ||| lowBits a n ∧
       lowBits (redCombine ty 5 c a).1 n = lowBits c n ^^^ lowBits a n ∧
       (redCombine ty 3 c a).2 = 0#6 ∧ (redCombine ty 4 c a).2 = 0#6 ∧ (redCombine ty 5 c a).2 = 0#6)) ∧
  (∀ (ty : Nat) (f : FpFmt), (ty = 5 ∧ f = fp32) ∨ (ty = 6 ∧ f = fp64) →
     let x (c : Nat) : Machine.Num := f.decode c
     let code (v : Machine.Num) : Int := (roundTo f v 0 false 0).1
     (∀ c : Nat, redIn ty c = c ∧ redFirst ty c = if (x c).isSnan then (code (x c).quieten, fIV) else ((c : Int), 0#6)) ∧
     (∀ sat (c : Int), redOut ty sat c = (c.toNat, 0#6)) ∧
     (∀ c a : Nat,
       let v := addNum false (x c) (x a)
       redCombine ty 0 c a = (code v.1, v.2 ||| (roundTo f v.1 0 false 0).2) ∧
       redCombine ty 1 c a = (code (lesserOf false (x c) (x a)), flagIf ((x c).isSnan || (x a).isSnan) fIV) ∧
       redCombine ty 2 c a = (code (lesserOf true (x c) (x a)), flagIf ((x c).isSnan || (x a).isSnan) fIV)) ∧
     (∃ e, f.decode (redIdentity ty 0).toNat = .fin false 0 e) ∧ f.decode (redIdentity ty 1).toNat = .inf false ∧
     f.decode (redIdentity ty 2).toNat = .inf true)

/-- RBAL and RWALK (R167 to R169): item t belongs to the row o with P(o) ≤ t < P(o + 1), where P sums the rows before o:
the effective lanes' rows for RBAL, all 32 lanes' for RWALK. -/
def Obligations.RowBalance : Prop :=
  ∀ (s : State) (k : Ctl) (f : VFields) (d : Fin 256), f.d = .v d →
    let e := s.me.eff k
    let on (l : Nat) : Prop := l < 32 ∧ e.getLsbD l = true
    let n (l : Nat) : Nat := (rd s s.me f.a l).toNat
    let sum (ls : List Nat) : Nat := (ls.map n).foldr (· + ·) 0
    let pairs (ws : List (Nat × Word)) (lo hi : Nat → Word → Prop) : Prop :=
      ∀ key v, (∃ p : Fin 256, f.c = .v p ∧ ∃ l, key = predKey p.val l) ∨ ((key, v) ∈ ws ↔ ∃ l, on l ∧
        ((key = vKey d.val l ∧ lo l v) ∨ (key = vKey (d.val + 1) l ∧ hi l v)))
    (Issues s k (.rbal k f) → ∃ t, exec (.rbal k f) s = .next t ∧ ∃ ws, Deferred s t k ws 0#6 false false ∧
      let P (l : Nat) : Nat := sum ((maskLanes e).filter fun m => decide (m < l))
      let item (l : Nat) : Nat := (rd s s.me f.b 0).toNat + ((maskLanes e).filter fun m => decide (m < l)).length
      pairs ws
        (fun l v => (∃ o, on o ∧ P o ≤ item l ∧ item l < P o + n o ∧ v = BitVec.ofNat 32 o) ∨
          (sum (maskLanes e) ≤ item l ∧ v = 0xFFFFFFFF#32))
        (fun l v => (∃ o, on o ∧ P o ≤ item l ∧ item l < P o + n o ∧ v = BitVec.ofNat 32 (item l - P o)) ∨
          (sum (maskLanes e) ≤ item l ∧ v = 0#32))) ∧
    (Issues s k (.rwalk k f) → ∃ t, exec (.rwalk k f) s = .next t ∧ ∃ ws, Deferred s t k ws 0#6 false false ∧
      let P (i : Nat) : Nat := sum (List.range i)
      let item (l : Nat) : Nat := (rd s s.me f.b 0).toNat + l
      pairs ws
        (fun l v => (∃ o, o < 32 ∧ P o ≤ item l ∧ item l < P (o + 1) ∧ v = BitVec.ofNat 32 o) ∨
          (P 32 ≤ item l ∧ v = 32#32))
        (fun l v => (∃ o, o < 32 ∧ P o ≤ item l ∧ item l < P (o + 1) ∧ v = BitVec.ofNat 32 (item l - P o)) ∨
          (P 32 ≤ item l ∧ v = BitVec.ofNat 32 (item l - P 32))) ∧
      ∀ p : Fin 256, f.c = .v p → ∀ l v, on l → ((predKey p.val l, v) ∈ ws ↔
        (v = 1#32 ∧ ∃ o, o < 32 ∧ P o = item l ∧ item l < P (o + 1)) ∨
        (v = 0#32 ∧ ¬∃ o, o < 32 ∧ P o = item l ∧ item l < P (o + 1))))

/-! ## Memory words (R172 to R250) -/

/-- LD and LDU (R183, R184, R187): each lane's bytes are asked for at their home, or read from the core's L1, in which
case the registers' values stand in the outstanding write; registers and memory keep their values. Of a coherent page
the value is memory's, little-endian and extended as the word says. With no lane the word does nothing. -/
def Obligations.Loads : Prop :=
  ∀ (s : State) (k : Ctl) (f : MFields),
    let n := 2 ^ f.size.toNat
    let op (p : Addr × Phys) : LaneOp :=
      { lane := p.1.lane, key := p.2.key, n, op := .load (f.minor == 1#4)
        dst := dstKeys s.me f.data (max 1 (n / 4)) p.1.lane }
    let loads (i : Instr) (uniform : Bool) : Prop := Issues s k i →
      (accessAddrs s s.me k f uniform = [] → ∃ t, exec i s = .next t ∧ NoEffect s t k) ∧
      (∀ ps, accessAddrs s s.me k f uniform ≠ [] → s.accessPlaces k f uniform n needR (orderCheck f) n = .ok ps →
        ∃ t, exec i s = .next t ∧ Accessed s t k ∧ SameMemory s t ∧ t.me.stq = s.me.stq ∧
          Outstanding s t (ps.flatMap fun p => (op p).dst) (f.order == 1#2) ∧
          ∀ p ∈ ps, Requested s t (op p) ∨ ∃ c,
            ((∀ q ∈ ps, lineOf q.2.key = lineOf p.2.key → q.2.cls ≠ 0) → c = none) ∧
            Answered s t (op p) (wordsOf n (f.minor == 1#4) (s.readFor c p.2.key n)))
    (∀ d, f.data = .v d → loads (.ld k f) false) ∧ loads (.ldu k f) true

/-- ST (R183, R184, R187, R208): the bytes of each lane are written at once where the core owns them, and else asked for
at their home; no other byte changes and the word stands in the store counter. A release writes nothing yet: it waits
with its accesses. Of several lanes each one's bytes are requested or written, those written at once one after another, in
an order that the rule leaves free. LDL and STL (R186): scratchpad bytes into outstanding register writes, and register
values into scratchpad, one lane after another in a free order; memory keeps its bytes. That both are done when they issue,
and wait in their run for an earlier release store of the warp to the same words (R202) and for what stands before its last
popping JOIN (R114), is the model's choice (log 25); a release STL waits in the store counter. -/
def Obligations.StoresAndScratchpad : Prop :=
  (∀ (s : State) (k : Ctl) (f : MFields), Issues s k (.st k f) →
     let n := 2 ^ f.size.toNat
     let op (p : Addr × Phys) : LaneOp :=
       { lane := p.1.lane, key := p.2.key, n, op := .store (storeValue s s.me f.data n p.1.lane), dst := [] }
     (dstLanes s.me k = [] → f.order ≠ 2#2 → ∃ t, exec (.st k f) s = .next t ∧ NoEffect s t k) ∧
     (dstLanes s.me k = [] → f.order = 2#2 → ∃ t, exec (.st k f) s = .next t ∧ Accessed s t k ∧ SameMemory s t ∧
       t.me.outs = s.me.outs ∧ t.me.stq = s.me.stq ++ [{ id := s.nextId, kind := .fence f.scope.toNat 2 }]) ∧
     (∀ ps, dstLanes s.me k ≠ [] → s.accessPlaces k f false n needW (orderCheck f) 0 = .ok ps →
       ∃ t, exec (.st k f) s = .next t ∧ Accessed s t k ∧ t.me.outs = s.me.outs ∧ MemoryOutside s t ps n ∧
         (∃ kind, t.me.stq = s.me.stq ++ [{ id := s.nextId, kind }] ∧
           if f.order = 2#2 then SameMemory s t ∧
             ∃ x, kind = .release x ∧ x.scope = f.scope.toNat ∧ ∀ p ∈ ps, ∃ r ∈ x.reqs, r.line = lineOf p.2.key ∧ op p ∈ r.ops
           else kind = .store) ∧
         (f.order ≠ 2#2 → Performed s t false (ps.map op)) ∧
         (f.order ≠ 2#2 → ∀ p, ps = [p] → (Requested s t (op p) ∧ SameMemory s t) ∨
           t.readMem p.2.key n = storeValue s s.me f.data n p.1.lane))) ∧
  (∀ (s : State) (k : Ctl) (f : MFields),
     let n := 2 ^ f.size.toNat
     let tk := s.me.teamKey
     let as := scratchAddrs s s.me k f
     let byte (u : State) (o : Nat) : Byte := tget blankByte (u.team tk).scratch o
     let waits (i : Instr) (read : Bool) : Prop := Issues s k i → as ≠ [] → scratchTrap s s.me k n read as = none →
       s.me.scratchClear s.nextId n as = false → exec i s = .next s
     waits (.ldl k f) true ∧ (f.order ≠ 2#2 → waits (.stl k f) false) ∧
     (Issues s k (.ldl k f) → as ≠ [] → scratchTrap s s.me k n true as = none → s.me.scratchClear s.nextId n as = true →
      ∃ t, exec (.ldl k f) s = .next t ∧ ∃ ws,
       Deferred s t k ws 0#6 true (f.order == 1#2) ∧
       ∀ key v, (key, v) ∈ ws ↔ ∃ a ∈ as, ∃ i : Nat, (dstKeys s.me f.data (max 1 (n / 4)) a.lane)[i]? = some key ∧
         (wordsOf n (f.minor == 1#4) (leNat ((List.range n).map fun j => byte s (a.o.toNat + j))))[i]? = some v) ∧
     (Issues s k (.ldl k f) → as = [] → ∃ t, exec (.ldl k f) s = .next t ∧ NoEffect s t k) ∧
     (Issues s k (.stl k f) → as = [] → f.order ≠ 2#2 → ∃ t, exec (.stl k f) s = .next t ∧ NoEffect s t k) ∧
     (Issues s k (.stl k f) → as = [] → f.order = 2#2 → ∃ t, exec (.stl k f) s = .next t ∧ Accessed s t k ∧ SameMemory s t ∧
       t.me.outs = s.me.outs ∧ t.me.stq = s.me.stq ++ [{ id := s.nextId, kind := .fence f.scope.toNat 2 }]) ∧
     (Issues s k (.stl k f) → as ≠ [] → scratchTrap s s.me k n false as = none →
       (f.order = 2#2 ∨ s.me.scratchClear s.nextId n as = true) → ∃ t, exec (.stl k f) s = .next t ∧
       SameMemory s t ∧ (∃ kind, t.me = { atNext s.me k with stq := s.me.stq ++ [{ id := s.nextId, kind }] } ∧
         if f.order = 2#2 then ∃ ops, kind = .scratch ops ∧ ∀ a ∈ as,
           LaneOp.mk a.lane a.o.toNat n (.store (storeValue s s.me f.data n a.lane)) [] true ∈ ops
         else kind = .store) ∧
       t = { s.setMe t.me with teams := t.teams, nextId := s.nextId + 1 } ∧
       (∀ x, t.team x = if x = tk then { s.team tk with scratch := (t.team tk).scratch } else s.team x) ∧
       (∀ o, (∀ a ∈ as, o < a.o.toNat ∨ a.o.toNat + n ≤ o) → byte t o = byte s o) ∧
       (f.order = 2#2 → ∀ o, byte t o = byte s o) ∧
       (f.order ≠ 2#2 → ∃ qs : List Addr, qs.Perm as ∧ ∀ o, byte t o = afterOps
         (qs.map fun a => LaneOp.mk a.lane a.o.toNat n (.store (storeValue s s.me f.data n a.lane)) [] true) (byte s) o) ∧
       (f.order ≠ 2#2 → ∀ a, as = [a] →
         leNat ((List.range n).map fun j => byte t (a.o.toNat + j)) = storeValue s s.me f.data n a.lane)))

/-- Addresses that are not aligned stop an access before any lane acts (R174, R180, R186, R232): the alignment trap, with
the lanes that fail in TMASK and the address of the lowest in TADDR: LD, ST, RED, LDL and STL, and ATOM, CAS, CAS128 and
SLOP with a v-register for DATA. LDU, WATCH and those four with an s-register make one access, at the warp's one address;
that TMASK then holds every lane of effective is the model's choice (log 23). -/
def Obligations.MisalignedAccesses : Prop :=
  ∀ (s : State) (k : Ctl) (f : MFields), s.me.priv = false →
    let n : Nat := 2 ^ f.size.toNat
    let far (m : Nat) : Dword := (addrOf s s.me f m).va
    let near (m : Nat) : Dword := BitVec.ofInt 64 ((rd s s.me f.off m).toInt * n + f.imm12.toInt)
    let lanes (va : Nat → Dword) (align : Nat) (i : Instr) : Prop := ∀ l, Issues s k i →
      let bad (m : Nat) : Prop := m < 32 ∧ (s.me.eff k).getLsbD m = true ∧ (va m).toNat % align ≠ 0
      bad l → (∀ m, m < l → ¬bad m) → ∃ t, exec i s = .next t ∧ ∃ mask,
        Trapped s t { kind := 6, mask, addr := va l } s.me.pc false ∧ ∀ m, m < 32 → (mask.getLsbD m = true ↔ bad m)
    let one (align : Nat) (i : Instr) : Prop := Issues s k i → s.me.acts k = true → (far 0).toNat % align ≠ 0 →
      ∃ t, exec i s = .next t ∧ Trapped s t { kind := 6, mask := s.me.eff k, addr := far 0 } s.me.pc false
    lanes far n (.ld k f) ∧ lanes far n (.st k f) ∧ lanes far n (.red k f) ∧ lanes near n (.ldl k f) ∧ lanes near n (.stl k f) ∧
    one n (.ldu k f) ∧ one n (.watch k f) ∧
    (∀ x ∈ [(n, Instr.atom k f), (n, .cas k f), (16, .cas128 k f), (4, .slop k f)],
      if isS f.data = true then one x.1 x.2 else lanes far x.1 x.2)

/-- ATOM, CAS, CAS128 and RED (R231 to R241): each lane's operation is asked for at its home, sent beyond the link,
performed in L1, or, with a release, waits with its accesses; no byte but those of the lanes changes. The lanes performed
at once are so in a free order, one after another: each leaves op(old, v), and returns the old value that the ones before it
left. A word with a lane on a non-coherent host page stays at its word until its AtomicOps are back, which is the model's
choice (log 90). The op is that of the table of R235: integer, bitwise, exchange, or of FP32 or FP64 with the rounding of
R43 to nearest, R140's NaN and zero rules and R142's minimum and maximum, and their flags. -/
def Obligations.Atomics : Prop :=
  (∀ n old v : Nat, n = 4 ∨ n = 8 → old < 2 ^ (8 * n) → v < 2 ^ (8 * n) →
    let w := 8 * n
    let fm := if n = 8 then fp64 else fp32
    let x := fm.decode old
    let y := fm.decode v
    let pick (max : Bool) : Nat × Flags := ((roundTo fm (lesserOf max x y) 0 false 0).1, flagIf (x.isSnan || y.isSnan) fIV)
    atomOp 0 n old v = ((old + v) % 2 ^ w, 0#6) ∧
    atomOp 1 n old v = (if (BitVec.ofNat w old).toInt ≤ (BitVec.ofNat w v).toInt then old else v, 0#6) ∧
    atomOp 2 n old v = (if (BitVec.ofNat w v).toInt ≤ (BitVec.ofNat w old).toInt then old else v, 0#6) ∧
    atomOp 3 n old v = (if old ≤ v then old else v, 0#6) ∧ atomOp 4 n old v = (if v ≤ old then old else v, 0#6) ∧
    atomOp 5 n old v = ((BitVec.ofNat w old &&& BitVec.ofNat w v).toNat, 0#6) ∧
    atomOp 6 n old v = ((BitVec.ofNat w old ||| BitVec.ofNat w v).toNat, 0#6) ∧
    atomOp 7 n old v = ((BitVec.ofNat w old ^^^ BitVec.ofNat w v).toNat, 0#6) ∧ atomOp 8 n old v = (v, 0#6) ∧
    atomOp 9 n old v = ((roundOne { mode := 0, sat := false, dnf := false } fm (addNum false x y) 0#32).1,
      (roundOne { mode := 0, sat := false, dnf := false } fm (addNum false x y) 0#32).2.1) ∧
    atomOp 10 n old v = pick false ∧ atomOp 11 n old v = pick true) ∧
  ∀ (s : State) (k : Ctl) (f : MFields),
    let atomic (i : Instr) (n regs : Nat) (returns hostOk : Bool) (op : Nat → MemOp) (new : Nat → Nat → Nat) : Prop :=
      Issues s k i →
      let uniform := returns && isS f.data
      let lane (p : Addr × Phys) : LaneOp :=
        { lane := p.1.lane, key := p.2.key, n, op := op p.1.lane
          dst := if returns then dstKeys s.me f.data regs p.1.lane else [], flags := !uniform || s.me.eff k != 0#32 }
      (accessAddrs s s.me k f uniform = [] → f.order.getLsbD 1 = false → ∃ t, exec i s = .next t ∧ NoEffect s t k) ∧
      (accessAddrs s s.me k f uniform = [] → f.order.getLsbD 1 = true → ∃ t, exec i s = .next t ∧ Accessed s t k ∧
        SameMemory s t ∧ t.me.outs = s.me.outs ∧
        t.me.stq = s.me.stq ++ [{ id := s.nextId, kind := .fence f.scope.toNat f.order.toNat }]) ∧
      (∀ ps, accessAddrs s s.me k f uniform ≠ [] →
        s.accessPlaces k f uniform n (if returns then needR ||| needW else needW) (atomCheck f.scope.toNat n hostOk) n = .ok ps →
        ∃ t, exec i s = .next t ∧ MemoryOutside s t ps n ∧
          ((∀ p ∈ ps, linkedPage p.2 = false) → Accessed s t k) ∧ ((∃ p ∈ ps, linkedPage p.2 = true) → Linking s t k i) ∧
          (returns = true → Outstanding s t (ps.flatMap fun p => (lane p).dst) (f.order.getLsbD 0)) ∧
          (f.order.getLsbD 1 = true → SameMemory s t ∧ ∃ x, t.me.stq = s.me.stq ++ [{ id := s.nextId, kind := .release x }] ∧
            x.scope = f.scope.toNat ∧ ∀ p ∈ ps, ∃ r ∈ x.reqs, r.line = lineOf p.2.key ∧ lane p ∈ r.ops) ∧
          (f.order.getLsbD 1 = false → Performed s t true (ps.map lane)) ∧
          (f.order.getLsbD 1 = false → ∀ p, ps = [p] →
            (SameMemory s t ∧ (Requested s t (lane p) ∨ ∃ h ∈ t.hostOps, h.warp = s.cur ∧ h.own = s.nextId ∧ h.op = lane p)) ∨
            (t.readMem p.2.key n = new p.1.lane (s.readMem p.2.key n) % 2 ^ (8 * n) ∧
              (returns = true → Answered s t (lane p) (wordsOf n false (s.readMem p.2.key n))))))
    let n := 2 ^ f.size.toNat
    let v (l : Nat) : Nat := storeValue s s.me f.data n l
    atomic (.atom k f) n (n / 4) true (f.minor == 0#4 || f.minor == 8#4) (fun l => .atom f.minor.toNat (v l) true)
      (fun l old => (atomOp f.minor.toNat n old (v l)).1) ∧
    atomic (.red k f) n 0 false (f.minor == 0#4) (fun l => .atom f.minor.toNat (v l) false)
      (fun l old => (atomOp f.minor.toNat n old (v l)).1) ∧
    atomic (.cas k f) n (n / 4) true true (fun l => casOp s f.data n l)
      (fun l old => match casOp s f.data n l with | .cas cmp x => if old = cmp then x else old | _ => old) ∧
    atomic (.cas128 k f) 16 4 true true (fun l => casOp s f.data 16 l)
      (fun l old => match casOp s f.data 16 l with | .cas cmp x => if old = cmp then x else old | _ => old)

/-- SLOP, MON, LOCK and UNLOCK (R192, R240, R244): their requests go to the homes of their lines, and registers and
memory keep their values; without a lane they do nothing (R198). A LOCK under CTXCFG.QTRAP raises the quota trap where an
outcome is status 1, and else its statuses are outstanding (R383); that it is decided at issue, once what its lines' homes
have before it is served, is the model's choice (log 52). What their homes answer:
a LOCK and an UNLOCK of a device line in the order of R192, with the statuses of R191, once for the lanes of one line; a
MON arms its monitor; and a SLOP combines the words of its mask in ascending order, from the identity of its op. That a
LOCK with hint 3 fetches an absent line too is the model's reading (log 92). -/
def Obligations.LineRequests : Prop :=
  (∀ (s : State) (k : Ctl) (f : MFields),
     let asks (i : Instr) (uniform : Bool) (align : Nat) (check : Phys → Option Nat) (op : Addr × Phys → LaneOp)
         (acquires : Bool) (ps : List (Addr × Phys)) : Prop :=
       Issues s k i → s.accessPlaces k f uniform align needR check 0 = .ok ps →
         ∃ t, exec i s = .next t ∧ Accessed s t k ∧ SameMemory s t ∧ t.me.stq = s.me.stq ∧
           Outstanding s t (ps.flatMap fun p => (op p).dst) acquires ∧ ∀ p ∈ ps, Requested s t (op p)
     let line (op : Addr × Phys → MemOp) (p : Addr × Phys) : LaneOp :=
       { lane := p.1.lane, key := p.2.key, n := 1, op := op p, dst := dstKeys s.me f.data 1 p.1.lane }
     let lockOp (p : Addr × Phys) (h : Nat) : Prop := h % 8 = f.hint.toNat ∧ (8 ≤ h ↔ leafStripe p.2.entry ≠ 0)
     (∀ ps, accessAddrs s s.me k f (isS f.data) ≠ [] → (∀ p ∈ ps, s.poisonFor s.me.ctx (lineOf p.2.key) = 0#32) →
       asks (.slop k f) (isS f.data) 4 (fun p => if !scopeOk p.cls f.scope.toNat ∨ p.host then some 1 else none)
         (fun p => { lane := p.1.lane, key := p.2.key, n := 4, op := .slop f.minor.toNat (rd s s.me f.data p.1.lane)
                     dst := dstKeys s.me f.data 1 p.1.lane, flags := !isS f.data || s.me.eff k != 0#32 }) (f.order == 1#2) ps) ∧
     (∀ ps, s.me.acts k = true → asks (.mon k f) true 1 (fun p => if p.host ∨ p.cls = 0 then some 1 else none)
         (fun p => { lane := 0, key := p.2.key, n := 1, op := .monitor, dst := [] }) false ps) ∧
     (∀ ps, s.me.eff k ≠ 0#32 → asks (.unlock k f) (isS f.data) 1 (fun _ => none) (line fun _ => .unlock) false ps) ∧
     (∀ ps, s.me.eff k ≠ 0#32 → ctxQtrap (s.ctx s.me.ctx) = false →
       (∀ p ∈ ps, ∀ q ∈ ps, lineOf p.2.key = lineOf q.2.key → (leafStripe p.2.entry = 0 ↔ leafStripe q.2.entry = 0)) →
       ∃ h : Addr × Phys → Nat, (∀ p ∈ ps, lockOp p (h p)) ∧
         asks (.lock k f) (isS f.data) 1 (fun _ => none) (line fun p => .lock (h p)) false ps) ∧
     (∀ ps, s.me.eff k ≠ 0#32 → ctxQtrap (s.ctx s.me.ctx) = true → Issues s k (.lock k f) →
       s.accessPlaces k f (isS f.data) 1 needR (fun _ => none) 0 = .ok ps →
       ((∃ p ∈ ps, s.lineClear s.nextId (lineOf p.2.key) = false) → ∃ t, exec (.lock k f) s = .next t ∧
         t = { s with drains := t.drains, reqs := t.reqs, nextId := t.nextId } ∧ t.reqs.map (fun r => { r with held := false }) =
           s.reqs.map fun r => { r with held := false }) ∧
       ((∀ p ∈ ps, s.lineClear s.nextId (lineOf p.2.key) = true) →
       ∀ o os, groupLines (ps.map (line fun _ => .unlock)) = [(lineOf o.key, o :: os)] → s.home (lineOf o.key) < 512 →
         ∃ t code striped, exec (.lock k f) s = .next t ∧ LockOutcome s s.me.ctx (lineOf o.key) striped code ∧
           (code = 1 → s.me.priv = false → ∃ addr, Trapped s t { kind := 13, cause := 1, mask := s.me.eff k, addr } s.me.pc false) ∧
           (code ≠ 1 → ∃ u, Deferred u t k (o.dst.map (fun y => (y, BitVec.ofNat 32 code)) ++
               os.flatMap fun p => p.dst.map fun y => (y, 3#32)) 0#6 true false ∧
             LockEffect s u s.me.ctx (lineOf o.key) code ∧ SameMemory s u ∧ u.me = s.me))) ∧
     (∀ i, (i = .slop k f ∧ accessAddrs s s.me k f (isS f.data) = []) ∨ (i = .mon k f ∧ s.me.acts k = false) ∨
         ((i = .lock k f ∨ i = .unlock k f) ∧ s.me.eff k = 0#32) → Issues s k i → ∃ t, exec i s = .next t ∧ NoEffect s t k)) ∧
  (∀ (s : State) (slice line : Nat) (r : Request) (tie : Bool) (o : LaneOp) (os : List LaneOp),
     s.pickRequest slice line = some (r, tie) → r.held = false → s.obstacle r = .none → r.ops = o :: os →
     let k := warpKey r.core r.slot
     let answers (p : State → Prop) : Prop := ∃ t, exec (.homeRequest slice line) s = .next t ∧ SameMemory s t ∧
       (∀ x ∈ t.reqs, x.id ≠ r.id) ∧ p t
     (∀ h, o.op = .lock h → slice < 512 → answers fun t => ∃ code, LockOutcome s r.ctx line (decide (8 ≤ h)) code ∧
       LockEffect s t r.ctx line code ∧ Shares t k r.own o os (BitVec.ofNat 32 code) 3#32) ∧
     (o.op = .unlock → answers fun t => if (s.line line).locks.getLsbD r.ctx = true then
         Shares t k r.own o os 0#32 5#32 ∧ (t.line line).locks.getLsbD r.ctx = false ∧
           (t.ctx r.ctx).quotaUsed = (s.ctx r.ctx).quotaUsed - 1#32 ∧ (t.ctx r.ctx).wins = (s.ctx r.ctx).wins
       else Shares t k r.own o os 5#32 5#32 ∧ t.lines = s.lines ∧ t.ctxs = s.ctxs) ∧
     (os = [] → o.op = .monitor → answers fun t => (t.warp k).monitor = some { line, fired := false } ∧
       ∀ x ∈ (t.warp k).outs, x.id ≠ r.own) ∧
     (∀ op m key, os = [] → o.dst = [key] → o.op = .slop op m → answers fun t => Shares t k r.own o []
       (BitVec.ofNat 32 (slopLine op ((maskLanes m).map fun i => s.readMem (lineOf o.key * 128 + 4 * i) 4)).1) 0#32)) ∧
  (∀ ws : List Nat, (slopLine 0 ws).1 = ws.foldl (fun x y => (atomOp 9 4 x y).1) 0 ∧
     (slopLine 1 ws).1 = ws.foldl (fun x y => (roundTo fp32 (lesserOf true (fp32.decode x) (fp32.decode y)) 0 false 0).1) 0xFF800000 ∧
     (slopLine 2 ws).1 = ws.sum % 2 ^ 32 ∧ (slopLine 3 ws).1 = ws.foldl max 0 ∧ (slopLine 4 ws).1 = ws.foldl (· ||| ·) 0 ∧
     (slopLine 5 ws).1 = ws.countP fun y => y != 0)

/-- PREF and PREFT (R195) ask for lines at their homes, skip those that cannot be read, and change no value, no register and
no counter; that they do so by requests that are served in turn, on ports 0 and 3, is the model's choice (log 26); a home that
serves such a request brings the line into L2, and into the core's L1 with every word valid where the request asks for that.
CWB and CINV (R196) wait in the store counter with the lines that their lanes name, and then clean or drop the lines' copies
and change no byte; a line at a peer that no live path reaches keeps them waiting (R405). WINSET and WINCLR (R194): every page
is translated first; the status is outstanding, and it is the first of the rule's order that applies; on 0 the context has the
window more, or less, and its quota counts its lines; each line with something to move asks on port 3 of its old home, and the
status is there once the last of them has moved (R242). That a moved line leaves the L2, that the window's slices take each
line over by itself, and that a window word waits for the moves of another, are the model's choices (log 112). A window that is
turned down changes nothing, and under CTXCFG.QTRAP status 1 is the quota trap (R383). -/
def Obligations.CacheAndWindowWords : Prop :=
  (∀ (s : State) (k : Ctl),
     let asked (rs : List Request) (p : Phys) (port hint : Nat) (l1 : Bool) : Prop := ∃ r ∈ rs, r.line = lineOf p.key ∧
       warpKey r.core r.slot = s.cur ∧ r.port = port ∧ r.hint = hint ∧ r.inL1 = (l1 && hint != 3 && hint != 4) ∧
       r.ops = [{ lane := 0, key := lineOf p.key * 128, n := 128, op := .prefetch, dst := [] }]
     let plain (p : Phys) : Prop := p.host = true ∧ p.cls = 0
     let quiet (t : State) (rs : List Request) : Prop := SameMemory s t ∧
       t = { s.setMe (atNext s.me k) with reqs := s.reqs ++ rs, nextId := s.nextId + rs.length }
     let cleans (i : Instr) (f : MFields) (mem drop every : Bool) : Prop := Issues s k i →
       (dstLanes s.me k = [] → ∃ t, exec i s = .next t ∧ NoEffect s t k) ∧
       (∀ ps, dstLanes s.me k ≠ [] → s.accessPlaces k f false 1 needR (fun _ => none) 0 = .ok ps →
         ∃ t, exec i s = .next t ∧ ∃ ls, Accessed s t k ∧ SameMemory s t ∧ t.me.outs = s.me.outs ∧
           t.me.stq = s.me.stq ++ [{ id := s.nextId, kind := .writeBack ls mem drop every }] ∧
           ∀ n, n ∈ ls ↔ ∃ p ∈ ps, lineOf p.2.key = n)
     (∀ f, Issues s k (.pref k f) → ∃ t, exec (.pref k f) s = .next t ∧ ∃ rs, quiet t rs ∧
       (∀ l p, l < 32 → (s.me.eff k).getLsbD l = true →
         s.reach s.me (s.me.greg f.greg.toNat) (addrOf s s.me f l) 1 needR = .ok p → ¬plain p →
         asked rs p 0 f.hint.toNat (f.minor == 0#4)) ∧
       ∀ r ∈ rs, ∃ l p, l < 32 ∧ (s.me.eff k).getLsbD l = true ∧
         s.reach s.me (s.me.greg f.greg.toNat) (addrOf s s.me f l) 1 needR = .ok p ∧ ¬plain p ∧ r.line = lineOf p.key) ∧
     (∀ f, Issues s k (.preft k f) → ∃ t, exec (.preft k f) s = .next t ∧ ∃ rs, quiet t rs ∧
       let base := rdU64 s s.me f.a
       let size := (rdU s s.me f.b).toNat
       let va (i : Nat) : Dword := (base &&& ~~~(127#64)) + BitVec.ofNat 64 (128 * i)
       let overlaps (i : Nat) : Prop := s.me.acts k = true ∧ size ≠ 0 ∧ 128 * i < base.toNat % 128 + size
       let readable (i : Nat) (p : Phys) : Prop := (s.me.priv = true ∨ (va i).getLsbD 56 = false) ∧
         s.translate (keyCore s.cur) s.me.ctx (va i) needR = .ok p ∧ ¬plain p
       (∀ i p, overlaps i → readable i p → asked rs p 3 f.func.toNat false) ∧
       ∀ r ∈ rs, ∃ i p, overlaps i ∧ readable i p ∧ r.line = lineOf p.key) ∧
     (∀ f, cleans (.cwb k f) f (f.minor == 1#4) false false) ∧ (∀ f, cleans (.cinv k f) f false true (f.minor == 1#4))) ∧
  (∀ (s : State) (slice line : Nat) (r : Request) (tie : Bool), s.pickRequest slice line = some (r, tie) → r.held = false →
     s.obstacle r = .none → r.isLock = false → r.isMonitor = false → r.isPrefetch = true →
     ∃ t, exec (.homeRequest slice line) s = .next t ∧ SameMemory s t ∧ (∀ x ∈ t.reqs, x.id ≠ r.id) ∧
       (slice < 512 → s.servedHint r.ctx line r.hint ≠ 3 → (t.line line).inL2 = true) ∧
       (r.inL1 = true → r.tracked = true → s.servedHint r.ctx line r.hint ≠ 3 → (t.l1 r.core line).valid = 0xFFFFFFFF#32)) ∧
  (∀ (s : State) (slice line : Nat) (r : Request) (tie : Bool) (o : LaneOp) (n : Nat),
     s.pickRequest slice line = some (r, tie) → r.held = false → r.ops = [o] → o.op = .move n →
     let k := warpKey r.core r.slot
     ∃ t, exec (.homeRequest slice line) s = .next t ∧ SameMemory s t ∧ (∀ x ∈ t.reqs, x.id ≠ r.id) ∧
       (t.line line).inL2 = false ∧ t.ctx r.ctx = (s.ctx r.ctx).moved line ∧
       ((∀ x ∈ s.reqs, x.id ≠ r.id → warpKey x.core x.slot = k → x.own ≠ r.own) →
         ∀ x ∈ (t.warp k).outs, x.id = r.own → ∀ y ∈ x.tgts, y.key ∈ o.dst → y.val = some (BitVec.ofNat 32 n))) ∧
  (∀ (s : State) (core slot : Nat) (e : StEnt) (ls : List Nat) (mem drop every : Bool),
     let k := warpKey core slot
     (s.warp k).stq.find? (fun y => y.id == e.id) = some e → e.kind = .writeBack ls mem drop every →
     (s.team (s.warp k).teamKey).phase = none →
     ((∃ n ∈ ls, s.cutOff n = true) → exec (.storePerform core slot e.id) s = .next s) ∧
     ((∀ n ∈ ls, s.cutOff n = false) → (∀ r ∈ s.reqs, r.core = core → r.line ∈ ls → e.id ≤ r.own) →
     ∃ t, exec (.storePerform core slot e.id) s = .next t ∧ SameMemory s t ∧
       (t.warp k).stq = (s.warp k).stq.filter (fun y => y.id != e.id) ∧
       ∀ n ∈ ls, (t.l1 core n).dirty = 0#32 ∧ (mem = true ∨ every = true → (t.line n).dirty = false) ∧
         (drop = true → t.l1 core n = {} ∧ t.l1 core (ncKey n) = {}) ∧
         (every = true → s.pinned n = false → (t.line n).inL2 = false))) ∧
  (∀ (s : State) (k : Ctl) (f : EFields),
     let c := s.me.ctx
     let x := s.ctx c
     let answers (i : Instr) (p : State → Word → Prop) : Prop := ∃ t, exec i s = .next t ∧ ∃ u v,
       Deferred u t k (writes32 s.me k f.d fun _ => v) 0#6 true false ∧ u.me = s.me ∧ SameMemory s u ∧
       u = { s with lines := u.lines, ctxs := u.ctxs } ∧ (∀ y, y ≠ c → u.ctx y = s.ctx y) ∧ p u v
     let base := rdU64 s s.me f.a
     let size := (loWord (rdU64 s s.me f.b)).toNat
     let mask := hiWord (rdU64 s s.me f.b)
     let pages := if size = 0 then 0 else (base.toNat % 65536 + size + 65535) / 65536
     let keys := dstKeys s.me f.d 1 0
     let moves (i : Instr) (ls : List Nat) (n : Nat) (y : Ctx) : Prop := ∃ t, exec i s = .next t ∧ SameMemory s t ∧
       t = { s.setMe t.me with ctxs := t.ctxs, reqs := t.reqs, nextId := t.nextId } ∧ (∀ z, z ≠ c → t.ctx z = s.ctx z) ∧
       t.me = { atNext s.me k with outs := t.me.outs } ∧ Outstanding s t keys false ∧ t.ctx c = y ∧
       (∀ r ∈ s.reqs, r ∈ t.reqs) ∧ (∀ r ∈ t.reqs, r ∈ s.reqs ∨ r.port = 3 ∧ r.line ∈ ls) ∧
       ∀ l ∈ ls, Requested s t { lane := 0, key := l * 128, n := 128, op := .move n, dst := keys }
     (∀ i, i = .winset k f ∨ i = .winclr k f → s.me.acts k = true → Issues s k i → s.inMotion = true → exec i s = .next s) ∧
     (∀ ps, s.me.acts k = true → Issues s k (.winset k f) → s.inMotion = false →
       s.windowPages s.me (s.me.eff k) base pages = .ok ps →
       let ls := windowLines base size ps
       let die := (ps.map fun p => p.key / dieSize).headD 0
       let quad := die * 4 + f.func.toNat
       let c7 : Prop := base.toNat % 128 ≠ 0 ∨ size % 128 ≠ 0 ∨ size = 0 ∨ mask = 0#32
       let c4 : Prop := ∃ p ∈ ps, p.host = true ∨ leafStripe p.entry ≠ 0 ∨ p.key / dieSize ≠ die
       let c2 : Prop := x.waymask.getLsbD (16 + quad) = false ∨ x.waymask.setWidth 16 = 0#16
       let c8 : Prop := ∀ n, n < 8 → ∃ w ∈ x.wins, w.num = n
       let c9 : Prop := ∃ l ∈ ls, ∃ y ∈ s.ctxs, ∃ w ∈ y.2.wins, l ∈ w.lines
       let c3 : Prop := ∃ l ∈ ls, (s.line l).locks.getLsbD c = true
       let c1 : Prop := x.quotaLimit.toNat < x.quotaUsed.toNat + size / 128
       let refused (n : Nat) : Prop := answers (.winset k f) fun u v => v = BitVec.ofNat 32 n ∧ u = s
       (c7 → refused 7) ∧ (¬c7 → c4 → refused 4) ∧ (¬c7 → ¬c4 → c2 → refused 2) ∧ (¬c7 → ¬c4 → ¬c2 → c8 → refused 8) ∧
       (¬c7 → ¬c4 → ¬c2 → ¬c8 → c9 → refused 9) ∧ (¬c7 → ¬c4 → ¬c2 → ¬c8 → ¬c9 → c3 → refused 3) ∧
       (¬c7 → ¬c4 → ¬c2 → ¬c8 → ¬c9 → ¬c3 → c1 → (ctxQtrap x = false → refused 1) ∧
         (ctxQtrap x = true → s.me.priv = false → ∃ t, exec (.winset k f) s = .next t ∧
           Trapped s t { kind := 13, cause := 2, mask := s.me.eff k, addr := base } s.me.pc false)) ∧
       (¬c7 → ¬c4 → ¬c2 → ¬c8 → ¬c9 → ¬c3 → ¬c1 →
         ∃ n, n < 8 ∧ (∀ y ∈ x.wins, y.num ≠ n) ∧ (∀ m, m < n → ∃ y ∈ x.wins, y.num = m) ∧
           let y : Ctx := { x with
             wins := x.wins ++ [{ num := n, base, lines := ls, moving := s.toMove ls
                                  slices := ((slicesOfQuad quad).zipIdx.filter fun y => mask.getLsbD y.2).map Prod.fst }]
             quotaUsed := x.quotaUsed + BitVec.ofNat 32 (size / 128) }
           (s.toMove ls = [] → answers (.winset k f) fun u v => v = BitVec.ofNat 32 (256 * n) ∧ u.ctx c = y) ∧
           (s.toMove ls ≠ [] → moves (.winset k f) (s.toMove ls) (256 * n) y))) ∧
     (∀ y, s.me.acts k = true → Issues s k (.winset k f) → s.inMotion = false → s.windowPages s.me (s.me.eff k) base pages = .error y →
       exec (.winset k f) s = .next (s.takeTrap y)) ∧
     (s.me.acts k = true → Issues s k (.winclr k f) → s.inMotion = false →
       let n := (rdU s s.me f.a).toNat
       ((∀ y ∈ x.wins, y.num ≠ n) → answers (.winclr k f) fun u v => v = 5#32 ∧ u = s) ∧
       (∀ w, x.wins.find? (fun y => y.num == n) = some w →
         let ls := s.toMove w.lines
         let quotaUsed := x.quotaUsed - BitVec.ofNat 32 (w.lines.length - w.unpinned.length)
         (ls = [] → answers (.winclr k f) fun u v => v = 0#32 ∧
           u.ctx c = { x with wins := x.wins.filter fun y => y.num != w.num, quotaUsed }) ∧
         (ls ≠ [] → moves (.winclr k f) ls 0 { x with
           wins := x.wins.map fun y => if y.num = w.num then { y with closing := true, moving := ls } else y, quotaUsed }))) ∧
     (∀ i, i = .winset k f ∨ i = .winclr k f → s.me.acts k = false → Issues s k i → ∃ t, exec i s = .next t ∧ NoEffect s t k))

/-- GBIND, GINV and QCLASS (R175, R176, R197): what a translation register takes, and the loss of VALID; QCLASS answers,
for each lane, the cause of a failed translation, or the page's validity, class, permissions, place, bias, size, stripe
and AtomicOps in the bits of R197: from the tables, or on the fast path from the register, whose page has no stripe; what
the register does not hold is then the model's (log 9). FENCE (R216 to R218), MWAIT (R245) and WATCH (R246): an acquire
fence has nothing left to wait for and a release waits in the store counter; MWAIT takes a monitor that has fired and
sleeps on one that has not; WATCH sleeps, and its comparison waits for its home. Without a lane that runs they have no
effect, but for FENCE, which has no mask. -/
def Obligations.TranslationAndFences : Prop :=
  (∀ (s : State) (k : Ctl) (f : MFields),
     let g := s.me.greg f.greg.toNat
     let base := rdU64 s s.me f.data
     (Issues s k (.gbind k f) → s.me.acts k = true → ∃ t, exec (.gbind k f) s = .next t ∧ ∃ o x, Accessed s t k ∧ SameMemory s t ∧
       t.me.stq = s.me.stq ∧ o ∈ t.me.outs ∧ o.id = s.nextId ∧ o.tgts = [] ∧ o.greg = some (gregNum s.me f.greg.toNat, x) ∧
       x.vbase = base ∧ (∀ e, s.leafOf (keyCore s.cur) s.me.ctx base = .error e → x.valid = false) ∧
       ∀ e l, s.leafOf (keyCore s.cur) s.me.ctx base = .ok (e, l) → (∀ c, s.place s.me.ctx base e l = .error c → x.valid = false) ∧
         ∀ p, s.place s.me.ctx base e l = .ok p → (leafStripe e ≠ 0 → x.valid = false) ∧
           (leafStripe e = 0 → x.valid = true ∧ x.pbase = BitVec.ofNat 52 p.key ∧ x.host = p.host ∧ x.perm = p.perm ∧
             x.cls = BitVec.ofNat 2 p.cls ∧
             x.limit = BitVec.ofNat 32 (min (rdU s s.me f.off).toNat (pageSize l - base.toNat % pageSize l)))) ∧
     (Issues s k (.ginv k f) → s.me.acts k = true → ∃ t, exec (.ginv k f) s = .next t ∧ t = s.setMe t.me ∧
       t.me = { atNext s.me k with gregs := t.me.gregs, bankG := t.me.bankG, outs := t.me.outs } ∧
       t.me.outs.map (fun o => (o.id, o.tgts)) = s.me.outs.map (fun o => (o.id, o.tgts)) ∧
       (∀ o ∈ t.me.outs, ∀ x, o.greg = some (gregNum s.me f.greg.toNat, x) → x.valid = false) ∧
       t.me.greg f.greg.toNat = { g with valid := false } ∧
       ∀ m, m < 8 → m ≠ f.greg.toNat → t.me.greg m = s.me.greg m) ∧
     (Issues s k (.qclass k f) → s.me.eff k ≠ 0#32 → ∃ t, exec (.qclass k f) s = .next t ∧ ∃ u ws,
       u.me = s.me ∧ u = { s with cores := u.cores } ∧ Deferred u t k ws 0#6 true false ∧
       ws.map Prod.fst = (accessAddrs s s.me k f (isS f.data)).flatMap (fun a => dstKeys s.me f.data 1 a.lane) ∧
       ∀ key v, (key, v) ∈ ws → ∃ a ∈ accessAddrs s s.me k f (isS f.data), key ∈ dstKeys s.me f.data 1 a.lane ∧
         let fast := g.fast a (2 ^ f.size.toNat)
         let holds (p : Phys) : Prop := v.getLsbD 0 = true ∧ v.extractLsb' 1 5 = 0#5 ∧ (v.extractLsb' 6 2).toNat = p.cls % 4 ∧
           v.extractLsb' 8 3 = p.perm ∧ v.getLsbD 11 = p.host ∧ v.getLsbD 12 = leafBias p.entry ∧
           (v.extractLsb' 13 2).toNat = p.level % 4 ∧ (v.extractLsb' 15 6).toNat = leafStripe p.entry ∧
           (∀ i, i < 3 → v.getLsbD (21 + i) = (!p.host || p.cls == 2 || p.entry.getLsbD (61 + i))) ∧ v.extractLsb' 24 8 = 0#8
         (fast = false → (∀ c, s.translate (keyCore s.cur) s.me.ctx a.va 0#3 = .error c → v = BitVec.ofNat 32 (2 * c)) ∧
           ∀ p, s.translate (keyCore s.cur) s.me.ctx a.va 0#3 = .ok p → holds p) ∧
         (fast = true → ∃ p : Phys, holds p ∧ p.cls = g.cls.toNat ∧ p.perm = g.perm ∧ leafStripe p.entry = 0 ∧
           (g.pbase.toNat + a.o.toNat < 2 ^ 52 → p.host = g.host))) ∧
     (∀ i, ((i = .gbind k f ∨ i = .ginv k f) ∧ s.me.acts k = false) ∨ (i = .qclass k f ∧ s.me.eff k = 0#32) →
       Issues s k i → ∃ t, exec i s = .next t ∧ NoEffect s t k)) ∧
  (∀ (s : State) (k : Ctl) (f : MFields),
     (Issues s k (.fence k f) → f.order = 1#2 → ∃ t, exec (.fence k f) s = .next t ∧ NoEffect s t k) ∧
     (Issues s k (.fence k f) → f.order ≠ 1#2 → ∃ t, exec (.fence k f) s = .next t ∧ Accessed s t k ∧ SameMemory s t ∧
       t.me.outs = s.me.outs ∧
       t.me.stq = s.me.stq ++ [{ id := s.nextId, kind := .fence f.scope.toNat f.order.toNat }]) ∧
     (Issues s k (.mwait k f) → s.me.monitor = none ∨ s.me.acts k = false →
       ∃ t, exec (.mwait k f) s = .next t ∧ NoEffect s t k) ∧
     (∀ m, Issues s k (.mwait k f) → s.me.monitor = some m → s.me.acts k = true → ∃ t, exec (.mwait k f) s = .next t ∧
       (m.fired = true → t = s.setMe (atNext { s.me with monitor := none } k)) ∧ (m.fired = false → Sleeps s t k .mwait)) ∧
     (Issues s k (.watch k f) → s.me.acts k = false → ∃ t, exec (.watch k f) s = .next t ∧ NoEffect s t k) ∧
     (∀ p, Issues s k (.watch k f) → s.me.acts k = true →
       s.accessPlaces k f true (2 ^ f.size.toNat) needR
         (fun p => if !scopeOk p.cls f.scope.toNat ∨ p.host then some 1 else none) 0 = .ok [p] →
       ∃ t, exec (.watch k f) s = .next t ∧ ∃ u x, Sleeps u t k .watch ∧ u.me = s.me ∧
         u = { s with cores := u.cores, watches := s.watches ++ [x] } ∧ x.warp = s.cur ∧ x.key = p.2.key ∧
         x.n = 2 ^ f.size.toNat ∧ x.cond = f.minor.toNat ∧ x.cmp = storeValue s s.me f.data (2 ^ f.size.toNat) 0 ∧
         x.order = f.order.toNat ∧ x.scope = f.scope.toNat ∧ x.lookout = false ∧ x.wake = none ∧
         x.dst = (List.range (x.n / 4)).map fun i => s.me.sKey (regNum f.data + x.n / 4 + i)))

/-- BAR, BARA and BARW (R241, R248 to R250): the first arrival of a generation fixes its count, and the one that completes it
starts the next and clears the arrivals; BAR sleeps on a generation that it does not complete, BARA goes on with its number,
and BARW sleeps while the generation is the one that it names. A second arrival in one generation waits. The model's readings:
that an arrival waits for the warp's earlier accesses (log 27), that BARA's register is written as it issues (log 55), and that
a second arrival waits in its run (log 121). -/
def Obligations.TeamBarriers : Prop :=
  ∀ (s : State) (k : Ctl) (f : EFields),
    let tk := s.me.teamKey
    let n := (s.team tk).cores.length
    let x := (s.team tk).bar f.func.toNat
    let count := if rdU s s.me f.a = 0#32 then n else (rdU s s.me f.a).toNat
    let all := x.arrived ||| (1#16 <<< s.me.twarp)
    let full := popcount all = (if x.arrived = 0#16 then BitVec.ofNat 5 count else x.count).toNat
    let arrives : Prop := s.me.acts k = true ∧ count ≤ n ∧ x.arrived.getLsbD s.me.twarp = false ∧ s.me.stq = [] ∧
      (∀ o ∈ s.me.outs, s.pending s.cur o.id = false) ∧
      (full → ∀ y ∈ tset 0#32 x.rel (keyCore s.cur) ((s.core (keyCore s.cur)).relCtr + 1#32),
        s.markersPass y.1 (s.dirtyLines y.1 y.2) = true)
    let arrived (u : State) : Prop := OnlyMonitors s u ∧ SameMemory s u ∧
      u = { s with teams := u.teams, cores := u.cores, lines := u.lines, warps := u.warps } ∧
      (∀ y, y ≠ tk → u.team y = s.team y) ∧ u.team tk = { s.team tk with bars := (u.team tk).bars } ∧
      (∀ b, b ≠ f.func.toNat → (u.team tk).bar b = (s.team tk).bar b) ∧
      let y := (u.team tk).bar f.func.toNat
      (full → y.gen = x.gen + 1#32 ∧ y.arrived = 0#16 ∧ y.count = 0#5) ∧
      (¬full → y.gen = x.gen ∧ y.arrived = all ∧ y.count = if x.arrived = 0#16 then BitVec.ofNat 5 count else x.count)
    (Issues s k (.bar k f) → arrives → ∃ t, exec (.bar k f) s = .next t ∧ ∃ u, arrived u ∧
      (full → NoEffect u t k) ∧ (¬full → Sleeps u t k (.barrier f.func.toNat x.gen))) ∧
    (Issues s k (.bara k f) → arrives → ∃ t, exec (.bara k f) s = .next t ∧ ∃ u, arrived u ∧
      Wrote32 u t k f.d 0#6 fun _ => x.gen) ∧
    (Issues s k (.barw k f) → ∃ t, exec (.barw k f) s = .next t ∧
      if s.me.acts k = true ∧ x.gen = rdU s s.me f.a then Sleeps s t k (.barrier f.func.toNat x.gen) else NoEffect s t k) ∧
    (∀ i, i = .bar k f ∨ i = .bara k f → Issues s k i → s.me.acts k = true → count ≤ n →
      x.arrived.getLsbD s.me.twarp = true → exec i s = .next s) ∧
    (∀ i, i = .bar k f ∨ i = .bara k f → Issues s k i → s.me.acts k = false → ∃ t, exec i s = .next t ∧ NoEffect s t k)

/-! ## The Skidder, folds and streams (R252 to R275) -/

/-- CPY, CPYB, GATH, SCAT and MCAST (R252 to R255, R264 to R267): a word whose operands keep the limits and whose fold
has no error begins to probe once the Skidder has room for its commands, with its operands as they are at issue; one
with nothing to do goes on at the next word, and one on a fold with an error takes its trap. That a breach of a limit is
an alignment trap is the model's choice (log 29). PROBE_COMPLETE (R253): a probe that fails traps the word, and one that
succeeds hands its commands, one for a CPY, to the Skidder, and their fold counts them. SKIDDER_LANDING (R254, R258,
R263): no move passes an earlier word's of its warp on the same fold; a piece is read from its source and, once read,
lands at its destination once its line is claimed, its fold counts its bytes, and the line's last piece frees the claim;
an error drops the command whole. MULTICAST_REGISTER (R267): a destination core without an open fold is recorded in MISS; a
source piece is read once for all destinations, each destination's fold counts its bytes, and the issuing fold the whole size
with the last piece of each destination. The model's choices: that a breach names the address said (logs 122, 125) and that
the fold's error goes before it (log 108); that a marked scratchpad word is an error of a copy, code 1, as a poisoned line is
(log 32), and that an error of a multicast fails its open destinations' folds (log 31); that INFL rises as the probe succeeds,
and that a piece is counted as it lands (log 48); that INFL and ARRB wrap (logs 105, 106); when claims and moves wait (log 94).
-/
def Obligations.Copies : Prop :=
  (∀ (s : State) (k : Ctl) (f : EFields),
     let e := s.me.eff k
     let on (l : Nat) : Prop := l < 32 ∧ e.getLsbD l = true
     let z := copyFunc f.func
     let starts (i : Instr) (vals : List Nat) : Prop :=
       Issues s k i → (s.fold s.me.teamKey f.fold.toNat).err = 0#3 → vals ≠ [] →
       s.commands (keyCore s.cur) + (s.me.captured k i vals).count ≤ 32 →
       ∃ t, exec i s = .next t ∧ HandedOver s t k i .probing vals
     let num (mem : Bool) (o : Operand) (l : Nat) : Nat := if mem then (rd64 s s.me o l).toNat else (rd s s.me o l).toNat
     let src := num (z.dir != 1) f.a
     let dst := num (z.dir != 0) f.b
     let lane := electedLane s.me k f.d
     let size := (rd s s.me f.d lane).toNat
     let d (i : Nat) : Nat := match f.d with
       | .v r => (s.me.getV (r.val + i) lane).toNat
       | .s r => (s.me.getS (r.val + i)).toNat
       | _ => 0
     let a := (rd64 s s.me f.a lane).toNat
     let ys := rowAsks s s.me k f
     (e ≠ 0#32 → (∀ l, on l → src l % (4 * 2 ^ z.sz) = 0 ∧ dst l % (4 * 2 ^ z.sz) = 0) →
       starts (.cpy k f) ((maskLanes e).flatMap fun l => [l, src l, dst l])) ∧
     (electedActs s.me k f.d = true → src lane % 16 = 0 → dst lane % 16 = 0 → size % 16 = 0 → size ≤ 2 ^ 24 → size ≠ 0 →
       starts (.cpyb k f) [size, src lane, dst lane]) ∧
     (electedActs s.me k f.d = true → (∀ y ∈ ys, rowsOk y = true) →
       starts (.gath k f) (ys.filter fun y => y.getD 1 0 != 0).flatten ∧
       starts (.scat k f) (ys.filter fun y => y.getD 1 0 != 0).flatten) ∧
     (electedActs s.me k f.d = true → d 1 < 2 ^ 18 → d 2 < 128 → d 0 % 16 = 0 → 16 ≤ d 0 → d 0 ≤ 65536 →
       d 3 % 16 = 0 → starts (.mcast k f) [d 0, d 1, d 2, d 3, a]) ∧
     (e = 0#32 → Issues s k (.cpy k f) → ∃ t, exec (.cpy k f) s = .next t ∧ LeftEngine s t k) ∧
     (∀ i, i = .cpyb k f ∨ i = .gath k f ∨ i = .scat k f ∨ i = .mcast k f → electedActs s.me k f.d = false → Issues s k i →
       ∃ t, exec i s = .next t ∧ LeftEngine s t k) ∧
     (electedActs s.me k f.d = true → Issues s k (.cpyb k f) → (s.fold s.me.teamKey f.fold.toNat).err = 0#3 → s.me.priv = false →
       src lane % 16 ≠ 0 ∨ dst lane % 16 ≠ 0 ∨ size % 16 ≠ 0 ∨ 2 ^ 24 < size → ∃ t, exec (.cpyb k f) s = .next t ∧
       Trapped s t { kind := 6, mask := e, addr := BitVec.ofNat 64 (if src lane % 16 ≠ 0 then src lane else dst lane) } s.me.pc false) ∧
     (∀ i, i = .cpy k f ∧ e ≠ 0#32 ∨ (i = .cpyb k f ∨ i = .gath k f ∨ i = .scat k f ∨ i = .mcast k f ∧ d 1 < 2 ^ 18 ∧ d 2 < 128) ∧
       electedActs s.me k f.d = true → Issues s k i → s.me.priv = false →
       let err := (s.fold s.me.teamKey f.fold.toNat).err
       err ≠ 0#3 → ∃ t, exec i s = .next t ∧ ∃ a, Trapped s t
         { kind := 14, cause := 3, mask := e, addr := a, info := BitVec.ofNat 32 (f.fold.toNat + 256 * err.toNat) } s.me.pc false)) ∧
  (∀ (s : State),
     (∀ core slot c, let k := warpKey core slot
       let u : State := { s with cur := k }
       let ls := u.indexLines u.me c
       let r := u.probe u.me c
       let ps := commandsOf c.instr (successes r.1)
       let fields := copyFields c.instr
       let tk := u.me.teamKey
       slot < 64 → u.me.req = some c → u.me.status = .probing → u.me.frozen = none →
       (∀ l ∈ ls, u.readWaits core u.nextId l = false) →
       (∀ x, probeTrap c.exec (failures r.1) = some x → u.me.priv = false → ∃ t, exec (.probeComplete core slot) s = .next t ∧
         ∃ v, CopiesMoved u v ∧ Trapped v t x u.me.pc false) ∧
       (failures r.1 = [] → (u.fold tk fields.1).state ≠ 0#2 → ∃ t, exec (.probeComplete core slot) s = .next t ∧ SameMemory s t ∧
         (t.warp k).status = afterMark c.ctl.sw ∧ (t.warp k).pc = u.me.pc + 8#64 ∧ (t.warp k).running = false ∧
         (t.fold tk fields.1).infl = (s.fold tk fields.1).infl + BitVec.ofNat 8 ps.length ∧
         ∃ new, (t.core core).cmds = (s.core core).cmds ++ new ∧
           new.map (fun x => (x.pieces, x.claims)) = ps.map (fun p => (p.1, distinct p.2)) ∧
           ∀ x ∈ new, x.word = s.nextId ∧ x.slot = slot ∧ x.team = tk ∧ x.fold = fields.1 ∧ x.hint = fields.2.1 ∧
             x.swz = fields.2.2 ∧ x.mcast = r.2 ∧ ∀ l ∈ x.claims, l ∉ x.late → ∃ n, (x.id, n) ∈ (t.line l).claims)) ∧
     (∀ core cmd piece good c p, (s.core core).cmds.find? (fun x => x.id == cmd) = some c → c.mcast = none →
       (∀ q ∈ c.pieces, q.dest = none) → c.pieces[piece]? = some p →
       let lands (t : State) : Prop := exec (.skidderLanding core cmd piece good) s = .next t
       let fails (code : BitVec 3) : Prop := ∃ t, lands t ∧ SameMemory s t ∧ (∀ x ∈ (t.core core).cmds, x.id ≠ cmd) ∧
         (t.fold c.team c.fold).err = (if (s.fold c.team c.fold).err = 0#3 then code else (s.fold c.team c.fold).err) ∧
         (t.fold c.team c.fold).infl = (s.fold c.team c.fold).infl - 1#8
       let counted (t : State) : Prop := (t.fold c.team c.fold).arrb = (s.fold c.team c.fold).arrb + BitVec.ofNat 32 p.n
       (s.behindFold core c = true → lands s) ∧
       (s.behindFold core c = false →
         (p.got = none → s.badBytes (c.team / 64) p.src p.n = true → fails 1#3) ∧
         (p.got = none → s.badBytes (c.team / 64) p.src p.n = false → good = false → p.src.host = true → fails 4#3) ∧
         (p.got = none → s.badBytes (c.team / 64) p.src p.n = false → good = true ∨ p.src.host = false →
           (s.sourceWaits core cmd p.src = true → lands s) ∧
           (s.sourceWaits core cmd p.src = false → ∃ t, lands t ∧ SameMemory s t ∧ ∃ x ∈ (t.core core).cmds, ∃ q, x.id = cmd ∧
             x.pieces[piece]? = some q ∧ q.got = some (s.bytesOf p.src p.n))) ∧
         (∀ bs, p.got = some bs →
           (good = false → p.dst.host = true → fails 4#3) ∧
           (∀ team off, p.dst = .scr team off → ∃ t, lands t ∧ SameMemory s t ∧ counted t ∧
             ∀ i, i < bs.length → tget blankByte (t.team team).scratch (off + i) = bs.getD i 0#8) ∧
           (∀ key, p.dst = .mem key → good = true ∨ p.dst.host = false →
             let line := lineOf key
             (line ∈ c.late → s.mayClaim core cmd line (unreadOf c.pieces) = false → lands s) ∧
             (line ∈ c.late → s.mayClaim core cmd line (unreadOf c.pieces) = true → ∃ t, lands t ∧ SameMemory s t ∧
               (∃ n, (cmd, n) ∈ (t.line line).claims) ∧ ∀ x ∈ (t.core core).cmds, x.id = cmd → line ∉ x.late) ∧
             (line ∉ c.late → s.writeWaits core cmd line = true → lands s) ∧
             (line ∉ c.late → s.writeWaits core cmd line = false → s.refused (c.team / 64) line = false →
               ∃ t, lands t ∧ counted t ∧ (∀ i, i < bs.length → t.byteAt (key + i) = bs.getD i 0#8) ∧
                 (∀ a, a < key ∨ key + bs.length ≤ a → t.byteAt a = s.byteAt a) ∧
                 (keyIsHost key = false → (t.line line).swz = BitVec.ofNat 3 c.swz) ∧
                 ((∀ q ∈ c.pieces.eraseIdx piece, q.dstLine ≠ some line) → ∀ y ∈ (t.line line).claims, y.1 ≠ cmd)))))) ∧
     (∀ core cmd piece good c vs p d, (s.core core).cmds.find? (fun x => x.id == cmd) = some c → c.mcast = some vs →
       c.pieces[piece]? = some p → p.dest = some d →
       let lands (t : State) : Prop := exec (.skidderLanding core cmd piece good) s = .next t
       let rest := c.pieces.eraseIdx piece
       (s.behindFold core c = true → lands s) ∧
       (s.behindFold core c = false →
         (p.got = none → s.badBytes (c.team / 64) p.src p.n = true → ∃ t, lands t ∧ SameMemory s t ∧
           (∀ x ∈ (t.core core).cmds, x.id ≠ cmd) ∧ (t.fold c.team c.fold).err ≠ 0#3 ∧
           ∀ q ∈ c.pieces, ∀ y, q.dest = some y → (t.fold y.2.1 y.2.2).err ≠ 0#3) ∧
         (p.got = none → s.badBytes (c.team / 64) p.src p.n = false → good = true ∨ p.src.host = false →
           s.sourceWaits core cmd p.src = false → ∃ t, lands t ∧ SameMemory s t ∧ ∃ x ∈ (t.core core).cmds, x.id = cmd ∧
             (∃ q, x.pieces[piece]? = some q ∧ q.got = some (s.bytesOf p.src p.n)) ∧
             ∀ q ∈ x.pieces, q.src = p.src → q.n = p.n → q.got ≠ none) ∧
         (∀ bs team off, p.got = some bs → p.dst = .scr team off → ∃ t, lands t ∧ SameMemory s t ∧
           (∀ i, i < bs.length → tget blankByte (t.team team).scratch (off + i) = bs.getD i 0#8) ∧
           let last := rest.all fun q => q.dest != some d
           ∀ tk n, (t.fold tk n).arrb = (s.fold tk n).arrb + (if tk = d.2.1 ∧ n = d.2.2 then BitVec.ofNat 32 p.n else 0#32) +
               (if last = true ∧ tk = c.team ∧ n = c.fold then BitVec.ofNat 32 (vs.getD 0 0) else 0#32) ∧
             (t.fold tk n).infl = (s.fold tk n).infl - (if last = true ∧ tk = d.2.1 ∧ n = d.2.2 then 1#8 else 0#8) -
               (if rest = [] ∧ tk = c.team ∧ n = c.fold then 1#8 else 0#8)))) ∧
     (∀ core cmd c vs, (s.core core).cmds.find? (fun x => x.id == cmd) = some c → c.mcast = some vs →
       (∀ p ∈ c.pieces, p.dest = none) → ∃ t, exec (.multicastRegister core cmd) s = .next t ∧ SameMemory s t ∧
         (∀ i, i < 16 → ((t.fold c.team c.fold).miss.getLsbD i = true ↔ (s.fold c.team c.fold).miss.getLsbD i = true ∨
           (vs.getD 1 0).testBit i = true ∧ s.mcastDest (c.team / 64) (dieOf core) vs i = none)) ∧
         ∀ x ∈ (t.core core).cmds, x.id = cmd → ∀ q ∈ x.pieces, ∃ d, q.dest = some d ∧ d ∈ (List.range 16).filterMap fun i =>
           if (vs.getD 1 0).testBit i then s.mcastDest (c.team / 64) (dieOf core) vs i else none))

/-- FALLOC, FFREE and FSTATE (R257 to R259, R262): the states and statuses of a fold's allocation, and its entry's
fields. BXPECT and RXPECT (R258, R260): the expectation joins the fold's and arms its count, and the fold is full once
every armed count meets its expectation; one on a full or draining fold is error 3 and one past 2^32 error 2, of which
the first is kept. The waiting form sleeps on a fold that is not there yet. -/
def Obligations.FoldWords : Prop :=
  (∀ (s : State) (k : Ctl) (f : EFields),
     let tk := s.me.teamKey
     let n := f.fold.toNat
     let x := s.fold tk n
     let base := rdU s s.me f.a
     let size := rdU s s.me f.b
     let bad := base.toNat % 16 ≠ 0 ∨ size.toNat % 16 ≠ 0 ∨ (s.team tk).scratchSize < base.toNat + size.toNat
     let consn := BitVec.ofNat 5 (max 1 (f.func.toNat % 32))
     (Issues s k (.falloc k f) → s.me.acts k = true → ∃ t, exec (.falloc k f) s = .next t ∧ ∃ u v,
       (Wrote32 u t k f.d 0#6 fun _ => v) ∧ FoldOnly s u tk n ∧ u.me = s.me ∧
       (x.state ≠ 0#2 → v = 1#32 ∧ u = s) ∧ (x.state = 0#2 → bad → v = 2#32 ∧ u = s) ∧
       (x.state = 0#2 → ¬bad → v = 0#32 ∧
         u.fold tk n = { infl := x.infl, abase := base, asize := size, consn, cons := consn, state := 1#2 })) ∧
     (Issues s k (.ffree k f) → s.me.acts k = true → ∃ t, exec (.ffree k f) s = .next t ∧ ∃ u v,
       (Wrote32 u t k f.d 0#6 fun _ => v) ∧ FoldOnly s u tk n ∧ u.me = s.me ∧
       (x.state = 0#2 → v = 1#32 ∧ u = s) ∧ (x.state ≠ 0#2 → x.infl ≠ 0#8 → v = 2#32 ∧ u = s) ∧
       (x.state ≠ 0#2 → x.infl = 0#8 → v = 0#32 ∧ u.fold tk n = {})) ∧
     (Issues s k (.fstate k f) → ∃ t, exec (.fstate k f) s = .next t ∧ ∃ v, (Wrote32 s t k f.d 0#6 fun _ => v) ∧
       (f.func = 0#16 → v.extractLsb' 0 2 = x.state ∧ v.getLsbD 4 = x.armb ∧ v.getLsbD 5 = x.armr ∧
         v.extractLsb' 8 3 = x.err ∧ v.extractLsb' 11 5 = x.cons ∧ v.extractLsb' 16 16 = x.miss) ∧
       (f.func = 1#16 → v = x.arrb) ∧ (f.func = 2#16 → v = x.arrr) ∧
       (f.func = 3#16 → v.extractLsb' 19 5 = x.consn ∧ v.extractLsb' 24 8 = x.infl)) ∧
     (∀ i, i = .falloc k f ∨ i = .ffree k f → Issues s k i → s.me.acts k = false → ∃ t, exec i s = .next t ∧ NoEffect s t k)) ∧
  (∀ (s : State) (k : Ctl) (f : EFields),
     let tk := s.me.teamKey
     let n := f.fold.toNat
     let x := s.fold tk n
     let v := rdU s s.me f.a
     let met (y : Fold) : Prop := y.state = 2#2 ∨ y.state = 3#2 ∨ y.err ≠ 0#3
     let expects (i : Instr) (exp : Word) (y : Fold) (full : Prop) (y' : Fold) : Prop :=
       Issues s k i → s.me.acts k = true → (f.func = 0#16 ∨ x.err = 0#3) → ∃ t, exec i s = .next t ∧ ∃ u, FoldOnly s u tk n ∧
         u.me = s.me ∧
         (x.state = 2#2 ∨ x.state = 3#2 → u.fold tk n = if x.err = 0#3 then { x with err := 3#3 } else x) ∧
         (x.state = 1#2 → 2 ^ 32 ≤ exp.toNat + v.toNat → u.fold tk n = if x.err = 0#3 then { x with err := 2#3 } else x) ∧
         (x.state = 1#2 → exp.toNat + v.toNat < 2 ^ 32 → (full → u.fold tk n = y') ∧ (¬full → u.fold tk n = y)) ∧
         (f.func = 0#16 ∨ met (u.fold tk n) → NoEffect u t k) ∧
         (f.func ≠ 0#16 → ¬met (u.fold tk n) → Sleeps u t k (.xpect n))
     expects (.bxpect k f) x.expb { x with expb := x.expb + v, armb := true }
       (x.arrb = x.expb + v ∧ (x.armr = true → x.arrr = x.expr)) { x with expb := x.expb + v, armb := true, state := 2#2 } ∧
     expects (.rxpect k f) x.expr { x with expr := x.expr + v, armr := true }
       ((x.armb = true → x.arrb = x.expb) ∧ x.arrr = x.expr + v) { x with expr := x.expr + v, armr := true, state := 2#2 } ∧
     (∀ i, i = .bxpect k f ∨ i = .rxpect k f → Issues s k i → s.me.acts k = false → ∃ t, exec i s = .next t ∧ NoEffect s t k))

/-- FWAIT (R261) and CFENCE (R272): a wait on a full or draining fold is over, and .ld loads each lane's word from the
fold's allocation, behind what is ordered before it (R114, R202, R226); that it reads as it issues and stays at its word until
then is the model's choice (log 25). .rel releases one consumer; a fold with an error traps, before the bounds are looked at,
which no rule orders (log 108); else the warp sleeps. CFENCE sleeps
while the warp has commands. SPOP, SPUSH (R273, R274) and YIELD (R275): a pop gives the slot at HEAD and sleeps where
none is filled; a push moves TAIL on, or answers 1 where none is free; and YIELD goes on at its target, at once or once
its fold is there. -/
def Obligations.FoldAndStreamWaits : Prop :=
  (∀ (s : State) (k : Ctl) (f : EFields),
     let tk := s.me.teamKey
     let n := f.fold.toNat
     let x := s.fold tk n
     let there := x.state = 2#2 ∨ x.state = 3#2
     let off (l : Nat) : Nat := x.abase.toNat + 4 * (rd s s.me f.a l).toNat
     let inside : Prop := f.func = 1#16 → ∀ l, l < 32 → (s.me.eff k).getLsbD l = true →
       off l + 4 ≤ x.abase.toNat + x.asize.toNat
     let clear : Prop := f.func = 1#16 → ∀ l, l < 32 → (s.me.eff k).getLsbD l = true → s.me.scratchSpan s.nextId (off l) 4 = true
     (Issues s k (.fwait k f) → s.me.acts k = true → x.err = 0#3 → inside → there → ¬clear → exec (.fwait k f) s = .next s) ∧
     (Issues s k (.fwait k f) → s.me.acts k = true → x.err = 0#3 → inside → there → clear → ∃ t, exec (.fwait k f) s = .next t ∧
       (f.func = 0#16 → NoEffect s t k) ∧
       (∀ d, f.d = .v d → f.func = 1#16 → Wrote32 s t k f.d 0#6 fun l => BitVec.ofNat 32 (s.scratchRead tk (off l) 4)) ∧
       (f.func = 2#16 → ∃ u, FoldOnly s u tk n ∧ NoEffect u t k ∧ u.me = s.me ∧
         (1#5 < x.cons → u.fold tk n = { x with state := 3#2, cons := x.cons - 1#5 }) ∧
         (¬1#5 < x.cons → u.fold tk n =
           { infl := x.infl, abase := x.abase, asize := x.asize, consn := x.consn, cons := x.consn, state := 1#2 }))) ∧
     (Issues s k (.fwait k f) → s.me.acts k = true → x.err = 0#3 → inside → ¬there →
       ∃ t, exec (.fwait k f) s = .next t ∧ Sleeps s t k (.fwait n f.func.toNat)) ∧
     (Issues s k (.fwait k f) → s.me.acts k = true → x.err ≠ 0#3 → s.me.priv = false →
       ∃ t, exec (.fwait k f) s = .next t ∧ ∃ a, Trapped s t
         { kind := 14, cause := 3, mask := s.me.eff k, addr := a, info := BitVec.ofNat 32 (n + 256 * x.err.toNat) } s.me.pc false) ∧
     (Issues s k (.cfence k f) → ∃ t, exec (.cfence k f) s = .next t ∧
       if s.me.acts k = false ∨ s.engineIdle (keyCore s.cur) (keySlot s.cur) = true then NoEffect s t k
       else Sleeps s t k (.cfence s.nextId)) ∧
     (Issues s k (.fwait k f) → s.me.acts k = false → ∃ t, exec (.fwait k f) s = .next t ∧ NoEffect s t k)) ∧
  (∀ (s : State) (k : Ctl) (f : EFields),
     let tk := s.me.teamKey
     let n := f.func.toNat % 8
     let x := (s.team tk).stream n
     (∀ d, f.d = .s d → f.func.toNat < 8 → Issues s k (.spop k f) → s.me.acts k = true →
       (x.count ≠ 0#8 → ∃ t, exec (.spop k f) s = .next t ∧ ∃ u, StreamOnly s u tk n ∧ u.me = s.me ∧
         (u.team tk).stream n = { x with head := BitVec.ofNat 8 ((x.head.toNat + 1) % x.slots.toNat), count := x.count - 1#8 } ∧
         Wrote64 u t k f.d 0#6 fun _ => x.base + BitVec.ofNat 64 (x.stride.toNat * x.head.toNat)) ∧
       (x.count = 0#8 → ∃ t, exec (.spop k f) s = .next t ∧ Sleeps s t k (.spop n))) ∧
     (Issues s k (.spush k f) → s.me.acts k = true →
       (bit16 f.func 3 = true → (rdU s s.me f.b).extractLsb' 24 8 ≠ 0#8 → ∃ t, exec (.spush k f) s = .next t ∧ ∃ u,
         StreamOnly s u tk n ∧ NoEffect u t k ∧ u.me = s.me ∧ (u.team tk).stream n =
           { base := rdU64 s s.me f.a, stride := (rdU s s.me f.b).setWidth 24, slots := (rdU s s.me f.b).extractLsb' 24 8 }) ∧
       (bit16 f.func 3 = false → x.count = x.slots → ∃ t, exec (.spush k f) s = .next t ∧ Wrote32 s t k f.d 0#6 fun _ => 1#32) ∧
       (bit16 f.func 3 = false → x.count ≠ x.slots → s.me.stq = [] → (∀ o ∈ s.me.outs, s.pending s.cur o.id = false) →
         ∃ t, exec (.spush k f) s = .next t ∧ ∃ u, StreamOnly s u tk n ∧ u.me = s.me ∧
           (u.team tk).stream n = { x with tail := BitVec.ofNat 8 ((x.tail.toNat + 1) % x.slots.toNat), count := x.count + 1#8 } ∧
           Wrote32 u t k f.d 0#6 fun _ => 0#32)) ∧
     (let target := s.me.pc + ((f.func.signExtend 64) <<< 3)
      let y := s.fold tk f.fold.toNat
      let there := y.state = 2#2 ∨ y.state = 3#2 ∨ y.err ≠ 0#3
      Issues s k (.yield k f) → (s.me.acts k = true → HeaderAt s target) → ∃ t, exec (.yield k f) s = .next t ∧
        (s.me.acts k = false → FellThrough s t k ∧ SameRegs s t ∧ SameDivergence s t) ∧
        (s.me.acts k = true → there → Jumped s t k target ∧ SameRegs s t ∧ SameDivergence s t) ∧
        (s.me.acts k = true → ¬there → Sleeps s t k (.yield f.fold.toNat) ∧ t.me.resume = target)) ∧
     (∀ i, i = .spop k f ∨ i = .spush k f → Issues s k i → s.me.acts k = false → ∃ t, exec i s = .next t ∧ NoEffect s t k))

/-! ## Matrix and solver words (R278 to R350) -/

/-- The nine words that an engine accepts (R282, R285, R337): with every lane running they wait in acceptance with the
operands that they read at issue, and with no lane they do nothing. -/
def Obligations.EngineWords : Prop :=
  ∀ (s : State) (k : Ctl),
    let starts (i : Instr) (vals : List Nat) : Prop := Issues s k i →
      (s.me.eff k ≠ 0#32 → ∃ t, exec i s = .next t ∧ HandedOver s t k i .accepting vals) ∧
      (s.me.eff k = 0#32 → ∃ t, exec i s = .next t ∧ NoEffect s t k)
    let pair (n : BitVec 7) : Nat := (joinWords (s.me.getS n.toNat) (s.me.getS (n.toNat + 1))).toNat
    let one (n : Nat) : Nat := (s.me.getS n).toNat
    let meta' (f : XFields) (per : Nat) : List Nat :=
      lanes.flatMap fun l => (List.range per).map fun i => (rd s s.me (vReg (f.mt.toNat + i)) l).toNat
    let mats (f : XFields) : List Nat := [pair f.ap, pair f.bp, one f.lp.toNat, one (f.lp.toNat + 1)]
    (∀ f, starts (.mma k f) (mats f)) ∧ (∀ f, starts (.mmas k f) (mats f)) ∧
    (∀ f, starts (.mmasp k f) (mats f ++ meta' f (kOfFmt s.me.fmt / 8))) ∧
    (∀ f, let stride := one (f.bp.toNat + 1)
      (stride = 0 ∨ stride % 16 = 0 ∧ acvtRow s.me.fmt ≤ stride) → starts (.acvt k f)
        [if bit16 f.func 1 then one f.ap.toNat else pair f.ap, if bit16 f.func 0 then one f.bp.toNat else 0x3F800000,
         if stride = 0 then acvtRow s.me.fmt else stride]) ∧
    (∀ f, starts (.fact k f) [pair f.ap]) ∧ (∀ f, starts (.trsl k f) []) ∧
    (∀ f, starts (.patch k f) [(rdU64 s s.me f.a).toNat, (rdU s s.me f.d).toNat, (rdU64 s s.me f.b).toNat]) ∧
    (∀ f, starts (.stamp k f) [(rdU64 s s.me f.a).toNat]) ∧
    (∀ f, starts (.hshift k f) [pair f.ap, pair f.bp, one f.lp.toNat, one (f.lp.toNat + 1)])

/-- ACLR, AWR (R295), on tiles that no earlier word of the warp still uses (R293), ARD (R294) and PIVRD (R342), on tiles
whose earlier words are complete: the element that lane l of a row or column access reaches, and that no other element or
tile changes. XVSET, SCLB, MBAT, BWAIT (R290, R292, R297, R298) and CBLD (R291): the settings that they write, a closed
batch's number, the sleep on a batch that is not complete, and the load of a codebook slot. COMP48 (R301): of each group of
eight elements, in A and B or in each of them, the four of largest magnitude, a NaN before every number and of equals the
lower place, in ascending order, and their group code. -/
def Obligations.MatrixState : Prop :=
  (∀ (s : State) (k : Ctl), s.me.window.isSome = true →
     let core := keyCore s.cur
     let slot := keySlot s.cur
     let on (l : Nat) : Prop := l < 32 ∧ (s.me.eff k).getLsbD l = true
     let x := s.me.win
     let windowOnly (t : State) : Prop := t = s.setMe { atNext s.me k with window := some t.me.win } ∧
       t.me.win = { x with tiles := t.me.win.tiles }
     let place (z : TileAccess) (i l m : Nat) : Nat × Nat := if z.col then (l, (i + m) % 32) else ((i + m) % 32, l)
     (∀ f, Issues s k (.aclr k f) → s.me.eff k ≠ 0#32 →
       let qs := if bit16 f.func 0 then [f.q.toNat, f.q.toNat + 1] else [f.q.toNat]
       s.tileBusy core slot qs = false → ∃ t, exec (.aclr k f) s = .next t ∧ windowOnly t ∧
         ∀ q i j, i < 32 → j < 32 → t.me.win.elem q i j = if q ∈ qs then 0#32 else x.elem q i j) ∧
     (∀ f d, f.d = .v d → Issues s k (.ard k f) → dstLanes s.me k ≠ [] →
       let z := tileAccess f.func
       let i := (rdU s s.me f.a).toNat
       s.tileOpen core slot z.tiles = false → ∃ t, exec (.ard k f) s = .next t ∧ ∃ ws, Deferred s t k ws 0#6 false false ∧
         ∀ key v, (key, v) ∈ ws ↔ ∃ l m, on l ∧ m < z.n ∧
           let p := place z i l m
           if z.d64 then (key = vKey (d.val + 2 * m) l ∧ v = x.elem z.q p.1 p.2) ∨
             (key = vKey (d.val + 2 * m + 1) l ∧ v = x.elem (z.q + 1) p.1 p.2)
           else key = vKey (d.val + m) l ∧ v = x.elem z.q p.1 p.2) ∧
     (∀ f a, f.a = .v a → Issues s k (.awr k f) →
       let z := tileAccess f.func
       let i := (rdU s s.me f.b).toNat
       s.tileBusy core slot z.tiles = false → ∃ t, exec (.awr k f) s = .next t ∧ windowOnly t ∧
         (∀ l m, on l → m < z.n →
           let p := place z i l m
           if z.d64 then t.me.win.elem z.q p.1 p.2 = s.me.getV (a.val + 2 * m) l ∧
             t.me.win.elem (z.q + 1) p.1 p.2 = s.me.getV (a.val + 2 * m + 1) l
           else t.me.win.elem z.q p.1 p.2 = s.me.getV (a.val + m) l) ∧
         ∀ q r c, r < 32 → c < 32 → (q ∉ z.tiles ∨ ∀ l m, on l → m < z.n → place z i l m ≠ (r, c)) →
           t.me.win.elem q r c = x.elem q r c) ∧
     (∀ f d, f.d = .v d → Issues s k (.pivrd k f) → dstLanes s.me k ≠ [] →
       let q := (f.func.extractLsb' 0 4).toNat
       s.tileOpen core slot [q] = false → ∃ t, exec (.pivrd k f) s = .next t ∧
         Deferred s t k (writes32 s.me k f.d fun l => x.pivrd q (bit16 f.func 4) l) 0#6 false false)) ∧
  (∀ (s : State) (k : Ctl),
     let with' (x : Window) : State := s.setMe { s.me with window := s.me.window.map fun _ => x }
     let w := s.me.win
     (∀ f, Issues s k (.xvset k f) → ∃ t, exec (.xvset k f) s = .next t ∧
       t = s.setMe { atNext s.me k with xv := if s.me.acts k then rdU s s.me f.a else s.me.xv }) ∧
     (∀ f, Issues s k (.sclb k f) → s.me.acts k = true →
       let c : Scale := { sbase := s.me.getSPair f.ap.toNat, dbase := s.me.getSPair f.bp.toNat, shift := f.func.extractLsb' 1 4 }
       ∃ t, exec (.sclb k f) s = .next t ∧
         NoEffect (with' (if bit16 f.func 0 then { w with scaleB := c } else { w with scaleA := c })) t k) ∧
     (∀ f, Issues s k (.mbat k f) → s.me.acts k = true →
       ((s.openBatches (keyCore s.cur) (keySlot s.cur) w.bseq).length < 15 ∨
         ∀ e ∈ s.wordsOf (keyCore s.cur) (keySlot s.cur), e.batch ≠ w.bseq) →
       ∃ t, exec (.mbat k f) s = .next t ∧
         Wrote32 (with' { w with bseq := w.bseq + 1#32 }) t k f.d 0#6 fun _ => w.bseq) ∧
     (∀ f, Issues s k (.bwait k f) → s.me.acts k = true → 2 ^ 31 ≤ (rdU s s.me f.a - w.bseq).toNat →
       ∃ t, exec (.bwait k f) s = .next t ∧
         if ∀ e ∈ s.wordsOf (keyCore s.cur) (keySlot s.cur), 2 ^ 31 ≤ (rdU s s.me f.a - e.batch).toNat then NoEffect s t k
         else Sleeps s t k (.bwait (rdU s s.me f.a))) ∧
     (∀ f p, Issues s k (.cbld k f) → s.me.acts k = true →
       s.lanePlaces s.me {} [⟨0, 0, s.me.getSPair f.ap.toNat⟩] 32 32 needR (fun _ => none) = .ok [p] →
       s.poisonFor s.me.ctx (lineOf p.2.key) &&& spanOf p.2.key 32 = 0#32 →
       let op : LaneOp := { lane := 0, key := p.2.key, n := 32, op := .load false, dst := (List.range 8).map (bookKey f.func.toNat) }
       ∃ t, exec (.cbld k f) s = .next t ∧ Accessed s t k ∧ SameMemory s t ∧ t.me.stq = s.me.stq ∧
         Outstanding s t op.dst false ∧
         (Requested s t op ∨ ∃ c, (p.2.cls ≠ 0 → c = none) ∧ Answered s t op (wordsOf 32 false (s.readFor c p.2.key 32)))) ∧
     (∀ f d, f.d = .v d → d.val < 255 → Issues s k (.comp48 k f) →
       let e : Elem := if f.ty = 13#4 then .int true 8 else if f.ty = 12#4 then .int false 8
         else (packElem (fmtA s.me.fmt)).getD (.int true 8)
       ∃ t, exec (.comp48 k f) s = .next t ∧ WordDone s t k ∧ t.me.preds = s.me.preds ∧ t.me.seeds = s.me.seeds ∧
         t.me.fpstat = s.me.fpstat ∧ OtherRegs s t (wroteKeys s.me k f.d 2) ∧
         ∀ l, l < 32 → (s.me.eff k).getLsbD l = true →
           let a := (rd s s.me f.a l).toNat
           let b := (rd s s.me f.b l).toNat
           let low := (t.me.getV d.val l).toNat
           let high := (t.me.getV (d.val + 1) l).toNat
           let pruned (n : Nat) (c : Nat → Nat) (kept code : Nat) : Prop := Pruned n (fun i => elemValue e none false (c i)) c kept code
           (elemBits e = 4 ∨ elemBits e = 8) ∧
           (elemBits e = 8 → ∃ code, pruned 8 (fun i => elemAt (if i < 4 then a else b) 8 (i % 4) % 2 ^ elemCodeBits e) low code ∧
             high = if f.mod = 1#4 then (s.me.getV (d.val + 1) l).toNat % 4096 + 4096 * code else code) ∧
           (elemBits e = 4 → ∃ ka ca kb cb, pruned 4 (elemAt a 4) ka ca ∧ pruned 4 (elemAt b 4) kb cb ∧ low = ka + 65536 * kb ∧
             high = ca + 4096 * cb)))

/-! ## Phases, views, requests and mailboxes (R305 to R335) -/

/-- PNEXT (R310): outside a phase the warp sleeps; inside one it is a phase-state fault (R335). PEND (R312): a warp that has
nothing outstanding gives up its v-registers and its window; once the last warp of a block's phase has ended it, the record
has its residual, L + RES rounded upward, warp 0's carried registers, predicates and EXEC, and RUN = 0. That warp 0's carried
v-registers are taken at its own PEND, which releases them, is the model's reading (log 34). The end of a deadline's phase ends
the request that the team runs (R329). RESID (R314), PPOST and RPROP (R317, R318): the phase's residual, and posts on their way to
their records' homes, one entry of the store counter for each word; a list with a reserved bit or a block that is not there is
a phase-state fault. That RPROP reads its list as it issues is the model's choice (log 35). The words of the chapter do
nothing with an empty mask (R335). A residual is a magnitude, +0 for a zero and infinity for a NaN, keys fall as residuals
rise (R45), and sums and the products WEIGHT × r are rounded upward (R43). -/
def Obligations.PhaseWords : Prop :=
  (∀ (s : State) (k : Ctl) (f : EFields),
     let tk := s.me.teamKey
     let c := s.me.ctx
     (Issues s k (.pnext k f) → s.me.inPhase = false → ∃ t, exec (.pnext k f) s = .next t ∧ ∃ u, Sleeps s u k .pnext ∧
       t = { u with teams := t.teams } ∧ (∀ x, t.team x = if x = tk then { s.team tk with slept := s.tick } else s.team x)) ∧
     (∀ i, i = .pnext k f ∧ s.me.inPhase = true ∨ i = .pend k f ∧ (s.me.inPhase = false ∨ s.me.stack ≠ []) →
       s.me.priv = false → Issues s k i →
       ∃ t, exec i s = .next t ∧ Trapped s t { kind := 12, mask := s.me.eff k } s.me.pc false) ∧
     (∀ p, Issues s k (.pend k f) → (s.team tk).phase = some p → s.me.inPhase = true → s.me.stack = [] → s.me.outs = [] →
       s.wordsOf (keyCore s.cur) (keySlot s.cur) = [] → ∃ t, exec (.pend k f) s = .next t ∧ SameMemory s t ∧
         t.me.valloc = 0 ∧ t.me.inPhase = false ∧ t.me.window = none ∧ t.me.left = 0 ∧ t.me.pc = s.me.pc + 8#64 ∧
         (∀ n l, n < 256 → l < 32 → t.me.getV n l = 0#32) ∧
         (∀ n, n < 128 → t.me.getKey (sKeyUser n) = s.me.getKey (sKeyUser n)) ∧ t.me.preds = s.me.preds ∧
         (s.me.stq = [] → s.me.team < 64 → s.mayEnd tk p = true →
           (∀ y ∈ (s.team tk).warps, y ≠ s.cur → ∃ n, (s.warp y).pended = some n ∧ (s.warp y).earlierDone n = true) →
           (t.team tk).phase = none ∧
           (p.kind = .deadline →
             let x := s.handle p.shard p.num
             (x.used = true → x.running = true → x.runner = tk → t.handle p.shard p.num = {}) ∧
             (x.running = false ∨ x.runner ≠ tk → t.handle p.shard p.num = x)) ∧
           (p.kind = .block →
             let x := s.block c p.num
             let y := t.block c p.num
             y.run = false ∧ y.res = addUp p.resid x.res ∧ y.snd = (p.snd || bit16 f.func 0) ∧ y.entry = x.entry ∧
             (gtF32 y.res x.tau = true → y.qd = true) ∧
             (s.me.twarp = 0 →
               ∀ i n l, x.cvmap[i]? = some n → n ≠ 255 → l < 32 → tget 0#32 y.vcarry (32 * i + l) = s.me.getV n l) ∧
             (s.me.twarp ≠ 0 → y.vcarry = p.vcarry) ∧
             let w := s.warp ((s.team tk).warps.headD 0)
             y.pcarry = w.preds ∧ y.exec = w.exec ∧
               ∀ (i n : Nat), (carriedS x.csmask)[i]? = some n → tget 0#32 y.scarry i = w.getKey (sKeyUser n))))) ∧
  (∀ (s : State) (k : Ctl) (f : EFields), s.me.acts k = true →
     let tk := s.me.teamKey
     let c := s.me.ctx
     let post (b : Nat) (x : Word) (mode : Nat) (snd : Bool) : Post :=
       { ctx := c, block := b, x, mode, snd, gen := s.phaseGen s.me, warp := s.cur, st := s.nextId }
     let sent (u t : State) (ps : List Post) : Prop :=
       t = { u.setMe t.me with posts := u.posts ++ ps, nextId := s.nextId + 1 } ∧
       t.me = { atNext u.me k with stq := s.me.stq ++ [{ id := s.nextId, kind := .post }] }
     (∀ p, Issues s k (.resid k f) → s.phaseOf s.me = some p → p.kind = .block → ∃ t, exec (.resid k f) s = .next t ∧ ∃ u x,
       x = residOf (rdU s s.me f.a) ∧ NoEffect u t k ∧ u.me = s.me ∧ u = { s with teams := u.teams } ∧
       ∀ y, u.team y = if y = tk then
         { s.team tk with phase := some { p with resid := if f.func = 0#16 ∨ p.resid < x then x else p.resid } } else s.team y) ∧
     (Issues s k (.ppost k f) → (rdU s s.me f.a).toNat < (s.ctx c).nblocks → ∃ t, exec (.ppost k f) s = .next t ∧
       sent s t [post (rdU s s.me f.a).toNat (rdU s s.me f.b) (f.func.extractLsb' 0 2).toNat (bit16 f.func 2)]) ∧
     (∀ p, Issues s k (.rprop k f) →
       s.lanePlaces s.me {} [⟨0, 0, rdU64 s s.me f.a⟩] 128 128 needR (fun _ => none) = .ok [p] →
       let line := lineOf p.2.key
       let core := keyCore s.cur
       let x := s.l1 core (ncKey line)
       let es := (List.range 16).map fun i =>
         listEntry (s.readFor (if p.2.cls = 0 then some x else none) (p.2.key + 8 * i) 8)
       let used := es.filter fun e => e.2.1
       let bad := ∃ e ∈ used, e.2.2.1 ≠ 0 ∨ (s.ctx c).nblocks ≤ e.2.2.2
       s.poisonFor c line &&& spanOf p.2.key 128 = 0#32 → s.readWaits core s.nextId line = false →
       s.inOrder s.nextId line = true → (∀ y ∈ s.me.outs, y.acquires = false) →
       (¬bad → ∃ t, exec (.rprop k f) s = .next t ∧ ∃ u, OnlyMonitors s u ∧
         u = { s with warps := u.warps, cores := u.cores, lines := u.lines, ctxs := u.ctxs } ∧
         sent u t (used.map fun e => post e.2.2.2 (coupled e.1 (rdU s s.me f.b)) 0 (bit16 f.func 0))) ∧
       (bad → s.me.priv = false → ∃ t, exec (.rprop k f) s = .next t ∧
         Trapped s t { kind := 12, mask := s.me.eff k } s.me.pc false)) ∧
     (s.me.priv = false → Issues s k (.ppost k f) → (s.ctx c).nblocks ≤ (rdU s s.me f.a).toNat →
       ∃ t, exec (.ppost k f) s = .next t ∧ Trapped s t { kind := 12, mask := s.me.eff k } s.me.pc false)) ∧
  (∀ (s : State) (k : Ctl) (f : EFields) i,
     i ∈ [.resid k f, .ppost k f, .rprop k f, .vpub k f, .vread k f, .mbrd k f, .mbwr k f, .genrd k f, .admitReq k f, .dline k f,
       .wfetch k f] → Issues s k i → s.me.acts k = false → ∃ t, exec i s = .next t ∧ NoEffect s t k) ∧
  (∀ a b : Word,
     let inf := 0x7F800000#32
     let infinite (x : Word) : Prop := x &&& 0x7FFFFFFF#32 = inf
     let x := coupled a b
     residOf a = (if (decF32 a).isNan then inf else a &&& 0x7FFFFFFF#32) ∧ keyOf a = inf - residOf a ∧
     (∀ u v, FiniteF32 a false u → FiniteF32 b false v → RoundedUp (addUp a b) (u + v)) ∧
     (a = inf → (b = inf ∨ ∃ v, FiniteF32 b false v) → addUp a b = inf ∧ addUp b a = inf) ∧
     (∀ m u n v, FiniteF32 a m u → FiniteF32 b n v → RoundedUp x |u * v| ∧ (gtF32 a b = true ↔ v < u)) ∧
     (infinite a → (infinite b ∨ ∃ n v, v ≠ 0 ∧ FiniteF32 b n v) → x = inf ∧ coupled b a = inf) ∧
     ((decF32 a).isNan = true ∨ (decF32 b).isNan = true ∨ infinite a ∧ b &&& 0x7FFFFFFF#32 = 0#32 ∨
       infinite b ∧ a &&& 0x7FFFFFFF#32 = 0#32 → residOf x = inf))

/-- VPUB and VREAD (R324, R325), MBRD and MBWR (R327, R328), GENRD (R333): what is queued for a view's shard, what a
read of a view or a mailbox delivers, and what a write of a mailbox does while OFULL is clear and answers while it is
set. ADMIT, DLINE (R329, R330) and WFETCH (R332): the status of an admission with its bound and handle, the arming and
the end of a request, and the lowest item of the oldest sweep on its way into scratchpad. The model's choices: VREAD, MBRD,
GENRD and the others give the value at issue (log 34), for VREAD once the warp's own VPUBs of the view have performed (R202),
and for VREAD, MBRD and MBWR once what its last popping JOIN put before it has (R114); WFETCH answers 1 before 2 (log 40); and VPUB queues the local
residual of its issue (log 111). -/
def Obligations.ViewsMailboxesAndRequests : Prop :=
  (∀ (s : State) (k : Ctl) (f : EFields), s.me.acts k = true →
     let c := s.me.ctx
     let core := keyCore s.cur
     let hi := if bit16 f.func 0 then 32 else 0
     (∀ p, Issues s k (.vpub k f) → s.phaseOf s.me = some p → (rdU s s.me f.a).toNat < (s.ctx c).nviews →
       ∃ t, exec (.vpub k f) s = .next t ∧ t = { s.setMe t.me with nextId := s.nextId + 1 } ∧
         ∃ own, t.me = { atNext s.me k with
           stq := s.me.stq ++ [{ id := s.nextId, kind := .publish (rdU s s.me f.a).toNat p.gen p.resid own }] } ∧
           own = if p.kind = .block then some p.num else none) ∧
     (Issues s k (.vread k f) → (rdU s s.me f.a).toNat < (s.ctx c).nviews →
       let x := s.view c (rdU s s.me f.a).toNat
       s.recordReady [keyCore s.cur] x.record = true → s.me.publishes (rdU s s.me f.a).toNat = false →
       s.me.epochOk s.nextId = true → ∃ t, exec (.vread k f) s = .next t ∧ ∃ u fl, OnlyMonitors s u ∧
         u = { s with warps := u.warps, cores := u.cores, lines := u.lines, ctxs := u.ctxs } ∧
         Deferred u t k ((dstKeys s.me f.d 4 0).zip [x.ver, x.gen, x.bound, fl]) 0#6 true true ∧
         fl.getLsbD 0 = x.settled ∧ (fl.getLsbD 1 = true ↔ x.pgen < x.gen)) ∧
     (∀ d, f.d = .v d → (rdU s s.me f.a).toNat ≤ 64 → Issues s k (.mbrd k f) → s.me.eff k ≠ 0#32 → s.me.epochOk s.nextId = true →
       let n := (rdU s s.me f.a).toNat
       let x := s.mbox c n
       ∃ t, exec (.mbrd k f) s = .next t ∧ ∃ u, u.me = s.me ∧ u = { s with ctxs := u.ctxs } ∧
         (bit16 f.func 1 = false → u = s) ∧
         (bit16 f.func 1 = true → ∀ m, u.mbox c m = if m = n then { x with st := .empty, owner := none } else s.mbox c m) ∧
         Deferred u t k (writes32 s.me k f.d fun l => tget 0#32 x.inb (l + hi)) 0#6 true true) ∧
     (∀ a, f.a = .v a → (rdU s s.me f.b).toNat ≤ 64 → Issues s k (.mbwr k f) → s.me.epochOk s.nextId = true →
       let n := (rdU s s.me f.b).toNat
       let x := s.mbox c n
       let ntf := bit16 f.func 1
       (x.ofull = true → ∃ t, exec (.mbwr k f) s = .next t ∧ Wrote32 s t k f.d 0#6 fun _ => 1#32) ∧
       (x.ofull = false → (ntf = true → s.me.stq = [] ∧ (∀ o ∈ s.me.outs, s.pending s.cur o.id = false) ∧
           s.markersPass core (s.dirtyLines core ((s.core core).relCtr + 1#32)) = true) →
         ∃ t, exec (.mbwr k f) s = .next t ∧ ∃ u, OnlyMonitors s u ∧ SameMemory s u ∧ (Wrote32 u t k f.d 0#6 fun _ => 0#32) ∧
           (ntf = false → u = { s with ctxs := u.ctxs }) ∧
           (u.mbox c n).ofull = ntf ∧ (∀ m, m ≠ n → u.mbox c m = s.mbox c m) ∧
           (ntf = true → tget 0 u.mgmt.msix (2 * c) = tget 0 s.mgmt.msix (2 * c) + 1) ∧
           ∀ i, tget 0#32 (u.mbox c n).outb i =
             if hi ≤ i ∧ i < hi + 32 ∧ (s.me.eff k).getLsbD (i - hi) = true then s.me.getV a.val (i - hi)
             else tget 0#32 x.outb i)) ∧
     (Issues s k (.genrd k f) → ∃ t, exec (.genrd k f) s = .next t ∧ ∃ v,
       (f.func = 0#16 ∨ f.func = 3#16 → Deferred s t k (writes32 s.me k f.d fun _ => v) 0#6 true false) ∧
       (f.func = 1#16 ∨ f.func = 2#16 → Wrote32 s t k f.d 0#6 fun _ => v) ∧
       (f.func = 0#16 → v = (s.ctx c).igen) ∧
       (∀ p, s.phaseOf s.me = some p → (f.func = 1#16 → v = p.gen) ∧ (f.func = 2#16 → v = p.popres)) ∧
       (s.phaseOf s.me = none → f.func = 1#16 ∨ f.func = 2#16 → v = 0#32) ∧
       (f.func = 3#16 → v = loWord (s.icnt (quadOf (keyCore s.cur)))))) ∧
  (∀ (s : State) (k : Ctl) (f : EFields), s.me.acts k = true →
     let c := s.me.ctx
     let q := quadOf (keyCore s.cur)
     let a := (rdU s s.me f.a).toNat
     (Issues s k (.admitReq k f) →
       let cls := ctxClass (s.ctx c)
       let x := tget 0#64 (s.shard q).classres cls
       let limit := (rdU s s.me f.b).toNat
       let qd := ((tget 0 (s.shard q).nout cls + a) * 1024 + classRate x - 1) / classRate x
       let bound := qd + classPhb x + classMaxreq x * classDpub x
       let free (h : Nat) : Prop := h < 256 ∧ (s.handle q h).used = false
       ∃ t, exec (.admitReq k f) s = .next t ∧ ∃ u st p, u.me = s.me ∧ u = { s with shards := u.shards } ∧
         Deferred u t k ((dstKeys s.me f.d 2 0).zip [st, p]) 0#6 true false ∧
         (classRate x = 0 → st = 3#32 ∧ p = 0#32 ∧ u = s) ∧
         (classRate x ≠ 0 → tget 0 (s.shard q).out cls = classMaxreq x → st = 2#32 ∧ p = 0#32 ∧ u = s) ∧
         (classRate x ≠ 0 → tget 0 (s.shard q).out cls ≠ classMaxreq x →
           ((¬∃ h, free h) ∨ a = 0 ∨ limit < bound → st = 1#32 ∧ p = 0#32 ∧ u = s) ∧
           (∀ h, free h → (∀ h', h' < h → ¬free h') → a ≠ 0 → bound ≤ limit →
             st = BitVec.ofNat 32 (h * 256) ∧ p = BitVec.ofNat 32 bound ∧
             u.handle q h = { used := true, ctx := c, cls, expiry := s.icnt q + BitVec.ofNat 64 qd, n := a, gen := s.phaseGen s.me } ∧
             tget 0 (u.shard q).out cls = tget 0 (s.shard q).out cls + 1 ∧
             tget 0 (u.shard q).nout cls = tget 0 (s.shard q).nout cls + a ∧
             ∀ h', h' ≠ h → u.handle q h' = s.handle q h'))) ∧
     (Issues s k (.dline k f) →
       let x := s.handle q a
       let view := loWord (rdU64 s s.me f.b)
       let known : Prop := a < 256 ∧ x.used = true ∧ x.ctx = c ∧ (x.armed = true ∨ s.expired q x = false)
       ∃ t, exec (.dline k f) s = .next t ∧ ∃ u v, u.me = s.me ∧ u = { s with shards := u.shards } ∧
         (Wrote32 u t k f.d 0#6 fun _ => v) ∧
         (¬known → v = 1#32 ∧ u = s) ∧
         (known → bit16 f.func 0 = true → v = 0#32 ∧ u.handle q a = {} ∧
           tget 0 (u.shard q).out x.cls = tget 0 (s.shard q).out x.cls - 1) ∧
         (known → bit16 f.func 0 = false → (s.ctx c).nviews ≤ view.toNat → v = 1#32 ∧ u = s) ∧
         (known → bit16 f.func 0 = false → view.toNat < (s.ctx c).nviews → (x.armed = true → v = 2#32 ∧ u = s) ∧
           (x.armed = false → v = 0#32 ∧ u.handle q a = { x with
             view, mbox := ((hiWord (rdU64 s s.me f.b)).extractLsb' 0 6).toNat, abandon := bit16 f.func 2, armed := true }))) ∧
     (Issues s k (.wfetch k f) → a % 16 = 0 → a + 16 ≤ (s.team s.me.teamKey).scratchSize →
       let ts := (s.team s.me.teamKey).fetches
       ∃ t, exec (.wfetch k f) s = .next t ∧ ∃ u v, u.me = s.me ∧ u = { s with ctxs := u.ctxs, teams := u.teams } ∧
         Deferred u t k (writes32 s.me k f.d fun _ => v) 0#6 true false ∧
         ((s.ctx c).sweeps = [] → v = 1#32 ∧ u = s) ∧
         (∀ x rest, (s.ctx c).sweeps = x :: rest → ((∃ y ∈ ts, y.1 = a) → v = 2#32 ∧ u = s) ∧
           ((∀ y ∈ ts, y.1 ≠ a) → v = 0#32 ∧
             (u.team s.me.teamKey).fetches = ts ++ [(a, [x.id, BitVec.ofNat 32 x.next, x.arg, 1#32])] ∧
             (u.ctx c).sweeps = if x.next + 1 < x.n then { x with next := x.next + 1 } :: rest else rest))))

/-! ## Packets (R351 to R367) -/

/-- SEND and XCHG (R360, R362): the flits of a packet to a granted core enter the core's injection queue in order, with
their payload from registers or scratchpad, and XCHG sleeps; a destination that is not the context's is violation 1.
THROT (R363) reads the throttle; that it does so at issue is the model's choice (log 34), and that the violation's record
has address 0 is its reading (log 39). RECV (R361): the oldest complete packet of the port goes to the lanes' registers or
to scratchpad, with its source and size in B, and its slot is free; without one .try answers 0 in B and the other form
sleeps. A scratchpad form comes after what is ordered before it (R114, R202, R226); that it reads or writes scratchpad as it
issues or its packet is taken, and stays at its word until then, is the model's choice (log 25). -/
def Obligations.Packets : Prop :=
  (∀ (s : State) (k : Ctl) (f : EFields), s.me.acts k = true →
     let core := keyCore s.cur
     let w := s.me
     let lane (i : Nat) : Word := if (w.eff k).getLsbD (i % 32) then w.getV (regNum f.a + i / 32) (i % 32) else 0#32
     let posted (t : State) (n dst kind port : Nat) (rel : Bool) (word : Nat → Word) : Prop :=
       (t.core core).tag = (s.core core).tag + 1#8 ∧ ∃ fs, (t.core core).inject = (s.core core).inject ++ fs ∧ fs.length = n ∧
         ∀ (i : Nat) (x : NetFlit), fs[i]? = some x → x.router = coreRouter core ∧ x.flit.dst = BitVec.ofNat 9 dst ∧
           x.flit.src = BitVec.ofNat 9 core ∧ x.flit.kind.toNat = kind ∧ x.flit.portw = BitVec.ofNat 6 port ∧
           x.flit.rel = rel ∧ x.flit.fidx = BitVec.ofNat 3 i ∧ x.flit.fcnt = BitVec.ofNat 3 (n - 1) ∧ x.flit.tag = (s.core core).tag ∧
           x.flit.ctx = BitVec.ofNat 3 w.ctx ∧ ∀ j, j < 8 → x.flit.data.getD j 0#32 = word (8 * i + j)
     let d := rdU s w f.d
     let dst := (d.extractLsb' 0 9).toNat
     let n := (d.extractLsb' 16 3).toNat + 1
     let sp := bit16 f.func 0
     let off := (rdU s w f.a).toNat
     let formed : Prop := d.extractLsb' 9 3 = 0#3 ∧ d.extractLsb' 19 13 = 0#13 ∧
       (sp = false → regNum f.a + (8 * n - 1) / 32 < w.valloc) ∧
       (sp = true → off % 32 = 0 ∧ off + 32 * n ≤ (s.team w.teamKey).scratchSize)
     let rel := bit16 f.func 1
     (Issues s k (.send k f) → formed → s.granted dst w.ctx = true →
       (s.injectRoom core n = true → (sp = true → w.scratchSpan s.nextId off (32 * n) = true) →
        ∃ t, exec (.send k f) s = .next t ∧ ∃ u, OnlyMonitors s u ∧ NoEffect u t k ∧
         u = { s with warps := u.warps, cores := u.cores, lines := u.lines } ∧
         (rel = false → u.warps = s.warps ∧ u.lines = s.lines) ∧
         (u.core core).relCtr = (if rel then (s.core core).relCtr + 1#32 else (s.core core).relCtr) ∧
         posted u n dst 0 (d.extractLsb' 12 4).toNat rel fun i =>
           if sp then BitVec.ofNat 32 (s.scratchRead w.teamKey (off + 4 * i) 4) else lane i) ∧
       (s.injectRoom core n = false ∨ sp = true ∧ w.scratchSpan s.nextId off (32 * n) = false →
         exec (.send k f) s = .next s)) ∧
     (Issues s k (.send k f) → d.extractLsb' 9 3 ≠ 0#3 ∨ d.extractLsb' 19 13 ≠ 0#13 → w.priv = false →
       ∃ t, exec (.send k f) s = .next t ∧ Trapped s t (illegal w k (.send k f)) w.pc false) ∧
     (Issues s k (.send k f) → formed → s.granted dst w.ctx = false → ∃ t, exec (.send k f) s = .next t ∧ Frozen s t 1 0#64) ∧
     (let b := rdU s w f.b
      let dest := (b.extractLsb' 0 9).toNat
      let slot := (b.extractLsb' 16 6).toNat
      Issues s k (.xchg k f) → b.extractLsb' 9 7 = 0#7 → b.extractLsb' 22 10 = 0#10 → slot < 48 →
        clusterOf dest ≠ clusterOf core → s.granted dest w.ctx = true → s.injectRoom core 5 = true →
        ∃ t, exec (.xchg k f) s = .next t ∧ ∃ u, Sleeps u t k (.xchg dest slot) ∧ u.me = w ∧ u = { s with cores := u.cores } ∧
          posted u 5 dest 1 slot false fun i => if i < 32 then lane i else if i = 32 then w.eff k else 0#32) ∧
     (Issues s k (.throt k f) → ∃ t, exec (.throt k f) s = .next t ∧
       Deferred s t k (writes32 w k f.d fun _ => s.throtlvl core) 0#6 true false)) ∧
  (∀ (s : State) (k : Ctl) (f : EFields), s.me.acts k = true → Issues s k (.recv k f) →
     let core := keyCore s.cur
     let w := s.me
     let p := (rdU s w f.a).toNat
     let off := (rdU s w f.d).toNat
     let sp := bit16 f.func 2
     p < 16 → s.portTeam w.ctx core = some w.team →
     (sp = true → off % 32 = 0 ∧ off + 256 ≤ (s.team w.teamKey).scratchSize) →
     (∀ i, s.oldestSlot core (portSlot w p) = some i → s.slotReady core i off f = false → exec (.recv k f) s = .next s) ∧
     ((∀ i, s.oldestSlot core (portSlot w p) = some i → s.slotReady core i off f = true) →
     ∃ t, exec (.recv k f) s = .next t ∧ SameMemory s t ∧
       (∀ i, s.oldestSlot core (portSlot w p) = some i →
         let x := s.rslot core i
         t.me = { atNext w k with outs := t.me.outs, monitor := t.me.monitor } ∧ t.rslot core i = {} ∧
         (∀ j, j ≠ i → t.rslot core j = s.rslot core j) ∧
         (∃ o ∈ t.me.outs, o.id = s.nextId ∧ o.acquires = bit16 f.func 1 ∧
           (⟨w.sKey (regNum f.b), some (BitVec.ofNat 32 (x.src.toNat + x.fcnt.toNat * 65536 + 2 ^ 31))⟩ : Tgt) ∈ o.tgts ∧
           (sp = false → ∀ m, m < 8 * (x.fcnt.toNat + 1) → (w.eff k).getLsbD (m % 32) = true →
             (⟨vKey (regNum f.d + m / 32) (m % 32), some (tget 0#32 x.data m)⟩ : Tgt) ∈ o.tgts)) ∧
         (sp = true → ∀ m, m < 8 * (x.fcnt.toNat + 1) →
           t.scratchRead w.teamKey (off + 4 * m) 4 = (tget 0#32 x.data m).toNat)) ∧
       (s.oldestSlot core (portSlot w p) = none → bit16 f.func 0 = true →
         Deferred s t k [(w.sKey (regNum f.b), 0#32)] 0#6 true (bit16 f.func 1)) ∧
       (s.oldestSlot core (portSlot w p) = none → bit16 f.func 0 = false → Sleeps s t k (.recv p)))) ∧
  (∀ (s : State) (k : Ctl) (f : EFields) i, i ∈ [.send k f, .xchg k f, .throt k f, .recv k f] → Issues s k i →
     s.me.acts k = false → ∃ t, exec i s = .next t ∧ NoEffect s t k)

/-! ## System words (R368 to R415) -/

/-- SRR (R375, R376, R380): a warp's own register at once and every other one outstanding; what the selectors of the
trap, address and handler registers name, and zero in a context that is not established. SRW (R375, R376, R380): what a
write changes is what it names, TCAUSE keeps its value, a context that is not established ignores it, and a value that
is illegal is refused whole with the illegal-instruction trap. The model's choices: that SRR's outstanding value is the one
at issue (log 34), which values SRW refuses and what it does beside storing them (log 69), and that a violation's record
holds the word's address (log 39). -/
def Obligations.SystemRegisters : Prop :=
  ((∀ (s : State) (k : Ctl) (f : KFields), Issues s k (.srr k f) →
     let x := selector f.imm
     let v := (s.sysValue s.me x).extractLsb' (32 * x.word) 32
     ∃ t, exec (.srr k f) s = .next t ∧
       if x.reg < 0x100 then Wrote32 s t k f.d 0#6 fun _ => v
       else Deferred s t k (writes32 s.me k f.d fun _ => v) 0#6 true false) ∧
   ∀ (s : State) (w : Warp) (x : Selector),
     let v := s.sysValue w x
     let c := s.ctx x.ctx
     (x.reg = 1 → v = w.trap.tpc.setWidth 128) ∧ (x.reg = 2 → v = w.trap.thdr.setWidth 128) ∧
     (x.reg = 3 → v = w.trap.tcause.setWidth 128) ∧ (x.reg = 4 → v = w.trap.tmask.setWidth 128) ∧
     (x.reg = 5 → v = w.trap.texec.setWidth 128) ∧ (x.reg = 6 → v = w.trap.taddr.setWidth 128) ∧
     (x.reg = 7 → v = w.trap.tinfo.setWidth 128) ∧ (x.reg = 8 → v = w.trap.tfmt.setWidth 128) ∧
     (0x100 ≤ x.reg → x.reg < 0x200 → c.established = false → v = 0#128) ∧
     (c.established = true → (x.reg = 0x101 → v = c.tvec.setWidth 128) ∧ (x.reg = 0x102 → v = c.ptroot.setWidth 128) ∧
       (x.reg = 0x105 → v = c.poolnext.setWidth 128) ∧ (x.reg = 0x106 → v = c.poolend.setWidth 128) ∧
       (x.reg = 0x10C → c.faults = [] → v = 0#128)) ∧
     (x.reg = 0x202 → v = (s.core x.core).corectx.setWidth 128) ∧ (x.reg = 0x402 → v = s.mgmt.modid.setWidth 128)) ∧
  (∀ (s : State) (k : Ctl) (f : KFields), Issues s k (.srw k f) →
     let x := selector f.imm
     let v := rdU s s.me f.d
     (∀ u, s.sysWrite x v = some u → ∃ t, exec (.srw k f) s = .next t ∧ NoEffect u t k) ∧
     (x.reg = 1 → ∃ u, s.sysWrite x v = some u ∧ u = s.setMe { s.me with trap := u.me.trap } ∧
       u.me.trap = { s.me.trap with tpc := u.me.trap.tpc } ∧
       (x.word = 0 → u.me.trap.tpc = joinWords v (hiWord s.me.trap.tpc)) ∧
       (x.word = 1 → u.me.trap.tpc = joinWords (loWord s.me.trap.tpc) v)) ∧
     (x.reg = 3 → ∃ u, s.sysWrite x v = some u ∧ u.me = s.me) ∧
     (0x100 ≤ x.reg → x.reg < 0x200 → (s.ctx x.ctx).established = false → s.sysWrite x v = some s) ∧
     (x.reg = 0x102 → x.word = 0 → (s.ctx x.ctx).established = true →
       (v.toNat % 4096 = 0 → ∃ u, s.sysWrite x v = some u ∧ u = { s with ctxs := u.ctxs } ∧
         ∀ c, u.ctx c = if c = x.ctx then
           { s.ctx c with ptroot := joinWords v (hiWord (s.ctx c).ptroot) } else s.ctx c) ∧
       (v.toNat % 4096 ≠ 0 → s.me.priv = true → ∃ t, exec (.srw k f) s = .next t ∧ Frozen s t 3 s.me.pc)) ∧
     (x.reg = 0x109 → x.word = 0 → (s.ctx x.ctx).established = true → ∃ u, s.sysWrite x v = some u ∧ (u.ctx x.ctx).pinstat = v))

/-- PREEMPT, CTXSV and CTXLD (R391 to R395): the statuses of a team reference, the request to stop, the sleep until the
team has quiesced, and a team that an image restores; CTXLD waits until its image's lines may be read (log 127). FREEZE and THAW (R386): the statuses of a reference to warps, the
freezing of warps that stand at a clause boundary, with its record, and the end of a freeze: of warps, which go on at
their word or after it, of a team that is killed once it is quiet, of a host function and of a peer. The model's choices:
status 1 for a THAW.kill of a host function or a peer and for a peer that no window lists (log 71), and what CTXSV and CTXLD
do beyond R393 to R395's words: the area that is probed, and the formats that are refused (log 72). -/
def Obligations.TeamControl : Prop :=
  (∀ (s : State) (k : Ctl) (f : EFields),
     let r := rdU s s.me f.a
     let base := rdU64 s s.me f.b
     let core := r.toNat
     (Issues s k (.preempt k f) → teamRefOk r = true → ∃ t, exec (.preempt k f) s = .next t ∧ ∃ u v,
       (Wrote32 u t k f.d 0#6 fun _ => v) ∧ u.me = s.me ∧ u = { s with teams := u.teams } ∧
       (s.teamNamed r = none → v = 1#32 ∧ u = s) ∧
       ∀ tk, s.teamNamed r = some tk → (tk = s.me.teamKey → v = 3#32 ∧ u = s) ∧
         (tk ≠ s.me.teamKey → (s.team tk).stop ≠ .none → v = 2#32 ∧ u = s) ∧
         (tk ≠ s.me.teamKey → (s.team tk).stop = .none → v = 0#32 ∧ ∀ y, u.team y =
           if y = tk then { s.team tk with stop := if f.func = 1#16 then .phase else .boundary } else s.team y)) ∧
     (Issues s k (.ctxsv k f) → teamRefOk r = true → (s.teamNamed r = none → ∃ t, exec (.ctxsv k f) s = .next t ∧
         Wrote32 s t k f.d 0#6 fun _ => 1#32) ∧
       ∀ tk, s.teamNamed r = some tk → (tk = s.me.teamKey → ∃ t, exec (.ctxsv k f) s = .next t ∧
           Wrote32 s t k f.d 0#6 fun _ => 3#32) ∧
         ∀ keys, tk ≠ s.me.teamKey → base.toNat % 4096 = 0 →
           s.areaKeys s.me (s.me.eff k) base needW (s.areaPages tk) = .ok keys →
           ∃ t, exec (.ctxsv k f) s = .next t ∧ ∃ u, Sleeps u t k (.save (keyCore s.cur) tk) ∧ u.me = s.me ∧
             u = { s with teams := u.teams } ∧ (u.team tk).stop ≠ .none ∧ ∀ y, y ≠ tk → u.team y = s.team y) ∧
     (∀ k0 keys, Issues s k (.ctxld k f) →
       let page : Dword := base &&& ~~~0xFFF#64
       let off := base.toNat % 4096
       s.areaKeys s.me (s.me.eff k) page needR ((off + 4351) / 4096) = .ok k0 →
       let h := imgHead (s.areaBytes k0 off 256)
       let bs := s.areaBytes keys off h.size
       let gives (v : Word) : Prop := ∃ t, exec (.ctxld k f) s = .next t ∧ ∃ u, CopiesMoved s u ∧ SameMemory s u ∧
         Wrote32 u t k f.d 0#6 fun _ => v
       let head := areaLines k0 off 256
       let lines := areaLines keys off h.size
       (s.areaReady head = false → exec (.ctxld k f) s = .next s) ∧
       (s.areaReady head = true → h.ok = false → gives 3#32) ∧
       (s.areaReady head = true → h.ok = true →
         s.areaKeys s.me (s.me.eff k) page needR ((off + h.size + 4095) / 4096) = .ok keys →
         (s.areaReady lines = false → exec (.ctxld k f) s = .next s) ∧ (s.areaReady lines = true →
         (s.loadStatus h bs core ≠ 0 → gives (BitVec.ofNat 32 (s.loadStatus h bs core))) ∧
         (s.loadStatus h bs core = 0 → s.loadWaits h core = true → exec (.ctxld k f) s = .next s) ∧
         (s.loadStatus h bs core = 0 → s.loadWaits h core = false → h.formats bs = true → ∃ t, exec (.ctxld k f) s = .next t ∧ ∃ u,
           (Wrote32 u t k f.d 0#6 fun _ => 0#32) ∧ SameMemory s u ∧
           let x := u.team (teamKey h.ctx h.team)
           x.life = .live ∧ x.cores = h.coresFor core ∧ x.scratchSize = h.scratch ∧ x.stop = .none ∧
             ∀ y, y ≠ teamKey h.ctx h.team → u.team y = s.team y))))) ∧
  (∀ (s : State) (k : Ctl) (f : EFields),
     let r := rdU s s.me f.a
     let ks := s.masterWarps r
     let gives (i : Instr) (n : Word) : Prop := ∃ t, exec i s = .next t ∧ Wrote32 s t k f.d 0#6 fun _ => n
     masterKind r ≤ 1 → masterRefOk r = true →
     (Issues s k (.freeze k f) → s.me.heldVals (.freeze k f) = none →
       (ks = [] → gives (.freeze k f) 1#32) ∧ (s.cur ∈ ks → gives (.freeze k f) 3#32) ∧
       (ks ≠ [] → s.cur ∉ ks → (∀ x ∈ ks, (s.warp x).frozen.isSome = true) → gives (.freeze k f) 2#32) ∧
       (s.cur ∉ ks → (∃ x ∈ ks, (s.warp x).frozen = none) →
         (∀ x ∈ ks, (s.warp x).frozen = none ∧ (s.warp x).atBoundary = true ∨
           (s.warp x).frozen.isSome = true ∧ (s.warp x).freezeReq = false) →
         ∃ t, exec (.freeze k f) s = .next t ∧ ∃ u, (Wrote32 u t k f.d 0#6 fun _ => 0#32) ∧ u.me = { s.me with req := none } ∧
           (∀ x ∈ ks, u.warp x =
             if (s.warp x).frozen.isSome then s.warp x else { s.warp x with frozen := some 5, freezeReq := false }) ∧
           (∀ x, x ∉ ks → x ≠ s.cur → u.warp x = s.warp x) ∧ SameMemory s u ∧
           (u.ctx (s.warp (ks.headD 0)).ctx).faults ≠ [])) ∧
     (Issues s k (.thaw k f) → s.me.heldVals (.thaw k f) = none →
       (ks = [] → gives (.thaw k f) 1#32) ∧
       (ks ≠ [] → (∀ x ∈ ks, (s.warp x).frozen = none) → gives (.thaw k f) 2#32) ∧
       ((∃ x ∈ ks, (s.warp x).frozen.isSome = true) → s.cur ∉ ks → f.func ≠ 2#16 →
         ∃ t, exec (.thaw k f) s = .next t ∧ ∃ u, (Wrote32 u t k f.d 0#6 fun _ => 0#32) ∧ u.me = s.me ∧
           u = { s with warps := u.warps, cores := u.cores } ∧ (f.func = 0#16 → u.cores = s.cores) ∧
           (∀ x, x ∉ ks → u.warp x = s.warp x) ∧ ∀ x ∈ ks, (u.warp x).frozen = none ∧
             ((s.warp x).frozen.isSome = true → (∀ z t0, (s.warp x).status ≠ .asleep z t0) →
               if f.func = 1#16 then (u.warp x).pc = (s.warp x).pc + 8#64 ∧ (u.warp x).left = (s.warp x).left - 1
               else (u.warp x).pc = (s.warp x).pc ∧ (u.warp x).left = (s.warp x).left)) ∧
       ((∃ x ∈ ks, (s.warp x).frozen.isSome = true) → f.func = 2#16 →
         let tk := (s.warp (ks.headD 0)).teamKey
         let u := s.setTeam tk { s.team tk with stop := .kill }
         (s.team tk).life = .live →
         (u.isQuiesced tk = true → ∃ t, exec (.thaw k f) s = .next t ∧ ∃ v, (Wrote32 v t k f.d 0#6 fun _ => 0#32) ∧
           v.team tk = {} ∧ ∀ y, y ≠ tk → v.team y = s.team y) ∧
         (u.isQuiesced tk = false → ∃ t, exec (.thaw k f) s = .next t ∧ t.me.pc = s.me.pc ∧ (t.team tk).stop = .kill)))) ∧
  (∀ (s : State) (k : Ctl) (f : EFields), Issues s k (.thaw k f) → s.me.heldVals (.thaw k f) = none →
     let r := rdU s s.me f.a
     let id := (r.extractLsb' 0 16).toNat
     let c := (r.extractLsb' 16 3).toNat
     let fh := s.links.frozenHosts
     let fp := s.links.frozenPeers
     let gives (u : State) (n : Word) : Prop := ∃ t, exec (.thaw k f) s = .next t ∧ Wrote32 u t k f.d 0#6 fun _ => n
     masterRefOk r = true →
     (masterKind r = 4 → ((c, id) ∉ fh → gives s 2#32) ∧ ((c, id) ∈ fh → f.func = 2#16 → gives s 1#32) ∧
       ((c, id) ∈ fh → f.func ≠ 2#16 → ∃ u, gives u 0#32 ∧
         u = { s with links := { s.links with frozenHosts := fh.filter fun x => !(x == (c, id)) } })) ∧
     (masterKind r = 5 → (s.listed id = false → gives s 1#32) ∧ (s.listed id = true →
       let named := ∃ x ∈ fp, x.1 = c ∧ x.2.1 = id
       (¬named → gives s 2#32) ∧ (named → f.func = 2#16 → gives s 1#32) ∧
       (named → f.func ≠ 2#16 → ∃ u, gives u 0#32 ∧
         u = { s with links := { s.links with frozenPeers := fp.filter fun x => !(x.1 == c && x.2.1 == id) } }))))

/-- TLBINV, BIAS and MAPG (R387, R389, R390): no TLB keeps what is invalidated; a page changes its bias in its leaf
alone; and a page is mapped to a zeroed frame of the pool, with its leaf where the walk stopped. -/
def Obligations.TranslationWords : Prop :=
  ∀ (s : State) (k : Ctl) (f : EFields),
    let va := rdU64 s s.me f.a
    let b := rdU s s.me f.b
    let sameRegs (u : State) : Prop := ∀ key, u.me.getKey key = s.me.getKey key
    let core := keyCore s.cur
    (Issues s k (.tlbinv k f) → b.toNat < 8 → s.me.heldVals (.tlbinv k f) = none → s.me.stq = [] → s.me.outs = [] →
      s.markersPass core (s.dirtyLines core ((s.core core).relCtr + 1#32)) = true →
      s.stillUses b.toNat s.nextId s.tick (if f.func = 0#16 then some va else none) = false → ∃ t, exec (.tlbinv k f) s = .next t ∧ ∃ u,
        (Wrote32 u t k f.d 0#6 fun _ => 0#32) ∧ sameRegs u ∧ SameMemory s u ∧
        (∀ c, ∀ e ∈ (u.core c).tlb, f.func = 0#16 → tlbOnPage b.toNat va e.1 e.2 = false) ∧
        (∀ c, ∀ e ∈ (u.core c).tlb, f.func ≠ 0#16 → e.1 / 2 ^ 41 ≠ b.toNat) ∧
        (s.me.ctx = b.toNat → ∀ n, f.func ≠ 0#16 ∨ (s.me.greg n).onPage va = true → (u.me.greg n).valid = false)) ∧
    (Issues s k (.bias k f) →
      let toHost := f.func == 1#16
      let w := if canonical va then s.walk s.me.ctx va else .fail 1 0 0
      let gives (n : Word) : Prop := ∃ t, exec (.bias k f) s = .next t ∧ Wrote32 s t k f.d 0#6 fun _ => n
      (∀ c l a, w = .fail c l a → gives 3#32) ∧
      (∀ e l a c, w = .leaf e l a → s.place s.me.ctx va e l = .error c → gives 3#32) ∧
      ∀ e l a p, w = .leaf e l a → s.place s.me.ctx va e l = .ok p → (leafHost e = true ∨ leafClass e ≠ 2 → gives 2#32) ∧
        (leafHost e = false → leafClass e = 2 → leafBias e = toHost → gives 1#32) ∧
        (leafHost e = false → leafClass e = 2 → leafBias e ≠ toHost → s.biasWaits core (s.onPage s.me.ctx e l) a = false →
          s.refused s.me.ctx (lineOf a) = false →
          ∃ t, exec (.bias k f) s = .next t ∧ ∃ u, (Wrote32 u t k f.d 0#6 fun _ => 0#32) ∧ sameRegs u ∧
            (∀ n, u.me.greg n = s.me.greg n) ∧ (∀ c, ∀ x ∈ (u.core c).tlb, tlbOnPage s.me.ctx va x.1 x.2 = false) ∧
            leafBias (u.dwordAt a) = toHost ∧ (∀ i, i < 64 → i ≠ 9 → (u.dwordAt a).getLsbD i = e.getLsbD i) ∧
            ∀ x, x < a ∨ a + 8 ≤ x → u.byteAt x = s.byteAt x)) ∧
    (∀ d, f.d = .s d → Issues s k (.mapg k f) → b.extractLsb' 5 27 = 0#27 → b.extractLsb' 3 2 ≠ 3#2 →
      let r := s.mapgStatus s.me.ctx va
      let frame := (s.ctx s.me.ctx).poolnext
      (r.1 ≠ 0 → ∃ t, exec (.mapg k f) s = .next t ∧ Wrote32 s t k f.d 0#6 fun _ => BitVec.ofNat 32 r.1) ∧
      let ls := lineOf r.2 :: frameLines frame.toNat
      (r.1 = 0 → (∃ l ∈ ls, s.writeWaits core s.nextId l = true) → exec (.mapg k f) s = .next s) ∧
      (r.1 = 0 → (∀ l ∈ ls, s.writeWaits core s.nextId l = false ∧ s.refused s.me.ctx l = false) →
        ∃ t, exec (.mapg k f) s = .next t ∧ t.me.pc = s.me.pc + 8#64 ∧ (∀ l ∈ frameLines frame.toNat, (t.line l).swz = 0#3) ∧
        t.me.getS d.val = 0#32 ∧ t.me.getS (d.val + 1) = frame.extractLsb' 16 32 ∧
        (∀ key, key ≠ s.me.sKey d.val → key ≠ s.me.sKey (d.val + 1) → t.me.getKey key = s.me.getKey key) ∧
        t.me.preds = s.me.preds ∧ (t.ctx s.me.ctx).poolnext = frame + 65536#64 ∧
        t.dwordAt r.2 = frame ||| 3#64 ||| ((b.extractLsb' 3 2).setWidth 64 <<< 2) ||| ((b.extractLsb' 0 3).setWidth 64 <<< 4) ∧
        (∀ x, frame.toNat ≤ x → x < frame.toNat + 65536 → x < r.2 ∨ r.2 + 8 ≤ x → t.byteAt x = 0#8) ∧
        ∀ x, x < frame.toNat ∨ frame.toNat + 65536 ≤ x → x < r.2 ∨ r.2 + 8 ≤ x → t.byteAt x = s.byteAt x)) ∧
    (∀ va', (s.mapgStatus s.me.ctx va').1 = 0 → canonical va' = true ∧ va'.getLsbD 56 = false ∧
      (s.ctx s.me.ctx).poolnext < (s.ctx s.me.ctx).poolend) ∧
    (∀ va' e l a, canonical va' = true → s.walk s.me.ctx va' = .leaf e l a →
      (∀ p, s.place s.me.ctx va' e l = .ok p → (s.mapgStatus s.me.ctx va').1 = 1) ∧
      ∀ c, s.place s.me.ctx va' e l = .error c → va'.getLsbD 56 = false → (s.mapgStatus s.me.ctx va').1 = 5)

/-! ## Steps that are no word of a program -/

/-- CLAUSE_ISSUE (R46, R52, R53, R279), REGISTER_WRITE_COMPLETE (R55, R99, R361) and STORE_PERFORM (R207, R324): the
selected warp begins its clause, goes on in it, with a window if its words need one, or traps at its header; an outstanding
write reaches its registers, a RECV's no earlier than its clock, and a store entry leaves the store counter, with its flags;
a VPUB gives its view the bound over the residuals of its blocks, and SETTLED
where none is above its threshold, queued or running elsewhere. -/
def Obligations.IssueAndCompletion : Prop :=
  ∀ (s : State) (core slot : Nat),
    let k := warpKey core slot
    let w := s.warp k
    (∀ sched, sched < 2 → slot % 2 = sched → slot < 48 → s.runner core sched = none → s.firstInLine core sched slot = true →
      (∀ h need, s.ready k = .clause h need → ∃ t, exec (.clauseIssue core sched slot) s = .next t ∧
        t.warp k = { w with
          hdr := w.pc, cmask := h.cls, left := h.count.toNat + 1, pc := w.pc + 8#64, running := true, rewait := false
          fetching := false, window := (t.warp k).window } ∧
        (need = false → (t.warp k).window = w.window) ∧ t.runner core sched = some k ∧
        (∀ y, y ≠ k → t.warp y = s.warp y) ∧ t = { s with warps := t.warps, cores := t.cores }) ∧
      (∀ need, s.ready k = .resume need → ∃ t, exec (.clauseIssue core sched slot) s = .next t ∧
        t.warp k = { w with running := true, rewait := false, fetching := false, window := (t.warp k).window } ∧
        (need = false → (t.warp k).window = w.window) ∧ (need = true → (t.warp k).window.isSome = true) ∧
        t.runner core sched = some k) ∧
      (∀ x, s.ready k = .trap x → w.priv = false → ∃ t, exec (.clauseIssue core sched slot) s = .next t ∧
        t.me.trap.tpc = w.pc ∧ t.me.priv = true ∧ t.me.trap.taddr = x.addr ∧
        t.me.pc = (s.ctx w.ctx).tvec + BitVec.ofNat 64 (128 * x.kind))) ∧
    (∀ o m, w.outs.find? (fun y => y.id == o.id) = some o → s.netNow < o.after →
      exec (.registerWriteComplete core slot o.id m) s = .next s) ∧
    (∀ o, w.outs.find? (fun y => y.id == o.id) = some o → o.after ≤ s.netNow → (∀ y ∈ o.tgts, y.val ≠ none) →
      (o.tgts.map fun y => y.key).Nodup → o.greg = none → s.pending k o.id = false →
      ∃ t, exec (.registerWriteComplete core slot o.id 0xFFFFFFFF#32) s = .next t ∧
        (∀ y v, y ∈ o.tgts → y.val = some v → y.key < 8448 → (t.warp k).getKey y.key = v) ∧
        (∀ key, key < 8448 → (∀ y ∈ o.tgts, y.key ≠ key) → (t.warp k).getKey key = w.getKey key) ∧
        (t.warp k).outs = w.outs.filter (fun y => y.id != o.id) ∧ (t.warp k).fpstat = w.fpstat ||| o.flags ∧
        (t.warp k).pc = w.pc ∧ t = s.setWarp k (t.warp k)) ∧
    (∀ e, w.stq.find? (fun y => y.id == e.id) = some e → (s.team w.teamKey).phase = none →
      (e.kind = .store → s.pending k e.id = false → ∃ t, exec (.storePerform core slot e.id) s = .next t ∧
        t = s.setWarp k { w with stq := w.stq.filter (fun y => y.id != e.id), fpstat := w.fpstat ||| e.flags }) ∧
      (∀ v p l own, e.kind = .publish v p l own → w.earlierDone e.id = true →
        s.recordReady [core] (s.view w.ctx v).record = true →
        let x := s.view w.ctx v
        let gen := if x.gen < p then p else x.gen
        let bs := (List.range (s.ctx w.ctx).nblocks).filter fun b => x.blocks.contains b
        let rho (b : Nat) : Word := if own = some b then addUp l (s.block w.ctx b).res else (s.block w.ctx b).res
        ∃ t, exec (.storePerform core slot e.id) s = .next t ∧ SameMemory s t ∧
          (t.warp k).stq = w.stq.filter (fun y => y.id != e.id) ∧
          let y := t.view w.ctx v
          y.ver = x.ver + 1#32 ∧ y.pgen = p ∧ y.gen = gen ∧ y.blocks = x.blocks ∧
          (x.sum = true → y.bound = bs.foldl (fun a b => addUp a (rho b)) 0#32) ∧
          (x.sum = false → bs ≠ [] → (∃ b ∈ bs, y.bound = rho b) ∧ ∀ b ∈ bs, rho b ≤ y.bound) ∧
          (y.settled = true ↔ p = gen ∧ ∀ b ∈ bs, gtF32 (rho b) (s.block w.ctx b).tau = false ∧
            (s.block w.ctx b).qd = false ∧ ((s.block w.ctx b).run = true → own = some b))))

/-- HOME_REQUEST (R207, R209, R242, R407), ATOMICOP_COMPLETION (R238) and CXL_CACHE_SNOOP (R23, R399): a home starts one
request of a line in a network clock, of those that came first one at the head of its port, holds one whose line's record is
not drained, and serves another: it is gone, its lanes' stores and atomics are done one after another in a free order, each
returning what it found, no other byte changes, a peer that refuses a request changes no line and gives the core none (R407),
and a load's registers take memory's, or the words that its core's
untracked copy holds; an AtomicOp does its operation, or freezes its warp at the word: that the warp is kept at its word,
with nothing of the word outstanding, and that the record's ADDR is the host address, are the model's choices (logs 90, 39).
An invalidated host line takes what the host writes, once no claim or drain holds the snoop. DRAIN_REQUEST,
DRAIN_COMPLETE and FLUSH_MARKER (R209, R213), LOOKOUT_POLL and WATCH_WAKE (R246): what is written back before a drain is
answered, the record it leaves drained, a marker accepted, a comparison that waits for what is ordered before it, traps on
an error, wakes its warp or is parked, and the registers that take the value seen. -/
def Obligations.MemorySteps : Prop :=
  (∀ (s : State),
     (∀ slice line r tie, s.pickRequest slice line = some (r, tie) →
       r ∈ s.reqs ∧ r.line = line ∧ s.home line = slice ∧ r.arrived.isSome = true ∧
       (r.begun = false → line ∉ s.starts ∧ ∀ x ∈ s.reqs, x.line = line → x.arrived.isSome = true → x.begun = false ∧
         ∀ a b, x.arrived = some a → r.arrived = some b → b ≤ a) ∧
       (r.begun = false → ∀ x ∈ s.reqs, x.arrived.isSome = true → x.begun = false → x.port = r.port → s.home x.line = slice →
         r.door ≤ x.door) ∧
       (r.held = true → exec (.homeRequest slice line) s = .next s) ∧
       (r.held = false → s.obstacle r = .busy → ∃ t, exec (.homeRequest slice line) s = .next t ∧ SameMemory s t ∧
         t = { s with rr := t.rr, starts := t.starts, reqs := t.reqs } ∧ (r.begun = false → line ∈ t.starts) ∧
         t.reqs = s.reqs.map fun x => { x with begun := x.begun || (x.id == r.id && !r.begun) }) ∧
       (∀ x, r.held = false → s.obstacle r = .record x → ∃ t, exec (.homeRequest slice line) s = .next t ∧ SameMemory s t ∧
         ∃ d ∈ t.drains, d.line = line ∧ d.req = r.id ∧
           ((∀ y ∈ s.drains, y.line = line → y.req ≠ r.id) → d.core = x.core ∧ d.num = x.num))) ∧
     (∀ slice line r tie, s.pickRequest slice line = some (r, tie) → r.held = false → s.obstacle r = .none →
       ∃ t, exec (.homeRequest slice line) s = .next t ∧ (∀ x ∈ t.reqs, x.id ≠ r.id) ∧
         (∀ a, (∀ o ∈ r.ops, o.op.writes = true → a < o.key ∨ o.key + o.n ≤ a) → t.byteAt a = s.byteAt a) ∧
         (∀ o v, r.ops = [o] → o.op = .store v → s.refused r.ctx r.line = false →
           t.readMem o.key o.n = v % 2 ^ (8 * o.n)) ∧
         (s.refused r.ctx r.line = true → r.isLock = false → r.isMonitor = false → r.moves = none →
           SameMemory s t ∧ t.lines = s.lines ∧ t.cores = s.cores) ∧
         let returns (o : LaneOp) (vals : List Word) : Prop := o.dst.length = vals.length →
           ∀ x ∈ (t.warp (warpKey r.core r.slot)).outs, x.id = r.own →
             ∀ (i : Nat) (key : Nat), o.dst[i]? = some key → ∀ y ∈ x.tgts, y.key = key → y.val = vals[i]?
         (r.isWrite = true → r.isLock = false → r.isMonitor = false → r.isPrefetch = false → s.refused r.ctx r.line = false →
           ∃ os, List.Perm os r.ops ∧ (∀ a, t.byteAt a = afterOps os s.byteAt a) ∧
             ((r.ops.flatMap fun o => o.dst).Nodup → ∀ before o later, os = before ++ o :: later →
               (∃ op v, o.op = .atom op v true) ∨ (∃ cmp new, o.op = .cas cmp new) →
               returns o (wordsOf o.n false (numIn (afterOps before s.byteAt) o.key o.n)))) ∧
         ((∀ o ∈ r.ops, ∃ sext, o.op = .load sext) → (r.ops.flatMap fun o => o.dst).Nodup →
           ∀ o ∈ r.ops, ∀ sext, o.op = .load sext → returns o (wordsOf o.n sext
             (s.readFor (if r.tracked then none else some (s.l1 r.core (ncKey r.line))) o.key o.n)))) ∧
     (∀ core slot id lane h, let k := warpKey core slot
       s.hostOps.find? (fun x => x.warp == k && x.own == id && x.op.lane == lane) = some h →
       let w := s.warp k
       (∀ e ∈ w.stq, id ≤ e.id) → w.epochOk id = true →
       (∀ r ∈ s.reqs, r.core = core → r.line = lineOf h.op.key → r.arrived = none ∧ id ≤ r.own) →
       (∀ op v ret, h.op.op = .atom op v ret → ∃ t, exec (.atomicopCompletion core slot id lane true) s = .next t ∧
         t.readMem h.op.key h.op.n = (atomOp op h.op.n (s.readMem h.op.key h.op.n) v).1 % 2 ^ (8 * h.op.n) ∧
         (∀ a, a < h.op.key ∨ h.op.key + h.op.n ≤ a → t.byteAt a = s.byteAt a) ∧ h ∉ t.hostOps) ∧
       ∃ t, exec (.atomicopCompletion core slot id lane false) s = .next t ∧ SameMemory s t ∧
         (∀ x ∈ t.hostOps, x.warp = k → x.own ≠ id) ∧
         t.warp k = { w with frozen := some 2, running := false, status := .ready, req := none
                             outs := w.outs.filter fun o => o.id != id, stq := w.stq.filter fun e => e.id != id } ∧
         ((s.ctx w.ctx).faults.length < 16 → (t.ctx w.ctx).faults = (s.ctx w.ctx).faults ++
           [{ addr := BitVec.ofNat 64 (h.op.key % 2 ^ 52), cause := 2#8, mkind := 0#3, wslot := BitVec.ofNat 6 slot
              team := BitVec.ofNat 6 w.team, core := BitVec.ofNat 9 core }])) ∧
     (∀ line data, s.outsideWaits true (line * 128) 128 = true → exec (.cxlCacheSnoop line true data) s = .next s) ∧
     (∀ line data, s.mgmt.ready = true → hostKey ≤ line * 128 → line * 128 < 2 ^ 53 →
       s.outsideWaits true (line * 128) 128 = false → ∃ t, exec (.cxlCacheSnoop line true data) s = .next t ∧
       (∀ i, i < 128 → i < data.length → t.byteAt (line * 128 + i) = data.getD i 0#8) ∧
       (∀ a, a < line * 128 ∨ line * 128 + 128 ≤ a → t.byteAt a = s.byteAt a) ∧ line ∉ t.links.hostLines)) ∧
  (∀ (s : State),
     (∀ core d, s.drains.find? (fun x => x.core == core && !x.started) = some d → ∃ t, exec (.drainRequest core) s = .next t ∧
       SameMemory s t ∧ (∀ line, (s.l1 core line).dirty ≠ 0#32 → atOrBelow (s.l1 core line).tag d.num = true →
         Tbl.wf {} (s.core core).l1 → (t.l1 core line).dirty = 0#32) ∧
       ∀ x ∈ t.drains, x.id = d.id → x.started = true) ∧
     (∀ id d r, s.drains.find? (fun x => x.id == id) = some d → d.started = true → d.markers = 0 →
       (s.line d.line).record = some r → r.core = d.core → r.num = d.num → (∀ x ∈ s.reqs, x.id ≠ d.req) →
       ∃ t, exec (.drainComplete id) s = .next t ∧ SameMemory s t ∧ (∀ x ∈ t.drains, x.id ≠ id) ∧
         (t.line d.line).record = some { r with drained := true }) ∧
     (∀ path warp own q, s.pathDown path = false → s.pathItems path = .marker warp own false :: q →
       ∃ t, exec (.flushMarker path) s = .next t ∧ t.pathItems path = q ∧
         (t.warp warp).stq = (s.warp warp).stq.map fun e => if e.id = own then { e with markers := e.markers - 1 } else e) ∧
     (∀ core slot x, let k := warpKey core slot
       s.watchOf k = some x → x.lookout = false → x.wake = none →
       let line := lineOf x.key
       let poisoned := s.poisonFor (s.warp k).ctx line &&& spanOf x.key x.n
       (s.pollWaits k line = true → exec (.lookoutPoll core slot) s = .next s) ∧
       (s.pollWaits k line = false → poisoned ≠ 0#32 → (s.warp k).priv = false → ∃ t, exec (.lookoutPoll core slot) s = .next t ∧
         SameMemory s t ∧ (∀ y ∈ t.watches, y.warp ≠ k) ∧ (t.warp k).pc = (s.ctx (s.warp k).ctx).tvec + 1792#64 ∧
         (t.warp k).trap.tpc = (s.warp k).pc ∧ (t.warp k).trap.taddr = x.va &&& ~~~(127#64) ∧ (t.warp k).trap.tmask = x.mask ∧
         (t.warp k).trap.tcause.toNat % 65536 = 256 + 14) ∧
       (s.pollWaits k line = false → poisoned = 0#32 → s.undrained (some core) line = none →
       let v := s.readMem x.key x.n
       (watchCond x.cond x.n v x.cmp = true → ∃ t, exec (.lookoutPoll core slot) s = .next t ∧
         t = { s with watches := t.watches } ∧ ∀ y ∈ t.watches, y.warp = k → y.wake = some v) ∧
       (watchCond x.cond x.n v x.cmp = false →
         (s.watches.filter fun y => y.lookout && s.home (lineOf y.key) == s.home (lineOf x.key)).length < 256 →
         ∃ t, exec (.lookoutPoll core slot) s = .next t ∧ SameMemory s t ∧ ∀ y ∈ t.watches, y.warp = k → y.lookout = true))) ∧
     (∀ core slot x v, let k := warpKey core slot
       s.watchOf k = some x → x.wake = some v → (x.order = 1 → s.undrained (some core) (lineOf x.key) = none) →
       (∀ key ∈ x.dst, key < 8448) → x.dst.Nodup →
       ∃ t, exec (.watchWake core slot) s = .next t ∧ SameMemory s t ∧ (∀ y ∈ t.watches, y.warp ≠ k) ∧
         (t.warp k).status = (if (s.warp k).mark then .parked else .ready) ∧ (t.warp k).pc = (s.warp k).pc + 8#64 ∧
         (t.warp k).left = 0 ∧
         ∀ (i : Nat) (key : Nat) (y : Word), x.dst[i]? = some key → (wordsOf x.n false v)[i]? = some y → (t.warp k).getKey key = y))

/-- MATRIX_ACCEPT (R285, R337): alignment, translation, class and layout are checked in that order, and a word that fails traps
at the word, without effect; where both operands of an MMA fail one check A's address is reported (log 110), and a STAMP or
HSHIFT that would read poisoned data traps here (log 113): both are the model's choices. The word's lines are fetched, and a
word that its engine can take is accepted, last in the engine's queue, while its warp goes on. ENGINE_WORD_START (R287): the
engine is done with the word before, takes the first word queued, and consumes its tiles. ACCUMULATOR_WRITE gives a word's
result: each element of an MMA, MMAS or MMASP (R100, R288) takes its products in ascending groups of 16, or 4 in FP64, each
group rounded once and added under one rounding; FACT (R340, R341) factorises each matrix step by step and writes its pivot
record; TRSL (R343) solves each column; and ACVT (R296) converts row by row, its bytes then on their way to memory under the
DNF that CTXCFG has now (log 85, the model's choice). ENGINE_WRITES_LANDED (R297): bytes land once their line's claim and what
comes before it allow (log 94): an ACVT's; a line of a STAMP's image, each element the sum over its entries in ascending order
with one rounding a step (R345); the elements of a line that a PATCH names, set or added to (R346); and a move of a HSHIFT,
stages in order (R348). SCRUB_DONE (R397) ends a scrub. The model's choices also: that a TRSL.perm whose pivot names no row of
the matrix makes no exchange (log 33); IV beside a NaN in a sum, and an accumulator's NaN (logs 59, 83); that the class check
is of header and image alone (log 61); that STAB, PARB and MEAS that are misaligned take the alignment trap, and a PATCH of 0
entries checks nothing (log 62); and that STAMP, PATCH and HSHIFT take no place in the queue (log 64). -/
def Obligations.EngineSteps : Prop :=
  ∀ (s : State),
    (∀ core slot c, let k := warpKey core slot
      let u : State := { s with cur := k }
      let next (t : State) : Prop := exec (.matrixAccept core slot) s = .next t
      let va (i : Nat) : Dword := BitVec.ofNat 64 (c.vals.getD i 0)
      let trapped (x : Trp) : Prop := u.me.priv = false → ∃ t, next t ∧ AcceptTrapped u t k x
      let trap (kind cause : Nat) (addr : Dword) (info : Word) : Prop := trapped ⟨kind, cause, c.exec, addr, info⟩
      let placed (need : BitVec 3) (dev : Bool) (vas : List Dword) (go : List (Dword × Phys) → Prop) : Prop :=
        (∀ e, u.placesAt u.me need 1 vas = .error e → trap e.kind e.cause e.addr 0#32) ∧
        ∀ ps, u.placesAt u.me need 1 vas = .ok ps →
          let bad := ps.find? fun p => p.2.host || leafStripe p.2.entry != 0
          (∀ p, dev = true → bad = some p → trap 8 3 p.1 0#32) ∧ ((dev = true → bad = none) → go ps)
      let fetched (ts : List TileReq) (ls : List (Nat × Dword)) (go : Prop) : Prop :=
        let r := u.fetchStep core slot u.me.ctx c.got ts ls
        (r = .wait → next u) ∧ (∀ t, r = .step t → next t) ∧
        (∀ kind cause a, r = .fail kind cause a → trap kind cause a 0#32) ∧ (r = .ready → go)
      let accepted (sd : Tbl Word) (P : EngWord → Prop) : Prop := ∃ t e, next t ∧ AcceptedAs u t core k c e sd ∧ P e
      let queued (P : EngWord → Prop) : Prop :=
        (u.queueRoom core = false → next u) ∧
        (u.queueRoom core = true → accepted u.me.seeds fun e => e.stage = .queued ∧ P e)
      let landing (cs : List Nat) (P : EngWord → Prop) : Prop :=
        accepted u.me.seeds fun e => e.stage = .landing ∧ e.claims = cs ∧ P e
      let lined (ps : List (Dword × Phys)) (vas : List Dword) : List (Nat × Dword) := vas.map fun a => (lineOf (keyIn ps a), a)
      let headed (go : ObjHeader → List (Dword × Phys) → Prop) : Prop := placed needR false [va 0] fun ps =>
        fetched [] (lined ps [va 0]) (go (objHeader (gotBytes c.got ps (va 0) 128)) ps)
      let classed (ps : List (Dword × Phys)) (go : Prop) : Prop :=
        let bad := ps.find? fun p => p.2.host || leafStripe p.2.entry != 0
        (∀ p, bad = some p → trap 8 3 p.1 0#32) ∧ (bad = none → go)
      let moded (mode : Nat) (h : ObjHeader) (go : Prop) : Prop :=
        (h.bad = true ∨ h.mode ≠ mode → trap 9 3 (va 0) 0#32) ∧ (h.bad = false → h.mode = mode → go)
      slot < 64 → u.me.req = some c → u.me.status = .accepting → u.me.frozen = none →
      (∀ ctl f mmas sparse, (c.instr = .mma ctl f ∧ mmas = false ∧ sparse = false ∨
          c.instr = .mmas ctl f ∧ mmas = true ∧ sparse = false ∨ c.instr = .mmasp ctl f ∧ mmas = true ∧ sparse = true) →
        let al := if sparse = true then 4096 else 2048
        let malformed (isB : Bool) (fmt : Nat) : Prop := let lw := c.vals.getD (if isB = true then 3 else 2) 0
          32 ≤ lw ∨ isB = false ∧ lw.testBit 3 = true ∨ lw.testBit 4 = true ∧ fmt ≠ 26 ∧ fmt ≠ 27
        let kk := kOfFmt c.fmt
        let rises (i g : Nat) : Prop :=
          let d (t : Nat) : Nat := metaReg c.vals (kk / 8) i (g / 2) / 2 ^ (12 * (g % 2)) % 4096 / 8 ^ t % 8
          d 0 < d 1 ∧ d 1 < d 2 ∧ d 2 < d 3
        ((va 0).toNat % 2048 ≠ 0 → trap 6 0 (va 0) 0#32) ∧
        ((va 0).toNat % 2048 = 0 → (va 1).toNat % al ≠ 0 → trap 6 0 (va 1) 0#32) ∧
        ((va 0).toNat % 2048 = 0 → (va 1).toNat % al = 0 → placed needR true (u.operandVas c mmas sparse) fun ps =>
          (malformed false (fmtA c.fmt) → trap 9 1 (va 0) 0#32) ∧
          (¬malformed false (fmtA c.fmt) → malformed true (fmtB c.fmt) → trap 9 1 (va 1) 0#32) ∧
          (¬malformed false (fmtA c.fmt) → ¬malformed true (fmtB c.fmt) →
            let ts := u.tileReqs c mmas sparse ps
            fetched ts []
              ((∀ i g, sparse = true → i < 32 → g < kk / 4 → ¬rises i g →
                  (∀ j h, j < i → h < kk / 4 → rises j h) → (∀ h, h < g → rises i h) →
                  trap 10 0 0#64 (BitVec.ofNat 32 (i + 32 * g))) ∧
                ((sparse = true → ∀ i g, i < 32 → g < kk / 4 → rises i g) →
                  (u.me.booksPending c.fmt = true → next u) ∧
                  (u.me.booksPending c.fmt = false → queued fun e =>
                    e.a = (ts.take 1).flatMap (u.tileBytes core) ∧ e.b = (ts.drop 1).flatMap (u.tileBytes core) ∧
                    e.bookA = u.me.win.book (fmtCba c.fmt) ∧ e.bookB = u.me.win.book (fmtCbb c.fmt))))))) ∧
      (∀ ctl f, c.instr = .acvt ctl f →
        let dst := c.vals.getD 0 0
        let r := u.probeRowsOut u.me (!bit16 f.func 1) dst (acvtRow c.fmt) (c.vals.getD 2 0) 32
        (dst % 16 ≠ 0 → trap 6 0 (BitVec.ofNat 64 dst) 0#32) ∧
        (∀ e, dst % 16 = 0 → r = .error e → trap e.kind e.cause e.addr 0#32) ∧
        ∀ ps ls, dst % 16 = 0 → r = .ok (ps, ls) →
          (u.queueRoom core = false → next u) ∧
          (u.queueRoom core = true → ∃ sd,
            accepted sd (fun e => e.stage = .queued ∧ e.claims = distinct ls ∧ e.seeds = (List.range 32).map u.me.seed ∧
              e.writes.map (fun x => (x.1, x.2.length)) = ps) ∧
            (fmtRound c.fmt ≠ 4 → sd = u.me.seeds) ∧
            (fmtRound c.fmt = 4 → ∀ l, l < 32 → tget 0#32 sd l = seedNext^[32] (u.me.seed l)))) ∧
      (∀ ctl f, c.instr = .fact ctl f →
        let z := factFunc f.func
        let n := if z.d64 = true then 8192 else 4096
        let vas := linesFrom (va 0) (128 + n)
        (z.ld = false → queued fun _ => True) ∧
        (z.ld = true → (va 0).toNat % 128 ≠ 0 → trap 6 0 (va 0) 0#32) ∧
        (z.ld = true → (va 0).toNat % 128 = 0 → placed needR true (firstOfPages vas) fun ps =>
          fetched [] ((lined ps vas).take 1)
            (let h := objHeader (gotBytes c.got ps (va 0) 128)
             (h.bad = true ∨ orderOfSize h.size ≠ z.n ∨ h.d64 ≠ z.d64 → trap 9 3 (va 0) 0#32) ∧
             (h.bad = false → orderOfSize h.size = z.n → h.d64 = z.d64 → fetched [] (lined ps vas)
               (queued fun e => e.a = gotBytes c.got ps (va 0 + 128#64) n))))) ∧
      (∀ ctl f, c.instr = .trsl ctl f → queued fun _ => True) ∧
      (∀ ctl f, c.instr = .stamp ctl f →
        ((va 0).toNat % 128 ≠ 0 → trap 6 0 (va 0) 0#32) ∧
        ((va 0).toNat % 128 = 0 → headed fun h hp =>
          let al := if h.d64 = true then 8 else 4
          let image := linesFrom (va 0 + 128#64) (if h.d64 = true then 8192 else 4096)
          let table := if h.nst = 0 then [] else linesFrom h.stab (16 * h.nst)
          (h.stab.toNat % 16 ≠ 0 → trap 6 0 h.stab 0#32) ∧
          (h.stab.toNat % 16 = 0 → h.parb.toNat % al ≠ 0 → trap 6 0 h.parb 0#32) ∧
          (h.stab.toNat % 16 = 0 → h.parb.toNat % al = 0 → h.meas.toNat % al ≠ 0 → trap 6 0 h.meas 0#32) ∧
          (h.stab.toNat % 16 = 0 → h.parb.toNat % al = 0 → h.meas.toNat % al = 0 →
            placed needW false (firstOfPages image) fun ps => placed needR false (firstOfPages table) fun ts =>
              fetched [] (lined ts table)
                (let es := (List.range h.nst).map fun e => stampEnt (gotBytes c.got ts (h.stab + BitVec.ofNat 64 (16 * e)) 16)
                 placed needR false (firstOfPages (stampVas h es)) fun vs => classed (hp ++ ps) (moded 1 h
                   ((∀ i x, es[i]? = some x → x.bad = true → (∀ j y, j < i → es[j]? = some y → y.bad = false) →
                       trap 9 4 (va 0) (BitVec.ofNat 32 i)) ∧
                     ((∀ x ∈ es, x.bad = false) →
                       let bad := (stampVas h es).find? fun a => u.badBytes u.me.ctx (.mem (keyIn vs a)) al
                       (∀ a, bad = some a → trap 14 1 a 0#32) ∧
                       (bad = none → landing (coherentLines ps image) fun e =>
                         let key (base : Dword) (i : Nat) : Option Nat :=
                           if i = 0xFFFF then none else some (keyIn vs (base + BitVec.ofNat 64 (al * i)))
                         e.img = (lined ps image).map Prod.fst ∧ e.todo = List.range image.length ∧ e.ents = es.map fun x =>
                           ⟨imageOff h.d64 x.row x.col, x.coef, false, key h.parb x.pidx, key h.meas x.midx⟩)))))))) ∧
      (∀ ctl f, c.instr = .patch ctl f →
        let count := c.vals.getD 1 0
        let table := linesFrom (va 2) (16 * count)
        (4096 < count → trapped (illegal u.me c.ctl c.instr)) ∧
        (count = 0 → ∃ t, next t ∧ SameMemory u t ∧ (t.core core).eng = (u.core core).eng ∧ t.warp k = { u.warp k with
          pc := (u.warp k).pc + 8#64, left := (u.warp k).left - 1, rewait := false, running := false, req := none
          status := afterMark c.ctl.sw }) ∧
        (0 < count → count ≤ 4096 →
          ((va 0).toNat % 128 ≠ 0 → trap 6 0 (va 0) 0#32) ∧
          ((va 0).toNat % 128 = 0 → (va 2).toNat % 16 ≠ 0 → trap 6 0 (va 2) 0#32) ∧
          ((va 0).toNat % 128 = 0 → (va 2).toNat % 16 = 0 → headed fun h hp =>
            let image := linesFrom (va 0 + 128#64) (if h.d64 = true then 8192 else 4096)
            placed needW false (firstOfPages image) fun ps => placed needR false (firstOfPages table) fun ts =>
              classed (hp ++ ps) (moded 2 h (fetched [] (lined ts table)
                (let es := (List.range count).map fun e =>
                   patchEnt h.d64 (gotBytes c.got ts (va 2 + BitVec.ofNat 64 (16 * e)) 16)
                 (∀ i x, es[i]? = some x → x.1 = true → (∀ j y, j < i → es[j]? = some y → y.1 = false) →
                   trap 9 4 (va 0) (BitVec.ofNat 32 i)) ∧
                 ((∀ x ∈ es, x.1 = false) →
                   let named := (List.range image.length).filter fun i => es.any fun x => x.2.off / 128 == i
                   landing (coherentLines ps (named.filterMap fun i => image[i]?)) fun e =>
                     e.ents = es.map Prod.snd ∧ e.img = (lined ps image).map Prod.fst ∧ e.todo = named))))))) ∧
      ∀ ctl f, c.instr = .hshift ctl f →
        let size := c.vals.getD 2 0
        let n := c.vals.getD 3 0
        let bad := (va 0).toNat % 16 ≠ 0 ∨ size % 16 ≠ 0 ∨ size < 16 ∨ 65536 < size ∨ n = 0 ∨ 4096 < n
        let moves := shiftMoves (va 0) (va 1) size n
        (bad → trap 6 0 (va 0) 0#32) ∧ (¬bad → (va 1).toNat % 16 ≠ 0 → trap 6 0 (va 1) 0#32) ∧
        (¬bad → (va 1).toNat % 16 = 0 →
          (∀ e, u.probeMoves u.me moves = .error e → trap e.kind e.cause e.addr 0#32) ∧
          ∀ ps ls, u.probeMoves u.me moves = .ok (ps, ls) →
            let bad := (moves.zip ps).find? fun x => u.badBytes u.me.ctx x.2.src x.2.n
            (∀ x, bad = some x → trap 14 1 (BitVec.ofNat 64 x.1.src.num) 0#32) ∧
            (bad = none →
              (ps ≠ [] → (∃ l ∈ ls, u.mayClaim core u.nextId l (unreadOf ps) = false) → next u) ∧
              (ps = [] ∨ (∀ l ∈ ls, u.mayClaim core u.nextId l (unreadOf ps) = true) →
                landing (distinct ls) fun e => e.pieces = ps ∧ e.late = [])))) ∧
    (∀ core e, (s.core core).eng.find? (fun x => x.stage == .queued) = some e → ∃ t, exec (.engineWordStart core) s = .next t ∧
      (∃ x ∈ (t.core core).eng, x = { e with stage := .running, pins := [], held := [] }) ∧ SameMemory s t ∧
      (∀ y ∈ (s.core core).eng, y.stage = .running → y.id ≠ e.id → { y with stage := .writing } ∈ (t.core core).eng) ∧
      ∀ x ∈ (t.core core).tfu, ∃ y ∈ (s.core core).tfu, x.lines = y.lines ∧ x.scales = y.scales ∧
        x.pins = y.pins - (e.pins.filter fun p => p == (y.key, y.swz)).length) ∧
    (∀ core e x, let k := warpKey core e.slot
      (s.core core).eng.find? (fun y => y.stage == .running || y.stage == .writing) = some e →
      (s.warp k).window = some x →
      let next (t : State) (y : Window) (fl : Flags) : Prop := exec (.accumulatorWrite core) s = .next t ∧ SameMemory s t ∧
        t.warp k = { s.warp k with window := some y, fpstat := (s.warp k).fpstat ||| fl }
      let done (y : Window) (fl : Flags) : Prop := ∃ t, next t y fl ∧ ∀ z ∈ (t.core core).eng, z.id ≠ e.id
      let others (y : Window) (qs : List Nat) : Prop := ∀ q i j, q ∉ qs → i < 32 → j < 32 → y.elem q i j = x.elem q i j
      let pair (d64 : Bool) (q : Nat) : List Nat := if d64 = true then [q, q + 1] else [q]
      let bits (d64 : Bool) : Nat := if d64 = true then 64 else 32
      let fp (d64 : Bool) : FpFmt := if d64 = true then fp64 else fp32
      (∀ ctl f mmas sparse, (e.word.instr = .mma ctl f ∧ mmas = false ∧ sparse = false ∨
          e.word.instr = .mmas ctl f ∧ mmas = true ∧ sparse = false ∨
          e.word.instr = .mmasp ctl f ∧ mmas = true ∧ sparse = true) →
        let a := e.opnd false false
        let b := e.opnd true false
        let b2 := e.opnd true true
        let kk := kOfFmt e.word.fmt
        let n := if sparse = true then 2 * kk else kk
        let wide := a.fmt.cls == 64
        let g := if wide = true then 4 else 16
        let q := f.q.toNat
        ∃ (av : Nat → Nat → Machine.Num) (y : Window) (fl : Flags) (el : Nat → Nat → Nat) (ef : Nat → Nat → Flags),
          let place (i m t : Nat) : Nat :=
            metaReg e.word.vals (kk / 8) i (m / 8 / 2) / 2 ^ (12 * (m / 8 % 2)) % 4096 / 8 ^ t % 8
          let prod (i j m : Nat) : Machine.Num × Flags :=
            let p := mulNum (av i m) (if sparse = true ∧ kk ≤ m then b2.value j (m - kk) else b.value j m)
            (if bit16 f.func 0 = true then negKeep p.1 else p.1, p.2)
          (sparse = false → ∀ i m, av i m = a.value i m) ∧
          (∀ i m, sparse = true →
            (∀ t, t < 4 → place i m t = m % 8 → (∀ t', t' < t → place i m t' ≠ m % 8) → av i m = a.value i (4 * (m / 8) + t)) ∧
            ((∀ t, t < 4 → place i m t ≠ m % 8) → av i m = .fin false 0 0)) ∧
          done y fl ∧ y = { x with tiles := y.tiles } ∧ others y (pair wide q) ∧
          (∀ i j, i < 32 → j < 32 → y.code wide q i j = el i j % 2 ^ bits wide ∧
            Accumulated (fp wide) g (n / g) (prod i j) (if bit16 f.func 1 = true then 0 else x.code wide q i j) (el i j) (ef i j)) ∧
          ∀ z, fl.getLsbD z = true ↔ ∃ i j, i < 32 ∧ j < 32 ∧ (ef i j).getLsbD z = true) ∧
      (∀ ctl f, e.word.instr = .fact ctl f →
        let z := factFunc f.func
        let q := f.q.toNat
        let cnt := matCount z.n
        let w := bits z.d64 / 8
        let start (i j : Nat) : Nat :=
          if z.ld = true then leNat ((e.a.drop (32 * w * i + w * j)).take w) else x.code z.d64 q i j
        z.kind < 3 → ∃ (y : Window) (fl : Flags) (r : Nat → Nat → Nat → Nat) (piv : Nat → Nat → Nat) (code stop : Nat → Nat)
            (mf : Nat → Flags),
          done y fl ∧ y = { x with tiles := y.tiles, piv := y.piv, brk := y.brk, count := y.count } ∧ others y (pair z.d64 q) ∧
          (∀ m, m < cnt →
            Factorised (fp z.d64) z.kind z.n (fun i k => start (matPlace z.n m i k).1 (matPlace z.n m i k).2) (r m) (piv m)
              (code m) (stop m) (mf m) ∧
            (∀ i k, i < z.n → k < z.n →
              y.code z.d64 q (matPlace z.n m i k).1 (matPlace z.n m i k).2 = r m i k % 2 ^ bits z.d64) ∧
            (∀ i, i < z.n → tget 0#8 y.piv (128 * q + z.n * m + i) = BitVec.ofNat 8 (piv m i)) ∧
            tget 0#8 y.brk (16 * q + m) = BitVec.ofNat 8 (32 * code m + stop m)) ∧
          (∀ b, z.n * cnt ≤ b → b < 128 → tget 0#8 y.piv (128 * q + b) = 0#8) ∧
          (∀ m, cnt ≤ m → m < 16 → tget 0#8 y.brk (16 * q + m) = 0#8) ∧ tget 0 y.count q = cnt ∧
          (∀ p, p ≠ q → tget 0 y.count p = tget 0 x.count p ∧
            (∀ b, b < 128 → tget 0#8 y.piv (128 * p + b) = tget 0#8 x.piv (128 * p + b)) ∧
            ∀ m, m < 16 → tget 0#8 y.brk (16 * p + m) = tget 0#8 x.brk (16 * p + m)) ∧
          ∀ b, fl.getLsbD b = true ↔ ∃ m, m < cnt ∧ (mf m).getLsbD b = true) ∧
      (∀ ctl f, e.word.instr = .trsl ctl f →
        let d64 := bit16 f.func 9
        let q := f.q.toNat
        let rhs := (f.func.extractLsb' 0 4).toNat
        let n := orderOfSize (f.func.extractLsb' 7 2).toNat
        let elemOf (t m i k : Nat) : Nat := x.code d64 t (matPlace n m i k).1 (matPlace n m i k).2
        ∃ (y : Window) (fl : Flags) (r : Nat → Nat → Nat → Nat) (mf : Nat → Nat → Flags),
          done y fl ∧ y = { x with tiles := y.tiles } ∧ others y (pair d64 rhs) ∧
          (∀ m c, m < matCount n → c < n →
            Solved (fp d64) (f.func.extractLsb' 4 3).toNat n (elemOf q m) (fun j => (tget 0#8 x.piv (128 * q + n * m + j)).toNat)
              (fun i => elemOf rhs m i c) (fun i => r m i c) (mf m c) ∧
            ∀ i, i < n → y.code d64 rhs (matPlace n m i c).1 (matPlace n m i c).2 = r m i c % 2 ^ bits d64) ∧
          ∀ b, fl.getLsbD b = true ↔ ∃ m c, m < matCount n ∧ c < n ∧ (mf m c).getLsbD b = true) ∧
      ∀ ctl f o, e.word.instr = .acvt ctl f → matFmt (fmtA e.word.fmt) = some o →
        let n := elemBits o.elem
        let r : Rnd := ⟨fmtRound e.word.fmt, fmtSat e.word.fmt, ctxDnf (s.ctx (s.warp k).ctx)⟩
        (e.writes.map fun y => y.2.length).sum = 32 * (4 * n) →
        ∃ (t : State) (fl : Flags) (sd : Nat → Nat → Word) (y : EngWord),
          let v (i j : Nat) : Lane := packOne r o.elem (decF32 (x.elem f.q.toNat i j))
            (decF32 (BitVec.ofNat 32 (e.word.vals.getD 1 0))) (sd j i)
          next t x fl ∧ y ∈ (t.core core).eng ∧ y = { e with stage := .landing, writes := y.writes } ∧
          (∀ j, j < 32 → sd j 0 = e.seeds.getD j 0#32 ∧ ∀ i, sd j (i + 1) = (v i j).2.2) ∧
          y.writes.map (fun z => (z.1, z.2.length)) = e.writes.map (fun z => (z.1, z.2.length)) ∧
          y.writes.flatMap Prod.snd =
            (List.range 32).flatMap (fun i => natLe (4 * n) (packElems n ((List.range 32).map fun j => (v i j).1))) ∧
          ∀ b, fl.getLsbD b = true ↔ ∃ i j, i < 32 ∧ j < 32 ∧ (v i j).2.1.getLsbD b = true) ∧
    (∀ core e key bs, (s.core core).eng.find? (fun x => x.id == e.id && x.stage == .landing) = some e →
      e.writes = [(.mem key, bs)] → lineOf key ∉ e.late →
      (s.writeWaits core e.id (lineOf key) = true → exec (.engineWritesLanded core e.id) s = .next s) ∧
      (s.writeWaits core e.id (lineOf key) = false → s.refused (s.warp (warpKey core e.slot)).ctx (lineOf key) = false →
        ∃ t, exec (.engineWritesLanded core e.id) s = .next t ∧ (∀ i, i < bs.length → t.byteAt (key + i) = bs.getD i 0#8) ∧
        ∀ a, a < key ∨ key + bs.length ≤ a → t.byteAt a = s.byteAt a)) ∧
    (∀ core e, (s.core core).eng.find? (fun x => x.id == e.id && x.stage == .landing) = some e → e.writes = [] →
      let k := warpKey core e.slot
      let lands (t : State) : Prop := exec (.engineWritesLanded core e.id) s = .next t
      let claimed (line : Nat) : Prop := ∃ t, lands t ∧ SameMemory s t ∧ (∃ n, (e.id, n) ∈ (t.line line).claims) ∧
        ∀ x ∈ (t.core core).eng, x.id = e.id → line ∉ x.late
      let comes (line : Nat) (done : Prop) : Prop :=
        (line ∈ e.late → s.mayClaim core e.id line e.unread = false → lands s) ∧
        (line ∈ e.late → s.mayClaim core e.id line e.unread = true → claimed line) ∧
        (line ∉ e.late → s.writeWaits core e.id line = true → lands s) ∧
        (line ∉ e.late → s.writeWaits core e.id line = false → s.refused (s.warp k).ctx line = false → done)
      (e.todo ≠ [] → ∃ i ∈ e.todo,
        let line := e.img.getD i 0
        let n := e.elemSize
        let fm := if n = 8 then fp64 else fp32
        let elemOf (u : State) (j : Nat) : Nat := u.readMem (line * 128 + n * j) n
        let feeds := e.feedLines i
        ((∃ l ∈ feeds, s.readWaits core e.id l = true) → lands s) ∧
        ((∀ l ∈ feeds, s.readWaits core e.id l = false) → comes line (∃ t, lands t ∧
          (∀ a, a < line * 128 ∨ line * 128 + 128 ≤ a → t.byteAt a = s.byteAt a) ∧
          (∀ ctl f, e.word.instr = .stamp ctl f →
            (∀ j, n * j < 128 → elemOf t j = (stampElem s fm n (e.entsAt i j)).1 % 2 ^ (8 * n)) ∧
            ∃ fl, (t.warp k).fpstat = (s.warp k).fpstat ||| fl ∧
              ∀ b, fl.getLsbD b = true ↔ ∃ j, n * j < 128 ∧ (stampElem s fm n (e.entsAt i j)).2.getLsbD b = true) ∧
          (∀ ctl f, e.word.instr = .patch ctl f →
            (∀ j, n * j < 128 → elemOf t j =
              if e.entsAt i j = [] then elemOf s j else (patchElem fm (elemOf s j) (e.entsAt i j)).1 % 2 ^ (8 * n)) ∧
            ∃ fl, (t.warp k).fpstat = (s.warp k).fpstat ||| fl ∧
              ∀ b, fl.getLsbD b = true ↔ ∃ j, n * j < 128 ∧ (patchElem fm (elemOf s j) (e.entsAt i j)).2.getLsbD b = true) ∧
          (∀ x ∈ (t.core core).eng, x.id = e.id → i ∉ x.todo) ∧ ∀ y ∈ (t.line line).claims, y.1 ≠ e.id))) ∧
      (∀ p₀ ps row, e.todo = [] → e.pieces = p₀ :: ps → p₀.row = some row →
        ∃ p ∈ e.pieces.takeWhile (fun q => q.row == some row), (s.sourceWaits core e.id p.src = true → lands s) ∧
          ∀ key, p.dst = .mem key → s.sourceWaits core e.id p.src = false → comes (lineOf key) (∃ t, lands t ∧
            (∀ i, i < p.n → t.byteAt (key + i) = (s.bytesOf p.src p.n).getD i 0#8) ∧
            (∀ a, a < key ∨ key + p.n ≤ a → t.byteAt a = s.byteAt a) ∧
            ∀ x ∈ (t.core core).eng, x.id = e.id → p ∉ x.pieces))) ∧
    (∀ (f : FpFmt) (n : Nat) (xs : List FeedEnt) (x : FeedEnt),
      let val (k : Option Nat) : Machine.Num := match k with | some k => f.decode (s.readMem k n) | none => .fin false 1 0
      let p := mulNum (fp32.decode x.val) (val x.p)
      let q := mulNum p.1 (val x.m)
      let step (a : Nat) (v : Machine.Num) (fl : Flags) : Nat × Flags :=
        let y := addNum false (f.decode a) v
        ((roundTo f y.1 0 false 0).1, fl ||| y.2 ||| (roundTo f y.1 0 false 0).2)
      (stampElem s f n []).1 = 0 ∧
      stampElem s f n (xs ++ [x]) = step (stampElem s f n xs).1 q.1 ((stampElem s f n xs).2 ||| p.2 ||| q.2) ∧
      ∀ old, (patchElem f old []).1 = old ∧ patchElem f old (xs ++ [x]) =
        if x.add = true then step (patchElem f old xs).1 (f.decode x.val) (patchElem f old xs).2
        else (x.val, (patchElem f old xs).2)) ∧
    ∀ core,
      (∀ unit, unit < 4 → tget 0 (s.core core).windows unit = 2 → ∃ t, exec (.scrubDone core unit) s = .next t ∧
        tget 0 (t.core core).windows unit = 0 ∧ ∀ i, i ≠ unit → tget 0 (t.core core).windows i = tget 0 (s.core core).windows i) ∧
      (∃ t, exec (.scrubDone core 4) s = .next t ∧ (t.core core).rowsScrub = 0 ∧
        (t.core core).scratchScrub = (s.core core).scratchScrub) ∧
      ∃ t, exec (.scrubDone core 5) s = .next t ∧ (t.core core).scratchScrub = 0 ∧
        (t.core core).rowsScrub = (s.core core).rowsScrub

/-! ## Phases and mailboxes (R305 to R332, R401, R402) -/

/-- TEAM_POP (R310, R311, R320): the records a shard queues are taken in the order of effective key and SEQ, any of the
first as many as its window holds, and an overdue one of lowest SEQ before every other; a record that is popped runs, and
every warp of the team enters at its entry with what it carries; where the entry fails R65's checks every warp takes the
phase-state fault at its PNEXT, a block record is as before but for QD and RUN, a mailbox is EMPTY, and a deadline record's
request has ended; that a word there that is no header is this fault is the model's choice (log 101). A pop waits for a post
that stands at its record and for what its record names to be drained. DEADLINE_EXPIRY (R330) puts an armed request in the
lane and ends another. POST (R317), WITHDRAW (R323) and
WFETCH_LANDING (R332): a post that raises the generation of views at another shard performs once their withdrawals have,
with the record held for it; then the record's residual under the post's mode, when it is queued and with which key, and
the withdrawal of its views; the view that is withdrawn; and the words that reach scratchpad. -/
def Obligations.RecordsAndPosts : Prop :=
  ((∀ (s : State) (q c pick : Nat) (r : Cand), ageW (s.ctx c).drvage = 1 →
     (∀ x ∈ s.queued q c, x.age (s.pops q c) < ageCap (s.ctx c).drvage) → s.chooseHere q c pick = some r →
     r ∈ s.queued q c ∧ ∀ x ∈ s.queued q c, s.effKey q c r < s.effKey q c x ∨
       (s.effKey q c r = s.effKey q c x ∧ r.seq ≤ x.seq)) ∧
   (∀ (s : State) (q c : Nat),
     let rs := s.queued q c
     let W := ageW (s.ctx c).drvage
     let overdue (x : Cand) : Prop := ageCap (s.ctx c).drvage ≤ x.age (s.pops q c)
     let ahead (r : Cand) : List Cand := rs.filter fun x =>
       decide (s.effKey q c x < s.effKey q c r) || (s.effKey q c x == s.effKey q c r && decide (x.seq < r.seq))
     (rs ≠ [] → ∀ pick, (s.chooseHere q c pick).isSome = true) ∧
     (∀ pick r, s.chooseHere q c pick = some r → r ∈ rs ∧
       ((∃ x ∈ rs, overdue x) → overdue r ∧ ∀ x ∈ rs, overdue x → r.seq ≤ x.seq) ∧
       ((∀ x ∈ rs, ¬overdue x) → rs.Nodup → (ahead r).length < W)) ∧
     ((∀ x ∈ rs, ¬overdue x) → rs.Pairwise (fun x y => x.seq ≠ y.seq) →
       ∀ r ∈ rs, (ahead r).length < W → ∃ pick, s.chooseHere q c pick = some r)) ∧
   (∀ (s : State) (ctx team pick : Nat), team < 64 →
     let tk := teamKey ctx team
     let q := (s.team tk).shard
     let failed (t : State) : Prop := (t.team tk).phase = (s.team tk).phase ∧
       ∀ k ∈ (s.team tk).warps, let w := s.warp k
         t.warp k = { w with
           trap := { tpc := w.pc, thdr := w.hdr, texec := w.exec, tfmt := w.fmt, tmask := w.exec, taddr := 0#64, tinfo := 0#32
                     tcause := BitVec.ofNat 32 (w.stack.length % 32 * 65536 + 12) }
           fmt := 0x21#32, priv := true, pc := (s.ctx w.ctx).tvec + 1536#64, left := 0, rewait := false, running := false
           fetching := true, req := none, status := .ready, monitor := (t.warp k).monitor }
     let entered (t : State) (e : Entry) : Prop := ∀ k ∈ (s.team tk).warps, t.warp k = { s.warp k with
       pc := e.pc, left := 0, rewait := false, running := false, fetching := true, mark := false, status := .ready
       valloc := (s.team tk).regs, regs := e.regs, preds := e.preds, exec := e.exec, stack := [], fmt := 0x21#32, xv := 0#32
       priv := (s.warp k).priv || e.sup, inPhase := true, pended := none, outs := (t.warp k).outs
       monitor := (t.warp k).monitor }
     let cores := (s.team tk).cores
     let enters (u : State) (e : Entry) : Prop := u.entryOk ((s.team tk).warps.headD 0) e = true
     let fails (u : State) (e : Entry) : Prop := u.entryOk ((s.team tk).warps.headD 0) e = false ∧ (s.team tk).warps.Nodup ∧
       ∀ k ∈ (s.team tk).warps, (s.warp k).priv = false
     s.nextTeam ctx q = some team →
     (∀ v r, s.choose q ctx pick = some (.record v r) → s.popWaits tk r = true → exec (.teamPop ctx team pick) s = .next s) ∧
     (∀ h, s.choose q ctx pick = some (.deadline h) → s.deadlineWaits q ctx h = true →
       exec (.teamPop ctx team pick) s = .next s) ∧
     (∀ v r, s.choose q ctx pick = some (.record v r) → r.mbox = false →
       let x := s.block ctx r.num
       let e : Entry := { pc := x.entry, regs := x.entryRegs, preds := x.pcarry, exec := x.exec }
       s.recordHeld ctx r.num = false → s.recordReady cores x.record = true →
       (enters s e → ∃ t, exec (.teamPop ctx team pick) s = .next t ∧ entered t e ∧ SameMemory s t ∧
         t.pops v ctx = s.pops v ctx + 1#32 ∧
         (t.block ctx r.num).run = true ∧ (t.block ctx r.num).qd = false ∧ (t.block ctx r.num).res = 0#32 ∧
         (t.team tk).phase = some { kind := .block, num := r.num, shard := s.homeShard ctx r.num, gen := x.gen, popres := x.res }) ∧
       (fails s e → ∃ t, exec (.teamPop ctx team pick) s = .next t ∧ failed t ∧ SameMemory s t ∧
         t.pops v ctx = s.pops v ctx + 1#32 ∧
         t.block ctx r.num = { x with run := false, qd := false, record := (t.block ctx r.num).record })) ∧
     (∀ v r, s.choose q ctx pick = some (.record v r) → r.mbox = true →
       let x := s.mbox ctx r.num
       let e : Entry := { pc := x.entry, sup := r.num == 64, regs := tsetMany 0#32 [] [(sKeyUser 0, BitVec.ofNat 32 r.num)] }
       s.recordReady cores x.record = true →
       (enters s e → ∃ t, exec (.teamPop ctx team pick) s = .next t ∧ entered t e ∧ (t.mbox ctx r.num).st = .taken ∧
         (t.mbox ctx r.num).owner = some tk ∧ (t.mbox ctx r.num).qd = false ∧ (t.mbox ctx r.num).run = true ∧
         (t.team tk).phase = some
           { kind := .mailbox, num := r.num, shard := s.homeShard ctx r.num, gen := x.gen, popres := 0#32 }) ∧
       (fails s e → ∃ t, exec (.teamPop ctx team pick) s = .next t ∧ failed t ∧ SameMemory s t ∧
         t.pops v ctx = s.pops v ctx + 1#32 ∧ t.mbox ctx r.num =
           { x with run := false, qd := false, st := .empty, owner := none, record := (t.mbox ctx r.num).record })) ∧
     (∀ h, s.choose q ctx pick = some (.deadline h) →
       let x := s.handle q h
       let e : Entry := { pc := (s.mbox ctx x.mbox).entry
                          regs := tsetMany 0#32 [] [(sKeyUser 0, BitVec.ofNat 32 h), (sKeyUser 1, x.view), (sKeyUser 2, 1#32),
                            (sKeyUser 3, x.gen)] }
       s.deadlineWaits q ctx h = false →
       let u := if x.abandon then s.abandon q ctx x.gen else s
       (enters u e → ∃ t, exec (.teamPop ctx team pick) s = .next t ∧ entered t e ∧
         t.handle q h = { x with inLane := false, running := true, runner := tk } ∧
         (t.team tk).phase = some { kind := .deadline, num := h, shard := q, gen := x.gen, popres := 0#32 }) ∧
       (fails u e → x.used = true → ∃ t, exec (.teamPop ctx team pick) s = .next t ∧ failed t ∧ SameMemory s t ∧
         t.handle q h = {} ∧ tget 0 (t.shard q).out x.cls = tget 0 (s.shard q).out x.cls - 1 ∧
         tget 0 (t.shard q).nout x.cls = tget 0 (s.shard q).nout x.cls - x.n))) ∧
   ∀ (s : State) (q h : Nat), let x := s.handle q h
     x.used = true → x.inLane = false → x.running = false → s.expired q x = true →
     (x.armed = true → ∃ t, exec (.deadlineExpiry q h) s = .next t ∧ t.handle q h = { x with inLane := true }) ∧
     (x.armed = false → ∃ t, exec (.deadlineExpiry q h) s = .next t ∧ t.handle q h = {} ∧
       tget 0 (t.shard q).out x.cls = tget 0 (s.shard q).out x.cls - 1 ∧
       tget 0 (t.shard q).nout x.cls = tget 0 (s.shard q).nout x.cls - x.n)) ∧
  ((∀ (s : State) (i : Nat) (p : Post), s.posts[i]? = some p → (s.warp p.warp).earlierDone p.st = true →
     s.recordReady [keyCore p.warp] (s.block p.ctx p.block).record = true →
     (p.sent = true ∧ (∀ y ∈ s.withdraws, y.warp = p.warp → y.st = p.st → y.block ≠ p.block) ∨
       p.sent = false ∧ s.recordHeld p.ctx p.block = false ∧ s.messagesOf p = []) →
     let x := s.block p.ctx p.block
     let v := residOf p.x
     let r := if p.mode = 0 then addUp x.res v else if p.mode = 1 then (if x.res < v then v else x.res) else v
     ∃ t, exec (.post i) s = .next t ∧ t.posts = s.posts.eraseIdx i ∧ SameMemory s t ∧
       (t.block p.ctx p.block).res = r ∧ (t.block p.ctx p.block).snd = (x.snd || p.snd) ∧
       (t.block p.ctx p.block).gen = (if x.gen < p.gen then p.gen else x.gen) ∧ (t.block p.ctx p.block).run = x.run ∧
       (t.block p.ctx p.block).qd = (x.qd || (!x.run && gtF32 r x.tau)) ∧
       (x.run = false → x.qd = true → (t.block p.ctx p.block).key = if keyOf r < x.key then keyOf r else x.key) ∧
       (x.run = false → x.qd = false → gtF32 r x.tau = true → (t.block p.ctx p.block).key = keyOf r ∧
         (t.block p.ctx p.block).seq = (s.shard (s.homeShard p.ctx p.block)).seq) ∧
       (x.gen < p.gen → ∀ y ∈ s.viewsOf p.ctx p.block, t.view p.ctx y = (s.view p.ctx y).withdraw p.gen) ∧
       ∀ b, b ≠ p.block → t.block p.ctx b = s.block p.ctx b) ∧
   (∀ (s : State) (i : Nat) (p : Post), s.posts[i]? = some p → (s.warp p.warp).earlierDone p.st = true →
     s.recordReady [keyCore p.warp] (s.block p.ctx p.block).record = true →
     (p.sent = true → (∃ y ∈ s.withdraws, y.warp = p.warp ∧ y.st = p.st ∧ y.block = p.block) → exec (.post i) s = .next s) ∧
     (p.sent = false → s.recordHeld p.ctx p.block = true → exec (.post i) s = .next s) ∧
     (p.sent = false → s.recordHeld p.ctx p.block = false → s.messagesOf p ≠ [] → ∃ t, exec (.post i) s = .next t ∧
       t = { s with posts := s.posts.set i { p with sent := true }, withdraws := s.withdraws ++ s.messagesOf p })) ∧
   (∀ (s : State) (i : Nat) (x : Withdraw), s.withdraws[i]? = some x → ∃ t, exec (.withdraw i) s = .next t ∧
     t = { s with ctxs := t.ctxs, withdraws := s.withdraws.eraseIdx i } ∧
     t.view x.ctx x.view = (if (s.view x.ctx x.view).gen < x.gen then
       { s.view x.ctx x.view with gen := x.gen, settled := false, bound := 0x7F800000#32 } else s.view x.ctx x.view)) ∧
   ∀ (s : State) (c n o : Nat) (ws : List Word) (rest : List (Nat × List Word)), let tk := teamKey c n
     (s.team tk).fetches = (o, ws) :: rest → ∃ t, exec (.wfetchLanding c n) s = .next t ∧ (t.team tk).fetches = rest ∧
       SameMemory s t ∧ ∀ i, i < ws.length → t.scratchRead tk (o + 4 * i) 4 = (ws.getD i 0#32).toNat)

/-- NOTIFY and MAILBOX_UNIT_READ_COMPLETE (R227, R326), MAILBOX_IN_WRITE, OACK, OVRCLR (R326, R401) and SWPOST (R402) by
a requester that may reach the context's block, the violation of cause 6 by one that may not (R384, R404), and nothing
before READY (R408). Which of them a write of a BAR0 offset is, and what a read of one gives (R400 to R402). That the
record of such a violation holds ADDR 0, and what a SWPOST does with SWN = 0 or with 16 sweeps queued, are the model's
readings (logs 39, 41). -/
def Obligations.HostMailboxes : Prop :=
  ∀ (s : State) (rid c n : Nat), n ≤ 64 →
    let x := s.mbox c n
    let becomesFull (t : State) (y : Mbox) : Prop :=
      if y.bound = true ∧ y.st = .empty then
        (t.ctx c).igen = (s.ctx c).igen + 1#32 ∧ (t.mbox c n).st = .full ∧ (t.mbox c n).gen = (s.ctx c).igen + 1#32 ∧
          (t.mbox c n).qd = true ∧ (t.mbox c n).held = y.held
      else t.mbox c n = { y with ovr := if y.ovr = 0xFFFF#16 then y.ovr else y.ovr + 1#16 } ∧ (t.ctx c).igen = (s.ctx c).igen
    (x.held ≠ 0 → ∃ t, exec (.mailboxUnitReadComplete c n) s = .next t ∧ becomesFull t { x with held := x.held - 1 }) ∧
    (s.mgmt.ready = false → ∀ i ∈ ([.notify rid c n false, .notify rid c n true, .oack rid c n, .ovrclr rid c n, .swpost rid c] : List Instr),
      exec i s = .next s) ∧
    (s.mgmt.ready = true → s.hostAllowed rid c = true →
      (∃ t, exec (.notify rid c n false) s = .next t ∧ becomesFull t x) ∧
      (∃ t, exec (.notify rid c n true) s = .next t ∧ t.mbox c n = { x with held := x.held + 1 }) ∧
      (∀ word v, word < 64 → ∃ t, exec (.mailboxInWrite rid c n word v) s = .next t ∧
        if x.st = .empty then tget 0#32 (t.mbox c n).inb word = v ∧
          ∀ i, i ≠ word → tget 0#32 (t.mbox c n).inb i = tget 0#32 x.inb i
        else t.mbox c n = { x with ovr := if x.ovr = 0xFFFF#16 then x.ovr else x.ovr + 1#16 }) ∧
      (∃ t, exec (.oack rid c n) s = .next t ∧ t.mbox c n = { x with ofull := false }) ∧
      (∃ t, exec (.ovrclr rid c n) s = .next t ∧ t.mbox c n = { x with ovr := 0#16 }) ∧
      ((s.ctx c).sweeps.length < 16 → (s.ctx c).swn ≠ 0#32 → ∃ t, exec (.swpost rid c) s = .next t ∧ (t.ctx c).sweeps =
        (s.ctx c).sweeps ++ [{ id := (s.ctx c).swid, next := 0, n := (s.ctx c).swn.toNat, arg := (s.ctx c).swarg }]) ∧
      (16 ≤ (s.ctx c).sweeps.length → ∃ t, exec (.swpost rid c) s = .next t ∧ (t.ctx c).sweeps = (s.ctx c).sweeps ∧
        ((s.ctx c).swlost ≠ 0xFFFF#16 → (t.ctx c).swlost = (s.ctx c).swlost + 1#16))) ∧
    (s.mgmt.ready = true → s.hostAllowed rid c = false → s.links.frozenHosts.contains (c, rid) = false →
      (s.ctx c).established = true → (s.ctx c).faults.length < 16 → ∃ t, exec (.notify rid c n false) s = .next t ∧
        t.links.frozenHosts = (c, rid) :: s.links.frozenHosts ∧ (t.ctx c).faults = (s.ctx c).faults ++
          [{ addr := 0#64, cause := 6#8, mkind := 4#3, reqid := BitVec.ofNat 16 rid }] ∧ t.mbox c n = x) ∧
    (c < 8 → let base := 0x100000 + 0x20000 * c
      let box := base + if n = 64 then 0x10000 else 0x400 * n
      ∀ place frames rel v, let row (off : Nat) : Instr := bar0Row rid off rel v place frames
        (∀ w, w < 64 → row (box + 4 * w) = .mailboxInWrite rid c n w v ∧ s.bar0Read (box + 4 * w) = 0#32 ∧
          s.bar0Read (box + 0x100 + 4 * w) = tget 0#32 x.outb w ∧
          row (box + 0x100 + 4 * w) = .completerAbort rid (.bar0 (box + 0x100 + 4 * w))) ∧
        row (box + 0x200) = .notify rid c n rel ∧ row (box + 0x208) = .oack rid c n ∧ row (box + 0x20C) = .ovrclr rid c n ∧
        row (box + 0x204) = .completerAbort rid (.bar0 (box + 0x204)) ∧
        (∀ off ∈ [0x200, 0x208, 0x20C], s.bar0Read (box + off) = 0#32) ∧
        (let y := s.bar0Read (box + 0x204)
         y.extractLsb' 0 2 = (match x.st with | .empty => 0#2 | .full => 1#2 | .taken => 2#2) ∧ y.getLsbD 2 = x.ofull ∧
           y.extractLsb' 3 13 = 0#13 ∧ y.extractLsb' 16 16 = x.ovr) ∧
        (let sw := base + 0x18000
         row sw = .registerWrite rid (.swid c) v ∧ row (sw + 4) = .registerWrite rid (.swn c) v ∧
         row (sw + 8) = .registerWrite rid (.swarg c) v ∧ row (sw + 12) = .swpost rid c ∧
         (s.bar0Read (sw + 16)).extractLsb' 16 16 = (s.ctx c).swlost ∧
         ((∀ y ∈ (s.ctx c).sweeps, y.next < y.n) → (s.ctx c).sweeps.length ≤ 16 →
           (s.bar0Read (sw + 16)).extractLsb' 0 16 = BitVec.ofNat 16 (s.ctx c).sweeps.length)))

/-! ## The mesh and the links (R352 to R359, R365, R405) -/

/-- FLIT_ROUTE (R352 to R355), FLIT_EJECT (R359), BRIDGE_CROSS (R365), ONAUS_PACKET, ONAUS_LINK_LOSS and LINK_RETRAIN
(R405, R408): the oldest flit takes its first productive port, or leaves at its destination; a flit without a free port is
deflected and counted; a flit is injected with AGE 1 after its hop; what the interface does with a flit, which it gives a
slot, counts as nobody's, or refuses, so that it goes on as a deflected flit on a new leg, and that a flit taken is written
into its packet's slot; and what becomes of a packet and of a path whose link is lost. -/
def Obligations.NetworkSteps : Prop :=
  ∀ (s : State),
    let unowned (core : Nat) (t : State) : Prop :=
      (t.core core).unown = if (s.core core).unown = 0xFFFFFFFF#32 then 0xFFFFFFFF#32 else (s.core core).unown + 1#32
    (∀ r f fs p dest input, r < 512 → s.net.acted.contains r = false →
      sortBy before (s.net.flits.filter fun x => x.router == r && !x.moved) = f :: fs → atDestination r f = false →
      (productive r f).find? (livePorts r).contains = some p → linkTo r p = some (dest, input, false) →
      ∃ t, exec (.flitRoute r) s = .next t ∧ r ∈ t.net.acted ∧
        { router := dest, port := input, moved := true, via := f.via, goal := f.goal, host := f.host
          flit := { f.flit with age := min (f.flit.age + 1) 1023 } : NetFlit } ∈ t.net.flits ∧
        ∀ g gs q d i, fs = g :: gs → atDestination r g = false →
          (productive r g).find? (fun z => (livePorts r).contains z && z != p) = none →
          (livePorts r).find? (fun z => z != p) = some q → linkTo r q = some (d, i, false) →
          { router := d, port := i, moved := true, via := g.via, goal := g.goal, host := g.host
            flit := { g.flit with age := min (g.flit.age + 1) 1023 } : NetFlit } ∈ t.net.flits ∧ s.defl r < t.defl r) ∧
    (∀ r f fs, r < 512 → s.net.acted.contains r = false →
      sortBy before (s.net.flits.filter fun x => x.router == r && !x.moved) = f :: fs → atDestination r f = true →
      let core := f.flit.dst.toNat
      f.goal = none → ∃ t, exec (.flitRoute r) s = .next t ∧
        (∀ i n, s.slotting core f.flit = .take i n → (t.core core).eject = (s.core core).eject ++ [(i, f.flit)] ∧
          t.rslot core i = { valid := true, tag := f.flit.tag, src := f.flit.src, fcnt := f.flit.fcnt, kind := f.flit.kind
                             portw := f.flit.portw, rel := f.flit.rel, xpar := f.flit.xpar, low := f.flit.low
                             ctx := f.flit.ctx.toNat, team := n }) ∧
        (∀ i, s.slotting core f.flit = .put i → (t.core core).eject = (s.core core).eject ++ [(i, f.flit)] ∧
          t.rslot core i = s.rslot core i) ∧
        (s.slotting core f.flit = .discard → (t.core core).eject = (s.core core).eject ∧ unowned core t) ∧
        (∀ q dest input, s.slotting core f.flit = .refuse → (livePorts r).head? = some q → linkTo r q = some (dest, input, false) →
          (t.core core).eject = (s.core core).eject ∧ s.defl r < t.defl r ∧
          { router := dest, port := input, moved := true, via := f.via, goal := none, host := f.host
            flit := { f.flit with age := 1 } : NetFlit } ∈ t.net.flits)) ∧
    (∀ r core f fs p dest input, r < 512 → routerZ r = 0 → s.net.acted.contains r = false →
      (∀ x ∈ s.net.flits, x.router = r → x.moved = true) → s.injector r = some core →
      s.queue core = [] → s.queue (512 + r) = [] →
      (s.core core).inject = f :: fs → s.mayInject r = true → atDestination r f = false →
      (productive r f).find? (livePorts r).contains = some p → linkTo r p = some (dest, input, false) →
      ∃ t, exec (.flitRoute r) s = .next t ∧ (t.core core).inject = fs ∧
        { router := dest, port := input, moved := true, via := f.via, goal := f.goal, host := f.host
          flit := { f.flit with age := 1 } : NetFlit } ∈ t.net.flits) ∧
    (∀ core i f fs, (s.core core).eject = (i, f) :: fs →
      let x := s.rslot core i
      let own := x.valid = true ∧ x.src = f.src ∧ x.tag = f.tag ∧ x.kind = f.kind
      ∃ t, exec (.flitEject core) s = .next t ∧ (t.core core).eject = fs ∧
        (own → (t.rslot core i).pres = x.pres ||| (1#8 <<< f.fidx.toNat) ∧ (t.core core).unown = (s.core core).unown ∧
          (let ends := (t.rslot core i).complete = true ∧ x.complete = false
           (ends → (t.rslot core i).cseq = (s.core core).cseq ∧ (t.core core).cseq = (s.core core).cseq + 1#16) ∧
           (¬ends → (t.rslot core i).cseq = x.cseq ∧ (t.core core).cseq = (s.core core).cseq)) ∧
          ∀ w, w < 8 → tget 0#32 (t.rslot core i).data (8 * f.fidx.toNat + w) = f.data.getD w 0#32) ∧
        (¬own → unowned core t ∧ t.rslot core i = x)) ∧
    (∀ i n f, s.mayLeave i = true → s.net.bridge[i]? = some (n, f) → ∃ t, exec (.bridgeCross i) s = .next t ∧
      t.net.bridge = s.net.bridge.eraseIdx i ∧
      t.net.flits = s.net.flits ++ [{ f with moved := false, flit := { f.flit with age := 0 } }]) ∧
    (∀ path warp own q, s.pathDown path = false → (s.pathPort path).isSome = true →
      s.pathItems path = .marker warp own false :: q → ∃ t, exec (.onausPacket path true) s = .next t ∧ t.pathItems path = q ∧
        tget 0 t.links.got path = tget 0 s.links.got path + 1) ∧
    (∀ path, exec (.onausPacket path false) s = .next s) ∧
    (∀ port, port < 16 → s.links.down.contains port = false → ∃ t, exec (.onausLinkLoss port) s = .next t ∧ SameMemory s t ∧
      t.links.down = port :: s.links.down) ∧
    ∀ port, port ≤ 16 → (s.mgmt.ready = false → exec (.linkRetrain port) s = .next s) ∧
      (s.mgmt.ready = true → ∃ t, exec (.linkRetrain port) s = .next t ∧ SameMemory s t ∧ port ∉ t.links.down ∧
        t.mgmt.event.getLsbD 4 = true)

/-! ## The outside (R399 to R415) -/

/-- HOST_BAR2_ACCESS, CXL_MEM_ACCESS and ATOMICOP_COMPLETER (R399, R400, R404), PEER_REQUEST (R407), and COMPLETER_ABORT
(R404): what is written to device memory once the module is ready, the access has crossed to the die of its home (R10), and no
claim or pin is in the way, that a read leaves memory alone, and that an access to the pen, to an offset of BAR0 that nothing
is assigned to or that is not the requester's, or by a peer without an export window, freezes its requester and changes no
byte; an access that BAR0 does not refuse changes nothing here. That a refused access's record holds the address asked for is
the model's reading of R385 (log 39), and that a host access to another die waits for a packet of it there is the model's
choice (log 88). That a CXL access to the pen names no requester, and the form of a peer's atomic, are the model's readings
(log 37), and so are the context that a frozen peer stands with (log 97) and the offsets unassigned (log 98). -/
def Obligations.OutsideAccesses : Prop :=
  ∀ (s : State) (rid addr n : Nat) (data : List Byte), s.mgmt.ready = true →
    let wrote (t : State) (v : Nat → Byte) : Prop :=
      (∀ i, i < n → t.byteAt (addr + i) = v i) ∧ ∀ a, a < addr ∨ addr + n ≤ a → t.byteAt a = s.byteAt a
    let here : Prop := s.hostReaches addr = true
    let open' : Prop := s.outsideWaits true addr n = false
    let known : Prop := s.links.frozenHosts.contains (0, rid) = false
    let refused (t : State) : Prop := SameMemory s t ∧ t.links.frozenHosts = (0, rid) :: s.links.frozenHosts
    (inDevice addr n = true → ¬here → ∀ write, (known → exec (.hostBar2Access rid write addr n data) s = .next s) ∧
      exec (.cxlMemAccess write addr n data) s = .next s ∧
      (known → ∀ op x y, exec (.atomicopCompleter rid op n addr x y) s = .next s)) ∧
    (inDevice addr n = true → here → open' →
      (known → ∃ t, exec (.hostBar2Access rid true addr n data) s = .next t ∧ wrote t fun i => data.getD i 0#8) ∧
      (∃ t, exec (.cxlMemAccess true addr n data) s = .next t ∧ wrote t fun i => data.getD i 0#8) ∧
      (known → n = 4 ∨ n = 8 ∨ n = 16 → addr % n = 0 → ∀ op x y, ∃ t, exec (.atomicopCompleter rid op n addr x y) s = .next t ∧
        wrote t (fun i => BitVec.ofNat 8 (hostAtomic op n (s.readMem addr n) x.toNat y.toNat / 256 ^ i)))) ∧
    (inDevice addr n = true → here → s.outsideWaits false addr n = false →
      (known → ∃ t, exec (.hostBar2Access rid false addr n data) s = .next t ∧ SameMemory s t) ∧
      ∃ t, exec (.cxlMemAccess false addr n data) s = .next t ∧ SameMemory s t) ∧
    (inDevice addr n = false → known →
      (∀ w, ∃ t, exec (.hostBar2Access rid w addr n data) s = .next t ∧ refused t) ∧
      (∀ w, ∃ t, exec (.cxlMemAccess w addr n data) s = .next t ∧ SameMemory s t ∧ t.links = s.links)) ∧
    (known → inDevice addr n = false → ∃ t, exec (.completerAbort rid (.bar2 addr n)) s = .next t ∧ refused t ∧
      ((s.ctx 0).faults.length < 16 → (t.ctx 0).faults = (s.ctx 0).faults ++
        [{ addr := BitVec.ofNat 64 addr, cause := 6#8, mkind := 4#3, reqid := BitVec.ofNat 16 rid }])) ∧
    (∀ off, (bar0At off = .hole none → known → ∃ t, exec (.completerAbort rid (.bar0 off)) s = .next t ∧ refused t) ∧
      ∀ c, s.links.frozenHosts.contains (c, rid) = false →
        bar0At off = .hole (some c) ∨ s.hostAllowed rid c = false ∧
          ((∃ m o, bar0At off = .mailbox c m o) ∨ ∃ o, bar0At off = .sweeps c o) →
        ∃ t, exec (.completerAbort rid (.bar0 off)) s = .next t ∧ SameMemory s t ∧
          t.links.frozenHosts = (c, rid) :: s.links.frozenHosts) ∧
    (∀ off, (∃ o, bar0At off = .mgmt o) ∨ (∃ c m o, bar0At off = .mailbox c m o ∧ s.hostAllowed rid c = true) ∨
      (∃ c o, bar0At off = .sweeps c o ∧ s.hostAllowed rid c = true) →
      exec (.completerAbort rid (.bar0 off)) s = .next s) ∧
    ∀ peer tenant, let cs := s.tenantCtxs tenant
      (s.links.peerFrozen peer tenant = true → ∀ kind, exec (.peerRequest peer tenant kind addr n data) s = .next s) ∧
      (s.links.peerFrozen peer tenant = false →
        (∀ kind, (∀ c ∈ cs, s.exports c peer kind addr n = false) →
          ∃ t, exec (.peerRequest peer tenant kind addr n data) s = .next t ∧ SameMemory s t ∧
            t.links.frozenPeers = (cs.headD 0, peer, tenant) :: s.links.frozenPeers) ∧
        ((∃ c ∈ cs, s.exports c peer .write addr n = true) → open' →
          ∃ t, exec (.peerRequest peer tenant .write addr n data) s = .next t ∧ wrote t fun i => data.getD i 0#8) ∧
        ((∃ c ∈ cs, s.exports c peer .read addr n = true) → s.outsideWaits false addr n = false →
          ∃ t, exec (.peerRequest peer tenant .read addr n data) s = .next t ∧ SameMemory s t) ∧
        ((∃ c ∈ cs, s.exports c peer .atomic addr n = true) → open' → ∀ v, peerAtomic (s.readMem addr n) n data = some v →
          ∃ t, exec (.peerRequest peer tenant .atomic addr n data) s = .next t ∧ wrote t fun i => BitVec.ofNat 8 (v / 256 ^ i)))

/-- Birseob's commands (R409, R410, R412): one written while READY is 0 or BUSY is 1 changes nothing but the count of
those ignored; one that starts is busy, and does its work where its status is 0: an establishment gives the context its
cores, pages and digest, a teardown stops every team, and COMMAND_DONE ends a command, with its code and status in CMDSTAT, an
establishment with the spawning of its teams, which waits for the scrub of what they take (R397), and a teardown once its
teams are quiet. Which row a write of the management buffer is, and what its registers read
(R409). The placement and the frames that Birseob chooses are arguments (log 19). That a command's effects are there as it
is accepted, before its COMMAND_DONE, that only an establishment's teams come with it, and when a TEARDOWN may end, are the
model's readings (logs 73, 74, 126). -/
def Obligations.BirseobCommands : Prop :=
  ∀ (s : State),
    let free := s.mgmt.ready = true ∧ s.mgmt.busy = false
    let began (t : State) (code st : Nat) : Prop :=
      t.mgmt.busy = true ∧ t.mgmt.code = BitVec.ofNat 8 code ∧ t.mgmt.coming = BitVec.ofNat 8 st ∧ t.mgmt.subject = s.arg 16 1 ∧
        t.mgmt.cmd = s.mgmt.cmd ∧ t.mgmt.status = s.mgmt.status ∧ t.mgmt.done = s.mgmt.done
    let only (t : State) : Prop := t = { s with mgmt := t.mgmt }
    let c := s.arg 16 1
    (¬free → ∀ i ∈ ([.teardown, .lockrid, .unlockrid, .attest, .ctxstate, .fabric] : List Instr),
      ∃ t, exec i s = .next t ∧ t = { s with mgmt := s.mgmt.ignore }) ∧
    (¬free → ∀ place frames, ∃ t, exec (.establish place frames) s = .next t ∧ t = { s with mgmt := s.mgmt.ignore }) ∧
    (∀ code, ¬(free ∧ 1 ≤ code ∧ code ≤ 7) → ∃ t, exec (.cmdWriteIgnored code) s = .next t ∧ only t ∧
      t.mgmt = { s.mgmt with ign := if s.mgmt.ign = 255#8 then 255#8 else s.mgmt.ign + 1#8 }) ∧
    (free → 8 ≤ c → (∃ t, exec .teardown s = .next t ∧ began t 2 2 ∧ only t) ∧
      (∃ t, exec .lockrid s = .next t ∧ began t 3 2 ∧ only t) ∧ (∃ t, exec .unlockrid s = .next t ∧ began t 4 2 ∧ only t) ∧
      ∃ t, exec .ctxstate s = .next t ∧ began t 6 2 ∧ only t) ∧
    (free → c < 8 → (s.ctx c).established = false → (∃ t, exec .teardown s = .next t ∧ began t 2 6 ∧ only t) ∧
      (∃ t, exec .lockrid s = .next t ∧ began t 3 6 ∧ only t) ∧ ∃ t, exec .unlockrid s = .next t ∧ began t 4 6 ∧ only t) ∧
    (free → c < 8 → (s.ctx c).established = true →
      (∃ t, exec .teardown s = .next t ∧ began t 2 0 ∧ ∀ k ∈ s.ctxTeams c, (t.team k).stop = .kill) ∧
      (∃ t, exec .lockrid s = .next t ∧ began t 3 0 ∧ t.ctx c = { s.ctx c with lockrid := some (s.arg 20 2) }) ∧
      ∃ t, exec .unlockrid s = .next t ∧ began t 4 0 ∧ t.ctx c = { s.ctx c with lockrid := none }) ∧
    (free → c < 8 → ∃ t, exec .ctxstate s = .next t ∧ began t 6 0 ∧ only t ∧
      tget 0#8 t.mgmt.resp 0 = (if (s.ctx c).established then 1#8 else 0#8) ∧
      tget 0#8 t.mgmt.resp 4 = BitVec.ofNat 8 (s.ctx c).cores.length) ∧
    (∀ place frames, free → let img := s.bytesAt (s.arg 0 8) (s.arg 8 8)
      let x := imageOf img
      let st := s.establishStatus img s.maskCores
      (st ≠ 0 → ∃ t, exec (.establish place frames) s = .next t ∧ only t ∧ began t 1 st) ∧
      (st = 0 → s.possible x c s.maskCores = false → ∃ t, exec (.establish place frames) s = .next t ∧ only t ∧ began t 1 4) ∧
      (st = 0 → s.possible x c s.maskCores = true →
        (s.choiceOk x c s.maskCores place frames (s.arg 24 8) (s.arg 32 8) = false → exec (.establish place frames) s = .next s) ∧
        (s.choiceOk x c s.maskCores place frames (s.arg 24 8) (s.arg 32 8) = true →
          ∃ t, exec (.establish place frames) s = .next t ∧ began t 1 0 ∧
          (t.ctx c).established = true ∧ (t.ctx c).digest = digestAt img 128 ∧ (t.ctx c).cores = s.coming c s.maskCores ∧
          (t.ctx c).pages = frames ∧ (∀ k ∈ s.maskCores, (t.core k).corectx = BitVec.ofNat 32 (2 ^ 31 + c)) ∧
          t.mgmt.spawns = some { ctx := c, entry := x.entry, regs := x.regs, scratch := up128 x.scratch, place }))) ∧
    (free → let dest := s.arg 32 8
      let r := s.attestation (s.argBytes.take 32)
      (dest % 4096 ≠ 0 ∨ inDevice dest 16384 = false → ∃ t, exec .attest s = .next t ∧ began t 5 2 ∧ only t) ∧
      (dest % 4096 = 0 → inDevice dest 16384 = true → r.length ≤ 16384 → s.outsideWaits true dest r.length = false →
        ∃ t, exec .attest s = .next t ∧ began t 5 0 ∧ t.mgmt.reports = s.mgmt.reports + 1 ∧
          (∀ i, i < r.length → t.byteAt (dest + i) = r.getD i 0#8) ∧
          ∀ a, a < dest ∨ dest + r.length ≤ a → t.byteAt a = s.byteAt a)) ∧
    (free → (inDevice (s.arg 0 8) 64 = false ∨ s.fabricTable (s.arg 0 8) = none →
        ∃ t, exec .fabric s = .next t ∧ began t 7 2 ∧ only t) ∧
      ∀ own ys, inDevice (s.arg 0 8) 64 = true → s.fabricTable (s.arg 0 8) = some (own, ys) →
        ∃ t, exec .fabric s = .next t ∧ began t 7 0 ∧ only t ∧ t.mgmt.modid = BitVec.ofNat 32 own ∧ t.mgmt.fabric = ys) ∧
    (s.mgmt.busy = true →
      let ended (t : State) : Prop := t.mgmt.busy = false ∧ t.mgmt.done = true ∧ t.mgmt.cmd = s.mgmt.code ∧
        t.mgmt.status = s.mgmt.coming ∧ t.mgmt.event.getLsbD 0 = true
      (s.mgmt.down = false → s.mgmt.spawns = none → ∃ t, exec .commandDone s = .next t ∧ only t ∧ ended t) ∧
      (∀ p, s.mgmt.down = false → s.mgmt.spawns = some p → (s.spawnWaits p = true → exec .commandDone s = .next s) ∧
        (s.spawnWaits p = false → p.ctx < 8 → p.place.length ≤ 64 →
          ∃ t, exec .commandDone s = .next t ∧ ended t ∧ t.mgmt.spawns = none ∧ SameMemory s t ∧
          (∀ i cs, p.place[i]? = some cs → let y := t.team (teamKey p.ctx i)
            y.life = .live ∧ y.cores = cs ∧ y.scratchSize = p.scratch ∧ y.slots.length = cs.length ∧
            ∀ j core slot, cs[j]? = some core → y.slots[j]? = some slot → core < 512 → (s.warp (warpKey core slot)).present = false ∧
              (t.warp (warpKey core slot)).present = true ∧ (t.warp (warpKey core slot)).twarp = j ∧
              (t.warp (warpKey core slot)).pc = p.entry) ∧
          ∀ k, (∀ i, i < p.place.length → k ≠ teamKey p.ctx i) → t.team k = s.team k)) ∧
      (s.mgmt.down = true → s.mgmt.spawns = none → s.allQuiet s.mgmt.subject = true → ∃ t, exec .commandDone s = .next t ∧ ended t ∧
        t.mgmt.event.getLsbD 5 = true ∧ t.ctx s.mgmt.subject = {}) ∧
      (s.mgmt.down = true → s.allQuiet s.mgmt.subject = false → exec .commandDone s = .next s)) ∧
    (s.mgmt.busy = false → exec .commandDone s = .next s) ∧
    (let stat := s.bar0Read 0
     stat.getLsbD 0 = s.mgmt.ready ∧ stat.getLsbD 1 = s.mgmt.busy ∧ stat.extractLsb' 8 8 = s.mgmt.booterr ∧
       ((∀ d, d < 4 → (tget 0#32 s.mgmt.clkstep d).toNat ≤ 5) →
         (∃ d, d < 4 ∧ (stat.extractLsb' 16 8).toNat = (tget 0#32 s.mgmt.clkstep d).toNat) ∧
         ∀ d, d < 4 → (tget 0#32 s.mgmt.clkstep d).toNat ≤ (stat.extractLsb' 16 8).toNat)) ∧
    (let y := s.bar0Read 8
     y.extractLsb' 0 8 = s.mgmt.status ∧ y.extractLsb' 8 8 = s.mgmt.cmd ∧ y.getLsbD 16 = s.mgmt.done ∧
       y.extractLsb' 24 8 = s.mgmt.ign) ∧
    s.bar0Read 12 = s.mgmt.event ∧ s.bar0Read 16 = s.mgmt.evmask ∧
    (∀ w, w < 32 → s.bar0Read (0x40 + 4 * w) = tget 0#32 s.mgmt.args w) ∧
    (∀ rid rel place frames, let row (off : Nat) (v : Word) : Instr := bar0Row rid off rel v place frames
      row 4 1#32 = .establish place frames ∧ row 4 2#32 = .teardown ∧ row 4 3#32 = .lockrid ∧ row 4 4#32 = .unlockrid ∧
      row 4 5#32 = .attest ∧ row 4 6#32 = .ctxstate ∧ row 4 7#32 = .fabric ∧
      (∀ v, v = 0#32 ∨ 7#32 < v → row 4 v = .cmdWriteIgnored v.toNat) ∧ (∀ v, row 12 v = .eventClear v) ∧
      (∀ v, row 16 v = .registerWrite rid .evmask v) ∧ ∀ w v, w < 32 → row (0x40 + 4 * w) v = .registerWrite rid (.args w) v) ∧
    (∀ ones, ∃ t, exec (.eventClear ones) s = .next t ∧ only t ∧ t.mgmt = { s.mgmt with event := s.mgmt.event &&& ~~~ones }) ∧
    ∀ rid v,
      (∃ t, exec (.registerWrite rid .evmask v) s = .next t ∧ only t ∧ t.mgmt = { s.mgmt with evmask := v }) ∧
      (∀ w, w < 32 → ∃ t, exec (.registerWrite rid (.args w) v) s = .next t ∧ only t ∧ tget 0#32 t.mgmt.args w = v ∧
        ∀ i, i ≠ w → tget 0#32 t.mgmt.args i = tget 0#32 s.mgmt.args i) ∧
      ∀ d, s.mgmt.ready = true → s.hostAllowed rid d = true →
        (∃ t, exec (.registerWrite rid (.swid d) v) s = .next t ∧ t.ctx d = { s.ctx d with swid := v }) ∧
        (∃ t, exec (.registerWrite rid (.swn d) v) s = .next t ∧ t.ctx d = { s.ctx d with swn := v }) ∧
        ∃ t, exec (.registerWrite rid (.swarg d) v) s = .next t ∧ t.ctx d = { s.ctx d with swarg := v }

/-- BOOT and D3COLD_EXIT (R408, R414), clock steps, thermal stops, the power limit and management (R413 to R415), errors
(R398), WAYMASK_WRITE (R193), FAULTREC_REMOVE (R385) and TEAM_QUIESCED (R391). The model's choices: that EVENT reads 0
after a boot (log 17), and that a firmware image that fails is dropped for the one before it (log 77). An error in a fold table
freezes every warp of its team (log 76); one in scratchpad marks its word, and a peer that begins to refuse a context's
requests makes what that context reads there poisoned (R407). -/
def Obligations.Management : Prop :=
  ∀ (s : State),
    let only (t : State) : Prop := t = { s with mgmt := t.mgmt }
    let fresh (t : State) (failed : Nat) : Prop :=
      t.mgmt.ready = (failed == 0) ∧ t.mgmt.booterr = BitVec.ofNat 8 failed ∧ t.mgmt.busy = false ∧ t.mgmt.event = 0#32 ∧
        (∀ k, t.warp k = {}) ∧ (∀ c, t.ctx c = {}) ∧ (∀ c, t.core c = {}) ∧ (∀ a, a < hostKey → t.byteAt a = 0#8) ∧ t.reqs = []
    (∀ failed, s.bootCan failed = false → exec (.boot failed) s = .next s ∧ exec (.d3coldExit failed) s = .next s) ∧
    (s.mgmt.ready = true → ∀ failed, exec (.boot failed) s = .next s) ∧
    (∀ failed, s.bootCan failed = true → (s.mgmt.ready = false → ∃ t, exec (.boot failed) s = .next t ∧ fresh t failed) ∧
      ∃ t, exec (.d3coldExit failed) s = .next t ∧ fresh t failed) ∧
    (∀ die, die < 4 → let v := tget 0#32 s.mgmt.clkstep die
      (v < 5#32 → ∃ t, exec (.clkstepDown die) s = .next t ∧ only t ∧ tget 0#32 t.mgmt.clkstep die = v + 1#32 ∧
        t.mgmt.event.getLsbD 1 = true) ∧
      (5#32 ≤ v → exec (.clkstepDown die) s = .next s) ∧
      (v ≠ 0#32 → ∃ t, exec (.clkstepUp die) s = .next t ∧ only t ∧ tget 0#32 t.mgmt.clkstep die = v - 1#32 ∧
        t.mgmt.event.getLsbD 1 = true) ∧
      (∃ t, exec (.thermalStop die) s = .next t ∧ only t ∧ t.mgmt = { s.mgmt with stopped := true }) ∧
      (∃ t, exec (.thermalStopNear die) s = .next t ∧ only t ∧ t.mgmt.event = s.mgmt.event ||| 4#32 ∧
        (s.mgmt.event.getLsbD 2 = false → s.mgmt.evmask.getLsbD 2 = true →
          tget 0 t.mgmt.msix 16 = tget 0 s.mgmt.msix 16 + 1)) ∧
      ∃ t, exec (.correctedError die) s = .next t ∧ only t ∧
        tget 0#32 t.mgmt.memerr die = tget 0#32 s.mgmt.memerr die + 1#32) ∧
    (∀ w, 1500 ≤ w → w ≤ 4200 → ∃ t, exec (.powerLimitSet w) s = .next t ∧ only t ∧ t.mgmt.powerLimit = w) ∧
    (∀ p xs y, ∃ t, exec (.pldmMonitor p xs y) s = .next t ∧ only t ∧ t.mgmt = { s.mgmt with monitor := [p,
      xs.getD 0 0, xs.getD 1 0, xs.getD 2 0, xs.getD 3 0, y,
      (tget 0#32 s.mgmt.clkstep 0).toNat, (tget 0#32 s.mgmt.clkstep 1).toNat, (tget 0#32 s.mgmt.clkstep 2).toNat,
      (tget 0#32 s.mgmt.clkstep 3).toNat, (tget 0#32 s.mgmt.memerr 0).toNat, (tget 0#32 s.mgmt.memerr 1).toNat,
      (tget 0#32 s.mgmt.memerr 2).toNat, (tget 0#32 s.mgmt.memerr 3).toNat] }) ∧
    (∀ image, ∃ t, exec (.pldmFirmwareUpdate image) s = .next t ∧ only t ∧ t.mgmt = { s.mgmt with staged := some image } ∧
      (birseobOk image = true → t.bootCan 0 = true ∧ ∃ u, exec (.d3coldExit 0) t = .next u ∧ u.mgmt.birseob = some image ∧
        u.mgmt.staged = none) ∧
      (birseobOk image = false → t.mgmt.nextBirseob = s.mgmt.birseob)) ∧
    (∀ nonce, s.mgmt.ready = true → ∃ t, exec (.mctpAttest nonce) s = .next t ∧ only t ∧
      t.mgmt.reports = s.mgmt.reports + 1 ∧ t.mgmt.report = s.attestation (natLe 32 nonce.toNat)) ∧
    (∀ addr m, addr < deviceEnd → ∃ t, exec (.uncorrectableError (.line addr m)) s = .next t ∧ SameMemory s t ∧
      (t.line (addr / 128)).poison = (s.line (addr / 128)).poison ||| m ∧ t.mgmt.event.getLsbD 3 = true) ∧
    (∀ core slot, (s.warp (warpKey core slot)).present = true → (s.warp (warpKey core slot)).frozen = none →
      ∃ t, exec (.uncorrectableError (.rows core slot)) s = .next t ∧ SameMemory s t ∧
        t.warp (warpKey core slot) = { s.warp (warpKey core slot) with frozen := some 4, running := false } ∧
        ∀ k, k ≠ warpKey core slot → t.warp k = s.warp k) ∧
    (∀ core slot, (s.warp (warpKey core slot)).window = none → exec (.uncorrectableError (.window core slot)) s = .next s) ∧
    (∀ core slot, (s.warp (warpKey core slot)).window.isSome = true → (s.warp (warpKey core slot)).present = true →
      (s.warp (warpKey core slot)).frozen = none →
      ∃ t, exec (.uncorrectableError (.window core slot)) s = .next t ∧ SameMemory s t ∧
        t.warp (warpKey core slot) = { s.warp (warpKey core slot) with frozen := some 4, running := false } ∧
        (∀ k, k ≠ warpKey core slot → t.warp k = s.warp k) ∧
        ((s.ctx (s.warp (warpKey core slot)).ctx).faults.length < 16 →
          ∃ x ∈ (t.ctx (s.warp (warpKey core slot)).ctx).faults, x.cause = 4#8 ∧ x.mkind = 0#3 ∧
            (slot < 64 → x.core = BitVec.ofNat 9 core ∧ x.wslot = BitVec.ofNat 6 slot))) ∧
    (∀ c n, ∃ t, exec (.uncorrectableError (.folds c n)) s = .next t ∧ SameMemory s t ∧ t.teams = s.teams ∧
      ∀ k, t.warp k = if k ∈ (s.team (teamKey c n)).warps ∧ (s.warp k).present = true ∧ (s.warp k).frozen = none then
        { s.warp k with frozen := some 4, running := false } else s.warp k) ∧
    (∀ c n off, let tk := teamKey c n
      ((s.team tk).scratchSize ≤ off → exec (.uncorrectableError (.scratch c n off)) s = .next s) ∧
      (off < (s.team tk).scratchSize → ∃ t, exec (.uncorrectableError (.scratch c n off)) s = .next t ∧
        t = { s with teams := t.teams } ∧ (∀ k, k ≠ tk → t.team k = s.team k) ∧
        t.team tk = { s.team tk with poison := (t.team tk).poison } ∧
        ∀ i, tget false (t.team tk).poison i = (i == off / 4 || tget false (s.team tk).poison i))) ∧
    (∀ m c refuses, ∃ t, exec (.uncorrectableError (.peer m c refuses)) s = .next t ∧ t = { s with links := t.links } ∧
      ∀ d line, t.refused d line =
        if keyIsPeer (line * 128) = true ∧ keyPeer (line * 128) = m ∧ d = c then refuses else s.refused d line) ∧
    (∀ d line, s.poisonFor d line = if s.refused d line then 0xFFFFFFFF#32 else (s.line line).poison) ∧
    (∀ c, (s.ctx c).established = true →
      (∀ v, let lost := s.lostPins c v
        let pins := (lost.filter fun l => (s.line l).locks.getLsbD c).length + (lost.filter (s.windowPin c)).length
        ∃ t, exec (.waymaskWrite c v) s = .next t ∧ SameMemory s t ∧ (t.ctx c).waymask = v ∧
          (t.ctx c).quotaUsed = (s.ctx c).quotaUsed - BitVec.ofNat 32 pins ∧
          (t.ctx c).pinstat.toNat = min 0xFFFFFFFF ((s.ctx c).pinstat.toNat + pins) ∧
          ∀ l ∈ lost, (t.line l).locks.getLsbD c = false ∧ t.windowPin c l = false) ∧
      ∃ t, exec (.faultrecRemove c) s = .next t ∧ t = { s with ctxs := t.ctxs } ∧
        t.ctx c = { s.ctx c with faults := (s.ctx c).faults.drop 1 }) ∧
    ∀ c n, let tk := teamKey c n
      (s.team tk).life = .live → (s.team tk).stop ≠ .none → (∀ k ∈ (s.team tk).warps, (s.warp k).stopped (s.team tk).stop = true) →
      s.settled tk = true → ∃ t, exec (.teamQuiesced c n) s = .next t ∧ t = { s with teams := t.teams } ∧
        t.team tk = { s.team tk with quiesced := true }

/-! ## Reset, and what every step keeps -/

/-- The module right after reset: memory keeps its form and nothing is listed, Birseob is not ready (R408), no context
is established and no core granted (R376), no warp is present, and EXEC, FMT and PRIV stand as they do for a new warp.
What an unlisted byte reads as is the model's choice (log 4), as are the registers' values (log 13). -/
def Obligations.ResetState : Prop :=
  MemoryCanonical State.reset ∧ (∀ a, State.reset.byteAt a = 0#8) ∧ State.reset.mgmt.ready = false ∧
    (∀ c, (State.reset.ctx c).established = false) ∧ (∀ c, (State.reset.core c).corectx = 0#32) ∧
    ∀ k, (State.reset.warp k).present = false ∧ (State.reset.warp k).exec = 0xFFFFFFFF#32 ∧
      (State.reset.warp k).fmt = 0x21#32 ∧ (State.reset.warp k).priv = false ∧ (State.reset.warp k).stack = [] ∧
      (State.reset.warp k).fpstat = 0#6

/-- Every step keeps memory in its one canonical form: addresses rise strictly, and no entry holds what an unlisted byte
reads as. So equal memories are equal data, whatever was written in whatever order. -/
def Obligations.StepKeepsMemoryCanonical : Prop :=
  ∀ s t : State, MemoryCanonical s → step s = .next t → MemoryCanonical t
end

