-- ==== Sys2Proof/Laws/Table.lean ====
section
/-! SUPPORT. Reads after writes of tables, and that every table operation keeps the canonical form. -/

namespace Sys2Proof.Machine

theorem tget_tdrop {α : Type} (d : α) (t : Tbl α) (k j : Nat) :
    tget d (tdrop t k) j = if j = k then d else tget d t j := by
  induction t <;> grind [tdrop, tget]

theorem tget_tput {α : Type} (d : α) (t : Tbl α) (k : Nat) (v : α) (j : Nat)
    (hk : ∀ x ∈ t, x.1 ≠ k) : tget d (tput t k v) j = if j = k then v else tget d t j := by
  induction t <;> grind [tput, tget]

theorem mem_tdrop {α : Type} (t : Tbl α) (k : Nat) : ∀ x ∈ tdrop t k, x.1 ≠ k := by
  induction t <;> grind [tdrop]

/-- A read after a write: the value written, at its own number; the old value at every other. -/
theorem tget_tset {α : Type} [DecidableEq α] (d : α) (t : Tbl α) (k : Nat) (v : α) (j : Nat) :
    tget d (tset d t k v) j = if j = k then v else tget d t j := by
  have away := mem_tdrop t k
  grind [tset, tget_tdrop, tget_tput]

@[simp] theorem tget_tset_same {α : Type} [DecidableEq α] (d : α) (t : Tbl α) (k : Nat) (v : α) :
    tget d (tset d t k v) k = v := by simp [tget_tset]

theorem tget_tset_ne {α : Type} [DecidableEq α] (d : α) (t : Tbl α) {k j : Nat} (v : α) (h : j ≠ k) :
    tget d (tset d t k v) j = tget d t j := by simp [tget_tset, h]

/-! ## The canonical form -/

/-- A weaker lower bound. -/
theorem tsorted_weaken {α : Type} [DecidableEq α] {d : α} {lo lo' : Option Nat} {t : Tbl α}
    (hl : ∀ b, lo' = some b → ∃ a, lo = some a ∧ b ≤ a) (h : tsorted d lo t = true) : tsorted d lo' t = true := by
  cases t <;> cases lo <;> cases lo' <;> grind [tsorted]

theorem tsorted_none {α : Type} [DecidableEq α] {d : α} {lo : Option Nat} {t : Tbl α} (h : tsorted d lo t = true) :
    tsorted d none t = true := tsorted_weaken (by simp) h

theorem tsorted_tdrop {α : Type} [DecidableEq α] {d : α} {lo : Option Nat} {t : Tbl α} (k : Nat)
    (h : tsorted d lo t = true) : tsorted d lo (tdrop t k) = true := by
  induction t generalizing lo with
  | nil => exact h
  | cons x t ih =>
    have weak := @tsorted_weaken α _ d (some x.1) lo t
    cases lo <;> grind [tdrop, tsorted]

theorem tsorted_tput {α : Type} [DecidableEq α] {d : α} {lo : Option Nat} {t : Tbl α} (k : Nat) (v : α) (hv : v ≠ d)
    (hlo : ∀ a, lo = some a → a < k) (hk : ∀ x ∈ t, x.1 ≠ k) (h : tsorted d lo t = true) :
    tsorted d lo (tput t k v) = true := by
  induction t generalizing lo <;> cases lo <;> grind [tput, tsorted]

/-- A write keeps the canonical form. -/
theorem tset_wf {α : Type} [DecidableEq α] {d : α} {t : Tbl α} (k : Nat) (v : α) (h : Tbl.wf d t) :
    Tbl.wf d (tset d t k v) := by
  unfold Tbl.wf tset
  split
  · exact tsorted_tdrop k h
  · exact tsorted_tput k v (by assumption) (by simp) (mem_tdrop t k) (tsorted_tdrop k h)

theorem tmod_wf {α : Type} [DecidableEq α] {d : α} {t : Tbl α} (k : Nat) (g : α → α) (h : Tbl.wf d t) :
    Tbl.wf d (tmod d t k g) := tset_wf k _ h

theorem tsetMany_wf {α : Type} [DecidableEq α] {d : α} (xs : List (Nat × α)) {t : Tbl α} (h : Tbl.wf d t) :
    Tbl.wf d (tsetMany d t xs) := by
  induction xs generalizing t with
  | nil => exact h
  | cons x xs ih => exact ih (tset_wf _ _ h)

theorem tsorted_filter {α : Type} [DecidableEq α] {d : α} {lo : Option Nat} {t : Tbl α} (p : Nat × α → Bool)
    (h : tsorted d lo t = true) : tsorted d lo (t.filter p) = true := by
  induction t generalizing lo with
  | nil => exact h
  | cons x t ih =>
    have weak := @tsorted_weaken α _ d (some x.1) lo (t.filter p)
    cases lo <;> grind [tsorted]

/-! ## Memory -/

/-- Bytes put into memory keep its canonical form. -/
theorem putBytes_wf (bs : List Byte) {m : Tbl Byte} (a : Nat) (h : Memory.wf m) : Memory.wf (putBytes m a bs) := by
  induction bs generalizing m a with
  | nil => exact h
  | cons b bs ih => exact ih (a + 1) (tset_wf a b h)

/-- A byte outside those put reads as before. -/
theorem tget_putBytes_outside (bs : List Byte) (m : Tbl Byte) (a x : Nat) (h : x < a ∨ a + bs.length ≤ x) :
    tget blankByte (putBytes m a bs) x = tget blankByte m x := by
  induction bs generalizing m a with
  | nil => rfl
  | cons b bs ih =>
    rw [putBytes, ih _ _ (by simp only [List.length_cons] at h; omega), tget_tset_ne]
    rintro rfl
    simp only [List.length_cons] at h
    omega

/-- A byte put reads as put. -/
theorem tget_putBytes_inside (bs : List Byte) (m : Tbl Byte) (a i : Nat) (h : i < bs.length) :
    tget blankByte (putBytes m a bs) (a + i) = bs[i] := by
  induction bs generalizing m a i with
  | nil => simp at h
  | cons b bs ih =>
    rw [putBytes]
    cases i with
    | zero => rw [tget_putBytes_outside _ _ _ _ (.inl (by omega))]; simp
    | succ i =>
      have := ih (tset blankByte m a b) (a + 1) i (by simpa using h)
      rw [Nat.add_assoc, Nat.add_comm 1] at this
      simpa using this

/-- A map over a table changes the value at each number, where it leaves the default alone. -/
theorem tget_tmap {α : Type} [DecidableEq α] (d : α) (g : Nat → α → α) (t : Tbl α) (k : Nat) (h : g k d = d) :
    tget d (tmap d g t) k = g k (tget d t k) := by
  induction t <;> grind [tmap, tget, tget_tdrop]

theorem tget_tmod {α : Type} [DecidableEq α] (d : α) (t : Tbl α) (k j : Nat) (g : α → α) :
    tget d (tmod d t k g) j = if j = k then g (tget d t k) else tget d t j := by
  unfold tmod
  rw [tget_tset]

end Sys2Proof.Machine
end

