-- ==== Sys2Proof/Laws/State.lean ====
section
/-! SUPPORT. One lemma for every field of the state and every update: what the update leaves alone. Then the reads of a
part after a write of the same part or of another. -/

namespace Sys2Proof.Machine

variable (s : State)

/-! ## setWarp -/

@[simp] theorem State.setWarp_tick : ∀ k w, (s.setWarp k w).tick = s.tick := fun _ _ => rfl
@[simp] theorem State.setWarp_nextId : ∀ k w, (s.setWarp k w).nextId = s.nextId := fun _ _ => rfl
@[simp] theorem State.setWarp_cur : ∀ k w, (s.setWarp k w).cur = s.cur := fun _ _ => rfl
@[simp] theorem State.setWarp_agenda : ∀ k w, (s.setWarp k w).agenda = s.agenda := fun _ _ => rfl
@[simp] theorem State.setWarp_mem : ∀ k w, (s.setWarp k w).mem = s.mem := fun _ _ => rfl
@[simp] theorem State.setWarp_lines : ∀ k w, (s.setWarp k w).lines = s.lines := fun _ _ => rfl
@[simp] theorem State.setWarp_reqs : ∀ k w, (s.setWarp k w).reqs = s.reqs := fun _ _ => rfl
@[simp] theorem State.setWarp_rr : ∀ k w, (s.setWarp k w).rr = s.rr := fun _ _ => rfl
@[simp] theorem State.setWarp_starts : ∀ k w, (s.setWarp k w).starts = s.starts := fun _ _ => rfl
@[simp] theorem State.setWarp_presented : ∀ k w, (s.setWarp k w).presented = s.presented := fun _ _ => rfl
@[simp] theorem State.setWarp_watches : ∀ k w, (s.setWarp k w).watches = s.watches := fun _ _ => rfl
@[simp] theorem State.setWarp_drains : ∀ k w, (s.setWarp k w).drains = s.drains := fun _ _ => rfl
@[simp] theorem State.setWarp_paths : ∀ k w, (s.setWarp k w).paths = s.paths := fun _ _ => rfl
@[simp] theorem State.setWarp_hostOps : ∀ k w, (s.setWarp k w).hostOps = s.hostOps := fun _ _ => rfl
@[simp] theorem State.setWarp_netNow : ∀ k w, (s.setWarp k w).netNow = s.netNow := fun _ _ => rfl
@[simp] theorem State.setWarp_teams : ∀ k w, (s.setWarp k w).teams = s.teams := fun _ _ => rfl
@[simp] theorem State.setWarp_ctxs : ∀ k w, (s.setWarp k w).ctxs = s.ctxs := fun _ _ => rfl
@[simp] theorem State.setWarp_shards : ∀ k w, (s.setWarp k w).shards = s.shards := fun _ _ => rfl
@[simp] theorem State.setWarp_cores : ∀ k w, (s.setWarp k w).cores = s.cores := fun _ _ => rfl
@[simp] theorem State.setWarp_posts : ∀ k w, (s.setWarp k w).posts = s.posts := fun _ _ => rfl
@[simp] theorem State.setWarp_withdraws : ∀ k w, (s.setWarp k w).withdraws = s.withdraws := fun _ _ => rfl
@[simp] theorem State.setWarp_net : ∀ k w, (s.setWarp k w).net = s.net := fun _ _ => rfl
@[simp] theorem State.setWarp_mgmt : ∀ k w, (s.setWarp k w).mgmt = s.mgmt := fun _ _ => rfl
@[simp] theorem State.setWarp_links : ∀ k w, (s.setWarp k w).links = s.links := fun _ _ => rfl

/-! ## modWarp -/

@[simp] theorem State.modWarp_tick : ∀ k g, (s.modWarp k g).tick = s.tick := fun _ _ => rfl
@[simp] theorem State.modWarp_nextId : ∀ k g, (s.modWarp k g).nextId = s.nextId := fun _ _ => rfl
@[simp] theorem State.modWarp_cur : ∀ k g, (s.modWarp k g).cur = s.cur := fun _ _ => rfl
@[simp] theorem State.modWarp_agenda : ∀ k g, (s.modWarp k g).agenda = s.agenda := fun _ _ => rfl
@[simp] theorem State.modWarp_mem : ∀ k g, (s.modWarp k g).mem = s.mem := fun _ _ => rfl
@[simp] theorem State.modWarp_lines : ∀ k g, (s.modWarp k g).lines = s.lines := fun _ _ => rfl
@[simp] theorem State.modWarp_reqs : ∀ k g, (s.modWarp k g).reqs = s.reqs := fun _ _ => rfl
@[simp] theorem State.modWarp_rr : ∀ k g, (s.modWarp k g).rr = s.rr := fun _ _ => rfl
@[simp] theorem State.modWarp_starts : ∀ k g, (s.modWarp k g).starts = s.starts := fun _ _ => rfl
@[simp] theorem State.modWarp_presented : ∀ k g, (s.modWarp k g).presented = s.presented := fun _ _ => rfl
@[simp] theorem State.modWarp_watches : ∀ k g, (s.modWarp k g).watches = s.watches := fun _ _ => rfl
@[simp] theorem State.modWarp_drains : ∀ k g, (s.modWarp k g).drains = s.drains := fun _ _ => rfl
@[simp] theorem State.modWarp_paths : ∀ k g, (s.modWarp k g).paths = s.paths := fun _ _ => rfl
@[simp] theorem State.modWarp_hostOps : ∀ k g, (s.modWarp k g).hostOps = s.hostOps := fun _ _ => rfl
@[simp] theorem State.modWarp_netNow : ∀ k g, (s.modWarp k g).netNow = s.netNow := fun _ _ => rfl
@[simp] theorem State.modWarp_teams : ∀ k g, (s.modWarp k g).teams = s.teams := fun _ _ => rfl
@[simp] theorem State.modWarp_ctxs : ∀ k g, (s.modWarp k g).ctxs = s.ctxs := fun _ _ => rfl
@[simp] theorem State.modWarp_shards : ∀ k g, (s.modWarp k g).shards = s.shards := fun _ _ => rfl
@[simp] theorem State.modWarp_cores : ∀ k g, (s.modWarp k g).cores = s.cores := fun _ _ => rfl
@[simp] theorem State.modWarp_posts : ∀ k g, (s.modWarp k g).posts = s.posts := fun _ _ => rfl
@[simp] theorem State.modWarp_withdraws : ∀ k g, (s.modWarp k g).withdraws = s.withdraws := fun _ _ => rfl
@[simp] theorem State.modWarp_net : ∀ k g, (s.modWarp k g).net = s.net := fun _ _ => rfl
@[simp] theorem State.modWarp_mgmt : ∀ k g, (s.modWarp k g).mgmt = s.mgmt := fun _ _ => rfl
@[simp] theorem State.modWarp_links : ∀ k g, (s.modWarp k g).links = s.links := fun _ _ => rfl

/-! ## setMe -/

@[simp] theorem State.setMe_tick : ∀ w, (s.setMe w).tick = s.tick := fun _ => rfl
@[simp] theorem State.setMe_nextId : ∀ w, (s.setMe w).nextId = s.nextId := fun _ => rfl
@[simp] theorem State.setMe_cur : ∀ w, (s.setMe w).cur = s.cur := fun _ => rfl
@[simp] theorem State.setMe_agenda : ∀ w, (s.setMe w).agenda = s.agenda := fun _ => rfl
@[simp] theorem State.setMe_mem : ∀ w, (s.setMe w).mem = s.mem := fun _ => rfl
@[simp] theorem State.setMe_lines : ∀ w, (s.setMe w).lines = s.lines := fun _ => rfl
@[simp] theorem State.setMe_reqs : ∀ w, (s.setMe w).reqs = s.reqs := fun _ => rfl
@[simp] theorem State.setMe_rr : ∀ w, (s.setMe w).rr = s.rr := fun _ => rfl
@[simp] theorem State.setMe_starts : ∀ w, (s.setMe w).starts = s.starts := fun _ => rfl
@[simp] theorem State.setMe_presented : ∀ w, (s.setMe w).presented = s.presented := fun _ => rfl
@[simp] theorem State.setMe_watches : ∀ w, (s.setMe w).watches = s.watches := fun _ => rfl
@[simp] theorem State.setMe_drains : ∀ w, (s.setMe w).drains = s.drains := fun _ => rfl
@[simp] theorem State.setMe_paths : ∀ w, (s.setMe w).paths = s.paths := fun _ => rfl
@[simp] theorem State.setMe_hostOps : ∀ w, (s.setMe w).hostOps = s.hostOps := fun _ => rfl
@[simp] theorem State.setMe_netNow : ∀ w, (s.setMe w).netNow = s.netNow := fun _ => rfl
@[simp] theorem State.setMe_teams : ∀ w, (s.setMe w).teams = s.teams := fun _ => rfl
@[simp] theorem State.setMe_ctxs : ∀ w, (s.setMe w).ctxs = s.ctxs := fun _ => rfl
@[simp] theorem State.setMe_shards : ∀ w, (s.setMe w).shards = s.shards := fun _ => rfl
@[simp] theorem State.setMe_cores : ∀ w, (s.setMe w).cores = s.cores := fun _ => rfl
@[simp] theorem State.setMe_posts : ∀ w, (s.setMe w).posts = s.posts := fun _ => rfl
@[simp] theorem State.setMe_withdraws : ∀ w, (s.setMe w).withdraws = s.withdraws := fun _ => rfl
@[simp] theorem State.setMe_net : ∀ w, (s.setMe w).net = s.net := fun _ => rfl
@[simp] theorem State.setMe_mgmt : ∀ w, (s.setMe w).mgmt = s.mgmt := fun _ => rfl
@[simp] theorem State.setMe_links : ∀ w, (s.setMe w).links = s.links := fun _ => rfl

/-! ## modMe -/

@[simp] theorem State.modMe_tick : ∀ g, (s.modMe g).tick = s.tick := fun _ => rfl
@[simp] theorem State.modMe_nextId : ∀ g, (s.modMe g).nextId = s.nextId := fun _ => rfl
@[simp] theorem State.modMe_cur : ∀ g, (s.modMe g).cur = s.cur := fun _ => rfl
@[simp] theorem State.modMe_agenda : ∀ g, (s.modMe g).agenda = s.agenda := fun _ => rfl
@[simp] theorem State.modMe_mem : ∀ g, (s.modMe g).mem = s.mem := fun _ => rfl
@[simp] theorem State.modMe_lines : ∀ g, (s.modMe g).lines = s.lines := fun _ => rfl
@[simp] theorem State.modMe_reqs : ∀ g, (s.modMe g).reqs = s.reqs := fun _ => rfl
@[simp] theorem State.modMe_rr : ∀ g, (s.modMe g).rr = s.rr := fun _ => rfl
@[simp] theorem State.modMe_starts : ∀ g, (s.modMe g).starts = s.starts := fun _ => rfl
@[simp] theorem State.modMe_presented : ∀ g, (s.modMe g).presented = s.presented := fun _ => rfl
@[simp] theorem State.modMe_watches : ∀ g, (s.modMe g).watches = s.watches := fun _ => rfl
@[simp] theorem State.modMe_drains : ∀ g, (s.modMe g).drains = s.drains := fun _ => rfl
@[simp] theorem State.modMe_paths : ∀ g, (s.modMe g).paths = s.paths := fun _ => rfl
@[simp] theorem State.modMe_hostOps : ∀ g, (s.modMe g).hostOps = s.hostOps := fun _ => rfl
@[simp] theorem State.modMe_netNow : ∀ g, (s.modMe g).netNow = s.netNow := fun _ => rfl
@[simp] theorem State.modMe_teams : ∀ g, (s.modMe g).teams = s.teams := fun _ => rfl
@[simp] theorem State.modMe_ctxs : ∀ g, (s.modMe g).ctxs = s.ctxs := fun _ => rfl
@[simp] theorem State.modMe_shards : ∀ g, (s.modMe g).shards = s.shards := fun _ => rfl
@[simp] theorem State.modMe_cores : ∀ g, (s.modMe g).cores = s.cores := fun _ => rfl
@[simp] theorem State.modMe_posts : ∀ g, (s.modMe g).posts = s.posts := fun _ => rfl
@[simp] theorem State.modMe_withdraws : ∀ g, (s.modMe g).withdraws = s.withdraws := fun _ => rfl
@[simp] theorem State.modMe_net : ∀ g, (s.modMe g).net = s.net := fun _ => rfl
@[simp] theorem State.modMe_mgmt : ∀ g, (s.modMe g).mgmt = s.mgmt := fun _ => rfl
@[simp] theorem State.modMe_links : ∀ g, (s.modMe g).links = s.links := fun _ => rfl

/-! ## setTeam -/

@[simp] theorem State.setTeam_tick : ∀ k x, (s.setTeam k x).tick = s.tick := fun _ _ => rfl
@[simp] theorem State.setTeam_nextId : ∀ k x, (s.setTeam k x).nextId = s.nextId := fun _ _ => rfl
@[simp] theorem State.setTeam_cur : ∀ k x, (s.setTeam k x).cur = s.cur := fun _ _ => rfl
@[simp] theorem State.setTeam_agenda : ∀ k x, (s.setTeam k x).agenda = s.agenda := fun _ _ => rfl
@[simp] theorem State.setTeam_mem : ∀ k x, (s.setTeam k x).mem = s.mem := fun _ _ => rfl
@[simp] theorem State.setTeam_lines : ∀ k x, (s.setTeam k x).lines = s.lines := fun _ _ => rfl
@[simp] theorem State.setTeam_reqs : ∀ k x, (s.setTeam k x).reqs = s.reqs := fun _ _ => rfl
@[simp] theorem State.setTeam_rr : ∀ k x, (s.setTeam k x).rr = s.rr := fun _ _ => rfl
@[simp] theorem State.setTeam_starts : ∀ k x, (s.setTeam k x).starts = s.starts := fun _ _ => rfl
@[simp] theorem State.setTeam_presented : ∀ k x, (s.setTeam k x).presented = s.presented := fun _ _ => rfl
@[simp] theorem State.setTeam_watches : ∀ k x, (s.setTeam k x).watches = s.watches := fun _ _ => rfl
@[simp] theorem State.setTeam_drains : ∀ k x, (s.setTeam k x).drains = s.drains := fun _ _ => rfl
@[simp] theorem State.setTeam_paths : ∀ k x, (s.setTeam k x).paths = s.paths := fun _ _ => rfl
@[simp] theorem State.setTeam_hostOps : ∀ k x, (s.setTeam k x).hostOps = s.hostOps := fun _ _ => rfl
@[simp] theorem State.setTeam_netNow : ∀ k x, (s.setTeam k x).netNow = s.netNow := fun _ _ => rfl
@[simp] theorem State.setTeam_warps : ∀ k x, (s.setTeam k x).warps = s.warps := fun _ _ => rfl
@[simp] theorem State.setTeam_ctxs : ∀ k x, (s.setTeam k x).ctxs = s.ctxs := fun _ _ => rfl
@[simp] theorem State.setTeam_shards : ∀ k x, (s.setTeam k x).shards = s.shards := fun _ _ => rfl
@[simp] theorem State.setTeam_cores : ∀ k x, (s.setTeam k x).cores = s.cores := fun _ _ => rfl
@[simp] theorem State.setTeam_posts : ∀ k x, (s.setTeam k x).posts = s.posts := fun _ _ => rfl
@[simp] theorem State.setTeam_withdraws : ∀ k x, (s.setTeam k x).withdraws = s.withdraws := fun _ _ => rfl
@[simp] theorem State.setTeam_net : ∀ k x, (s.setTeam k x).net = s.net := fun _ _ => rfl
@[simp] theorem State.setTeam_mgmt : ∀ k x, (s.setTeam k x).mgmt = s.mgmt := fun _ _ => rfl
@[simp] theorem State.setTeam_links : ∀ k x, (s.setTeam k x).links = s.links := fun _ _ => rfl

/-! ## modTeam -/

@[simp] theorem State.modTeam_tick : ∀ k g, (s.modTeam k g).tick = s.tick := fun _ _ => rfl
@[simp] theorem State.modTeam_nextId : ∀ k g, (s.modTeam k g).nextId = s.nextId := fun _ _ => rfl
@[simp] theorem State.modTeam_cur : ∀ k g, (s.modTeam k g).cur = s.cur := fun _ _ => rfl
@[simp] theorem State.modTeam_agenda : ∀ k g, (s.modTeam k g).agenda = s.agenda := fun _ _ => rfl
@[simp] theorem State.modTeam_mem : ∀ k g, (s.modTeam k g).mem = s.mem := fun _ _ => rfl
@[simp] theorem State.modTeam_lines : ∀ k g, (s.modTeam k g).lines = s.lines := fun _ _ => rfl
@[simp] theorem State.modTeam_reqs : ∀ k g, (s.modTeam k g).reqs = s.reqs := fun _ _ => rfl
@[simp] theorem State.modTeam_rr : ∀ k g, (s.modTeam k g).rr = s.rr := fun _ _ => rfl
@[simp] theorem State.modTeam_starts : ∀ k g, (s.modTeam k g).starts = s.starts := fun _ _ => rfl
@[simp] theorem State.modTeam_presented : ∀ k g, (s.modTeam k g).presented = s.presented := fun _ _ => rfl
@[simp] theorem State.modTeam_watches : ∀ k g, (s.modTeam k g).watches = s.watches := fun _ _ => rfl
@[simp] theorem State.modTeam_drains : ∀ k g, (s.modTeam k g).drains = s.drains := fun _ _ => rfl
@[simp] theorem State.modTeam_paths : ∀ k g, (s.modTeam k g).paths = s.paths := fun _ _ => rfl
@[simp] theorem State.modTeam_hostOps : ∀ k g, (s.modTeam k g).hostOps = s.hostOps := fun _ _ => rfl
@[simp] theorem State.modTeam_netNow : ∀ k g, (s.modTeam k g).netNow = s.netNow := fun _ _ => rfl
@[simp] theorem State.modTeam_warps : ∀ k g, (s.modTeam k g).warps = s.warps := fun _ _ => rfl
@[simp] theorem State.modTeam_ctxs : ∀ k g, (s.modTeam k g).ctxs = s.ctxs := fun _ _ => rfl
@[simp] theorem State.modTeam_shards : ∀ k g, (s.modTeam k g).shards = s.shards := fun _ _ => rfl
@[simp] theorem State.modTeam_cores : ∀ k g, (s.modTeam k g).cores = s.cores := fun _ _ => rfl
@[simp] theorem State.modTeam_posts : ∀ k g, (s.modTeam k g).posts = s.posts := fun _ _ => rfl
@[simp] theorem State.modTeam_withdraws : ∀ k g, (s.modTeam k g).withdraws = s.withdraws := fun _ _ => rfl
@[simp] theorem State.modTeam_net : ∀ k g, (s.modTeam k g).net = s.net := fun _ _ => rfl
@[simp] theorem State.modTeam_mgmt : ∀ k g, (s.modTeam k g).mgmt = s.mgmt := fun _ _ => rfl
@[simp] theorem State.modTeam_links : ∀ k g, (s.modTeam k g).links = s.links := fun _ _ => rfl

/-! ## setCtx -/

@[simp] theorem State.setCtx_tick : ∀ k x, (s.setCtx k x).tick = s.tick := fun _ _ => rfl
@[simp] theorem State.setCtx_nextId : ∀ k x, (s.setCtx k x).nextId = s.nextId := fun _ _ => rfl
@[simp] theorem State.setCtx_cur : ∀ k x, (s.setCtx k x).cur = s.cur := fun _ _ => rfl
@[simp] theorem State.setCtx_agenda : ∀ k x, (s.setCtx k x).agenda = s.agenda := fun _ _ => rfl
@[simp] theorem State.setCtx_mem : ∀ k x, (s.setCtx k x).mem = s.mem := fun _ _ => rfl
@[simp] theorem State.setCtx_lines : ∀ k x, (s.setCtx k x).lines = s.lines := fun _ _ => rfl
@[simp] theorem State.setCtx_reqs : ∀ k x, (s.setCtx k x).reqs = s.reqs := fun _ _ => rfl
@[simp] theorem State.setCtx_rr : ∀ k x, (s.setCtx k x).rr = s.rr := fun _ _ => rfl
@[simp] theorem State.setCtx_starts : ∀ k x, (s.setCtx k x).starts = s.starts := fun _ _ => rfl
@[simp] theorem State.setCtx_presented : ∀ k x, (s.setCtx k x).presented = s.presented := fun _ _ => rfl
@[simp] theorem State.setCtx_watches : ∀ k x, (s.setCtx k x).watches = s.watches := fun _ _ => rfl
@[simp] theorem State.setCtx_drains : ∀ k x, (s.setCtx k x).drains = s.drains := fun _ _ => rfl
@[simp] theorem State.setCtx_paths : ∀ k x, (s.setCtx k x).paths = s.paths := fun _ _ => rfl
@[simp] theorem State.setCtx_hostOps : ∀ k x, (s.setCtx k x).hostOps = s.hostOps := fun _ _ => rfl
@[simp] theorem State.setCtx_netNow : ∀ k x, (s.setCtx k x).netNow = s.netNow := fun _ _ => rfl
@[simp] theorem State.setCtx_warps : ∀ k x, (s.setCtx k x).warps = s.warps := fun _ _ => rfl
@[simp] theorem State.setCtx_teams : ∀ k x, (s.setCtx k x).teams = s.teams := fun _ _ => rfl
@[simp] theorem State.setCtx_shards : ∀ k x, (s.setCtx k x).shards = s.shards := fun _ _ => rfl
@[simp] theorem State.setCtx_cores : ∀ k x, (s.setCtx k x).cores = s.cores := fun _ _ => rfl
@[simp] theorem State.setCtx_posts : ∀ k x, (s.setCtx k x).posts = s.posts := fun _ _ => rfl
@[simp] theorem State.setCtx_withdraws : ∀ k x, (s.setCtx k x).withdraws = s.withdraws := fun _ _ => rfl
@[simp] theorem State.setCtx_net : ∀ k x, (s.setCtx k x).net = s.net := fun _ _ => rfl
@[simp] theorem State.setCtx_mgmt : ∀ k x, (s.setCtx k x).mgmt = s.mgmt := fun _ _ => rfl
@[simp] theorem State.setCtx_links : ∀ k x, (s.setCtx k x).links = s.links := fun _ _ => rfl

/-! ## modCtx -/

@[simp] theorem State.modCtx_tick : ∀ k g, (s.modCtx k g).tick = s.tick := fun _ _ => rfl
@[simp] theorem State.modCtx_nextId : ∀ k g, (s.modCtx k g).nextId = s.nextId := fun _ _ => rfl
@[simp] theorem State.modCtx_cur : ∀ k g, (s.modCtx k g).cur = s.cur := fun _ _ => rfl
@[simp] theorem State.modCtx_agenda : ∀ k g, (s.modCtx k g).agenda = s.agenda := fun _ _ => rfl
@[simp] theorem State.modCtx_mem : ∀ k g, (s.modCtx k g).mem = s.mem := fun _ _ => rfl
@[simp] theorem State.modCtx_lines : ∀ k g, (s.modCtx k g).lines = s.lines := fun _ _ => rfl
@[simp] theorem State.modCtx_reqs : ∀ k g, (s.modCtx k g).reqs = s.reqs := fun _ _ => rfl
@[simp] theorem State.modCtx_rr : ∀ k g, (s.modCtx k g).rr = s.rr := fun _ _ => rfl
@[simp] theorem State.modCtx_starts : ∀ k g, (s.modCtx k g).starts = s.starts := fun _ _ => rfl
@[simp] theorem State.modCtx_presented : ∀ k g, (s.modCtx k g).presented = s.presented := fun _ _ => rfl
@[simp] theorem State.modCtx_watches : ∀ k g, (s.modCtx k g).watches = s.watches := fun _ _ => rfl
@[simp] theorem State.modCtx_drains : ∀ k g, (s.modCtx k g).drains = s.drains := fun _ _ => rfl
@[simp] theorem State.modCtx_paths : ∀ k g, (s.modCtx k g).paths = s.paths := fun _ _ => rfl
@[simp] theorem State.modCtx_hostOps : ∀ k g, (s.modCtx k g).hostOps = s.hostOps := fun _ _ => rfl
@[simp] theorem State.modCtx_netNow : ∀ k g, (s.modCtx k g).netNow = s.netNow := fun _ _ => rfl
@[simp] theorem State.modCtx_warps : ∀ k g, (s.modCtx k g).warps = s.warps := fun _ _ => rfl
@[simp] theorem State.modCtx_teams : ∀ k g, (s.modCtx k g).teams = s.teams := fun _ _ => rfl
@[simp] theorem State.modCtx_shards : ∀ k g, (s.modCtx k g).shards = s.shards := fun _ _ => rfl
@[simp] theorem State.modCtx_cores : ∀ k g, (s.modCtx k g).cores = s.cores := fun _ _ => rfl
@[simp] theorem State.modCtx_posts : ∀ k g, (s.modCtx k g).posts = s.posts := fun _ _ => rfl
@[simp] theorem State.modCtx_withdraws : ∀ k g, (s.modCtx k g).withdraws = s.withdraws := fun _ _ => rfl
@[simp] theorem State.modCtx_net : ∀ k g, (s.modCtx k g).net = s.net := fun _ _ => rfl
@[simp] theorem State.modCtx_mgmt : ∀ k g, (s.modCtx k g).mgmt = s.mgmt := fun _ _ => rfl
@[simp] theorem State.modCtx_links : ∀ k g, (s.modCtx k g).links = s.links := fun _ _ => rfl

/-! ## setShard -/

@[simp] theorem State.setShard_tick : ∀ k x, (s.setShard k x).tick = s.tick := fun _ _ => rfl
@[simp] theorem State.setShard_nextId : ∀ k x, (s.setShard k x).nextId = s.nextId := fun _ _ => rfl
@[simp] theorem State.setShard_cur : ∀ k x, (s.setShard k x).cur = s.cur := fun _ _ => rfl
@[simp] theorem State.setShard_agenda : ∀ k x, (s.setShard k x).agenda = s.agenda := fun _ _ => rfl
@[simp] theorem State.setShard_mem : ∀ k x, (s.setShard k x).mem = s.mem := fun _ _ => rfl
@[simp] theorem State.setShard_lines : ∀ k x, (s.setShard k x).lines = s.lines := fun _ _ => rfl
@[simp] theorem State.setShard_reqs : ∀ k x, (s.setShard k x).reqs = s.reqs := fun _ _ => rfl
@[simp] theorem State.setShard_rr : ∀ k x, (s.setShard k x).rr = s.rr := fun _ _ => rfl
@[simp] theorem State.setShard_starts : ∀ k x, (s.setShard k x).starts = s.starts := fun _ _ => rfl
@[simp] theorem State.setShard_presented : ∀ k x, (s.setShard k x).presented = s.presented := fun _ _ => rfl
@[simp] theorem State.setShard_watches : ∀ k x, (s.setShard k x).watches = s.watches := fun _ _ => rfl
@[simp] theorem State.setShard_drains : ∀ k x, (s.setShard k x).drains = s.drains := fun _ _ => rfl
@[simp] theorem State.setShard_paths : ∀ k x, (s.setShard k x).paths = s.paths := fun _ _ => rfl
@[simp] theorem State.setShard_hostOps : ∀ k x, (s.setShard k x).hostOps = s.hostOps := fun _ _ => rfl
@[simp] theorem State.setShard_netNow : ∀ k x, (s.setShard k x).netNow = s.netNow := fun _ _ => rfl
@[simp] theorem State.setShard_warps : ∀ k x, (s.setShard k x).warps = s.warps := fun _ _ => rfl
@[simp] theorem State.setShard_teams : ∀ k x, (s.setShard k x).teams = s.teams := fun _ _ => rfl
@[simp] theorem State.setShard_ctxs : ∀ k x, (s.setShard k x).ctxs = s.ctxs := fun _ _ => rfl
@[simp] theorem State.setShard_cores : ∀ k x, (s.setShard k x).cores = s.cores := fun _ _ => rfl
@[simp] theorem State.setShard_posts : ∀ k x, (s.setShard k x).posts = s.posts := fun _ _ => rfl
@[simp] theorem State.setShard_withdraws : ∀ k x, (s.setShard k x).withdraws = s.withdraws := fun _ _ => rfl
@[simp] theorem State.setShard_net : ∀ k x, (s.setShard k x).net = s.net := fun _ _ => rfl
@[simp] theorem State.setShard_mgmt : ∀ k x, (s.setShard k x).mgmt = s.mgmt := fun _ _ => rfl
@[simp] theorem State.setShard_links : ∀ k x, (s.setShard k x).links = s.links := fun _ _ => rfl

/-! ## modShard -/

@[simp] theorem State.modShard_tick : ∀ k g, (s.modShard k g).tick = s.tick := fun _ _ => rfl
@[simp] theorem State.modShard_nextId : ∀ k g, (s.modShard k g).nextId = s.nextId := fun _ _ => rfl
@[simp] theorem State.modShard_cur : ∀ k g, (s.modShard k g).cur = s.cur := fun _ _ => rfl
@[simp] theorem State.modShard_agenda : ∀ k g, (s.modShard k g).agenda = s.agenda := fun _ _ => rfl
@[simp] theorem State.modShard_mem : ∀ k g, (s.modShard k g).mem = s.mem := fun _ _ => rfl
@[simp] theorem State.modShard_lines : ∀ k g, (s.modShard k g).lines = s.lines := fun _ _ => rfl
@[simp] theorem State.modShard_reqs : ∀ k g, (s.modShard k g).reqs = s.reqs := fun _ _ => rfl
@[simp] theorem State.modShard_rr : ∀ k g, (s.modShard k g).rr = s.rr := fun _ _ => rfl
@[simp] theorem State.modShard_starts : ∀ k g, (s.modShard k g).starts = s.starts := fun _ _ => rfl
@[simp] theorem State.modShard_presented : ∀ k g, (s.modShard k g).presented = s.presented := fun _ _ => rfl
@[simp] theorem State.modShard_watches : ∀ k g, (s.modShard k g).watches = s.watches := fun _ _ => rfl
@[simp] theorem State.modShard_drains : ∀ k g, (s.modShard k g).drains = s.drains := fun _ _ => rfl
@[simp] theorem State.modShard_paths : ∀ k g, (s.modShard k g).paths = s.paths := fun _ _ => rfl
@[simp] theorem State.modShard_hostOps : ∀ k g, (s.modShard k g).hostOps = s.hostOps := fun _ _ => rfl
@[simp] theorem State.modShard_netNow : ∀ k g, (s.modShard k g).netNow = s.netNow := fun _ _ => rfl
@[simp] theorem State.modShard_warps : ∀ k g, (s.modShard k g).warps = s.warps := fun _ _ => rfl
@[simp] theorem State.modShard_teams : ∀ k g, (s.modShard k g).teams = s.teams := fun _ _ => rfl
@[simp] theorem State.modShard_ctxs : ∀ k g, (s.modShard k g).ctxs = s.ctxs := fun _ _ => rfl
@[simp] theorem State.modShard_cores : ∀ k g, (s.modShard k g).cores = s.cores := fun _ _ => rfl
@[simp] theorem State.modShard_posts : ∀ k g, (s.modShard k g).posts = s.posts := fun _ _ => rfl
@[simp] theorem State.modShard_withdraws : ∀ k g, (s.modShard k g).withdraws = s.withdraws := fun _ _ => rfl
@[simp] theorem State.modShard_net : ∀ k g, (s.modShard k g).net = s.net := fun _ _ => rfl
@[simp] theorem State.modShard_mgmt : ∀ k g, (s.modShard k g).mgmt = s.mgmt := fun _ _ => rfl
@[simp] theorem State.modShard_links : ∀ k g, (s.modShard k g).links = s.links := fun _ _ => rfl

/-! ## setCore -/

@[simp] theorem State.setCore_tick : ∀ k x, (s.setCore k x).tick = s.tick := fun _ _ => rfl
@[simp] theorem State.setCore_nextId : ∀ k x, (s.setCore k x).nextId = s.nextId := fun _ _ => rfl
@[simp] theorem State.setCore_cur : ∀ k x, (s.setCore k x).cur = s.cur := fun _ _ => rfl
@[simp] theorem State.setCore_agenda : ∀ k x, (s.setCore k x).agenda = s.agenda := fun _ _ => rfl
@[simp] theorem State.setCore_mem : ∀ k x, (s.setCore k x).mem = s.mem := fun _ _ => rfl
@[simp] theorem State.setCore_lines : ∀ k x, (s.setCore k x).lines = s.lines := fun _ _ => rfl
@[simp] theorem State.setCore_reqs : ∀ k x, (s.setCore k x).reqs = s.reqs := fun _ _ => rfl
@[simp] theorem State.setCore_rr : ∀ k x, (s.setCore k x).rr = s.rr := fun _ _ => rfl
@[simp] theorem State.setCore_starts : ∀ k x, (s.setCore k x).starts = s.starts := fun _ _ => rfl
@[simp] theorem State.setCore_presented : ∀ k x, (s.setCore k x).presented = s.presented := fun _ _ => rfl
@[simp] theorem State.setCore_watches : ∀ k x, (s.setCore k x).watches = s.watches := fun _ _ => rfl
@[simp] theorem State.setCore_drains : ∀ k x, (s.setCore k x).drains = s.drains := fun _ _ => rfl
@[simp] theorem State.setCore_paths : ∀ k x, (s.setCore k x).paths = s.paths := fun _ _ => rfl
@[simp] theorem State.setCore_hostOps : ∀ k x, (s.setCore k x).hostOps = s.hostOps := fun _ _ => rfl
@[simp] theorem State.setCore_netNow : ∀ k x, (s.setCore k x).netNow = s.netNow := fun _ _ => rfl
@[simp] theorem State.setCore_warps : ∀ k x, (s.setCore k x).warps = s.warps := fun _ _ => rfl
@[simp] theorem State.setCore_teams : ∀ k x, (s.setCore k x).teams = s.teams := fun _ _ => rfl
@[simp] theorem State.setCore_ctxs : ∀ k x, (s.setCore k x).ctxs = s.ctxs := fun _ _ => rfl
@[simp] theorem State.setCore_shards : ∀ k x, (s.setCore k x).shards = s.shards := fun _ _ => rfl
@[simp] theorem State.setCore_posts : ∀ k x, (s.setCore k x).posts = s.posts := fun _ _ => rfl
@[simp] theorem State.setCore_withdraws : ∀ k x, (s.setCore k x).withdraws = s.withdraws := fun _ _ => rfl
@[simp] theorem State.setCore_net : ∀ k x, (s.setCore k x).net = s.net := fun _ _ => rfl
@[simp] theorem State.setCore_mgmt : ∀ k x, (s.setCore k x).mgmt = s.mgmt := fun _ _ => rfl
@[simp] theorem State.setCore_links : ∀ k x, (s.setCore k x).links = s.links := fun _ _ => rfl

/-! ## modCore -/

@[simp] theorem State.modCore_tick : ∀ k g, (s.modCore k g).tick = s.tick := fun _ _ => rfl
@[simp] theorem State.modCore_nextId : ∀ k g, (s.modCore k g).nextId = s.nextId := fun _ _ => rfl
@[simp] theorem State.modCore_cur : ∀ k g, (s.modCore k g).cur = s.cur := fun _ _ => rfl
@[simp] theorem State.modCore_agenda : ∀ k g, (s.modCore k g).agenda = s.agenda := fun _ _ => rfl
@[simp] theorem State.modCore_mem : ∀ k g, (s.modCore k g).mem = s.mem := fun _ _ => rfl
@[simp] theorem State.modCore_lines : ∀ k g, (s.modCore k g).lines = s.lines := fun _ _ => rfl
@[simp] theorem State.modCore_reqs : ∀ k g, (s.modCore k g).reqs = s.reqs := fun _ _ => rfl
@[simp] theorem State.modCore_rr : ∀ k g, (s.modCore k g).rr = s.rr := fun _ _ => rfl
@[simp] theorem State.modCore_starts : ∀ k g, (s.modCore k g).starts = s.starts := fun _ _ => rfl
@[simp] theorem State.modCore_presented : ∀ k g, (s.modCore k g).presented = s.presented := fun _ _ => rfl
@[simp] theorem State.modCore_watches : ∀ k g, (s.modCore k g).watches = s.watches := fun _ _ => rfl
@[simp] theorem State.modCore_drains : ∀ k g, (s.modCore k g).drains = s.drains := fun _ _ => rfl
@[simp] theorem State.modCore_paths : ∀ k g, (s.modCore k g).paths = s.paths := fun _ _ => rfl
@[simp] theorem State.modCore_hostOps : ∀ k g, (s.modCore k g).hostOps = s.hostOps := fun _ _ => rfl
@[simp] theorem State.modCore_netNow : ∀ k g, (s.modCore k g).netNow = s.netNow := fun _ _ => rfl
@[simp] theorem State.modCore_warps : ∀ k g, (s.modCore k g).warps = s.warps := fun _ _ => rfl
@[simp] theorem State.modCore_teams : ∀ k g, (s.modCore k g).teams = s.teams := fun _ _ => rfl
@[simp] theorem State.modCore_ctxs : ∀ k g, (s.modCore k g).ctxs = s.ctxs := fun _ _ => rfl
@[simp] theorem State.modCore_shards : ∀ k g, (s.modCore k g).shards = s.shards := fun _ _ => rfl
@[simp] theorem State.modCore_posts : ∀ k g, (s.modCore k g).posts = s.posts := fun _ _ => rfl
@[simp] theorem State.modCore_withdraws : ∀ k g, (s.modCore k g).withdraws = s.withdraws := fun _ _ => rfl
@[simp] theorem State.modCore_net : ∀ k g, (s.modCore k g).net = s.net := fun _ _ => rfl
@[simp] theorem State.modCore_mgmt : ∀ k g, (s.modCore k g).mgmt = s.mgmt := fun _ _ => rfl
@[simp] theorem State.modCore_links : ∀ k g, (s.modCore k g).links = s.links := fun _ _ => rfl

/-! ## setLine -/

@[simp] theorem State.setLine_tick : ∀ k x, (s.setLine k x).tick = s.tick := fun _ _ => rfl
@[simp] theorem State.setLine_nextId : ∀ k x, (s.setLine k x).nextId = s.nextId := fun _ _ => rfl
@[simp] theorem State.setLine_cur : ∀ k x, (s.setLine k x).cur = s.cur := fun _ _ => rfl
@[simp] theorem State.setLine_agenda : ∀ k x, (s.setLine k x).agenda = s.agenda := fun _ _ => rfl
@[simp] theorem State.setLine_mem : ∀ k x, (s.setLine k x).mem = s.mem := fun _ _ => rfl
@[simp] theorem State.setLine_reqs : ∀ k x, (s.setLine k x).reqs = s.reqs := fun _ _ => rfl
@[simp] theorem State.setLine_rr : ∀ k x, (s.setLine k x).rr = s.rr := fun _ _ => rfl
@[simp] theorem State.setLine_starts : ∀ k x, (s.setLine k x).starts = s.starts := fun _ _ => rfl
@[simp] theorem State.setLine_presented : ∀ k x, (s.setLine k x).presented = s.presented := fun _ _ => rfl
@[simp] theorem State.setLine_watches : ∀ k x, (s.setLine k x).watches = s.watches := fun _ _ => rfl
@[simp] theorem State.setLine_drains : ∀ k x, (s.setLine k x).drains = s.drains := fun _ _ => rfl
@[simp] theorem State.setLine_paths : ∀ k x, (s.setLine k x).paths = s.paths := fun _ _ => rfl
@[simp] theorem State.setLine_hostOps : ∀ k x, (s.setLine k x).hostOps = s.hostOps := fun _ _ => rfl
@[simp] theorem State.setLine_netNow : ∀ k x, (s.setLine k x).netNow = s.netNow := fun _ _ => rfl
@[simp] theorem State.setLine_warps : ∀ k x, (s.setLine k x).warps = s.warps := fun _ _ => rfl
@[simp] theorem State.setLine_teams : ∀ k x, (s.setLine k x).teams = s.teams := fun _ _ => rfl
@[simp] theorem State.setLine_ctxs : ∀ k x, (s.setLine k x).ctxs = s.ctxs := fun _ _ => rfl
@[simp] theorem State.setLine_shards : ∀ k x, (s.setLine k x).shards = s.shards := fun _ _ => rfl
@[simp] theorem State.setLine_cores : ∀ k x, (s.setLine k x).cores = s.cores := fun _ _ => rfl
@[simp] theorem State.setLine_posts : ∀ k x, (s.setLine k x).posts = s.posts := fun _ _ => rfl
@[simp] theorem State.setLine_withdraws : ∀ k x, (s.setLine k x).withdraws = s.withdraws := fun _ _ => rfl
@[simp] theorem State.setLine_net : ∀ k x, (s.setLine k x).net = s.net := fun _ _ => rfl
@[simp] theorem State.setLine_mgmt : ∀ k x, (s.setLine k x).mgmt = s.mgmt := fun _ _ => rfl
@[simp] theorem State.setLine_links : ∀ k x, (s.setLine k x).links = s.links := fun _ _ => rfl

/-! ## modLine -/

@[simp] theorem State.modLine_tick : ∀ k g, (s.modLine k g).tick = s.tick := fun _ _ => rfl
@[simp] theorem State.modLine_nextId : ∀ k g, (s.modLine k g).nextId = s.nextId := fun _ _ => rfl
@[simp] theorem State.modLine_cur : ∀ k g, (s.modLine k g).cur = s.cur := fun _ _ => rfl
@[simp] theorem State.modLine_agenda : ∀ k g, (s.modLine k g).agenda = s.agenda := fun _ _ => rfl
@[simp] theorem State.modLine_mem : ∀ k g, (s.modLine k g).mem = s.mem := fun _ _ => rfl
@[simp] theorem State.modLine_reqs : ∀ k g, (s.modLine k g).reqs = s.reqs := fun _ _ => rfl
@[simp] theorem State.modLine_rr : ∀ k g, (s.modLine k g).rr = s.rr := fun _ _ => rfl
@[simp] theorem State.modLine_starts : ∀ k g, (s.modLine k g).starts = s.starts := fun _ _ => rfl
@[simp] theorem State.modLine_presented : ∀ k g, (s.modLine k g).presented = s.presented := fun _ _ => rfl
@[simp] theorem State.modLine_watches : ∀ k g, (s.modLine k g).watches = s.watches := fun _ _ => rfl
@[simp] theorem State.modLine_drains : ∀ k g, (s.modLine k g).drains = s.drains := fun _ _ => rfl
@[simp] theorem State.modLine_paths : ∀ k g, (s.modLine k g).paths = s.paths := fun _ _ => rfl
@[simp] theorem State.modLine_hostOps : ∀ k g, (s.modLine k g).hostOps = s.hostOps := fun _ _ => rfl
@[simp] theorem State.modLine_netNow : ∀ k g, (s.modLine k g).netNow = s.netNow := fun _ _ => rfl
@[simp] theorem State.modLine_warps : ∀ k g, (s.modLine k g).warps = s.warps := fun _ _ => rfl
@[simp] theorem State.modLine_teams : ∀ k g, (s.modLine k g).teams = s.teams := fun _ _ => rfl
@[simp] theorem State.modLine_ctxs : ∀ k g, (s.modLine k g).ctxs = s.ctxs := fun _ _ => rfl
@[simp] theorem State.modLine_shards : ∀ k g, (s.modLine k g).shards = s.shards := fun _ _ => rfl
@[simp] theorem State.modLine_cores : ∀ k g, (s.modLine k g).cores = s.cores := fun _ _ => rfl
@[simp] theorem State.modLine_posts : ∀ k g, (s.modLine k g).posts = s.posts := fun _ _ => rfl
@[simp] theorem State.modLine_withdraws : ∀ k g, (s.modLine k g).withdraws = s.withdraws := fun _ _ => rfl
@[simp] theorem State.modLine_net : ∀ k g, (s.modLine k g).net = s.net := fun _ _ => rfl
@[simp] theorem State.modLine_mgmt : ∀ k g, (s.modLine k g).mgmt = s.mgmt := fun _ _ => rfl
@[simp] theorem State.modLine_links : ∀ k g, (s.modLine k g).links = s.links := fun _ _ => rfl

/-! ## fresh -/

@[simp] theorem State.fresh_tick : s.fresh.tick = s.tick := rfl
@[simp] theorem State.fresh_cur : s.fresh.cur = s.cur := rfl
@[simp] theorem State.fresh_agenda : s.fresh.agenda = s.agenda := rfl
@[simp] theorem State.fresh_mem : s.fresh.mem = s.mem := rfl
@[simp] theorem State.fresh_lines : s.fresh.lines = s.lines := rfl
@[simp] theorem State.fresh_reqs : s.fresh.reqs = s.reqs := rfl
@[simp] theorem State.fresh_rr : s.fresh.rr = s.rr := rfl
@[simp] theorem State.fresh_starts : s.fresh.starts = s.starts := rfl
@[simp] theorem State.fresh_presented : s.fresh.presented = s.presented := rfl
@[simp] theorem State.fresh_watches : s.fresh.watches = s.watches := rfl
@[simp] theorem State.fresh_drains : s.fresh.drains = s.drains := rfl
@[simp] theorem State.fresh_paths : s.fresh.paths = s.paths := rfl
@[simp] theorem State.fresh_hostOps : s.fresh.hostOps = s.hostOps := rfl
@[simp] theorem State.fresh_netNow : s.fresh.netNow = s.netNow := rfl
@[simp] theorem State.fresh_warps : s.fresh.warps = s.warps := rfl
@[simp] theorem State.fresh_teams : s.fresh.teams = s.teams := rfl
@[simp] theorem State.fresh_ctxs : s.fresh.ctxs = s.ctxs := rfl
@[simp] theorem State.fresh_shards : s.fresh.shards = s.shards := rfl
@[simp] theorem State.fresh_cores : s.fresh.cores = s.cores := rfl
@[simp] theorem State.fresh_posts : s.fresh.posts = s.posts := rfl
@[simp] theorem State.fresh_withdraws : s.fresh.withdraws = s.withdraws := rfl
@[simp] theorem State.fresh_net : s.fresh.net = s.net := rfl
@[simp] theorem State.fresh_mgmt : s.fresh.mgmt = s.mgmt := rfl
@[simp] theorem State.fresh_links : s.fresh.links = s.links := rfl

/-! ## raise -/

@[simp] theorem State.raise_tick : ∀ v, (s.raise v).tick = s.tick := fun _ => rfl
@[simp] theorem State.raise_nextId : ∀ v, (s.raise v).nextId = s.nextId := fun _ => rfl
@[simp] theorem State.raise_cur : ∀ v, (s.raise v).cur = s.cur := fun _ => rfl
@[simp] theorem State.raise_agenda : ∀ v, (s.raise v).agenda = s.agenda := fun _ => rfl
@[simp] theorem State.raise_mem : ∀ v, (s.raise v).mem = s.mem := fun _ => rfl
@[simp] theorem State.raise_lines : ∀ v, (s.raise v).lines = s.lines := fun _ => rfl
@[simp] theorem State.raise_reqs : ∀ v, (s.raise v).reqs = s.reqs := fun _ => rfl
@[simp] theorem State.raise_rr : ∀ v, (s.raise v).rr = s.rr := fun _ => rfl
@[simp] theorem State.raise_starts : ∀ v, (s.raise v).starts = s.starts := fun _ => rfl
@[simp] theorem State.raise_presented : ∀ v, (s.raise v).presented = s.presented := fun _ => rfl
@[simp] theorem State.raise_watches : ∀ v, (s.raise v).watches = s.watches := fun _ => rfl
@[simp] theorem State.raise_drains : ∀ v, (s.raise v).drains = s.drains := fun _ => rfl
@[simp] theorem State.raise_paths : ∀ v, (s.raise v).paths = s.paths := fun _ => rfl
@[simp] theorem State.raise_hostOps : ∀ v, (s.raise v).hostOps = s.hostOps := fun _ => rfl
@[simp] theorem State.raise_netNow : ∀ v, (s.raise v).netNow = s.netNow := fun _ => rfl
@[simp] theorem State.raise_warps : ∀ v, (s.raise v).warps = s.warps := fun _ => rfl
@[simp] theorem State.raise_teams : ∀ v, (s.raise v).teams = s.teams := fun _ => rfl
@[simp] theorem State.raise_ctxs : ∀ v, (s.raise v).ctxs = s.ctxs := fun _ => rfl
@[simp] theorem State.raise_shards : ∀ v, (s.raise v).shards = s.shards := fun _ => rfl
@[simp] theorem State.raise_cores : ∀ v, (s.raise v).cores = s.cores := fun _ => rfl
@[simp] theorem State.raise_posts : ∀ v, (s.raise v).posts = s.posts := fun _ => rfl
@[simp] theorem State.raise_withdraws : ∀ v, (s.raise v).withdraws = s.withdraws := fun _ => rfl
@[simp] theorem State.raise_net : ∀ v, (s.raise v).net = s.net := fun _ => rfl
@[simp] theorem State.raise_links : ∀ v, (s.raise v).links = s.links := fun _ => rfl

/-! ## putBytes -/

@[simp] theorem State.putBytes_tick : ∀ a bs, (s.putBytes a bs).tick = s.tick := fun _ _ => rfl
@[simp] theorem State.putBytes_nextId : ∀ a bs, (s.putBytes a bs).nextId = s.nextId := fun _ _ => rfl
@[simp] theorem State.putBytes_cur : ∀ a bs, (s.putBytes a bs).cur = s.cur := fun _ _ => rfl
@[simp] theorem State.putBytes_agenda : ∀ a bs, (s.putBytes a bs).agenda = s.agenda := fun _ _ => rfl
@[simp] theorem State.putBytes_lines : ∀ a bs, (s.putBytes a bs).lines = s.lines := fun _ _ => rfl
@[simp] theorem State.putBytes_reqs : ∀ a bs, (s.putBytes a bs).reqs = s.reqs := fun _ _ => rfl
@[simp] theorem State.putBytes_rr : ∀ a bs, (s.putBytes a bs).rr = s.rr := fun _ _ => rfl
@[simp] theorem State.putBytes_starts : ∀ a bs, (s.putBytes a bs).starts = s.starts := fun _ _ => rfl
@[simp] theorem State.putBytes_presented : ∀ a bs, (s.putBytes a bs).presented = s.presented := fun _ _ => rfl
@[simp] theorem State.putBytes_watches : ∀ a bs, (s.putBytes a bs).watches = s.watches := fun _ _ => rfl
@[simp] theorem State.putBytes_drains : ∀ a bs, (s.putBytes a bs).drains = s.drains := fun _ _ => rfl
@[simp] theorem State.putBytes_paths : ∀ a bs, (s.putBytes a bs).paths = s.paths := fun _ _ => rfl
@[simp] theorem State.putBytes_hostOps : ∀ a bs, (s.putBytes a bs).hostOps = s.hostOps := fun _ _ => rfl
@[simp] theorem State.putBytes_netNow : ∀ a bs, (s.putBytes a bs).netNow = s.netNow := fun _ _ => rfl
@[simp] theorem State.putBytes_warps : ∀ a bs, (s.putBytes a bs).warps = s.warps := fun _ _ => rfl
@[simp] theorem State.putBytes_teams : ∀ a bs, (s.putBytes a bs).teams = s.teams := fun _ _ => rfl
@[simp] theorem State.putBytes_ctxs : ∀ a bs, (s.putBytes a bs).ctxs = s.ctxs := fun _ _ => rfl
@[simp] theorem State.putBytes_shards : ∀ a bs, (s.putBytes a bs).shards = s.shards := fun _ _ => rfl
@[simp] theorem State.putBytes_cores : ∀ a bs, (s.putBytes a bs).cores = s.cores := fun _ _ => rfl
@[simp] theorem State.putBytes_posts : ∀ a bs, (s.putBytes a bs).posts = s.posts := fun _ _ => rfl
@[simp] theorem State.putBytes_withdraws : ∀ a bs, (s.putBytes a bs).withdraws = s.withdraws := fun _ _ => rfl
@[simp] theorem State.putBytes_net : ∀ a bs, (s.putBytes a bs).net = s.net := fun _ _ => rfl
@[simp] theorem State.putBytes_mgmt : ∀ a bs, (s.putBytes a bs).mgmt = s.mgmt := fun _ _ => rfl
@[simp] theorem State.putBytes_links : ∀ a bs, (s.putBytes a bs).links = s.links := fun _ _ => rfl

/-! ## advance -/

@[simp] theorem State.advance_tick : ∀ k, (s.advance k).tick = s.tick := fun _ => rfl
@[simp] theorem State.advance_nextId : ∀ k, (s.advance k).nextId = s.nextId := fun _ => rfl
@[simp] theorem State.advance_cur : ∀ k, (s.advance k).cur = s.cur := fun _ => rfl
@[simp] theorem State.advance_agenda : ∀ k, (s.advance k).agenda = s.agenda := fun _ => rfl
@[simp] theorem State.advance_mem : ∀ k, (s.advance k).mem = s.mem := fun _ => rfl
@[simp] theorem State.advance_lines : ∀ k, (s.advance k).lines = s.lines := fun _ => rfl
@[simp] theorem State.advance_reqs : ∀ k, (s.advance k).reqs = s.reqs := fun _ => rfl
@[simp] theorem State.advance_rr : ∀ k, (s.advance k).rr = s.rr := fun _ => rfl
@[simp] theorem State.advance_starts : ∀ k, (s.advance k).starts = s.starts := fun _ => rfl
@[simp] theorem State.advance_presented : ∀ k, (s.advance k).presented = s.presented := fun _ => rfl
@[simp] theorem State.advance_watches : ∀ k, (s.advance k).watches = s.watches := fun _ => rfl
@[simp] theorem State.advance_drains : ∀ k, (s.advance k).drains = s.drains := fun _ => rfl
@[simp] theorem State.advance_paths : ∀ k, (s.advance k).paths = s.paths := fun _ => rfl
@[simp] theorem State.advance_hostOps : ∀ k, (s.advance k).hostOps = s.hostOps := fun _ => rfl
@[simp] theorem State.advance_netNow : ∀ k, (s.advance k).netNow = s.netNow := fun _ => rfl
@[simp] theorem State.advance_teams : ∀ k, (s.advance k).teams = s.teams := fun _ => rfl
@[simp] theorem State.advance_ctxs : ∀ k, (s.advance k).ctxs = s.ctxs := fun _ => rfl
@[simp] theorem State.advance_shards : ∀ k, (s.advance k).shards = s.shards := fun _ => rfl
@[simp] theorem State.advance_cores : ∀ k, (s.advance k).cores = s.cores := fun _ => rfl
@[simp] theorem State.advance_posts : ∀ k, (s.advance k).posts = s.posts := fun _ => rfl
@[simp] theorem State.advance_withdraws : ∀ k, (s.advance k).withdraws = s.withdraws := fun _ => rfl
@[simp] theorem State.advance_net : ∀ k, (s.advance k).net = s.net := fun _ => rfl
@[simp] theorem State.advance_mgmt : ∀ k, (s.advance k).mgmt = s.mgmt := fun _ => rfl
@[simp] theorem State.advance_links : ∀ k, (s.advance k).links = s.links := fun _ => rfl

/-! ## Reads after writes -/

theorem State.warp_setWarp (k : Nat) (x : Warp) (j : Nat) : (s.setWarp k x).warp j = if j = k then x else s.warp j :=
  tget_tset ..

@[simp] theorem State.warp_setWarp_same (k : Nat) (x : Warp) : (s.setWarp k x).warp k = x := tget_tset_same ..

theorem State.warp_modWarp (k : Nat) (g : Warp → Warp) (j : Nat) :
    (s.modWarp k g).warp j = if j = k then g (s.warp k) else s.warp j := tget_tset ..

@[simp] theorem State.warp_modWarp_same (k : Nat) (g : Warp → Warp) : (s.modWarp k g).warp k = g (s.warp k) := tget_tset_same ..

@[simp] theorem State.team_setWarp (k : Nat) (x : Warp) (j : Nat) : (s.setWarp k x).team j = s.team j := rfl
@[simp] theorem State.team_modWarp (k : Nat) (g : Warp → Warp) (j : Nat) : (s.modWarp k g).team j = s.team j := rfl
@[simp] theorem State.ctx_setWarp (k : Nat) (x : Warp) (j : Nat) : (s.setWarp k x).ctx j = s.ctx j := rfl
@[simp] theorem State.ctx_modWarp (k : Nat) (g : Warp → Warp) (j : Nat) : (s.modWarp k g).ctx j = s.ctx j := rfl
@[simp] theorem State.shard_setWarp (k : Nat) (x : Warp) (j : Nat) : (s.setWarp k x).shard j = s.shard j := rfl
@[simp] theorem State.shard_modWarp (k : Nat) (g : Warp → Warp) (j : Nat) : (s.modWarp k g).shard j = s.shard j := rfl
@[simp] theorem State.core_setWarp (k : Nat) (x : Warp) (j : Nat) : (s.setWarp k x).core j = s.core j := rfl
@[simp] theorem State.core_modWarp (k : Nat) (g : Warp → Warp) (j : Nat) : (s.modWarp k g).core j = s.core j := rfl
@[simp] theorem State.line_setWarp (k : Nat) (x : Warp) (j : Nat) : (s.setWarp k x).line j = s.line j := rfl
@[simp] theorem State.line_modWarp (k : Nat) (g : Warp → Warp) (j : Nat) : (s.modWarp k g).line j = s.line j := rfl

theorem State.team_setTeam (k : Nat) (x : Team) (j : Nat) : (s.setTeam k x).team j = if j = k then x else s.team j :=
  tget_tset ..

@[simp] theorem State.team_setTeam_same (k : Nat) (x : Team) : (s.setTeam k x).team k = x := tget_tset_same ..

theorem State.team_modTeam (k : Nat) (g : Team → Team) (j : Nat) :
    (s.modTeam k g).team j = if j = k then g (s.team k) else s.team j := tget_tset ..

@[simp] theorem State.team_modTeam_same (k : Nat) (g : Team → Team) : (s.modTeam k g).team k = g (s.team k) := tget_tset_same ..

@[simp] theorem State.warp_setTeam (k : Nat) (x : Team) (j : Nat) : (s.setTeam k x).warp j = s.warp j := rfl
@[simp] theorem State.warp_modTeam (k : Nat) (g : Team → Team) (j : Nat) : (s.modTeam k g).warp j = s.warp j := rfl
@[simp] theorem State.ctx_setTeam (k : Nat) (x : Team) (j : Nat) : (s.setTeam k x).ctx j = s.ctx j := rfl
@[simp] theorem State.ctx_modTeam (k : Nat) (g : Team → Team) (j : Nat) : (s.modTeam k g).ctx j = s.ctx j := rfl
@[simp] theorem State.shard_setTeam (k : Nat) (x : Team) (j : Nat) : (s.setTeam k x).shard j = s.shard j := rfl
@[simp] theorem State.shard_modTeam (k : Nat) (g : Team → Team) (j : Nat) : (s.modTeam k g).shard j = s.shard j := rfl
@[simp] theorem State.core_setTeam (k : Nat) (x : Team) (j : Nat) : (s.setTeam k x).core j = s.core j := rfl
@[simp] theorem State.core_modTeam (k : Nat) (g : Team → Team) (j : Nat) : (s.modTeam k g).core j = s.core j := rfl
@[simp] theorem State.line_setTeam (k : Nat) (x : Team) (j : Nat) : (s.setTeam k x).line j = s.line j := rfl
@[simp] theorem State.line_modTeam (k : Nat) (g : Team → Team) (j : Nat) : (s.modTeam k g).line j = s.line j := rfl

theorem State.ctx_setCtx (k : Nat) (x : Ctx) (j : Nat) : (s.setCtx k x).ctx j = if j = k then x else s.ctx j :=
  tget_tset ..

@[simp] theorem State.ctx_setCtx_same (k : Nat) (x : Ctx) : (s.setCtx k x).ctx k = x := tget_tset_same ..

theorem State.ctx_modCtx (k : Nat) (g : Ctx → Ctx) (j : Nat) :
    (s.modCtx k g).ctx j = if j = k then g (s.ctx k) else s.ctx j := tget_tset ..

@[simp] theorem State.ctx_modCtx_same (k : Nat) (g : Ctx → Ctx) : (s.modCtx k g).ctx k = g (s.ctx k) := tget_tset_same ..

@[simp] theorem State.warp_setCtx (k : Nat) (x : Ctx) (j : Nat) : (s.setCtx k x).warp j = s.warp j := rfl
@[simp] theorem State.warp_modCtx (k : Nat) (g : Ctx → Ctx) (j : Nat) : (s.modCtx k g).warp j = s.warp j := rfl
@[simp] theorem State.team_setCtx (k : Nat) (x : Ctx) (j : Nat) : (s.setCtx k x).team j = s.team j := rfl
@[simp] theorem State.team_modCtx (k : Nat) (g : Ctx → Ctx) (j : Nat) : (s.modCtx k g).team j = s.team j := rfl
@[simp] theorem State.shard_setCtx (k : Nat) (x : Ctx) (j : Nat) : (s.setCtx k x).shard j = s.shard j := rfl
@[simp] theorem State.shard_modCtx (k : Nat) (g : Ctx → Ctx) (j : Nat) : (s.modCtx k g).shard j = s.shard j := rfl
@[simp] theorem State.core_setCtx (k : Nat) (x : Ctx) (j : Nat) : (s.setCtx k x).core j = s.core j := rfl
@[simp] theorem State.core_modCtx (k : Nat) (g : Ctx → Ctx) (j : Nat) : (s.modCtx k g).core j = s.core j := rfl
@[simp] theorem State.line_setCtx (k : Nat) (x : Ctx) (j : Nat) : (s.setCtx k x).line j = s.line j := rfl
@[simp] theorem State.line_modCtx (k : Nat) (g : Ctx → Ctx) (j : Nat) : (s.modCtx k g).line j = s.line j := rfl

theorem State.shard_setShard (k : Nat) (x : Shard) (j : Nat) : (s.setShard k x).shard j = if j = k then x else s.shard j :=
  tget_tset ..

@[simp] theorem State.shard_setShard_same (k : Nat) (x : Shard) : (s.setShard k x).shard k = x := tget_tset_same ..

theorem State.shard_modShard (k : Nat) (g : Shard → Shard) (j : Nat) :
    (s.modShard k g).shard j = if j = k then g (s.shard k) else s.shard j := tget_tset ..

@[simp] theorem State.shard_modShard_same (k : Nat) (g : Shard → Shard) : (s.modShard k g).shard k = g (s.shard k) := tget_tset_same ..

@[simp] theorem State.warp_setShard (k : Nat) (x : Shard) (j : Nat) : (s.setShard k x).warp j = s.warp j := rfl
@[simp] theorem State.warp_modShard (k : Nat) (g : Shard → Shard) (j : Nat) : (s.modShard k g).warp j = s.warp j := rfl
@[simp] theorem State.team_setShard (k : Nat) (x : Shard) (j : Nat) : (s.setShard k x).team j = s.team j := rfl
@[simp] theorem State.team_modShard (k : Nat) (g : Shard → Shard) (j : Nat) : (s.modShard k g).team j = s.team j := rfl
@[simp] theorem State.ctx_setShard (k : Nat) (x : Shard) (j : Nat) : (s.setShard k x).ctx j = s.ctx j := rfl
@[simp] theorem State.ctx_modShard (k : Nat) (g : Shard → Shard) (j : Nat) : (s.modShard k g).ctx j = s.ctx j := rfl
@[simp] theorem State.core_setShard (k : Nat) (x : Shard) (j : Nat) : (s.setShard k x).core j = s.core j := rfl
@[simp] theorem State.core_modShard (k : Nat) (g : Shard → Shard) (j : Nat) : (s.modShard k g).core j = s.core j := rfl
@[simp] theorem State.line_setShard (k : Nat) (x : Shard) (j : Nat) : (s.setShard k x).line j = s.line j := rfl
@[simp] theorem State.line_modShard (k : Nat) (g : Shard → Shard) (j : Nat) : (s.modShard k g).line j = s.line j := rfl

theorem State.core_setCore (k : Nat) (x : Core) (j : Nat) : (s.setCore k x).core j = if j = k then x else s.core j :=
  tget_tset ..

@[simp] theorem State.core_setCore_same (k : Nat) (x : Core) : (s.setCore k x).core k = x := tget_tset_same ..

theorem State.core_modCore (k : Nat) (g : Core → Core) (j : Nat) :
    (s.modCore k g).core j = if j = k then g (s.core k) else s.core j := tget_tset ..

@[simp] theorem State.core_modCore_same (k : Nat) (g : Core → Core) : (s.modCore k g).core k = g (s.core k) := tget_tset_same ..

@[simp] theorem State.warp_setCore (k : Nat) (x : Core) (j : Nat) : (s.setCore k x).warp j = s.warp j := rfl
@[simp] theorem State.warp_modCore (k : Nat) (g : Core → Core) (j : Nat) : (s.modCore k g).warp j = s.warp j := rfl
@[simp] theorem State.team_setCore (k : Nat) (x : Core) (j : Nat) : (s.setCore k x).team j = s.team j := rfl
@[simp] theorem State.team_modCore (k : Nat) (g : Core → Core) (j : Nat) : (s.modCore k g).team j = s.team j := rfl
@[simp] theorem State.ctx_setCore (k : Nat) (x : Core) (j : Nat) : (s.setCore k x).ctx j = s.ctx j := rfl
@[simp] theorem State.ctx_modCore (k : Nat) (g : Core → Core) (j : Nat) : (s.modCore k g).ctx j = s.ctx j := rfl
@[simp] theorem State.shard_setCore (k : Nat) (x : Core) (j : Nat) : (s.setCore k x).shard j = s.shard j := rfl
@[simp] theorem State.shard_modCore (k : Nat) (g : Core → Core) (j : Nat) : (s.modCore k g).shard j = s.shard j := rfl
@[simp] theorem State.line_setCore (k : Nat) (x : Core) (j : Nat) : (s.setCore k x).line j = s.line j := rfl
@[simp] theorem State.line_modCore (k : Nat) (g : Core → Core) (j : Nat) : (s.modCore k g).line j = s.line j := rfl

theorem State.line_setLine (k : Nat) (x : Line) (j : Nat) : (s.setLine k x).line j = if j = k then x else s.line j :=
  tget_tset ..

@[simp] theorem State.line_setLine_same (k : Nat) (x : Line) : (s.setLine k x).line k = x := tget_tset_same ..

theorem State.line_modLine (k : Nat) (g : Line → Line) (j : Nat) :
    (s.modLine k g).line j = if j = k then g (s.line k) else s.line j := tget_tset ..

@[simp] theorem State.line_modLine_same (k : Nat) (g : Line → Line) : (s.modLine k g).line k = g (s.line k) := tget_tset_same ..

@[simp] theorem State.warp_setLine (k : Nat) (x : Line) (j : Nat) : (s.setLine k x).warp j = s.warp j := rfl
@[simp] theorem State.warp_modLine (k : Nat) (g : Line → Line) (j : Nat) : (s.modLine k g).warp j = s.warp j := rfl
@[simp] theorem State.team_setLine (k : Nat) (x : Line) (j : Nat) : (s.setLine k x).team j = s.team j := rfl
@[simp] theorem State.team_modLine (k : Nat) (g : Line → Line) (j : Nat) : (s.modLine k g).team j = s.team j := rfl
@[simp] theorem State.ctx_setLine (k : Nat) (x : Line) (j : Nat) : (s.setLine k x).ctx j = s.ctx j := rfl
@[simp] theorem State.ctx_modLine (k : Nat) (g : Line → Line) (j : Nat) : (s.modLine k g).ctx j = s.ctx j := rfl
@[simp] theorem State.shard_setLine (k : Nat) (x : Line) (j : Nat) : (s.setLine k x).shard j = s.shard j := rfl
@[simp] theorem State.shard_modLine (k : Nat) (g : Line → Line) (j : Nat) : (s.modLine k g).shard j = s.shard j := rfl
@[simp] theorem State.core_setLine (k : Nat) (x : Line) (j : Nat) : (s.setLine k x).core j = s.core j := rfl
@[simp] theorem State.core_modLine (k : Nat) (g : Line → Line) (j : Nat) : (s.modLine k g).core j = s.core j := rfl

@[simp] theorem State.team_setMe (w : Warp) (j : Nat) : (s.setMe w).team j = s.team j := rfl
@[simp] theorem State.team_modMe (g : Warp → Warp) (j : Nat) : (s.modMe g).team j = s.team j := rfl
@[simp] theorem State.ctx_setMe (w : Warp) (j : Nat) : (s.setMe w).ctx j = s.ctx j := rfl
@[simp] theorem State.ctx_modMe (g : Warp → Warp) (j : Nat) : (s.modMe g).ctx j = s.ctx j := rfl
@[simp] theorem State.shard_setMe (w : Warp) (j : Nat) : (s.setMe w).shard j = s.shard j := rfl
@[simp] theorem State.shard_modMe (g : Warp → Warp) (j : Nat) : (s.modMe g).shard j = s.shard j := rfl
@[simp] theorem State.core_setMe (w : Warp) (j : Nat) : (s.setMe w).core j = s.core j := rfl
@[simp] theorem State.core_modMe (g : Warp → Warp) (j : Nat) : (s.modMe g).core j = s.core j := rfl
@[simp] theorem State.line_setMe (w : Warp) (j : Nat) : (s.setMe w).line j = s.line j := rfl
@[simp] theorem State.line_modMe (g : Warp → Warp) (j : Nat) : (s.modMe g).line j = s.line j := rfl
@[simp] theorem State.me_setTeam (k : Nat) (x : Team) : (s.setTeam k x).me = s.me := rfl
@[simp] theorem State.me_modTeam (k : Nat) (g : Team → Team) : (s.modTeam k g).me = s.me := rfl
@[simp] theorem State.byteAt_setTeam (k : Nat) (x : Team) (a : Nat) : (s.setTeam k x).byteAt a = s.byteAt a := rfl
@[simp] theorem State.byteAt_modTeam (k : Nat) (g : Team → Team) (a : Nat) : (s.modTeam k g).byteAt a = s.byteAt a := rfl
@[simp] theorem State.me_setCtx (k : Nat) (x : Ctx) : (s.setCtx k x).me = s.me := rfl
@[simp] theorem State.me_modCtx (k : Nat) (g : Ctx → Ctx) : (s.modCtx k g).me = s.me := rfl
@[simp] theorem State.byteAt_setCtx (k : Nat) (x : Ctx) (a : Nat) : (s.setCtx k x).byteAt a = s.byteAt a := rfl
@[simp] theorem State.byteAt_modCtx (k : Nat) (g : Ctx → Ctx) (a : Nat) : (s.modCtx k g).byteAt a = s.byteAt a := rfl
@[simp] theorem State.me_setShard (k : Nat) (x : Shard) : (s.setShard k x).me = s.me := rfl
@[simp] theorem State.me_modShard (k : Nat) (g : Shard → Shard) : (s.modShard k g).me = s.me := rfl
@[simp] theorem State.byteAt_setShard (k : Nat) (x : Shard) (a : Nat) : (s.setShard k x).byteAt a = s.byteAt a := rfl
@[simp] theorem State.byteAt_modShard (k : Nat) (g : Shard → Shard) (a : Nat) : (s.modShard k g).byteAt a = s.byteAt a := rfl
@[simp] theorem State.me_setCore (k : Nat) (x : Core) : (s.setCore k x).me = s.me := rfl
@[simp] theorem State.me_modCore (k : Nat) (g : Core → Core) : (s.modCore k g).me = s.me := rfl
@[simp] theorem State.byteAt_setCore (k : Nat) (x : Core) (a : Nat) : (s.setCore k x).byteAt a = s.byteAt a := rfl
@[simp] theorem State.byteAt_modCore (k : Nat) (g : Core → Core) (a : Nat) : (s.modCore k g).byteAt a = s.byteAt a := rfl
@[simp] theorem State.me_setLine (k : Nat) (x : Line) : (s.setLine k x).me = s.me := rfl
@[simp] theorem State.me_modLine (k : Nat) (g : Line → Line) : (s.modLine k g).me = s.me := rfl
@[simp] theorem State.byteAt_setLine (k : Nat) (x : Line) (a : Nat) : (s.setLine k x).byteAt a = s.byteAt a := rfl
@[simp] theorem State.byteAt_modLine (k : Nat) (g : Line → Line) (a : Nat) : (s.modLine k g).byteAt a = s.byteAt a := rfl
@[simp] theorem State.me_raise (v : Nat) : (s.raise v).me = s.me := rfl
@[simp] theorem State.me_putBytes (a : Nat) (bs : List Byte) : (s.putBytes a bs).me = s.me := rfl
@[simp] theorem State.warp_raise (v j : Nat) : (s.raise v).warp j = s.warp j := rfl
@[simp] theorem State.warp_fresh (j : Nat) : s.fresh.warp j = s.warp j := rfl
@[simp] theorem State.warp_putBytes (a : Nat) (bs : List Byte) (j : Nat) : (s.putBytes a bs).warp j = s.warp j := rfl
@[simp] theorem State.team_raise (v j : Nat) : (s.raise v).team j = s.team j := rfl
@[simp] theorem State.team_fresh (j : Nat) : s.fresh.team j = s.team j := rfl
@[simp] theorem State.team_putBytes (a : Nat) (bs : List Byte) (j : Nat) : (s.putBytes a bs).team j = s.team j := rfl
@[simp] theorem State.ctx_raise (v j : Nat) : (s.raise v).ctx j = s.ctx j := rfl
@[simp] theorem State.ctx_fresh (j : Nat) : s.fresh.ctx j = s.ctx j := rfl
@[simp] theorem State.ctx_putBytes (a : Nat) (bs : List Byte) (j : Nat) : (s.putBytes a bs).ctx j = s.ctx j := rfl
@[simp] theorem State.shard_raise (v j : Nat) : (s.raise v).shard j = s.shard j := rfl
@[simp] theorem State.shard_fresh (j : Nat) : s.fresh.shard j = s.shard j := rfl
@[simp] theorem State.shard_putBytes (a : Nat) (bs : List Byte) (j : Nat) : (s.putBytes a bs).shard j = s.shard j := rfl
@[simp] theorem State.core_raise (v j : Nat) : (s.raise v).core j = s.core j := rfl
@[simp] theorem State.core_fresh (j : Nat) : s.fresh.core j = s.core j := rfl
@[simp] theorem State.core_putBytes (a : Nat) (bs : List Byte) (j : Nat) : (s.putBytes a bs).core j = s.core j := rfl
@[simp] theorem State.line_raise (v j : Nat) : (s.raise v).line j = s.line j := rfl
@[simp] theorem State.line_fresh (j : Nat) : s.fresh.line j = s.line j := rfl
@[simp] theorem State.line_putBytes (a : Nat) (bs : List Byte) (j : Nat) : (s.putBytes a bs).line j = s.line j := rfl
@[simp] theorem State.byteAt_raise (v j : Nat) : (s.raise v).byteAt j = s.byteAt j := rfl
@[simp] theorem State.byteAt_fresh (j : Nat) : s.fresh.byteAt j = s.byteAt j := rfl

@[simp] theorem State.me_setMe (w : Warp) : (s.setMe w).me = w := tget_tset_same ..

@[simp] theorem State.me_modMe (g : Warp → Warp) : (s.modMe g).me = g s.me := tget_tset_same ..

@[simp] theorem State.me_fresh : s.fresh.me = s.me := rfl

@[simp] theorem State.byteAt_setMe (w : Warp) (a : Nat) : (s.setMe w).byteAt a = s.byteAt a := rfl

@[simp] theorem State.byteAt_modMe (g : Warp → Warp) (a : Nat) : (s.modMe g).byteAt a = s.byteAt a := rfl

/-- A write of the current warp after another one replaces it. -/
theorem tdrop_tput_self {α : Type} (t : Tbl α) (k : Nat) (v : α) (h : ∀ x ∈ t, x.1 ≠ k) : tdrop (tput t k v) k = t := by
  have away : ∀ u : Tbl α, (∀ x ∈ u, x.1 ≠ k) → tdrop u k = u := fun u => by induction u <;> grind [tdrop]
  induction t <;> grind [tput, tdrop]

theorem tdrop_tdrop {α : Type} (t : Tbl α) (k : Nat) : tdrop (tdrop t k) k = tdrop t k := by
  induction t <;> grind [tdrop]

theorem tset_tset {α : Type} [DecidableEq α] (d : α) (t : Tbl α) (k : Nat) (v w : α) :
    tset d (tset d t k v) k w = tset d t k w := by
  have away := mem_tdrop t k
  grind [tset, tdrop_tput_self, tdrop_tdrop]

@[simp] theorem State.setMe_setMe (v w : Warp) : (s.setMe v).setMe w = s.setMe w := by
  simp only [State.setMe, State.setWarp, tset_tset]

@[simp] theorem State.modMe_modMe (g h : Warp → Warp) : (s.modMe g).modMe h = s.modMe fun w => h (g w) := by
  rw [State.modMe, State.me_modMe, State.modMe, State.setMe_setMe, State.modMe]

@[simp] theorem State.setMe_modMe (g : Warp → Warp) (w : Warp) : (s.modMe g).setMe w = s.setMe w := by
  rw [State.modMe, State.setMe_setMe]

end Sys2Proof.Machine
end

