-- ==== Sys2Proof/Laws/Access.lean ====
section
/-! SUPPORT. What the lines of a memory access may change of the machine. -/

namespace Sys2Proof.Machine

/-- What the lines of an access may change: the current warp's outstanding work, monitors, L1 copies and TLBs, directory
entries, poison, requests, parked comparisons and memory. -/
structure Touched (s t : State) : Prop where
  machine : t = { s with
    warps := t.warps, cores := t.cores, lines := t.lines, reqs := t.reqs, paths := t.paths, watches := t.watches
    hostOps := t.hostOps, mem := t.mem, nextId := t.nextId }
  warp : t.me = { s.me with outs := t.me.outs, stq := t.me.stq, monitor := t.me.monitor }
  others : ∀ x, x ≠ s.cur → t.warp x = { s.warp x with monitor := (t.warp x).monitor }
  cores : ∀ c, t.core c = { s.core c with l1 := (t.core c).l1, tlb := (t.core c).tlb }
  lines : ∀ n, t.line n = { s.line n with holders := (t.line n).holders, poison := (t.line n).poison }

theorem Touched.cur {s t : State} (h : Touched s t) : t.cur = s.cur := by rw [h.machine]

theorem Touched.refl (s : State) : Touched s s := ⟨rfl, rfl, fun _ _ => rfl, fun _ => rfl, fun _ => rfl⟩

theorem Touched.trans {s t u : State} (h : Touched s t) (g : Touched t u) : Touched s u := by
  refine ⟨?_, ?_, fun x hx => ?_, fun c => ?_, fun n => ?_⟩
  · have := g.machine; rw [h.machine] at this; rw [this]
  · have := g.warp; rw [h.warp] at this; rw [this]
  · have := g.others x (by rw [h.cur]; exact hx); rw [h.others x hx] at this; rw [this]
  · have := g.cores c; rw [h.cores c] at this; rw [this]
  · have := g.lines n; rw [h.lines n] at this; rw [this]

theorem Touched.foldl {α : Type} (g : State → α → State) (hg : ∀ s x, Touched s (g s x)) (xs : List α) (s : State) :
    Touched s (xs.foldl g s) := by
  induction xs generalizing s with
  | nil => exact .refl s
  | cons x xs ih => exact (hg s x).trans (ih _)

theorem touched_mem (s : State) (m : Tbl Byte) : Touched s { s with mem := m } :=
  ⟨rfl, rfl, fun _ _ => rfl, fun _ => rfl, fun _ => rfl⟩

theorem touched_watches (s : State) (w : List Watch) : Touched s { s with watches := w } :=
  ⟨rfl, rfl, fun _ _ => rfl, fun _ => rfl, fun _ => rfl⟩

theorem touched_fresh (s : State) : Touched s s.fresh := ⟨rfl, rfl, fun _ _ => rfl, fun _ => rfl, fun _ => rfl⟩

theorem touched_modL1 (s : State) (core line : Nat) (g : L1Line → L1Line) : Touched s (s.modL1 core line g) := by
  refine ⟨rfl, rfl, fun _ _ => rfl, fun c => ?_, fun _ => rfl⟩
  unfold State.modL1
  by_cases h : c = core
  · subst h; simp
  · rw [State.core_modCore, if_neg h]

theorem touched_modHold (s : State) (line core : Nat) (g : Hold → Hold) : Touched s (s.modHold line core g) := by
  refine ⟨rfl, rfl, fun _ _ => rfl, fun _ => rfl, fun n => ?_⟩
  unfold State.modHold
  by_cases h : n = line
  · subst h; simp
  · rw [State.line_modLine, if_neg h]

theorem touched_poison (s : State) (line : Nat) (p : Mask) : Touched s (s.modLine line fun x => { x with poison := p }) := by
  refine ⟨rfl, rfl, fun _ _ => rfl, fun _ => rfl, fun n => ?_⟩
  by_cases h : n = line
  · subst h; simp
  · rw [State.line_modLine, if_neg h]

/-- Monitors alone change. -/
theorem touched_monitors (s : State) (g : Nat → Warp → Warp) (hd : ∀ k, g k {} = {})
    (hg : ∀ k w, g k w = { w with monitor := (g k w).monitor }) :
    Touched s { s with warps := tmap {} g s.warps } := by
  have hw (x : Nat) : ({ s with warps := tmap {} g s.warps } : State).warp x = g x (s.warp x) := tget_tmap _ _ _ _ (hd x)
  refine ⟨rfl, ?_, fun x _ => ?_, fun _ => rfl, fun _ => rfl⟩
  · show ({ s with warps := tmap {} g s.warps } : State).warp s.cur = _
    unfold State.me
    rw [hw, hg]
  · rw [hw, hg]

theorem touched_fire (s : State) (writer : Option Nat) (line : Nat) : Touched s (s.fire writer line) := by
  refine touched_monitors s _ (fun k => ?_) fun k w => ?_
  · split <;> rfl
  · split
    · rfl
    · split
      · split <;> rfl
      · rfl

theorem touched_fireCore (s : State) (core line : Nat) : Touched s (s.fireCore core line) := by
  refine touched_monitors s _ (fun k => ?_) fun k w => ?_
  · split <;> rfl
  · split
    · split
      · split <;> rfl
      · rfl
    · rfl

theorem touched_dropCopy (s : State) (core line : Nat) : Touched s (s.dropCopy core line) :=
  ((touched_modHold ..).trans (touched_modL1 ..)).trans (touched_fireCore ..)

theorem touched_push (s : State) (r : Request) : Touched s (s.push r) := by
  unfold State.push
  dsimp only
  split <;> exact ⟨rfl, rfl, fun _ _ => rfl, fun _ => rfl, fun _ => rfl⟩

theorem touched_send (s : State) (r : Request) : Touched s (s.send r) := by
  unfold State.send
  split
  · exact ⟨rfl, rfl, fun _ _ => rfl, fun _ => rfl, fun _ => rfl⟩
  · exact touched_push ..

theorem touched_writeFor (s : State) (writer : Option Nat) (key n v : Nat) : Touched s (s.writeFor writer key n v) := by
  unfold State.writeFor
  exact ((touched_mem s _).trans (touched_watches _ _)).trans (touched_fire ..)

theorem touched_laneAct (s : State) (warp : Nat) (copy : Option L1Line) (o : LaneOp) : Touched s (s.laneAct warp copy o).s := by
  unfold State.laneAct
  split <;> first | exact .refl s | exact touched_writeFor .. | skip
  dsimp only
  split
  · exact touched_writeFor ..
  · exact .refl s

/-- The current warp's outstanding work alone changes. -/
theorem touched_work (s : State) (g : Warp → Warp) (hg : ∀ w, g w = { w with outs := (g w).outs, stq := (g w).stq }) :
    Touched s (s.modWarp s.cur g) := by
  refine ⟨rfl, ?_, fun x hx => ?_, fun _ => rfl, fun _ => rfl⟩
  · have e : (s.modWarp s.cur g).me = g s.me := State.warp_modWarp_same ..
    rw [e, hg s.me]
  · rw [State.warp_modWarp, if_neg hx]

theorem touched_actAll (own : Nat) (copy : Option L1Line) (os : List LaneOp) (s : State) :
    Touched s (s.actAll s.cur own copy os).1 := by
  induction os generalizing s with
  | nil => exact .refl s
  | cons o os ih =>
    unfold State.actAll
    dsimp only
    have h1 := touched_laneAct s s.cur copy o
    have h2 := touched_work (s.laneAct s.cur copy o).s (fun w => (w.fill own (s.laneAct s.cur copy o).vals
      (s.laneAct s.cur copy o).flags).fillStore own
      (if w.outs.any fun x => x.id == own then 0#6 else (s.laneAct s.cur copy o).flags)) fun _ => rfl
    rw [h1.cur] at h2
    have h3 := h1.trans h2
    refine h3.trans ?_
    have := ih ((s.laneAct s.cur copy o).s.modWarp s.cur fun w => (w.fill own (s.laneAct s.cur copy o).vals
      (s.laneAct s.cur copy o).flags).fillStore own
      (if w.outs.any fun x => x.id == own then 0#6 else (s.laneAct s.cur copy o).flags))
    rw [h3.cur] at this
    exact this

theorem touched_loadLine (s : State) (v : Via) (line : Nat) (os : List LaneOp) : Touched s (s.loadLine v line os) := by
  unfold State.loadLine
  dsimp only
  generalize s.l1 (keyCore s.cur) (if v.tracked = true then line else ncKey line) = x
  generalize (if v.tracked = true then none else some x) = copy
  split
  · exact touched_actAll ..
  · exact (touched_actAll ..).trans (touched_push ..)

theorem touched_storeLine (s : State) (v : Via) (line : Nat) (os : List LaneOp) : Touched s (s.storeLine v line os) := by
  unfold State.storeLine
  dsimp only
  split
  · split
    · exact ((touched_actAll ..).trans (touched_poison ..)).trans (touched_modL1 ..)
    · exact (touched_actAll ..).trans (touched_modL1 ..)
  · exact touched_push ..

/-- Every line of a word. -/
theorem touched_eachLine (s : State) (ps : List (Addr × Phys)) (ops : List LaneOp)
    (g : State → Nat → List LaneOp → Phys → State) (hg : ∀ s l os p, Touched s (g s l os p)) : Touched s (s.eachLine ps ops g) := by
  unfold State.eachLine
  refine Touched.foldl _ (fun t x => ?_) _ s
  split
  · exact hg ..
  · exact .refl t

theorem touched_noteTlb (s : State) (core c : Nat) (va : Dword) : Touched s (s.noteTlb core c va) := by
  unfold State.noteTlb
  split
  · split
    · refine ⟨rfl, rfl, fun _ _ => rfl, fun x => ?_, fun _ => rfl⟩
      by_cases h : x = core
      · subst h; simp
      · rw [State.core_modCore, if_neg h]
    · exact .refl s
  · exact .refl s

theorem touched_noteAll (s : State) (w : Warp) (g : GReg) (as : List Addr) (n : Nat) : Touched s (s.noteAll w g as n) := by
  unfold State.noteAll
  generalize keyCore s.cur = c
  exact Touched.foldl (fun t (a : Addr) => t.noteTlb c w.ctx a.va) (fun t a => touched_noteTlb t c w.ctx a.va) _ s

end Sys2Proof.Machine
end

