-- ==== Sys2Proof/Laws/Encode.lean ====
section
/-! SUPPORT. The encoder and the decoder field by field: what the decoder's fields read of a word that the encoder has
made, and what the encoder makes of fields that the decoder has read. -/

namespace Sys2Proof

theorem extract_high {v w : Nat} (x : BitVec v) (y : BitVec w) (lo n : Nat) (h : w ≤ lo) :
    (x ++ y).extractLsb' lo n = x.extractLsb' (lo - w) n := BitVec.extractLsb'_append_eq_of_le h

theorem extract_low {v w : Nat} (x : BitVec v) (y : BitVec w) (lo n : Nat) (h : lo + n ≤ w) :
    (x ++ y).extractLsb' lo n = y.extractLsb' lo n := BitVec.extractLsb'_append_eq_of_add_le h

/-- Every operand has a code of its own (R57). -/
theorem operandOf_code (o : Operand) : operandOf (operandCode o) = some o := by
  rcases o with n | n | n | n | x | _
  · have h : operandCode (.v n) = BitVec.ofNat 9 n.val := rfl
    have hn : (BitVec.ofNat 9 n.val).toNat = n.val := by simp; omega
    rw [h, operandOf, hn, if_pos (by omega)]
    exact congrArg (fun x => some (Operand.v x)) (Fin.ext (Nat.mod_eq_of_lt n.isLt))
  · have h : operandCode (.s n) = BitVec.ofNat 9 (0x100 + n.val) := rfl
    have hn : (BitVec.ofNat 9 (0x100 + n.val)).toNat = 0x100 + n.val := by simp; omega
    rw [h, operandOf, hn, if_neg (by omega), if_pos (by omega), Nat.add_sub_cancel_left]
    exact congrArg (fun x => some (Operand.s x)) (Fin.ext (Nat.mod_eq_of_lt n.isLt))
  · exact (by decide +kernel : ∀ n : Fin 32, operandOf (operandCode (.imm n)) = some (.imm n)) n
  · exact (by decide +kernel : ∀ n : Fin 16, operandOf (operandCode (.fp n)) = some (.fp n)) n
  · cases x <;> decide +kernel
  · decide +kernel

theorem specialCode_of (n : Nat) (x : Special) (h : specialOf n = some x) : specialCode x = n := by
  unfold specialOf at h
  split at h <;> cases h <;> rfl

/-- A code that names an operand is that operand's code. -/
theorem code_operandOf (c : BitVec 9) (o : Operand) (h : operandOf c = some o) : operandCode o = c := by
  have hc := c.isLt
  unfold operandOf at h
  split at h
  · cases h
    apply BitVec.eq_of_toNat_eq
    simp [operandCode, Fin.ofNat]
    omega
  split at h
  · cases h
    apply BitVec.eq_of_toNat_eq
    simp [operandCode, Fin.ofNat]
    omega
  split at h
  · cases h
    apply BitVec.eq_of_toNat_eq
    simp [operandCode, Fin.ofNat]
    omega
  split at h
  · cases h
    apply BitVec.eq_of_toNat_eq
    simp [operandCode, Fin.ofNat]
    omega
  split at h
  · obtain ⟨x, hx, rfl⟩ := Option.map_eq_some_iff.1 h
    apply BitVec.eq_of_toNat_eq
    simp [operandCode, specialCode_of _ _ hx]
    omega
  split at h
  · cases h
    apply BitVec.eq_of_toNat_eq
    simp [operandCode]
    omega
  · cases h

/-- The common fields of an encoded word (R56). -/
theorem ctlOf_encode (x : View) : ctlOf (encodeView x) = x.ctl := by
  obtain ⟨op, k, b⟩ := x
  obtain ⟨sw, g, gp, n⟩ := k
  unfold ctlOf encodeView field
  simp only [Ctl.mk.injEq]
  refine ⟨?_, ?_, ?_, ?_⟩
  · simp only [BitVec.getLsbD_append]; simp
  · simp only [BitVec.getLsbD_append]; simp
  · show BitVec.extractLsb' (n := 1 + 1 + 4 + 1 + 8 + 49) 58 4 _ = gp
    simp (disch := decide) only [extract_high, extract_low, Nat.reduceSub, BitVec.extractLsb'_eq_self]
  · simp only [BitVec.getLsbD_append]; simp

theorem op_encode (x : View) : field (encodeView x) 49 8 = BitVec.ofNat 8 x.op := by
  unfold encodeView field
  show BitVec.extractLsb' (n := 1 + 1 + 4 + 1 + 8 + 49) 49 8 _ = _
  simp (disch := decide) only [extract_high, extract_low, Nat.reduceSub, BitVec.extractLsb'_eq_self]

/-- A field below bit 49 of an encoded word is the body's. -/
theorem field_encode (x : View) (lo n : Nat) (h : lo + n ≤ 49) :
    field (encodeView x) lo n = (encodeBody x.body).extractLsb' lo n := by
  unfold encodeView field
  exact extract_low _ _ lo n h

theorem vOf_encode (op : Nat) (k : Ctl) (f : VFields) : vOf (encodeView ⟨op, k, .v f⟩) = some f := by
  have h (lo n) (hl : lo + n ≤ 49) := field_encode ⟨op, k, .v f⟩ lo n hl
  have e : encodeBody (.v f) = (operandCode f.d ++ operandCode f.a ++ operandCode f.b ++ operandCode f.c ++ f.ty ++ f.minor ++ f.mod :
    BitVec (9 + 9 + 9 + 9 + 4 + 5 + 4)) := rfl
  simp only [e] at h
  unfold vOf
  simp (disch := decide) only [h, extract_high, extract_low, Nat.reduceSub, BitVec.extractLsb'_eq_self, operandOf_code]
  rfl

theorem kOf_encode (op : Nat) (k : Ctl) (f : KFields) : kOf (encodeView ⟨op, k, .k f⟩) = some f := by
  have h (lo n) (hl : lo + n ≤ 49) := field_encode ⟨op, k, .k f⟩ lo n hl
  have e : encodeBody (.k f) = (operandCode f.d ++ f.func ++ f.imm : BitVec (9 + 8 + 32)) := rfl
  simp only [e] at h
  unfold kOf
  simp (disch := decide) only [h, extract_high, extract_low, Nat.reduceSub, BitVec.extractLsb'_eq_self, operandOf_code]
  rfl

theorem mOf_encode (op : Nat) (k : Ctl) (f : MFields) : mOf (encodeView ⟨op, k, .m f⟩) = some f := by
  have h (lo n) (hl : lo + n ≤ 49) := field_encode ⟨op, k, .m f⟩ lo n hl
  have e : encodeBody (.m f) = (operandCode f.data ++ f.greg ++ operandCode f.off ++ f.imm12 ++ f.size ++ f.hint ++ f.order ++
    f.scope ++ f.minor : BitVec (9 + 3 + 9 + 12 + 3 + 3 + 2 + 4 + 4)) := rfl
  simp only [e] at h
  unfold mOf
  simp (disch := decide) only [h, extract_high, extract_low, Nat.reduceSub, BitVec.extractLsb'_eq_self, operandOf_code]
  rfl

theorem cOf_encode (op : Nat) (k : Ctl) (f : CFields) : cOf (encodeView ⟨op, k, .c f⟩) = some f := by
  have h (lo n) (hl : lo + n ≤ 49) := field_encode ⟨op, k, .c f⟩ lo n hl
  have e : encodeBody (.c f) = (operandCode f.src ++ f.func ++ f.target : BitVec (9 + 8 + 32)) := rfl
  simp only [e] at h
  unfold cOf
  simp (disch := decide) only [h, extract_high, extract_low, Nat.reduceSub, BitVec.extractLsb'_eq_self, operandOf_code]
  rfl

theorem eOf_encode (op : Nat) (k : Ctl) (f : EFields) : eOf (encodeView ⟨op, k, .e f⟩) = some f := by
  have h (lo n) (hl : lo + n ≤ 49) := field_encode ⟨op, k, .e f⟩ lo n hl
  have e : encodeBody (.e f) = (operandCode f.d ++ operandCode f.a ++ operandCode f.b ++ f.fold ++ f.func :
    BitVec (9 + 9 + 9 + 6 + 16)) := rfl
  simp only [e] at h
  unfold eOf
  simp (disch := decide) only [h, extract_high, extract_low, Nat.reduceSub, BitVec.extractLsb'_eq_self, operandOf_code]
  rfl

theorem xOf_encode (op : Nat) (k : Ctl) (f : XFields) : xOf (encodeView ⟨op, k, .x f⟩) = some f := by
  have h (lo n) (hl : lo + n ≤ 49) := field_encode ⟨op, k, .x f⟩ lo n hl
  have e : encodeBody (.x f) = (f.q ++ f.ap ++ f.bp ++ f.lp ++ f.mt ++ f.func : BitVec (4 + 7 + 7 + 7 + 8 + 16)) := rfl
  simp only [e] at h
  unfold xOf
  simp (disch := decide) only [h, extract_high, extract_low, Nat.reduceSub, BitVec.extractLsb'_eq_self]

theorem pOf_encode (k : Ctl) (f : PairFields) : pOf (encodeView ⟨0xF0 + f.opA.toNat, k, .p f⟩) = some f := by
  have h (lo n) (hl : lo + n ≤ 49) := field_encode ⟨0xF0 + f.opA.toNat, k, .p f⟩ lo n hl
  have e : encodeBody (.p f) = (f.dA ++ f.aA ++ f.bA ++ f.opB ++ f.dB ++ f.aB ++ f.bB ++ f.z :
    BitVec (7 + 7 + 8 + 4 + 7 + 7 + 8 + 1)) := rfl
  simp only [e] at h
  have ho : field (encodeView ⟨0xF0 + f.opA.toNat, k, .p f⟩) 49 4 = f.opA := by
    have := op_encode ⟨0xF0 + f.opA.toNat, k, .p f⟩
    have h2 : field (encodeView ⟨0xF0 + f.opA.toNat, k, .p f⟩) 49 4 =
        (field (encodeView ⟨0xF0 + f.opA.toNat, k, .p f⟩) 49 8).extractLsb' 0 4 := by
      unfold field
      apply BitVec.eq_of_getLsbD_eq
      intro i hi
      simp only [BitVec.getLsbD_extractLsb', Nat.zero_add, hi, decide_true, Bool.true_and]
      rw [show (decide (i < 8)) = true by simp; omega, Bool.true_and]
    rw [h2, this]
    apply BitVec.eq_of_toNat_eq
    have := f.opA.isLt
    simp
    omega
  unfold pOf
  simp (disch := decide) only [ho, h, extract_high, extract_low, Nat.reduceSub, BitVec.extractLsb'_eq_self]

/-- Two neighbouring fields of a word are one field. -/
theorem field_join (w : Dword) (lo n m : Nat) : field w (lo + m) n ++ field w lo m = field w lo (n + m) := by
  unfold field
  apply BitVec.eq_of_getLsbD_eq
  intro i hi
  simp only [BitVec.getLsbD_append, BitVec.getLsbD_extractLsb']
  split
  · rename_i h
    simp [h, hi]
  · rename_i h
    rw [show lo + m + (i - m) = lo + i by omega]
    have : i - m < n := by omega
    simp [this, hi]

/-- The bits that no format has are the common fields; the rest of a word is its body. -/
theorem encodeView_of (w : Dword) (op : Nat) (b : Body) (ho : BitVec.ofNat 8 op = field w 49 8)
    (hb : encodeBody b = field w 0 49) : encodeView ⟨op, ctlOf w, b⟩ = w := by
  unfold encodeView
  simp only [ho, hb]
  have h1 (i : Nat) : BitVec.ofBool (w.getLsbD i) = field w i 1 := by
    unfold field
    apply BitVec.eq_of_getLsbD_eq
    intro j hj
    have : j = 0 := by omega
    subst this
    simp
  show (((((BitVec.ofBool (w.getLsbD 63) ++ BitVec.ofBool (w.getLsbD 62)) ++ field w 58 4) ++ BitVec.ofBool (w.getLsbD 57)) ++
    field w 49 8) ++ field w 0 49) = w
  rw [h1, h1, h1]
  show (((((field w (62 + 1) 1 ++ field w 62 1) ++ field w 58 4) ++ field w 57 1) ++ field w 49 8) ++ field w 0 49) = w
  rw [field_join w 62]
  show ((((field w (58 + 4) (1 + 1) ++ field w 58 4) ++ field w 57 1) ++ field w 49 8) ++ field w 0 49) = w
  rw [field_join w 58]
  show (((field w (57 + 1) (1 + 1 + 4) ++ field w 57 1) ++ field w 49 8) ++ field w 0 49) = w
  rw [field_join w 57]
  show ((field w (49 + 8) (1 + 1 + 4 + 1) ++ field w 49 8) ++ field w 0 49) = w
  rw [field_join w 49]
  exact (field_join w 0 _ 49).trans BitVec.extractLsb'_eq_self

theorem vOf_body (w : Dword) (f : VFields) (h : vOf w = some f) : encodeBody (.v f) = field w 0 49 := by
  unfold vOf at h
  simp only [Option.bind_eq_bind, Option.bind_eq_some_iff, Option.pure_def, Option.some.injEq] at h
  obtain ⟨d, hd, a, ha, b, hb, c, hc, rfl⟩ := h
  unfold encodeBody
  simp only [code_operandOf _ _ hd, code_operandOf _ _ ha, code_operandOf _ _ hb, code_operandOf _ _ hc]
  show (((((field w (31 + 9) (9) ++ field w 31 9) ++ field w 22 9) ++ field w 13 9) ++ field w 9 4) ++ field w 4 5) ++ field w 0 4 = _
  rw [field_join w 31]
  show ((((field w (22 + 9) (9 + 9) ++ field w 22 9) ++ field w 13 9) ++ field w 9 4) ++ field w 4 5) ++ field w 0 4 = _
  rw [field_join w 22]
  show (((field w (13 + 9) (9 + 9 + 9) ++ field w 13 9) ++ field w 9 4) ++ field w 4 5) ++ field w 0 4 = _
  rw [field_join w 13]
  show ((field w (9 + 4) (9 + 9 + 9 + 9) ++ field w 9 4) ++ field w 4 5) ++ field w 0 4 = _
  rw [field_join w 9]
  show (field w (4 + 5) (9 + 9 + 9 + 9 + 4) ++ field w 4 5) ++ field w 0 4 = _
  rw [field_join w 4]
  exact field_join w 0 _ 4

theorem kOf_body (w : Dword) (f : KFields) (h : kOf w = some f) : encodeBody (.k f) = field w 0 49 := by
  unfold kOf at h
  simp only [Option.bind_eq_bind, Option.bind_eq_some_iff, Option.pure_def, Option.some.injEq] at h
  obtain ⟨d, hd, rfl⟩ := h
  unfold encodeBody
  simp only [code_operandOf _ _ hd]
  show (field w (32 + 8) (9) ++ field w 32 8) ++ field w 0 32 = _
  rw [field_join w 32]
  exact field_join w 0 _ 32

theorem mOf_body (w : Dword) (f : MFields) (h : mOf w = some f) : encodeBody (.m f) = field w 0 49 := by
  unfold mOf at h
  simp only [Option.bind_eq_bind, Option.bind_eq_some_iff, Option.pure_def, Option.some.injEq] at h
  obtain ⟨data, hdata, off, hoff, rfl⟩ := h
  unfold encodeBody
  simp only [code_operandOf _ _ hdata, code_operandOf _ _ hoff]
  show (((((((field w (37 + 3) (9) ++ field w 37 3) ++ field w 28 9) ++ field w 16 12) ++ field w 13 3) ++ field w 10 3) ++ field w 8 2) ++ field w 4 4) ++ field w 0 4 = _
  rw [field_join w 37]
  show ((((((field w (28 + 9) (9 + 3) ++ field w 28 9) ++ field w 16 12) ++ field w 13 3) ++ field w 10 3) ++ field w 8 2) ++ field w 4 4) ++ field w 0 4 = _
  rw [field_join w 28]
  show (((((field w (16 + 12) (9 + 3 + 9) ++ field w 16 12) ++ field w 13 3) ++ field w 10 3) ++ field w 8 2) ++ field w 4 4) ++ field w 0 4 = _
  rw [field_join w 16]
  show ((((field w (13 + 3) (9 + 3 + 9 + 12) ++ field w 13 3) ++ field w 10 3) ++ field w 8 2) ++ field w 4 4) ++ field w 0 4 = _
  rw [field_join w 13]
  show (((field w (10 + 3) (9 + 3 + 9 + 12 + 3) ++ field w 10 3) ++ field w 8 2) ++ field w 4 4) ++ field w 0 4 = _
  rw [field_join w 10]
  show ((field w (8 + 2) (9 + 3 + 9 + 12 + 3 + 3) ++ field w 8 2) ++ field w 4 4) ++ field w 0 4 = _
  rw [field_join w 8]
  show (field w (4 + 4) (9 + 3 + 9 + 12 + 3 + 3 + 2) ++ field w 4 4) ++ field w 0 4 = _
  rw [field_join w 4]
  exact field_join w 0 _ 4

theorem cOf_body (w : Dword) (f : CFields) (h : cOf w = some f) : encodeBody (.c f) = field w 0 49 := by
  unfold cOf at h
  simp only [Option.bind_eq_bind, Option.bind_eq_some_iff, Option.pure_def, Option.some.injEq] at h
  obtain ⟨src, hsrc, rfl⟩ := h
  unfold encodeBody
  simp only [code_operandOf _ _ hsrc]
  show (field w (32 + 8) (9) ++ field w 32 8) ++ field w 0 32 = _
  rw [field_join w 32]
  exact field_join w 0 _ 32

theorem eOf_body (w : Dword) (f : EFields) (h : eOf w = some f) : encodeBody (.e f) = field w 0 49 := by
  unfold eOf at h
  simp only [Option.bind_eq_bind, Option.bind_eq_some_iff, Option.pure_def, Option.some.injEq] at h
  obtain ⟨d, hd, a, ha, b, hb, rfl⟩ := h
  unfold encodeBody
  simp only [code_operandOf _ _ hd, code_operandOf _ _ ha, code_operandOf _ _ hb]
  show (((field w (31 + 9) (9) ++ field w 31 9) ++ field w 22 9) ++ field w 16 6) ++ field w 0 16 = _
  rw [field_join w 31]
  show ((field w (22 + 9) (9 + 9) ++ field w 22 9) ++ field w 16 6) ++ field w 0 16 = _
  rw [field_join w 22]
  show (field w (16 + 6) (9 + 9 + 9) ++ field w 16 6) ++ field w 0 16 = _
  rw [field_join w 16]
  exact field_join w 0 _ 16

theorem xOf_body (w : Dword) (f : XFields) (h : xOf w = some f) : encodeBody (.x f) = field w 0 49 := by
  unfold xOf at h
  cases h
  unfold encodeBody
  show ((((field w (38 + 7) (4) ++ field w 38 7) ++ field w 31 7) ++ field w 24 7) ++ field w 16 8) ++ field w 0 16 = _
  rw [field_join w 38]
  show (((field w (31 + 7) (4 + 7) ++ field w 31 7) ++ field w 24 7) ++ field w 16 8) ++ field w 0 16 = _
  rw [field_join w 31]
  show ((field w (24 + 7) (4 + 7 + 7) ++ field w 24 7) ++ field w 16 8) ++ field w 0 16 = _
  rw [field_join w 24]
  show (field w (16 + 8) (4 + 7 + 7 + 7) ++ field w 16 8) ++ field w 0 16 = _
  rw [field_join w 16]
  exact field_join w 0 _ 16

theorem pOf_body (w : Dword) (f : PairFields) (h : pOf w = some f) : encodeBody (.p f) = field w 0 49 := by
  unfold pOf at h
  cases h
  unfold encodeBody
  show ((((((field w (35 + 7) (7) ++ field w 35 7) ++ field w 27 8) ++ field w 23 4) ++ field w 16 7) ++ field w 9 7) ++ field w 1 8) ++ field w 0 1 = _
  rw [field_join w 35]
  show (((((field w (27 + 8) (7 + 7) ++ field w 27 8) ++ field w 23 4) ++ field w 16 7) ++ field w 9 7) ++ field w 1 8) ++ field w 0 1 = _
  rw [field_join w 27]
  show ((((field w (23 + 4) (7 + 7 + 8) ++ field w 23 4) ++ field w 16 7) ++ field w 9 7) ++ field w 1 8) ++ field w 0 1 = _
  rw [field_join w 23]
  show (((field w (16 + 7) (7 + 7 + 8 + 4) ++ field w 16 7) ++ field w 9 7) ++ field w 1 8) ++ field w 0 1 = _
  rw [field_join w 16]
  show ((field w (9 + 7) (7 + 7 + 8 + 4 + 7) ++ field w 9 7) ++ field w 1 8) ++ field w 0 1 = _
  rw [field_join w 9]
  show (field w (1 + 8) (7 + 7 + 8 + 4 + 7 + 7) ++ field w 1 8) ++ field w 0 1 = _
  rw [field_join w 1]
  exact field_join w 0 _ 1

end Sys2Proof
end

