-- ==== Sys2Proof/Laws/Engine.lean ====
section
/-! SUPPORT. What the shared operations of a core's engines leave: claims, traps at acceptance, and acceptance (R220, R285). -/

namespace Sys2Proof.Machine

/-- What claims may change of the machine: monitors, L1 copies, tiles, lines and numbers. -/
structure Claimed (s t : State) : Prop where
  machine : t = { s with warps := t.warps, cores := t.cores, lines := t.lines, nextId := t.nextId }
  warps : ∀ y, t.warp y = { s.warp y with monitor := (t.warp y).monitor }
  cores : ∀ c, t.core c = { s.core c with l1 := (t.core c).l1, tfu := (t.core c).tfu }

theorem Claimed.refl (s : State) : Claimed s s := ⟨rfl, fun _ => rfl, fun _ => rfl⟩

theorem Claimed.trans {s t u : State} (h : Claimed s t) (g : Claimed t u) : Claimed s u := by
  refine ⟨?_, fun y => ?_, fun c => ?_⟩
  · have := g.machine; rw [h.machine] at this; rw [this]
  · have := g.warps y; rw [h.warps y] at this; rw [this]
  · have := g.cores c; rw [h.cores c] at this; rw [this]

theorem Claimed.foldl {α : Type} (g : State → α → State) (hg : ∀ s x, Claimed s (g s x)) (xs : List α) (s : State) :
    Claimed s (xs.foldl g s) := by
  induction xs generalizing s with
  | nil => exact .refl s
  | cons x xs ih => exact (hg s x).trans (ih _)

theorem claimed_modCore (s : State) (core : Nat) (g : Core → Core) (h : ∀ c, g c = { c with l1 := (g c).l1, tfu := (g c).tfu }) :
    Claimed s (s.modCore core g) := by
  refine ⟨rfl, fun _ => rfl, fun c => ?_⟩
  by_cases hc : c = core
  · subst hc; rw [State.core_modCore_same]; exact h _
  · rw [State.core_modCore, if_neg hc]

theorem claimed_modLine (s : State) (line : Nat) (g : Line → Line) : Claimed s (s.modLine line g) :=
  ⟨rfl, fun _ => rfl, fun _ => rfl⟩

theorem claimed_monitors (s : State) (g : Nat → Warp → Warp) (hd : ∀ k, g k {} = {})
    (hg : ∀ k w, g k w = { w with monitor := (g k w).monitor }) : Claimed s { s with warps := tmap {} g s.warps } := by
  refine ⟨rfl, fun y => ?_, fun _ => rfl⟩
  show tget {} (tmap {} g s.warps) y = _
  simp only [State.warp, tget_tmap _ _ _ _ (hd y)]
  exact hg _ _

theorem claimed_fire (s : State) (writer : Option Nat) (line : Nat) : Claimed s (s.fire writer line) := by
  refine claimed_monitors s _ (fun k => ?_) fun k w => ?_
  · split <;> rfl
  · repeat' split
    all_goals rfl

theorem claimed_fireCore (s : State) (core line : Nat) : Claimed s (s.fireCore core line) := by
  refine claimed_monitors s _ (fun k => ?_) fun k w => ?_
  · split <;> rfl
  · repeat' split
    all_goals rfl

theorem claimed_dropTiles (s : State) (line : Nat) : Claimed s (s.dropTiles line) := by
  have core (c : Nat) : (s.dropTiles line).core c =
      { s.core c with tfu := (s.core c).tfu.filter fun e => !(!e.kept && e.knows line) } := tget_tmap _ _ _ _ rfl
  exact ⟨rfl, fun _ => rfl, fun c => by rw [core]⟩

theorem claimed_invalidate (s : State) (except : Option Nat) (line : Nat) (span : Mask) :
    Claimed s (s.invalidate except line span) := by
  refine (claimed_dropTiles s line).trans (.foldl _ (fun t h => ?_) _ _)
  split
  · exact .refl t
  · exact ((claimed_modLine t line _).trans (claimed_modCore _ _ _ fun _ => rfl)).trans (claimed_fireCore _ _ _)

theorem claimed_writeBack (s : State) (core line : Nat) : Claimed s (s.writeBack core line) := by
  unfold State.writeBack
  split
  · exact .refl s
  · exact ((claimed_modCore s core _ fun _ => rfl).trans (claimed_modLine _ line _)).trans (claimed_fire _ _ _)

/-- A claim moves copies, and writes nothing (R220). -/
theorem claimed_claim (s : State) (core id line : Nat) : Claimed s (s.claim core id line) := by
  have drain : Claimed s (s.drainNow (some core) line) := by
    unfold State.drainNow
    split
    · exact (Claimed.foldl _ (fun t l => claimed_writeBack t _ l) _ s).trans (claimed_modLine _ _ _)
    · exact .refl s
  exact ((drain.trans (claimed_invalidate _ none line _)).trans (claimed_modLine _ line _)).trans ⟨rfl, fun _ => rfl, fun _ => rfl⟩

/-- What a word leaves behind that leaves acceptance: nothing is wanted for it. -/
theorem leaveAcceptance_core (s : State) (core slot c : Nat) :
    ((s.leaveAcceptance core slot).core c) = { s.core c with tfu := ((s.leaveAcceptance core slot).core c).tfu } := by
  unfold State.leaveAcceptance State.modTfu
  simp only [State.core_modWarp]
  by_cases h : c = core
  · subst h; rw [State.core_modCore_same]
  · rw [State.core_modCore, if_neg h]

/-- A trap at acceptance has no other effect (R285). -/
theorem acceptTrapped {s : State} {core slot : Nat} {t : Trp} (hs : slot < 64) (h : s.cur = warpKey core slot)
    (hp : s.me.priv = false) : AcceptTrapped s ((s.leaveAcceptance core slot).takeTrap t) s.cur t := by
  have hp : (s.leaveAcceptance core slot).me.priv = false := by
    simpa [State.leaveAcceptance, State.me, h, State.modTfu] using hp
  unfold State.takeTrap State.takeTrapAt
  rw [if_neg (by simp [hp])]
  refine ⟨rfl, fun y hy => ?_, fun c => ?_, ?_⟩
  · simp [State.leaveAcceptance, State.modMe, State.setMe, State.warp_setWarp, State.warp_modWarp, State.modTfu, hy, ← h]
  · exact leaveAcceptance_core s core slot c
  · simp [State.leaveAcceptance, State.modMe, State.setMe, State.modTfu, ← h, State.me, Warp.trapEntry, laneKind, tcauseOf]
    grind

/-- A word is accepted once its claims can be made, as far as its moves ask for them at once (R285, R297, R348). -/
theorem accepted_accept {s : State} {core slot : Nat} {c : Captured} {e : EngWord} {ts : List TileReq} (hs : slot < 64)
    (h : s.cur = warpKey core slot)
    (hr : e.pieces = [] ∨ (e.claims.all fun l => s.mayClaim core s.nextId l e.unread) = true) :
    AcceptedAs s (s.accept c e ts) core s.cur c
      { e with id := s.nextId, slot, word := { c with got := [] }, batch := s.me.win.bseq
               pins := ts.map fun t => (t.key, t.swz)
               late := if e.pieces != [] then [] else s.lateLines core s.nextId e.claims e.unread } s.me.seeds := by
  have hk : keyCore s.cur = core ∧ keySlot s.cur = slot := by rw [h]; simp [keyCore, keySlot, warpKey]; omega
  have hn : ¬((e.pieces != []) = true ∧ (!e.claims.all fun l => s.mayClaim core s.nextId l e.unread) = true) := by
    rcases hr with hr | hr <;> simp [hr]
  unfold State.accept
  simp only [hk.1, hk.2, if_neg hn]
  generalize hl : (if (e.pieces != []) = true then [] else s.lateLines core s.nextId e.claims e.unread) = late
  generalize hu : State.modCore _ core _ = u
  have hf := Claimed.foldl (fun t l => t.claim core s.nextId l) (fun t l => claimed_claim t core s.nextId l)
    (e.claims.filter fun l => !late.contains l) u
  have hw : u.warp s.cur = { s.me with req := s.me.req.map fun r => { r with got := [] } } := by
    subst hu; simp [State.leaveAcceptance, State.modTfu, h, State.me]
  have hcur : u.cur = s.cur := by subst hu; rfl
  generalize hv : List.foldl _ u _ = v at hf ⊢
  have hvc : v.cur = s.cur := by rw [hf.machine]; exact hcur
  refine ⟨?_, h.symm, rfl, rfl, fun a => ?_, ?_⟩
  · have := hf.cores core
    simp only [State.modMe, State.setMe, State.core_setWarp]
    rw [this, ← hu, State.core_modCore_same]
    have hl := leaveAcceptance_core s.fresh core slot core
    generalize State.core (State.leaveAcceptance _ _ _) _ = y at hl ⊢
    rw [hl]
    rfl
  · have : v.mem = s.mem := by rw [hf.machine, ← hu]; rfl
    rw [State.byteAt_modMe, State.byteAt, this]
    rfl
  · have := hf.warps s.cur
    rw [hw] at this
    simp only [State.modMe, State.setMe, hvc, State.warp_setWarp_same, State.me]
    rw [this]
    simp [Warp.leaveEngine, Warp.advance, afterMark, State.me]
end Sys2Proof.Machine
end

