-- ==== Sys2Proof/Laws/Exec.lean ====
section
/-! SUPPORT. What exec answers, constructor by constructor: the common run of a word, or an event's next state. -/

namespace Sys2Proof.Machine

/-- An instruction word's meaning is the common run of its body. -/
theorem exec_word (i : Instr) (s : State) (x : Sys2Proof.View) (h : i.view = some x) :
    ∃ body, exec i s = issue s x.ctl i body := by
  cases i <;> cases h <;> (unfold exec; exact ⟨_, rfl⟩)

/-- Every event answers a next state. -/
theorem exec_event (i : Instr) (s : State) (h : i.view = none) : ∃ t, exec i s = .next t := by
  cases i <;> cases h <;> first
  | exact ⟨_, rfl⟩
  | (simp only [exec, execRegisterWriteComplete, execStorePerform, execHomeRequest, execDrainRequest, execDrainComplete,
      execFlushMarker, execWatchWake, execLookoutPoll]
     repeat' first | exact ⟨_, rfl⟩ | split
     done)
  | (simp only [exec, execProbeComplete, execSkidderLanding, execMulticastRegister, execMatrixAccept, execEngineWordStart,
      execAccumulatorWrite, execEngineWritesLanded]
     repeat' first | exact ⟨_, rfl⟩ | split
     done)
  | (simp only [exec, execTeamPop, execPost, execWithdraw, execWfetchLanding, execAtomicopCompletion,
      execMailboxUnitReadComplete]
     repeat' first | exact ⟨_, rfl⟩ | split)

/-- Every instruction answers a next state. -/
theorem exec_answers (i : Instr) (s : State) : ∃ t, exec i s = .next t := by
  cases h : i.view with
  | none => exact exec_event i s h
  | some x =>
    obtain ⟨body, hb⟩ := exec_word i s x h
    rw [hb]
    unfold issue
    cases gate s x.ctl i <;> exact ⟨_, rfl⟩

end Sys2Proof.Machine
end

