-- ==== Sys2Proof/Laws/Issue.lean ====
section
/-! SUPPORT. What the common run of a word answers, and what its shared ways of writing results do: one lemma for each
shared operation, which says everything that it can do. -/

namespace Sys2Proof.Machine

/-! ## Issue -/

theorem classMissing_eq_false (w : Warp) (i : Instr) (x : Sys2Proof.View) (h : i.view = some x) :
    classMissing w i = false ↔ ∀ b, classBit x.op = some b → w.cmask.getLsbD b = true := by
  unfold classMissing
  simp only [h]
  cases classBit x.op <;> simp

theorem Issues.gate {s : State} {k : Ctl} {i : Instr} (h : Issues s k i) : gate s k i = .go := by
  have bits : classMissing s.me i = false := by
    obtain ⟨x, hx⟩ := Option.isSome_iff_exists.1 h.isWord
    exact (classMissing_eq_false s.me i x hx).2 fun b => h.classBits x b hx
  cases h
  grind [Machine.gate]

/-- A word that issues does what its body says. -/
theorem issue_next {s : State} {k : Ctl} {i : Instr} (h : Issues s k i) (body : State → State) :
    issue s k i body = .next (body s) := by
  simp only [issue, h.gate]

/-- Whatever a word meets, its outcome is a next state: its body's, its trap's, or the same state. -/
theorem issue_cases (s : State) (k : Ctl) (i : Instr) (body : State → State) :
    issue s k i body = .next (body s) ∨ issue s k i body = .next s ∨ ∃ t, issue s k i body = .next (s.takeTrap t) := by
  unfold issue
  cases gate s k i with
  | go => exact .inl rfl
  | wait => exact .inr (.inl rfl)
  | trap t => exact .inr (.inr ⟨t, rfl⟩)

/-! ## Masks -/

theorem getLsbD_maskFold (p : Nat → Bool) (xs : List Nat) (m : Mask) (l : Nat) (hl : l < 32) :
    (xs.foldl (fun m l => if p l then m ||| (1#32 <<< l) else m) m).getLsbD l =
      (m.getLsbD l || (xs.contains l && p l)) := by
  induction xs generalizing m with
  | nil => simp
  | cons x xs ih => grind

/-- A mask of a test holds a lane as the test does. -/
theorem getLsbD_maskOf (p : Nat → Bool) (l : Nat) (hl : l < 32) : (maskOf p).getLsbD l = p l := by
  rw [maskOf, getLsbD_maskFold _ _ _ _ hl]
  simp [hl]

theorem mem_maskLanes (m : Mask) (l : Nat) : l ∈ maskLanes m ↔ l < 32 ∧ m.getLsbD l = true := by
  simp [maskLanes]

/-! ## Registers -/

/-- Keys of v-registers, s-registers and the supervisor bank: a put of one changes that register alone. -/
def RegKey (k : Nat) : Prop := k < 8448 ∨ (9100 ≤ k ∧ k < 9400)

theorem storeKey_regs (w : Warp) {k : Nat} (hk : k < 8448) (v : Word) :
    w.storeKey k v = { w with regs := tset 0#32 w.regs k v } := by
  unfold Warp.storeKey
  rw [if_neg (by omega), if_neg (by omega), if_neg (by omega)]

theorem storeKey_bank (w : Warp) {k : Nat} (h1 : 9100 ≤ k) (h2 : k < 9400) (v : Word) :
    w.storeKey k v = { w with bank := tset 0#32 w.bank k v } := by
  unfold Warp.storeKey
  rw [if_neg (by omega), if_pos h1]

theorem getKey_putKey (w : Warp) {k : Nat} (hk : RegKey k) (v : Word) (j : Nat) :
    (w.putKey k v).getKey j = if j = k then v else w.getKey j := by
  unfold Warp.putKey Warp.getKey
  rcases hk with hk | ⟨h1, h2⟩
  · rw [storeKey_regs _ hk]
    simp only [tget_tset]
    by_cases hj : j = k
    · subst hj
      rw [if_neg (by omega)]
      simp
    · simp only [hj, if_false]
  · rw [storeKey_bank _ h1 h2]
    simp only [tget_tset]
    by_cases hj : j = k
    · subst hj
      rw [if_pos ⟨h1, h2⟩]
      simp
    · simp only [hj, if_false]

/-- What a put of a register key leaves of a warp. -/
theorem putKey_frame (w : Warp) {k : Nat} (hk : RegKey k) (v : Word) :
    w.putKey k v = { w with
      regs := (w.putKey k v).regs, bank := (w.putKey k v).bank, outs := w.outs.map fun o => o.without k } := by
  unfold Warp.putKey
  rcases hk with hk | ⟨h1, h2⟩
  · rw [storeKey_regs _ hk]
  · rw [storeKey_bank _ h1 h2]

theorem regKey_v (n l : Nat) (hn : n < 257) (hl : l < 32) : RegKey (vKey n l) := by
  unfold RegKey vKey; omega

theorem regKey_s (w : Warp) (n : Nat) (hn : n < 129) : RegKey (w.sKey n) := by
  unfold RegKey Warp.sKey bankKey sKeyUser; split <;> omega

/-- The value that a list of writes leaves at a key: the last one's. -/
def lastWrite (ws : List (Nat × Word)) (j : Nat) (old : Word) : Word := ws.foldl (fun x p => if p.1 = j then p.2 else x) old

theorem getKey_putMany (ws : List (Nat × Word)) (w : Warp) (h : ∀ p ∈ ws, RegKey p.1) (j : Nat) :
    (w.putMany ws).getKey j = lastWrite ws j (w.getKey j) := by
  induction ws generalizing w with
  | nil => rfl
  | cons p ws ih =>
    obtain ⟨k, v⟩ := p
    rw [Warp.putMany, ih _ fun q hq => h q (by simp [hq]), getKey_putKey w (h (k, v) (by simp)) v j]
    unfold lastWrite
    rw [List.foldl_cons]
    congr 1
    by_cases e : j = k
    · simp [e]
    · simp [e, Ne.symm e]

/-- A write withdraws its register from what is outstanding; those after it withdraw theirs. -/
theorem without_filter (k : Nat) (ks : List Nat) (os : List Out) :
    ((os.map fun o => o.without k).map fun o => { o with tgts := o.tgts.filter fun t => !ks.contains t.key }) =
      os.map fun o => { o with tgts := o.tgts.filter fun t => !(k :: ks).contains t.key } := by
  rw [List.map_map]
  refine List.map_congr_left fun o _ => ?_
  have hf : ∀ t : Tgt, (!(k :: ks).contains t.key) = ((!ks.contains t.key) && (t.key != k)) := by
    intro t
    rw [List.contains_cons, Bool.not_or, Bool.and_comm]; rfl
  simp only [Function.comp, Out.without, List.filter_filter, hf]

/-- What a list of register writes leaves of a warp. -/
theorem putMany_frame (ws : List (Nat × Word)) (w : Warp) (h : ∀ p ∈ ws, RegKey p.1) :
    w.putMany ws = { w with
      regs := (w.putMany ws).regs, bank := (w.putMany ws).bank
      outs := w.outs.map fun o => { o with tgts := o.tgts.filter fun t => !(ws.map Prod.fst).contains t.key } } := by
  induction ws generalizing w with
  | nil => simp [Warp.putMany]
  | cons p ws ih =>
    obtain ⟨k, v⟩ := p
    rw [Warp.putMany, ih _ fun q hq => h q (by simp [hq])]
    rw [putKey_frame w (h (k, v) (by simp)) v]
    exact congrArg (fun os => ({ w with regs := _, bank := _, outs := os } : Warp)) (without_filter k _ w.outs)

theorem lastWrite_notMem (ws : List (Nat × Word)) (j : Nat) (old : Word) (h : j ∉ ws.map Prod.fst) :
    lastWrite ws j old = old := by
  induction ws generalizing old with
  | nil => rfl
  | cons p ws ih =>
    simp only [List.map_cons, List.mem_cons, not_or] at h
    unfold lastWrite
    rw [List.foldl_cons, if_neg (Ne.symm h.1)]
    exact ih old h.2

/-- Writes whose values depend on their keys alone leave that value. -/
theorem lastWrite_mem (ws : List (Nat × Word)) (j : Nat) (old : Word) (g : Word) (hm : j ∈ ws.map Prod.fst)
    (hg : ∀ p ∈ ws, p.1 = j → p.2 = g) : lastWrite ws j old = g := by
  induction ws generalizing old with
  | nil => simp at hm
  | cons p ws ih =>
    unfold lastWrite
    rw [List.foldl_cons]
    by_cases h : j ∈ ws.map Prod.fst
    · exact ih _ h fun q hq => hg q (by simp [hq])
    · simp only [List.map_cons, List.mem_cons] at hm
      have hp : p.1 = j := by rcases hm with h' | h'; exact h'.symm; exact absurd h' h
      rw [if_pos hp]
      have := lastWrite_notMem ws j p.2 h
      unfold lastWrite at this
      rw [this]
      exact hg p (by simp) hp

theorem lastWrite_outside (ws : List (Nat × Word)) (j : Nat) (old : Word) (h : ∀ p ∈ ws, p.1 ≠ j) :
    lastWrite ws j old = old := lastWrite_notMem ws j old fun hm => by
    obtain ⟨p, hp, e⟩ := List.mem_map.1 hm
    exact h p hp e

/-! ## The end of a word -/

/-- finish: the registers take their writes, FPSTAT the flags, and the word is done. -/
theorem finish_me (s : State) (k : Ctl) (ws : List (Nat × Word)) (fl : Flags) :
    (s.finish k ws fl).me = ((s.me.putMany ws).setFlags fl).advance k.sw := State.me_modMe ..

theorem finish_done (s : State) (k : Ctl) (ws : List (Nat × Word)) (fl : Flags) (h : ∀ p ∈ ws, RegKey p.1) :
    WordDone s (s.finish k ws fl) k := by
  refine ⟨?_, ?_⟩
  · rw [finish_me]; rfl
  · rw [finish_me, putMany_frame ws s.me h]
    rfl

theorem finish_others (s : State) (k : Ctl) (ws : List (Nat × Word)) (fl : Flags) (h : ∀ p ∈ ws, RegKey p.1) :
    OtherRegs s (s.finish k ws fl) (ws.map Prod.fst) := by
  refine ⟨fun key hk => ?_, ?_⟩
  · rw [finish_me]
    show (s.me.putMany ws).getKey key = _
    rw [getKey_putMany ws _ h, lastWrite_notMem ws key _ hk]
  · rw [finish_me, putMany_frame ws s.me h]
    rfl

theorem finish_getKey (s : State) (k : Ctl) (ws : List (Nat × Word)) (fl : Flags) (h : ∀ p ∈ ws, RegKey p.1) (j : Nat) :
    (s.finish k ws fl).me.getKey j = lastWrite ws j (s.me.getKey j) := by
  rw [finish_me]
  exact getKey_putMany ws _ h j

theorem finish_flags (s : State) (k : Ctl) (ws : List (Nat × Word)) (fl : Flags) (h : ∀ p ∈ ws, RegKey p.1) :
    (s.finish k ws fl).me.fpstat = s.me.fpstat ||| fl := by
  rw [finish_me, putMany_frame ws s.me h]
  rfl

theorem writes32_regKey (w : Warp) (k : Ctl) (d : Operand) (g : Nat → Word) : ∀ p ∈ writes32 w k d g, RegKey p.1 := by
  intro p hp
  unfold writes32 at hp
  split at hp
  · rename_i n
    simp only [List.mem_map, dstLanes] at hp
    obtain ⟨l, hl, rfl⟩ := hp
    exact regKey_v _ _ (by omega) ((mem_maskLanes _ _).1 hl).1
  · rename_i n
    split at hp
    · simp only [List.mem_singleton] at hp
      subst hp
      exact regKey_s _ _ (by omega)
    · simp at hp
  · simp at hp

theorem writes64_regKey (w : Warp) (k : Ctl) (d : Operand) (g : Nat → Dword) : ∀ p ∈ writes64 w k d g, RegKey p.1 := by
  intro p hp
  unfold writes64 at hp
  split at hp
  · rename_i n
    simp only [List.mem_flatMap, dstLanes, List.mem_cons, List.not_mem_nil, or_false] at hp
    obtain ⟨l, hl, rfl | rfl⟩ := hp
    · exact regKey_v _ _ (by omega) ((mem_maskLanes _ _).1 hl).1
    · exact regKey_v _ _ (by omega) ((mem_maskLanes _ _).1 hl).1
  · rename_i n
    split at hp
    · simp only [List.mem_cons, List.not_mem_nil, or_false] at hp
      rcases hp with rfl | rfl
      · exact regKey_s _ _ (by omega)
      · exact regKey_s _ _ (by omega)
    · simp at hp
  · simp at hp

theorem writes32_keys (w : Warp) (k : Ctl) (d : Operand) (g : Nat → Word) :
    (writes32 w k d g).map Prod.fst = wroteKeys w k d 1 := by
  cases d <;> simp only [writes32, wroteKeys, List.map_nil]
  · simp [dstKeys, dstLanes, Function.comp_def]
    induction maskLanes (w.eff k) with
    | nil => rfl
    | cons x xs ih => simp [ih]
  · split <;> simp [dstKeys]

theorem writes64_keys (w : Warp) (k : Ctl) (d : Operand) (g : Nat → Dword) :
    (writes64 w k d g).map Prod.fst = wroteKeys w k d 2 := by
  cases d <;> simp only [writes64, wroteKeys, List.map_nil]
  · simp [List.map_flatMap, dstKeys, dstLanes, List.range_succ]
  · split <;> simp [dstKeys, List.range_succ]

theorem vKey_inj {n l m j : Nat} (hl : l < 32) (hj : j < 32) (h : vKey n l = vKey m j) : n = m ∧ l = j := by
  unfold vKey at h; omega

theorem join_lo_hi (x : Dword) : joinWords (loWord x) (hiWord x) = x := by
  unfold joinWords loWord hiWord
  apply BitVec.eq_of_getLsbD_eq
  intro i hi
  simp only [BitVec.getLsbD_append, BitVec.getLsbD_setWidth, BitVec.getLsbD_ushiftRight]
  by_cases h : i < 32
  · simp [h]
  · simp only [h]
    rw [show 32 + (i - 32) = i by omega]
    simp
    omega

/-- A word that writes one 32-bit result for each lane. -/
theorem value32_wrote (s : State) (k : Ctl) (d : Operand) (g : Nat → Word × Flags) :
    Wrote32 s (s.value32 k d g) k d (flagsOver s.me k fun l => (g l).2) fun l => (g l).1 := by
  have hr := writes32_regKey s.me k d fun l => (g l).1
  unfold State.value32
  refine ⟨finish_done _ _ _ _ hr, ?_, ?_, ?_, ?_, ?_, finish_flags _ _ _ _ hr⟩
  · rintro n l rfl hl
    rw [Warp.getV, finish_getKey _ _ _ _ hr]
    split
    · rename_i hm
      apply lastWrite_mem
      · simp only [writes32, List.map_map, List.mem_map, dstLanes]
        exact ⟨l, (mem_maskLanes _ _).2 ⟨hl, hm⟩, rfl⟩
      · intro p hp he
        simp only [writes32, List.mem_map, dstLanes] at hp
        obtain ⟨l', hl', rfl⟩ := hp
        obtain ⟨-, rfl⟩ := vKey_inj ((mem_maskLanes _ _).1 hl').1 hl he
        rfl
    · rename_i hm
      rw [Warp.getV]
      apply lastWrite_outside
      intro p hp he
      simp only [writes32, List.mem_map, dstLanes] at hp
      obtain ⟨l', hl', rfl⟩ := hp
      obtain ⟨-, rfl⟩ := vKey_inj ((mem_maskLanes _ _).1 hl').1 hl he
      exact hm ((mem_maskLanes _ _).1 hl').2
  · rintro n rfl
    have hp : (s.finish k (writes32 s.me k (.s n) fun l => (g l).1) (flagsOver s.me k fun l => (g l).2)).me.priv = s.me.priv := by
      rw [(finish_done _ _ _ _ hr).warp]
    have hk : Warp.sKey (s.finish k (writes32 s.me k (.s n) fun l => (g l).1) (flagsOver s.me k fun l => (g l).2)).me n.val =
        s.me.sKey n.val := by unfold Warp.sKey; rw [hp]
    rw [Warp.getS, hk, finish_getKey _ _ _ _ hr, Warp.getS]
    cases ha : s.me.acts k <;> simp [writes32, ha, lastWrite]
  · rw [← writes32_keys s.me k d fun l => (g l).1]
    exact finish_others _ _ _ _ hr
  · rw [finish_me, putMany_frame _ _ hr]; rfl
  · rw [finish_me, putMany_frame _ _ hr]; rfl

/-- A word that writes one 64-bit result for each lane. -/
theorem value64_wrote (s : State) (k : Ctl) (d : Operand) (g : Nat → Dword × Flags) :
    Wrote64 s (s.value64 k d g) k d (flagsOver s.me k fun l => (g l).2) fun l => (g l).1 := by
  have hr := writes64_regKey s.me k d fun l => (g l).1
  unfold State.value64
  refine ⟨finish_done _ _ _ _ hr, ?_, ?_, ?_, ?_, ?_, finish_flags _ _ _ _ hr⟩
  · rintro n l rfl hl hm
    have key (i : Nat) (x : Word) (hx : (i = 0 ∧ x = loWord (g l).1) ∨ (i = 1 ∧ x = hiWord (g l).1)) :
        (s.finish k (writes64 s.me k (.v n) fun l => (g l).1) (flagsOver s.me k fun l => (g l).2)).me.getV (n.val + i) l = x := by
      rw [Warp.getV, finish_getKey _ _ _ _ hr]
      apply lastWrite_mem
      · simp only [writes64, List.map_flatMap, List.mem_flatMap, dstLanes]
        exact ⟨l, (mem_maskLanes _ _).2 ⟨hl, hm⟩, by rcases hx with ⟨rfl, -⟩ | ⟨rfl, -⟩ <;> simp⟩
      · intro p hp he
        simp only [writes64, List.mem_flatMap, dstLanes, List.mem_cons, List.not_mem_nil, or_false] at hp
        obtain ⟨l', hl', rfl | rfl⟩ := hp
        · obtain ⟨h1, rfl⟩ := vKey_inj ((mem_maskLanes _ _).1 hl').1 hl he
          rcases hx with ⟨rfl, rfl⟩ | ⟨rfl, rfl⟩
          · rfl
          · omega
        · obtain ⟨h1, rfl⟩ := vKey_inj ((mem_maskLanes _ _).1 hl').1 hl he
          rcases hx with ⟨rfl, rfl⟩ | ⟨rfl, rfl⟩
          · omega
          · rfl
    rw [show n.val = n.val + 0 from rfl, key 0 _ (.inl ⟨rfl, rfl⟩), Nat.add_zero, key 1 _ (.inr ⟨rfl, rfl⟩), join_lo_hi]
  · rintro n rfl ha
    have hp : (s.finish k (writes64 s.me k (.s n) fun l => (g l).1) (flagsOver s.me k fun l => (g l).2)).me.priv = s.me.priv := by
      rw [(finish_done _ _ _ _ hr).warp]
    have hk (m : Nat) : Warp.sKey (s.finish k (writes64 s.me k (.s n) fun l => (g l).1) (flagsOver s.me k fun l => (g l).2)).me m =
        s.me.sKey m := by unfold Warp.sKey; rw [hp]
    have hne : s.me.sKey n.val ≠ s.me.sKey (n.val + 1) := by
      unfold Warp.sKey bankKey sKeyUser; split <;> split <;> omega
    rw [Warp.getSPair, Warp.getS, Warp.getS, hk, hk, finish_getKey _ _ _ _ hr, finish_getKey _ _ _ _ hr]
    simp [writes64, ha, lastWrite, hne, hne.symm, join_lo_hi]
  · rw [← writes64_keys s.me k d fun l => (g l).1]
    exact finish_others _ _ _ _ hr
  · rw [finish_me, putMany_frame _ _ hr]; rfl
  · rw [finish_me, putMany_frame _ _ hr]; rfl

/-- A word whose results are outstanding. -/
theorem defer_deferred (s : State) (k : Ctl) (ws : List (Nat × Word)) (fl : Flags) (counts acquires : Bool) :
    Deferred s (s.defer k ws fl counts acquires) k ws fl counts acquires := by
  have hc (key : Nat) : (ws.any fun x => x.1 == key) = (ws.map Prod.fst).contains key := by
    induction ws with
    | nil => rfl
    | cons x ws ih => simp only [List.any_cons, List.map_cons, List.contains_cons, ih]; rw [Bool.beq_comm]
  have hme : (s.defer k ws fl counts acquires).me = ({ s.me with outs := s.me.outs.map (fun o =>
      { o with tgts := o.tgts.filter fun t => !(ws.any fun x => x.1 == t.key) }) ++
      [{ id := s.nextId, tgts := ws.map fun x => ⟨x.1, some x.2⟩, flags := fl, counts, acquires }] } : Warp).advance k.sw := by
    unfold State.defer State.advance
    rw [State.me_modMe, State.me_fresh, State.me_modMe]
  refine ⟨?_, ?_⟩
  · rw [hme]
    unfold State.defer State.advance State.fresh State.modMe State.setMe State.setWarp State.me State.warp
    simp only [tset_tset, tget_tset_same]
  · rw [hme]
    simp only [hc, Warp.advance]

/-- A word that sleeps. -/
theorem sleep_sleeps (s : State) (k : Ctl) (z : Sleep) : Sleeps s (s.modMe fun w => w.sleepIn k.sw z s.tick) k z := by
  refine ⟨?_, ?_⟩ <;> rw [State.me_modMe] <;> rfl

end Sys2Proof.Machine
end

