-- ==== Sys2Proof/Laws/Float.lean ====
section
/-! SUPPORT. What the common run of a floating-point word does. -/

namespace Sys2Proof.Machine

theorem headD_maskLanes (m : Mask) :
    (m = 0#32 ∧ maskLanes m = []) ∨
      ∃ l, (maskLanes m).headD 0 = l ∧ l ∈ maskLanes m ∧ ∀ j, j < l → m.getLsbD j = false := by
  have sorted : (maskLanes m).Pairwise (· < ·) := by
    unfold maskLanes
    exact List.Pairwise.filter _ List.pairwise_lt_range
  have inside := mem_maskLanes m
  cases h : maskLanes m with
  | nil => exact .inl ⟨BitVec.eq_of_getLsbD_eq fun i hi => by grind, rfl⟩
  | cons x xs =>
    have first := (List.pairwise_cons.1 (h ▸ sorted)).1
    exact .inr ⟨x, rfl, by simp, fun j hj => by grind⟩

theorem orFlags_getLsbD (xs : List Flags) (b : Nat) :
    (orFlags xs).getLsbD b = true ↔ ∃ x ∈ xs, x.getLsbD b = true := by
  induction xs with
  | nil => simp [orFlags]
  | cons x xs ih => simp [orFlags, ih]

theorem seed_putSeeds (w : Warp) (ls : List Nat) (h : Nat → Word) (l : Nat) :
    (w.putSeeds (ls.map fun x => (x, h x))).seed l = if l ∈ ls then h l else w.seed l := by
  unfold Warp.putSeeds Warp.seed
  dsimp only
  generalize w.seeds = t
  induction ls generalizing t with
  | nil => simp [tsetMany]
  | cons x xs ih =>
    simp only [List.map_cons, tsetMany]
    rw [ih]
    by_cases hm : l ∈ xs
    · simp [hm]
    · by_cases hx : l = x
      · subst hx; simp [hm]
      · simp [hm, hx, tget_tset]

/-- The writes of a floating word's result x in lane l. -/
def fpOut (w : Warp) (d : Operand) (pair : Bool) (l x : Nat) : List (Nat × Word) :=
  match d with
  | .v n => if pair then [(vKey n.val l, BitVec.ofNat 32 x), (vKey (n.val + 1) l, BitVec.ofNat 32 (x / 2 ^ 32))]
            else [(vKey n.val l, BitVec.ofNat 32 x)]
  | .s n => if pair then [(w.sKey n.val, BitVec.ofNat 32 x), (w.sKey (n.val + 1), BitVec.ofNat 32 (x / 2 ^ 32))]
            else [(w.sKey n.val, BitVec.ofNat 32 x)]
  | _ => []

/-- The lanes whose work a floating word does. -/
def fpActs (w : Warp) (k : Ctl) (d : Operand) : List Nat :=
  if isVec d then maskLanes (w.eff k) else if w.acts k then [lowLane w k] else []

theorem fpWord_eq (s : State) (k : Ctl) (d : Operand) (pair : Bool) (g : Nat → Word → Lane) :
    s.fpWord k d pair g =
      (s.modMe fun w => w.putSeeds (((fpActs s.me k d).filter fun l => (maskLanes (s.me.eff k)).contains l).map fun l =>
        (l, (g l (s.me.seed l)).2.2))).finish k
        ((fpActs s.me k d).flatMap fun l => fpOut s.me d pair l (g l (s.me.seed l)).1)
        (orFlags (((fpActs s.me k d).filter fun l => (maskLanes (s.me.eff k)).contains l).map fun l =>
          (g l (s.me.seed l)).2.1)) := by
  unfold State.fpWord fpActs dstLanes
  simp only [List.flatMap_map, List.filter_map, List.map_map, Function.comp_def]
  rfl

theorem mem_fpActs (w : Warp) (k : Ctl) (d : Operand) (hd : (∃ n, d = .v n) ∨ ∃ n, d = .s n) (l : Nat) :
    (l ∈ fpActs w k d ∧ l ∈ maskLanes (w.eff k)) ↔ l < 32 ∧ fpWorks w k d l := by
  have low := headD_maskLanes (w.eff k)
  have acts (h : w.eff k ≠ 0#32) : w.acts k = true := by unfold Warp.acts; simp [h]
  have first : lowLane w k = (maskLanes (w.eff k)).headD 0 := rfl
  rcases hd with ⟨n, rfl⟩ | ⟨n, rfl⟩ <;> grind [fpWorks, fpActs, isVec, mem_maskLanes]

theorem fpLane_low (w : Warp) (k : Ctl) (l : Nat) (h : fpLane w k l) : l = lowLane w k := by
  have low := headD_maskLanes (w.eff k)
  have first : lowLane w k = (maskLanes (w.eff k)).headD 0 := rfl
  grind [fpLane, mem_maskLanes]

theorem fpOut_regKey (w : Warp) (d : Operand) (pair : Bool) (l x : Nat) (hl : l < 32) :
    ∀ p ∈ fpOut w d pair l x, RegKey p.1 := by
  intro p hp
  unfold fpOut at hp
  split at hp
  · split at hp <;> simp only [List.mem_cons, List.not_mem_nil, or_false] at hp
    · rcases hp with rfl | rfl <;> exact regKey_v _ _ (by omega) hl
    · subst hp; exact regKey_v _ _ (by omega) hl
  · split at hp <;> simp only [List.mem_cons, List.not_mem_nil, or_false] at hp
    · rcases hp with rfl | rfl <;> exact regKey_s _ _ (by omega)
    · subst hp; exact regKey_s _ _ (by omega)
  · simp at hp

theorem fpActs_lt (w : Warp) (k : Ctl) (d : Operand) : ∀ l ∈ fpActs w k d, l < 32 := by
  have low := headD_maskLanes (w.eff k)
  have first : lowLane w k = (maskLanes (w.eff k)).headD 0 := rfl
  grind [fpActs, mem_maskLanes]

theorem fpOut_keys (w : Warp) (k : Ctl) (d : Operand) (pair : Bool) (g : Nat → Nat) :
    ((fpActs w k d).flatMap fun l => fpOut w d pair l (g l)).map Prod.fst = wroteKeys w k d (if pair then 2 else 1) := by
  have h1 (l x : Nat) : (fpOut w d pair l x).map Prod.fst = dstKeys w d (if pair then 2 else 1) l := by
    cases d <;> cases pair <;> simp [fpOut, dstKeys, List.range_succ]
  rw [List.map_flatMap]
  simp only [h1]
  cases d <;> simp only [fpActs, isVec, wroteKeys, if_true, Bool.false_eq_true, if_false]
  · cases w.acts k <;> simp [dstKeys]
  all_goals simp [dstKeys]

/-- The common run of a floating word. -/
theorem fpWord_wrote (s : State) (k : Ctl) (d : Operand) (pair : Bool) (g : Nat → Word → Lane)
    (hd : (∃ n, d = .v n) ∨ ∃ n, d = .s n) : WroteFp s (s.fpWord k d pair g) k d pair g := by
  rw [fpWord_eq]
  generalize hws : ((fpActs s.me k d).flatMap fun l => fpOut s.me d pair l (g l (s.me.seed l)).1) = ws
  generalize hlive : ((fpActs s.me k d).filter fun l => (maskLanes (s.me.eff k)).contains l) = live
  generalize hu : (s.modMe fun w => w.putSeeds (live.map fun l => (l, (g l (s.me.seed l)).2.2))) = u
  have hume : u.me = s.me.putSeeds (live.map fun l => (l, (g l (s.me.seed l)).2.2)) := by
    rw [← hu, State.me_modMe]
  have hr : ∀ p ∈ ws, RegKey p.1 := by
    rw [← hws]
    intro p hp
    obtain ⟨l, hl, hp⟩ := List.mem_flatMap.1 hp
    exact fpOut_regKey _ _ _ _ _ (fpActs_lt _ _ _ l hl) p hp
  have hgk (j : Nat) : u.me.getKey j = s.me.getKey j := by rw [hume]; rfl
  have hlv (l : Nat) : l ∈ live ↔ l < 32 ∧ fpWorks s.me k d l := by
    rw [← hlive, List.mem_filter, ← mem_fpActs s.me k d hd]
    simp
  have hme : (u.finish k ws (orFlags (live.map fun l => (g l (s.me.seed l)).2.1))).me =
      { s.me with
        pc := s.me.pc + 8#64, left := s.me.left - 1, rewait := false
        status := if k.sw then .parked else s.me.status
        running := s.me.running && !k.sw && decide (1 < s.me.left)
        regs := (u.finish k ws (orFlags (live.map fun l => (g l (s.me.seed l)).2.1))).me.regs
        bank := (u.finish k ws (orFlags (live.map fun l => (g l (s.me.seed l)).2.1))).me.bank
        preds := (u.finish k ws (orFlags (live.map fun l => (g l (s.me.seed l)).2.1))).me.preds
        seeds := (u.finish k ws (orFlags (live.map fun l => (g l (s.me.seed l)).2.1))).me.seeds
        outs := (u.finish k ws (orFlags (live.map fun l => (g l (s.me.seed l)).2.1))).me.outs
        fpstat := (u.finish k ws (orFlags (live.map fun l => (g l (s.me.seed l)).2.1))).me.fpstat } := by
    have h := (finish_done u k ws (orFlags (live.map fun l => (g l (s.me.seed l)).2.1)) hr).warp
    rw [h, hume]
    rfl
  have hget (j : Nat) := finish_getKey u k ws (orFlags (live.map fun l => (g l (s.me.seed l)).2.1)) hr j
  have hskey (n : Nat) : Warp.sKey (u.finish k ws (orFlags (live.map fun l => (g l (s.me.seed l)).2.1))).me n = s.me.sKey n := by
    unfold Warp.sKey; rw [hme]
  have hval (l : Nat) (hl : l ∈ fpActs s.me k d) (p : Nat × Word) (hp : p ∈ fpOut s.me d pair l (g l (s.me.seed l)).1)
      (hone : ∀ l', l' ∈ fpActs s.me k d → ∀ q ∈ fpOut s.me d pair l' (g l' (s.me.seed l')).1, q.1 = p.1 → q.2 = p.2) :
      (u.finish k ws (orFlags (live.map fun l => (g l (s.me.seed l)).2.1))).me.getKey p.1 = p.2 := by
    rw [hget]
    apply lastWrite_mem
    · rw [← hws]
      exact List.mem_map_of_mem (List.mem_flatMap.2 ⟨l, hl, hp⟩)
    · intro q hq he
      rw [← hws] at hq
      obtain ⟨l', hl', hq⟩ := List.mem_flatMap.1 hq
      exact hone l' hl' q hq he
  refine ⟨⟨?_, hme⟩, ?_, ?_, ?_, ?_, ?_, ?_, ?_⟩
  · rw [State.finish, State.me_modMe, ← hu]
    rw [State.modMe_modMe, State.modMe]
    simp only [State.me_modMe]
  · rintro n l rfl hl he
    have hm : l ∈ fpActs s.me k (.v n) := by
      simp only [fpActs, isVec, if_true]; exact (mem_maskLanes _ _).2 ⟨hl, he⟩
    have key (i : Nat) (x : Word) (hx : (vKey (n.val + i) l, x) ∈ fpOut s.me (.v n) pair l (g l (s.me.seed l)).1) :
        (u.finish k ws (orFlags (live.map fun l => (g l (s.me.seed l)).2.1))).me.getV (n.val + i) l = x := by
      refine hval l hm (vKey (n.val + i) l, x) hx fun l' hl' q hq e => ?_
      have hl'' := fpActs_lt _ _ _ l' hl'
      cases pair <;> simp only [fpOut, if_true, Bool.false_eq_true, if_false, List.mem_cons, List.not_mem_nil, or_false] at hq hx
      · subst hq
        obtain ⟨h1, rfl⟩ := vKey_inj hl'' hl e
        simp only [Prod.mk.injEq] at hx
        exact hx.2.symm
      · rcases hq with rfl | rfl <;> obtain ⟨h1, rfl⟩ := vKey_inj hl'' hl e <;> simp only [Prod.mk.injEq] at hx <;>
          rcases hx with ⟨hx, rfl⟩ | ⟨hx, rfl⟩ <;> first | rfl | (have := (vKey_inj hl hl hx).1; omega)
    refine ⟨?_, fun hp => ?_⟩
    · have := key 0 (BitVec.ofNat 32 (g l (s.me.seed l)).1) (by cases pair <;> simp [fpOut])
      rw [Nat.add_zero] at this
      rw [this]; rfl
    · subst hp
      rw [key 1 (BitVec.ofNat 32 ((g l (s.me.seed l)).1 / 2 ^ 32)) (by simp [fpOut])]; rfl
  · rintro n l rfl ha hl
    have hlow := fpLane_low _ _ _ hl
    subst hlow
    have hacts : fpActs s.me k (.s n) = [lowLane s.me k] := by simp [fpActs, isVec, ha]
    have key (i : Nat) (x : Word) (hi : i = 0 ∨ i = 1)
        (hx : (s.me.sKey (n.val + i), x) ∈ fpOut s.me (.s n) pair (lowLane s.me k) (g (lowLane s.me k) (s.me.seed (lowLane s.me k))).1) :
        (u.finish k ws (orFlags (live.map fun l => (g l (s.me.seed l)).2.1))).me.getS (n.val + i) = x := by
      unfold Warp.getS
      rw [hskey]
      refine hval (lowLane s.me k) (by simp [hacts]) (s.me.sKey (n.val + i), x) hx fun l' hl' q hq e => ?_
      rw [hacts, List.mem_singleton] at hl'
      subst hl'
      have hne : s.me.sKey n.val ≠ s.me.sKey (n.val + 1) := by
        unfold Warp.sKey bankKey sKeyUser; split <;> split <;> omega
      cases pair <;> simp only [fpOut, if_true, Bool.false_eq_true, if_false, List.mem_cons, List.not_mem_nil, or_false, Prod.mk.injEq] at hq hx
      · subst hq; exact hx.2.symm
      · rcases hi with rfl | rfl <;> simp only [Nat.add_zero] at hx e <;> rcases hq with rfl | rfl <;>
          rcases hx with ⟨hx, rfl⟩ | ⟨hx, rfl⟩ <;> first | rfl | exact absurd e hne | exact absurd e.symm hne | exact absurd hx hne | exact absurd hx.symm hne
    refine ⟨?_, fun hp => ?_⟩
    · have := key 0 (BitVec.ofNat 32 (g (lowLane s.me k) (s.me.seed (lowLane s.me k))).1) (.inl rfl) (by cases pair <;> simp [fpOut])
      rw [Nat.add_zero] at this
      rw [this]; rfl
    · subst hp
      rw [key 1 (BitVec.ofNat 32 ((g (lowLane s.me k) (s.me.seed (lowLane s.me k))).1 / 2 ^ 32)) (.inr rfl) (by simp [fpOut])]; rfl
  · have h := finish_others u k ws (orFlags (live.map fun l => (g l (s.me.seed l)).2.1)) hr
    have hk : ws.map Prod.fst = wroteKeys s.me k d (if pair then 2 else 1) := by
      rw [← hws]; exact fpOut_keys s.me k d pair fun l => (g l (s.me.seed l)).1
    rw [hk] at h
    refine ⟨fun key hkey => ?_, ?_⟩
    · rw [h.regs key hkey, hgk]
    · rw [h.outs, hume]; rfl
  · rw [finish_me, putMany_frame _ _ hr, hume]; rfl
  · intro l hl hw
    have : (u.finish k ws (orFlags (live.map fun l => (g l (s.me.seed l)).2.1))).me.seed l = u.me.seed l := by
      unfold Warp.seed; rw [finish_me, putMany_frame _ _ hr]; rfl
    rw [this, hume, seed_putSeeds, if_pos ((hlv l).2 ⟨hl, hw⟩)]
  · intro l hl hw
    have : (u.finish k ws (orFlags (live.map fun l => (g l (s.me.seed l)).2.1))).me.seed l = u.me.seed l := by
      unfold Warp.seed; rw [finish_me, putMany_frame _ _ hr]; rfl
    rw [this, hume, seed_putSeeds, if_neg fun h => hw ((hlv l).1 h).2]
  · intro b
    rw [finish_flags _ _ _ _ hr, BitVec.getLsbD_or, Bool.or_eq_true, orFlags_getLsbD, hume]
    constructor
    · rintro (h | ⟨x, hx, hb⟩)
      · exact .inl h
      · obtain ⟨l, hl, rfl⟩ := List.mem_map.1 hx
        obtain ⟨h1, h2⟩ := (hlv l).1 hl
        exact .inr ⟨l, h1, h2, hb⟩
    · rintro (h | ⟨l, h1, h2, hb⟩)
      · exact .inl h
      · exact .inr ⟨_, List.mem_map.2 ⟨l, (hlv l).2 ⟨h1, h2⟩, rfl⟩, hb⟩

end Sys2Proof.Machine
end

