-- ==== Sys2Proof/Laws/PerInstr.lean ====
section
/-! SUPPORT. Statements about the syntax of every instruction, one lemma for each constructor. -/

namespace Sys2Proof.Laws.Encoding

/-- The opcode map reads, in the word that the encoder makes of an instruction, the instruction with all its fields. -/
def Statement (i : Instr) : Prop := ∀ x, i.view = some x → instrOf x.op x.ctl (encodeView x) = some (some i)

theorem pair_arm (a : BitVec 4) (k : Ctl) (w : Dword) :
    instrOf (0xF0 + a.toNat) k w = some ((pOf w).map (Instr.pairWord k)) := by
  have arm (n : Fin 16) : instrOf (0xF0 + n.val) k w = some ((pOf w).map (Instr.pairWord k)) := by fin_cases n <;> rfl
  exact arm a.toFin

/-- A body that reads back gives the instruction that holds it. -/
theorem arm {α : Type} {x : Option α} {f : α} (c : α → Instr) (h : x = some f) : some (x.map c) = some (some (c f)) := by
  rw [h]; rfl

theorem nop (k : Ctl) (f : VFields) : Statement (.nop k f) := fun _ h => by
  cases h; exact arm (Instr.nop k) (vOf_encode ..)

theorem bra (k : Ctl) (f : CFields) : Statement (.bra k f) := fun _ h => by
  cases h; exact arm (Instr.bra k) (cOf_encode ..)

theorem brx (k : Ctl) (f : CFields) : Statement (.brx k f) := fun _ h => by
  cases h; exact arm (Instr.brx k) (cOf_encode ..)

theorem call (k : Ctl) (f : CFields) : Statement (.call k f) := fun _ h => by
  cases h; exact arm (Instr.call k) (cOf_encode ..)

theorem callx (k : Ctl) (f : CFields) : Statement (.callx k f) := fun _ h => by
  cases h; exact arm (Instr.callx k) (cOf_encode ..)

theorem ret (k : Ctl) (f : CFields) : Statement (.ret k f) := fun _ h => by
  cases h; exact arm (Instr.ret k) (cOf_encode ..)

theorem split (k : Ctl) (f : CFields) : Statement (.split k f) := fun _ h => by
  cases h; exact arm (Instr.split k) (cOf_encode ..)

theorem join (k : Ctl) (f : CFields) : Statement (.join k f) := fun _ h => by
  cases h; exact arm (Instr.join k) (cOf_encode ..)

theorem skipz (k : Ctl) (f : CFields) : Statement (.skipz k f) := fun _ h => by
  cases h; exact arm (Instr.skipz k) (cOf_encode ..)

theorem exrd (k : Ctl) (f : VFields) : Statement (.exrd k f) := fun _ h => by
  cases h; exact arm (Instr.exrd k) (vOf_encode ..)

theorem exwr (k : Ctl) (f : VFields) : Statement (.exwr k f) := fun _ h => by
  cases h; exact arm (Instr.exwr k) (vOf_encode ..)

theorem plog (k : Ctl) (f : VFields) : Statement (.plog k f) := fun _ h => by
  cases h; exact arm (Instr.plog k) (vOf_encode ..)

theorem pmov (k : Ctl) (f : VFields) : Statement (.pmov k f) := fun _ h => by
  cases h; exact arm (Instr.pmov k) (vOf_encode ..)

theorem setfmt (k : Ctl) (f : KFields) : Statement (.setfmt k f) := fun _ h => by
  cases h; exact arm (Instr.setfmt k) (kOf_encode ..)

theorem getfmt (k : Ctl) (f : VFields) : Statement (.getfmt k f) := fun _ h => by
  cases h; exact arm (Instr.getfmt k) (vOf_encode ..)

theorem mov (k : Ctl) (f : VFields) : Statement (.mov k f) := fun _ h => by
  cases h; exact arm (Instr.mov k) (vOf_encode ..)

theorem movk (k : Ctl) (f : KFields) : Statement (.movk k f) := fun _ h => by
  cases h; exact arm (Instr.movk k) (kOf_encode ..)

theorem sel (k : Ctl) (f : VFields) : Statement (.sel k f) := fun _ h => by
  cases h; exact arm (Instr.sel k) (vOf_encode ..)

theorem iadd (k : Ctl) (f : VFields) : Statement (.iadd k f) := fun _ h => by
  cases h; exact arm (Instr.iadd k) (vOf_encode ..)

theorem isub (k : Ctl) (f : VFields) : Statement (.isub k f) := fun _ h => by
  cases h; exact arm (Instr.isub k) (vOf_encode ..)

theorem imul (k : Ctl) (f : VFields) : Statement (.imul k f) := fun _ h => by
  cases h; exact arm (Instr.imul k) (vOf_encode ..)

theorem imulh (k : Ctl) (f : VFields) : Statement (.imulh k f) := fun _ h => by
  cases h; exact arm (Instr.imulh k) (vOf_encode ..)

theorem imad (k : Ctl) (f : VFields) : Statement (.imad k f) := fun _ h => by
  cases h; exact arm (Instr.imad k) (vOf_encode ..)

theorem imin (k : Ctl) (f : VFields) : Statement (.imin k f) := fun _ h => by
  cases h; exact arm (Instr.imin k) (vOf_encode ..)

theorem imax (k : Ctl) (f : VFields) : Statement (.imax k f) := fun _ h => by
  cases h; exact arm (Instr.imax k) (vOf_encode ..)

theorem iabs (k : Ctl) (f : VFields) : Statement (.iabs k f) := fun _ h => by
  cases h; exact arm (Instr.iabs k) (vOf_encode ..)

theorem ineg (k : Ctl) (f : VFields) : Statement (.ineg k f) := fun _ h => by
  cases h; exact arm (Instr.ineg k) (vOf_encode ..)

theorem and (k : Ctl) (f : VFields) : Statement (.and k f) := fun _ h => by
  cases h; exact arm (Instr.and k) (vOf_encode ..)

theorem or (k : Ctl) (f : VFields) : Statement (.or k f) := fun _ h => by
  cases h; exact arm (Instr.or k) (vOf_encode ..)

theorem xor (k : Ctl) (f : VFields) : Statement (.xor k f) := fun _ h => by
  cases h; exact arm (Instr.xor k) (vOf_encode ..)

theorem andn (k : Ctl) (f : VFields) : Statement (.andn k f) := fun _ h => by
  cases h; exact arm (Instr.andn k) (vOf_encode ..)

theorem shl (k : Ctl) (f : VFields) : Statement (.shl k f) := fun _ h => by
  cases h; exact arm (Instr.shl k) (vOf_encode ..)

theorem shr (k : Ctl) (f : VFields) : Statement (.shr k f) := fun _ h => by
  cases h; exact arm (Instr.shr k) (vOf_encode ..)

theorem sar (k : Ctl) (f : VFields) : Statement (.sar k f) := fun _ h => by
  cases h; exact arm (Instr.sar k) (vOf_encode ..)

theorem rot (k : Ctl) (f : VFields) : Statement (.rot k f) := fun _ h => by
  cases h; exact arm (Instr.rot k) (vOf_encode ..)

theorem bfx (k : Ctl) (f : VFields) : Statement (.bfx k f) := fun _ h => by
  cases h; exact arm (Instr.bfx k) (vOf_encode ..)

theorem bfi (k : Ctl) (f : VFields) : Statement (.bfi k f) := fun _ h => by
  cases h; exact arm (Instr.bfi k) (vOf_encode ..)

theorem bperm (k : Ctl) (f : VFields) : Statement (.bperm k f) := fun _ h => by
  cases h; exact arm (Instr.bperm k) (vOf_encode ..)

theorem popc (k : Ctl) (f : VFields) : Statement (.popc k f) := fun _ h => by
  cases h; exact arm (Instr.popc k) (vOf_encode ..)

theorem clz (k : Ctl) (f : VFields) : Statement (.clz k f) := fun _ h => by
  cases h; exact arm (Instr.clz k) (vOf_encode ..)

theorem brev (k : Ctl) (f : VFields) : Statement (.brev k f) := fun _ h => by
  cases h; exact arm (Instr.brev k) (vOf_encode ..)

theorem icmp (k : Ctl) (f : VFields) : Statement (.icmp k f) := fun _ h => by
  cases h; exact arm (Instr.icmp k) (vOf_encode ..)

theorem isat (k : Ctl) (f : VFields) : Statement (.isat k f) := fun _ h => by
  cases h; exact arm (Instr.isat k) (vOf_encode ..)

theorem iadd64 (k : Ctl) (f : VFields) : Statement (.iadd64 k f) := fun _ h => by
  cases h; exact arm (Instr.iadd64 k) (vOf_encode ..)

theorem imad64 (k : Ctl) (f : VFields) : Statement (.imad64 k f) := fun _ h => by
  cases h; exact arm (Instr.imad64 k) (vOf_encode ..)

theorem lea (k : Ctl) (f : VFields) : Statement (.lea k f) := fun _ h => by
  cases h; exact arm (Instr.lea k) (vOf_encode ..)

theorem icvt (k : Ctl) (f : VFields) : Statement (.icvt k f) := fun _ h => by
  cases h; exact arm (Instr.icvt k) (vOf_encode ..)

theorem fadd (k : Ctl) (f : VFields) : Statement (.fadd k f) := fun _ h => by
  cases h; exact arm (Instr.fadd k) (vOf_encode ..)

theorem fsub (k : Ctl) (f : VFields) : Statement (.fsub k f) := fun _ h => by
  cases h; exact arm (Instr.fsub k) (vOf_encode ..)

theorem fmul (k : Ctl) (f : VFields) : Statement (.fmul k f) := fun _ h => by
  cases h; exact arm (Instr.fmul k) (vOf_encode ..)

theorem ffma (k : Ctl) (f : VFields) : Statement (.ffma k f) := fun _ h => by
  cases h; exact arm (Instr.ffma k) (vOf_encode ..)

theorem fmin (k : Ctl) (f : VFields) : Statement (.fmin k f) := fun _ h => by
  cases h; exact arm (Instr.fmin k) (vOf_encode ..)

theorem fmax (k : Ctl) (f : VFields) : Statement (.fmax k f) := fun _ h => by
  cases h; exact arm (Instr.fmax k) (vOf_encode ..)

theorem fcmp (k : Ctl) (f : VFields) : Statement (.fcmp k f) := fun _ h => by
  cases h; exact arm (Instr.fcmp k) (vOf_encode ..)

theorem fclass (k : Ctl) (f : VFields) : Statement (.fclass k f) := fun _ h => by
  cases h; exact arm (Instr.fclass k) (vOf_encode ..)

theorem frnd (k : Ctl) (f : VFields) : Statement (.frnd k f) := fun _ h => by
  cases h; exact arm (Instr.frnd k) (vOf_encode ..)

theorem fcvt (k : Ctl) (f : VFields) : Statement (.fcvt k f) := fun _ h => by
  cases h; exact arm (Instr.fcvt k) (vOf_encode ..)

theorem f2i (k : Ctl) (f : VFields) : Statement (.f2i k f) := fun _ h => by
  cases h; exact arm (Instr.f2i k) (vOf_encode ..)

theorem i2f (k : Ctl) (f : VFields) : Statement (.i2f k f) := fun _ h => by
  cases h; exact arm (Instr.i2f k) (vOf_encode ..)

theorem dadd (k : Ctl) (f : VFields) : Statement (.dadd k f) := fun _ h => by
  cases h; exact arm (Instr.dadd k) (vOf_encode ..)

theorem dmul (k : Ctl) (f : VFields) : Statement (.dmul k f) := fun _ h => by
  cases h; exact arm (Instr.dmul k) (vOf_encode ..)

theorem dfma (k : Ctl) (f : VFields) : Statement (.dfma k f) := fun _ h => by
  cases h; exact arm (Instr.dfma k) (vOf_encode ..)

theorem dcmp (k : Ctl) (f : VFields) : Statement (.dcmp k f) := fun _ h => by
  cases h; exact arm (Instr.dcmp k) (vOf_encode ..)

theorem rcp (k : Ctl) (f : VFields) : Statement (.rcp k f) := fun _ h => by
  cases h; exact arm (Instr.rcp k) (vOf_encode ..)

theorem rsq (k : Ctl) (f : VFields) : Statement (.rsq k f) := fun _ h => by
  cases h; exact arm (Instr.rsq k) (vOf_encode ..)

theorem sqrt (k : Ctl) (f : VFields) : Statement (.sqrt k f) := fun _ h => by
  cases h; exact arm (Instr.sqrt k) (vOf_encode ..)

theorem exp2 (k : Ctl) (f : VFields) : Statement (.exp2 k f) := fun _ h => by
  cases h; exact arm (Instr.exp2 k) (vOf_encode ..)

theorem log2 (k : Ctl) (f : VFields) : Statement (.log2 k f) := fun _ h => by
  cases h; exact arm (Instr.log2 k) (vOf_encode ..)

theorem exp (k : Ctl) (f : VFields) : Statement (.exp k f) := fun _ h => by
  cases h; exact arm (Instr.exp k) (vOf_encode ..)

theorem log (k : Ctl) (f : VFields) : Statement (.log k f) := fun _ h => by
  cases h; exact arm (Instr.log k) (vOf_encode ..)

theorem sin (k : Ctl) (f : VFields) : Statement (.sin k f) := fun _ h => by
  cases h; exact arm (Instr.sin k) (vOf_encode ..)

theorem cos (k : Ctl) (f : VFields) : Statement (.cos k f) := fun _ h => by
  cases h; exact arm (Instr.cos k) (vOf_encode ..)

theorem tanh (k : Ctl) (f : VFields) : Statement (.tanh k f) := fun _ h => by
  cases h; exact arm (Instr.tanh k) (vOf_encode ..)

theorem sigm (k : Ctl) (f : VFields) : Statement (.sigm k f) := fun _ h => by
  cases h; exact arm (Instr.sigm k) (vOf_encode ..)

theorem pack (k : Ctl) (f : VFields) : Statement (.pack k f) := fun _ h => by
  cases h; exact arm (Instr.pack k) (vOf_encode ..)

theorem unpk (k : Ctl) (f : VFields) : Statement (.unpk k f) := fun _ h => by
  cases h; exact arm (Instr.unpk k) (vOf_encode ..)

theorem fstat (k : Ctl) (f : VFields) : Statement (.fstat k f) := fun _ h => by
  cases h; exact arm (Instr.fstat k) (vOf_encode ..)

theorem seedr (k : Ctl) (f : VFields) : Statement (.seedr k f) := fun _ h => by
  cases h; exact arm (Instr.seedr k) (vOf_encode ..)

theorem vote (k : Ctl) (f : VFields) : Statement (.vote k f) := fun _ h => by
  cases h; exact arm (Instr.vote k) (vOf_encode ..)

theorem shfl (k : Ctl) (f : VFields) : Statement (.shfl k f) := fun _ h => by
  cases h; exact arm (Instr.shfl k) (vOf_encode ..)

theorem bcast (k : Ctl) (f : VFields) : Statement (.bcast k f) := fun _ h => by
  cases h; exact arm (Instr.bcast k) (vOf_encode ..)

theorem lred (k : Ctl) (f : VFields) : Statement (.lred k f) := fun _ h => by
  cases h; exact arm (Instr.lred k) (vOf_encode ..)

theorem lscan (k : Ctl) (f : VFields) : Statement (.lscan k f) := fun _ h => by
  cases h; exact arm (Instr.lscan k) (vOf_encode ..)

theorem matchv (k : Ctl) (f : VFields) : Statement (.matchv k f) := fun _ h => by
  cases h; exact arm (Instr.matchv k) (vOf_encode ..)

theorem rbal (k : Ctl) (f : VFields) : Statement (.rbal k f) := fun _ h => by
  cases h; exact arm (Instr.rbal k) (vOf_encode ..)

theorem rwalk (k : Ctl) (f : VFields) : Statement (.rwalk k f) := fun _ h => by
  cases h; exact arm (Instr.rwalk k) (vOf_encode ..)

theorem segred (k : Ctl) (f : VFields) : Statement (.segred k f) := fun _ h => by
  cases h; exact arm (Instr.segred k) (vOf_encode ..)

theorem ld (k : Ctl) (f : MFields) : Statement (.ld k f) := fun _ h => by
  cases h; exact arm (Instr.ld k) (mOf_encode ..)

theorem st (k : Ctl) (f : MFields) : Statement (.st k f) := fun _ h => by
  cases h; exact arm (Instr.st k) (mOf_encode ..)

theorem ldu (k : Ctl) (f : MFields) : Statement (.ldu k f) := fun _ h => by
  cases h; exact arm (Instr.ldu k) (mOf_encode ..)

theorem ldl (k : Ctl) (f : MFields) : Statement (.ldl k f) := fun _ h => by
  cases h; exact arm (Instr.ldl k) (mOf_encode ..)

theorem stl (k : Ctl) (f : MFields) : Statement (.stl k f) := fun _ h => by
  cases h; exact arm (Instr.stl k) (mOf_encode ..)

theorem pref (k : Ctl) (f : MFields) : Statement (.pref k f) := fun _ h => by
  cases h; exact arm (Instr.pref k) (mOf_encode ..)

theorem preft (k : Ctl) (f : EFields) : Statement (.preft k f) := fun _ h => by
  cases h; exact arm (Instr.preft k) (eOf_encode ..)

theorem lock (k : Ctl) (f : MFields) : Statement (.lock k f) := fun _ h => by
  cases h; exact arm (Instr.lock k) (mOf_encode ..)

theorem unlock (k : Ctl) (f : MFields) : Statement (.unlock k f) := fun _ h => by
  cases h; exact arm (Instr.unlock k) (mOf_encode ..)

theorem winset (k : Ctl) (f : EFields) : Statement (.winset k f) := fun _ h => by
  cases h; exact arm (Instr.winset k) (eOf_encode ..)

theorem winclr (k : Ctl) (f : EFields) : Statement (.winclr k f) := fun _ h => by
  cases h; exact arm (Instr.winclr k) (eOf_encode ..)

theorem cwb (k : Ctl) (f : MFields) : Statement (.cwb k f) := fun _ h => by
  cases h; exact arm (Instr.cwb k) (mOf_encode ..)

theorem cinv (k : Ctl) (f : MFields) : Statement (.cinv k f) := fun _ h => by
  cases h; exact arm (Instr.cinv k) (mOf_encode ..)

theorem gbind (k : Ctl) (f : MFields) : Statement (.gbind k f) := fun _ h => by
  cases h; exact arm (Instr.gbind k) (mOf_encode ..)

theorem ginv (k : Ctl) (f : MFields) : Statement (.ginv k f) := fun _ h => by
  cases h; exact arm (Instr.ginv k) (mOf_encode ..)

theorem qclass (k : Ctl) (f : MFields) : Statement (.qclass k f) := fun _ h => by
  cases h; exact arm (Instr.qclass k) (mOf_encode ..)

theorem fence (k : Ctl) (f : MFields) : Statement (.fence k f) := fun _ h => by
  cases h; exact arm (Instr.fence k) (mOf_encode ..)

theorem atom (k : Ctl) (f : MFields) : Statement (.atom k f) := fun _ h => by
  cases h; exact arm (Instr.atom k) (mOf_encode ..)

theorem cas (k : Ctl) (f : MFields) : Statement (.cas k f) := fun _ h => by
  cases h; exact arm (Instr.cas k) (mOf_encode ..)

theorem cas128 (k : Ctl) (f : MFields) : Statement (.cas128 k f) := fun _ h => by
  cases h; exact arm (Instr.cas128 k) (mOf_encode ..)

theorem red (k : Ctl) (f : MFields) : Statement (.red k f) := fun _ h => by
  cases h; exact arm (Instr.red k) (mOf_encode ..)

theorem mon (k : Ctl) (f : MFields) : Statement (.mon k f) := fun _ h => by
  cases h; exact arm (Instr.mon k) (mOf_encode ..)

theorem mwait (k : Ctl) (f : MFields) : Statement (.mwait k f) := fun _ h => by
  cases h; exact arm (Instr.mwait k) (mOf_encode ..)

theorem watch (k : Ctl) (f : MFields) : Statement (.watch k f) := fun _ h => by
  cases h; exact arm (Instr.watch k) (mOf_encode ..)

theorem bar (k : Ctl) (f : EFields) : Statement (.bar k f) := fun _ h => by
  cases h; exact arm (Instr.bar k) (eOf_encode ..)

theorem bara (k : Ctl) (f : EFields) : Statement (.bara k f) := fun _ h => by
  cases h; exact arm (Instr.bara k) (eOf_encode ..)

theorem barw (k : Ctl) (f : EFields) : Statement (.barw k f) := fun _ h => by
  cases h; exact arm (Instr.barw k) (eOf_encode ..)

theorem slop (k : Ctl) (f : MFields) : Statement (.slop k f) := fun _ h => by
  cases h; exact arm (Instr.slop k) (mOf_encode ..)

theorem cpy (k : Ctl) (f : EFields) : Statement (.cpy k f) := fun _ h => by
  cases h; exact arm (Instr.cpy k) (eOf_encode ..)

theorem cpyb (k : Ctl) (f : EFields) : Statement (.cpyb k f) := fun _ h => by
  cases h; exact arm (Instr.cpyb k) (eOf_encode ..)

theorem gath (k : Ctl) (f : EFields) : Statement (.gath k f) := fun _ h => by
  cases h; exact arm (Instr.gath k) (eOf_encode ..)

theorem scat (k : Ctl) (f : EFields) : Statement (.scat k f) := fun _ h => by
  cases h; exact arm (Instr.scat k) (eOf_encode ..)

theorem mcast (k : Ctl) (f : EFields) : Statement (.mcast k f) := fun _ h => by
  cases h; exact arm (Instr.mcast k) (eOf_encode ..)

theorem falloc (k : Ctl) (f : EFields) : Statement (.falloc k f) := fun _ h => by
  cases h; exact arm (Instr.falloc k) (eOf_encode ..)

theorem ffree (k : Ctl) (f : EFields) : Statement (.ffree k f) := fun _ h => by
  cases h; exact arm (Instr.ffree k) (eOf_encode ..)

theorem fwait (k : Ctl) (f : EFields) : Statement (.fwait k f) := fun _ h => by
  cases h; exact arm (Instr.fwait k) (eOf_encode ..)

theorem fstate (k : Ctl) (f : EFields) : Statement (.fstate k f) := fun _ h => by
  cases h; exact arm (Instr.fstate k) (eOf_encode ..)

theorem spop (k : Ctl) (f : EFields) : Statement (.spop k f) := fun _ h => by
  cases h; exact arm (Instr.spop k) (eOf_encode ..)

theorem spush (k : Ctl) (f : EFields) : Statement (.spush k f) := fun _ h => by
  cases h; exact arm (Instr.spush k) (eOf_encode ..)

theorem bxpect (k : Ctl) (f : EFields) : Statement (.bxpect k f) := fun _ h => by
  cases h; exact arm (Instr.bxpect k) (eOf_encode ..)

theorem rxpect (k : Ctl) (f : EFields) : Statement (.rxpect k f) := fun _ h => by
  cases h; exact arm (Instr.rxpect k) (eOf_encode ..)

theorem cfence (k : Ctl) (f : EFields) : Statement (.cfence k f) := fun _ h => by
  cases h; exact arm (Instr.cfence k) (eOf_encode ..)

theorem yield (k : Ctl) (f : EFields) : Statement (.yield k f) := fun _ h => by
  cases h; exact arm (Instr.yield k) (eOf_encode ..)

theorem mma (k : Ctl) (f : XFields) : Statement (.mma k f) := fun _ h => by
  cases h; exact arm (Instr.mma k) (xOf_encode ..)

theorem mmas (k : Ctl) (f : XFields) : Statement (.mmas k f) := fun _ h => by
  cases h; exact arm (Instr.mmas k) (xOf_encode ..)

theorem mmasp (k : Ctl) (f : XFields) : Statement (.mmasp k f) := fun _ h => by
  cases h; exact arm (Instr.mmasp k) (xOf_encode ..)

theorem aclr (k : Ctl) (f : XFields) : Statement (.aclr k f) := fun _ h => by
  cases h; exact arm (Instr.aclr k) (xOf_encode ..)

theorem ard (k : Ctl) (f : EFields) : Statement (.ard k f) := fun _ h => by
  cases h; exact arm (Instr.ard k) (eOf_encode ..)

theorem awr (k : Ctl) (f : EFields) : Statement (.awr k f) := fun _ h => by
  cases h; exact arm (Instr.awr k) (eOf_encode ..)

theorem acvt (k : Ctl) (f : XFields) : Statement (.acvt k f) := fun _ h => by
  cases h; exact arm (Instr.acvt k) (xOf_encode ..)

theorem comp48 (k : Ctl) (f : VFields) : Statement (.comp48 k f) := fun _ h => by
  cases h; exact arm (Instr.comp48 k) (vOf_encode ..)

theorem cbld (k : Ctl) (f : XFields) : Statement (.cbld k f) := fun _ h => by
  cases h; exact arm (Instr.cbld k) (xOf_encode ..)

theorem xvset (k : Ctl) (f : VFields) : Statement (.xvset k f) := fun _ h => by
  cases h; exact arm (Instr.xvset k) (vOf_encode ..)

theorem sclb (k : Ctl) (f : XFields) : Statement (.sclb k f) := fun _ h => by
  cases h; exact arm (Instr.sclb k) (xOf_encode ..)

theorem mbat (k : Ctl) (f : EFields) : Statement (.mbat k f) := fun _ h => by
  cases h; exact arm (Instr.mbat k) (eOf_encode ..)

theorem bwait (k : Ctl) (f : EFields) : Statement (.bwait k f) := fun _ h => by
  cases h; exact arm (Instr.bwait k) (eOf_encode ..)

theorem fact (k : Ctl) (f : XFields) : Statement (.fact k f) := fun _ h => by
  cases h; exact arm (Instr.fact k) (xOf_encode ..)

theorem trsl (k : Ctl) (f : XFields) : Statement (.trsl k f) := fun _ h => by
  cases h; exact arm (Instr.trsl k) (xOf_encode ..)

theorem pivrd (k : Ctl) (f : EFields) : Statement (.pivrd k f) := fun _ h => by
  cases h; exact arm (Instr.pivrd k) (eOf_encode ..)

theorem patch (k : Ctl) (f : EFields) : Statement (.patch k f) := fun _ h => by
  cases h; exact arm (Instr.patch k) (eOf_encode ..)

theorem stamp (k : Ctl) (f : EFields) : Statement (.stamp k f) := fun _ h => by
  cases h; exact arm (Instr.stamp k) (eOf_encode ..)

theorem hshift (k : Ctl) (f : XFields) : Statement (.hshift k f) := fun _ h => by
  cases h; exact arm (Instr.hshift k) (xOf_encode ..)

theorem pnext (k : Ctl) (f : EFields) : Statement (.pnext k f) := fun _ h => by
  cases h; exact arm (Instr.pnext k) (eOf_encode ..)

theorem ppost (k : Ctl) (f : EFields) : Statement (.ppost k f) := fun _ h => by
  cases h; exact arm (Instr.ppost k) (eOf_encode ..)

theorem pend (k : Ctl) (f : EFields) : Statement (.pend k f) := fun _ h => by
  cases h; exact arm (Instr.pend k) (eOf_encode ..)

theorem resid (k : Ctl) (f : EFields) : Statement (.resid k f) := fun _ h => by
  cases h; exact arm (Instr.resid k) (eOf_encode ..)

theorem rprop (k : Ctl) (f : EFields) : Statement (.rprop k f) := fun _ h => by
  cases h; exact arm (Instr.rprop k) (eOf_encode ..)

theorem vpub (k : Ctl) (f : EFields) : Statement (.vpub k f) := fun _ h => by
  cases h; exact arm (Instr.vpub k) (eOf_encode ..)

theorem vread (k : Ctl) (f : EFields) : Statement (.vread k f) := fun _ h => by
  cases h; exact arm (Instr.vread k) (eOf_encode ..)

theorem admitReq (k : Ctl) (f : EFields) : Statement (.admitReq k f) := fun _ h => by
  cases h; exact arm (Instr.admitReq k) (eOf_encode ..)

theorem dline (k : Ctl) (f : EFields) : Statement (.dline k f) := fun _ h => by
  cases h; exact arm (Instr.dline k) (eOf_encode ..)

theorem mbrd (k : Ctl) (f : EFields) : Statement (.mbrd k f) := fun _ h => by
  cases h; exact arm (Instr.mbrd k) (eOf_encode ..)

theorem mbwr (k : Ctl) (f : EFields) : Statement (.mbwr k f) := fun _ h => by
  cases h; exact arm (Instr.mbwr k) (eOf_encode ..)

theorem wfetch (k : Ctl) (f : EFields) : Statement (.wfetch k f) := fun _ h => by
  cases h; exact arm (Instr.wfetch k) (eOf_encode ..)

theorem genrd (k : Ctl) (f : EFields) : Statement (.genrd k f) := fun _ h => by
  cases h; exact arm (Instr.genrd k) (eOf_encode ..)

theorem send (k : Ctl) (f : EFields) : Statement (.send k f) := fun _ h => by
  cases h; exact arm (Instr.send k) (eOf_encode ..)

theorem recv (k : Ctl) (f : EFields) : Statement (.recv k f) := fun _ h => by
  cases h; exact arm (Instr.recv k) (eOf_encode ..)

theorem xchg (k : Ctl) (f : EFields) : Statement (.xchg k f) := fun _ h => by
  cases h; exact arm (Instr.xchg k) (eOf_encode ..)

theorem throt (k : Ctl) (f : EFields) : Statement (.throt k f) := fun _ h => by
  cases h; exact arm (Instr.throt k) (eOf_encode ..)

theorem trap (k : Ctl) (f : CFields) : Statement (.trap k f) := fun _ h => by
  cases h; exact arm (Instr.trap k) (cOf_encode ..)

theorem tret (k : Ctl) (f : CFields) : Statement (.tret k f) := fun _ h => by
  cases h; exact arm (Instr.tret k) (cOf_encode ..)

theorem svc (k : Ctl) (f : CFields) : Statement (.svc k f) := fun _ h => by
  cases h; exact arm (Instr.svc k) (cOf_encode ..)

theorem srr (k : Ctl) (f : KFields) : Statement (.srr k f) := fun _ h => by
  cases h; exact arm (Instr.srr k) (kOf_encode ..)

theorem srw (k : Ctl) (f : KFields) : Statement (.srw k f) := fun _ h => by
  cases h; exact arm (Instr.srw k) (kOf_encode ..)

theorem preempt (k : Ctl) (f : EFields) : Statement (.preempt k f) := fun _ h => by
  cases h; exact arm (Instr.preempt k) (eOf_encode ..)

theorem ctxsv (k : Ctl) (f : EFields) : Statement (.ctxsv k f) := fun _ h => by
  cases h; exact arm (Instr.ctxsv k) (eOf_encode ..)

theorem ctxld (k : Ctl) (f : EFields) : Statement (.ctxld k f) := fun _ h => by
  cases h; exact arm (Instr.ctxld k) (eOf_encode ..)

theorem tlbinv (k : Ctl) (f : EFields) : Statement (.tlbinv k f) := fun _ h => by
  cases h; exact arm (Instr.tlbinv k) (eOf_encode ..)

theorem bias (k : Ctl) (f : EFields) : Statement (.bias k f) := fun _ h => by
  cases h; exact arm (Instr.bias k) (eOf_encode ..)

theorem mapg (k : Ctl) (f : EFields) : Statement (.mapg k f) := fun _ h => by
  cases h; exact arm (Instr.mapg k) (eOf_encode ..)

theorem freeze (k : Ctl) (f : EFields) : Statement (.freeze k f) := fun _ h => by
  cases h; exact arm (Instr.freeze k) (eOf_encode ..)

theorem thaw (k : Ctl) (f : EFields) : Statement (.thaw k f) := fun _ h => by
  cases h; exact arm (Instr.thaw k) (eOf_encode ..)

theorem pairWord (k : Ctl) (f : PairFields) : Statement (.pairWord k f) := fun _ h => by
  cases h
  show instrOf (0xF0 + f.opA.toNat) k _ = _
  rw [pair_arm, pOf_encode]; rfl

theorem clauseIssue (core sched slot : Nat) : Statement (.clauseIssue core sched slot) := fun _ h => nomatch h

theorem registerWriteComplete (core slot id : Nat) (lanes : Mask) : Statement (.registerWriteComplete core slot id lanes) := fun _ h => nomatch h

theorem storePerform (core slot id : Nat) : Statement (.storePerform core slot id) := fun _ h => nomatch h

theorem homeRequest (slice line : Nat) : Statement (.homeRequest slice line) := fun _ h => nomatch h

theorem drainRequest (core : Nat) : Statement (.drainRequest core) := fun _ h => nomatch h

theorem drainComplete (id : Nat) : Statement (.drainComplete id) := fun _ h => nomatch h

theorem flushMarker (path : Nat) : Statement (.flushMarker path) := fun _ h => nomatch h

theorem watchWake (core slot : Nat) : Statement (.watchWake core slot) := fun _ h => nomatch h

theorem lookoutPoll (core slot : Nat) : Statement (.lookoutPoll core slot) := fun _ h => nomatch h

theorem probeComplete (core slot : Nat) : Statement (.probeComplete core slot) := fun _ h => nomatch h

theorem skidderLanding (core cmd piece : Nat) (good : Bool) : Statement (.skidderLanding core cmd piece good) := fun _ h => nomatch h

theorem multicastRegister (core cmd : Nat) : Statement (.multicastRegister core cmd) := fun _ h => nomatch h

theorem matrixAccept (core slot : Nat) : Statement (.matrixAccept core slot) := fun _ h => nomatch h

theorem engineWordStart (core : Nat) : Statement (.engineWordStart core) := fun _ h => nomatch h

theorem accumulatorWrite (core : Nat) : Statement (.accumulatorWrite core) := fun _ h => nomatch h

theorem scrubDone (core unit : Nat) : Statement (.scrubDone core unit) := fun _ h => nomatch h

theorem teamPop (ctx team pick : Nat) : Statement (.teamPop ctx team pick) := fun _ h => nomatch h

theorem post (idx : Nat) : Statement (.post idx) := fun _ h => nomatch h

theorem withdraw (idx : Nat) : Statement (.withdraw idx) := fun _ h => nomatch h

theorem deadlineExpiry (shard handle : Nat) : Statement (.deadlineExpiry shard handle) := fun _ h => nomatch h

theorem notify (rid ctx mbox : Nat) (relaxed : Bool) : Statement (.notify rid ctx mbox relaxed) := fun _ h => nomatch h

theorem mailboxInWrite (rid ctx mbox word : Nat) (val : Word) : Statement (.mailboxInWrite rid ctx mbox word val) := fun _ h => nomatch h

theorem oack (rid ctx mbox : Nat) : Statement (.oack rid ctx mbox) := fun _ h => nomatch h

theorem ovrclr (rid ctx mbox : Nat) : Statement (.ovrclr rid ctx mbox) := fun _ h => nomatch h

theorem swpost (rid ctx : Nat) : Statement (.swpost rid ctx) := fun _ h => nomatch h

theorem wfetchLanding (ctx team : Nat) : Statement (.wfetchLanding ctx team) := fun _ h => nomatch h

theorem flitRoute (router : Nat) : Statement (.flitRoute router) := fun _ h => nomatch h

theorem flitEject (core : Nat) : Statement (.flitEject core) := fun _ h => nomatch h

theorem bridgeCross (idx : Nat) : Statement (.bridgeCross idx) := fun _ h => nomatch h

theorem onausPacket (path : Nat) (good : Bool) : Statement (.onausPacket path good) := fun _ h => nomatch h

theorem onausLinkLoss (port : Nat) : Statement (.onausLinkLoss port) := fun _ h => nomatch h

theorem linkRetrain (port : Nat) : Statement (.linkRetrain port) := fun _ h => nomatch h

theorem peerRequest (peer tenant : Nat) (kind : Access) (addr n : Nat) (data : List Byte) : Statement (.peerRequest peer tenant kind addr n data) := fun _ h => nomatch h

theorem hostBar2Access (rid : Nat) (write : Bool) (addr n : Nat) (data : List Byte) : Statement (.hostBar2Access rid write addr n data) := fun _ h => nomatch h

theorem cxlMemAccess (write : Bool) (addr n : Nat) (data : List Byte) : Statement (.cxlMemAccess write addr n data) := fun _ h => nomatch h

theorem atomicopCompleter (rid : Nat) (op : HostAtomic) (n addr : Nat) (opnd cmp : BitVec 128) : Statement (.atomicopCompleter rid op n addr opnd cmp) := fun _ h => nomatch h

theorem completerAbort (rid : Nat) (target : HostTarget) : Statement (.completerAbort rid target) := fun _ h => nomatch h

theorem atomicopCompletion (core slot id lane : Nat) (good : Bool) : Statement (.atomicopCompletion core slot id lane good) := fun _ h => nomatch h

theorem establish (place : List (List Nat)) (frames : List Nat) : Statement (.establish place frames) := fun _ h => nomatch h

theorem teardown : Statement (.teardown) := fun _ h => nomatch h

theorem lockrid : Statement (.lockrid) := fun _ h => nomatch h

theorem unlockrid : Statement (.unlockrid) := fun _ h => nomatch h

theorem attest : Statement (.attest) := fun _ h => nomatch h

theorem ctxstate : Statement (.ctxstate) := fun _ h => nomatch h

theorem fabric : Statement (.fabric) := fun _ h => nomatch h

theorem commandDone : Statement (.commandDone) := fun _ h => nomatch h

theorem eventClear (ones : Word) : Statement (.eventClear ones) := fun _ h => nomatch h

theorem registerWrite (rid : Nat) (reg : HostReg) (val : Word) : Statement (.registerWrite rid reg val) := fun _ h => nomatch h

theorem faultrecRemove (ctx : Nat) : Statement (.faultrecRemove ctx) := fun _ h => nomatch h

theorem waymaskWrite (ctx : Nat) (val : Word) : Statement (.waymaskWrite ctx val) := fun _ h => nomatch h

theorem teamQuiesced (ctx team : Nat) : Statement (.teamQuiesced ctx team) := fun _ h => nomatch h

theorem boot (failed : Nat) : Statement (.boot failed) := fun _ h => nomatch h

theorem d3coldExit (failed : Nat) : Statement (.d3coldExit failed) := fun _ h => nomatch h

theorem clkstepDown (die : Nat) : Statement (.clkstepDown die) := fun _ h => nomatch h

theorem clkstepUp (die : Nat) : Statement (.clkstepUp die) := fun _ h => nomatch h

theorem thermalStop (die : Nat) : Statement (.thermalStop die) := fun _ h => nomatch h

theorem pldmMonitor (power : Nat) (temps : List Nat) (coolant : Nat) : Statement (.pldmMonitor power temps coolant) := fun _ h => nomatch h

theorem pldmFirmwareUpdate (image : List Byte) : Statement (.pldmFirmwareUpdate image) := fun _ h => nomatch h

theorem mctpAttest (nonce : BitVec 256) : Statement (.mctpAttest nonce) := fun _ h => nomatch h

theorem correctedError (die : Nat) : Statement (.correctedError die) := fun _ h => nomatch h

theorem uncorrectableError (site : ErrorSite) : Statement (.uncorrectableError site) := fun _ h => nomatch h

theorem thermalStopNear (die : Nat) : Statement (.thermalStopNear die) := fun _ h => nomatch h

theorem cmdWriteIgnored (code : Nat) : Statement (.cmdWriteIgnored code) := fun _ h => nomatch h

theorem powerLimitSet (watts : Nat) : Statement (.powerLimitSet watts) := fun _ h => nomatch h

theorem mailboxUnitReadComplete (ctx mbox : Nat) : Statement (.mailboxUnitReadComplete ctx mbox) := fun _ h => nomatch h

theorem engineWritesLanded (core id : Nat) : Statement (.engineWritesLanded core id) := fun _ h => nomatch h

theorem cxlCacheSnoop (line : Nat) (invalidate : Bool) (data : List Byte) : Statement (.cxlCacheSnoop line invalidate data) := fun _ h => nomatch h

end Sys2Proof.Laws.Encoding
end

