-- ==== Sys2Proof/Laws/Results.lean ====
section
/-! SUPPORT. What a word that writes one predicate leaves: the predicate lane by lane, and everything else. -/

namespace Sys2Proof.Machine

/-! ## Predicates -/

/-- Keys of predicates: a put of one changes that predicate alone. -/
def PredKey (k : Nat) : Prop := 8448 ≤ k ∧ k < 8960

theorem predKey_range {n l : Nat} (hn : n < 16) (hl : l < 32) : PredKey (predKey n l) := by
  unfold PredKey predKey; omega

/-- What a put of a predicate key leaves of a warp. -/
theorem putKey_predFrame (w : Warp) {k : Nat} (hk : PredKey k) (v : Word) :
    w.putKey k v = { w with preds := (w.putKey k v).preds, outs := w.outs.map fun o => o.without k } := by
  unfold PredKey at hk
  unfold Warp.putKey Warp.storeKey
  rw [if_neg (by omega), if_neg (by omega), if_pos (by omega)]

theorem pred_putKey (w : Warp) {n l : Nat} (hn : n < 16) (hl : l < 32) (v : Word) (m j : Nat) (hm : m < 16) :
    (w.putKey (predKey n l) v).pred m j = if m = n ∧ j = l then v.getLsbD 0 else w.pred m j := by
  unfold Warp.putKey Warp.storeKey Warp.pred
  rw [if_neg (by unfold predKey; omega), if_neg (by unfold predKey; omega), if_pos (by unfold predKey; omega)]
  have h1 : (predKey n l - 8448) / 16 = l := by unfold predKey; omega
  have h2 : (predKey n l - 8448) % 16 = n := by unfold predKey; omega
  simp only [h1, h2, tmod, tget_tset]
  by_cases hj : j = l
  · subst hj
    simp only [if_true, and_true]
    have hb : ((1#16 : BitVec 16) <<< n).getLsbD m = decide (m = n) := by
      rw [BitVec.getLsbD_shiftLeft, BitVec.getLsbD_one]
      by_cases h : m = n
      · subst h; simp; omega
      · by_cases h' : m < n
        · simp [h', h]
        · have : m - n ≠ 0 := by omega
          simp [this, h]
    cases hv : v.getLsbD 0 <;>
      simp only [if_true, Bool.false_eq_true, if_false, BitVec.getLsbD_or, BitVec.getLsbD_and, BitVec.getLsbD_not, hb] <;>
      by_cases h : m = n <;> simp [h, hm, hn]
  · simp [hj]

/-- The value that a list of predicate writes leaves: the last one's. -/
theorem pred_putMany (ls : List Nat) (w : Warp) (n : Nat) (hn : n < 16) (hl : ∀ l ∈ ls, l < 32) (g : Nat → Bool) (m j : Nat) (hm : m < 16) :
    (w.putMany (ls.map fun l => (predKey n l, if g l then 1#32 else 0#32))).pred m j =
      if m = n ∧ j ∈ ls then g j else w.pred m j := by
  induction ls generalizing w with
  | nil => simp [Warp.putMany]
  | cons x xs ih =>
    rw [List.map_cons, Warp.putMany, ih _ fun l h => hl l (by simp [h]), pred_putKey w hn (hl x (by simp)) _ m j hm]
    by_cases h1 : m = n <;> by_cases h2 : j ∈ xs <;> by_cases h3 : j = x <;> simp_all
    cases g x <;> simp

theorem putMany_predFrame (ws : List (Nat × Word)) (w : Warp) (h : ∀ p ∈ ws, PredKey p.1) :
    w.putMany ws = { w with
      preds := (w.putMany ws).preds
      outs := w.outs.map fun o => { o with tgts := o.tgts.filter fun t => !(ws.map Prod.fst).contains t.key } } := by
  induction ws generalizing w with
  | nil => simp [Warp.putMany]
  | cons p ws ih =>
    obtain ⟨k, v⟩ := p
    rw [Warp.putMany, ih _ fun q hq => h q (by simp [hq])]
    rw [putKey_predFrame w (h (k, v) (by simp)) v]
    exact congrArg (fun os => ({ w with preds := _, outs := os } : Warp)) (without_filter k _ w.outs)

/-- A word that writes one predicate. -/
theorem writesPred_wrote (s : State) (k : Ctl) (n : Nat) (hn : n < 16) (fl : Flags) (g : Nat → Bool) :
    WrotePred s (s.finish k (writesPred s.me k n g) fl) k n fl g := by
  have hr : ∀ p ∈ writesPred s.me k n g, PredKey p.1 := by
    intro p hp
    simp only [writesPred, dstLanes, List.mem_map] at hp
    obtain ⟨l, hl, rfl⟩ := hp
    exact predKey_range hn ((mem_maskLanes _ _).1 hl).1
  have hp (m j : Nat) (hm : m < 16) : (s.finish k (writesPred s.me k n g) fl).me.pred m j =
      if m = n ∧ j ∈ maskLanes (s.me.eff k) then g j else s.me.pred m j := by
    rw [finish_me]
    exact pred_putMany _ s.me n hn (fun l h => ((mem_maskLanes _ _).1 h).1) g m j hm
  have hme := finish_me s k (writesPred s.me k n g) fl
  rw [putMany_predFrame _ _ hr] at hme
  refine ⟨⟨?_, ?_⟩, ?_, ?_, ?_, ⟨?_, ?_⟩, ?_, ?_⟩
  · rw [finish_me]; rfl
  · rw [hme]; rfl
  · intro l hl
    rw [hp n l hn]
    simp only [mem_maskLanes, hl, true_and]
  · intro m l hm hne
    rw [hp m l hm]
    simp [hne]
  · intro key; rw [hme]; rfl
  · intro key _; rw [hme]; rfl
  · rw [hme]
    have : (writesPred s.me k n g).map Prod.fst = (maskLanes (s.me.eff k)).map (predKey n) := by
      simp [writesPred, dstLanes, Function.comp_def]
    show List.map _ s.me.outs = _
    rw [this]
  · rw [hme]; rfl
  · rw [hme]; rfl

end Sys2Proof.Machine
end

