-- ==== Sys2Proof/Tests/Slice0.lean ====
section
/-! SUPPORT. Tests: ill-formed words that the static check refuses, words of the spec decoded, single steps with results
worked out by hand from the spec, and for every statement states and operands that meet its hypotheses. -/

namespace Sys2Proof.Tests

set_option Elab.async false

open Sys2Proof Sys2Proof.Machine

/-! ## A small machine -/

/-- One warp of context 0 in a block's phase on core 0, at its clause's only word; the page at 0x1_0000_0000 is mapped. -/
def world : State :=
  let s := { State.reset.withFetchWord 64 0 with agenda := [] }
  let s := s.modTeam 0 fun t =>
    { t with scratchSize := 4096
             folds := [(1, { state := 1#2, asize := 256#32, cons := 1#5, consn := 1#5 }),
               (2, { state := 2#2, asize := 256#32, cons := 2#5, consn := 2#5 })]
             streams := [(0, { base := 0x100000200#64, stride := 16#24, slots := 4#8, count := 1#8 }),
               (1, { base := 0x100000200#64, stride := 16#24, slots := 4#8 }),
               (2, { base := 0x100000200#64, stride := 16#24, slots := 4#8, count := 4#8 })] }
  let s := s.modCtx 0 fun c =>
    { c with nviews := 4, nblocks := 2, quotaLimit := 100#32, tvec := 0x100000000#64
             sweeps := [{ id := 7#32, next := 0, n := 2, arg := 9#32 }] }
  s.modMe fun w =>
    { w with
      priv := false, window := some { slot := 0 }
      gregs := [(1, { vbase := 0x100000100#64 })]
      regs := tsetMany 0#32 [] [(sKeyUser 2, 0x00000100#32), (sKeyUser 3, 1#32), (sKeyUser 4, 0#32), (sKeyUser 6, 0x00000000#32),
        (sKeyUser 7, 1#32), (sKeyUser 8, 128#32), (sKeyUser 9, 1#32)] }

def user (g : Warp → Warp) : State := world.modMe g

/-- The same warp in supervisor mode. -/
def super (g : Warp → Warp) : State := world.modMe fun w => g { w with priv := true }

/-- Guarded by p0, which no lane holds. -/
def off : Ctl := { sw := false, g := true, gp := 0#4, n := false }

/-- Guarded by p1. -/
def onP1 : Ctl := { sw := false, g := true, gp := 1#4, n := false }

def nv : Operand := .none

def V (d a b c : Operand) (ty minor mod : Nat) : VFields :=
  { d, a, b, c, ty := BitVec.ofNat 4 ty, minor := BitVec.ofNat 5 minor, mod := BitVec.ofNat 4 mod }

def K (d : Operand) (func imm : Nat) : KFields := { d, func := BitVec.ofNat 8 func, imm := BitVec.ofNat 32 imm }

def C (src : Operand) (func target : Nat) : CFields := { src, func := BitVec.ofNat 8 func, target := BitVec.ofNat 32 target }

def E (d a b : Operand) (fold func : Nat) : EFields := { d, a, b, fold := BitVec.ofNat 6 fold, func := BitVec.ofNat 16 func }

/-- A plain access through g1. -/
def M (data o : Operand) (size minor : Nat) : MFields :=
  { data, greg := 1#3, off := o, imm12 := 0#12, size := BitVec.ofNat 3 size, hint := 0#3, order := 0#2, scope := 0#4
    minor := BitVec.ofNat 4 minor }

/-- The same with an order and a scope. -/
def Mo (data o : Operand) (size minor order scope : Nat) : MFields :=
  { M data o size minor with order := BitVec.ofNat 2 order, scope := BitVec.ofNat 4 scope }

def X (q ap bp lp mt func : Nat) : XFields :=
  { q := BitVec.ofNat 4 q, ap := BitVec.ofNat 7 ap, bp := BitVec.ofNat 7 bp, lp := BitVec.ofNat 7 lp, mt := BitVec.ofNat 8 mt
    func := BitVec.ofNat 16 func }

/-! ## Issues, decided -/

/-- The conditions of Issues, in their order. -/
def conditions (s : State) (k : Ctl) (i : Instr) : List Bool :=
  [legal i, allocOk s.me (sig i), dynLegal s.me i, tableLegal (s.team s.me.teamKey) i, i.view.isSome,
    (i.view.bind fun x => classBit x.op).all fun b => s.me.cmask.getLsbD b, !mustBeLast i || s.me.left == 1,
    !lacksPrivilege s s.me i, !partialMask s.me k i, !mustWait s.me k i,
    !ctxStrict (s.ctx s.me.ctx) || (hazard s s.me k i).isNone]

def issuesB (s : State) (k : Ctl) (i : Instr) : Bool := (conditions s k i).all id

theorem issues_of {s : State} {k : Ctl} {i : Instr} (h : issuesB s k i = true) : Issues s k i := by
  have c (n : Fin 11) : (conditions s k i)[n] = true := List.all_eq_true.mp h _ (List.getElem_mem n.isLt)
  exact {
    fields := c 0, allocation := c 1, format := c 2, tables := c 3, isWord := c 4
    classBits := fun x b hx hb => by simpa [conditions, hx, hb] using c 5
    last := fun hl => by simpa [conditions, hl] using c 6
    privilege := by simpa [conditions] using c 7
    agree := by simpa [conditions] using c 8
    ready := by simpa [conditions] using c 9
    noHazard := fun hs => by simpa [conditions, hs] using c 10 }

theorem issues_all {s : State} {k : Ctl} {is : List Instr} (h : (is.all fun i => issuesB s k i) = true) :
    ∀ i ∈ is, Issues s k i := fun i hi => issues_of (List.all_eq_true.mp h i hi)

/-- A word of memory is a header that the warp may transfer to. -/
theorem headerAt_of {s : State} {va : Dword} (h : (va.toNat % 8 == 0 && match s.codeWord s.me va with
    | .ok x => isHeader x | .error _ => false) = true) : HeaderAt s va := by
  rw [Bool.and_eq_true] at h
  refine ⟨by simpa using h.1, ?_⟩
  revert h
  cases hc : s.codeWord s.me va with
  | ok x => intro h; exact ⟨x, rfl, h.2⟩
  | error e => intro h; cases h.2


/-! ## Answers, decided -/

def okB {ε α : Type} (x : Except ε α) (p : α → Bool := fun _ => true) : Bool :=
  match x with
  | .ok a => p a
  | .error _ => false

theorem ok_of {ε α : Type} {x : Except ε α} {p : α → Bool} (h : okB x p = true) : ∃ a, x = .ok a ∧ p a = true := by
  cases x with
  | ok a => exact ⟨a, rfl, h⟩
  | error e => cases h

theorem error_of {ε α : Type} {x : Except ε α} (h : okB x = false) : ∃ e, x = .error e := by
  cases x with
  | ok a => cases h
  | error e => exact ⟨e, rfl⟩

def someB {α : Type} (x : Option α) (p : α → Bool := fun _ => true) : Bool :=
  match x with
  | some a => p a
  | none => false

theorem some_of {α : Type} {x : Option α} {p : α → Bool} (h : someB x p = true) : ∃ a, x = some a ∧ p a = true := by
  cases x with
  | some a => exact ⟨a, rfl, h⟩
  | none => cases h

/-! ## States and operands that meet the hypotheses of the statements: the words whose only condition is that they issue -/

theorem witness_MovesAndArithmetic : ∀ i ∈ ([.mov plainCtl (V (.v 1) (.v 2) nv nv 0 0 0), .mov plainCtl (V (.v 2) (.v 254) nv nv 3 0 0),
    .movk plainCtl (K (.v 1) 0 5), .movk plainCtl (K (.v 254) 1 5), .movk plainCtl (K (.s 126) 2 5),
    .sel plainCtl (V (.v 1) (.v 2) (.v 3) (.v 15) 0 0 0),
    .iadd plainCtl (V (.v 1) (.v 2) (.v 3) nv 2 0 1), .isub plainCtl (V (.s 1) (.s 2) (.imm 3) nv 0 0 0),
    .imul plainCtl (V (.v 1) (.v 2) (.v 3) nv 0 0 0), .imulh plainCtl (V (.v 1) (.v 2) (.v 3) nv 2 0 0),
    .imad plainCtl (V (.v 1) (.v 2) (.v 3) (.v 4) 0 0 0)] : List Instr), Issues world plainCtl i :=
  issues_all (by decide +kernel)

theorem witness_IntegerRanges : ∀ i ∈ ([.imin plainCtl (V (.v 1) (.v 2) (.v 3) nv 2 0 0), .imax plainCtl (V (.v 1) (.v 2) (.v 3) nv 13 0 0),
    .iabs plainCtl (V (.v 1) (.v 2) nv nv 2 0 1), .ineg plainCtl (V (.v 1) (.v 2) nv nv 2 0 1),
    .isat plainCtl (V (.v 1) (.v 2) (.v 3) nv 2 0 0), .icvt plainCtl (V (.v 2) (.v 4) nv nv 4 3 1),
    .icvt plainCtl (V (.v 2) (.v 4) nv nv 2 3 0)] : List Instr), Issues world plainCtl i :=
  issues_all (by decide +kernel)

theorem witness_BitsAndShifts : ∀ i ∈ (([.and, .or, .xor, .andn, .shl, .shr, .sar, .rot] : List (Ctl → VFields → Instr)).map fun c =>
    c plainCtl (V (.v 1) (.v 2) (.v 3) nv 0 0 0)) ++ [.bfx plainCtl (V (.v 1) (.v 2) (.v 3) nv 2 0 0),
    .bfi plainCtl (V (.v 1) (.v 2) (.v 3) (.v 4) 0 0 0), .bperm plainCtl (V (.v 1) (.v 2) (.v 3) (.v 4) 0 0 0),
    .popc plainCtl (V (.v 1) (.v 2) nv nv 0 0 0), .clz plainCtl (V (.v 1) (.v 2) nv nv 0 0 0),
    .brev plainCtl (V (.v 1) (.v 2) nv nv 0 0 0)], Issues world plainCtl i :=
  issues_all (by decide +kernel)

theorem witness_Predicates : ∀ i ∈ ([.plog plainCtl (V (.v 1) (.v 2) (.v 3) nv 0 0 8), .pmov plainCtl (V (.v 1) nv nv nv 0 0 0),
    .pmov plainCtl (V nv (.v 1) nv nv 0 1 0), .pmov plainCtl (V (.v 1) (.v 2) nv nv 0 2 0), .pmov plainCtl (V (.v 1) (.v 2) nv nv 0 3 0),
    .icmp plainCtl (V (.v 15) (.v 2) (.v 4) nv 3 2 0), .icmp plainCtl (V (.v 0) (.v 2) (.v 4) nv 0 5 2)] : List Instr),
    Issues world plainCtl i :=
  issues_all (by decide +kernel)

theorem witness_WideArithmetic : ∀ i ∈ ([.iadd64 plainCtl (V (.v 2) (.v 4) (.v 6) nv 3 0 0),
    .iadd64 plainCtl (V (.v 2) (.v 4) (.v 6) nv 4 2 1), .imad64 plainCtl (V (.v 2) (.v 4) (.v 6) (.v 8) 3 0 0),
    .lea plainCtl (V (.v 2) (.v 4) (.v 6) nv 0 1 3)] : List Instr), Issues world plainCtl i :=
  issues_all (by decide +kernel)

theorem witness_WarpRegisters : (∀ i ∈ ([.exrd plainCtl (V (.s 1) nv nv nv 0 2 0), .exwr plainCtl (V nv (.s 1) nv nv 0 3 0),
    .setfmt plainCtl (K nv 0 0x421), .setfmt plainCtl (K nv 0 0xFFFFFFFF), .getfmt plainCtl (V (.s 1) nv nv nv 0 0 0),
    .nop plainCtl (V nv nv nv nv 0 0 0)] : List Instr), Issues world plainCtl i) ∧
    fmtLegal 0x421#32 = true ∧ fmtLegal 0xFFFFFFFF#32 = false :=
  ⟨issues_all (by decide +kernel), by decide⟩

/-! ## Floating point -/

theorem witness_Rounding : fp32 ∈ [fp64, fp32, f19, bf16, fp16, e4m3, e5m2, e3m2, e2m3, e2m1] ∧ (0x3F800000 : Nat) < 2 ^ fp32.width ∧
    fp32.decode (0x3F800000 * 2 ^ fp32.shift) = .fin false 0x800000 (-23) ∧ (Machine.Num.inf true).isNan = false := by
  decide +kernel

theorem witness_FloatArithmetic : ∀ i ∈ ([.fadd plainCtl (V (.v 1) (.v 2) (.v 3) nv 5 0 1), .fsub plainCtl (V (.v 1) (.v 2) (.v 3) nv 8 0 1),
    .fmul plainCtl (V (.v 1) (.v 2) (.v 3) nv 9 0 1), .ffma plainCtl (V (.v 1) (.v 2) (.v 3) (.v 4) 7 0 1),
    .dadd plainCtl (V (.v 2) (.v 4) (.v 6) nv 6 0 0), .dmul plainCtl (V (.v 2) (.v 4) (.v 6) nv 6 0 0),
    .dfma plainCtl (V (.v 2) (.v 4) (.v 6) (.v 8) 6 0 0)] : List Instr), Issues world plainCtl i :=
  issues_all (by decide +kernel)

theorem witness_FloatMinMaxAndCompare : ∀ i ∈ ([.fmin plainCtl (V (.v 1) (.v 2) (.v 3) nv 5 0 0),
    .fmax plainCtl (V (.v 1) (.v 2) (.v 3) nv 8 0 0), .fcmp plainCtl (V (.v 15) (.v 2) (.v 3) nv 5 7 2),
    .dcmp plainCtl (V (.v 1) (.v 2) (.v 4) nv 6 2 0)] : List Instr), Issues world plainCtl i :=
  issues_all (by decide +kernel)

theorem witness_Classify : Issues world plainCtl (.fclass plainCtl (V (.v 1) (.v 2) nv nv 6 0 0)) := issues_of (by decide +kernel)

theorem witness_FloatFormats : ∀ i ∈ ([.frnd plainCtl (V (.v 2) (.v 4) nv nv 6 4 0), .fcvt plainCtl (V (.v 2) (.v 4) nv nv 6 5 0),
    .f2i plainCtl (V (.v 2) (.v 4) nv nv 3 5 4), .i2f plainCtl (V (.v 2) (.v 4) nv nv 5 4 4),
    .pack plainCtl (V (.v 1) (.v 2) (.v 3) nv 8 0 0), .unpk plainCtl (V (.v 1) (.v 2) nv (.s 1) 8 1 0)] : List Instr),
    Issues world plainCtl i :=
  issues_all (by decide +kernel)

theorem witness_SpecialFunctionUnit : ∀ i ∈ ([.rcp, .rsq, .sqrt, .exp2, .log2, .exp, .log, .sin, .cos, .tanh, .sigm] :
    List (Ctl → VFields → Instr)).map fun c => c plainCtl (V (.v 1) (.v 2) nv nv 5 0 0), Issues world plainCtl i :=
  issues_all (by decide +kernel)

/-- A signalling NaN; 2, whose reciprocal is exact; 3.0e38, whose reciprocal is tiny; -2^-149, whose reciprocal
overflows; and powers of 2 that EXP2 and LOG2 give exactly. -/
theorem witness_SpecialFunctionUnit_values : (decF32 0x7F800001#32).isNan = true ∧ FiniteF32 0x40000000#32 false 2 ∧
    FiniteF32 0x80000001#32 true (-1 / 2 ^ 149) ∧ (2 : ℚ) ^ 128 - 2 ^ 103 ≤ |1 / (-1 / 2 ^ 149)| ∧
    |1 / (2 : ℚ)| < 2 ^ 128 - 2 ^ 103 ∧ (Machine.Num.fin true 3 0).val = (-3 : Int) ∧
    (Machine.Num.fin false 1 (-3)).val = 2 ^ (-3 : Int) ∧ ((-3 : Int).natAbs < 2 ^ 24) ∧ (Machine.Num.fin false 2 (-1)).val = 1 ∧
    (sfExp false (decF32 0x40000000#32)).2.getLsbD 4 = true := by
  refine ⟨by decide, ⟨0x800000, -22, by decide, ?_⟩, ⟨1, -149, by decide, ?_⟩, by norm_num, by norm_num, by norm_num [Machine.Num.val],
    by norm_num [Machine.Num.val], by decide, by norm_num [Machine.Num.val], by decide +kernel⟩
  · rw [show decF32 0x40000000#32 = .fin false 0x800000 (-22) by decide]; norm_num [Machine.Num.val]
  · rw [show decF32 0x80000001#32 = .fin true 1 (-149) by decide]; norm_num [Machine.Num.val]

theorem witness_StatusAndSeed : ∀ i ∈ ([.fstat plainCtl (V (.s 1) nv nv nv 0 0 0), .fstat plainCtl (V (.s 1) nv nv nv 0 1 0),
    .fstat plainCtl (V nv (.s 1) nv nv 0 2 0), .seedr plainCtl (V (.v 1) nv nv nv 0 0 0),
    .seedr plainCtl (V nv (.v 1) nv nv 0 1 0)] : List Instr), Issues world plainCtl i :=
  issues_all (by decide +kernel)

theorem witness_PairWords : Issues world plainCtl (.pairWord plainCtl
    { opA := 1#4, dA := 1#7, aA := 2#7, bA := 3#8, opB := 3#4, dB := 2#7, aB := 2#7, bB := 3#8, z := 0#1 }) :=
  issues_of (by decide +kernel)

/-! ## Lanes -/

theorem witness_CrossLane : ∀ i ∈ ([.vote plainCtl (V (.s 1) (.v 2) nv nv 0 3 1), .bcast plainCtl (V (.v 2) (.v 4) (.imm 31) nv 3 0 0),
    .bcast plainCtl (V (.v 1) (.v 4) nv nv 0 1 0), .shfl plainCtl (V (.v 1) (.v 2) (.imm 1) (.v 3) 0 1 5),
    .shfl plainCtl (V (.v 2) (.v 4) (.imm 1) nv 3 2 0), .matchv plainCtl (V (.v 1) (.v 2) nv (.v 3) 3 0 0)] : List Instr),
    Issues world plainCtl i :=
  issues_all (by decide +kernel)

theorem witness_ReductionsScansAndSums : ∀ i ∈ ([.lred plainCtl (V (.s 1) (.v 2) nv nv 1 0 0), .lred plainCtl (V (.v 2) (.v 4) nv nv 4 0 2),
    .lscan plainCtl (V (.v 1) (.v 2) nv nv 1 0 1), .lscan plainCtl (V (.v 2) (.v 4) nv nv 3 1 1),
    .segred plainCtl (V (.v 1) (.v 2) (.s 1) nv 1 0 1)] : List Instr), Issues world plainCtl i :=
  issues_all (by decide +kernel)

theorem witness_RowBalance : ∀ i ∈ ([.rbal plainCtl (V (.v 2) (.v 4) (.s 1) nv 1 0 0),
    .rwalk plainCtl (V (.v 254) (.v 4) (.s 1) (.v 15) 1 0 0)] : List Instr), Issues world plainCtl i :=
  issues_all (by decide +kernel)

/-! ## Traps and control -/

def setRegs (ws : List (Nat × Word)) (w : Warp) : Warp := { w with regs := tsetMany 0#32 w.regs ws }

/-- The pair s6:s7 holds an address. -/
def at67 (va : Nat) (w : Warp) : Warp :=
  setRegs [(sKeyUser 6, BitVec.ofNat 32 va), (sKeyUser 7, BitVec.ofNat 32 (va / 2 ^ 32))] w

theorem witness_StepRunsWord : let s := State.reset.withFetchWord 64 0x0001FFFFFFFFE000
    s.mgmt.stopped = false ∧ s.nextTurn = .word 0 0 ∧ s.runner 0 0 = some 0 ∧
    (s.beginStep.asIssuer 0).me.pc.toNat % 8 = 0 ∧
    okB ((s.beginStep.asIssuer 0).codeFetch (s.beginStep.asIssuer 0).me (s.beginStep.asIssuer 0).me.pc)
      (fun w => w == 0x0001FFFFFFFFE000#64) = true ∧
    (decode 0x0001FFFFFFFFE000#64).toOption.isSome = true ∧ (decode 0#64).toOption = none := by
  decide +kernel

/-- A boot ends in one way or another, whatever the Birseob that it runs is. -/
theorem bootCan_some (s : State) : ∃ failed, s.bootCan failed = true := by
  cases h : birseobOk (s.mgmt.nextBirseob.getD Config.birseobImage)
  · exact ⟨1, by simp [State.bootCan, h]⟩
  · exact ⟨0, by simp [State.bootCan, h]⟩

theorem witness_EveryStepAnswers : State.reset.mgmt.stopped = false ∧
    (let s := ({ State.reset with mgmt := { State.reset.mgmt with stopped := true }, agenda := [.netClock] } : State)
     s.mgmt.stopped = true ∧ ∀ failed, s.nextTurn ≠ .event (.d3coldExit failed)) ∧
    ∃ failed, let s := ({ State.reset with mgmt := { State.reset.mgmt with stopped := true }
                                           agenda := [.event (.d3coldExit failed)] } : State)
      s.bootCan failed = true ∧ s.mgmt.stopped = true ∧ s.nextTurn = .event (.d3coldExit failed) := by
  refine ⟨rfl, ⟨rfl, fun failed h => ?_⟩, ?_⟩
  · exact absurd h (by simp [State.nextTurn])
  · obtain ⟨failed, h⟩ := bootCan_some State.reset
    exact ⟨failed, h, rfl, rfl⟩

theorem witness_TakingATrap : world.me.priv = false ∧ (super id).me.priv = true := by decide +kernel

/-- The checks of R71 up to order 7, in a state and for a word: fields, clause, privilege, lanes, waits. -/
def orders (s : State) (k : Ctl) (i : Instr) : List Bool :=
  [legal i && allocOk s.me (sig i) && dynLegal s.me i && tableLegal (s.team s.me.teamKey) i,
    (match i.view with
     | some x => (match classBit x.op with | some b => s.me.cmask.getLsbD b | none => true)
     | none => false) && (!mustBeLast i || s.me.left == 1),
    !lacksPrivilege s s.me i, !partialMask s.me k i, !mustWait s.me k i]

/-- A write of v2 in lane 0 that is not made yet, and acquires if so said. -/
def owing (acquires : Bool) (w : Warp) : Warp :=
  { w with outs := [{ id := 1, tgts := [⟨vKey 2 0, none⟩], acquires }] }

/-- One state and word for each order of R71: fields, allocation, class bit, last place, privilege, lanes, a wait, a
hazard. -/
theorem witness_IssueChecksInOrder :
    orders world plainCtl (.nop plainCtl (V nv nv nv nv 1 0 0)) = [false, true, true, true, true] ∧
    orders (user fun w => { w with valloc := 8 }) plainCtl (.mov plainCtl (V (.v 8) (.v 2) nv nv 0 0 0)) =
      [false, true, true, true, true] ∧
    orders (user fun w => { w with cmask := 0#4 }) plainCtl (.ld plainCtl (M (.v 1) (.imm 0) 2 0)) =
      [true, false, true, true, true] ∧
    orders (user fun w => { w with left := 2 }) plainCtl (.bra plainCtl (C nv 0 0)) = [true, false, true, true, true] ∧
    orders world plainCtl (.tret plainCtl (C nv 0 0)) = [true, true, false, true, true] ∧
    orders (user fun w => { w with exec := 1#32 }) plainCtl (.aclr plainCtl (X 0 0 0 0 255 0)) =
      [true, true, true, false, true] ∧
    orders (user (owing true)) plainCtl (.ld plainCtl (M (.v 1) (.imm 0) 2 0)) = [true, true, true, true, false] ∧
    (let s := (user (owing false)).modCtx 0 fun c => { c with ctxcfg := 1#32 }
     let i : Instr := .mov plainCtl (V (.v 1) (.v 2) nv nv 0 0 0)
     orders s plainCtl i = [true, true, true, true, true] ∧ ctxStrict (s.ctx s.me.ctx) = true ∧
       hazard s s.me plainCtl i = some 2) := by
  decide +kernel

theorem witness_TrapAndService : (∀ i ∈ ([.trap plainCtl (C nv 5 0), .svc plainCtl (C nv 255 0)] : List Instr),
      Issues world plainCtl i) ∧ world.me.priv = false ∧ world.me.acts plainCtl = true ∧
    (∀ i ∈ ([.trap off (C nv 5 0), .svc off (C nv 255 0)] : List Instr), Issues world off i) ∧ world.me.acts off = false :=
  ⟨issues_all (by decide +kernel), by decide +kernel, by decide +kernel, issues_all (by decide +kernel), by decide +kernel⟩

def trapped (kind depth : Nat) (tpc thdr : Nat) (w : Warp) : Warp :=
  { w with trap := { w.trap with tfmt := 0x21#32, tcause := BitVec.ofNat 32 (kind + 65536 * depth), tpc := BitVec.ofNat 64 tpc
                                 thdr := BitVec.ofNat 64 thdr } }

/-- FMT as SETFMT never leaves it. -/
def reserved (w : Warp) : Warp := { w with trap := { w.trap with tfmt := 0xFFFFFFFF#32 } }

theorem witness_TrapReturn : let i : Instr := .tret plainCtl (C nv 0 0)
    Issues (super (trapped 5 1 0 0)) plainCtl i ∧ (super (trapped 5 1 0 0)).me.trap.tcause.toNat / 65536 % 32 ≠ 0 ∧
    Issues (super fun w => reserved (trapped 5 0 0 0 w)) plainCtl i ∧ fmtLegal 0xFFFFFFFF#32 = false ∧ fmtLegal 0x21#32 = true ∧
    Issues (super (trapped 15 0 0x100000000 0)) plainCtl i ∧ HeaderAt (super (trapped 15 0 0x100000000 0)) 0x100000000#64 ∧
    Issues (super (trapped 5 0 0x100000000 0x100000000)) plainCtl i ∧
    Issues (super (trapped 5 0 0x100000008 0x100000000)) plainCtl i ∧ (∃ h,
      (super (trapped 5 0 0x100000008 0x100000000)).codeFetch (super (trapped 5 0 0x100000008 0x100000000)).me 0x100000000#64 =
        .ok h) := by
  refine ⟨issues_of (by decide +kernel), by decide +kernel, issues_of (by decide +kernel), by decide, by decide,
    issues_of (by decide +kernel), headerAt_of (by decide +kernel), issues_of (by decide +kernel), issues_of (by decide +kernel), ?_⟩
  obtain ⟨h, hh, -⟩ := ok_of (p := fun _ => true) (x := (super (trapped 5 0 0x100000008 0x100000000)).codeFetch
    (super (trapped 5 0 0x100000008 0x100000000)).me 0x100000000#64) (by decide +kernel)
  exact ⟨h, hh⟩

theorem witness_Transfers :
    (∀ i ∈ ([.bra plainCtl (C nv 0 0xFFFFFFFF), .call plainCtl (C (.s 2) 0 0xFFFFFFFF), .brx plainCtl (C (.s 6) 0 0),
      .ret plainCtl (C (.s 6) 0 0), .callx plainCtl (C (.s 6) 6 0), .skipz plainCtl (C (.s 4) 0 0xFFFFFFFF)] : List Instr),
      Issues world plainCtl i) ∧ world.me.acts plainCtl = true ∧ rd world world.me (.s 4) 0 = 0#32 ∧
    HeaderAt world (world.me.pc + 8#64 * (0xFFFFFFFF#32).signExtend 64) ∧ HeaderAt world (rd64 world world.me (.s 6) 0) :=
  ⟨issues_all (by decide +kernel), by decide +kernel, by decide +kernel, headerAt_of (by decide +kernel),
    headerAt_of (by decide +kernel)⟩

theorem witness_Transfers_passed :
    (∀ i ∈ ([.bra off (C nv 0 0xFFFFFFFF), .call off (C (.s 2) 0 0xFFFFFFFF), .brx off (C (.s 6) 0 0), .ret off (C (.s 6) 0 0),
      .callx off (C (.s 6) 6 0)] : List Instr), Issues world off i) ∧ world.me.acts off = false ∧
    Issues world plainCtl (.skipz plainCtl (C (.s 9) 0 5)) ∧ rd world world.me (.s 9) 0 ≠ 0#32 :=
  ⟨issues_all (by decide +kernel), by decide +kernel, issues_of (by decide +kernel), by decide +kernel⟩

/-- Targets that fail each check of R65: misaligned, beyond the user range, unmapped, and no header. -/
theorem witness_Transfers_checks :
    (∀ va ∈ [0x100000004, 0x0100000000000000, 0x200000000, 0x100000008], Issues (user (at67 va)) plainCtl (.brx plainCtl (C (.s 6) 0 0)) ∧
      (user (at67 va)).me.acts plainCtl = true ∧ rd64 (user (at67 va)) (user (at67 va)).me (.s 6) 0 = BitVec.ofNat 64 va) ∧
    (BitVec.ofNat 64 0x0100000000000000).getLsbD 56 = true ∧
    okB (world.translate (keyCore world.cur) world.me.ctx 0x200000000#64 needX) = false ∧
    okB (world.translate (keyCore world.cur) world.me.ctx 0x100000008#64 needX) (fun p => !isHeader (world.dwordAt p.key)) = true := by
  refine ⟨?_, by decide +kernel⟩
  intro va hva
  simp only [List.mem_cons, List.not_mem_nil, or_false] at hva
  rcases hva with rfl | rfl | rfl | rfl
  all_goals exact ⟨issues_of (by decide +kernel), by decide +kernel⟩

def stackOf (n : Nat) (p : Mask) (w : Warp) (sfmt : Word := 0x21#32) : Warp :=
  { w with stack := List.replicate n { jpc := w.hdr, ppc := w.hdr, rmask := 0xFFFFFFFF#32, pmask := p, sfmt } }

theorem witness_SplitAndJoin :
    Issues (user fun w => stackOf 16 0#32 w) plainCtl (.split plainCtl (C nv 0 0xFFFFFFFF)) ∧ (user fun w => stackOf 16 0#32 w).me.stack.length = 16 ∧
    Issues (user fun w => stackOf 15 0#32 w) plainCtl (.split plainCtl (C nv 0 0xFFFFFFFF)) ∧ HeaderAt (user fun w => stackOf 15 0#32 w) 0x100000000#64 ∧
    Issues world off (.split off (C nv 0 0xFFFFFFFF)) ∧ world.me.eff off = 0#32 ∧
    Issues (user fun w => { stackOf 1 1#32 w with hdr := 8#64 }) plainCtl (.join plainCtl (C nv 0 0)) ∧
    (∀ n p, (n, p) ∈ [(0, 0#32), (1, 0#32), (1, 1#32)] → Issues (user fun w => stackOf n p w) plainCtl (.join plainCtl (C nv 0 0))) ∧
    Issues (user fun w => stackOf 1 0#32 w 0xFFFFFFFF#32) plainCtl (.join plainCtl (C nv 0 0)) ∧
    ((user fun w => stackOf 1 1#32 w).me.hdr = 0x100000000#64 ∧ (user fun w => { stackOf 1 1#32 w with hdr := 8#64 }).me.hdr = 8#64) := by
  refine ⟨issues_of (by decide +kernel), by decide +kernel, issues_of (by decide +kernel), headerAt_of (by decide +kernel),
    issues_of (by decide +kernel), by decide +kernel, issues_of (by decide +kernel), ?_, issues_of (by decide +kernel),
    by decide +kernel⟩
  intro n p hp
  simp only [List.mem_cons, List.not_mem_nil, or_false, Prod.mk.injEq] at hp
  rcases hp with ⟨rfl, rfl⟩ | ⟨rfl, rfl⟩ | ⟨rfl, rfl⟩
  all_goals exact issues_of (by decide +kernel)

/-! ## Memory words -/

/-- An access by no lane, one by every lane, and what the places of every lane are. -/
def places (s : State) (i : MFields) (uniform : Bool) (align need : Nat) (check : Phys → Option Nat) (width : Nat) : Bool :=
  (accessAddrs s s.me plainCtl i uniform != []) && okB (s.accessPlaces plainCtl i uniform align (BitVec.ofNat 3 need) check width)

theorem witness_Loads :
    (∀ i ∈ ([.ld plainCtl (M (.v 1) (.imm 0) 2 0), .ldu plainCtl (M (.s 10) (.imm 0) 2 0)] : List Instr), Issues world plainCtl i) ∧
    places world (M (.v 1) (.imm 0) 2 0) false 4 needR.toNat (orderCheck (M (.v 1) (.imm 0) 2 0)) 4 = true ∧
    places world (M (.s 10) (.imm 0) 2 0) true 4 needR.toNat (orderCheck (M (.s 10) (.imm 0) 2 0)) 4 = true ∧
    (∀ i ∈ ([.ld off (M (.v 1) (.imm 0) 2 0), .ldu off (M (.s 10) (.imm 0) 2 0)] : List Instr), Issues world off i) ∧
    accessAddrs world world.me off (M (.v 1) (.imm 0) 2 0) false = [] ∧
    accessAddrs world world.me off (M (.s 10) (.imm 0) 2 0) true = [] :=
  ⟨issues_all (by decide +kernel), by decide +kernel, by decide +kernel, issues_all (by decide +kernel), by decide +kernel⟩

def one (w : Warp) : Warp := { w with exec := 1#32 }

theorem witness_StoresAndScratchpad :
    let f := M (.v 1) (.imm 0) 2 0
    let r := Mo (.v 1) (.imm 0) 2 0 2 2
    let g : MFields := { M (.v 1) (.imm 0) 2 0 with greg := 0#3 }
    let h : MFields := { Mo (.v 1) (.imm 0) 2 0 2 1 with greg := 0#3 }
    (∀ i ∈ ([.st off f, .st off r, .ldl off g, .stl off g] : List Instr), Issues world off i) ∧ dstLanes world.me off = [] ∧
    (∀ i ∈ ([.st plainCtl f, .st plainCtl r, .ldl plainCtl g, .stl plainCtl g, .stl plainCtl h] : List Instr),
      Issues (user one) plainCtl i) ∧ dstLanes (user one).me plainCtl ≠ [] ∧
    okB ((user one).accessPlaces plainCtl f false 4 needW (orderCheck f) 0) (fun ps => ps.length == 1) = true ∧
    okB ((user one).accessPlaces plainCtl r false 4 needW (orderCheck r) 0) (fun ps => ps.length == 1) = true ∧
    (scratchAddrs (user one) (user one).me plainCtl g).length = 1 ∧
    scratchTrap (user one) (user one).me plainCtl 4 true (scratchAddrs (user one) (user one).me plainCtl g) = none ∧
    scratchTrap (user one) (user one).me plainCtl 4 false (scratchAddrs (user one) (user one).me plainCtl g) = none ∧
    scratchAddrs world world.me off g = [] :=
  ⟨issues_all (by decide +kernel), by decide +kernel, issues_all (by decide +kernel), by decide +kernel⟩

theorem witness_MisalignedAccesses :
    let f : MFields := { M (.v 1) (.imm 0) 2 0 with imm12 := 1#12 }
    (∀ i ∈ ([.ld plainCtl f, .st plainCtl f, .red plainCtl f] : List Instr), Issues (user fun w => { w with exec := 0xFFFFFFFE#32 }) plainCtl i) ∧
    (user fun w => { w with exec := 0xFFFFFFFE#32 }).me.priv = false ∧
    ((user fun w => { w with exec := 0xFFFFFFFE#32 }).me.eff plainCtl).getLsbD 1 = true ∧
    ((user fun w => { w with exec := 0xFFFFFFFE#32 }).me.eff plainCtl).getLsbD 0 = false ∧
    (addrOf world world.me f 1).va.toNat % 4 ≠ 0 :=
  ⟨issues_all (by decide +kernel), by decide +kernel⟩

def atomics (k : Ctl) (order : Nat) : List Instr :=
  [.atom k (Mo (.v 1) (.imm 0) 2 0 order 0), .red k (Mo (.v 1) (.imm 0) 2 0 (order / 2 * 2) 0), .cas k (Mo (.v 2) (.imm 0) 2 0 order 0),
    .cas128 k (Mo (.v 8) (.imm 0) 4 0 order 0)]

theorem witness_Atomics :
    (∀ i ∈ atomics off 0 ++ atomics off 2, Issues world off i) ∧ accessAddrs world world.me off (Mo (.v 1) (.imm 0) 2 0 0 0) false = [] ∧
    (∀ i ∈ atomics plainCtl 0 ++ atomics plainCtl 3, Issues (user one) plainCtl i) ∧
    places (user one) (M (.v 1) (.imm 0) 2 0) false 4 (needR ||| needW).toNat (atomCheck 0 4 true) 4 = true ∧
    places (user one) (M (.v 1) (.imm 0) 2 0) false 4 needW.toNat (atomCheck 0 4 true) 4 = true ∧
    places (user one) (M (.v 8) (.imm 0) 4 0) false 16 (needR ||| needW).toNat (atomCheck 0 16 true) 16 = true ∧
    okB ((user one).accessPlaces plainCtl (M (.v 1) (.imm 0) 2 0) false 4 needW (atomCheck 0 4 true) 4) (fun ps => ps.length == 1) = true :=
  ⟨issues_all (by decide +kernel), by decide +kernel, issues_all (by decide +kernel), by decide +kernel⟩

theorem witness_LineRequests :
    (∀ i ∈ ([.slop plainCtl (M (.v 1) (.imm 0) 2 0), .mon plainCtl (M nv (.imm 0) 0 0), .lock plainCtl (M (.v 1) (.imm 0) 0 0),
      .unlock plainCtl (M (.s 1) (.imm 0) 0 0)] : List Instr), Issues world plainCtl i) ∧
    places world (M (.v 1) (.imm 0) 2 0) false 4 needR.toNat (fun p => if !scopeOk p.cls 0 ∨ p.host then some 1 else none) 0 = true ∧
    places world (M nv (.imm 0) 0 0) true 1 needR.toNat (fun p => if p.host ∨ p.cls = 0 then some 1 else none) 0 = true ∧
    places world (M (.s 1) (.imm 0) 0 0) true 1 needR.toNat (fun _ => none) 0 = true ∧
    places world (M (.v 1) (.imm 0) 0 0) false 1 needR.toNat (fun _ => none) 0 = true ∧
    okB (world.accessPlaces plainCtl (M (.v 1) (.imm 0) 2 0) false 4 needR (fun p => if !scopeOk p.cls 0 ∨ p.host then some 1 else none) 0)
      (fun ps => ps.all fun p => (world.line (lineOf p.2.key)).poison == 0#32) = true ∧ ctxQtrap (world.ctx world.me.ctx) = false :=
  ⟨issues_all (by decide +kernel), by decide +kernel⟩

theorem witness_CacheAndWindowWords :
    (∀ i ∈ ([.pref plainCtl (M nv (.imm 0) 0 0), .preft plainCtl (E nv (.s 6) (.s 8) 0 0), .cwb plainCtl (M nv (.imm 0) 0 0),
      .cinv plainCtl (M nv (.imm 0) 0 1), .winset plainCtl (E (.s 1) (.s 6) (.s 8) 0 0), .winclr plainCtl (E (.s 1) (.s 4) nv 0 0)] :
      List Instr), Issues world plainCtl i) ∧
    (∀ i ∈ ([.cwb off (M nv (.imm 0) 0 0), .cinv off (M nv (.imm 0) 0 1)] : List Instr), Issues world off i) ∧
    dstLanes world.me off = [] ∧ dstLanes world.me plainCtl ≠ [] ∧
    places world (M nv (.imm 0) 0 0) false 1 needR.toNat (fun _ => none) 0 = true ∧
    world.me.acts plainCtl = true ∧ ctxQtrap (world.ctx world.me.ctx) = false ∧
    okB (world.windowPages world.me (world.me.eff plainCtl) (rdU64 world world.me (.s 6)) 1) = true ∧
    (rdU64 world world.me (.s 6)).toNat % 65536 = 0 ∧ (loWord (rdU64 world world.me (.s 8))).toNat = 128 :=
  ⟨issues_all (by decide +kernel), issues_all (by decide +kernel), by decide +kernel⟩

theorem witness_TranslationAndFences :
    let g (f : MFields) : MFields := { f with greg := 0#3 }
    let fired (b : Bool) : State := user fun w => { w with monitor := some { line := 0, fired := b } }
    (∀ i ∈ ([.gbind plainCtl (M (.s 6) (.s 8) 0 0), .ginv plainCtl (M nv nv 0 0), .qclass plainCtl (M (.v 1) (.imm 0) 0 0),
      .fence plainCtl (g (Mo nv nv 0 0 1 0)), .fence plainCtl (g (Mo nv nv 0 0 3 10)), .mwait plainCtl (g (M nv nv 0 0)),
      .watch plainCtl (M (.s 10) (.imm 0) 2 0)] : List Instr), Issues world plainCtl i) ∧
    (∀ i ∈ ([.gbind off (M (.s 6) (.s 8) 0 0), .ginv off (M nv nv 0 0), .watch off (M (.s 10) (.imm 0) 2 0)] : List Instr),
      Issues world off i) ∧ (world.me.acts plainCtl = true ∧ world.me.acts off = false ∧
    okB (world.leafOf (keyCore world.cur) world.me.ctx (rdU64 world world.me (.s 6)))
      (fun p => okB (world.place world.me.ctx (rdU64 world world.me (.s 6)) p.1 p.2)) = true ∧
    okB ((user (at67 0x200000000)).leafOf (keyCore world.cur) world.me.ctx 0x200000000#64) = false ∧
    accessAddrs world world.me plainCtl (M (.v 1) (.imm 0) 0 0) (isS (.v 1)) ≠ [] ∧ world.me.monitor = none) ∧
    Issues (fired true) plainCtl (.mwait plainCtl (g (M nv nv 0 0))) ∧ Issues (fired false) plainCtl (.mwait plainCtl (g (M nv nv 0 0))) ∧
    okB (world.accessPlaces plainCtl (M (.s 10) (.imm 0) 2 0) true 4 needR
      (fun p => if !scopeOk p.cls 0 ∨ p.host then some 1 else none) 0) (fun ps => ps.length == 1) = true := by
  exact ⟨issues_all (by decide +kernel), issues_all (by decide +kernel), by decide +kernel, issues_of (by decide +kernel),
    issues_of (by decide +kernel), by decide +kernel⟩


/-! ## Requests at a home, and what holds a word back -/

/-- The context may use every way of every quadrant. -/
def wide (s : State) : State := s.modCtx 0 fun c => { c with waymask := 0xFFFFFFFF#32 }

def line0 : Nat := lineOf 0x20000

/-- A request for the first line by warp 0, which stands at its home. -/
def homeReq (op : MemOp) (dst : List Nat) : Request :=
  { id := 5, core := 0, slot := 0, own := 1, line := line0, port := 0, hint := 0, order := 0, scope := 0, inL1 := true, tracked := true
    ops := [{ lane := 0, key := 0x20000, n := 1, op, dst }], arrived := some 0 }

theorem witness_StoresAndScratchpad_waits :
    let g : MFields := { M (.v 1) (.imm 0) 2 0 with greg := 0#3 }
    let rel (key : Nat) : State := user fun w => { one w with stq := [{ id := 0, kind := .scratch [{ lane := 0, key, n := 4, op := .store 7, dst := [] }] }] }
    (∀ key ∈ [0, 4], ∀ i ∈ ([.ldl plainCtl g, .stl plainCtl g] : List Instr), Issues (rel key) plainCtl i) ∧
    (rel 0).me.scratchClear (rel 0).nextId 4 (scratchAddrs (rel 0) (rel 0).me plainCtl g) = false ∧
    (rel 4).me.scratchClear (rel 4).nextId 4 (scratchAddrs (rel 4) (rel 4).me plainCtl g) = true := by
  refine ⟨?_, by decide +kernel⟩
  intro key hk
  simp only [List.mem_cons, List.not_mem_nil, or_false] at hk
  rcases hk with rfl | rfl
  all_goals exact issues_all (by decide +kernel)

/-- A LOCK under QTRAP by lane 0, and each kind of request at its home: with no lock, with a lock of the context. -/
theorem witness_LineRequests_homes :
    let f := M (.v 1) (.imm 0) 0 0
    let s := ((wide (user one)).modCtx 0 fun c => { c with ctxcfg := 0x100000#32 })
    Issues s plainCtl (.lock plainCtl f) ∧ (ctxQtrap (s.ctx s.me.ctx) = true ∧ s.me.eff plainCtl ≠ 0#32 ∧
    okB (s.accessPlaces plainCtl f false 1 needR (fun _ => none) 0) (fun ps => ps.length == 1 && ps.all fun p => decide (s.home (lineOf p.2.key) < 512)) = true ∧
    (∀ i ∈ ([.slop off f, .lock off f, .unlock off f] : List Instr), accessAddrs world world.me off f false = [] ∧ i.view.isSome) ∧
    (∀ op ∈ [.lock 0, .lock 8, .unlock, .monitor, .slop 0 0xFFFFFFFF#32, .prefetch],
      let s := { wide world with reqs := [homeReq op [vKey 2 0]] }
      s.pickRequest (s.home line0) line0 = some (homeReq op [vKey 2 0], false) ∧ s.obstacle (homeReq op [vKey 2 0]) = .none ∧
        s.home line0 < 512 ∧ s.servedHint 0 line0 0 ≠ 3)) ∧
    (homeReq .prefetch []).isPrefetch = true ∧ (homeReq .prefetch []).isLock = false ∧ (homeReq .prefetch []).isMonitor = false :=
  ⟨issues_of (by decide +kernel), by decide +kernel, by decide⟩

/-- A CINV in the store counter, a window that is accepted, one turned down for its size, and the slot of none. -/
theorem witness_CacheAndWindowWords_steps :
    (let e : StEnt := { id := 2, kind := .writeBack [line0] false true true }
     let s := (user fun w => { w with stq := [e] }).modTeam 0 fun t => { t with phase := none }
     (s.warp (warpKey 0 0)).stq.find? (fun y => y.id == e.id) = some e ∧ (s.team (s.warp 0).teamKey).phase = none ∧ s.reqs = []) ∧
    (let s := wide world
     Issues s plainCtl (.winset plainCtl (E (.s 1) (.s 6) (.s 8) 0 0)) ∧
     okB (s.windowPages s.me (s.me.eff plainCtl) (rdU64 s s.me (.s 6)) 1) (fun ps => ps.all fun p => !p.host && leafStripe p.entry == 0 && p.key / dieSize == 0) = true ∧
     (rdU64 s s.me (.s 8)) = 0x0000000100000080#64 ∧ (s.ctx 0).wins = [] ∧ (s.ctx 0).quotaLimit = 100#32) ∧
    (let s := (wide world).modCtx 0 fun c => { c with quotaLimit := 0#32, ctxcfg := 0x100000#32 }
     Issues s plainCtl (.winset plainCtl (E (.s 1) (.s 6) (.s 8) 0 0)) ∧ ctxQtrap (s.ctx 0) = true ∧ s.me.priv = false) ∧
    (∀ i ∈ ([.winset off (E (.s 1) (.s 6) (.s 8) 0 0), .winclr off (E (.s 1) (.s 4) nv 0 0)] : List Instr), Issues world off i) :=
  ⟨by decide +kernel, ⟨issues_of (by decide +kernel), by decide +kernel⟩,
    ⟨issues_of (by decide +kernel), by decide +kernel⟩, issues_all (by decide +kernel)⟩

/-- QCLASS through a register on the fast path, and through the tables of a page that is not mapped. -/
theorem witness_TranslationAndFences_qclass :
    let f := M (.v 1) (.imm 0) 0 0
    let s := user fun w => { w with gregs := [(1, { vbase := 0x100000100#64, limit := 1024#32, valid := true, perm := 3#3, cls := 1#2 })] }
    Issues s plainCtl (.qclass plainCtl f) ∧ ((accessAddrs s s.me plainCtl f false).all fun a => (s.me.greg 1).fast a 1) = true ∧
    ((accessAddrs world world.me plainCtl f false).any fun a => (world.me.greg 1).fast a 1) = false ∧
    okB (world.translate 0 0 0x100000100#64 0#3) = true :=
  ⟨issues_of (by decide +kernel), by decide +kernel⟩

/-! ## The Skidder, folds, streams and engines -/

theorem witness_TeamBarriers :
    (∀ i ∈ ([.bar plainCtl (E nv (.s 4) nv 0 7), .bara plainCtl (E (.s 1) (.s 4) nv 0 0), .barw plainCtl (E nv (.s 4) nv 0 0)] : List Instr),
      Issues world plainCtl i) ∧ (∀ i ∈ ([.bar off (E nv (.s 4) nv 0 7), .bara off (E (.s 1) (.s 4) nv 0 0)] : List Instr), Issues world off i) ∧
    world.me.acts plainCtl = true ∧ world.me.acts off = false ∧ (world.team 0).cores.length = 1 ∧ rdU world world.me (.s 4) = 0#32 ∧
    ((world.team 0).bar 7).arrived = 0#16 ∧ world.me.stq = [] ∧ world.me.outs = [] ∧ ((world.team 0).bar 0).gen = 0#32 :=
  ⟨issues_all (by decide +kernel), issues_all (by decide +kernel), by decide +kernel⟩

def cpyF : EFields := E nv (.v 2) (.v 4) 1 0
def cpybF : EFields := E (.s 8) (.s 6) (.s 6) 1 0
def rowsF : EFields := E (.s 16) (.s 2) (.s 6) 1 0
def mcastF : EFields := E (.s 16) (.s 6) nv 1 0

/-- A group of four that names one row, or a transfer of 16 bytes to core offset 0. -/
def group (w : Warp) : Warp := setRegs [(sKeyUser 16, 16#32), (sKeyUser 17, 4#32), (sKeyUser 18, 0#32), (sKeyUser 19, 16#32)] w

theorem witness_Copies_words :
    Issues world plainCtl (.cpy plainCtl cpyF) ∧ Issues world off (.cpy off cpyF) ∧ world.me.eff off = 0#32 ∧
    Issues world plainCtl (.cpyb plainCtl cpybF) ∧
    (∀ i ∈ ([.gath plainCtl rowsF, .scat plainCtl rowsF, .mcast plainCtl mcastF] : List Instr), Issues (user group) plainCtl i) ∧
    (∀ i ∈ ([.cpyb off cpybF, .gath off rowsF, .scat off rowsF, .mcast off mcastF] : List Instr), Issues world off i) ∧
    electedActs world.me off (.s 8) = false ∧ electedActs world.me plainCtl (.s 8) = true ∧
    (world.fold world.me.teamKey 1).err = 0#3 ∧ (user group).me.getS 16 = 16#32 ∧ (user group).me.getS 17 = 4#32 ∧
    (user group).me.getS 18 = 0#32 ∧ (user group).me.getS 19 = 16#32 ∧ world.me.getSPair 6 = 0x100000000#64 ∧
    ((rowAsks (user group) (user group).me plainCtl rowsF).all rowsOk) = true ∧
    (((rowAsks (user group) (user group).me plainCtl rowsF).filter fun y => y.getD 1 0 != 0) != []) = true ∧
    (rd world world.me (.s 8) (electedLane world.me plainCtl (.s 8))).toNat = 128 ∧
    (world.commands 0 + (world.me.captured plainCtl (.cpy plainCtl cpyF) ((maskLanes world.me.exec).flatMap fun l => [l, 0, 0])).count ≤ 32) ∧
    (world.commands 0 + (world.me.captured plainCtl (.cpyb plainCtl cpybF) [128, 0x100000000, 0]).count ≤ 32) :=
  ⟨issues_of (by decide +kernel), issues_of (by decide +kernel), by decide +kernel, issues_of (by decide +kernel),
    issues_all (by decide +kernel), issues_all (by decide +kernel), by decide +kernel⟩

/-- A word that is handed over, in some status. -/
def handed (i : Instr) (st : Status) (vals : List Nat) (s : State) : State :=
  s.modMe fun w => { w with req := some (w.captured plainCtl i vals), status := st, running := false }

def readWhole : List Byte := List.replicate 16 7#8

/-- Core 0 holds one command with one piece. -/
def commanded (p : Piece) (mcast : Option (List Nat)) : State :=
  world.modCore 0 fun x => { x with cmds := [{ id := 9, team := 0, slot := 0, fold := 1, pieces := [p], mcast }] }

/-- A probe that fails and one that succeeds. -/
theorem witness_Copies_probes :
    (let u (va : Nat) : State := { handed (.cpyb plainCtl cpybF) .probing [128, va, 0] world with cur := warpKey 0 0 }
     ∀ va ∈ [0x200000000, 0x100000000],
       (u va).me.req.isSome = true ∧ (u va).me.status = .probing ∧ (u va).me.frozen = none ∧ (u va).me.priv = false ∧
       someB (u va).me.req (fun c => (u va).indexLines (u va).me c == [] &&
         (if va = 0x200000000 then (probeTrap c.exec (failures ((u va).probe (u va).me c).1)).isSome
          else failures ((u va).probe (u va).me c).1 == [] && ((u va).fold 0 1).state != 0#2)) = true) := by
  decide +kernel

/-- A move that waits for an earlier one of its fold, whose bytes are bad, whose link fails, that is ready to be read,
that has been read and lands in scratchpad, that has to claim its line, that waits for it, and that writes it. -/
theorem witness_Copies_steps :
    (let c (p : Piece) : Cmd := { id := 9, team := 0, slot := 0, fold := 1, pieces := [p] }
     let s := world.modCore 0 fun x => { x with
       cmds := [{ c { src := .mem 0x20000, dst := .scr 0 0, n := 16 } with id := 8, word := 1 },
              { c { src := .mem 0x20000, dst := .scr 0 0, n := 16 } with word := 2 }] }
     someB ((s.core 0).cmds.find? fun x => x.id == 9) (fun x => s.behindFold 0 x) = true) ∧
    (let s := commanded { src := .mem 0x20000, dst := .scr 0 0, n := 16 } none
     let bad := s.setLine (lineOf 0x20000) { s.line (lineOf 0x20000) with poison := 1#32 }
     someB ((s.core 0).cmds.find? fun x => x.id == 9) (fun c => !s.behindFold 0 c && c.mcast.isNone) = true ∧
       s.badBytes 0 (.mem 0x20000) 16 = false ∧ bad.badBytes 0 (.mem 0x20000) 16 = true ∧ s.sourceWaits 0 9 (.mem 0x20000) = false) ∧
    (let s := commanded { src := .mem hostKey, dst := .mem hostKey, n := 16 } none
     s.badBytes 0 (.mem hostKey) 16 = false ∧ (Loc.mem hostKey).host = true) ∧
    (let p : Piece := { src := .mem 0x20000, dst := .mem 0x20100, n := 16, got := some readWhole }
     let s := commanded p none
     let l := lineOf 0x20100
     let held := s.setLine l { s.line l with claims := [(8, 0)] }
     someB ((s.core 0).cmds.find? fun x => x.id == 9) (fun c => c.pieces == [p] && !c.late.contains l && !s.behindFold 0 c) = true ∧
       s.mayClaim 0 9 l [] = true ∧ held.mayClaim 0 9 l [] = false ∧ s.writeWaits 0 9 l = false ∧ s.refused 0 l = false ∧ held.writeWaits 0 9 l = true) ∧
    (let s := commanded { src := .mem 0x20000, dst := .scr 0 0, n := 16 } (some [16, 1, 0, 0, 0x20000])
     ((s.core 0).cmds.any fun x => x.mcast == some [16, 1, 0, 0, 0x20000] && x.pieces.all fun p => p.dest == none) = true) := by
  decide +kernel

/-- A misaligned CPYB, and a word on a fold with an error. -/
theorem witness_Copies_traps :
    (let s := user (at67 0x100000004)
     Issues s plainCtl (.cpyb plainCtl cpybF) ∧ (s.fold s.me.teamKey 1).err = 0#3 ∧ s.me.priv = false ∧ 0x100000004 % 16 ≠ 0) ∧
    (let s := (user group).modTeam 0 fun t => { t with folds := [(1, { state := 1#2, err := 2#3 })] }
     (∀ i ∈ ([.cpy plainCtl cpyF, .cpyb plainCtl cpybF, .gath plainCtl rowsF, .scat plainCtl rowsF, .mcast plainCtl mcastF] : List Instr),
       Issues s plainCtl i) ∧ (s.fold s.me.teamKey 1).err = 2#3 ∧ s.me.priv = false) :=
  ⟨⟨issues_of (by decide +kernel), by decide +kernel, by decide +kernel, by decide⟩, issues_all (by decide +kernel),
    by decide +kernel⟩

def foldF (n func : Nat) : EFields := E (.s 1) nv nv n func

/-- Fold 3 is free, 1 filling, 2 full; 4 has an error, 5 is filling with pieces on their way, 6 near 2^32. -/
def folds : State := world.modTeam 0 fun t =>
  { t with folds := t.folds ++ [(4, { state := 1#2, asize := 256#32, err := 2#3 }), (5, { state := 1#2, infl := 1#8 }),
      (6, { state := 1#2, expb := 0xFFFFFFFF#32, expr := 0xFFFFFFFF#32 })] }

theorem witness_FoldWords :
    (∀ i ∈ ([.falloc plainCtl (E (.s 1) (.s 4) (.s 8) 3 1), .falloc plainCtl (E (.s 1) (.s 9) (.s 8) 3 16),
      .falloc plainCtl (E (.s 1) (.s 4) (.s 8) 1 0), .ffree plainCtl (foldF 1 0), .ffree plainCtl (foldF 3 0), .ffree plainCtl (foldF 5 0),
      .fstate plainCtl (foldF 1 0), .fstate plainCtl (foldF 63 1), .fstate plainCtl (foldF 1 2), .fstate plainCtl (foldF 1 3)] : List Instr),
      Issues folds plainCtl i) ∧
    (∀ i ∈ ([.falloc off (E (.s 1) (.s 4) (.s 8) 3 1), .ffree off (foldF 1 0), .bxpect off (E nv (.s 8) nv 1 0),
      .rxpect off (E nv (.s 8) nv 1 1)] : List Instr), Issues folds off i) ∧
    (∀ i ∈ ([.bxpect plainCtl (E nv (.s 8) nv 1 0), .rxpect plainCtl (E nv (.s 8) nv 1 1), .bxpect plainCtl (E nv (.s 4) nv 1 1),
      .rxpect plainCtl (E nv (.s 4) nv 1 0), .bxpect plainCtl (E nv (.s 8) nv 2 0), .rxpect plainCtl (E nv (.s 8) nv 2 1),
      .bxpect plainCtl (E nv (.s 8) nv 6 1), .rxpect plainCtl (E nv (.s 8) nv 6 0)] : List Instr), Issues folds plainCtl i) ∧
    folds.me.acts plainCtl = true ∧ folds.me.acts off = false ∧
    (folds.fold 0 3).state = 0#2 ∧ (folds.fold 0 1).state = 1#2 ∧ (folds.fold 0 1).infl = 0#8 ∧ (folds.fold 0 5).infl ≠ 0#8 ∧
    (folds.fold 0 2).state = 2#2 ∧ (folds.fold 0 1).err = 0#3 ∧ (folds.fold 0 2).err = 0#3 ∧ (folds.fold 0 6).err = 0#3 ∧
    2 ^ 32 ≤ (folds.fold 0 6).expb.toNat + (rdU folds folds.me (.s 8)).toNat ∧
    (folds.team 0).scratchSize = 4096 ∧ rdU folds folds.me (.s 9) = 1#32 :=
  ⟨issues_all (by decide +kernel), issues_all (by decide +kernel), issues_all (by decide +kernel), by decide +kernel⟩

theorem witness_FoldAndStreamWaits :
    (∀ i ∈ ([.fwait plainCtl (E nv nv nv 2 0), .fwait plainCtl (E (.v 1) (.v 2) nv 2 1), .fwait plainCtl (E nv nv nv 2 2),
      .fwait plainCtl (E nv nv nv 1 0), .fwait plainCtl (E nv nv nv 4 0), .cfence plainCtl (E nv nv nv 0 0),
      .spop plainCtl (E (.s 10) nv nv 0 0), .spop plainCtl (E (.s 10) nv nv 0 1), .spush plainCtl (E (.s 10) nv nv 0 0),
      .spush plainCtl (E (.s 10) nv nv 0 2), .spush plainCtl (E nv (.s 2) (.s 8) 0 15), .yield plainCtl (E nv nv nv 2 0xFFFF),
      .yield plainCtl (E nv nv nv 1 0xFFFF)] : List Instr), Issues folds plainCtl i) ∧
    (∀ i ∈ ([.fwait off (E nv nv nv 2 0), .spop off (E (.s 10) nv nv 0 0), .spush off (E (.s 10) nv nv 0 0),
      .yield off (E nv nv nv 1 5)] : List Instr), Issues folds off i) ∧
    (folds.me.acts plainCtl = true ∧ folds.me.acts off = false ∧ folds.me.priv = false ∧ (folds.fold 0 4).err ≠ 0#3 ∧
    ((folds.team 0).stream 0).count = 1#8 ∧ ((folds.team 0).stream 1).count = 0#8 ∧
    ((folds.team 0).stream 2).count = ((folds.team 0).stream 2).slots ∧ folds.me.stq = [] ∧ folds.me.outs = [] ∧
    folds.engineIdle 0 0 = true ∧ (commanded { src := .mem 0, dst := .scr 0 0, n := 16 } none).engineIdle 0 0 = false) ∧
    Issues (user (setRegs [(sKeyUser 8, 0x01000010#32)])) plainCtl (.spush plainCtl (E nv (.s 2) (.s 8) 0 8)) ∧
    (0x01000010#32).extractLsb' 24 8 ≠ 0#8 ∧ HeaderAt folds (folds.me.pc + (((0xFFFF#16).signExtend 64) <<< 3)) :=
  ⟨issues_all (by decide +kernel), issues_all (by decide +kernel), by decide +kernel, issues_of (by decide +kernel),
    by decide +kernel, headerAt_of (by decide +kernel)⟩

theorem witness_EngineWords :
    (∀ i ∈ ([.mma plainCtl (X 0 2 6 4 255 0), .mmas plainCtl (X 0 2 6 4 255 0), .acvt plainCtl (X 0 2 6 0 255 0),
      .fact plainCtl (X 0 2 0 0 255 0x20), .trsl plainCtl (X 0 0 0 0 255 1), .patch plainCtl (E (.s 8) (.s 2) (.s 6) 0 0),
      .stamp plainCtl (E nv (.s 2) nv 0 0), .hshift plainCtl (X 0 2 6 4 255 0)] : List Instr), Issues world plainCtl i) ∧
    Issues (user fun w => { w with fmt := 0xA5#32 }) plainCtl (.mmasp plainCtl (X 0 2 6 4 8 0)) ∧
    (∀ i ∈ ([.mma off (X 0 2 6 4 255 0), .hshift off (X 0 2 6 4 255 0)] : List Instr), Issues world off i) ∧
    (world.me.eff plainCtl ≠ 0#32 ∧ world.me.eff off = 0#32 ∧ (world.me.getS 7).toNat = 1) ∧
    Issues (user (setRegs [(sKeyUser 7, 0#32)])) plainCtl (.acvt plainCtl (X 0 2 6 0 255 0)) ∧
    (user (setRegs [(sKeyUser 7, 0#32)])).me.getS 7 = 0#32 :=
  ⟨issues_all (by decide +kernel), issues_of (by decide +kernel), issues_all (by decide +kernel), by decide +kernel,
    issues_of (by decide +kernel), by decide +kernel⟩

def readable (s : State) (va : Dword) (n : Nat) : Bool :=
  okB (s.lanePlaces s.me {} [⟨0, 0, va⟩] n n needR fun _ => none) fun ps =>
    ps.length == 1 && ps.all fun p => (p.2.cls != 0) && ((s.line (lineOf p.2.key)).poison == 0#32) &&
      ((s.line (lineOf p.2.key)).claims == [])

theorem witness_MatrixState :
    (∀ i ∈ ([.aclr plainCtl (X 15 0 0 0 255 0), .aclr plainCtl (X 14 0 0 0 255 1), .ard plainCtl (E (.v 1) (.s 4) nv 0 0),
      .ard plainCtl (E (.v 2) (.s 4) nv 0 0xE0), .awr plainCtl (E nv (.v 1) (.s 4) 0 0x7F), .pivrd plainCtl (E (.v 1) nv nv 0 31),
      .comp48 plainCtl (V (.v 2) (.v 3) (.v 4) nv 12 0 1), .cbld plainCtl (X 0 6 0 0 255 3), .xvset plainCtl (V nv (.s 1) nv nv 0 0 0),
      .sclb plainCtl (X 0 2 6 0 255 1), .mbat plainCtl (E (.s 1) nv nv 0 0), .bwait plainCtl (E nv (.s 4) nv 0 0)] : List Instr),
      Issues world plainCtl i) ∧ (world.me.window.isSome = true ∧ world.me.eff plainCtl ≠ 0#32 ∧ dstLanes world.me plainCtl ≠ [] ∧
    world.me.acts plainCtl = true ∧ world.tileBusy 0 0 (List.range 16) = false ∧ (world.openBatches 0 0 world.me.win.bseq).length < 15) ∧
    Issues (user fun w => { w with window := some { slot := 0, bseq := 1#32 } }) plainCtl (.bwait plainCtl (E nv (.s 4) nv 0 0)) ∧
    2 ^ 31 ≤ (0#32 - (1#32 : Word)).toNat ∧ readable world (world.me.getSPair 6) 32 = true :=
  ⟨issues_all (by decide +kernel), by decide +kernel, issues_of (by decide +kernel), by decide +kernel⟩

/-! ## Phases, packets and system words -/

/-- A block's phase that the running warp may end. -/
theorem witness_PhaseWords :
    Issues (user fun w => { w with inPhase := false }) plainCtl (.pnext plainCtl (E nv nv nv 0 0)) ∧
    Issues world plainCtl (.pnext plainCtl (E nv nv nv 0 0)) ∧ world.me.inPhase = true ∧ world.me.priv = false ∧
    Issues (user fun w => { w with inPhase := false }) plainCtl (.pend plainCtl (E nv nv nv 0 0)) ∧
    Issues (user (stackOf 1 0#32)) plainCtl (.pend plainCtl (E nv nv nv 0 0)) ∧ (user (stackOf 1 0#32)).me.stack ≠ [] ∧
    (∀ i ∈ ([.pend plainCtl (E nv nv nv 0 1), .resid plainCtl (E nv (.s 1) nv 0 0), .resid plainCtl (E nv (.s 1) nv 0 1),
      .ppost plainCtl (E nv (.s 9) (.s 1) 0 6), .ppost plainCtl (E nv (.s 8) (.s 1) 0 0), .rprop plainCtl (E nv (.s 6) (.s 1) 0 0)] :
      List Instr), Issues world plainCtl i) ∧
    someB (world.team world.me.teamKey).phase (fun p => p.kind == .block) = true ∧ someB (world.phaseOf world.me) (fun p => p.kind == .block) = true ∧
    world.me.stack = [] ∧ world.me.outs = [] ∧ world.wordsOf 0 0 = [] ∧ world.me.stq = [] ∧ world.me.team < 64 ∧
    (∀ y ∈ (world.team world.me.teamKey).warps, y = world.cur) ∧ world.me.acts plainCtl = true ∧
    (rdU world world.me (.s 9)).toNat < (world.ctx 0).nblocks ∧ (world.ctx 0).nblocks ≤ (rdU world world.me (.s 8)).toNat := by
  refine ⟨issues_of (by decide +kernel), issues_of (by decide +kernel), by decide +kernel, by decide +kernel, issues_of (by decide +kernel),
    issues_of (by decide +kernel), by decide +kernel, issues_all (by decide +kernel), by decide +kernel⟩

/-- Context 0 has mailbox 2 with OFULL set, a class that admits, handles 0 (armed), 1 (not armed) and no other. -/
def drover : State :=
  let s := world.modCtx 0 fun c => { c with mboxes := tset {} c.mboxes 2 { (tget {} c.mboxes 2) with ofull := true } }
  { s with shards := [(0, { classres := [(0, 0x0800000000000001#64)], handles := [(0, { used := true, armed := true }),
      (1, { used := true, expiry := world.icnt 0 + 1#64 })] }), (1, { classres := [(0, 0x0800000000000001#64)] })] }

theorem drover_running : drover.expired 0 (drover.handle 0 1) = false := by
  have h (x : Dword) : decide ((x - (x + 1#64)).toNat < 2 ^ 63) = false := by
    rw [decide_eq_false_iff_not]
    bv_omega
  exact h (world.icnt 0)

theorem witness_ViewsMailboxesAndRequests :
    (∀ i ∈ ([.vpub plainCtl (E nv (.s 9) nv 0 0), .vread plainCtl (E (.s 12) (.s 9) nv 0 0), .mbrd plainCtl (E (.v 1) (.s 9) nv 0 2),
      .mbrd plainCtl (E (.v 1) (.s 4) nv 0 1), .mbwr plainCtl (E (.s 12) (.v 1) (.s 9) 0 3), .mbwr plainCtl (E (.s 12) (.v 1) (.imm 2) 0 0),
      .genrd plainCtl (E (.s 12) nv nv 0 0), .genrd plainCtl (E (.s 12) nv nv 0 1), .genrd plainCtl (E (.s 12) nv nv 0 2),
      .genrd plainCtl (E (.s 12) nv nv 0 3), .admitReq plainCtl (E (.s 12) (.s 9) (.s 8) 0 0), .dline plainCtl (E (.s 12) (.s 4) (.s 6) 0 0),
      .dline plainCtl (E (.s 12) (.s 9) (.s 6) 0 4), .dline plainCtl (E (.s 12) (.s 9) (.s 6) 0 1), .dline plainCtl (E (.s 12) (.s 8) (.s 6) 0 0),
      .wfetch plainCtl (E (.s 12) (.s 4) nv 0 0)] : List Instr), Issues drover plainCtl i) ∧
    (let i : Instr := .mbrd plainCtl (E (.v 1) (.imm 64) nv 0 0); Issues (super id) plainCtl i) ∧
    (let i : Instr := .mbwr plainCtl (E (.s 12) (.v 1) (.imm 64) 0 0); Issues (super id) plainCtl i) ∧
    Issues (user fun w => { w with inPhase := false }) plainCtl (.genrd plainCtl (E (.s 12) nv nv 0 1)) ∧
    (user fun w => { w with inPhase := false }).phaseOf (user fun w => { w with inPhase := false }).me = none ∧
    drover.me.acts plainCtl = true ∧ someB (drover.phaseOf drover.me) = true ∧ drover.me.eff plainCtl ≠ 0#32 ∧
    (rdU drover drover.me (.s 9)).toNat < (drover.ctx 0).nviews ∧ (drover.mbox 0 2).ofull = true ∧ (drover.mbox 0 1).ofull = false ∧
    drover.me.stq = [] ∧ drover.me.outs = [] ∧ (drover.handle 0 0).armed = true ∧ (drover.handle 0 1).armed = false ∧
    (drover.handle 0 128).used = false ∧
    classRate (tget 0#64 (drover.shard 0).classres 0) ≠ 0 ∧ classMaxreq (tget 0#64 (drover.shard 0).classres 0) ≠ 0 ∧
    classRate (tget 0#64 (world.shard 0).classres 0) = 0 ∧ (drover.ctx 0).sweeps.length = 1 ∧ (drover.team 0).fetches = [] := by
  refine ⟨issues_all (by decide +kernel), issues_of (by decide +kernel), issues_of (by decide +kernel), issues_of (by decide +kernel),
    ?_⟩
  decide +kernel

/-- Core 0 holds a complete packet for port 0, and core 2 stands in another cluster. -/
def received : State :=
  (world.modCore 0 fun c => { c with rslots := [(0, { valid := true, pres := 1#8 })] }).modCore 2 fun c =>
    { c with corectx := 0x80000000#32 }

theorem witness_Packets :
    (∀ i ∈ ([.send plainCtl (E (.s 4) (.v 1) nv 0 0), .send plainCtl (E (.s 4) (.s 4) nv 0 1), .send plainCtl (E (.s 9) (.v 1) nv 0 0),
      .xchg plainCtl (E (.v 8) (.v 1) (.imm 2) 0 0), .throt plainCtl (E (.s 12) nv nv 0 0), .recv plainCtl (E (.v 8) (.s 4) (.s 12) 0 0),
      .recv plainCtl (E (.s 4) (.s 4) (.s 12) 0 6), .recv plainCtl (E (.v 8) (.s 9) (.s 12) 0 1), .recv plainCtl (E (.v 8) (.s 9) (.s 12) 0 0)] :
      List Instr), Issues received plainCtl i) ∧ received.me.acts plainCtl = true ∧ rdU received received.me (.s 4) = 0#32 ∧
    rdU received received.me (.s 9) = 1#32 ∧ received.granted 0 0 = true ∧ received.granted 1 0 = false ∧ received.granted 2 0 = true ∧
    received.injectRoom 0 5 = true ∧ (1 < received.me.valloc) ∧ 32 ≤ (received.team 0).scratchSize ∧ clusterOf 2 ≠ clusterOf 0 ∧
    received.portTeam 0 0 = some received.me.team ∧ received.oldestSlot 0 (portSlot received.me 0) = some 0 ∧
    received.oldestSlot 0 (portSlot received.me 1) = none := by
  refine ⟨issues_all (by decide +kernel), ?_⟩
  decide +kernel

/-- Selectors of R375: register n, word w. -/
def srr (n w : Nat) : Instr := .srr plainCtl (K (.s 12) 0 (n + 4096 * w))
def srw (n w : Nat) : Instr := .srw plainCtl (K (.s 4) 0 (n + 4096 * w))

theorem witness_SystemRegisters :
    (∀ i ∈ [srr 1 0, srr 1 1, srr 3 0, srr 0x100 0, srr 0x10C 3, srr 0x202 0, srr 0x403 1, srw 1 0, srw 1 1, srw 3 0, srw 0x102 0, srw 0x109 0,
      .srw plainCtl (K (.s 9) 0 0x102), .srw plainCtl (K (.s 9) 0 0x10102)], Issues (super id) plainCtl i) ∧
    (super id).me.priv = true ∧ ((super id).ctx 0).established = true ∧ ((super id).ctx 1).established = false ∧
    rdU (super id) (super id).me (.s 4) = 0#32 ∧ rdU (super id) (super id).me (.s 9) = 1#32 ∧ ((super id).ctx 0).faults = [] ∧
    (selector 0x10102#32).ctx = 1 ∧ someB ((super id).sysWrite (selector 0x102#32) 0#32) = true := by
  refine ⟨issues_all (by decide +kernel), ?_⟩
  decide +kernel

/-- Besides team 0 on core 0, team 1 on core 1 with a warp at a clause boundary; team 2 on core 4 is being stopped and its
warp is frozen. -/
def teams : State :=
  let s := super id
  let s := (s.modCore 1 fun c => { c with corectx := 0x80000000#32 }).modCore 4 fun c => { c with corectx := 0x80000000#32 }
  let s := (s.setTeam 1 { life := .live, cores := [1], slots := [0] }).setTeam 2 { life := .live, cores := [4], slots := [0], stop := .boundary }
  (s.setWarp 64 { present := true, team := 1 }).setWarp 256 { present := true, team := 2, frozen := some 5 }

/-- The header of an image of team 5 with one warp and no register, at 0x1_0000_1000 and on. -/
def imaged (magic off : Nat) : State :=
  let head := natLe 4 magic ++ natLe 4 1 ++ natLe 8 (imageSize 0 0 [(0, false)]) ++ natLe 4 0 ++ natLe 4 5 ++ natLe 4 0 ++
    natLe 4 0xFFFFFFFF ++ natLe 4 1
  { teams.modCtx 0 fun c => { c with ctxcfg := 0x10000#32 } with mem := Machine.putBytes teams.mem (0x21000 + off) head }

/-- Master and team references: a warp of a core, a team of a core. -/
def warpRef (core slot : Nat) : Nat := core + 1024 * slot
def teamRef (core team : Nat) : Nat := core + 65536 * team

def refs (kind : Nat → Instr) (s : State) (rs : List Nat) : Bool :=
  rs.all fun r => issuesB (s.modMe (setRegs [(sKeyUser 9, BitVec.ofNat 32 r)])) plainCtl (kind r)

theorem witness_TeamControl :
    refs (fun _ => .preempt plainCtl (E (.s 12) (.s 9) nv 0 1)) teams [teamRef 3 0, teamRef 0 0, teamRef 1 1, teamRef 4 2] = true ∧
    refs (fun _ => .ctxsv plainCtl (E (.s 12) (.s 9) (.s 6) 0 0)) teams [teamRef 3 0, teamRef 0 0, teamRef 1 1] = true ∧
    teams.teamNamed (BitVec.ofNat 32 (teamRef 3 0)) = none ∧ teams.teamNamed (BitVec.ofNat 32 (teamRef 0 0)) = some teams.me.teamKey ∧
    teams.teamNamed (BitVec.ofNat 32 (teamRef 1 1)) = some 1 ∧ (teams.team 1).stop = .none ∧
    teams.teamNamed (BitVec.ofNat 32 (teamRef 4 2)) = some 2 ∧ (teams.team 2).stop ≠ .none ∧ teamRefOk (BitVec.ofNat 32 (teamRef 4 2)) = true ∧
    okB (teams.areaKeys teams.me (teams.me.eff plainCtl) 0x100000000#64 needW (teams.areaPages 1)) = true ∧
    refs (fun _ => .freeze plainCtl (E (.s 12) (.s 9) nv 0 0)) teams [warpRef 3 0, warpRef 0 0, warpRef 1 0, warpRef 4 0] = true ∧
    refs (fun _ => .thaw plainCtl (E (.s 12) (.s 9) nv 0 0)) teams [warpRef 3 0, warpRef 1 0, warpRef 4 0] = true ∧
    teams.masterWarps (BitVec.ofNat 32 (warpRef 3 0)) = [] ∧ teams.masterWarps (BitVec.ofNat 32 (warpRef 0 0)) = [teams.cur] ∧
    teams.masterWarps (BitVec.ofNat 32 (warpRef 1 0)) = [64] ∧ (teams.warp 64).frozen = none ∧ (teams.warp 64).atBoundary = true ∧
    teams.masterWarps (BitVec.ofNat 32 (warpRef 4 0)) = [256] ∧ (teams.warp 256).frozen.isSome = true ∧
    (teams.warp 256).freezeReq = false ∧ teams.me.req = none ∧ masterKind (BitVec.ofNat 32 (warpRef 4 0)) = 0 ∧
    masterRefOk (BitVec.ofNat 32 (warpRef 4 0)) = true := by
  decide +kernel

theorem witness_TeamControl_images : ∀ m ∈ [0, 0x1C590009], ∀ off ∈ [0, 8],
    let s := (imaged m off).modMe (at67 (0x100001000 + off))
    issuesB s plainCtl (.ctxld plainCtl (E (.s 12) (.s 4) (.s 6) 0 0)) = true ∧
    issuesB s plainCtl (.ctxld plainCtl (E (.s 12) (.s 9) (.s 6) 0 0)) = true ∧
    okB (s.areaKeys s.me (s.me.eff plainCtl) 0x100001000#64 needR ((off + 4351) / 4096)) (fun k0 =>
      let h := imgHead (s.areaBytes k0 off 256)
      (h.ok == (m != 0)) && s.areaReady (areaLines k0 off 256) && (m == 0 || okB (s.areaKeys s.me (s.me.eff plainCtl) 0x100001000#64 needR ((off + h.size + 4095) / 4096)) fun keys =>
        let bs := s.areaBytes keys off h.size
        s.areaReady (areaLines keys off h.size) && (s.loadStatus h bs 0 == 0) && !s.loadWaits h 0 && h.formats bs && (s.loadStatus h bs 3 == 1))) = true := by
  decide +kernel

theorem witness_TranslationWords :
    (let s := (super id).modCtx 0 fun c => { c with poolnext := 0x100000#64, poolend := 0x200000#64 }
     issuesB s plainCtl (.tlbinv plainCtl (E (.s 12) (.s 6) (.s 4) 0 0)) = true ∧ issuesB s plainCtl (.tlbinv plainCtl (E (.s 12) nv (.s 4) 0 1)) = true ∧
     s.me.req = none ∧ s.me.stq = [] ∧ s.me.outs = [] ∧ s.stillUses 0 s.nextId s.tick none = false ∧ s.stillUses 0 s.nextId s.tick (some 0x100000000#64) = false ∧ s.me.ctx = 0 ∧
     issuesB s plainCtl (.bias plainCtl (E (.s 12) (.s 6) nv 0 0)) = true ∧
     issuesB s plainCtl (.mapg plainCtl (E (.s 12) (.s 6) (.imm 11) 0 0)) = true ∧
     issuesB (s.modMe (at67 0x200000000)) plainCtl (.mapg plainCtl (E (.s 12) (.s 6) (.imm 11) 0 0)) = true ∧
     (s.mapgStatus 0 0x100000000#64).1 ≠ 0 ∧ (s.mapgStatus 0 0x100010000#64).1 = 0 ∧
     (rdU s s.me (.imm 11)).extractLsb' 5 27 = 0#27 ∧ (rdU s s.me (.imm 11)).extractLsb' 3 2 ≠ 3#2) := by
  decide +kernel


/-- RPROP over an empty list and over one that names a block that is not there; the end of a phase; and the words of the
chapter, and those of packets, that act on no lane. -/
theorem witness_PhaseWords_lists :
    (let s := user (at67 0x100000080)
     let bad : State := { s with mem := Machine.putBytes s.mem 0x20080 (natLe 8 0x80000005) }
     let i : Instr := .rprop plainCtl (E nv (.s 6) (.s 1) 0 0)
     let es (u : State) := ((List.range 16).map fun j => listEntry (u.readMem (0x20080 + 8 * j) 8)).filter fun e => e.2.1
     issuesB s plainCtl i = true ∧ issuesB bad plainCtl i = true ∧ readable s (rdU64 s s.me (.s 6)) 128 = true ∧
     readable bad (rdU64 bad bad.me (.s 6)) 128 = true ∧ es s = [] ∧ (es bad).any (fun e => decide ((bad.ctx 0).nblocks ≤ e.2.2.2)) = true ∧
     s.poisonFor 0 (lineOf 0x20080) = 0#32 ∧ s.readWaits 0 s.nextId (lineOf 0x20080) = false ∧ s.inOrder s.nextId (lineOf 0x20080) = true ∧
     s.me.outs = []) ∧
    someB (world.team 0).phase (fun p => world.mayEnd 0 p) = true ∧
    (∀ i ∈ ([.resid off (E nv (.s 1) nv 0 0), .ppost off (E nv (.s 9) (.s 1) 0 6), .rprop off (E nv (.s 6) (.s 1) 0 0),
      .vpub off (E nv (.s 9) nv 0 0), .vread off (E (.s 12) (.s 9) nv 0 0), .mbrd off (E (.v 1) (.s 9) nv 0 2),
      .mbwr off (E (.s 12) (.v 1) (.s 9) 0 3), .genrd off (E (.s 12) nv nv 0 0), .admitReq off (E (.s 12) (.s 9) (.s 8) 0 0),
      .dline off (E (.s 12) (.s 4) (.s 6) 0 0), .wfetch off (E (.s 12) (.s 4) nv 0 0), .send off (E (.s 4) (.v 1) nv 0 0),
      .xchg off (E (.v 8) (.v 1) (.imm 2) 0 0), .throt off (E (.s 12) nv nv 0 0), .recv off (E (.v 8) (.s 4) (.s 12) 0 0)] : List Instr),
      issuesB world off i = true) ∧ world.me.acts off = false ∧
    world.recordReady [0] (world.view 0 1).record = true ∧ world.markersPass 0 (world.dirtyLines 0 ((world.core 0).relCtr + 1#32)) = true := by
  decide +kernel

/-- SEND with a descriptor that is illegal, SEND while the injection queue is full, RECV.acq of a packet that carries rel. -/
theorem witness_Packets_waits :
    (let s := user (setRegs [(sKeyUser 4, 0x80000000#32)])
     issuesB s plainCtl (.send plainCtl (E (.s 4) (.v 1) nv 0 0)) = true ∧ (rdU s s.me (.s 4)).extractLsb' 19 13 ≠ 0#13) ∧
    (let x : NetFlit := { router := 0, port := 0, moved := false, flit := {}, via := none }
     let s := world.modCore 0 fun c => { c with inject := List.replicate 32 x }
     issuesB s plainCtl (.send plainCtl (E (.s 4) (.v 1) nv 0 0)) = true ∧ s.granted 0 0 = true ∧ s.injectRoom 0 1 = false) ∧
    (let s := received.modCore 0 fun c => { c with rslots := [(0, { valid := true, pres := 1#8, rel := true })] }
     issuesB s plainCtl (.recv plainCtl (E (.v 8) (.s 4) (.s 12) 0 2)) = true ∧ s.slotReady 0 0 0 (E (.v 8) (.s 4) (.s 12) 0 2) = true) ∧
    received.slotReady 0 0 0 (E (.v 8) (.s 4) (.s 12) 0 0) = true ∧
    (let i : Instr := .recv plainCtl (E (.s 6) (.s 4) (.s 12) 0 4)
     let rel : StEnt := { id := 0, kind := .scratch [{ lane := 0, key := 255, n := 1, op := .store 7, dst := [] }] }
     let s (fcnt : Nat) : State := (received.modMe fun w => { w with stq := [rel] }).modCore 0 fun c =>
       { c with rslots := [(0, { valid := true, pres := 0xFF#8, fcnt := BitVec.ofNat 3 fcnt })] }
     issuesB (s 7) plainCtl i = true ∧ issuesB (s 6) plainCtl i = true ∧ (s 7).slotReady 0 0 0 (E (.s 6) (.s 4) (.s 12) 0 4) = false ∧
       (s 6).slotReady 0 0 0 (E (.s 6) (.s 4) (.s 12) 0 4) = true ∧ (s 7).oldestSlot 0 (portSlot (s 7).me 0) = some 0) ∧
    (let i : Instr := .send plainCtl (E (.s 4) (.s 4) nv 0 1)
     let s (key : Nat) : State := user fun w => { w with stq := [{ id := 0, kind := .scratch [{ lane := 0, key, n := 1, op := .store 7, dst := [] }] }] }
     issuesB (s 31) plainCtl i = true ∧ issuesB (s 32) plainCtl i = true ∧ (s 31).me.scratchSpan (s 31).nextId 0 32 = false ∧
       (s 32).me.scratchSpan (s 32).nextId 0 32 = true ∧ (s 32).injectRoom 0 1 = true ∧ (s 32).granted 0 0 = true) := by
  decide +kernel

/-- THAW .skip and .kill, of a team that is quiet and of one that is not, of a host function, of a peer; and a restore
that has to wait. -/
theorem witness_TeamControl_thaws :
    refs (fun _ => .thaw plainCtl (E (.s 12) (.s 9) nv 0 1)) teams [warpRef 4 0] = true ∧
    refs (fun _ => .thaw plainCtl (E (.s 12) (.s 9) nv 0 2)) teams [warpRef 4 0] = true ∧
    (teams.team 2).life = .live ∧ teams.isQuiesced 2 = false ∧
    (let s := teams.modTeam 2 fun t => { t with quiesced := true }
     (s.setTeam 2 { s.team 2 with stop := .kill }).isQuiesced 2 = true) ∧
    (let host := BitVec.ofNat 32 (4 * 2 ^ 29 + 7)
     let peer := BitVec.ofNat 32 (5 * 2 ^ 29 + 9)
     let s := { teams with
       links := { teams.links with frozenHosts := [(0, 7)], frozenPeers := [(0, 9, 0)] }
       mgmt := { teams.mgmt with fabric := [(9, [])] } }
     masterRefOk host = true ∧ masterKind host = 4 ∧ masterRefOk peer = true ∧ masterKind peer = 5 ∧ s.listed 9 = true ∧
       teams.listed 9 = false ∧ refs (fun _ => .thaw plainCtl (E (.s 12) (.s 9) nv 0 0)) s [host.toNat, peer.toNat] = true ∧
       refs (fun _ => .thaw plainCtl (E (.s 12) (.s 9) nv 0 2)) s [host.toNat, peer.toNat] = true) := by
  decide +kernel

/-- A flip of a page of class 2 to host bias. -/
theorem witness_TranslationWords_flips :
    (let s := super id
     let s := { s with mem := Machine.putBytes s.mem 0x14000 (natLe 8 0x2007B) }
     issuesB s plainCtl (.bias plainCtl (E (.s 12) (.s 6) nv 0 1)) = true ∧
     (match s.walk 0 0x100000000#64 with
      | .leaf e l a => !leafHost e && leafClass e == 2 && !leafBias e && !s.biasWaits 0 (s.onPage 0 e l) a && okPlace (s.place 0 0x100000000#64 e l) &&
          !s.refused 0 (lineOf a)
      | _ => false) = true) ∧
    (super id).markersPass 0 ((super id).dirtyLines 0 (((super id).core 0).relCtr + 1#32)) = true ∧
    (let s := (super id).modCtx 0 fun c => { c with poolnext := 0x100000#64, poolend := 0x200000#64 }
     let a := (s.mapgStatus 0 0x100010000#64).2
     s.writeWaits 0 s.nextId (lineOf a) = false ∧ s.refused 0 (lineOf a) = false) := by
  decide +kernel

/-! ## Steps that are no word -/

/-- Warp 0 stands at a clause boundary, or has to go on in its clause, with no run on its scheduler. -/
def waiting (pc left : Nat) : State :=
  (user fun w => { w with running := false, pc := BitVec.ofNat 64 pc, left }).modCore 0 fun c => { c with run0 := none }

theorem witness_IssueAndCompletion :
    (waiting 0x100000000 0).runner 0 0 = none ∧ (waiting 0x100000000 0).firstInLine 0 0 0 = true ∧
    (match (waiting 0x100000000 0).ready 0 with | .clause _ need => !need | _ => false) = true ∧
    (waiting 0x100000008 1).firstInLine 0 0 0 = true ∧ (match (waiting 0x100000008 1).ready 0 with | .resume need => !need | _ => false) = true ∧
    (waiting 0x200000000 0).firstInLine 0 0 0 = true ∧ (match (waiting 0x200000000 0).ready 0 with | .trap _ => true | _ => false) = true ∧
    ((waiting 0x200000000 0).warp 0).priv = false ∧
    (let o : Out := { id := 1, tgts := [⟨vKey 2 0, some 5#32⟩, ⟨vKey 255 31, some 6#32⟩], flags := fNX }
     let s := user fun w => { w with outs := [o] }
     (s.warp 0).outs.find? (fun y => y.id == o.id) = some o ∧ (∀ y ∈ o.tgts, y.val ≠ none) ∧ (o.tgts.map fun y => y.key).Nodup ∧
       o.greg = none ∧ s.pending 0 1 = false) ∧
    (let s := (user fun w => { w with stq := [{ id := 1, kind := .store }, { id := 2, kind := .publish 3 4#32 5#32 none }] }).modTeam 0 fun t =>
       { t with phase := none }
     ((s.warp 0).stq.map fun e => (e.id, e.kind == .store)) = [(1, true), (2, false)] ∧ (s.team 0).phase = none ∧ s.pending 0 1 = false) ∧
    ((user fun w => { w with stq := [{ id := 2, kind := .publish 3 4#32 5#32 none }] }).warp 0).earlierDone 2 = true := by
  decide +kernel

def ln : Nat := lineOf 0x20000

/-- One lane's operation at the first line, and a request for it. -/
def lop (op : MemOp) : LaneOp := { lane := 0, key := 0x20000, n := 4, op, dst := [vKey 2 0] }

def req (op : MemOp) : Request :=
  { id := 5, core := 0, slot := 0, own := 1, line := ln, port := 0, ops := [lop op], hint := 0, order := 0, scope := 0, inL1 := false
    tracked := true, arrived := some 0 }

theorem witness_MemorySteps : (∀ op ∈ [.load false, .store 7],
      let s := { world with reqs := [req op] }
      s.pickRequest (s.home ln) ln = some (req op, false) ∧ (req op).held = false ∧ s.obstacle (req op) = .none ∧ (lop op).dst.Nodup ∧
        (lop op).dst.length = (wordsOf 4 false (s.readMem 0x20000 4)).length) ∧
    (let h : HostOp := { warp := 0, own := 1, op := { lop (.atom 0 5 true) with key := hostKey + 64 } }
     let s := { world with hostOps := [h] }
     s.hostOps.find? (fun x => x.warp == warpKey 0 0 && x.own == 1 && x.op.lane == 0) = some h ∧ (s.warp 0).stq = []) ∧
    (hostKey ≤ (hostKey / 128) * 128 ∧ (hostKey / 128) * 128 < 2 ^ 53) ∧
    (let d : Drain := { id := 3, core := 0, num := 4#32, line := ln, req := 5 }
     let s := { world with drains := [d, { d with id := 4, started := true }] }
     let s := s.setLine ln { s.line ln with record := some { core := 0, num := 4#32, drained := false } }
     s.drains.find? (fun x => x.core == 0 && !x.started) = some d ∧ Tbl.wf ({ } : L1Line) (s.core 0).l1 ∧
       s.drains.find? (fun x => x.id == 4) = some { d with id := 4, started := true } ∧ (s.line ln).record.isSome = true ∧ s.reqs = []) ∧
    (let s := { world with paths := [(0, [.marker 0 1 false])] }
     s.pathDown 0 = false ∧ s.pathItems 0 = [.marker 0 1 false]) := by
  decide +kernel

/-- A comparison of the first line's word with zero, while the core polls or with the value that woke it. -/
def watching (wake : Option Nat) (cmp : Nat) : State :=
  let x : Watch := { warp := 0, key := 0x20100, n := 4, cond := 0, cmp, order := 0, scope := 0, lookout := false, wake
                     dst := [sKeyUser 10] }
  { world with watches := [x] }

theorem witness_MemorySteps_watches : (∀ cmp ∈ [0, 1],
      let s := watching none cmp
      (s.watchOf 0).isSome = true ∧ s.ownRequest 0 (lineOf 0x20100) = false ∧ (s.line (lineOf 0x20100)).claims = [] ∧
      (s.warp 0).epochOk s.nextId = true ∧ s.undrained (some 0) (lineOf 0x20100) = none ∧
      watchCond 0 4 (s.readMem 0x20100 4) cmp = (cmp == 0)) ∧
    ((watching (some 9) 0).watchOf 0).isSome = true ∧ sKeyUser 10 < 8448 := by
  decide +kernel

def mmaI : Instr := .mma plainCtl (X 0 2 6 4 255 0)

/-- Core 0's engine holds one word. -/
def engine (i : Instr) (stage : Stage) (writes : List (Loc × List Byte)) : State :=
  world.modCore 0 fun c => { c with windows := [(1, 2)], eng := [{ id := 7, slot := 0, word := world.me.captured plainCtl i [], batch := 0#32
                                                                   stage, writes }] }

theorem witness_EngineSteps :
    (let s := handed (.trsl plainCtl (X 0 0 0 0 255 1)) .accepting [] world
     let u : State := { s with cur := warpKey 0 0 }
     u.me.req.isSome = true ∧ u.me.status = .accepting ∧ u.me.frozen = none ∧ s.queueRoom 0 = true) ∧
    (let s := handed mmaI .accepting [4, 2048, 0, 0] world
     let u : State := { s with cur := warpKey 0 0 }
     u.me.req.isSome = true ∧ u.me.status = .accepting ∧ u.me.frozen = none ∧ u.me.priv = false) ∧
    (((engine mmaI .queued []).core 0).eng.find? (fun x => x.stage == .queued)).isSome = true ∧
    someB (((engine mmaI .running []).core 0).eng.find? (fun y => y.stage == .running)) (fun e => (e.opnd false false).fmt.cls != 64) = true ∧
    ((engine mmaI .running []).warp 0).window.isSome = true ∧
    someB (((engine mmaI .landing [(.mem 0x20100, readWhole)]).core 0).eng.find? (fun x => x.id == 7 && x.stage == .landing))
      (fun e => e.writes == [(.mem 0x20100, readWhole)]) = true ∧
    (engine mmaI .landing []).fetchPinned (lineOf 0x20100) = false ∧ tget 0 ((engine mmaI .queued []).core 0).windows 1 = 2 := by
  decide +kernel

/-- Team 0 sleeps in PNEXT; blocks 0 and 1 are queued, or mailbox 3, or an expired request is in the lane. -/
def popping (blocks : List (Nat × BlockRec)) (mboxes : List (Nat × Mbox)) (handles : List (Nat × Handle)) : State :=
  let s := (user fun w => { w with status := .asleep .pnext 0, running := false, inPhase := false, valloc := 0 }).modTeam 0 fun t =>
    { t with phase := none }
  let s := s.modCtx 0 fun c => { c with blocks, mboxes }
  { s with shards := [(0, { handles })] }

def recOf (key seq : Nat) : BlockRec :=
  { declared := true, entry := 0x100000000#64, qd := true, key := BitVec.ofNat 32 key, seq := BitVec.ofNat 32 seq }

theorem witness_RecordsAndPosts :
    (let s := popping [(0, recOf 5 1), (1, recOf 5 0)] [] []
     ageW (s.ctx 0).drvage = 1 ∧ (∀ x ∈ s.queued 0 0, x.age (s.pops 0 0) < ageCap (s.ctx 0).drvage) ∧
       (s.chooseHere 0 0 0).isSome = true ∧ s.nextTeam 0 0 = some 0 ∧
       (match s.choose 0 0 0 with | some (.record _ r) => !r.mbox && r.num == 1 | _ => false) = true ∧
       s.entryOk 0 { pc := 0x100000000#64 } = true) ∧
    (let s := popping [] [(3, { bound := true, entry := 0x100000000#64, st := .full, qd := true })] []
     s.nextTeam 0 0 = some 0 ∧ (match s.choose 0 0 0 with | some (.record _ r) => r.mbox && r.num == 3 | _ => false) = true) ∧
    (let s := popping [] [(0, { bound := true, entry := 0x100000000#64 })] [(2, { used := true, armed := true, inLane := true })]
     s.nextTeam 0 0 = some 0 ∧ s.choose 0 0 0 = some (.deadline 2)) := by
  decide +kernel

/-- Whatever the clock reads, a handle whose expiry it has reached is expired. -/
theorem witness_RecordsAndPosts_expiry : ∀ armed : Bool,
    let x : Handle := { used := true, armed, expiry := world.icnt 0 }
    let s : State := { world with shards := [(0, { handles := [(2, x)] })] }
    s.handle 0 2 = x ∧ s.expired 0 x = true := by
  intro armed
  refine ⟨by cases armed <;> rfl, ?_⟩
  show decide ((world.icnt 0 - world.icnt 0).toNat < 2 ^ 63) = true
  simp

theorem witness_RecordsAndPosts_posts :
    (let p : Post := { ctx := 0, block := 1, x := 0x3F800000#32, mode := 1, snd := true, gen := 2#32, warp := 0, st := 1 }
     let s := { world with posts := [p] }
     s.posts[0]? = some p ∧ (s.warp p.warp).earlierDone p.st = true) ∧
    ({ world with withdraws := [{ ctx := 0, view := 1, gen := 2#32, warp := 0, st := 1 }] } : State).withdraws[0]?.isSome = true ∧
    ((world.modTeam 0 fun t => { t with fetches := [(16, [1#32, 2#32])] }).team (teamKey 0 0)).fetches = [(16, [1#32, 2#32])] := by
  decide +kernel


/-- A request for a line whose record another core has not drained; an AtomicOp whose warp has nothing before it; and a
snoop of a module that is ready. -/
theorem witness_MemorySteps_waits :
    (let s := { world with reqs := [req (.load false)] }
     let s := s.setLine ln { s.line ln with record := some { core := 1, num := 1#32, drained := false } }
     s.pickRequest (s.home ln) ln = some (req (.load false), false) ∧
       (match s.obstacle (req (.load false)) with | .record _ => true | _ => false) = true) ∧
    (let r := { req (.load false) with held := true }
     let s := { world with reqs := [r] }
     s.pickRequest (s.home ln) ln = some (r, false)) ∧
    world.refused 0 ln = false ∧ (world.warp 0).epochOk 1 = true ∧ world.reqs = [] ∧ (world.warp 0).stq = [] ∧
    ((world.ctx 0).faults = []) ∧
    ({ world with mgmt := { world.mgmt with ready := true } } : State).mgmt.ready = true := by
  decide +kernel

theorem witness_EngineSteps_waits :
    (engine mmaI .landing [(.mem 0x20100, readWhole)]).writeWaits 0 7 (lineOf 0x20100) = false ∧
    (engine mmaI .landing [(.mem 0x20100, readWhole)]).refused 0 (lineOf 0x20100) = false ∧
    (let s := engine mmaI .landing [(.mem 0x20100, readWhole)]
     let l := lineOf 0x20100
     (s.setLine l { s.line l with claims := [(3, 0)] }).writeWaits 0 7 l = true) := by
  decide +kernel

/-- Records that are ready; and a post that sends the withdrawal of a view at another shard, waits for it, and performs. -/
theorem witness_RecordsAndPosts_stages :
    (let s := popping [(0, recOf 5 1), (1, recOf 5 0)] [(3, { bound := true, entry := 0x100000000#64, st := .full, qd := true })] []
     s.recordReady [0] (s.block 0 1).record = true ∧ s.recordReady [0] (s.mbox 0 3).record = true) ∧
    (let p : Post := { ctx := 0, block := 1, x := 0x3F800000#32, mode := 1, snd := true, gen := 2#32, warp := 0, st := 1 }
     let s := (world.modCtx 0 fun c => { c with cores := [0, 127], nviews := 128, views := [(100, { declared := true, blocks := [1] })] })
     let m : Withdraw := { ctx := 0, view := 100, gen := 2#32, warp := 0, st := 1, block := 1 }
     let first := { s with posts := [p] }
     let waits := { s with posts := [{ p with sent := true }], withdraws := [m] }
     first.recordReady [0] (first.block 0 1).record = true ∧ (first.warp 0).earlierDone 1 = true ∧
       first.recordHeld 0 1 = false ∧ first.messagesOf p ≠ [] ∧ ({ world with posts := [p] } : State).messagesOf p = [] ∧
       waits.withdraws.any (fun y => y.warp == 0 && y.st == 1 && y.block == 1) = true ∧ waits.recordHeld 0 1 = true) := by
  decide +kernel

/-! ## The mesh, the links, the host and Birseob -/

theorem witness_HostMailboxes :
    (let s := world.modCtx 0 fun c => { c with mboxes := [(2, { bound := true, held := 1 }), (3, { bound := true, st := .full })] }
     (s.mbox 0 2).held ≠ 0 ∧ s.hostAllowed 8 0 = true ∧ (s.mbox 0 2).st = .empty ∧ (s.mbox 0 3).st = .full ∧
       (s.ctx 0).sweeps.length = 1) ∧
    (let s := world.modCtx 0 fun c => { c with swn := 4#32, sweeps := [] }
     (s.ctx 0).sweeps.length < 16 ∧ (s.ctx 0).swn ≠ 0#32 ∧ s.hostAllowed 8 0 = true) ∧
    (let s := world.modCtx 0 fun c => { c with sweeps := List.replicate 16 { id := 0#32, next := 0, n := 1, arg := 0#32 } }
     16 ≤ (s.ctx 0).sweeps.length ∧ (s.ctx 0).swlost ≠ 0xFFFF#16 ∧ s.hostAllowed 8 0 = true) ∧
    (let s := world.modCtx 0 fun c => { c with lockrid := some 9 }
     s.hostAllowed 8 0 = false ∧ s.links.frozenHosts.contains (0, 8) = false ∧ (s.ctx 0).established = true ∧ (s.ctx 0).faults.length < 16) := by
  decide +kernel

/-- A flit for a core, at a router. -/
def flitAt (r core age : Nat) : NetFlit :=
  { router := r, port := 3, moved := false, via := none, flit := { age, dst := BitVec.ofNat 9 core } }

theorem witness_NetworkSteps :
    (let f := flitAt 0 14 5
     let g := flitAt 0 14 3
     let s := { world with net := { world.net with flits := [g, f] } }
     s.net.acted.contains 0 = false ∧ sortBy before (s.net.flits.filter fun x => x.router == 0 && !x.moved) = [f, g] ∧
       atDestination 0 f = false ∧ (productive 0 f).find? (livePorts 0).contains = some 1 ∧ linkTo 0 1 = some (1, 3, false) ∧
       atDestination 0 g = false ∧ (productive 0 g).find? (fun z => (livePorts 0).contains z && z != 1) = none ∧
       (livePorts 0).find? (fun z => z != 1) = some 2 ∧ linkTo 0 2 = some (8, 0, false)) ∧
    (let f : Flit := { dst := 0#9, fcnt := 1#3 }
     let s := world.modCore 0 fun c => { c with eject := [(0, f)] }
     (s.core 0).eject = [(0, f)] ∧ (s.rslot 0 0).valid = false ∧
     (let x := (s.modCore 0 fun c => { c with rslots := [(0, { valid := true })] }).rslot 0 0
      x.valid = true ∧ x.src = f.src ∧ x.tag = f.tag ∧ x.kind = f.kind) ∧
     (match s.slotting 0 f with | .take 0 0 => true | _ => false) = true ∧
     (match (s.modCore 0 fun c => { c with rslots := [(5, { valid := true })] }).slotting 0 f with | .put 5 => true | _ => false) = true ∧
     (match (s.modCore 0 fun c => { c with rslots := (List.range 32).map fun i => (i, { valid := true, tag := 9#8 }) }).slotting 0 f with
       | .refuse => true | _ => false) = true ∧
     (match s.slotting 0 { f with ctx := 3#3 } with | .discard => true | _ => false) = true) ∧
    (let s := { world with net := { world.net with bridge := [(1, flitAt 64 200 0)] } }
     s.mayLeave 0 = true ∧ s.net.bridge[0]? = some (1, flitAt 64 200 0)) ∧
    (let s := { world with mgmt := { world.mgmt with fabric := [(5, [2])] }, paths := [(1024 + 16 * 5, [.marker 0 1 false])] }
     s.pathDown (1024 + 16 * 5) = false ∧ (s.pathPort (1024 + 16 * 5)).isSome = true ∧
       s.pathItems (1024 + 16 * 5) = [.marker 0 1 false]) ∧ world.links.down.contains 15 = false := by
  decide +kernel

/-- The module is ready with peer 5 listed; context 0 has tenant 7 and an EXPWIN window, or none, for the 64 KiB from
0x30000; some functions are frozen, and context 1 belongs to function 9. -/
def outside (window : BitVec 128) (frozen : List (Nat × Nat)) : State :=
  let s := world.modCtx 0 fun c => { c with expwin := [(0, window)], fabten := 7#32 }
  let s := s.modCtx 1 fun c => { c with established := true, lockrid := some 9 }
  { s with mgmt := { s.mgmt with ready := true, fabric := [(5, [2])] }, links := { s.links with frozenHosts := frozen } }

def wholeWindow : BitVec 128 := BitVec.ofNat 128 (3 * 2 ^ 16 + 2 ^ 64 + 7 * 2 ^ 67 + 3 * 2 ^ 80)

theorem witness_OutsideAccesses :
    (outside 0#128 []).mgmt.ready = true ∧ inDevice 0x30000 16 = true ∧ 0x30000 % 16 = 0 ∧
    (outside 0#128 []).outsideWaits true 0x30000 16 = false ∧ (outside 0#128 []).outsideWaits false 0x30000 16 = false ∧
    (outside 0#128 []).links.frozenHosts.contains (0, 8) = false ∧ inDevice penStart 16 = false ∧ inDevice deviceEnd 1 = false ∧
    (outside 0#128 []).hostAllowed 8 1 = false ∧ (outside 0#128 []).links.frozenHosts.contains (1, 8) = false ∧
    (outside 0#128 []).tenantCtxs 8 = [] ∧ (outside 0#128 []).links.peerFrozen 5 7 = false ∧
    (outside wholeWindow []).tenantCtxs 7 = [0] ∧ ({ (outside 0#128 []).links with frozenPeers := [(0, 5, 7)] } : Links).peerFrozen 5 7 = true ∧
    (∀ kind ∈ [Access.read, .write, .atomic], (outside wholeWindow []).exports 0 5 kind 0x30000 16 = true ∧
      (outside wholeWindow []).exports 0 5 kind 0x2FFF0 17 = false ∧ (outside 0#128 []).exports 0 5 kind 0x30000 16 = false) ∧
    (outside wholeWindow []).outsideWaits true 0x30000 16 = false ∧ (peerAtomic 0 8 [0#8, 1#8]).isSome = true := by
  decide +kernel

/-- Birseob is ready, busy with a command or idle, and has arguments. -/
def asked (busy : Bool) (cmd : Nat) (args : List (Nat × Word)) : State :=
  { teams with mgmt := { teams.mgmt with ready := true, busy, cmd := BitVec.ofNat 8 cmd, args } }

theorem witness_BirseobCommands :
    (asked false 0 []).mgmt.ready = true ∧ (asked false 0 []).mgmt.busy = false ∧ (asked true 2 []).mgmt.busy = true ∧
    teams.mgmt.ready = false ∧ (asked false 0 [(4, 8#32)]).arg 16 1 = 8 ∧ (asked false 0 [(4, 1#32)]).arg 16 1 = 1 ∧
    ((asked false 0 [(4, 1#32)]).ctx 1).established = false ∧ (asked false 0 []).arg 16 1 = 0 ∧
    ((asked false 0 []).ctx 0).established = true ∧
    (asked false 0 [(0, 1#32)]).establishStatus ((asked false 0 [(0, 1#32)]).bytesAt ((asked false 0 [(0, 1#32)]).arg 0 8) 0) [] = 2 ∧
    (asked false 0 [(8, 1#32)]).arg 32 8 % 4096 ≠ 0 ∧ inDevice ((asked false 0 [(8, 0xF0000000#32), (9, 0x17#32)]).arg 32 8) 16384 = false ∧
    inDevice ((asked false 0 [(0, 0x50000#32)]).arg 0 8) 64 = true ∧ (asked false 0 [(0, 0x50000#32)]).fabricTable 0x50000 = some (0, []) ∧
    inDevice ((asked false 0 [(1, 0xFF#32)]).arg 0 8) 64 = false ∧ (asked false 0 [(0, 0x20000#32)]).fabricTable 0x20000 = none ∧
    (asked true 2 []).mgmt.cmd = 2#8 ∧ (asked true 2 []).mgmt.status = 0#8 ∧ (asked true 2 []).allQuiet 0 = false ∧
    (asked true 2 [(4, 1#32)]).allQuiet 1 = true ∧ (asked true 3 []).mgmt.cmd ≠ 2#8 ∧ (asked false 0 []).hostAllowed 8 0 = true := by
  decide +kernel

theorem natLe_length (n x : Nat) : (natLe n x).length = n := by
  induction n generalizing x with
  | zero => rfl
  | succ n ih => simp [natLe, ih]

/-- A report has the same length whatever the keys and digests are. -/
theorem attestation_length (s : State) (nonce : List Byte) (h : nonce.length = 32) : (s.attestation nonce).length = 5411 := by
  simp [State.attestation, padTo, natLe_length, h, List.range_succ]

theorem witness_BirseobCommands_attest :
    let s := asked false 0 [(8, 0x200000#32)]
    let r := s.attestation (s.argBytes.take 32)
    s.arg 32 8 = 0x200000 ∧ inDevice 0x200000 16384 = true ∧ r.length ≤ 16384 ∧ s.outsideWaits true 0x200000 r.length = false := by
  have h : ((asked false 0 [(8, 0x200000#32)]).attestation ((asked false 0 [(8, 0x200000#32)]).argBytes.take 32)).length = 5411 :=
    attestation_length _ _ (by decide +kernel)
  refine ⟨by decide +kernel, by decide +kernel, by rw [h]; decide, ?_⟩
  show State.outsideWaits _ true 0x200000 (State.attestation _ _).length = false
  rw [h]
  decide +kernel

def smallImage : Config.ImageInfo :=
  { teams := 1, warps := 1, drvage := 0#64, drvstl := 0#64, ctxcfg := 0#32, regs := 8, scratch := 0, entry := codeVa, code := []
    data := [], blocks := [], views := [], mboxes := [] }

/-- Context 1 on core 2, with a pool from 0x100000 to 0x200000 and the image at 0x1000, whose magic, version and size are
right. -/
def toEstablish : State :=
  let s := asked false 0 [(0, 0x1000#32), (2, 8192#32), (4, 1#32), (6, 0x100000#32), (8, 0x200000#32), (16, 4#32)]
  { s with mem := Machine.putBytes [] 0x1000 (natLe 4 0x09545A44 ++ natLe 4 1 ++ natLe 8 8192) }

def theImage : List Byte := toEstablish.bytesAt 0x1000 8192

theorem theImage_length : theImage.length = 8192 := by simp [theImage, State.bytesAt]

/-- What the free values of an image have to be for theImage to verify, with its five tables empty at its end. -/
structure Free : Prop where
  sha : Config.sha3 [] = 0#512
  signed : Config.signatureVerifies (theImage.take 256) ((theImage.drop 256).take 4627) (digestAt theImage 192) = true
  tables : ∀ i, Config.imageTable ((theImage.drop 80).take 48) i = (8192, 0)
  contents : Config.imageInfo theImage = smallImage
  supervisor : (Config.supervisorBytes 1).length = 65536

theorem tablesOk_theImage (h : Free) : tablesOk theImage = true := by
  simp only [tablesOk, h.tables, theImage_length]
  decide +kernel

theorem theImage_verifies (h : Free) : imageVerifies theImage = true := by
  have h8 : theImage.drop 8192 = [] := List.drop_eq_nil_of_le (by rw [theImage_length])
  unfold imageVerifies
  rw [h8, h.sha, h.signed, theImage_length, tablesOk_theImage h]
  decide +kernel

theorem imageOf_theImage (h : Free) : imageOf theImage = smallImage := by
  simp only [imageOf, imagePart, h.tables, h.contents, List.take_zero]
  rfl

theorem supPages_one (h : Free) : supPages 1 = 1 := by
  unfold supPages
  rw [h.supervisor]

/-- Whether an image verifies and what it holds are free (log 20): where the free values let the image at 0x1000 verify
and hold what is said, the command goes through with a placement on core 2 in two frames, which in frames of the pool is
none that Birseob may choose; and with no team it breaks a limit. -/
theorem witness_BirseobCommands_establish (h : Free) :
    toEstablish.arg 0 8 = 0x1000 ∧ toEstablish.arg 8 8 = 8192 ∧ toEstablish.arg 16 1 = 1 ∧
    toEstablish.establishStatus theImage toEstablish.maskCores = 0 ∧
    toEstablish.possible (imageOf theImage) 1 toEstablish.maskCores = true ∧
    toEstablish.choiceOk (imageOf theImage) 1 toEstablish.maskCores [[2]] [0x300000, 0x310000] (toEstablish.arg 24 8)
      (toEstablish.arg 32 8) = true ∧
    toEstablish.choiceOk (imageOf theImage) 1 toEstablish.maskCores [[2]] [0x100000, 0x110000] (toEstablish.arg 24 8)
      (toEstablish.arg 32 8) = false ∧
    toEstablish.possible { smallImage with teams := 0 } 1 toEstablish.maskCores = false := by
  have pages : placedPages smallImage 1 = 2 := by
    unfold placedPages tablePages
    rw [supPages_one h]
    decide
  rw [imageOf_theImage h]
  refine ⟨by decide +kernel, by decide +kernel, by decide +kernel, ?_, by decide +kernel, ?_, ?_, by decide +kernel⟩
  · unfold State.establishStatus
    rw [theImage_verifies h]
    decide +kernel
  · unfold State.choiceOk State.framesOk
    rw [pages]
    decide +kernel
  · unfold State.choiceOk State.framesOk
    rw [pages]
    decide +kernel

theorem witness_Management :
    State.reset.mgmt.ready = false ∧ tget 0#32 State.reset.mgmt.clkstep 3 = 0#32 ∧
    tget 0#32 ({ State.reset.mgmt with clkstep := [(0, 5#32)] } : Mgmt).clkstep 0 = 5#32 ∧
    (State.reset.mgmt.event.getLsbD 2 = false ∧ ({ State.reset.mgmt with evmask := 4#32 } : Mgmt).evmask.getLsbD 2 = true) ∧
    0 < deviceEnd ∧ (world.warp (warpKey 0 0)).present = true ∧ (world.warp (warpKey 0 0)).frozen = none ∧
    (world.ctx 0).established = true ∧
    (let s := (teams.modTeam 1 fun t => { t with stop := .boundary })
     (s.team (teamKey 0 1)).life = .live ∧ (s.team 1).stop ≠ .none ∧ (∀ k ∈ (s.team 1).warps, (s.warp k).stopped (s.team 1).stop = true) ∧
       s.settled 1 = true) := by
  decide +kernel

/-- Offsets of BAR0: a hole of no context, one of a context's block, a mailbox and a distributor of a function that may
not reach them and of one that may, and a register of the management buffer. -/
theorem witness_OutsideAccesses_bar0 :
    let s := outside 0#128 []
    bar0At 0x14 = .hole none ∧ bar0At 0x1110 = .hole none ∧ bar0At 0x10017F = .mailbox 0 0 0x17F ∧ bar0At 0x120400 = .mailbox 1 1 0 ∧
    bar0At 0x118000 = .sweeps 0 0 ∧ bar0At 0x138000 = .sweeps 1 0 ∧ bar0At 0x118014 = .hole (some 0) ∧ bar0At 0xC = .mgmt 0xC ∧
    s.hostAllowed 8 0 = true ∧ s.hostAllowed 8 1 = false ∧ s.links.frozenHosts.contains (1, 8) = false := by
  decide +kernel

/-- A flit that reaches its core while nothing waits there, one that a core injects, and a packet that finds no slot. -/
theorem witness_NetworkSteps_ends :
    (let f := flitAt 0 0 5
     let s := { world with net := { world.net with flits := [f] } }
     sortBy before (s.net.flits.filter fun x => x.router == 0 && !x.moved) = [f] ∧ atDestination 0 f = true ∧ f.goal = none ∧
       (s.core 0).eject = [] ∧ (match s.slotting 0 f.flit with | .refuse => false | _ => true) = true) ∧
    (let f := flitAt 0 14 0
     let s := world.modCore 0 fun c => { c with inject := [f] }
     s.net.flits = [] ∧ routerZ 0 = 0 ∧ s.net.acted.contains 0 = false ∧ tget [] s.net.queues 0 = [] ∧ s.injector 0 = some 0 ∧
       s.mayInject 0 = true ∧ atDestination 0 f = false ∧ (productive 0 f).find? (livePorts 0).contains = some 1 ∧
       linkTo 0 1 = some (1, 3, false)) ∧
    world.mgmt.ready = false ∧ (asked false 0 []).mgmt.ready = true := by
  decide +kernel

/-- A boot that can end as said and one that cannot; and a context whose WAYMASK loses the way of a line that it has pinned. -/
theorem witness_Management_boots : (∃ failed, State.reset.bootCan failed = true) ∧ (∀ s : State, s.bootCan 6 = false) ∧
    (asked false 0 []).mgmt.ready = true ∧
    (let l := lineOf 0x20000
     let s := (wide world).setLine l { locks := 1#8, inL2 := true }
     s.lostPins 0 0#32 = [l] ∧ (s.setLine l { locks := 1#8, inL2 := true, way := 9 }).lostPins 0 0xFFFFFFFF#32 = []) :=
  ⟨bootCan_some _, fun _ => rfl, by decide +kernel⟩

theorem witness_StepKeepsMemoryCanonical : MemoryCanonical State.reset ∧
    (match step (State.reset.withFetchWord 64 0x0001FFFFFFFFE000) with | .next _ => true | _ => false) = true :=
  ⟨by unfold MemoryCanonical; decide +kernel, by decide +kernel⟩

/-! ## Well-formedness: a term that each check refuses -/

theorem wellFormed_nop : (Instr.nop plainCtl (V nv nv nv nv 0 0 0)).WellFormed := by decide

/-- A variant field without a meaning (R61), and a field that is not used (R58). -/
theorem wellFormed_fields : ¬(Instr.nop plainCtl (V nv nv nv nv 0 1 0)).WellFormed ∧ ¬(Instr.ret plainCtl (C (.s 2) 0 5)).WellFormed := by
  decide

/-- A constant as a destination, and an operand in an unused position (R58). -/
theorem wellFormed_positions : ¬(Instr.mov plainCtl (V (.imm 3) (.v 1) nv nv 0 0 0)).WellFormed ∧
    ¬(Instr.mov plainCtl (V (.v 1) (.v 1) (.v 1) nv 0 0 0)).WellFormed := by
  decide

/-- An odd register in a 64-bit position (R58), and a predicate past p15 (R106). -/
theorem wellFormed_numbers : ¬(Instr.mov plainCtl (V (.v 3) (.v 2) nv nv 3 0 0)).WellFormed ∧
    ¬(Instr.plog plainCtl (V (.v 16) (.v 1) (.v 1) nv 0 0 0)).WellFormed := by
  decide

/-- A v-register source with an s-register destination (R58, R121), and an offset that varies with DATA in s (R231). -/
theorem wellFormed_lanes : ¬(Instr.iadd plainCtl (V (.s 1) (.v 1) (.s 1) nv 0 0 0)).WellFormed ∧
    ¬(Instr.atom plainCtl (M (.s 1) (.v 1) 2 0)).WellFormed ∧ (Instr.mbwr plainCtl (E (.s 9) (.v 1) (.s 2) 0 2)).WellFormed := by
  decide

/-- Guard bits without a guard (R56), and a guard where none may stand (R104). -/
theorem wellFormed_guards : ¬(Instr.nop { plainCtl with gp := 1#4 } (V nv nv nv nv 0 0 0)).WellFormed ∧
    ¬(Instr.join off (C nv 0 0)).WellFormed := by
  decide

/-- Both destinations of a pair in one bank (R68). -/
theorem wellFormed_pairs : ¬(Instr.pairWord plainCtl
    { opA := 1#4, dA := 1#7, aA := 2#7, bA := 3#8, opB := 3#4, dB := 5#7, aB := 2#7, bB := 3#8, z := 0#1 }).WellFormed := by
  decide

/-- A step of the machine's own has no word. -/
theorem wellFormed_steps : ¬(Instr.boot 0).WellFormed := by decide

theorem witness_DecodeEncode : (Instr.mov plainCtl (V (.v 255) (.sp .lmlt) nv nv 0 0 0)).WellFormed := by decide

theorem witness_EncodeDecode : decode 0x00C0013B00005000#64 = .ok (.ld plainCtl ⟨.v 1, 1#3, .sp .lane, 0#12, 2#3, 4#3, 0#2, 0#4, 0#4⟩) := by
  decide

theorem witness_RefusedWords : ((0xA000000000000000#64 : Dword) >>> 60 = 0b1010#64) ∧ (decode 0x001FFF0000000000#64).toOption = none := by
  decide

/-! ## Words of the manual, written out bit by bit there -/

/-- Integer, floating-point and lane words: the manual's `IADD.s8x4.sat v5, v1, v2`, `ICMP.eq p1, v3, 0`,
`PACK v9, v1, v2, s4, 1`, `VOTE.ballot s3, p1` and `LRED.f32.add s8, v5`. -/
theorem test_decode_values :
    decode 0x0026050080BFFA01#64 = .ok (.iadd plainCtl (V (.v 5) (.v 1) (.v 2) nv 13 0 1)) ∧
    decode 0x00540101E03FE000#64 = .ok (.icmp plainCtl (V (.v 1) (.v 3) (.imm 0) nv 0 0 0)) ∧
    decode 0x0096090080A08010#64 = .ok (.pack plainCtl (V (.v 9) (.v 1) (.v 2) (.s 4) 0 1 0)) ∧
    decode 0x00A10300FFFFE000#64 = .ok (.vote plainCtl (V (.s 3) (.v 1) nv nv 0 0 0)) ∧
    decode 0x00A70802FFFFEA00#64 = .ok (.lred plainCtl (V (.s 8) (.v 5) nv nv 5 0 0)) := by
  decide

/-- Copy, matrix, solver and phase words: `CPYB.sm s7, s8, s10, f2`, `MMASP.z q0, s10, s14, s6, v24`,
`ARD.x4.col v8, q0, s4`, `COMP48.s8x4.hi v16, v6, v7`, `TRSL.lo.n8 q2, q3`, `RPROP s14, s26`, `MBWR.ntf s9, v1, blk`. -/
theorem test_decode_units :
    decode 0x0123078442820004#64 = .ok (.cpyb plainCtl (E (.s 7) (.s 8) (.s 10) 2 4)) ∧
    decode 0x0144028706180002#64 = .ok (.mmasp plainCtl (X 0 10 14 6 24 2)) ∧
    decode 0x014808827FC00060#64 = .ok (.ard plainCtl (E (.v 8) (.s 4) nv 0 0x60)) ∧
    decode 0x014E100301FFFA01#64 = .ok (.comp48 plainCtl (V (.v 16) (.v 6) (.v 7) nv 13 0 1)) ∧
    decode 0x0162400000FF0103#64 = .ok (.trsl plainCtl (X 2 0 0 0 255 0x103)) ∧
    decode 0x0179FF8746800000#64 = .ok (.rprop plainCtl (E nv (.s 14) (.s 26) 0 0)) ∧
    decode 0x01850900EE800002#64 = .ok (.mbwr plainCtl (E (.s 9) (.v 1) (.sp .blk) 0 2)) := by
  decide

/-- Memory, packet and system words: `LDU.128.acq.host s8, g1[zero] !`, `CAS128.ar.host s8, g1[zero] !`,
`SEND s9, v8`, `(p2) SVC 5 !`, `SRR s120, TINFO`, `CTXSV s124, s121, s122` and the pair word
`FMAC v4, v1, v2 || FADD v1, v1, v1`. -/
theorem test_decode_system :
    decode 0x80C5083B50008190#64 = .ok (.ldu { plainCtl with sw := true } (Mo (.s 8) (.sp .zero) 4 0 1 9)) ∧
    decode 0x8107083B50008390#64 = .ok (.cas128 { plainCtl with sw := true } (Mo (.s 8) (.sp .zero) 4 0 3 9)) ∧
    decode 0x019109047FC00000#64 = .ok (.send plainCtl (E (.s 9) (.v 8) nv 0 0)) ∧
    decode 0xC9A5FF0500000000#64 = .ok (.svc { sw := true, g := true, gp := 2#4, n := false } (C nv 5 0)) ∧
    decode 0x01A7780000000007#64 = .ok (.srr plainCtl (K (.s 120) 0 7)) ∧
    decode 0x01AD7CBCDE800000#64 = .ok (.ctxsv plainCtl (E (.s 124) (.s 121) (.s 122) 0 0)) ∧
    decode 0x01E4100810010202#64 = .ok (.pairWord plainCtl
      { opA := 2#4, dA := 4#7, aA := 1#7, bA := 2#8, opB := 0#4, dB := 1#7, aB := 1#7, bB := 1#8, z := 0#1 }) := by
  decide

/-! ## Single steps, with results from the manual -/

/-- The next state of an instruction meets a condition. -/
def after (i : Instr) (s : State) (p : State → Bool) : Bool :=
  match exec i s with
  | .next t => p t
  | _ => false

/-- Lane 0 holds these v-registers. -/
def vregs (ws : List (Nat × Word)) : State := user (setRegs (ws.map fun x => (vKey x.1 0, x.2)))

theorem test_step_nop : (match step (State.reset.withFetchWord 64 0x0001FFFFFFFFE000) with
    | .next t => (t.warp 0).pc == 0x100000010#64
    | _ => false) = true := by
  decide +kernel

/-- Each byte is clamped by itself (R125): 0x7F + 1, 0x80 + 0xFF, 5 + 250 as -6, and 1 + 2. -/
theorem test_iadd_bytes : after (.iadd plainCtl (V (.v 5) (.v 1) (.v 2) nv 13 0 1)) (vregs [(1, 0x7F800501#32), (2, 0x01FFFA02#32)])
    (fun t => t.me.getV 5 0 == 0x7F80FF03#32 && t.me.fpstat == fST) = true := by
  decide +kernel

/-- A shift by the whole width leaves nothing, or copies of the sign (R128). -/
theorem test_shifts : after (.shl plainCtl (V (.v 5) (.v 1) (.v 2) nv 0 0 0)) (vregs [(1, 0x80000001#32), (2, 32#32)]) (fun t => t.me.getV 5 0 == 0#32) = true ∧
    after (.sar plainCtl (V (.v 5) (.v 1) (.v 2) nv 0 0 0)) (vregs [(1, 0x80000001#32), (2, 0x100#32)]) (fun t => t.me.getV 5 0 == 0xFFFFFFFF#32) = true := by
  decide +kernel

/-- The manual's conversion of 150.0 and 500.0 into bytes 2 and 3 (R148). -/
theorem test_pack : after (.pack plainCtl (V (.v 9) (.v 1) (.v 2) (.s 4) 0 1 0))
    ((vregs [(1, 0x43960000#32), (2, 0x447A0000#32), (9, 0x11223344#32)]).modMe fun w =>
      setRegs [(sKeyUser 4, 0x3F000000#32)] { w with fmt := 0x25#32 })
    (fun t => t.me.getV 9 0 == 0x7E713344#32 && t.me.fpstat == fNX ||| fOF ||| fST) = true := by
  decide +kernel

/-- The manual's three conversions into E4M3, and its stochastic rounding of 1 + 2^-9 to BF16 (R89, R94). -/
theorem test_rounding : roundTo e4m3 (.fin false 300 0) 0 false 0 = (0x79, fNX) ∧ roundTo e4m3 (.fin false 460 0) 0 false 0 = (0x7E, fNX) ∧
    roundTo e4m3 (.fin false 470 0) 0 false 0 = (0x7E, fOF ||| fNX ||| fST) ∧
    roundTo bf16 (.fin false 513 (-9)) 4 false 0x42021 = (0x3F80, fNX) ∧ seedNext 0x00042021#32 = 0x04080601#32 := by
  decide +kernel

/-- RCP of +0.0 and of 4.0 (R152). -/
theorem test_rcp : sfRcp (decF32 0#32) = (0x7F800000#32, fDZ) ∧ sfRcp (decF32 0x40800000#32) = (0x3E800000#32, 0#6) := by
  decide +kernel

/-- The manual's order of a sum (R166): 2^24 + 1 + 1 rounds to 2^24. -/
theorem test_lred : after (.lred plainCtl (V (.s 8) (.v 5) nv nv 5 0 0))
    (user fun w => setRegs [(vKey 5 0, 0x4B800000#32), (vKey 5 1, 0x3F800000#32), (vKey 5 2, 0x3F800000#32)] { w with exec := 7#32 })
    (fun t => t.me.outs.any fun o => o.tgts == [⟨sKeyUser 8, some 0x4B800000#32⟩] && o.flags == fNX) = true := by
  decide +kernel

/-- The manual's walk (R168): lane 0 is at row 2 offset 1, lane 1 at the head of row 3, lane 5 past the end. -/
theorem test_rwalk : after (.rwalk plainCtl (V (.v 10) (.v 2) (.s 6) (.v 2) 1 0 0))
    (user (setRegs [(vKey 2 0, 3#32), (vKey 2 2, 2#32), (vKey 2 3, 4#32), (sKeyUser 6, 4#32)]))
    (fun t => t.me.outs.any fun o => o.tgts.contains ⟨vKey 10 0, some 2#32⟩ && o.tgts.contains ⟨vKey 11 0, some 1#32⟩ &&
      o.tgts.contains ⟨vKey 10 1, some 3#32⟩ && o.tgts.contains ⟨predKey 2 1, some 1#32⟩ && o.tgts.contains ⟨predKey 2 0, some 0#32⟩ &&
      o.tgts.contains ⟨vKey 10 5, some 32#32⟩ && o.tgts.contains ⟨vKey 11 5, some 0#32⟩) = true := by
  decide +kernel

/-- The manual's pruned group (R301). -/
theorem test_comp48 : comp48Lane (.int true 8) false 0x0007F903 0x02FB0580 0 = (0x058007F9#32, 0x00000B11#32) := by decide +kernel

/-- A store's bytes are little-endian and next to them nothing changes (R183). -/
theorem test_store : after (.st plainCtl (M (.v 1) (.imm 0) 2 0)) ((vregs [(1, 0x11223344#32)]).modMe one)
    (fun t => t.me.stq.length == 1 && (t.reqs.any fun r => r.ops.any fun o => o.op == .store 0x11223344 && o.key == 0x20100 && o.n == 4)) = true := by
  decide +kernel

/-- TRAP 5 saves the next word's address and its code, and goes on at TVEC + 128 × 15 in supervisor mode (R382). -/
theorem test_trap : after (.trap plainCtl (C nv 5 0)) world (fun t => t.me.priv && t.me.pc == 0x100000000#64 + 1920#64 &&
    t.me.trap.tpc == world.me.pc + 8#64 && t.me.trap.tinfo == 5#32 && t.me.trap.tcause.toNat % 256 == 15) = true := by
  decide +kernel

/-- The manual's admission: RATE 256, PHB 2,400, DPUB 1,200, MAXREQ 4, NOUT 40 and 24 pops give P = 7,456 (R329). -/
theorem test_admit : after (.admitReq plainCtl (E (.s 12) (.s 9) (.s 8) 0 0))
    ({ user (setRegs [(sKeyUser 9, 24#32), (sKeyUser 8, 24000#32)]) with
       shards := [(0, { classres := [(0, BitVec.ofNat 64 (256 + 2400 * 65536 + 1200 * 2 ^ 40 + 4 * 2 ^ 56))], out := [(0, 1)], nout := [(0, 40)] })] })
    (fun t => t.me.outs.any fun o => (o.tgts.map fun y => y.val) == [some 0#32, some 7456#32]) = true := by
  decide +kernel

/-! ## One word of every instruction, written out from the manual's encoding of it (R56, R57, R61, R69) -/

def wordsOk (ws : List (Nat × Instr)) : Bool := ws.all fun p => decide (decode (BitVec.ofNat 64 p.1) = .ok p.2)

theorem test_words_control : wordsOk [
    (0x0001FFFFFFFFE000, .nop plainCtl (V nv nv nv nv 0 0 0)), (0x0003FF00FFFFFFE1, .bra plainCtl (C nv 0 0xffffffe1)),
      (0x0005020000000000, .brx plainCtl (C (.s 2) 0 0)), (0x00077E0000000005, .call plainCtl (C (.s 126) 0 5)),
      (0x0009047E00000000, .callx plainCtl (C (.s 4) 126 0)), (0x000B7E0000000000, .ret plainCtl (C (.s 126) 0 0)),
      (0x000DFF0000070004, .split plainCtl (C nv 0 0x70004)), (0x000FFF0000000000, .join plainCtl (C nv 0 0)),
      (0x001105000000001E, .skipz plainCtl (C (.s 5) 0 30)), (0x001303FFFFFFE030, .exrd plainCtl (V (.s 3) nv nv nv 0 3 0)),
      (0x0015FF84FFFFE020, .exwr plainCtl (V nv (.s 9) nv nv 0 2 0)),
      (0x0016010100FFE008, .plog plainCtl (V (.v 1) (.v 2) (.v 3) nv 0 0 8)),
      (0x00180F03FFFFE020, .pmov plainCtl (V (.v 15) (.v 7) nv nv 0 2 0)),
      (0x001BFF0000000421, .setfmt plainCtl (K nv 0 0x421)),
      (0x001D7FFFFFFFE010, .getfmt plainCtl (V (.s 127) nv nv nv 0 1 0))] = true := by decide

theorem test_words_integer_1 : wordsOk [
    (0x0020027F7FFFE600, .mov plainCtl (V (.v 2) (.v 254) nv nv 3 0 0)),
      (0x0023060180000001, .movk plainCtl (K (.s 6) 1 0x80000001)),
      (0x0024010100C1E001, .sel plainCtl (V (.v 1) (.v 2) (.v 3) (.v 15) 0 0 1)),
      (0x0026050080BFFA01, .iadd plainCtl (V (.v 5) (.v 1) (.v 2) nv 13 0 1)),
      (0x0029018167FFE000, .isub plainCtl (V (.s 1) (.s 2) (.imm 31) nv 0 0 0)),
      (0x002A0704027FE400, .imul plainCtl (V (.v 7) (.v 8) (.v 9) nv 2 0 0)),
      (0x002C0704027FE200, .imulh plainCtl (V (.v 7) (.v 8) (.v 9) nv 1 0 0)),
      (0x002E0704025FE000, .imad plainCtl (V (.v 7) (.v 8) (.v 9) (.v 255) 0 0 0)),
      (0x00300704027FF600, .imin plainCtl (V (.v 7) (.v 8) (.v 9) nv 11 0 0)),
      (0x00320704027FF800, .imax plainCtl (V (.v 7) (.v 8) (.v 9) nv 12 0 0)),
      (0x003407047FFFE401, .iabs plainCtl (V (.v 7) (.v 8) nv nv 2 0 1)),
      (0x003607047FFFFA00, .ineg plainCtl (V (.v 7) (.v 8) nv nv 13 0 0)),
      (0x00380704027FE000, .and plainCtl (V (.v 7) (.v 8) (.v 9) nv 0 0 0)),
      (0x003A07046C3FE000, .or plainCtl (V (.v 7) (.v 8) (.sp .lane) nv 0 0 0)),
      (0x003C0704027FE000, .xor plainCtl (V (.v 7) (.v 8) (.v 9) nv 0 0 0)),
      (0x003E0704027FE000, .andn plainCtl (V (.v 7) (.v 8) (.v 9) nv 0 0 0))] = true := by decide

theorem test_words_integer_2 : wordsOk [
    (0x00400704627FE000, .shl plainCtl (V (.v 7) (.v 8) (.imm 9) nv 0 0 0)),
      (0x00420704027FE000, .shr plainCtl (V (.v 7) (.v 8) (.v 9) nv 0 0 0)),
      (0x00440704027FE000, .sar plainCtl (V (.v 7) (.v 8) (.v 9) nv 0 0 0)),
      (0x00460704027FE001, .rot plainCtl (V (.v 7) (.v 8) (.v 9) nv 0 0 1)),
      (0x00480704027FE400, .bfx plainCtl (V (.v 7) (.v 8) (.v 9) nv 2 0 0)),
      (0x004A070402414000, .bfi plainCtl (V (.v 7) (.v 8) (.v 9) (.v 10) 0 0 0)),
      (0x004C070402414000, .bperm plainCtl (V (.v 7) (.v 8) (.v 9) (.v 10) 0 0 0)),
      (0x004E07047FFFE000, .popc plainCtl (V (.v 7) (.v 8) nv nv 0 0 0)),
      (0x005007047FFFE000, .clz plainCtl (V (.v 7) (.v 8) nv nv 0 0 0)),
      (0x005207047FFFE000, .brev plainCtl (V (.v 7) (.v 8) nv nv 0 0 0)),
      (0x00540101E03FE052, .icmp plainCtl (V (.v 1) (.v 3) (.imm 0) nv 0 5 2)),
      (0x00560704623FE200, .isat plainCtl (V (.v 7) (.v 8) (.imm 8) nv 1 0 0)),
      (0x0058020201FFE821, .iadd64 plainCtl (V (.v 2) (.v 4) (.v 7) nv 4 2 1)),
      (0x005A020281C10600, .imad64 plainCtl (V (.v 2) (.v 5) (.v 7) (.v 8) 3 0 0)),
      (0x005C020201FFE01F, .lea plainCtl (V (.v 2) (.v 4) (.v 7) nv 0 1 15)),
      (0x005E02027FFFE831, .icvt plainCtl (V (.v 2) (.v 4) nv nv 4 3 1))] = true := by decide

theorem test_words_float_1 : wordsOk [
    (0x0060080301FFEA01, .fadd plainCtl (V (.v 8) (.v 6) (.v 7) nv 5 0 1)),
      (0x0062080301FFF002, .fsub plainCtl (V (.v 8) (.v 6) (.v 7) nv 8 0 2)),
      (0x0064080301FFF203, .fmul plainCtl (V (.v 8) (.v 6) (.v 7) nv 9 0 3)),
      (0x0066080301C0AE04, .ffma plainCtl (V (.v 8) (.v 6) (.v 7) (.v 5) 7 0 4)),
      (0x0068080301FFEA00, .fmin plainCtl (V (.v 8) (.v 6) (.v 7) nv 5 0 0)),
      (0x006A080301FFF000, .fmax plainCtl (V (.v 8) (.v 6) (.v 7) nv 8 0 0)),
      (0x006C080301FFEA72, .fcmp plainCtl (V (.v 8) (.v 6) (.v 7) nv 5 7 2)),
      (0x006E08037FFFEC00, .fclass plainCtl (V (.v 8) (.v 6) nv nv 6 0 0)),
      (0x007008037FFFEC40, .frnd plainCtl (V (.v 8) (.v 6) nv nv 6 4 0)),
      (0x007208037FFFEC50, .fcvt plainCtl (V (.v 8) (.v 6) nv nv 6 5 0)),
      (0x007408037FFFE654, .f2i plainCtl (V (.v 8) (.v 6) nv nv 3 5 4)),
      (0x007608037FFFEA43, .i2f plainCtl (V (.v 8) (.v 6) nv nv 5 4 3)),
      (0x00780803013FEC01, .dadd plainCtl (V (.v 8) (.v 6) (.v 4) nv 6 0 1)),
      (0x007A0803013FEC02, .dmul plainCtl (V (.v 8) (.v 6) (.v 4) nv 6 0 2)),
      (0x007C080301004C07, .dfma plainCtl (V (.v 8) (.v 6) (.v 4) (.v 2) 6 0 7)),
      (0x007E0803013FEC31, .dcmp plainCtl (V (.v 8) (.v 6) (.v 4) nv 6 3 1))] = true := by decide

theorem test_words_float_2 : wordsOk [
    (0x008003017FFFEA00, .rcp plainCtl (V (.v 3) (.v 2) nv nv 5 0 0)),
      (0x008203017FFFEA00, .rsq plainCtl (V (.v 3) (.v 2) nv nv 5 0 0)),
      (0x008403017FFFEA00, .sqrt plainCtl (V (.v 3) (.v 2) nv nv 5 0 0)),
      (0x008603017FFFEA00, .exp2 plainCtl (V (.v 3) (.v 2) nv nv 5 0 0)),
      (0x008803017FFFEA00, .log2 plainCtl (V (.v 3) (.v 2) nv nv 5 0 0)),
      (0x008A03017FFFEA00, .exp plainCtl (V (.v 3) (.v 2) nv nv 5 0 0)),
      (0x008C03017FFFEA00, .log plainCtl (V (.v 3) (.v 2) nv nv 5 0 0)),
      (0x008E03017FFFEA00, .sin plainCtl (V (.v 3) (.v 2) nv nv 5 0 0)),
      (0x009003017FFFEA00, .cos plainCtl (V (.v 3) (.v 2) nv nv 5 0 0)),
      (0x009203017FFFEA00, .tanh plainCtl (V (.v 3) (.v 2) nv nv 5 0 0)),
      (0x009410047FFFEA00, .sigm plainCtl (V (.v 16) (.v 8) nv nv 5 0 0)),
      (0x0096090080A08010, .pack plainCtl (V (.v 9) (.v 1) (.v 2) (.s 4) 0 1 0)),
      (0x00980900FFE08070, .unpk plainCtl (V (.v 9) (.v 1) nv (.s 4) 0 7 0)),
      (0x009B01FFFFFFE010, .fstat plainCtl (V (.s 1) nv nv nv 0 1 0)),
      (0x009DFF00FFFFE010, .seedr plainCtl (V nv (.v 1) nv nv 0 1 0))] = true := by decide

theorem test_words_lanes : wordsOk [
    (0x00A10300FFFFE001, .vote plainCtl (V (.s 3) (.v 1) nv nv 0 0 1)),
      (0x00A2020260406615, .shfl plainCtl (V (.v 2) (.v 4) (.imm 1) (.v 3) 3 1 5)),
      (0x00A4020267FFE600, .bcast plainCtl (V (.v 2) (.v 4) (.imm 31) nv 3 0 0)),
      (0x00A70802FFFFEA00, .lred plainCtl (V (.s 8) (.v 5) nv nv 5 0 0)),
      (0x00A80202FFFFE251, .lscan plainCtl (V (.v 2) (.v 5) nv nv 1 5 1)),
      (0x00AA03027FC02600, .matchv plainCtl (V (.v 3) (.v 4) nv (.v 1) 3 0 0)),
      (0x00AC0202407FE200, .rbal plainCtl (V (.v 2) (.v 4) (.s 1) nv 1 0 0)),
      (0x00AE0A0141804200, .rwalk plainCtl (V (.v 10) (.v 2) (.s 6) (.v 2) 1 0 0)),
      (0x00B00C0241FFEA00, .segred plainCtl (V (.v 12) (.v 4) (.s 7) nv 5 0 0))] = true := by decide

theorem test_words_memory_1 : wordsOk [
    (0x00C0013B00004000, .ld plainCtl (Mo (.v 1) (.sp .lane) 2 0 0 0)),
      (0x00C204EFF00062A0, .st plainCtl { Mo (.v 4) (.v 255) 3 0 2 10 with greg := 7 }),
      (0x00C5083800008190, .ldu plainCtl (Mo (.s 8) (.imm 0) 4 0 1 9)),
      (0x00C6040050002001, .ldl plainCtl { Mo (.v 4) (.v 5) 1 1 0 0 with greg := 0 }),
      (0x00C8140150004000, .stl plainCtl { Mo (.v 20) (.v 21) 2 0 0 0 with greg := 0 }),
      (0x00CBFF6050000001, .pref plainCtl { Mo nv (.v 5) 0 1 0 0 with greg := 3 }),
      (0x00CDFF8342000005, .preft plainCtl (E nv (.s 6) (.s 8) 0 5)),
      (0x00CE012050000000, .lock plainCtl (Mo (.v 1) (.v 5) 0 0 0 0)),
      (0x00D1013800000000, .unlock plainCtl (Mo (.s 1) (.imm 0) 0 0 0 0)),
      (0x00D3018342000003, .winset plainCtl (E (.s 1) (.s 6) (.s 8) 0 3)),
      (0x00D501827FC00000, .winclr plainCtl (E (.s 1) (.s 4) nv 0 0)),
      (0x00D7FF2050000001, .cwb plainCtl (Mo nv (.v 5) 0 1 0 0)), (0x00D9FF2050000001, .cinv plainCtl (Mo nv (.v 5) 0 1 0 0)),
      (0x00DB02B850000000, .gbind plainCtl { Mo (.s 2) (.imm 5) 0 0 0 0 with greg := 5 }),
      (0x00DDFFFFF0000000, .ginv plainCtl { Mo nv nv 0 0 0 0 with greg := 7 }),
      (0x00DF183800008000, .qclass plainCtl (Mo (.s 24) (.imm 0) 4 0 0 0))] = true := by decide

theorem test_words_memory_2 : wordsOk [
    (0x0101FF1FF0000350, .fence plainCtl { Mo nv nv 0 0 3 5 with greg := 0 }),
      (0x010204380000435B, .atom plainCtl (Mo (.v 4) (.imm 0) 2 11 3 5)),
      (0x0104044050006110, .cas plainCtl { Mo (.v 4) (.v 5) 3 0 1 1 with greg := 2 }),
      (0x0107083800008390, .cas128 plainCtl (Mo (.s 8) (.imm 0) 4 0 3 9)),
      (0x01080A4060006209, .red plainCtl { Mo (.v 10) (.v 6) 3 9 2 0 with greg := 2 }),
      (0x010BFFD050000000, .mon plainCtl { Mo nv (.s 5) 0 0 0 0 with greg := 6 }),
      (0x010DFF1FF0000000, .mwait plainCtl { Mo nv nv 0 0 0 0 with greg := 0 }),
      (0x010F045800004155, .watch plainCtl { Mo (.s 4) (.imm 0) 2 5 1 5 with greg := 2 }),
      (0x0111FFC27FC00003, .bar plainCtl (E nv (.imm 4) nv 0 3)),
      (0x011306C27FC00007, .bara plainCtl (E (.s 6) (.imm 4) nv 0 7)),
      (0x0115FF837FC00003, .barw plainCtl (E nv (.s 6) nv 0 3)),
      (0x0116042050004155, .slop plainCtl (Mo (.v 4) (.v 5) 2 5 1 5))] = true := by decide

theorem test_words_copy : wordsOk [
    (0x0121FF01013F0289, .cpy plainCtl (E nv (.v 2) (.v 4) 63 0x289)),
      (0x01230C8142850020, .cpyb plainCtl (E (.s 12) (.s 2) (.s 10) 5 32)),
      (0x0124040101810050, .gath plainCtl (E (.v 4) (.v 2) (.v 6) 1 80)),
      (0x0127108141820000, .scat plainCtl (E (.s 16) (.s 2) (.s 6) 2 0)),
      (0x012910817FC70010, .mcast plainCtl (E (.s 16) (.s 2) nv 7 16)),
      (0x012B018262430010, .falloc plainCtl (E (.s 1) (.s 4) (.imm 9) 3 16)),
      (0x012D01FFFFFE0000, .ffree plainCtl (E (.s 1) nv nv 62 0)),
      (0x012E01017FC20001, .fwait plainCtl (E (.v 1) (.v 2) nv 2 1)),
      (0x013101FFFFC90003, .fstate plainCtl (E (.s 1) nv nv 9 3)), (0x01330AFFFFC00007, .spop plainCtl (E (.s 10) nv nv 0 7)),
      (0x0135FF814200000F, .spush plainCtl (E nv (.s 2) (.s 8) 0 15)),
      (0x0137FF867FC50000, .bxpect plainCtl (E nv (.s 12) nv 5 0)),
      (0x0139FF867FC50001, .rxpect plainCtl (E nv (.s 12) nv 5 1)), (0x013BFFFFFFC00000, .cfence plainCtl (E nv nv nv 0 0)),
      (0x013DFFFFFFC1FFFF, .yield plainCtl (E nv nv nv 1 0xffff))] = true := by decide

theorem test_words_matrix_1 : wordsOk [
    (0x0140008406FF0000, .mma plainCtl (X 0 2 8 6 255 0)), (0x0143E08406FF0001, .mmas plainCtl (X 15 2 8 6 255 1)),
      (0x0144028706180002, .mmasp plainCtl (X 0 10 14 6 24 2)), (0x0147C00000FF0001, .aclr plainCtl (X 14 0 0 0 255 1)),
      (0x014808827FC00060, .ard plainCtl (E (.v 8) (.s 4) nv 0 96)),
      (0x014BFF0641000061, .awr plainCtl (E nv (.v 12) (.s 4) 0 97)),
      (0x014C7F8300FF0003, .acvt plainCtl (X 3 126 6 0 255 3)),
      (0x014E100301FFFA01, .comp48 plainCtl (V (.v 16) (.v 6) (.v 7) nv 13 0 1)),
      (0x0150018000FF0003, .cbld plainCtl (X 0 6 0 0 255 3)), (0x0153FF80FFFFE000, .xvset plainCtl (V nv (.s 1) nv nv 0 0 0)),
      (0x0154008300FF001F, .sclb plainCtl (X 0 2 6 0 255 31)), (0x015709FFFFC00000, .mbat plainCtl (E (.s 9) nv nv 0 0)),
      (0x0159FF84FFC00000, .bwait plainCtl (E nv (.s 9) nv 0 0)), (0x0160400000FF0008, .fact plainCtl (X 2 0 0 0 255 8)),
      (0x0162400000FF0103, .trsl plainCtl (X 2 0 0 0 255 0x103)), (0x016408FFFFC00012, .pivrd plainCtl (E (.v 8) nv nv 0 18))] = true := by decide

theorem test_words_matrix_2 : wordsOk [
    (0x0167088141800000, .patch plainCtl (E (.s 8) (.s 2) (.s 6) 0 0)),
      (0x0169FF817FC00000, .stamp plainCtl (E nv (.s 2) nv 0 0)), (0x016A008304FF0000, .hshift plainCtl (X 0 2 6 4 255 0))] = true := by decide

theorem test_words_system_1 : wordsOk [
    (0x0171FFFFFFC00000, .pnext plainCtl (E nv nv nv 0 0)), (0x0173FF84C0400006, .ppost plainCtl (E nv (.s 9) (.s 1) 0 6)),
      (0x0175FFFFFFC00001, .pend plainCtl (E nv nv nv 0 1)), (0x0177FFC07FC00000, .resid plainCtl (E nv (.imm 0) nv 0 0)),
      (0x0179FF8746800000, .rprop plainCtl (E nv (.s 14) (.s 26) 0 0)),
      (0x017BFFC07FC00000, .vpub plainCtl (E nv (.imm 0) nv 0 0)),
      (0x017D0C84FFC00000, .vread plainCtl (E (.s 12) (.s 9) nv 0 0)),
      (0x017F0C84C2000000, .admitReq plainCtl (E (.s 12) (.s 9) (.s 8) 0 0)),
      (0x01810C8241800004, .dline plainCtl (E (.s 12) (.s 4) (.s 6) 0 4)),
      (0x01820184FFC00003, .mbrd plainCtl (E (.v 1) (.s 9) nv 0 3)),
      (0x01850900C0C00002, .mbwr plainCtl (E (.s 9) (.v 1) (.s 3) 0 2)),
      (0x01870C827FC00000, .wfetch plainCtl (E (.s 12) (.s 4) nv 0 0)),
      (0x01890CFFFFC00003, .genrd plainCtl (E (.s 12) nv nv 0 3)),
      (0x019104047FC00000, .send plainCtl (E (.s 4) (.v 8) nv 0 0)),
      (0x019208C042400003, .recv plainCtl (E (.v 8) (.imm 0) (.s 9) 0 3)),
      (0x01940800C1000000, .xchg plainCtl (E (.v 8) (.v 1) (.s 4) 0 0))] = true := by decide

theorem test_words_system_2 : wordsOk [
    (0x019707FFFFC00000, .throt plainCtl (E (.s 7) nv nv 0 0)), (0x01A1FF0500000000, .trap plainCtl (C nv 5 0)),
      (0x01A3FF0000000000, .tret plainCtl (C nv 0 0)), (0x01A5FFFF00000000, .svc plainCtl (C nv 255 0)),
      (0x01A7790000001006, .srr plainCtl (K (.s 121) 0 0x1006)), (0x01A9040000000102, .srw plainCtl (K (.s 4) 0 0x102)),
      (0x01AB0C827FC00001, .preempt plainCtl (E (.s 12) (.s 4) nv 0 1)),
      (0x01AD7CBCDE800000, .ctxsv plainCtl (E (.s 124) (.s 121) (.s 122) 0 0)),
      (0x01AF0C8241800000, .ctxld plainCtl (E (.s 12) (.s 4) (.s 6) 0 0)),
      (0x01B10C8341000000, .tlbinv plainCtl (E (.s 12) (.s 6) (.s 4) 0 0)),
      (0x01B30C837FC00001, .bias plainCtl (E (.s 12) (.s 6) nv 0 1)),
      (0x01B57ABC62C00000, .mapg plainCtl (E (.s 122) (.s 120) (.imm 11) 0 0)),
      (0x01B70C827FC00000, .freeze plainCtl (E (.s 12) (.s 4) nv 0 0)),
      (0x01B90C827FC00002, .thaw plainCtl (E (.s 12) (.s 4) nv 0 2))] = true := by decide

/-! ## Further forms of the statements -/

def sixteen : State := user fun w => { w with exec := 0xFFFFFFFE#32 }

/-- A plain access at one byte past the base. -/
def Odd (data : Operand) (size : Nat) : MFields := { M data (.imm 0) size 0 with imm12 := 1#12 }

theorem witness_MisalignedAccesses_forms :
    (∀ i ∈ ([.ld plainCtl (Odd (.v 1) 2), .st plainCtl (Odd (.v 1) 2), .red plainCtl (Odd (.v 1) 2),
      .ldl plainCtl { Odd (.v 1) 2 with greg := 0#3 }, .stl plainCtl { Odd (.v 1) 2 with greg := 0#3 },
      .atom plainCtl (Odd (.v 1) 2), .cas plainCtl (Odd (.v 2) 2), .cas128 plainCtl (Odd (.v 8) 4), .slop plainCtl (Odd (.v 1) 2),
      .ldu plainCtl (Odd (.s 10) 2), .watch plainCtl (Odd (.s 10) 2), .atom plainCtl (Odd (.s 10) 2), .cas plainCtl (Odd (.s 10) 2),
      .cas128 plainCtl (Odd (.s 8) 4), .slop plainCtl (Odd (.s 10) 2)] : List Instr), Issues sixteen plainCtl i) ∧
    sixteen.me.priv = false ∧ sixteen.me.acts plainCtl = true ∧ (sixteen.me.eff plainCtl).getLsbD 0 = false ∧
    (sixteen.me.eff plainCtl).getLsbD 1 = true ∧
    (∀ d ∈ [Operand.v 1, .s 10], ∀ n ∈ [4, 16], ∀ m ∈ [0, 1], (addrOf sixteen sixteen.me (Odd d 2) m).va.toNat % n ≠ 0) ∧
    (BitVec.ofInt 64 ((rd sixteen sixteen.me (.imm 0) 1).toInt * 4 + 1) : Dword).toNat % 4 ≠ 0 :=
  ⟨issues_all (by decide +kernel), by decide +kernel⟩

/-- Stores, atomics and scratchpad words of all 32 lanes. -/
theorem witness_StoresAndAtomics_lanes :
    let f := M (.v 1) (.imm 0) 2 0
    let g : MFields := { f with greg := 0#3 }
    (∀ i ∈ ([.st plainCtl f, .stl plainCtl g, .atom plainCtl f, .red plainCtl f] : List Instr), Issues world plainCtl i) ∧
    okB (world.accessPlaces plainCtl f false 4 needW (orderCheck f) 0) (fun ps => ps.length == 32) = true ∧
    okB (world.accessPlaces plainCtl f false 4 (needR ||| needW) (atomCheck 0 4 true) 4) (fun ps => ps.length == 32) = true ∧
    (scratchAddrs world world.me plainCtl g).length = 32 ∧
    scratchTrap world world.me plainCtl 4 false (scratchAddrs world world.me plainCtl g) = none ∧
    world.me.scratchClear world.nextId 4 (scratchAddrs world world.me plainCtl g) = true :=
  ⟨issues_all (by decide +kernel), by decide +kernel⟩

/-- FWAIT.ld behind a release STL to the word that it loads, and beside one. -/
theorem witness_FoldAndStreamWaits_clear :
    let i : Instr := .fwait plainCtl (E (.v 1) (.v 2) nv 2 1)
    let rel (key : Nat) : State := folds.modMe fun w =>
      { w with stq := [{ id := 0, kind := .scratch [{ lane := 0, key, n := 1, op := .store 7, dst := [] }] }] }
    (∀ key ∈ [0, 255], issuesB (rel key) plainCtl i = true ∧ ((rel key).fold 0 2).err = 0#3 ∧ ((rel key).fold 0 2).state = 2#2 ∧
      ∀ l, l < 32 → rd (rel key) (rel key).me (.v 2) l = 0#32) ∧
    (rel 0).me.scratchSpan (rel 0).nextId ((rel 0).fold 0 2).abase.toNat 4 = (((rel 0).fold 0 2).abase.toNat != 0) ∧
    ((rel 0).fold 0 2).abase.toNat = 0 ∧ (rel 255).me.scratchSpan (rel 255).nextId 0 4 = true := by
  decide +kernel

/-- Boundaries of the sums and products of residuals. -/
theorem witness_PhaseWords_residuals :
    FiniteF32 0x3F800000#32 false 1 ∧ FiniteF32 0xBF800000#32 true (-1) ∧ (decF32 0x7FC00000#32).isNan = true ∧
    (0xFF800000#32 &&& 0x7FFFFFFF#32 : Word) = 0x7F800000#32 := by
  refine ⟨⟨0x800000, -23, by decide, ?_⟩, ⟨0x800000, -23, by decide, ?_⟩, by decide, by decide⟩
  · rw [show decF32 0x3F800000#32 = .fin false 0x800000 (-23) by decide]; norm_num [Machine.Num.val]
  · rw [show decF32 0xBF800000#32 = .fin true 0x800000 (-23) by decide]; norm_num [Machine.Num.val]

/-- A warp that goes on in a clause of window words, with a window free; and a write of a RECV before its clock. -/
theorem witness_IssueAndCompletion_windows :
    (let s := (waiting 0x100000008 1).modMe fun w => { w with window := none, rewait := true, hdr := 0x100000000#64 }
     let s : State := { s with mem := Machine.putBytes s.mem 0x20008 (natLe 8 (encode mmaI).toNat) }
     s.firstInLine 0 0 0 = true ∧ s.ready 0 = .resume true) ∧
    (let o : Out := { id := 1, tgts := [], after := world.netNow + 1 }
     let s := user fun w => { w with outs := [o] }
     (s.warp 0).outs.find? (fun y => y.id == o.id) = some o ∧ s.netNow < o.after) := by
  decide +kernel

/-- Two requests for one line, of which one has begun; a line with two lanes' stores; snoops and polls that wait; and a
comparison that meets an error. -/
theorem witness_MemorySteps_turns :
    (let r := { req (.store 7) with door := 3 }
     let x := { req (.load false) with id := 6, door := 4 }
     let s := { world with reqs := [x, r] }
     s.pickRequest (s.home ln) ln = some (r, false) ∧ r.begun = false ∧ ln ∉ s.starts) ∧
    (let r := { req (.load false) with begun := true, door := 1 }
     let s := (({ world with reqs := [r], starts := [ln] } : State).modLine ln fun y => { y with claims := [(3, 0)] })
     s.pickRequest (s.home ln) ln = some (r, false) ∧ (match s.obstacle r with | .busy => true | _ => false) = true) ∧
    (let r := { req (.store 7) with ops := [lop (.atom 0 5 true), { lop (.atom 0 6 true) with lane := 1, dst := [vKey 2 1] }] }
     let s := { world with reqs := [r] }
     s.pickRequest (s.home ln) ln = some (r, false) ∧ s.obstacle r = .none ∧ r.isWrite = true ∧ r.isLock = false ∧
       r.isMonitor = false ∧ r.isPrefetch = false ∧ s.refused r.ctx r.line = false ∧ (r.ops.flatMap fun o => o.dst).Nodup) ∧
    (let s := world.modLine (hostKey / 128) fun y => { y with claims := [(3, 0)] }
     s.outsideWaits true (hostKey / 128 * 128) 128 = true ∧ world.outsideWaits true (hostKey / 128 * 128) 128 = false) ∧
    (let l := lineOf 0x20100
     let s := watching none 0
     (s.modLine l fun y => { y with claims := [(3, 0)] }).pollWaits 0 l = true ∧ s.pollWaits 0 l = false ∧
       (s.modLine l fun y => { y with poison := 1#32 }).poisonFor 0 l &&& spanOf 0x20100 4 ≠ 0#32 ∧ (s.warp 0).priv = false) := by
  decide +kernel

/-- Words that wait to be accepted: each at the condition that lets it in, and at one that stops it. -/
theorem witness_EngineSteps_acceptance :
    let at' (i : Instr) (vals : List Nat) : State := { handed i .accepting vals world with cur := warpKey 0 0 }
    let mmas : Instr := .mmas plainCtl (X 0 2 6 4 255 0)
    let fact : Instr := .fact plainCtl (X 0 2 0 0 255 0x20)
    let stamp : Instr := .stamp plainCtl (E nv (.s 2) nv 0 0)
    let patch : Instr := .patch plainCtl (E (.s 8) (.s 2) (.s 6) 0 0)
    let shift : Instr := .hshift plainCtl (X 0 2 6 4 255 0)
    let acvt : Instr := .acvt plainCtl (X 0 2 6 0 255 0)
    let page := 0x100000000
    (∀ i ∈ [mmaI, mmas, fact, stamp, patch, shift, acvt], let u := at' i []
      u.me.req.isSome = true ∧ u.me.status = .accepting ∧ u.me.frozen = none ∧ u.me.priv = false ∧ u.queueRoom 0 = true) ∧
    (page % 4096 = 0 ∧ (page + 2048) % 2048 = 0 ∧ (page + 2048) % 4096 ≠ 0) ∧
    okB ((at' mmaI [page, page, 0, 0]).placesAt (at' mmaI [page, page, 0, 0]).me needR 1
      ((at' mmaI [page, page, 0, 0]).operandVas ((at' mmaI [page, page, 0, 0]).me.captured plainCtl mmaI [page, page, 0, 0]) false false))
      (fun ps => (ps.find? fun p => p.2.host || leafStripe p.2.entry != 0).isNone) = true ∧
    okB (world.probeRowsOut world.me true page (acvtRow world.me.fmt) 128 32)
      (fun r => r.1.length != 0) = true ∧
    okB (world.probeRowsOut world.me true 0x200000000 (acvtRow world.me.fmt) 128 32) = false ∧
    okB (world.placesAt world.me needR 1 (firstOfPages (linesFrom (BitVec.ofNat 64 page) (128 + 4096)))) = true ∧
    okB (world.probeMoves world.me (shiftMoves (BitVec.ofNat 64 page) (BitVec.ofNat 64 (page + 4096)) 16 2))
      (fun r => r.1.length == 2 && (distinct r.2).all fun l => world.mayClaim 0 world.nextId l (unreadOf r.1)) = true := by
  decide +kernel

/-- Words that the engine has run: a window, tiles of known codes, and an ACVT whose writes have their length. -/
theorem witness_EngineSteps_results :
    (∀ i ∈ [Instr.mmas plainCtl (X 0 2 6 4 255 0), .mmasp plainCtl (X 0 2 6 4 8 0), .fact plainCtl (X 2 2 0 0 255 8),
      .trsl plainCtl (X 2 0 0 0 255 0x103)],
      (((engine i .running []).core 0).eng.find? fun y => y.stage == .running || y.stage == .writing).isSome = true ∧
        ((engine i .running []).warp (warpKey 0 0)).window.isSome = true) ∧
    (factFunc 8#16).kind < 3 ∧ (factFunc 0x3F#16).kind = 3 ∧
    (let ws : List (Loc × List Byte) := (List.range 32).map fun i => (.mem (0x20000 + 128 * i), List.replicate 128 0#8)
     let s := engine (.acvt plainCtl (X 0 2 6 0 255 0)) .running ws
     someB (matFmt (fmtA world.me.fmt)) (fun o => (ws.map fun y => y.2.length).sum == 32 * (4 * elemBits o.elem)) = true ∧
       ((s.core 0).eng.find? fun y => y.stage == .running || y.stage == .writing).isSome = true) := by
  decide +kernel

/-- A window of two, an overdue record, an entry that fails, a record that a post holds, and a deadline record whose
abandoning waits. -/
theorem witness_RecordsAndPosts_choices :
    (let s := (popping [(0, recOf 5 1), (1, recOf 5 0)] [] []).modCtx 0 fun c => { c with drvage := 0xFFFF000020000000#64 }
     ageW (s.ctx 0).drvage = 2 ∧ (s.queued 0 0).length = 2 ∧ (∀ x ∈ s.queued 0 0, x.age (s.pops 0 0) < ageCap (s.ctx 0).drvage) ∧
       ((s.queued 0 0).Pairwise fun x y => x.seq ≠ y.seq)) ∧
    (let s := (popping [(0, recOf 5 1), (1, recOf 5 0)] [] []).modCtx 0 fun c => { c with drvage := 0#64 }
     s.queued 0 0 ≠ [] ∧ ∀ x ∈ s.queued 0 0, ageCap (s.ctx 0).drvage ≤ x.age (s.pops 0 0)) ∧
    (∀ entry ∈ [0x100000004, 0x200000000, 0x100000080],
      let s := popping [(0, { recOf 5 1 with entry := BitVec.ofNat 64 entry })] [] []
      s.entryOk ((s.team 0).warps.headD 0) { pc := BitVec.ofNat 64 entry } = false ∧ (s.team 0).warps.Nodup ∧
        ∀ k ∈ (s.team 0).warps, (s.warp k).priv = false) ∧
    (let p : Post := { ctx := 0, block := 0, x := 0#32, mode := 1, snd := true, gen := 2#32, warp := 0, st := 1, sent := true }
     let s := { popping [(0, recOf 5 1)] [] [] with posts := [p] }
     someB (s.choose 0 0 0) (fun x => match x with | .record _ r => s.popWaits 0 r | _ => false) = true) ∧
    (let p : Post := { ctx := 0, block := 0, x := 0#32, mode := 1, snd := true, gen := 2#32, warp := 0, st := 1, sent := true }
     let h : Handle := { used := true, armed := true, inLane := true, abandon := true, gen := 9#32 }
     let s := popping [(0, { recOf 5 1 with gen := 9#32 })] [(0, { bound := true, entry := 0x100000000#64 })] [(2, h)]
     s.choose 0 0 0 = some (.deadline 2) ∧ s.deadlineWaits 0 0 2 = false ∧ ({ s with posts := [p] } : State).deadlineWaits 0 0 2 = true) := by
  decide +kernel

/-- Device memory homed on die 0 and on another die, which a host access reaches by a packet. -/
theorem witness_OutsideAccesses_dies :
    (outside 0#128 []).hostReaches 0x30000 = true ∧ inDevice 0x30000 16 = true ∧
    (let addr := dieSize + 0x30000
     inDevice addr 16 = true ∧ (outside 0#128 []).hostReaches addr = false ∧
        (let s := outside 0#128 []
         let s := { s with net := { s.net with hostAt := [(sliceRouter (s.home (addr / 128)), 1)] } }
         s.hostReaches addr = true)) := by
  decide +kernel


/-! ## Words that wait, lines on their way, and what lands -/

/-- The lines of a QTRAP LOCK that are clear, and one that a request holds; a window in motion and the request of a line on
its way; a peer that a live path reaches, and one that none does. -/
theorem witness_LineRequests_waits :
    let moving : Win := { num := 2, base := 0x100000000#64, lines := [line0], slices := [0], moving := [line0], closing := true }
    let s := world.modCtx 0 fun c => { c with wins := [moving] }
    let cut (down : List Nat) : State := { world with mgmt := { world.mgmt with fabric := [(5, [2])] }, links := { world.links with down } }
    let far := (6 * 2 ^ 53 + 0x20000) / 128
    world.lineClear world.nextId line0 = true ∧
    ({ world with reqs := [homeReq .unlock []] } : State).lineClear world.nextId line0 = false ∧ world.inMotion = false ∧ s.inMotion = true ∧
    (let r := { homeReq (.move 512) [vKey 2 0] with port := 3 }
     let u := { s with reqs := [r] }
     u.pickRequest (u.home line0) line0 = some (r, false) ∧ r.held = false) ∧
    (cut []).cutOff far = false ∧ (cut [2]).cutOff far = true := by
  decide +kernel

theorem witness_ViewsMailboxesAndRequests_waits : drover.me.epochOk drover.nextId = true ∧ (super id).me.epochOk (super id).nextId = true ∧
    ((user one).modMe fun w => { w with twarp := 0 }).me.epochOk 1 = true := by
  decide +kernel

/-- A barrier at which the warp has arrived; a warp other than warp 0 that ends a phase; a deadline's phase that runs its own
handle, and one whose handle another team runs. -/
theorem witness_TeamBarriers_second :
    (let s := world.modTeam 0 fun t => { t with bars := [(7, { arrived := 1#16, count := 1#5 })] }
     Issues s plainCtl (.bar plainCtl (E nv (.s 4) nv 0 7)) ∧ ((s.team 0).bar 7).arrived.getLsbD s.me.twarp = true) ∧
    (let p : Phase := { kind := .deadline, num := 2, shard := 0, gen := 1#32, popres := 0#32 }
     let run (tk : Nat) : State := { (world.modTeam 0 fun t => { t with phase := some p }) with
       shards := [(0, { handles := [(2, { used := true, running := true, runner := tk })] })] }
     Issues (run 0) plainCtl (.pend plainCtl (E nv nv nv 0 0)) ∧ (run 0).mayEnd 0 p = true ∧ (run 0).me.inPhase = true ∧
       ((run 0).handle 0 2).runner = 0 ∧ ((run 3).handle 0 2).runner ≠ 0) ∧
    (let s := user fun w => { w with twarp := 1 }
     Issues s plainCtl (.pend plainCtl (E nv nv nv 0 0)) ∧ s.me.twarp ≠ 0) :=
  ⟨⟨issues_of (by decide +kernel), by decide +kernel⟩, ⟨issues_of (by decide +kernel), by decide +kernel⟩,
    ⟨issues_of (by decide +kernel), by decide +kernel⟩⟩

/-- Pieces of a multicast: to be read from good and from bad bytes, and read, the last of their destination or not. -/
theorem witness_Copies_multicast :
    let p (off : Nat) (got : Option (List Byte)) : Piece := { src := .mem 0x20000, dst := .scr 0 off, n := 16, dest := some (0, 0, 1), got }
    let c (ps : List Piece) : State := world.modCore 0 fun x => { x with
      cmds := [{ id := 9, team := 0, slot := 0, fold := 1, pieces := ps, mcast := some [32, 1, 0, 0, 0x20000] }] }
    let s := c [p 0 none, p 16 none]
    let bad := s.setLine line0 { s.line line0 with poison := 1#32 }
    someB ((s.core 0).cmds.find? fun x => x.id == 9) (fun x => !s.behindFold 0 x && x.mcast.isSome && x.pieces.length == 2) = true ∧
    s.badBytes 0 (.mem 0x20000) 16 = false ∧ bad.badBytes 0 (.mem 0x20000) 16 = true ∧ s.sourceWaits 0 9 (.mem 0x20000) = false ∧
    someB (((c [p 0 (some readWhole)]).core 0).cmds.find? fun x => x.id == 9) (fun x => x.pieces == [p 0 (some readWhole)]) = true ∧
    someB (((c [p 0 (some readWhole), p 16 none]).core 0).cmds.find? fun x => x.id == 9) (fun x => x.pieces.length == 2) = true := by
  decide +kernel

/-- A store that a peer refuses, at its home there. -/
theorem witness_MemorySteps_refused :
    let far := (6 * 2 ^ 53 + 0x20000) / 128
    let s : State := { world with mgmt := { world.mgmt with fabric := [(5, [2])] }, links := { world.links with refusing := [(5, 0)] } }
    let r : Request := { req (.store 7) with line := far, ops := [{ lop (.store 7) with key := 128 * far }] }
    let u := { s with reqs := [r] }
    u.pickRequest (u.home far) far = some (r, false) ∧ u.obstacle r = .none ∧ u.refused r.ctx far = true ∧ r.isLock = false ∧
      r.isMonitor = false ∧ r.moves = none := by
  decide +kernel

/-- An engine word that lands an image line: of a STAMP and of a PATCH, and moves of a HSHIFT; its line claimed, or late. -/
def landing (i : Instr) (todo : List Nat) (pieces : List Piece) (late : List Nat) : State :=
  world.modCore 0 fun c => { c with
    eng := [{ id := 7, slot := 0, word := world.me.captured plainCtl i [], batch := 0#32, stage := .landing, todo, pieces, late
              img := [lineOf 0x20100], ents := [{ off := 4, val := 0x3F800000, add := true, p := none, m := none }] }] }

theorem witness_EngineSteps_landing :
    let l := lineOf 0x20100
    (∀ late ∈ [[], [l]], ∀ i ∈ ([.stamp plainCtl (E nv (.s 2) nv 0 0), .patch plainCtl (E (.s 8) (.s 2) (.s 6) 0 0)] : List Instr),
      let s := landing i [0] [] late
      someB ((s.core 0).eng.find? fun x => x.id == 7 && x.stage == .landing) (fun e => e.writes == [] && e.todo == [0] &&
        e.entsAt 0 1 != [] && e.feedLines 0 == [] && s.mayClaim 0 7 l e.unread) = true ∧
        s.writeWaits 0 7 l = false ∧ s.refused 0 l = false ∧
        (s.modLine l fun y => { y with claims := [(3, 0)] }).writeWaits 0 7 l = true ∧
        (s.modLine l fun y => { y with claims := [(3, 0)] }).mayClaim 0 7 l [] = false) ∧
    (let p : Piece := { src := .mem 0x20000, dst := .mem 0x20100, n := 16, row := some 1 }
     let s := landing (.hshift plainCtl (X 0 2 6 4 255 0)) [] [p] []
     someB ((s.core 0).eng.find? fun x => x.id == 7 && x.stage == .landing) (fun e => e.writes == [] && e.todo == [] && e.pieces == [p] &&
       (e.pieces.takeWhile fun q => q.row == some 1) == [p]) = true ∧ s.sourceWaits 0 7 p.src = false ∧ s.writeWaits 0 7 l = false ∧
       (s.modLine line0 fun y => { y with claims := [(3, 0)] }).sourceWaits 0 7 p.src = true) := by
  decide +kernel

/-- A flit that completes its packet, one that does not, and one for a packet that is complete. -/
theorem witness_NetworkSteps_complete :
    let f : Flit := { dst := 0#9, fcnt := 1#3 }
    let s (x : RSlot) : State := world.modCore 0 fun c => { c with eject := [(0, f)], rslots := [(0, x)] }
    let after (x : RSlot) : RSlot := { x with pres := x.pres ||| 1#8 }
    ∀ x ∈ ([{ valid := true, fcnt := 1#3 }, { valid := true, fcnt := 0#3 }, { valid := true, pres := 1#8 }] : List RSlot),
      ((s x).core 0).eject = [(0, f)] ∧ ((s x).rslot 0 0).src = f.src ∧
      (x.complete = false ∨ (after x).complete = true) := by
  decide +kernel

/-- An establishment whose teams wait for a scrub, and one whose teams come. -/
theorem witness_BirseobCommands_spawns :
    let p : Spawn := { ctx := 1, entry := 0x100000000#64, regs := 8, scratch := 1024, place := [[2]] }
    let s := asked true 1 []
    let s := (s.modCore 2 fun c => { c with corectx := 0x80000001#32 }).modCtx 1 fun c => { c with established := true, cores := [2] }
    let s := { s with mgmt := { s.mgmt with spawns := some p } }
    s.mgmt.busy = true ∧ s.mgmt.down = false ∧ s.mgmt.spawns = some p ∧ p.ctx < 8 ∧ p.place.length ≤ 64 ∧
    ((s.modCtx 1 fun c => { c with ctxcfg := 0x10000#32 }).spawnWaits p = false) ∧
    (((s.modCtx 1 fun c => { c with ctxcfg := 0x10000#32 }).modCore 2 fun c => { c with scratchScrub := 65536 }).spawnWaits p = true) ∧
    (∀ c ∈ [0, 1], let u := { asked true 1 [] with mgmt := { (asked true 1 []).mgmt with code := 2#8, subject := c } }
     u.mgmt.down = true ∧ u.mgmt.spawns = none ∧ u.allQuiet u.mgmt.subject = decide (c = 1)) := by
  decide +kernel

/-- Warps with and without a window, and offsets inside and outside a team's scratchpad. -/
theorem witness_Management_sites :
    (world.warp (warpKey 0 0)).window.isSome = true ∧ (world.warp (warpKey 0 1)).window = none ∧ (world.ctx 0).faults.length < 16 ∧
    (world.team (teamKey 0 0)).scratchSize = 4096 ∧ (∀ k ∈ (world.team 0).warps, (world.warp k).present = true) := by
  decide +kernel

/-- 3, whose EXP2 is exact and whose EXP is not; 1024, beyond every exponent; and -1/2. -/
theorem witness_SpecialFunctionUnit_fixed :
    fxOf 3 0 < 300 * fxOne ∧ 300 * fxOne ≤ fxOf 1024 0 ∧ (Machine.Num.fin false 3 0).val ≠ 1 ∧
    (∀ n : Int, (Machine.Num.fin true 1 (-1)).val = n → 200 < n.natAbs) ∧ (Machine.Num.fin false 180 0).val = (180 : Int) ∧
    (127 : Int) < 180 ∧ (180 : Int).natAbs ≤ 200 ∧ ∀ n : Int, (Machine.Num.fin false 3 0).val ≠ 2 ^ n := by
  refine ⟨by decide +kernel, by decide +kernel, by norm_num [Machine.Num.val], ?_, by norm_num [Machine.Num.val], by norm_num,
    by decide, ?_⟩
  · intro n hn
    have h : (2 * n : ℚ) = -1 := by rw [← hn]; norm_num [Machine.Num.val]
    have h' : 2 * n = -1 := by exact_mod_cast h
    omega
  · intro n hn
    have h3 : (3 : ℚ) = 2 ^ n := by rw [← hn]; norm_num [Machine.Num.val]
    rcases le_or_gt n 1 with h | h
    · have : (2 : ℚ) ^ n ≤ 2 ^ (1 : ℤ) := zpow_le_zpow_right₀ (by norm_num) h
      norm_num at this
      linarith
    · have : (2 : ℚ) ^ (2 : ℤ) ≤ 2 ^ n := zpow_le_zpow_right₀ (by norm_num) h
      norm_num at this
      linarith

/-- A leaf whose stripe set is not declared places its granule nowhere. -/
theorem witness_TranslationWords_places :
    (let s := super id
     let s := { s with mem := Machine.putBytes s.mem 0x14000 (natLe 8 0x2047B) }
     issuesB s plainCtl (.bias plainCtl (E (.s 12) (.s 6) nv 0 1)) = true ∧
     (match s.walk 0 0x100000000#64 with
      | .leaf e l _ => !okPlace (s.place 0 0x100000000#64 e l)
      | _ => false) = true ∧ (s.mapgStatus 0 0x100000000#64).1 = 5) := by
  decide +kernel

end Sys2Proof.Tests
end

section
/-! SUPPORT. Rounding to a format (R43, R75, R89): a value that a format holds rounds to its own code, the modes of a
magnitude that is cut to coarser units, and the exact sums and products of R140. -/

namespace Sys2Proof.Machine

/-! ## The length of a magnitude -/

theorem bitLen_eq {m n : Nat} (lo : 2 ^ n ≤ m) (hi : m < 2 ^ (n + 1)) : bitLen m = n + 1 := by
  have pos : m ≠ 0 := (lt_of_lt_of_le (by positivity) lo).ne'
  rw [bitLen, if_neg pos, (Nat.log2_eq_iff pos).2 ⟨lo, hi⟩]

/-- A magnitude other than 0 stands between two powers of 2, which its length names. -/
theorem bitLen_bounds {m : Nat} (pos : m ≠ 0) : ∃ n, bitLen m = n + 1 ∧ 2 ^ n ≤ m ∧ m < 2 ^ (n + 1) :=
  ⟨m.log2, if_neg pos, Nat.log2_self_le pos, Nat.lt_log2_self⟩

/-! ## The finite values of a format (R75) -/

section
variable (f : FpFmt)

theorem FpFmt.magOf_subnormal {c : Nat} (h : c < 2 ^ f.mbits) : f.magOf c = (c, f.emin - f.mbits) := by
  simp [FpFmt.magOf, Nat.div_eq_of_lt h, Nat.mod_eq_of_lt h]

theorem FpFmt.magOf_normal {c : Nat} (h : 2 ^ f.mbits ≤ c) :
    f.magOf c = (c % 2 ^ f.mbits + 2 ^ f.mbits, (c / 2 ^ f.mbits : Nat) - (f.bias : Int) - f.mbits) :=
  if_neg (Nat.div_pos h (by positivity)).ne'

/-- The significand of a normal value has the format's full length. -/
theorem FpFmt.magOf_normal_bounds {c : Nat} (h : 2 ^ f.mbits ≤ c) :
    2 ^ f.mbits ≤ (f.magOf c).1 ∧ (f.magOf c).1 < 2 ^ (f.mbits + 1) := by
  have low : c % 2 ^ f.mbits < 2 ^ f.mbits := Nat.mod_lt _ (by positivity)
  rw [f.magOf_normal h, pow_succ]
  dsimp only
  omega

theorem FpFmt.codeOf_subnormal {q : Nat} (h : q < 2 ^ f.mbits) : f.codeOf q (f.emin - f.mbits) = q := by
  by_cases zero : q = 0
  · simp [FpFmt.codeOf, zero]
  obtain ⟨n, len, lo, -⟩ := bitLen_bounds zero
  have short : n < f.mbits := (Nat.pow_lt_pow_iff_right (by norm_num)).1 (lo.trans_lt h)
  have lead : (n : Int) + (f.emin - f.mbits) < f.emin := by omega
  simp [FpFmt.codeOf, zero, len, lead, h]

theorem FpFmt.codeOf_normal {q : Nat} {u : Int} (lo : 2 ^ f.mbits ≤ q) (hi : q < 2 ^ (f.mbits + 1))
    (hu : f.emin - f.mbits ≤ u) : f.codeOf q u = (u + f.mbits + f.bias).toNat * 2 ^ f.mbits + (q - 2 ^ f.mbits) := by
  have pos : q ≠ 0 := (lt_of_lt_of_le (by positivity) lo).ne'
  have lead : ¬(f.mbits : Int) + u < f.emin := by omega
  simp [FpFmt.codeOf, pos, bitLen_eq lo hi, lead, not_lt.2 lo, add_comm u]

/-- The code of the value with code c is c (R75). -/
theorem FpFmt.codeOf_magOf (c : Nat) : f.codeOf (f.magOf c).1 (f.magOf c).2 = c := by
  rcases lt_or_ge c (2 ^ f.mbits) with h | h
  · rw [f.magOf_subnormal h]
    exact f.codeOf_subnormal h
  · obtain ⟨lo, hi⟩ := f.magOf_normal_bounds h
    have exp : 0 < c / 2 ^ f.mbits := Nat.div_pos h (by positivity)
    rw [f.magOf_normal h] at lo hi ⊢
    rw [f.codeOf_normal lo hi (by unfold FpFmt.emin; omega)]
    have code : ((c / 2 ^ f.mbits : Nat) - (f.bias : Int) - f.mbits + f.mbits + f.bias).toNat = c / 2 ^ f.mbits := by omega
    rw [code, Nat.add_sub_cancel]
    exact Nat.div_add_mod' c _

/-! ## Values within the format's range -/

/-- A significand of the format's length at a lower exponent than the largest value's, or at its exponent and no larger,
is within the range. -/
theorem FpFmt.beyond_eq_false {t : Nat} {u : Int} (large : 2 ^ f.mbits ≤ f.maxCode) (ht : t < 2 ^ (f.mbits + 1))
    (h : u < (f.magOf f.maxCode).2 ∨ u = (f.magOf f.maxCode).2 ∧ t ≤ (f.magOf f.maxCode).1) : f.beyond t u = false := by
  have top := (f.magOf_normal_bounds large).1
  unfold FpFmt.beyond
  rcases h with below | ⟨same, le⟩
  · have grows : 2 ^ 1 ≤ 2 ^ ((f.magOf f.maxCode).2 - u).toNat := Nat.pow_le_pow_right (by norm_num) (by omega)
    have := Nat.mul_le_mul top grows
    simp only [not_le.2 below, if_false, decide_eq_false_iff_not, not_lt]
    rw [pow_succ] at ht
    omega
  · simp [same, le]

/-- No finite value of the format is beyond its largest. -/
theorem FpFmt.beyond_magOf {c : Nat} (normal : 2 ^ f.mbits ≤ c) (le : c ≤ f.maxCode) :
    f.beyond (f.magOf c).1 (f.magOf c).2 = false := by
  have large := normal.trans le
  refine f.beyond_eq_false large (f.magOf_normal_bounds normal).2 ?_
  rw [f.magOf_normal normal, f.magOf_normal large]
  rcases (Nat.div_le_div_right (c := 2 ^ f.mbits) le).lt_or_eq with h | h
  · left; omega
  · right
    have := Nat.div_add_mod c (2 ^ f.mbits)
    have := Nat.div_add_mod f.maxCode (2 ^ f.mbits)
    rw [h] at *
    omega

/-! ## A value that the format holds (R43) -/

/-- In units no coarser than its own, a magnitude is exact. -/
theorem roundUnits_exact {mode : Nat} {neg : Bool} {m : Nat} {e u : Int} {seed : Nat} (h : u ≤ e) :
    roundUnits mode neg m e u seed = (m * 2 ^ (e - u).toNat, true) := if_pos h

theorem roundTo_normal (neg : Bool) {c : Nat} (mode : Nat) (sat : Bool) (seed : Nat) (normal : 2 ^ f.mbits ≤ c)
    (le : c ≤ f.maxCode) : roundTo f (.fin neg (f.magOf c).1 (f.magOf c).2) mode sat seed = (f.place neg c, 0#6) := by
  obtain ⟨lo, hi⟩ := f.magOf_normal_bounds normal
  have pos : (f.magOf c).1 ≠ 0 := (lt_of_lt_of_le (by positivity) lo).ne'
  have exp : 0 < c / 2 ^ f.mbits := Nat.div_pos normal (by positivity)
  have inRange : f.emin ≤ (f.magOf c).2 + f.mbits := by
    rw [f.magOf_normal normal]; unfold FpFmt.emin; dsimp only; omega
  have lead : ((f.mbits + 1 : Nat) : Int) - 1 + (f.magOf c).2 = (f.magOf c).2 + f.mbits := by push_cast; ring
  simp only [roundTo, pos, if_false, bitLen_eq lo hi, lead, add_sub_cancel_right, not_lt.2 inRange,
    roundUnits_exact le_rfl, sub_self, Int.toNat_zero, pow_zero, mul_one, f.beyond_magOf normal le, f.codeOf_magOf]
  simp [flagIf]

theorem roundTo_subnormal (neg : Bool) {c : Nat} (mode : Nat) (sat : Bool) (seed : Nat) (sub : c < 2 ^ f.mbits)
    (large : 2 ^ f.mbits ≤ f.maxCode) : roundTo f (.fin neg c (f.emin - f.mbits)) mode sat seed = (f.place neg c, 0#6) := by
  by_cases zero : c = 0
  · simp [roundTo, zero]
  obtain ⟨n, len, lo, hi⟩ := bitLen_bounds zero
  have short : n < f.mbits := (Nat.pow_lt_pow_iff_right (by norm_num)).1 (lo.trans_lt sub)
  have topExp : f.emin - f.mbits ≤ (f.magOf f.maxCode).2 := by
    have := Nat.div_pos large (by positivity)
    rw [f.magOf_normal large]; unfold FpFmt.emin; dsimp only; omega
  have lead : ((n + 1 : Nat) : Int) - 1 + (f.emin - f.mbits) = f.emin - (f.mbits - n : Nat) := by omega
  have scaled : c * 2 ^ (f.mbits - n) < 2 ^ (f.mbits + 1) := by
    calc c * 2 ^ (f.mbits - n) < 2 ^ (n + 1) * 2 ^ (f.mbits - n) := Nat.mul_lt_mul_of_pos_right hi (by positivity)
      _ = 2 ^ (f.mbits + 1) := by rw [← pow_add]; congr 1; omega
  have units : f.emin - f.mbits - (f.emin - (f.mbits - n : Nat) - f.mbits) = (f.mbits - n : Nat) := by omega
  have free : (roundUnits mode neg c (f.emin - f.mbits) (f.emin - (f.mbits - n : Nat) - f.mbits) seed).1 =
      c * 2 ^ (f.mbits - n) := by
    rw [roundUnits_exact (by omega), units, Int.toNat_natCast]
  have within := f.beyond_eq_false large scaled (u := f.emin - (f.mbits - n : Nat) - f.mbits) (.inl (by omega))
  have tiny : f.emin - ((f.mbits - n : Nat) : Int) < f.emin := by omega
  simp only [roundTo, zero, if_false, len, lead, free, within, tiny, if_true, roundUnits_exact le_rfl, sub_self,
    Int.toNat_zero, pow_zero, mul_one, f.codeOf_subnormal sub]
  simp [flagIf]

/-- A finite value of the format rounds to its own code with no flag, in every mode (R43). -/
theorem roundTo_magOf (neg : Bool) {c : Nat} (mode : Nat) (sat : Bool) (seed : Nat) (le : c ≤ f.maxCode)
    (large : 2 ^ f.mbits ≤ f.maxCode) :
    roundTo f (.fin neg (f.magOf c).1 (f.magOf c).2) mode sat seed = (f.place neg c, 0#6) := by
  rcases lt_or_ge c (2 ^ f.mbits) with sub | normal
  · rw [f.magOf_subnormal sub]
    exact roundTo_subnormal f neg mode sat seed sub large
  · exact roundTo_normal f neg mode sat seed normal le

/-! ## Codes (R74, R75) -/

/-- A code below the top exponent's first is that of the largest finite value at most. -/
theorem FpFmt.le_maxCode_of_ieee {mag : Nat} (ieee : f.top = .ieee) (h : mag < 2 ^ (f.ebits + f.mbits))
    (ne : mag / 2 ^ f.mbits ≠ 2 ^ f.ebits - 1) : mag ≤ f.maxCode := by
  have below : mag / 2 ^ f.mbits < 2 ^ f.ebits := Nat.div_lt_of_lt_mul (by rwa [← pow_add, add_comm])
  have := (Nat.div_lt_iff_lt_mul (by positivity)).1 (show mag / 2 ^ f.mbits < 2 ^ f.ebits - 1 by omega)
  simp only [FpFmt.maxCode, ieee]
  omega

/-- A code is its sign bit and its magnitude code. -/
theorem FpFmt.place_sign_magnitude {c : Nat} (hc : c < 2 ^ f.width) :
    f.place (decide (c / 2 ^ (f.ebits + f.mbits) = 1)) (c % 2 ^ (f.ebits + f.mbits)) = c * 2 ^ f.shift := by
  have sign : c / 2 ^ (f.ebits + f.mbits) < 2 :=
    Nat.div_lt_of_lt_mul (by rwa [← pow_succ, add_comm _ 1, ← add_assoc])
  have parts := Nat.div_add_mod c (2 ^ (f.ebits + f.mbits))
  unfold FpFmt.place
  congr 1
  by_cases one : c / 2 ^ (f.ebits + f.mbits) = 1
  · simp only [one, decide_true, if_true] at parts ⊢
    omega
  · have zero := Nat.lt_one_iff.1 (lt_of_le_of_ne (Nat.lt_succ_iff.1 sign) one)
    simp only [zero, zero_ne_one, decide_false, Bool.false_eq_true, if_false, mul_zero] at parts ⊢
    exact parts

/-- A code of a finite value is its sign and a magnitude code, which names its value (R75). -/
theorem FpFmt.decode_fin {c : Nat} {neg : Bool} {m : Nat} {e : Int} (hc : c < 2 ^ f.width)
    (h : f.decode (c * 2 ^ f.shift) = .fin neg m e) :
    ∃ mag, mag ≤ f.maxCode ∧ f.magOf mag = (m, e) ∧ f.place neg mag = c * 2 ^ f.shift := by
  have place := f.place_sign_magnitude hc
  have mag_lt : c % 2 ^ (f.ebits + f.mbits) < 2 ^ (f.ebits + f.mbits) := Nat.mod_lt _ (by positivity)
  unfold FpFmt.decode at h
  rw [Nat.mul_div_cancel _ (by positivity), Nat.mod_eq_of_lt hc] at h
  cases top : f.top with
  | ieee =>
    simp only [top] at h
    split at h
    · split at h <;> cases h
    · rename_i ne
      cases h
      exact ⟨_, f.le_maxCode_of_ieee top mag_lt ne, rfl, place⟩
  | oneNan =>
    simp only [top] at h
    split at h
    · cases h
    · cases h
      refine ⟨_, ?_, rfl, place⟩
      simp only [FpFmt.maxCode, top]
      omega
  | finite =>
    simp only [top] at h
    cases h
    refine ⟨_, ?_, rfl, place⟩
    simp only [FpFmt.maxCode, top]
    omega

end

/-- The plain formats (R74). -/
def plainFormats : List FpFmt := [fp64, fp32, f19, bf16, fp16, e4m3, e5m2, e3m2, e2m3, e2m1]

/-- The largest finite value of every plain format is normal. -/
theorem plainFormats_maxCode_normal : ∀ f ∈ plainFormats, 2 ^ f.mbits ≤ f.maxCode := by decide

/-- A code of a plain format that stands for a finite value is what its value rounds to (R43). -/
theorem roundTo_decode {f : FpFmt} (plain : f ∈ plainFormats) {c : Nat} {neg : Bool} {m : Nat} {e : Int} (mode : Nat)
    (sat : Bool) (seed : Nat) (hc : c < 2 ^ f.width) (h : f.decode (c * 2 ^ f.shift) = .fin neg m e) :
    roundTo f (.fin neg m e) mode sat seed = (c * 2 ^ f.shift, 0#6) := by
  obtain ⟨mag, le, val, place⟩ := f.decode_fin hc h
  have := roundTo_magOf f neg mode sat seed le (plainFormats_maxCode_normal f plain)
  rwa [val, place] at this

/-! ## The modes on coarser units (R43) -/

theorem roundUnits_coarse (mode : Nat) (neg : Bool) (m : Nat) (e : Int) {n : Nat} (seed : Nat) (hn : 0 < n) :
    roundUnits mode neg m e (e + n) seed =
      (if roundsUp mode neg (m / 2 ^ n) (m % 2 ^ n) n seed then m / 2 ^ n + 1 else m / 2 ^ n, m % 2 ^ n == 0) := by
  unfold roundUnits
  rw [if_neg (by omega), add_sub_cancel_left, Int.toNat_natCast]

/-! `roundsUp`, mode by mode. -/

theorem roundsUp_rne (neg : Bool) (t r k seed : Nat) :
    roundsUp 0 neg t r k seed = (decide (2 ^ k < 2 * r) || (decide (2 * r = 2 ^ k) && decide (t % 2 = 1))) := rfl

theorem roundsUp_rtz (neg : Bool) (t r k seed : Nat) : roundsUp 1 neg t r k seed = false := rfl

theorem roundsUp_rup (neg : Bool) (t r k seed : Nat) : roundsUp 2 neg t r k seed = (!neg && decide (r ≠ 0)) := rfl

theorem roundsUp_rdn (neg : Bool) (t r k seed : Nat) : roundsUp 3 neg t r k seed = (neg && decide (r ≠ 0)) := rfl

/-- Over a mode that is known to be RS: the kernel, comparing `roundsUp 4` with its value, would count to 2 ^ 32. -/
theorem roundsUp_rs {mode : Nat} (rs : mode = 4) (neg : Bool) (t r k seed : Nat) :
    roundsUp mode neg t r k seed = decide (2 ^ 32 ≤ r * 2 ^ 32 / 2 ^ k + seed) := by
  unfold roundsUp
  split
  case h_4 => rfl
  case h_5 ne => exact absurd rs ne
  all_goals contradiction

/-- A multiple of coarser units is not rounded up, in any mode. -/
theorem roundsUp_multiple (mode : Nat) (neg : Bool) (t seed : Nat) {k : Nat} (h : seed < 2 ^ 32) :
    roundsUp mode neg t 0 k seed = false := by
  have unit : 0 < 2 ^ k := by positivity
  unfold roundsUp
  split
  case h_1 => simp [unit.ne]
  case h_2 => simp
  case h_3 => simp
  case h_4 => simpa using h
  case h_5 => rfl

section
variable (mode : Nat) (neg : Bool) (m : Nat) (e : Int) {n : Nat} (seed : Nat) (hn : 0 < n)
include hn

theorem roundUnits_exact_iff : (roundUnits mode neg m e (e + n) seed).2 = true ↔ m % 2 ^ n = 0 := by
  simp [roundUnits_coarse mode neg m e seed hn]

theorem roundUnits_multiple (hs : seed < 2 ^ 32) (multiple : m % 2 ^ n = 0) :
    (roundUnits mode neg m e (e + n) seed).1 = m / 2 ^ n := by
  simp [roundUnits_coarse mode neg m e seed hn, multiple, roundsUp_multiple mode neg _ _ hs]

/-- RNE takes a nearest multiple, and at the middle the even one. -/
theorem roundUnits_rne :
    let q := (roundUnits 0 neg m e (e + n) seed).1
    (2 * q * 2 ^ n ≤ 2 * m + 2 ^ n ∧ 2 * m ≤ 2 * q * 2 ^ n + 2 ^ n) ∧ (2 * (m % 2 ^ n) = 2 ^ n → q % 2 = 0) := by
  have parts := Nat.div_add_mod' m (2 ^ n)
  have low : m % 2 ^ n < 2 ^ n := Nat.mod_lt _ (by positivity)
  simp only [roundUnits_coarse 0 neg m e seed hn, roundsUp_rne, Bool.or_eq_true, Bool.and_eq_true, decide_eq_true_eq]
  generalize m / 2 ^ n = t at *
  generalize m % 2 ^ n = r at *
  generalize 2 ^ n = unit at *
  split
  · have up : 2 * (t + 1) * unit = 2 * (t * unit) + 2 * unit := by ring
    rw [up]
    omega
  · rw [mul_assoc]
    omega

theorem roundUnits_rtz : (roundUnits 1 neg m e (e + n) seed).1 = m / 2 ^ n := by
  simp [roundUnits_coarse 1 neg m e seed hn, roundsUp_rtz]

theorem roundUnits_rup (part : m % 2 ^ n ≠ 0) :
    (roundUnits 2 neg m e (e + n) seed).1 = if neg then m / 2 ^ n else m / 2 ^ n + 1 := by
  cases neg <;> simp [roundUnits_coarse 2 _ m e seed hn, roundsUp_rup, part]

theorem roundUnits_rdn (part : m % 2 ^ n ≠ 0) :
    (roundUnits 3 neg m e (e + n) seed).1 = if neg then m / 2 ^ n + 1 else m / 2 ^ n := by
  cases neg <;> simp [roundUnits_coarse 3 _ m e seed hn, roundsUp_rdn, part]

theorem roundUnits_rs (rs : mode = 4) : (roundUnits mode neg m e (e + n) seed).1 =
    if 2 ^ 32 ≤ m % 2 ^ n * 2 ^ 32 / 2 ^ n + seed then m / 2 ^ n + 1 else m / 2 ^ n := by
  simp only [roundUnits_coarse mode neg m e seed hn, roundsUp_rs rs, decide_eq_true_eq]

end

/-! ## Exact sums and products (R140) -/

/-- The sum of two values in the same units. -/
theorem addFin_same (rdn n1 : Bool) (m1 : Nat) (n2 : Bool) (m2 : Nat) (e : Int) :
    addFin rdn n1 m1 e n2 m2 e =
      let x : Int := (if n1 then -(m1 : Int) else m1) + (if n2 then -(m2 : Int) else m2)
      if x = 0 then .fin (if n1 = n2 then n1 else rdn) 0 0 else .fin (decide (x < 0)) x.natAbs e := by
  simp [addFin]

theorem firstNan_head (n q : Bool) (x : Nat) (ys : List Num) :
    firstNan (.nan n q x :: ys) = some (Num.nan n q x).quieten := rfl

theorem firstNan_skip {a : Num} (number : a.isNan = false) (ys : List Num) : firstNan (a :: ys) = firstNan ys := by
  rw [firstNan, number]; rfl

theorem Num.isSnan_of_number {a : Num} (number : a.isNan = false) : a.isSnan = false := by
  cases a with
  | nan => cases number
  | inf => rfl
  | fin => rfl

theorem anySnan_pair (a b : Num) : anySnan [a, b] = flagIf (a.isSnan || b.isSnan) fIV := by
  simp [anySnan]

/-- The first NaN of two operands is their sum. -/
theorem addNum_of_nan (rdn : Bool) {a b x : Num} (h : firstNan [a, b] = some x) :
    addNum rdn a b = (x, flagIf (a.isSnan || b.isSnan) fIV) := by
  unfold addNum
  rw [h, anySnan_pair]

/-- The first NaN of two operands is their product. -/
theorem mulNum_of_nan {a b x : Num} (h : firstNan [a, b] = some x) :
    mulNum a b = (x, flagIf (a.isSnan || b.isSnan) fIV) := by
  unfold mulNum
  rw [h, anySnan_pair]

theorem firstNan_second {a : Num} (number : a.isNan = false) (n q : Bool) (x : Nat) :
    firstNan [a, .nan n q x] = some (Num.nan n q x).quieten := by
  rw [firstNan_skip number, firstNan_head]

theorem snan_second {a : Num} (number : a.isNan = false) (n q : Bool) (x : Nat) :
    (a.isSnan || (Num.nan n q x).isSnan) = !q := by
  rw [Num.isSnan_of_number number]; rfl

theorem addNum_inf_opposite (rdn n : Bool) : addNum rdn (.inf n) (.inf !n) = (defaultNan, fIV) := by
  cases n <;> rfl

theorem addNum_inf_same (rdn n : Bool) : addNum rdn (.inf n) (.inf n) = (.inf n, 0#6) := by
  cases n <;> rfl

/-- An invalid product beside a NaN raises IV and gives the NaN, made quiet. -/
theorem fmaNum_invalid_nan (rdn n1 n2 : Bool) (e : Int) (n q : Bool) (x : Nat) :
    fmaNum rdn (.inf n1) (.fin n2 0 e) (.nan n q x) = ((Num.nan n q x).quieten, fIV) := by
  have nan : firstNan [.inf n1, .fin n2 0 e, .nan n q x] = some (Num.nan n q x).quieten := rfl
  unfold fmaNum
  rw [nan]
  cases q <;> simp [anySnan, Num.isSnan, Num.isInf, Num.isZero, flagIf]

end Sys2Proof.Machine
end

section
/-! SUPPORT. The halves of a pair word (R35, R67): each op's value, and the writes of both halves lane by lane. -/

namespace Sys2Proof.Machine

/-! ## Integer halves (R127, R128) -/

theorem asInt_word (a : Word) : asInt true 32 (a.toNat % 2 ^ 32) = a.toInt := by
  have lt := a.isLt
  have read : ((a.toNat : Int) % 2 ^ 32) = a.toNat := Int.emod_eq_of_lt (by omega) (by omega)
  simp only [asInt, Nat.mod_eq_of_lt lt, read, BitVec.toInt_eq_toNat_cond, true_and]
  split <;> split <;> omega

/-- IMIN and IMAX of two words, which read as signed (R120, R127). -/
theorem minMax_word (max : Bool) (a b : Word) :
    minMax 0 max a b = if (if max then b.toInt ≤ a.toInt else a.toInt ≤ b.toInt) then a else b := by
  have elem (c : Word) : elemAt c.toNat 32 0 = c.toNat % 2 ^ 32 := by simp [elemAt]
  have word (c : Word) : BitVec.ofNat 32 (packElems 32 [c.toNat % 2 ^ 32]) = c :=
    BitVec.eq_of_toNat_eq (by simpa [packElems] using c.isLt)
  have width : typeWidth 0 = 32 := rfl
  have one : List.range (32 / 32) = [0] := rfl
  cases max <;>
    simp only [minMax, mapElems, width, one, List.map_cons, List.map_nil, elem, beq_self_eq_true, Bool.or_true, asInt_word,
      if_true, Bool.false_eq_true, if_false, decide_eq_true_eq] <;>
    split <;> exact word _

theorem shl32_eq (a n : Word) : shl32 a n = if n < 32#32 then a <<< n.toNat else 0#32 := by
  unfold shl32
  split
  · rfl
  · rename_i big
    exact BitVec.shiftLeft_eq_zero (by simpa [BitVec.lt_def] using big)

theorem shr32_eq (a n : Word) : shr32 a n = if n < 32#32 then a >>> n.toNat else 0#32 := by
  unfold shr32
  split
  · rfl
  · rename_i big
    exact BitVec.ushiftRight_eq_zero (by simpa [BitVec.lt_def] using big)

/-! ## Floating halves (R141, R142) -/

theorem FpFmt.decodeSrc_false (f : FpFmt) (u : Nat) : f.decodeSrc false u = f.decode u := by
  unfold FpFmt.decodeSrc
  cases f.decode u <;> rfl

theorem Num.quieten_of_number {a : Num} (number : a.isNan = false) : a.quieten = a := by
  cases a with
  | nan => cases number
  | inf => rfl
  | fin => rfl

/-- The operand that `pickNum` picks, made quiet, is the lesser or the greater one as R142 says. -/
theorem pickNum_lesserOf (max : Bool) (a b : Num) :
    (if (pickNum max a b).1 = 0 then a.quieten else b.quieten) = lesserOf max a b := by
  cases ha : a.isNan <;> cases hb : b.isNan
  · simp only [pickNum, lesserOf, ha, hb, Num.quieten_of_number]
    rcases cmpNum a b with - | (- | - | -) <;> cases max <;> cases a.neg? <;> simp
  · simp [pickNum, lesserOf, ha, hb, Num.quieten_of_number]
  · simp [pickNum, lesserOf, ha, hb, Num.quieten_of_number]
  · simp [pickNum, lesserOf, ha, hb]

theorem pickNum_flags (max : Bool) (a b : Num) : (pickNum max a b).2 = flagIf (a.isSnan || b.isSnan) fIV := by
  unfold pickNum
  rw [anySnan_pair]
  repeat' split
  all_goals rfl

/-- FMIN and FMAX on one pair of FP32 codes. -/
theorem pickElem_word (max : Bool) (a b : Word) : pickElem fp32 false max a.toNat b.toNat =
    ((roundTo fp32 (lesserOf max (decF32 a) (decF32 b)) 0 false 0).1, flagIf ((decF32 a).isSnan || (decF32 b).isSnan) fIV) := by
  simp only [pickElem, FpFmt.decodeSrc_false, decF32, pickNum_lesserOf, pickNum_flags]

/-- Each half's value is that of its op among the sixteen (R35). -/
theorem halfValue_eq (r : Rnd) (op : Nat) (d a b seed : Word) : halfValue r op d a b seed = halfResult r op d a b seed :=
  let picked (p : Nat × Flags) : Lane := (p.1, p.2, seed)
  let integer (v : Word) : Lane := (v.toNat, 0#6, seed)
  match op with
  | 3 => congrArg picked (pickElem_word false a b)
  | 4 => congrArg picked (pickElem_word true a b)
  | 8 => congrArg integer (minMax_word false a b)
  | 9 => congrArg integer (minMax_word true a b)
  | 13 => congrArg integer (shl32_eq a b)
  | 14 => congrArg integer (shr32_eq a b)
  | 0 | 1 | 2 | 5 | 6 | 7 | 10 | 11 | 12 | _ + 15 => rfl

/-! ## The writes of both halves -/

/-- The writes of a pair word: in each lane, x of half A in register a and y of half B in register b. -/
def pairWrites (a b : Nat) (x y : Nat → Word) (ls : List Nat) : List (Nat × Word) :=
  ls.flatMap fun l => [(vKey a l, x l), (vKey b l, y l)]

theorem pairWrites_keys (a b : Nat) (x y : Nat → Word) (ls : List Nat) :
    (pairWrites a b x y ls).map Prod.fst = ls.flatMap fun l => [vKey a l, vKey b l] := by
  simp [pairWrites, List.map_flatMap]

theorem mem_pairWrites {a b : Nat} {x y : Nat → Word} {ls : List Nat} {p : Nat × Word} :
    p ∈ pairWrites a b x y ls ↔ ∃ l ∈ ls, p = (vKey a l, x l) ∨ p = (vKey b l, y l) := by
  simp [pairWrites]

theorem pairWrites_regKey {a b : Nat} {x y : Nat → Word} {ls : List Nat} (ha : a < 128) (hb : b < 128)
    (hls : ∀ l ∈ ls, l < 32) : ∀ p ∈ pairWrites a b x y ls, RegKey p.1 := by
  intro p hp
  obtain ⟨l, hl, rfl | rfl⟩ := mem_pairWrites.1 hp
  · exact regKey_v a l (by omega) (hls l hl)
  · exact regKey_v b l (by omega) (hls l hl)

/-- Registers a and b differ, so each write of each lane stays. -/
theorem lastWrite_pairWrites {a b : Nat} {x y : Nat → Word} {ls : List Nat} (ne : a ≠ b) (hls : ∀ l ∈ ls, l < 32)
    {q : Nat × Word} (hq : q ∈ pairWrites a b x y ls) (old : Word) : lastWrite (pairWrites a b x y ls) q.1 old = q.2 := by
  refine lastWrite_mem _ _ _ _ (List.mem_map_of_mem hq) fun p hp key => ?_
  obtain ⟨l, hl, hq⟩ := mem_pairWrites.1 hq
  obtain ⟨j, hj, hp⟩ := mem_pairWrites.1 hp
  have lane {n m : Nat} (h : vKey n j = vKey m l) := vKey_inj (hls j hj) (hls l hl) h
  rcases hp with rfl | rfl <;> rcases hq with rfl | rfl <;> obtain ⟨reg, rfl⟩ := lane key
  · rfl
  · exact absurd reg ne
  · exact absurd reg.symm ne
  · rfl

/-! ## The common run of a pair word -/

/-- The flags of a list of lanes are those that some lane raises. -/
theorem orFlags_map_getLsbD (ls : List Nat) (g : Nat → Flags) (b : Nat) :
    (orFlags (ls.map g)).getLsbD b = true ↔ ∃ l ∈ ls, (g l).getLsbD b = true := by
  simp [orFlags_getLsbD]

/-- SEEDs, then register writes and flags, ending a word: the word is done. -/
theorem putSeeds_finish_done (s : State) (k : Ctl) (seeds : List (Nat × Word)) (ws : List (Nat × Word)) (fl : Flags)
    (hr : ∀ p ∈ ws, RegKey p.1) : WordDone s ((s.modMe fun w => w.putSeeds seeds).finish k ws fl) k := by
  constructor
  · rw [State.finish, State.modMe_modMe, State.modMe, State.me_setMe]
  · have h := (finish_done (s.modMe fun w => w.putSeeds seeds) k ws fl hr).warp
    rw [State.me_modMe] at h
    exact h

theorem finish_preds (s : State) (k : Ctl) (ws : List (Nat × Word)) (fl : Flags) (hr : ∀ p ∈ ws, RegKey p.1) :
    (s.finish k ws fl).me.preds = s.me.preds := by
  rw [finish_me, putMany_frame ws s.me hr]; rfl

theorem finish_seed (s : State) (k : Ctl) (ws : List (Nat × Word)) (fl : Flags) (hr : ∀ p ∈ ws, RegKey p.1) (l : Nat) :
    (s.finish k ws fl).me.seed l = s.me.seed l := by
  rw [finish_me, putMany_frame ws s.me hr]; rfl

/-- Half A's work in lane l: its result, its flags and the SEED that half B sees. -/
def pairA (s : State) (f : PairFields) (l : Nat) : Lane :=
  halfResult (rndOf s s.me) f.opA.toNat (s.me.getV f.dA.toNat l) (s.me.getV f.aA.toNat l) (s.me.getV f.bA.toNat l) (s.me.seed l)

/-- Half B's work in lane l, after half A has stepped SEED. -/
def pairB (s : State) (f : PairFields) (l : Nat) : Lane :=
  halfResult (rndOf s s.me) f.opB.toNat (s.me.getV f.dB.toNat l) (s.me.getV f.aB.toNat l) (s.me.getV f.bB.toNat l)
    (pairA s f l).2.2

/-- The state that a pair word leaves. -/
def State.pairDone (s : State) (k : Ctl) (f : PairFields) : State :=
  let ls := maskLanes (s.me.eff k)
  (s.modMe fun w => w.putSeeds (ls.map fun l => (l, (pairB s f l).2.2))).finish k
    (pairWrites f.dA.toNat f.dB.toNat (fun l => BitVec.ofNat 32 (pairA s f l).1) (fun l => BitVec.ofNat 32 (pairB s f l).1) ls)
    (orFlags (ls.map fun l => (pairA s f l).2.1 ||| (pairB s f l).2.1))

/-- A pair word that issues leaves `pairDone`. -/
theorem exec_pairWord {s : State} {k : Ctl} {f : PairFields} (h : Issues s k (.pairWord k f)) :
    exec (.pairWord k f) s = .next (s.pairDone k f) := by
  show execPairWord k f s = _
  unfold execPairWord
  rw [issue_next h]
  simp only [halfValue_eq, State.pairDone, pairWrites, pairA, pairB, dstLanes, List.map_map, List.flatMap_map,
    Function.comp_def]

theorem sig_fields_of_legal {i : Instr} (h : legal i = true) : (sig i).fields = true := by
  unfold legal at h
  split at h
  · cases h
  · simp only [Bool.and_eq_true] at h
    obtain ⟨⟨⟨⟨-, fields⟩, -⟩, -⟩, -⟩ := h
    exact fields

/-- The halves of a legal pair word write different registers (R67). -/
theorem pairWord_destinations_ne {k : Ctl} {f : PairFields} (h : legal (.pairWord k f) = true) : f.dA.toNat ≠ f.dB.toNat := by
  have fields : pairOk f = true := sig_fields_of_legal h
  intro same
  simp [pairOk, same] at fields

end Sys2Proof.Machine
end

section
/-! PROOFS. The statements about numbers, SEED and pair words (R35, R43, R44, R67, R140). -/

namespace Sys2Proof.Claims

open Sys2Proof.Machine

/-- Settles O19: `seedNext` is written as R44 states it. -/
theorem seedNext : Obligations.SeedNext := ⟨fun _ => rfl, by decide, by decide⟩

/-- Settles O20: a held value by the round trip of its code (`roundTo_decode`), the modes by what `roundsUp` answers of
each, and the exact results by the operands' classes. -/
theorem rounding : Obligations.Rounding := by
  refine ⟨fun f plain c neg m e mode sat seed hc h => roundTo_decode plain mode sat seed hc h, ?modes, ?exact⟩
  case modes =>
    intro mode neg m e n seed hn hs
    refine ⟨roundUnits_exact_iff mode neg m e seed hn, roundUnits_multiple mode neg m e seed hn hs, ?_, ?_, ?_, ?_,
      roundUnits_rs mode neg m e seed hn⟩
    · rintro rfl -
      exact roundUnits_rne neg m e seed hn
    · rintro rfl
      exact roundUnits_rtz neg m e seed hn
    · rintro rfl
      exact roundUnits_rup neg m e seed hn
    · rintro rfl
      exact roundUnits_rdn neg m e seed hn
  case exact =>
    refine ⟨fun rdn n1 m1 n2 m2 e => congrArg (·, 0#6) (addFin_same rdn n1 m1 n2 m2 e), fun n1 m1 e1 n2 m2 e2 => rfl,
      fun rdn n q x b => ⟨addNum_of_nan rdn (firstNan_head n q x [b]), mulNum_of_nan (firstNan_head n q x [b])⟩,
      fun rdn n q x a number => ?_, fun rdn n => ⟨addNum_inf_opposite rdn n, addNum_inf_same rdn n⟩,
      fun n1 n2 e => ⟨rfl, rfl⟩, fmaNum_invalid_nan⟩
    rw [addNum_of_nan rdn (firstNan_second number n q x), mulNum_of_nan (firstNan_second number n q x), snan_second number]
    exact ⟨rfl, rfl⟩

/-- Settles O27: both halves read the state before the word, and since they write different registers each lane keeps
both results. -/
theorem pairWords : Obligations.PairWords := by
  intro s k f issues
  have ne := pairWord_destinations_ne issues.fields
  have inside : ∀ l ∈ maskLanes (s.me.eff k), l < 32 := fun l hl => ((mem_maskLanes _ _).1 hl).1
  have hr := pairWrites_regKey (x := fun l => BitVec.ofNat 32 (pairA s f l).1) (y := fun l => BitVec.ofNat 32 (pairB s f l).1)
    f.dA.isLt f.dB.isLt inside
  refine ⟨s.pairDone k f, exec_pairWord issues, putSeeds_finish_done s k _ _ _ hr, ?preds, ?lanes, ?idle, ?others, ?flags⟩
  case preds =>
    rw [State.pairDone, finish_preds _ _ _ _ hr, State.me_modMe]; rfl
  case lanes =>
    intro l hl on
    have act := (mem_maskLanes _ _).2 ⟨hl, on⟩
    refine ⟨?_, ?_, ?_⟩
    · rw [State.pairDone, finish_seed _ _ _ _ hr, State.me_modMe, seed_putSeeds, if_pos act]; rfl
    · rw [State.pairDone, Warp.getV, finish_getKey _ _ _ _ hr]
      exact lastWrite_pairWrites ne inside (mem_pairWrites.2 ⟨l, act, .inl rfl⟩) _
    · rw [State.pairDone, Warp.getV, finish_getKey _ _ _ _ hr]
      exact lastWrite_pairWrites ne inside (mem_pairWrites.2 ⟨l, act, .inr rfl⟩) _
  case idle =>
    intro l hl off
    rw [State.pairDone, finish_seed _ _ _ _ hr, State.me_modMe, seed_putSeeds, if_neg]
    simp [mem_maskLanes, off]
  case others =>
    obtain ⟨regs, outs⟩ := finish_others (s.modMe fun w => w.putSeeds _) k _ _ hr
    rw [pairWrites_keys] at regs outs
    rw [State.me_modMe] at regs outs
    exact ⟨regs, outs⟩
  case flags =>
    intro b
    rw [State.pairDone, finish_flags _ _ _ _ hr, State.me_modMe, BitVec.getLsbD_or, Bool.or_eq_true, orFlags_map_getLsbD]
    simp only [mem_maskLanes, and_assoc]
    rfl

end Sys2Proof.Claims
end

section
/-! SUPPORT. The opcode map of R69, opcode by opcode: which format's fields it reads and the instruction that they go to,
and from that what the decoder answers. -/

namespace Sys2Proof

/-! ## The opcode map (R69) -/

/-- The opcodes that R69 leaves without an instruction: its dashes, and 0xE0 to 0xEF. -/
def unassignedOp (op : Nat) : Bool :=
  op = 0x0F ∨ op = 0x4F ∨ (0x59 ≤ op ∧ op ≤ 0x5F) ∨ (0x70 ≤ op ∧ op ≤ 0x7F) ∨ (0x8C ≤ op ∧ op ≤ 0x8F) ∨ op = 0x9F ∨
    (0xAD ≤ op ∧ op ≤ 0xAF) ∨ op = 0xB6 ∨ op = 0xB7 ∨ (0xC5 ≤ op ∧ op ≤ 0xC7) ∨ (0xCC ≤ op ∧ op ≤ 0xCF) ∨
    (0xDD ≤ op ∧ op ≤ 0xEF)

/-- The map answers at every opcode but the unassigned ones, whatever the rest of the word. -/
theorem instrOf_isNone (op : Fin 256) (k : Ctl) (w : Dword) : (instrOf op.val k w).isNone = unassignedOp op.val := by
  fin_cases op <;> rfl

/-- What the opcode map may answer at op: nothing, or the reading of one format's fields into instructions that have op as
their opcode. -/
inductive OpcodeArm (op : Nat) (k : Ctl) (w : Dword) : Option (Option Instr) → Prop
  | none : OpcodeArm op k w none
  | v (c : VFields → Instr) (h : ∀ f, (c f).view = some ⟨op, k, .v f⟩) : OpcodeArm op k w (some ((vOf w).map c))
  | k (c : KFields → Instr) (h : ∀ f, (c f).view = some ⟨op, k, .k f⟩) : OpcodeArm op k w (some ((kOf w).map c))
  | m (c : MFields → Instr) (h : ∀ f, (c f).view = some ⟨op, k, .m f⟩) : OpcodeArm op k w (some ((mOf w).map c))
  | c (c : CFields → Instr) (h : ∀ f, (c f).view = some ⟨op, k, .c f⟩) : OpcodeArm op k w (some ((cOf w).map c))
  | e (c : EFields → Instr) (h : ∀ f, (c f).view = some ⟨op, k, .e f⟩) : OpcodeArm op k w (some ((eOf w).map c))
  | x (c : XFields → Instr) (h : ∀ f, (c f).view = some ⟨op, k, .x f⟩) : OpcodeArm op k w (some ((xOf w).map c))
  | pair (h : op / 16 = 15) : OpcodeArm op k w (some ((pOf w).map (Instr.pairWord k)))

/-- At each opcode the answer is one of the arms: the map's format and constructor are those of the instruction's view. -/
theorem instrOf_arm (op : Fin 256) (k : Ctl) (w : Dword) : OpcodeArm op.val k w (instrOf op.val k w) := by
  fin_cases op <;> constructor <;> intros <;> rfl

/-! ## The words that the map reads -/

/-- An opcode is one byte. -/
theorem op_lt_of_view {i : Instr} {x : View} (h : i.view = some x) : x.op < 256 := by
  cases i <;> cases h
  case pairWord k f => have := f.opA.isLt; show 0xF0 + f.opA.toNat < 256; omega
  all_goals simp

/-- The bits of an opcode 0xF0 to 0xFF below its upper half are the first half's operation (R35). -/
theorem pair_op {w : Dword} (h : (field w 49 8).toNat / 16 = 15) : 0xF0 + (field w 49 4).toNat = (field w 49 8).toNat := by
  simp only [field, BitVec.extractLsb'_toNat] at h ⊢
  omega

/-- An instruction made of one format's fields as a word holds them: its view, and every bit of its body. -/
theorem view_of_read {α : Type} {read : Option α} {c : α → Instr} {b : α → Body} {op : Nat} {k : Ctl} {w : Dword}
    {i : Instr} (view : ∀ f, (c f).view = some ⟨op, k, b f⟩) (body : ∀ f, read = some f → encodeBody (b f) = field w 0 49)
    (h : some (read.map c) = some (some i)) : ∃ b, i.view = some ⟨op, k, b⟩ ∧ encodeBody b = field w 0 49 := by
  obtain ⟨f, hf, rfl⟩ := Option.map_eq_some_iff.1 (Option.some.inj h)
  exact ⟨b f, view f, body f hf⟩

/-- An instruction that the map reads from a word has the word's opcode, the given common fields, and in its format's
fields every bit of the body. -/
theorem view_of_instrOf {w : Dword} {k : Ctl} {i : Instr} (h : instrOf (field w 49 8).toNat k w = some (some i)) :
    ∃ b, i.view = some ⟨(field w 49 8).toNat, k, b⟩ ∧ encodeBody b = field w 0 49 := by
  have arm : OpcodeArm (field w 49 8).toNat k w (instrOf (field w 49 8).toNat k w) := instrOf_arm (field w 49 8).toFin k w
  generalize instrOf (field w 49 8).toNat k w = r at arm h
  cases arm with
  | none => cases h
  | v c view => exact view_of_read view (vOf_body w) h
  | k c view => exact view_of_read view (kOf_body w) h
  | m c view => exact view_of_read view (mOf_body w) h
  | c c view => exact view_of_read view (cOf_body w) h
  | e c view => exact view_of_read view (eOf_body w) h
  | x c view => exact view_of_read view (xOf_body w) h
  | pair high =>
    obtain ⟨f, read, rfl⟩ := Option.map_eq_some_iff.1 (Option.some.inj h)
    refine ⟨.p f, ?_, pOf_body w f read⟩
    cases read
    exact congrArg (fun op => some (View.mk op k (.p _))) (pair_op high)

/-! ## The decoder -/

/-- The decoder accepts what the opcode map reads where the common fields and the instruction's own pass. -/
theorem decode_eq_ok_iff (w : Dword) (i : Instr) : decode w = .ok i ↔
    instrOf (field w 49 8).toNat (ctlOf w) w = some (some i) ∧ Machine.ctlOk (ctlOf w) = true ∧ Machine.legal i = true := by
  unfold decode
  rcases instrOf (field w 49 8).toNat (ctlOf w) w with _ | _ | j
  · simp
  · cases Machine.ctlOk (ctlOf w) <;> simp
  · by_cases common : Machine.ctlOk (ctlOf w) = true
    · simp only [common, Bool.not_true, Bool.false_eq_true, if_false, Option.some.injEq, true_and]
      split
      next own => exact ⟨fun h => by cases h; exact ⟨rfl, own⟩, fun h => congrArg Except.ok h.1⟩
      next own => exact ⟨nofun, fun ⟨same, good⟩ => absurd (same ▸ good) own⟩
    · simp [common]

/-- A word is refused as unassigned just where the opcode map has nothing. -/
theorem decode_eq_unassigned_iff (w : Dword) : decode w = .error .unassigned ↔ unassignedOp (field w 49 8).toNat = true := by
  have map : (instrOf (field w 49 8).toNat (ctlOf w) w).isNone = unassignedOp (field w 49 8).toNat :=
    instrOf_isNone (field w 49 8).toFin (ctlOf w) w
  rw [← map]
  unfold decode
  rcases instrOf (field w 49 8).toNat (ctlOf w) w with _ | _ | j
  · simp
  · cases Machine.ctlOk (ctlOf w) <;> simp
  · cases Machine.ctlOk (ctlOf w)
    · simp
    · by_cases own : Machine.legal j = true <;> simp [own]

/-- A legal instruction is a word's, and its guard fields pass (R56). -/
theorem view_of_legal {i : Instr} (h : Machine.legal i = true) : ∃ x, i.view = some x ∧ Machine.ctlOk x.ctl = true := by
  unfold Machine.legal at h
  cases view : i.view with
  | none => simp [view] at h
  | some x =>
    simp only [view, Bool.and_eq_true] at h
    obtain ⟨⟨⟨⟨common, -⟩, -⟩, -⟩, -⟩ := h
    exact ⟨x, rfl, common⟩

theorem encode_of_view {i : Instr} {x : View} (h : i.view = some x) : encode i = encodeView x := by
  rw [encode, h]

/-- A header's bits read as an instruction's common fields have a predicate without a guard (R46, R56). -/
theorem ctlOk_of_header {w : Dword} (h : w >>> 60 = 0b1010#64) : Machine.ctlOk (ctlOf w) = false := by
  have bit (n : Nat) : w.getLsbD (60 + n) = (0b1010#64).getLsbD n := by rw [← h, BitVec.getLsbD_ushiftRight]
  have guard : (ctlOf w).g = false := bit 2
  have pred : (ctlOf w).gp ≠ 0#4 := fun zero => by
    have : (ctlOf w).gp.getLsbD 3 = w.getLsbD 61 := by simp [ctlOf, field]
    rw [zero, bit 1] at this
    simp at this
  simp [Machine.ctlOk, guard, pred]

end Sys2Proof

namespace Sys2Proof.Laws.Encoding

/-- The opcode map reads back every instruction: the lemma of each constructor, in their order. -/
theorem readsBack (i : Instr) : Statement i := by
  cases i
  exacts [
    nop _ _, bra _ _, brx _ _, call _ _, callx _ _, ret _ _, split _ _, join _ _, skipz _ _, exrd _ _, exwr _ _,
    plog _ _, pmov _ _, setfmt _ _, getfmt _ _, mov _ _, movk _ _, sel _ _, iadd _ _, isub _ _, imul _ _, imulh _ _,
    imad _ _, imin _ _, imax _ _, iabs _ _, ineg _ _, and _ _, or _ _, xor _ _, andn _ _, shl _ _, shr _ _, sar _ _,
    rot _ _, bfx _ _, bfi _ _, bperm _ _, popc _ _, clz _ _, brev _ _, icmp _ _, isat _ _, iadd64 _ _, imad64 _ _,
    lea _ _, icvt _ _, fadd _ _, fsub _ _, fmul _ _, ffma _ _, fmin _ _, fmax _ _, fcmp _ _, fclass _ _, frnd _ _,
    fcvt _ _, f2i _ _, i2f _ _, dadd _ _, dmul _ _, dfma _ _, dcmp _ _, rcp _ _, rsq _ _, sqrt _ _, exp2 _ _, log2 _ _,
    exp _ _, log _ _, sin _ _, cos _ _, tanh _ _, sigm _ _, pack _ _, unpk _ _, fstat _ _, seedr _ _, vote _ _,
    shfl _ _, bcast _ _, lred _ _, lscan _ _, matchv _ _, rbal _ _, rwalk _ _, segred _ _, ld _ _, st _ _, ldu _ _,
    ldl _ _, stl _ _, pref _ _, preft _ _, lock _ _, unlock _ _, winset _ _, winclr _ _, cwb _ _, cinv _ _, gbind _ _,
    ginv _ _, qclass _ _, fence _ _, atom _ _, cas _ _, cas128 _ _, red _ _, mon _ _, mwait _ _, watch _ _, bar _ _,
    bara _ _, barw _ _, slop _ _, cpy _ _, cpyb _ _, gath _ _, scat _ _, mcast _ _, falloc _ _, ffree _ _, fwait _ _,
    fstate _ _, spop _ _, spush _ _, bxpect _ _, rxpect _ _, cfence _ _, yield _ _, mma _ _, mmas _ _, mmasp _ _,
    aclr _ _, ard _ _, awr _ _, acvt _ _, comp48 _ _, cbld _ _, xvset _ _, sclb _ _, mbat _ _, bwait _ _, fact _ _,
    trsl _ _, pivrd _ _, patch _ _, stamp _ _, hshift _ _, pnext _ _, ppost _ _, pend _ _, resid _ _, rprop _ _,
    vpub _ _, vread _ _, admitReq _ _, dline _ _, mbrd _ _, mbwr _ _, wfetch _ _, genrd _ _, send _ _, recv _ _,
    xchg _ _, throt _ _, trap _ _, tret _ _, svc _ _, srr _ _, srw _ _, preempt _ _, ctxsv _ _, ctxld _ _, tlbinv _ _,
    bias _ _, mapg _ _, freeze _ _, thaw _ _, pairWord _ _, clauseIssue _ _ _, registerWriteComplete _ _ _ _,
    storePerform _ _ _, homeRequest _ _, drainRequest _, drainComplete _, flushMarker _, watchWake _ _,
    lookoutPoll _ _, probeComplete _ _, skidderLanding _ _ _ _, multicastRegister _ _, matrixAccept _ _,
    engineWordStart _, accumulatorWrite _, scrubDone _ _, teamPop _ _ _, post _, withdraw _, deadlineExpiry _ _,
    notify _ _ _ _, mailboxInWrite _ _ _ _ _, oack _ _ _, ovrclr _ _ _, swpost _ _, wfetchLanding _ _, flitRoute _,
    flitEject _, bridgeCross _, onausPacket _ _, onausLinkLoss _, linkRetrain _, peerRequest _ _ _ _ _ _,
    hostBar2Access _ _ _ _ _, cxlMemAccess _ _ _ _, atomicopCompleter _ _ _ _ _ _, completerAbort _ _,
    atomicopCompletion _ _ _ _ _, establish _ _, eventClear _, registerWrite _ _ _, faultrecRemove _,
    waymaskWrite _ _, teamQuiesced _ _, boot _, d3coldExit _, clkstepDown _, clkstepUp _, thermalStop _,
    pldmMonitor _ _ _, pldmFirmwareUpdate _, mctpAttest _, correctedError _, uncorrectableError _, thermalStopNear _,
    cmdWriteIgnored _, powerLimitSet _, mailboxUnitReadComplete _ _, engineWritesLanded _ _, cxlCacheSnoop _ _ _,
    teardown, lockrid, unlockrid, attest, ctxstate, fabric, commandDone]

end Sys2Proof.Laws.Encoding
end

section
/-! SUPPORT. The checks of R71 in their order: what the common run of a word answers where one is the first to fail. -/

namespace Sys2Proof.Machine

/-- The fields and operands of the word pass, by its bits, the warp's allocation and FMT, and the team's tables. -/
def FieldsPass (s : State) (i : Instr) : Prop :=
  legal i = true ∧ allocOk s.me (sig i) = true ∧ dynLegal s.me i = true ∧ tableLegal (s.team s.me.teamKey) i = true

/-- The clause has the word's class bit, and the word stands last where it must. -/
def ClausePasses (s : State) (i : Instr) (x : Sys2Proof.View) : Prop :=
  (∀ b, classBit x.op = some b → s.me.cmask.getLsbD b = true) ∧ (mustBeLast i = true → s.me.left = 1)

variable {s : State} {k : Ctl} {i : Instr} {x : Sys2Proof.View}

theorem fieldsPass_iff :
    FieldsPass s i ↔ (legal i && allocOk s.me (sig i) && dynLegal s.me i && tableLegal (s.team s.me.teamKey) i) = true := by
  simp only [FieldsPass, Bool.and_eq_true, and_assoc]

theorem clausePasses_iff (view : i.view = some x) :
    ClausePasses s i x ↔ (classMissing s.me i || (mustBeLast i && s.me.left != 1)) = false := by
  rw [ClausePasses, Bool.or_eq_false_iff, classMissing_eq_false s.me i x view]
  simp

theorem gate_illegal (fields : ¬FieldsPass s i) : gate s k i = .trap (illegal s.me k i) := by
  rw [fieldsPass_iff, Bool.not_eq_true] at fields
  simp only [gate, fields, Bool.not_false, if_true]

section
variable (view : i.view = some x) (fields : FieldsPass s i)
include view fields

theorem gate_clause (clause : ¬ClausePasses s i x) : gate s k i = .trap { kind := 2, mask := s.me.eff k } := by
  rw [clausePasses_iff view, Bool.not_eq_false] at clause
  simp [gate, fieldsPass_iff.1 fields, clause]

variable (clause : ClausePasses s i x)
include clause

theorem gate_privilege (lacks : lacksPrivilege s s.me i = true) :
    gate s k i = .trap { kind := 4, mask := s.me.eff k } := by
  simp [gate, fieldsPass_iff.1 fields, (clausePasses_iff view).1 clause, lacks]

variable (privilege : lacksPrivilege s s.me i = false)
include privilege

theorem gate_disagreement (disagree : partialMask s.me k i = true) :
    gate s k i = .trap { kind := 3, mask := s.me.eff k, info := s.me.eff k } := by
  simp [gate, fieldsPass_iff.1 fields, (clausePasses_iff view).1 clause, privilege, disagree]

variable (agree : partialMask s.me k i = false)
include agree

theorem gate_wait (waits : mustWait s.me k i = true) : gate s k i = .wait := by
  simp [gate, fieldsPass_iff.1 fields, (clausePasses_iff view).1 clause, privilege, agree, waits]

theorem gate_hazard (ready : mustWait s.me k i = false) (strict : ctxStrict (s.ctx s.me.ctx) = true) {c : Nat}
    (meets : hazard s s.me k i = some c) :
    gate s k i = .trap { kind := 5, mask := s.me.eff k, info := BitVec.ofNat 32 c } := by
  simp [gate, fieldsPass_iff.1 fields, (clausePasses_iff view).1 clause, privilege, agree, ready, strict, meets]

end

/-! ## The run that the gate stops -/

theorem exec_of_gate_trap {t : Trp} (view : i.view = some x) (stopped : gate s x.ctl i = .trap t) :
    exec i s = .next (s.takeTrap t) := by
  obtain ⟨body, run⟩ := exec_word i s x view
  rw [run, issue, stopped]

theorem exec_of_gate_wait (view : i.view = some x) (stopped : gate s x.ctl i = .wait) : exec i s = .next s := by
  obtain ⟨body, run⟩ := exec_word i s x view
  rw [run, issue, stopped]

end Sys2Proof.Machine
end

section
/-! SUPPORT. The step that runs a word: the turn, the fetch and what the fetched word decodes to (R47, R71). -/

namespace Sys2Proof.Machine

/-- On a module that is not stopped, a scheduler's turn runs its word, and then everything settles. -/
theorem step_of_word {s : State} {core sched : Nat} (on : s.mgmt.stopped = false) (turn : s.nextTurn = .word core sched) :
    step s = settleOutcome (s.beginStep.runWord core sched) := by
  simp only [step, on, turn, State.runTurn, Bool.false_and, Bool.false_eq_true, if_false]

section
variable {u : State} {w : Dword} (aligned : u.me.pc.toNat % 8 = 0) (read : u.codeFetch u.me u.me.pc = .ok w)
include aligned read

/-- An aligned program counter whose word reads fetches that word. -/
theorem fetchAt_pc : u.fetchAt u.cur u.me.pc = .ok w := by
  have read' : State.codeFetch { u with cur := u.cur } (State.me { u with cur := u.cur }) u.me.pc = .ok w := read
  simp only [State.fetchAt, aligned, ne_eq, not_true_eq_false, if_false, read']

theorem fetchInstr_of_decode {i : Instr} (decodes : decode w = .ok i) : u.fetchInstr = .ok i := by
  simp only [State.fetchInstr, fetchAt_pc aligned read, decodes]

theorem fetchInstr_of_reject {r : Reject} (refused : decode w = .error r) :
    u.fetchInstr = .error { kind := 1, mask := u.me.eff (ctlOf w), info := w.setWidth 32 } := by
  simp only [State.fetchInstr, fetchAt_pc aligned read, refused]

end

section
variable {s : State} {core sched k : Nat} (runs : s.runner core sched = some k)
include runs

theorem runWord_of_fetch {i : Instr} (fetched : (s.asIssuer k).fetchInstr = .ok i) :
    s.runWord core sched = exec i (s.asIssuer k) := by
  simp only [State.runWord, runs, fetched]

theorem runWord_of_trap {t : Trp} (trapped : (s.asIssuer k).fetchInstr = .error t) :
    s.runWord core sched = .next ((s.asIssuer k).takeTrap t) := by
  simp only [State.runWord, runs, trapped]

end

end Sys2Proof.Machine
end

section
/-! PROOFS. The statements about words: their encodings (R46 to R72), the checks of their issue (R71) and the step that runs
one. -/

namespace Sys2Proof.Claims

open Sys2Proof.Machine

/-- Settles O2: the encoder puts opcode, common fields and body where the decoder reads them, and the opcode map reads each
constructor's fields back (`readsBack`). -/
theorem decodeEncode : Obligations.DecodeEncode := by
  intro i wf
  obtain ⟨x, view, common⟩ := view_of_legal wf
  have op : (field (encodeView x) 49 8).toNat = x.op := by
    rw [op_encode, BitVec.toNat_ofNat]
    exact Nat.mod_eq_of_lt (op_lt_of_view view)
  rw [encode_of_view view, decode_eq_ok_iff, op, ctlOf_encode]
  exact ⟨Laws.Encoding.readsBack i x view, common, wf⟩

/-- Settles O3: the instruction's view holds the word's opcode, its common fields and the bits of its body
(`view_of_instrOf`), which together are the whole word. -/
theorem encodeDecode : Obligations.EncodeDecode := by
  intro w i decodes
  obtain ⟨read, -, wf⟩ := (decode_eq_ok_iff w i).1 decodes
  obtain ⟨b, view, body⟩ := view_of_instrOf read
  refine ⟨wf, ?_⟩
  rw [encode_of_view view]
  exact encodeView_of w _ b ((BitVec.ofNat_toNat 8 _).trans (BitVec.setWidth_eq _)) body

/-- Settles O8: each check that is the first to fail decides the gate, and the gate's answer is the word's. -/
theorem issueChecksInOrder : Obligations.IssueChecksInOrder := by
  intro s i x view
  refine ⟨fun fields => exec_of_gate_trap view (gate_illegal fields),
    fun fields clause => exec_of_gate_trap view (gate_clause view fields clause),
    fun fields clause lacks => exec_of_gate_trap view (gate_privilege view fields clause (eq_true_of_ne_false lacks)),
    fun fields clause privilege disagree => exec_of_gate_trap view (gate_disagreement view fields clause privilege disagree),
    fun fields clause privilege agree waits => exec_of_gate_wait view (gate_wait view fields clause privilege agree waits),
    fun fields clause privilege agree ready strict c meets =>
      exec_of_gate_trap view (gate_hazard view fields clause privilege agree ready strict meets)⟩

/-- Settles O4: the opcode map is empty at the unassigned opcodes alone, and the bits of a header read as common fields that
R56 refuses. -/
theorem refusedWords : Obligations.RefusedWords := by
  refine ⟨fun w => ?_, fun w header => ?_⟩
  · have op : (w >>> 49).toNat % 256 = (field w 49 8).toNat := by
      rw [field, BitVec.extractLsb'_toNat, BitVec.toNat_ushiftRight]
    rw [decode_eq_unassigned_iff, op, unassignedOp, decide_eq_true_iff]
  · cases decoded : decode w with
    | error r => exact ⟨r, rfl⟩
    | ok i =>
      obtain ⟨-, common, -⟩ := (decode_eq_ok_iff w i).1 decoded
      simp [ctlOk_of_header header] at common

/-- Settles O5: the turn is the scheduler's, its warp fetches the word, and decoding decides between the instruction and the
trap. -/
theorem stepRunsWord : Obligations.StepRunsWord := by
  intro s core sched k w on turn runs u aligned read
  have runs' : s.beginStep.runner core sched = some k := runs
  rw [step_of_word on turn]
  exact ⟨fun i decodes => congrArg settleOutcome (runWord_of_fetch runs' (fetchInstr_of_decode aligned read decodes)),
    fun r refused => congrArg settleOutcome (runWord_of_trap runs' (fetchInstr_of_reject aligned read refused))⟩

end Sys2Proof.Claims
end

section
/-! SUPPORT. The operand positions of a legal word, and the words whose results raise no flag: 32-bit values, compares, and
writes of several predicates (R57, R58, R116, R117, R132). -/

namespace Sys2Proof.Machine

variable {s : State} {k : Ctl}

/-! ## Operand positions of a legal word (R57, R58) -/

/-- What stands in each operand position of a legal word may stand there. -/
theorem slot_ok_of_legal {i : Instr} (h : legal i = true) : ∀ p ∈ (sig i).slots, p.1.ok p.2 = true := by
  unfold legal at h
  split at h
  · cases h
  · simp only [Bool.and_eq_true] at h
    obtain ⟨⟨⟨⟨-, -⟩, slots⟩, -⟩, -⟩ := h
    exact List.all_eq_true.1 slots

/-- The position of a predicate that is written names one of the sixteen (R106). -/
theorem pred_of_ok {o : Operand} (h : Slot.predWr.ok o = true) : regNum o < 16 := by
  cases o with
  | v n => simpa [Slot.ok, Slot.predWr, regNum] using h
  | sp x => cases x <;> simp [Slot.ok, Slot.predWr] at h
  | s | imm | fp | none => simp [Slot.ok, Slot.predWr] at h

/-- The position of a pair that is written in s-registers names both (R2). -/
theorem sPair_of_ok {o : Operand} (h : (Slot.sdst 2).ok o = true) : regNum o + 1 < 128 := by
  cases o with
  | s n =>
    simp only [Slot.ok, Slot.sdst, Bool.and_eq_true] at h
    exact of_decide_eq_true h.2
  | sp x => cases x <;> simp [Slot.ok, Slot.sdst] at h
  | v | imm | fp | none => simp [Slot.ok, Slot.sdst] at h

/-- The variant fields of a legal word in format V hold listed values (R61). -/
theorem vsig_fields {f : VFields} {ty minor mod : List Nat} {slots : List Slot} {more uniform : Bool}
    (h : (vsig f ty minor mod slots more uniform).fields = true) :
    f.ty.toNat ∈ ty ∧ f.minor.toNat ∈ minor ∧ f.mod.toNat ∈ mod := by
  simp only [vsig, Bool.and_eq_true, List.contains_iff_mem] at h
  obtain ⟨⟨⟨types, minors⟩, mods⟩, -⟩ := h
  exact ⟨types, minors, mods⟩

/-! ## Results without flags -/

theorem flagsOver_zero (w : Warp) (k : Ctl) : flagsOver w k (fun _ => 0#6) = 0#6 := by
  unfold flagsOver
  induction dstLanes w k with
  | nil => rfl
  | cons l ls ih => rw [List.map_cons, orFlags, ih]; rfl

/-- A 32-bit result that raises no flag. -/
theorem value32_wrote_plain (s : State) (k : Ctl) (d : Operand) (g : Nat → Word) :
    Wrote32 s (s.value32 k d fun l => (g l, 0#6)) k d 0#6 g := by
  have h := value32_wrote s k d fun l => (g l, 0#6)
  rwa [flagsOver_zero] at h

/-! ## Compares (R132) -/

theorem asInt_signed {n : Nat} (x : BitVec n) : asInt true n x.toNat = x.toInt := by
  have read : (x.toNat : Int) % 2 ^ n = x.toNat := by exact_mod_cast Nat.mod_eq_of_lt x.isLt
  rw [asInt, BitVec.toInt_eq_msb_cond, BitVec.msb_eq_decide, Nat.mod_eq_of_lt x.isLt, read]
  simp

theorem asInt_unsigned {n : Nat} (x : BitVec n) : asInt false n x.toNat = x.toNat := by
  have read : (x.toNat : Int) % 2 ^ n = x.toNat := by exact_mod_cast Nat.mod_eq_of_lt x.isLt
  rw [asInt, read]
  simp

/-- A compare writes its predicate: set, .and or .or. -/
theorem compare_wrote (s : State) (k : Ctl) {d : Operand} (hd : regNum d < 16) (mod : Nat) (fl : Nat → Flags)
    (c : Nat → Bool) : WrotePred s (s.compare k d mod fl c) k (regNum d) (flagsOver s.me k fl) fun l =>
      if mod = 0 then c l else if mod = 1 then s.me.pred (regNum d) l && c l else s.me.pred (regNum d) l || c l :=
  match mod with
  | 0 | 1 | _ + 2 => writesPred_wrote s k (regNum d) hd _ _

/-! ## Writes of several predicates (R117) -/

theorem putMany_append (xs ys : List (Nat × Word)) (w : Warp) : w.putMany (xs ++ ys) = (w.putMany xs).putMany ys := by
  induction xs generalizing w with
  | nil => rfl
  | cons x xs ih => exact ih _

theorem writesPred_predKey (w : Warp) (k : Ctl) {n : Nat} (hn : n < 16) (g : Nat → Bool) :
    ∀ p ∈ writesPred w k n g, PredKey p.1 := by
  intro p hp
  simp only [writesPred, dstLanes, List.mem_map] at hp
  obtain ⟨l, hl, rfl⟩ := hp
  exact predKey_range hn ((mem_maskLanes _ _).1 hl).1

/-- The writes of predicate n from g n, for each n of a list, in the lanes of effective. -/
def writesPreds (w : Warp) (k : Ctl) (ns : List Nat) (g : Nat → Nat → Bool) : List (Nat × Word) :=
  ns.flatMap fun n => writesPred w k n (g n)

theorem writesPreds_predKey (w : Warp) (k : Ctl) {ns : List Nat} (hns : ∀ n ∈ ns, n < 16) (g : Nat → Nat → Bool) :
    ∀ p ∈ writesPreds w k ns g, PredKey p.1 := by
  intro p hp
  obtain ⟨n, hn, hp⟩ := List.mem_flatMap.1 hp
  exact writesPred_predKey w k (hns n hn) (g n) p hp

/-- Each predicate of the list takes its value in the lanes of effective, and no other changes. -/
theorem pred_putMany_writesPreds (w u : Warp) (k : Ctl) {ns : List Nat} (hns : ∀ n ∈ ns, n < 16) (g : Nat → Nat → Bool)
    (m j : Nat) (hm : m < 16) : (u.putMany (writesPreds w k ns g)).pred m j =
      if m ∈ ns ∧ j ∈ maskLanes (w.eff k) then g m j else u.pred m j := by
  induction ns generalizing u with
  | nil => simp [writesPreds, Warp.putMany]
  | cons n ns ih =>
    have first := pred_putMany (maskLanes (w.eff k)) u n (hns n (by simp)) (fun l hl => ((mem_maskLanes _ _).1 hl).1) (g n) m j hm
    have rest := ih (u.putMany (writesPred w k n (g n))) fun n hn => hns n (by simp [hn])
    rw [writesPreds, List.flatMap_cons, putMany_append]
    refine rest.trans ?_
    rw [writesPred, dstLanes, first]
    by_cases same : m = n
    · subst same; by_cases lane : j ∈ maskLanes (w.eff k) <;> simp [lane]
    · simp [same]

section
variable {ws : List (Nat × Word)} (fl : Flags) (predKeys : ∀ p ∈ ws, PredKey p.1)
include predKeys

/-- A word that writes predicates is done. -/
theorem finish_predDone (s : State) (k : Ctl) : WordDone s (s.finish k ws fl) k := by
  constructor
  · rw [finish_me]; rfl
  · rw [finish_me, putMany_predFrame ws s.me predKeys]; rfl

theorem finish_predGetKey (s : State) (k : Ctl) (key : Nat) : (s.finish k ws fl).me.getKey key = s.me.getKey key := by
  rw [finish_me, putMany_predFrame ws s.me predKeys]; rfl

theorem finish_predFlags (s : State) (k : Ctl) : (s.finish k ws fl).me.fpstat = s.me.fpstat ||| fl := by
  rw [finish_me, putMany_predFrame ws s.me predKeys]; rfl

end

/-- What a word that writes several predicates leaves of each. -/
theorem finish_writesPreds_pred (s : State) (k : Ctl) {ns : List Nat} (hns : ∀ n ∈ ns, n < 16) (g : Nat → Nat → Bool)
    (fl : Flags) {m j : Nat} (hm : m < 16) : (s.finish k (writesPreds s.me k ns g) fl).me.pred m j =
      if m ∈ ns ∧ j ∈ maskLanes (s.me.eff k) then g m j else s.me.pred m j := by
  rw [finish_me]
  exact pred_putMany_writesPreds s.me s.me k hns g m j hm

end Sys2Proof.Machine
end

section
/-! SUPPORT. Transfers of control and divergence (R64, R65, R108 to R112): the checks of a target, the warp that has jumped or
gone on, and the writing of a link pair. -/

namespace Sys2Proof.Machine

variable {s : State} {k : Ctl}

/-! ## Targets (R65) -/

theorem relTarget_eq (pc : Dword) (off : Word) : relTarget pc off = pc + 8#64 * off.signExtend 64 := by
  rw [relTarget, BitVec.shiftLeft_eq_mul_twoPow, BitVec.mul_comm]; rfl

/-- Where privilege passes, a target's word is read as any code (R369). -/
theorem codeWord_of_privilege {va : Dword} (allowed : s.me.priv = true ∨ va.getLsbD 56 = false) :
    s.codeWord s.me va = s.codeFetch s.me va := by
  rcases allowed with h | h <;> simp only [State.codeWord, h] <;> simp

section
variable {va : Dword} (m : Mask)

theorem targetTrap_headerAt (header : HeaderAt s va) : targetTrap s m va = none := by
  obtain ⟨aligned, x, read, isHead⟩ := header
  simp [targetTrap, aligned, read, isHead]

theorem targetTrap_misaligned (odd : va.toNat % 8 ≠ 0) : targetTrap s m va = some { kind := 6, mask := m, addr := va } := by
  simp [targetTrap, odd]

variable (aligned : va.toNat % 8 = 0)
include aligned

theorem targetTrap_privileged (user : s.me.priv = false) (upper : va.getLsbD 56 = true) :
    targetTrap s m va = some { kind := 4, mask := m, addr := va } := by
  simp only [targetTrap, aligned, State.codeWord, user, upper]; rfl

variable (allowed : s.me.priv = true ∨ va.getLsbD 56 = false)
include allowed

theorem targetTrap_unmapped {c : Nat} (page : s.translate (keyCore s.cur) s.me.ctx va needX = .error c) :
    targetTrap s m va = some { kind := 7, cause := c, mask := m, addr := va } := by
  simp [targetTrap, aligned, codeWord_of_privilege allowed, State.codeFetch, page]

theorem targetTrap_noHeader {p : Phys} (page : s.translate (keyCore s.cur) s.me.ctx va needX = .ok p)
    (other : isHeader (s.dwordAt p.key) = false) : targetTrap s m va = some { kind := 2, mask := m } := by
  simp [targetTrap, aligned, codeWord_of_privilege allowed, State.codeFetch, page, other]

end

/-! ## What an update of the warp leaves -/

theorem sameRegs_modMe {g : Warp → Warp} (regs : (g s.me).regs = s.me.regs) (bank : (g s.me).bank = s.me.bank)
    (preds : (g s.me).preds = s.me.preds) (outs : (g s.me).outs = s.me.outs) : SameRegs s (s.modMe g) := by
  rw [SameRegs, State.me_modMe]
  exact ⟨fun key => by simp only [Warp.getKey, regs, bank], preds, outs⟩

theorem sameDivergence_modMe {g : Warp → Warp} (exec : (g s.me).exec = s.me.exec) (stack : (g s.me).stack = s.me.stack)
    (fmt : (g s.me).fmt = s.me.fmt) (epoch : (g s.me).epoch = s.me.epoch) : SameDivergence s (s.modMe g) := by
  rw [SameDivergence, State.me_modMe]
  exact ⟨exec, stack, fmt, epoch⟩

/-- A warp that jumps after an update of registers, stack, EXEC and FMT. -/
theorem jumped_modMe {upd : Warp → Warp} {va : Dword} (frame : upd s.me = { s.me with
      regs := (upd s.me).regs, bank := (upd s.me).bank, outs := (upd s.me).outs, stack := (upd s.me).stack
      exec := (upd s.me).exec, fmt := (upd s.me).fmt }) :
    Jumped s (s.modMe fun w => (upd w).jump k.sw va) k va := by
  constructor
  · rw [State.me_modMe]; rfl
  · rw [State.me_modMe]
    exact congrArg (Warp.jump · k.sw va) frame

/-- A warp that goes on at the next word after an update of stack, EXEC, FMT and the epoch. -/
theorem fellThrough_modMe {upd : Warp → Warp} (frame : upd s.me = { s.me with
      stack := (upd s.me).stack, exec := (upd s.me).exec, fmt := (upd s.me).fmt, epoch := (upd s.me).epoch }) :
    FellThrough s (s.modMe fun w => (upd w).fallThrough k.sw) k := by
  constructor
  · rw [State.me_modMe]; rfl
  · rw [State.me_modMe]
    exact congrArg (Warp.fallThrough · k.sw) frame

/-! ## The transfer words (R108, R109) -/

/-- The transfer words that a guard judges, each with its target and what else it writes. -/
inductive TransferWord (s : State) (k : Ctl) (f : CFields) : Instr → Dword → (Warp → Warp) → Prop
  | bra : TransferWord s k f (.bra k f) (s.me.pc + 8#64 * f.target.signExtend 64) id
  | brx : TransferWord s k f (.brx k f) (rd64 s s.me f.src 0) id
  | ret : TransferWord s k f (.ret k f) (rd64 s s.me f.src 0) id
  | call : TransferWord s k f (.call k f) (s.me.pc + 8#64 * f.target.signExtend 64)
      fun w => w.putSPair (regNum f.src) (w.pc + 8#64)
  | callx : TransferWord s k f (.callx k f) (rd64 s s.me f.src 0) fun w => w.putSPair f.func.toNat (w.pc + 8#64)

section
variable {f : CFields} {i : Instr} {va : Dword} {upd : Warp → Warp}

/-- A transfer word is judged by its guard, and taken goes to its target. -/
theorem TransferWord.exec_eq (word : TransferWord s k f i va upd) (issues : Issues s k i) :
    exec i s = .next (if s.me.acts k then s.transfer k va upd else s.modMe fun w => w.fallThrough k.sw) := by
  cases word with
  | bra | call => rw [← relTarget_eq, exec]; exact issue_next issues _
  | brx | ret | callx => rw [exec]; exact issue_next issues _

theorem TransferWord.exec_passed (word : TransferWord s k f i va upd) (issues : Issues s k i) (idle : s.me.acts k = false) :
    exec i s = .next (s.modMe fun w => w.fallThrough k.sw) := by
  rw [word.exec_eq issues, idle]; rfl

theorem transfer_of_headerAt (header : HeaderAt s va) : s.transfer k va upd = s.modMe fun w => (upd w).jump k.sw va := by
  simp only [State.transfer, targetTrap_headerAt _ header]

theorem TransferWord.exec_taken (word : TransferWord s k f i va upd) (issues : Issues s k i) (acts : s.me.acts k = true)
    (header : HeaderAt s va) : exec i s = .next (s.modMe fun w => (upd w).jump k.sw va) := by
  rw [word.exec_eq issues, acts, if_pos rfl, transfer_of_headerAt header]

theorem TransferWord.exec_trapped (word : TransferWord s k f i va upd) (issues : Issues s k i) (acts : s.me.acts k = true)
    {x : Trp} (trap : targetTrap s (s.me.eff k) va = some x) : exec i s = .next (s.takeTrap x) := by
  rw [word.exec_eq issues, acts, if_pos rfl]
  simp only [State.transfer, trap]

end

/-! ## The link pair (R109) -/

theorem sKey_ne_next (w : Warp) (n : Nat) : w.sKey n ≠ w.sKey (n + 1) := by
  unfold Warp.sKey bankKey sKeyUser
  split <;> split <;> omega

/-- The writes of a pair of s-registers. -/
def pairKeys (w : Warp) (n : Nat) (v : Dword) : List (Nat × Word) :=
  [(w.sKey n, loWord v), (w.sKey (n + 1), hiWord v)]

theorem pairKeys_regKey (w : Warp) {n : Nat} (hn : n + 1 < 128) (v : Dword) : ∀ p ∈ pairKeys w n v, RegKey p.1 := by
  intro p hp
  simp only [pairKeys, List.mem_cons, List.not_mem_nil, or_false] at hp
  rcases hp with rfl | rfl
  · exact regKey_s w n (by omega)
  · exact regKey_s w (n + 1) (by omega)

/-- A pair's put names both registers by the warp's PRIV, which the first put leaves. -/
theorem putSPair_eq_putMany (w : Warp) {n : Nat} (hn : n + 1 < 128) (v : Dword) :
    w.putSPair n v = w.putMany (pairKeys w n v) := by
  have priv : (w.putS n (loWord v)).sKey (n + 1) = w.sKey (n + 1) := by
    rw [Warp.putS, putKey_frame w (regKey_s w n (by omega))]; rfl
  rw [Warp.putSPair, Warp.putS, priv]; rfl

/-- CALLX names its link pair in FUNC, both registers of it (R109). -/
theorem callx_link_lt {f : CFields} (wf : legal (.callx k f) = true) : f.func.toNat + 1 < 128 := by
  have fields := sig_fields_of_legal wf
  simp only [sig, Bool.and_eq_true, decide_eq_true_eq] at fields
  omega

/-- A warp that has jumped with its link pair n holding v. -/
structure JumpedLinked (s t : State) (k : Ctl) (va : Dword) (n : Nat) (v : Dword) : Prop where
  jumped : Jumped s t k va
  divergence : SameDivergence s t
  preds : t.me.preds = s.me.preds
  link : t.me.getSPair n = v
  others : OtherRegs s t [s.me.sKey n, s.me.sKey (n + 1)]

theorem jumpedLinked_modMe (va : Dword) {n : Nat} (hn : n + 1 < 128) (v : Warp → Dword) :
    JumpedLinked s (s.modMe fun w => (w.putSPair n (v w)).jump k.sw va) k va n (v s.me) := by
  have regKeys := pairKeys_regKey s.me hn (v s.me)
  have put := putSPair_eq_putMany s.me hn (v s.me)
  have frame := put.trans (putMany_frame _ s.me regKeys)
  have key (j : Nat) : (s.me.putSPair n (v s.me)).getKey j = lastWrite (pairKeys s.me n (v s.me)) j (s.me.getKey j) := by
    rw [put, getKey_putMany _ _ regKeys]
  refine ⟨jumped_modMe (upd := fun w => w.putSPair n (v w)) ?_, ?_, ?_, ?_, ?_, ?_⟩
  · dsimp only; rw [frame]
  · exact sameDivergence_modMe (by rw [frame]; rfl) (by rw [frame]; rfl) (by rw [frame]; rfl) (by rw [frame]; rfl)
  · rw [State.me_modMe, frame]; rfl
  · rw [State.me_modMe]
    have held (m : Nat) : ((s.me.putSPair n (v s.me)).jump k.sw va).getS m =
        lastWrite (pairKeys s.me n (v s.me)) (s.me.sKey m) (s.me.getS m) := by
      have same : ((s.me.putSPair n (v s.me)).jump k.sw va).sKey m = s.me.sKey m := by rw [frame]; rfl
      rw [Warp.getS, same]
      exact key _
    rw [Warp.getSPair, held, held]
    simp [lastWrite, pairKeys, sKey_ne_next, (sKey_ne_next _ _).symm, join_lo_hi]
  · intro j hj
    rw [State.me_modMe]
    exact (key j).trans (lastWrite_notMem _ _ _ hj)
  · rw [State.me_modMe, frame]; rfl

/-! ## SKIPZ (R109) -/

section
variable {f : CFields}

theorem exec_skipz (issues : Issues s k (.skipz k f)) : exec (.skipz k f) s =
    .next (if rd s s.me f.src 0 = 0#32 then s.transfer k (s.me.pc + 8#64 * f.target.signExtend 64) id
      else s.modMe fun w => w.fallThrough k.sw) := by
  rw [← relTarget_eq, exec]; exact issue_next issues _

theorem exec_skipz_taken (issues : Issues s k (.skipz k f)) (zero : rd s s.me f.src 0 = 0#32)
    (header : HeaderAt s (s.me.pc + 8#64 * f.target.signExtend 64)) : exec (.skipz k f) s =
      .next (s.modMe fun w => w.jump k.sw (s.me.pc + 8#64 * f.target.signExtend 64)) := by
  rw [exec_skipz issues, if_pos zero, transfer_of_headerAt header]; rfl

theorem exec_skipz_passed (issues : Issues s k (.skipz k f)) (value : rd s s.me f.src 0 ≠ 0#32) :
    exec (.skipz k f) s = .next (s.modMe fun w => w.fallThrough k.sw) := by
  rw [exec_skipz issues, if_neg value]

/-! ## SPLIT (R111) -/

/-- The entry that SPLIT pushes, with p pending. -/
def splitEntry (w : Warp) (join : Dword) (p : Mask) : StackEntry :=
  { jpc := join, ppc := w.pc + 8#64, rmask := w.exec, pmask := p, sfmt := w.fmt }

/-- The targets of SPLIT are halves of TARGET, each a signed count of words. -/
theorem relTarget_half (pc : Dword) (off : BitVec 16) : relTarget pc (off.signExtend 32) = pc + 8#64 * off.signExtend 64 := by
  have same : (off.signExtend 32).signExtend 64 = off.signExtend 64 := by
    apply BitVec.eq_of_toInt_eq
    rw [BitVec.toInt_signExtend_of_le (by omega), BitVec.toInt_signExtend_of_le (by omega),
      BitVec.toInt_signExtend_of_le (by omega)]
  rw [relTarget_eq, same]

/-- The targets of a SPLIT: where the taken lanes go, and where the lanes join. -/
def splitTaken (w : Warp) (f : CFields) : Dword := w.pc + 8#64 * (f.target.setWidth 16 : BitVec 16).signExtend 64

def splitJoin (w : Warp) (f : CFields) : Dword := w.pc + 8#64 * (f.target.extractLsb' 16 16).signExtend 64

theorem relTarget_splitTaken (w : Warp) (f : CFields) :
    relTarget w.pc ((f.target.extractLsb' 0 16).signExtend 32) = splitTaken w f := by
  have low : f.target.extractLsb' 0 16 = f.target.setWidth 16 := by ext i; simp
  rw [relTarget_half, low, splitTaken]

theorem relTarget_splitJoin (w : Warp) (f : CFields) :
    relTarget w.pc ((f.target.extractLsb' 16 16).signExtend 32) = splitJoin w f := relTarget_half ..

theorem exec_split_full (issues : Issues s k (.split k f)) (full : 16 ≤ s.me.stack.length) :
    exec (.split k f) s = .next (s.takeTrap { kind := 11, mask := s.me.eff k }) := by
  rw [exec, execSplit, issue_next issues]
  simp only [full, if_true]

theorem exec_split_room (issues : Issues s k (.split k f)) (room : s.me.stack.length < 16)
    (taken : HeaderAt s (splitTaken s.me f)) (join : HeaderAt s (splitJoin s.me f)) : exec (.split k f) s =
      .next (s.modMe fun w => w.split (s.me.eff k) k.sw (splitTaken s.me f) (splitJoin s.me f)) := by
  rw [exec, execSplit, issue_next issues]
  simp only [relTarget_splitTaken, relTarget_splitJoin, targetTrap_headerAt _ taken, targetTrap_headerAt _ join,
    if_neg (Nat.not_le.2 room)]

/-- Some lanes are taken: the rest is pending, and they run first. -/
theorem exec_split_taken (issues : Issues s k (.split k f)) (room : s.me.stack.length < 16)
    (taken : HeaderAt s (splitTaken s.me f)) (join : HeaderAt s (splitJoin s.me f)) (lanes : s.me.eff k ≠ 0#32) :
    exec (.split k f) s = .next (s.modMe fun w =>
      ({ w with stack := splitEntry w (splitJoin s.me f) (w.exec &&& ~~~s.me.eff k) :: w.stack, exec := s.me.eff k } : Warp).jump
        k.sw (splitTaken s.me f)) := by
  rw [exec_split_room issues room taken join]
  simp only [Warp.split, if_pos lanes, splitEntry]

/-- No lane is taken: nothing is pending, and the warp goes on. -/
theorem exec_split_none (issues : Issues s k (.split k f)) (room : s.me.stack.length < 16)
    (taken : HeaderAt s (splitTaken s.me f)) (join : HeaderAt s (splitJoin s.me f)) (empty : s.me.eff k = 0#32) :
    exec (.split k f) s = .next (s.modMe fun w =>
      ({ w with stack := splitEntry w (splitJoin s.me f) 0#32 :: w.stack, exec := w.exec &&& ~~~s.me.eff k } : Warp).fallThrough
        k.sw) := by
  rw [exec_split_room issues room taken join]
  simp only [Warp.split, if_neg (not_not.2 empty), splitEntry]

/-! ## JOIN (R112) -/

theorem exec_join_empty (issues : Issues s k (.join k f)) (empty : s.me.stack = []) :
    exec (.join k f) s = .next (s.takeTrap { kind := 3, mask := s.me.eff k, info := s.me.eff k }) := by
  rw [exec, execJoin, issue_next issues]
  simp only [empty]

variable {e : StackEntry} {rest : List StackEntry} (issues : Issues s k (.join k f)) (stack : s.me.stack = e :: rest)
include issues stack

theorem exec_join_elsewhere (elsewhere : s.me.hdr ≠ e.jpc) :
    exec (.join k f) s = .next (s.takeTrap { kind := 3, mask := s.me.eff k, info := s.me.eff k }) := by
  rw [exec, execJoin, issue_next issues]
  simp only [stack, if_pos elsewhere]

variable (here : s.me.hdr = e.jpc)
include here

theorem exec_join_reserved (reserved : fmtLegal e.sfmt = false) :
    exec (.join k f) s = .next (s.takeTrap (illegal s.me k (.join k f))) := by
  rw [exec, execJoin, issue_next issues]
  simp [stack, here, reserved]

variable (listed : fmtLegal e.sfmt = true)
include listed

theorem exec_join_top : exec (.join k f) s = .next (s.modMe fun w => w.join k.sw s.nextId e rest) := by
  rw [exec, execJoin, issue_next issues]
  simp [stack, here, listed]

theorem exec_join_pending (pending : e.pmask ≠ 0#32) : exec (.join k f) s =
    .next (s.modMe fun w => ({ w with fmt := e.sfmt, exec := e.pmask, stack := { e with pmask := 0#32 } :: rest } : Warp).jump
      k.sw e.ppc) := by
  rw [exec_join_top issues stack here listed]
  simp only [Warp.join, if_pos pending]

theorem exec_join_pop (done : e.pmask = 0#32) : exec (.join k f) s =
    .next (s.modMe fun w => ({ w with fmt := e.sfmt, exec := e.rmask, stack := rest, epoch := s.nextId } : Warp).fallThrough
      k.sw) := by
  rw [exec_join_top issues stack here listed]
  simp only [Warp.join, done, ne_eq, not_true_eq_false, if_false]

end

end Sys2Proof.Machine
end

section
/-! SUPPORT. The words that read and write EXEC and FMT (R115, R118), NOP (R119), and the words on predicates (R116, R117,
R132): what each leaves where it issues. -/

namespace Sys2Proof.Machine

variable {s : State} {k : Ctl} {f : VFields} {g : KFields}

/-! ## EXEC and FMT (R115, R118) -/

/-- What EXRD reads: EXEC, the depth of the stack, or a mask of its top entry, 0 without one. -/
def exrdValue (w : Warp) (f : VFields) : Word :=
  if f.minor = 0#5 then w.exec
  else if f.minor = 1#5 then BitVec.ofNat 32 w.stack.length
  else
    match w.stack with
    | [] => 0#32
    | e :: _ => if f.minor = 2#5 then e.rmask else e.pmask

theorem exec_exrd (issues : Issues s k (.exrd k f)) :
    exec (.exrd k f) s = .next (s.value32 k f.d fun _ => (exrdValue s.me f, 0#6)) := by
  rw [exec, execExrd, issue_next issues]
  simp only [exrdValue, BitVec.toNat_eq]
  generalize f.minor.toNat = m
  match m with
  | 0 | 1 => rfl
  | 2 | _ + 3 => cases s.me.stack <;> rfl

theorem exwrMask_eq (m : BitVec 5) (old a : Mask) : exwrMask m.toNat old a =
    if m = 0#5 then a else if m = 1#5 then old &&& a else if m = 2#5 then old ||| a else old &&& ~~~a := by
  simp only [BitVec.toNat_eq]
  generalize m.toNat = m
  match m with
  | 0 | 1 | 2 | _ + 3 => rfl

theorem exec_exwr (issues : Issues s k (.exwr k f)) : exec (.exwr k f) s =
    .next (s.modMe fun w => ({ w with exec := exwrMask f.minor.toNat w.exec (rd s s.me f.a 0) } : Warp).advance k.sw) := by
  rw [exec]; exact issue_next issues _

theorem setfmtValue_eq (s : State) (w : Warp) (g : KFields) : setfmtValue s w g =
    if g.func = 0#8 then g.imm else if g.func = 1#8 then rd s w g.d 0
    else if g.func = 2#8 then w.fmt &&& g.imm else w.fmt ||| g.imm := by
  simp only [setfmtValue, BitVec.toNat_eq]
  generalize g.func.toNat = m
  match m with
  | 0 | 1 | 2 | _ + 3 => rfl

theorem exec_setfmt (issues : Issues s k (.setfmt k g)) (listed : fmtLegal (setfmtValue s s.me g) = true) :
    exec (.setfmt k g) s =
      .next (s.modMe fun w => ({ w with fmt := setfmtValue s s.me g } : Warp).advance k.sw) := by
  rw [exec, execSetfmt, issue_next issues, if_pos listed]

theorem exec_setfmt_reserved (issues : Issues s k (.setfmt k g)) (reserved : fmtLegal (setfmtValue s s.me g) = false) :
    exec (.setfmt k g) s = .next (s.takeTrap (illegal s.me k (.setfmt k g))) := by
  rw [exec, execSetfmt, issue_next issues]
  simp only [reserved, Bool.false_eq_true, if_false]

theorem exec_getfmt (issues : Issues s k (.getfmt k f)) :
    exec (.getfmt k f) s = .next (s.value32 k f.d fun _ => (if f.minor = 0#5 then s.me.fmt else s.me.xv, 0#6)) := by
  rw [exec]; exact issue_next issues _

theorem exec_nop (issues : Issues s k (.nop k f)) : exec (.nop k f) s = .next (s.finish k [] 0#6) := by
  rw [exec]; exact issue_next issues _

theorem advance_done (s : State) (k : Ctl) : WordDone s (s.advance k) k := by
  constructor
  · rw [State.advance, State.me_modMe]; rfl
  · rw [State.advance, State.me_modMe]; rfl

/-! ## Predicates (R116, R117) -/

theorem exec_plog (issues : Issues s k (.plog k f)) : exec (.plog k f) s =
    .next (s.finish k (writesPred s.me k (regNum f.d) fun l =>
      f.mod.getLsbD (2 * (s.me.pred (regNum f.a) l).toNat + (s.me.pred (regNum f.b) l).toNat)) 0#6) := by
  have row (a b : Bool) : (if a then 2 else 0) + (if b then 1 else 0) = 2 * a.toNat + b.toNat := by
    cases a <;> cases b <;> rfl
  rw [exec, execPlog, issue_next issues]
  simp only [row]

/-- What PMOV leaves, by its form: every predicate packed in a register, every predicate unpacked from one, one predicate of a
register that is not 0, or 0 and 1 of a predicate. -/
def State.pmovDone (s : State) (k : Ctl) (f : VFields) : State :=
  if f.minor = 0#5 then s.value32 k f.d fun l => ((tget 0#16 s.me.preds l).setWidth 32, 0#6)
  else if f.minor = 1#5 then
    s.finish k (writesPreds s.me k (List.range 16) fun n l => (rd s s.me f.a l).getLsbD n) 0#6
  else if f.minor = 2#5 then
    s.finish k (writesPred s.me k (regNum f.d) fun l => decide (rd s s.me f.a l ≠ 0#32)) 0#6
  else s.value32 k f.d fun l => (if s.me.pred (regNum f.a) l then 1#32 else 0#32, 0#6)

theorem exec_pmov (issues : Issues s k (.pmov k f)) : exec (.pmov k f) s = .next (s.pmovDone k f) := by
  have differs (x : Word) : (x != 0#32) = decide (x ≠ 0#32) := (decide_not ..).symm
  rw [exec, execPmov, issue_next issues]
  simp only [State.pmovDone, BitVec.toNat_eq, differs]
  generalize f.minor.toNat = m
  match m with
  | 0 | 1 | 2 | _ + 3 => rfl

/-- The predicates of a lane as the bits of a register. -/
theorem getLsbD_packedPreds (w : Warp) (l : Nat) {i : Nat} (hi : i < 32) :
    ((tget 0#16 w.preds l).setWidth 32).getLsbD i = (decide (i < 16) && w.pred i l) := by
  rw [BitVec.getLsbD_setWidth, Warp.pred, decide_eq_true hi, Bool.true_and]
  by_cases low : i < 16
  · simp [low]
  · rw [BitVec.getLsbD_of_ge _ _ (by omega), Bool.and_false]

/-! ## Integer compares (R132) -/

/-- An operand of ICMP as the integer of its TYPE, b32 as signed. -/
def icmpValue (s : State) (ty : Nat) (o : Operand) (l : Nat) : Int :=
  if 3 ≤ ty then asInt (typeSigned ty) 64 (rd64 s s.me o l).toNat
  else asInt (typeSigned ty || ty == 0) 32 (rd s s.me o l).toNat

theorem exec_icmp (issues : Issues s k (.icmp k f)) : exec (.icmp k f) s =
    .next (s.compare k f.d f.mod.toNat (fun _ => 0#6) fun l =>
      intCond f.minor.toNat (icmpValue s f.ty.toNat f.a l) (icmpValue s f.ty.toNat f.b l)) := by
  rw [exec]; exact issue_next issues _

/-- The TYPE of a legal ICMP (R132). -/
theorem icmp_type_le {k : Ctl} {f : VFields} (wf : legal (.icmp k f) = true) : f.ty.toNat ≤ 4 := by
  obtain ⟨types, -, -⟩ := vsig_fields (sig_fields_of_legal wf)
  have := List.mem_range.1 types
  omega

end Sys2Proof.Machine
end

section
/-! PROOFS. The statements about control words (R65, R103 to R119, R132), and the words that the spec writes out. -/

namespace Sys2Proof.Claims

open Sys2Proof.Machine

/-- Settles O16: each transfer word is its guard's judgement, its target and what else it writes (`TransferWord`); a target
that is a header passes the checks, and the first check that fails is the trap. -/
theorem transfers : Obligations.Transfers := by
  refine ⟨?taken, ?passed, ?checks⟩
  case taken =>
    intro s k f rel reg plain linked
    have lands (va : Dword) : plain (s.modMe fun w => w.jump k.sw va) va :=
      ⟨jumped_modMe (upd := id) rfl, sameRegs_modMe rfl rfl rfl rfl, sameDivergence_modMe rfl rfl rfl rfl⟩
    have goes {i : Instr} {va : Dword} (word : TransferWord s k f i va id) (issues : Issues s k i)
        (acts : s.me.acts k = true) (header : HeaderAt s va) : ∃ t, exec i s = .next t ∧ plain t va :=
      ⟨_, word.exec_taken issues acts header, lands va⟩
    have links {i : Instr} {va : Dword} {n : Nat} (word : TransferWord s k f i va fun w => w.putSPair n (w.pc + 8#64))
        (pair : n + 1 < 128) (issues : Issues s k i) (acts : s.me.acts k = true) (header : HeaderAt s va) :
        ∃ t, exec i s = .next t ∧ linked t va n :=
      have ⟨jumped, divergence, preds, link, others⟩ := jumpedLinked_modMe va pair fun w => w.pc + 8#64
      ⟨_, word.exec_taken issues acts header, jumped, divergence, preds, link, others⟩
    refine ⟨goes .bra, goes .brx, goes .ret, fun issues => ?_, fun issues => ?_,
      fun issues zero header => ⟨_, exec_skipz_taken issues zero header, lands rel⟩⟩
    · exact links .call (sPair_of_ok (slot_ok_of_legal issues.fields (.sdst 2, f.src) (by simp [sig]))) issues
    · exact links .callx (callx_link_lt issues.fields) issues
  case passed =>
    intro s k f passed
    have goesOn {i : Instr} (run : exec i s = .next (s.modMe fun w => w.fallThrough k.sw)) : passed i :=
      ⟨_, run, fellThrough_modMe (upd := id) rfl, sameRegs_modMe rfl rfl rfl rfl, sameDivergence_modMe rfl rfl rfl rfl⟩
    refine ⟨?_, fun issues value => goesOn (exec_skipz_passed issues value)⟩
    rintro i (rfl | rfl | rfl | rfl | rfl) issues idle
    · exact goesOn (TransferWord.bra.exec_passed issues idle)
    · exact goesOn (TransferWord.brx.exec_passed issues idle)
    · exact goesOn (TransferWord.call.exec_passed issues idle)
    · exact goesOn (TransferWord.callx.exec_passed issues idle)
    · exact goesOn (TransferWord.ret.exec_passed issues idle)
  case checks =>
    intro s k f i va which issues acts
    obtain ⟨upd, word⟩ : ∃ upd, TransferWord s k f i va upd := by
      rcases which with ⟨rfl, rfl⟩ | ⟨rfl, rfl⟩ | ⟨rfl | rfl | rfl, rfl⟩
      exacts [⟨_, .bra⟩, ⟨_, .call⟩, ⟨_, .brx⟩, ⟨_, .callx⟩, ⟨_, .ret⟩]
    have traps {x : Trp} (trap : targetTrap s (s.me.eff k) va = some x) : exec i s = .next (s.takeTrap x) :=
      word.exec_trapped issues acts trap
    exact ⟨fun odd => traps (targetTrap_misaligned _ odd),
      fun aligned user upper => traps (targetTrap_privileged _ aligned user upper),
      fun aligned allowed => ⟨fun c page => traps (targetTrap_unmapped _ aligned allowed page),
        fun p page other => traps (targetTrap_noHeader _ aligned allowed page other)⟩⟩

/-- Settles O17: SPLIT pushes its entry and runs the taken lanes first if there are any (`exec_split_taken`,
`exec_split_none`); JOIN acts on the top entry, which is pending or done. -/
theorem splitAndJoin : Obligations.SplitAndJoin := by
  constructor
  · intro s k f issues w t0 rest taken join entry
    refine ⟨exec_split_full issues, fun room atTaken atJoin => ?_⟩
    by_cases empty : t0 = 0#32
    · refine ⟨_, exec_split_none issues room atTaken atJoin empty, sameRegs_modMe rfl rfl rfl rfl, ?_,
        fun lanes => absurd empty lanes, fun _ => ⟨fellThrough_modMe (upd := fun w => { w with stack := _, exec := _ }) rfl, ?_⟩⟩
      all_goals rw [State.me_modMe]
      · rfl
      · exact ⟨rfl, rfl, rfl⟩
    · refine ⟨_, exec_split_taken issues room atTaken atJoin empty, sameRegs_modMe rfl rfl rfl rfl, ?_,
        fun _ => ⟨jumped_modMe (upd := fun w => { w with stack := _, exec := _ }) rfl, ?_⟩, fun idle => absurd idle empty⟩
      all_goals rw [State.me_modMe]
      · rfl
      · exact ⟨rfl, rfl⟩
  · intro s k f issues w bad
    refine ⟨exec_join_empty issues, fun e rest stack => ⟨exec_join_elsewhere issues stack, exec_join_reserved issues stack,
      fun here listed pending => ?_, fun here listed done => ?_⟩⟩
    · refine ⟨_, exec_join_pending issues stack here listed pending,
        jumped_modMe (upd := fun w => { w with fmt := _, exec := _, stack := _ }) rfl, sameRegs_modMe rfl rfl rfl rfl, ?_⟩
      rw [State.me_modMe]
      exact ⟨rfl, rfl, rfl⟩
    · refine ⟨_, exec_join_pop issues stack here listed done,
        fellThrough_modMe (upd := fun w => { w with fmt := _, exec := _, stack := _, epoch := _ }) rfl,
        sameRegs_modMe rfl rfl rfl rfl, ?_⟩
      rw [State.me_modMe]
      exact ⟨rfl, rfl, rfl, rfl⟩

/-- Settles O18: EXRD and GETFMT write a value without flags; EXWR and SETFMT end the word with a new EXEC or FMT, and NOP
ends it alone. -/
theorem warpRegisters : Obligations.WarpRegisters := by
  constructor
  · intro s k f
    refine ⟨fun issues => ⟨_, exec_exrd issues, value32_wrote_plain s k f.d fun _ => exrdValue s.me f⟩, fun issues => ?_⟩
    refine ⟨_, exec_exwr issues, sameRegs_modMe rfl rfl rfl rfl, ?_, ⟨s.advance k, advance_done s k, ?_⟩, ?_⟩
    · rw [State.me_modMe]; rfl
    · rw [State.advance, State.setMe_modMe, State.me_modMe, State.me_modMe]; rfl
    · rw [State.me_modMe]
      exact exwrMask_eq ..
  · intro s k f g x
    have value : setfmtValue s s.me g = x := setfmtValue_eq s s.me g
    rw [← value]
    refine ⟨fun issues listed => ?_, exec_setfmt_reserved, fun issues => ?_, fun issues => ?_⟩
    · refine ⟨_, exec_setfmt issues listed, sameRegs_modMe rfl rfl rfl rfl, ?_, ?_, ⟨s.advance k, advance_done s k, ?_⟩⟩
      · rw [State.me_modMe]; rfl
      · rw [State.me_modMe]; rfl
      · rw [State.advance, State.setMe_modMe, State.me_modMe, State.me_modMe]; rfl
    · exact ⟨_, exec_getfmt issues, value32_wrote_plain s k f.d fun _ => if f.minor = 0#5 then s.me.fmt else s.me.xv⟩
    · refine ⟨_, exec_nop issues, finish_done s k [] 0#6 (by simp), sameRegs_modMe rfl rfl rfl rfl, ?_, ?_⟩
      · rw [finish_me]; rfl
      · rw [finish_flags _ _ _ _ (by simp), BitVec.or_zero]

/-- Settles O14: PLOG and ICMP write one predicate, PMOV packs, unpacks, sets one predicate or spreads one. -/
theorem predicates : Obligations.Predicates := by
  refine ⟨fun s k f issues => ?plog, fun s k f issues => ?pmov, ?icmp⟩
  case plog =>
    have named := pred_of_ok (slot_ok_of_legal issues.fields (.predWr, f.d) (by simp [sig, vsig]))
    exact ⟨_, exec_plog issues, writesPred_wrote s k _ named _ _⟩
  case pmov =>
    refine ⟨_, exec_pmov issues, fun pack => ?_, fun unpack => ?_, fun one => ?_, fun spread => ?_⟩
    · rw [State.pmovDone, if_pos pack]
      exact ⟨_, value32_wrote_plain s k f.d _, fun l i _ hi => getLsbD_packedPreds s.me l hi⟩
    · have sixteen : ∀ n ∈ List.range 16, n < 16 := fun n hn => List.mem_range.1 hn
      have keys := writesPreds_predKey s.me k sixteen fun n l => (rd s s.me f.a l).getLsbD n
      rw [State.pmovDone, unpack]
      refine ⟨finish_predDone _ keys s k, finish_predGetKey _ keys s k, ?_, fun n l hn hl => ?_⟩
      · exact (finish_predFlags _ keys s k).trans BitVec.or_zero
      · refine (finish_writesPreds_pred s k sixteen _ _ hn).trans ?_
        simp [mem_maskLanes, hn, hl]
    · have named : regNum f.d < 16 :=
        pred_of_ok (slot_ok_of_legal issues.fields (.predWr, f.d) (by simp [sig, vsig, one]))
      rw [State.pmovDone, one]
      exact writesPred_wrote s k _ named _ _
    · rw [State.pmovDone, spread]
      exact value32_wrote_plain s k f.d _
  case icmp =>
    intro s k f n hd issues x c
    have named := pred_of_ok (slot_ok_of_legal issues.fields (.predWr, f.d) (by simp [sig, vsig]))
    have operand (o : Operand) (l : Nat) : icmpValue s f.ty.toNat o l = x o l := by
      have bound := icmp_type_le issues.fields
      simp only [x]
      generalize f.ty.toNat = ty at bound
      match ty with
      | 0 => exact asInt_signed _
      | 1 => exact asInt_unsigned _
      | 2 => exact asInt_signed _
      | 3 => exact asInt_unsigned _
      | 4 => exact asInt_signed _
    have cond (l : Nat) : intCond f.minor.toNat (icmpValue s f.ty.toNat f.a l) (icmpValue s f.ty.toNat f.b l) = c l := by
      simp only [operand, c]
      generalize f.minor.toNat = minor
      match minor with
      | 0 | 2 | 3 | 4 | _ + 5 => rfl
      | 1 => exact (decide_not ..).symm
    have wrote := compare_wrote s k named f.mod.toNat (fun _ => 0#6) c
    rw [flagsOver_zero, hd] at wrote
    refine ⟨_, exec_icmp issues, ?_⟩
    simp only [cond, BitVec.toNat_eq, hd]
    exact wrote

/-- Settles O1: the decoder is run on each word. -/
theorem decodeWords : Obligations.DecodeWords := by
  unfold Obligations.DecodeWords
  decide

end Sys2Proof.Claims
end

section
/-! SUPPORT. The flag ST of a clamp (R42), the clamped value of a range (R42, R78), and the elements of a packed register
(R73, R122): what each element holds, and when its word raises ST. -/

namespace Sys2Proof.Machine

/-! ## The saturate flag (R42) -/

/-- The flags are ST where p holds, and none where it does not. -/
def StWhen (fl : Flags) (p : Prop) : Prop := (fl = fST ∨ fl = 0#6) ∧ (fl = fST ↔ p)

theorem fST_ne_zero : fST ≠ 0#6 := by decide

theorem StWhen.set {p : Prop} (h : p) : StWhen fST p := ⟨.inl rfl, iff_of_true rfl h⟩

theorem StWhen.clear {p : Prop} (h : ¬p) : StWhen 0#6 p := ⟨.inr rfl, iff_of_false fST_ne_zero.symm h⟩

theorem StWhen.congr {fl : Flags} {p q : Prop} (h : StWhen fl p) (same : p ↔ q) : StWhen fl q := ⟨h.1, h.2.trans same⟩

/-- The union of two words' flags, each ST or none, is ST where one of them is. -/
theorem StWhen.or {x y : Flags} {p q : Prop} (hx : StWhen x p) (hy : StWhen y q) : StWhen (x ||| y) (p ∨ q) := by
  by_cases hp : p
  · rw [hx.2.2 hp]
    rcases hy.1 with rfl | rfl <;> exact .set (.inl hp)
  · rw [hx.1.resolve_left fun set => hp (hx.2.1 set), BitVec.zero_or]
    exact hy.congr (or_iff_right hp).symm

/-- The union over a list is ST where some member's flags are. -/
theorem StWhen.union {α : Type} (xs : List α) {g : α → Flags} {p : α → Prop} (h : ∀ x, StWhen (g x) (p x)) :
    StWhen (orFlags (xs.map g)) (∃ x ∈ xs, p x) := by
  induction xs with
  | nil => exact .clear (by simp)
  | cons x xs ih => exact ((h x).or ih).congr (by simp)

/-- A word's flags are ST where a lane of effective has it (R42). -/
theorem StWhen.lanes (w : Warp) (k : Ctl) {g : Nat → Flags} {p : Nat → Prop} (h : ∀ l, StWhen (g l) (p l)) :
    StWhen (flagsOver w k g) (∃ l, l < 32 ∧ (w.eff k).getLsbD l = true ∧ p l) :=
  (StWhen.union (dstLanes w k) h).congr (by simp only [dstLanes, mem_maskLanes, and_assoc])

/-! ## Clamped values (R42, R78) -/

theorem clampInt_value {lo hi x : Int} (range : lo ≤ hi) : (clampInt lo hi x).1 = max lo (min x hi) := by
  grind [clampInt]

theorem clampInt_flag (lo hi x : Int) : StWhen (clampInt lo hi x).2 (x < lo ∨ hi < x) := by
  unfold clampInt
  split
  · rename_i below
    exact .set (.inl below)
  split
  · rename_i above
    exact .set (.inr above)
  · rename_i notBelow notAbove
    exact .clear (not_or.2 ⟨notBelow, notAbove⟩)

/-- The clamp to the range of an integer of n bits, signed or unsigned. -/
theorem sat_value (signed : Bool) (n : Nat) (x : Int) :
    (if signed then satS x n else satU x n).1 = clampTo signed n x := by
  have half : (0 : Int) < 2 ^ (n - 1) := by positivity
  have full : (0 : Int) < 2 ^ n := by positivity
  cases signed
  · simp only [Bool.false_eq_true, if_false, satU, clampTo]
    rw [clampInt_value (by push_cast; omega)]
    push_cast; rfl
  · simp only [if_true, satS, clampTo]
    rw [clampInt_value (by push_cast; omega)]
    push_cast; rfl

/-- The clamp raises ST where the value lies outside the range. -/
theorem sat_flag (signed : Bool) (n : Nat) (x : Int) :
    StWhen (if signed then satS x n else satU x n).2 (OutOfRange signed n x) := by
  cases signed
  · exact (clampInt_flag ..).congr (by simp only [OutOfRange, Bool.false_eq_true, if_false]; push_cast; omega)
  · exact (clampInt_flag ..).congr (by simp only [OutOfRange, if_true]; push_cast; omega)

/-! ## Packed elements (R73) -/

theorem packElems_lt (w : Nat) (xs : List Nat) : packElems w xs < 2 ^ (w * xs.length) := by
  induction xs with
  | nil => simp [packElems]
  | cons x xs ih =>
    have low : x % 2 ^ w < 2 ^ w := Nat.mod_lt _ (by positivity)
    rw [packElems, List.length_cons, Nat.mul_succ, Nat.add_comm (w * _), Nat.pow_add]
    have room := Nat.mul_le_mul_left (2 ^ w) (Nat.succ_le_of_lt ih)
    rw [Nat.mul_succ] at room
    omega

/-- Each element of a packed list is the list's, reduced to its width. -/
theorem elemAt_packElems (w : Nat) (xs : List Nat) {i : Nat} (hi : i < xs.length) :
    elemAt (packElems w xs) w i = xs[i] % 2 ^ w := by
  induction xs generalizing i with
  | nil => exact absurd hi (Nat.not_lt_zero i)
  | cons x xs ih =>
    have low : x % 2 ^ w < 2 ^ w := Nat.mod_lt _ (by positivity)
    cases i with
    | zero => simp [elemAt, packElems]
    | succ i =>
      have rest : packElems w (x :: xs) / 2 ^ w = packElems w xs := by
        rw [packElems, Nat.add_mul_div_left _ _ (by positivity), Nat.div_eq_of_lt low, Nat.zero_add]
      rw [elemAt, Nat.mul_succ, Nat.add_comm (w * i), Nat.pow_add, ← Nat.div_div_eq_div_mul, rest]
      exact ih (Nat.lt_of_succ_lt_succ hi)

/-- The elements of a register that is packed from g. -/
theorem elemAt_packWord (w : Nat) (g : Nat → Nat) {i : Nat} (hi : i < 32 / w) :
    elemAt (BitVec.ofNat 32 (packElems w ((List.range (32 / w)).map g))).toNat w i = g i % 2 ^ w := by
  have fits : packElems w ((List.range (32 / w)).map g) < 2 ^ 32 :=
    (packElems_lt w _).trans_le (Nat.pow_le_pow_right (by decide) (by simpa using Nat.mul_div_le 32 w))
  rw [BitVec.toNat_ofNat, Nat.mod_eq_of_lt fits, elemAt_packElems w _ (by simpa using hi)]
  simp

/-- What an elementwise operation leaves in each element (R122). -/
theorem elemAt_mapElems (w : Nat) (g : Nat → Nat → Nat × Flags) (a b : Word) {i : Nat} (hi : i < 32 / w) :
    elemAt (mapElems w g a b).1.toNat w i = (g (elemAt a.toNat w i) (elemAt b.toNat w i)).1 % 2 ^ w := by
  simp only [mapElems, List.map_map]
  exact elemAt_packWord w _ hi

/-- An elementwise operation raises ST where an element does. -/
theorem mapElems_flag (w : Nat) {g : Nat → Nat → Nat × Flags} {p : Nat → Nat → Prop}
    (h : ∀ x y, StWhen (g x y).2 (p x y)) (a b : Word) :
    StWhen (mapElems w g a b).2 (∃ i, i < 32 / w ∧ p (elemAt a.toNat w i) (elemAt b.toNat w i)) := by
  simp only [mapElems, List.map_map]
  exact (StWhen.union (List.range (32 / w)) fun i => h (elemAt a.toNat w i) (elemAt b.toNat w i)).congr
    (by simp only [List.mem_range])

/-! ## The elements of IADD, ISUB, IABS and INEG (R125, R127) -/

theorem lowBits_eq (x : Int) (w : Nat) : lowBits x w = (x % 2 ^ w).toNat := by
  unfold lowBits
  push_cast
  rfl

/-- The bits of a value that is clamped or wrapped. -/
theorem addElem_bits (signed sat : Bool) (w : Nat) (x : Int) : (addElem signed sat w x).1 = elemBitsOf sat signed w x := by
  cases sat
  · simp [addElem, elemBitsOf, lowBits_eq]
  · simp [addElem, elemBitsOf, lowBits_eq, sat_value]

theorem addElem_flag (signed sat : Bool) (w : Nat) (x : Int) :
    StWhen (addElem signed sat w x).2 (sat = true ∧ OutOfRange signed w x) := by
  cases sat
  · exact .clear (by simp)
  · exact (sat_flag signed w x).congr (by simp)

theorem elemBitsOf_lt (sat signed : Bool) (n : Nat) (x : Int) : elemBitsOf sat signed n x < 2 ^ n := by
  have low := Int.emod_lt_of_pos (if sat then clampTo signed n x else x) (show (0 : Int) < 2 ^ n by positivity)
  have cast : ((2 ^ n : Nat) : Int) = 2 ^ n := by push_cast; rfl
  unfold elemBitsOf
  omega

/-- A word that leaves in each element the value v of its operands' elements, clamped or wrapped, and raises ST where a lane
of effective clamps one (R42, R125). -/
theorem value32_wrote_elems (s : State) (k : Ctl) (d : Operand) (signed sat : Bool) (n : Nat) (v : Nat → Nat → Int)
    (a b : Nat → Word) : ∃ fl g,
    Wrote32 s (s.value32 k d fun l => mapElems n (fun x y => addElem signed sat n (v x y)) (a l) (b l)) k d fl g ∧
      (∀ l e, l < 32 → e < 32 / n →
        elemAt (g l).toNat n e = elemBitsOf sat signed n (v (elemAt (a l).toNat n e) (elemAt (b l).toNat n e))) ∧
      (fl = fST ∨ fl = 0#6) ∧
      (fl = fST ↔ sat = true ∧ ∃ l e, l < 32 ∧ (s.me.eff k).getLsbD l = true ∧ e < 32 / n ∧
        OutOfRange signed n (v (elemAt (a l).toNat n e) (elemAt (b l).toNat n e))) := by
  have flag := StWhen.lanes s.me k fun l =>
    mapElems_flag n (fun x y => addElem_flag signed sat n (v x y)) (a l) (b l)
  refine ⟨_, _, value32_wrote .., fun l e _ he => ?_, flag.congr ?_⟩
  · rw [elemAt_mapElems n _ _ _ he, addElem_bits, Nat.mod_eq_of_lt (elemBitsOf_lt ..)]
  · grind

end Sys2Proof.Machine
end

section
/-! SUPPORT. The values of the integer words (R126 to R135): extended operands, picked and negated elements, high halves,
shifts and rotates, fields, bytes and counts of bits. -/

namespace Sys2Proof.Machine

/-! ## Operands read as integers (R120) -/

/-- Only the low n bits count. -/
theorem asInt_ofNat (signed : Bool) (n x : Nat) : asInt signed n (BitVec.ofNat n x).toNat = asInt signed n x := by
  simp [asInt]

/-- Bits read as an integer of m bits are the low m bits, sign-extended or zero-extended. -/
theorem ofInt_asInt (w : Nat) (signed : Bool) (m x : Nat) : BitVec.ofInt w (asInt signed m x) =
    if signed then (BitVec.ofNat m x).signExtend w else (BitVec.ofNat m x).setWidth w := by
  rw [← asInt_ofNat]
  cases signed
  · rw [asInt_unsigned, BitVec.ofInt_natCast, BitVec.ofNat_toNat]; rfl
  · rw [asInt_signed]; rfl

/-- An operand read as the integer of its type and extended. -/
theorem ofInt_asInt_toNat (w : Nat) (signed : Bool) {m : Nat} (x : BitVec m) :
    BitVec.ofInt w (asInt signed m x.toNat) = if signed then x.signExtend w else x.setWidth w := by
  rw [ofInt_asInt, BitVec.ofNat_toNat, BitVec.setWidth_eq]

/-- Bits of a field that is read as an integer of m bits: its own, and then copies of its sign or zeros. -/
theorem getLsbD_ofInt_asInt (signed : Bool) (m x : Nat) {i : Nat} (hi : i < 32) :
    (BitVec.ofInt 32 (asInt signed m x)).getLsbD i =
      if i < m then x.testBit i else signed && decide (0 < m) && x.testBit (m - 1) := by
  rw [ofInt_asInt]
  cases signed
  · simp only [Bool.false_eq_true, if_false, BitVec.getLsbD_setWidth, BitVec.getLsbD_ofNat, hi, decide_true, Bool.true_and,
      Bool.false_and]
    by_cases low : i < m
    · rw [if_pos low, decide_eq_true low, Bool.true_and]
    · rw [if_neg low, decide_eq_false low, Bool.false_and]
  · simp only [if_true, BitVec.getLsbD_signExtend, BitVec.getLsbD_ofNat, hi, decide_true, Bool.true_and,
      BitVec.msb_eq_getLsbD_last]
    by_cases low : i < m
    · rw [if_pos low, if_pos low, decide_eq_true low, Bool.true_and]
    · have last : m - 1 < m ↔ 0 < m := by omega
      rw [if_neg low, if_neg low, decide_eq_decide.2 last]

theorem asInt_dword (signed : Bool) (x : Dword) : asInt signed 64 x.toNat = if signed then x.toInt else x.toNat := by
  cases signed
  · exact asInt_unsigned x
  · exact asInt_signed x

/-- An element read as signed lies in its range. -/
theorem asInt_signed_bounds (n x : Nat) : -(2 ^ (n - 1) : Int) ≤ asInt true n x ∧ asInt true n x < 2 ^ (n - 1) := by
  rw [← asInt_ofNat, asInt_signed]
  exact ⟨BitVec.le_toInt _, BitVec.toInt_lt⟩

/-! ## Elements that are picked, negated or made positive (R127) -/

theorem elemAt_mod (x n e : Nat) : elemAt x n e % 2 ^ n = elemAt x n e := Nat.mod_mod ..

theorem b32_type (ty : BitVec 4) : (ty.toNat == 0) = (ty == 0#4) := by
  rw [Bool.eq_iff_iff, beq_iff_eq, beq_iff_eq, BitVec.toNat_eq]
  rfl

/-- IMIN leaves in each element the lesser one, b32 read as signed (R120, R127). -/
theorem elemAt_min (ty : BitVec 4) (a b : Word) {e : Nat} (he : e < 32 / typeWidth ty.toNat) :
    let n := typeWidth ty.toNat
    let sg := typeSigned ty.toNat || ty == 0#4
    elemAt (minMax ty.toNat false a b).toNat n e =
      if asInt sg n (elemAt a.toNat n e) ≤ asInt sg n (elemAt b.toNat n e) then elemAt a.toNat n e else elemAt b.toNat n e := by
  intro n sg
  rw [minMax, elemAt_mapElems _ _ _ _ he]
  simp only [Bool.false_eq_true, if_false, decide_eq_true_eq, b32_type]
  split <;> exact elemAt_mod ..

/-- IMAX leaves in each element the greater one. -/
theorem elemAt_max (ty : BitVec 4) (a b : Word) {e : Nat} (he : e < 32 / typeWidth ty.toNat) :
    let n := typeWidth ty.toNat
    let sg := typeSigned ty.toNat || ty == 0#4
    elemAt (minMax ty.toNat true a b).toNat n e =
      if asInt sg n (elemAt b.toNat n e) ≤ asInt sg n (elemAt a.toNat n e) then elemAt a.toNat n e else elemAt b.toNat n e := by
  intro n sg
  rw [minMax, elemAt_mapElems _ _ _ _ he]
  simp only [if_true, decide_eq_true_eq, b32_type]
  split <;> exact elemAt_mod ..

/-- What INEG and IABS make of an element's integer. -/
def absNegValue (neg : Bool) (x : Int) : Int := if neg then -x else x.natAbs

/-- Only the most negative element's opposite, or magnitude, leaves the range. -/
theorem outOfRange_absNegValue (neg : Bool) (n x : Nat) :
    OutOfRange true n (absNegValue neg (asInt true n x)) ↔ asInt true n x = -2 ^ (n - 1) := by
  obtain ⟨low, high⟩ := asInt_signed_bounds n x
  have half : (0 : Int) < 2 ^ (n - 1) := by positivity
  cases neg <;> simp only [OutOfRange, absNegValue, if_true, Bool.false_eq_true, if_false] <;> omega

/-! ## High halves (R126) -/

/-- The high half of a value of 64 bits. -/
theorem high_ofInt (p : Int) : ((BitVec.ofInt 64 p) >>> 32).setWidth 32 = BitVec.ofInt 32 (p / 2 ^ 32) := by
  apply BitVec.eq_of_toNat_eq
  simp only [BitVec.toNat_setWidth, BitVec.toNat_ushiftRight, BitVec.toNat_ofInt, Nat.shiftRight_eq_div_pow]
  push_cast
  omega

/-- IMULH is the high half of the product of the extended operands. -/
theorem mulHigh_eq (signed : Bool) (a b : Word) : mulHigh signed a b =
    if signed then ((a.signExtend 64 * b.signExtend 64) >>> 32).setWidth 32
    else ((a.setWidth 64 * b.setWidth 64) >>> 32).setWidth 32 := by
  have product := high_ofInt (asInt signed 32 a.toNat * asInt signed 32 b.toNat)
  rw [BitVec.ofInt_mul, ofInt_asInt_toNat, ofInt_asInt_toNat] at product
  rw [mulHigh]
  refine product.symm.trans ?_
  cases signed <;> rfl

/-! ## Shifts and rotates (R128) -/

theorem sar32_eq (a n : Word) :
    sar32 a n = if n < 32#32 then a.sshiftRight n.toNat else if a.msb then 0xFFFFFFFF#32 else 0#32 := by
  unfold sar32
  split
  · rfl
  · rename_i big
    have large : 32 ≤ n.toNat := by simpa [BitVec.lt_def] using big
    split
    · rename_i neg
      rw [BitVec.sshiftRight_eq_of_msb_true neg, BitVec.ushiftRight_eq_zero large]
      rfl
    · rename_i pos
      rw [BitVec.sshiftRight_eq_of_msb_false (by simpa using pos), BitVec.ushiftRight_eq_zero large]

/-- A rotate takes each bit from its place modulo 32. -/
theorem getLsbD_rot32 (right : Bool) (a n : Word) {i : Nat} (hi : i < 32) : (rot32 right a n).getLsbD i =
    if right then a.getLsbD ((i + n.toNat) % 32) else a.getLsbD ((i + 32 - n.toNat % 32) % 32) := by
  have turn : n.toNat % 32 < 32 := Nat.mod_lt _ (by decide)
  cases right
  · simp only [rot32, Bool.false_eq_true, if_false, BitVec.getLsbD_rotateLeft, hi, decide_true, Bool.true_and]
    by_cases wraps : i < n.toNat % 32 % 32
    · rw [decide_eq_true wraps, cond_true]
      congr 1
      omega
    · rw [decide_eq_false wraps, cond_false]
      congr 1
      omega
  · simp only [rot32, if_true, BitVec.getLsbD_rotateRight, hi, decide_true, Bool.true_and]
    by_cases stays : i < 32 - n.toNat % 32 % 32
    · rw [decide_eq_true stays, cond_true]
      congr 1
      omega
    · rw [decide_eq_false stays, cond_false]
      congr 1
      omega

/-! ## Fields (R129) -/

/-- Does a field word name no bit? -/
def NoField (b : Word) : Prop := 32 ≤ (b.extractLsb' 0 8).toNat ∨ (b.extractLsb' 8 8).toNat = 0

/-- The lowest bit of a field. -/
def fieldPos (b : Word) : Nat := (b.extractLsb' 0 8).toNat

/-- The length of a field, cut at the register's end. -/
def fieldLen (b : Word) : Nat := min (b.extractLsb' 8 8).toNat (32 - fieldPos b)

theorem bitField_none {b : Word} (empty : NoField b) : bitField b = none := if_pos empty

theorem bitField_some {b : Word} (named : ¬NoField b) : bitField b = some (fieldPos b, fieldLen b) := if_neg named

theorem fieldLen_pos {b : Word} (named : ¬NoField b) : 0 < fieldLen b := by
  unfold NoField at named
  unfold fieldLen fieldPos
  omega

theorem bfx32_none (signed : Bool) (a : Word) {b : Word} (empty : NoField b) : bfx32 signed a b = 0#32 := by
  rw [bfx32, bitField_none empty]

theorem getLsbD_bfx32 (signed : Bool) (a : Word) {b : Word} (named : ¬NoField b) {i : Nat} (hi : i < 32) :
    (bfx32 signed a b).getLsbD i = if i < fieldLen b then a.getLsbD (fieldPos b + i)
      else signed && a.getLsbD (fieldPos b + fieldLen b - 1) := by
  have length := fieldLen_pos named
  have bit (j : Nat) : (a.toNat / 2 ^ fieldPos b).testBit j = a.getLsbD (fieldPos b + j) := by
    rw [Nat.testBit_div_two_pow, BitVec.testBit_toNat, Nat.add_comm]
  rw [bfx32, bitField_some named]
  refine (getLsbD_ofInt_asInt signed _ _ hi).trans ?_
  rw [bit, bit, decide_eq_true length, Bool.and_true, Nat.add_sub_assoc length]

theorem bfi32_none (a b : Word) {c : Word} (empty : NoField c) : bfi32 a b c = b := by
  rw [bfi32, bitField_none empty]

/-- The mask of m bits from bit pos. -/
theorem getLsbD_fieldMask (pos m : Nat) {i : Nat} (hi : i < 32) :
    (BitVec.ofNat 32 ((2 ^ m - 1) * 2 ^ pos)).getLsbD i = (decide (pos ≤ i) && decide (i - pos < m)) := by
  rw [BitVec.getLsbD_ofNat, Nat.testBit_mul_two_pow, Nat.testBit_two_pow_sub_one, decide_eq_true hi, Bool.true_and]

theorem getLsbD_bfi32 (a b : Word) {c : Word} (named : ¬NoField c) {i : Nat} (hi : i < 32) :
    (bfi32 a b c).getLsbD i =
      if fieldPos c ≤ i ∧ i < fieldPos c + fieldLen c then a.getLsbD (i - fieldPos c) else b.getLsbD i := by
  rw [bfi32, bitField_some named]
  simp only [BitVec.getLsbD_or, BitVec.getLsbD_and, BitVec.getLsbD_not, BitVec.getLsbD_shiftLeft, getLsbD_fieldMask _ _ hi]
  by_cases low : i < fieldPos c
  · have before : ¬fieldPos c ≤ i := by omega
    simp [before, hi]
  · have after : fieldPos c ≤ i := by omega
    have inside : i - fieldPos c < fieldLen c ↔ i < fieldPos c + fieldLen c := by omega
    by_cases within : i < fieldPos c + fieldLen c <;> simp [after, low, hi, inside, within]

/-! ## Bytes (R130) -/

theorem elemAt_nibble_lt (x i : Nat) : elemAt x 4 i < 16 := Nat.mod_lt _ (by decide)

/-- A byte of BPERM: the byte that a nibble names, or copies of its sign bit. -/
theorem bpermByte_eq (pool : Dword) {n : Nat} (nibble : n < 16) : bpermByte pool n =
    let x := elemAt pool.toNat 8 (n % 8)
    if n < 8 then x else if 128 ≤ x then 255 else 0 := by
  have high : n / 8 = 1 ↔ ¬n < 8 := by omega
  simp only [bpermByte, high, ite_not]
  rfl

theorem bpermByte_lt (pool : Dword) (n : Nat) : bpermByte pool n < 256 := by
  have byte : pool.toNat / 2 ^ (8 * (n % 8)) % 256 < 256 := Nat.mod_lt _ (by decide)
  simp only [bpermByte]
  split
  · split <;> decide
  · exact byte

theorem elemAt_bperm32 (a b c : Word) {i : Nat} (hi : i < 4) :
    elemAt (bperm32 a b c).toNat 8 i = bpermByte (joinWords a b) (elemAt c.toNat 4 i) :=
  (elemAt_packWord 8 (fun i => bpermByte (joinWords a b) (elemAt c.toNat 4 i)) hi).trans
    (Nat.mod_eq_of_lt (bpermByte_lt ..))

/-! ## Counts of bits (R131) -/

theorem popc32_eq (a : Word) : popc32 a = (List.range 32).countP fun i => a.getLsbD i :=
  (List.countP_eq_length_filter ..).symm

theorem clz32_le (a : Word) : clz32 a ≤ 32 := by
  unfold clz32
  split <;> omega

theorem log2_word_lt {a : Word} (pos : a ≠ 0#32) : a.toNat.log2 < 32 :=
  (Nat.log2_lt fun zero => pos (BitVec.eq_of_toNat_eq zero)).2 a.isLt

/-- The highest set bit of a word that is not 0 stands below the zeros that CLZ counts. -/
theorem clz32_of_ne_zero {a : Word} (pos : a ≠ 0#32) : clz32 a = 31 - a.toNat.log2 := if_neg pos

/-- No bit among the highest that CLZ counts is set. -/
theorem getLsbD_above_clz32 (a : Word) {i : Nat} (above : 32 ≤ i + clz32 a) : a.getLsbD i = false := by
  by_cases zero : a = 0#32
  · simp [zero]
  · have low := log2_word_lt zero
    rw [clz32_of_ne_zero zero] at above
    have beyond : a.toNat < 2 ^ i := Nat.lt_log2_self.trans_le (Nat.pow_le_pow_right (by decide) (by omega))
    exact Nat.testBit_lt_two_pow beyond

/-- The bit below them is set. -/
theorem getLsbD_at_clz32 {a : Word} (found : clz32 a < 32) : a.getLsbD (31 - clz32 a) = true := by
  by_cases zero : a = 0#32
  · simp [zero, clz32] at found
  · have low := log2_word_lt zero
    rw [clz32_of_ne_zero zero, show 31 - (31 - a.toNat.log2) = a.toNat.log2 by omega]
    exact Nat.testBit_log2 fun h => zero (BitVec.eq_of_toNat_eq h)

/-! ## Values of 64 bits and conversions (R133 to R135) -/

theorem isat32_value (signed : Bool) (a b : Word) : (isat32 signed a b).1 =
    let x := (b.extractLsb' 0 6).toNat
    BitVec.ofInt 32 (clampTo signed (if x = 0 ∨ 32 < x then 32 else x) a.toInt) :=
  congrArg (BitVec.ofInt 32) (sat_value ..)

theorem isat32_flag (signed : Bool) (a b : Word) :
    let x := (b.extractLsb' 0 6).toNat
    StWhen (isat32 signed a b).2 (OutOfRange signed (if x = 0 ∨ 32 < x then 32 else x) a.toInt) := sat_flag ..

theorem wide64_sat_value (signed : Bool) (x : Int) : (wide64 signed true x).1 = BitVec.ofInt 64 (clampTo signed 64 x) :=
  congrArg (BitVec.ofInt 64) (sat_value ..)

theorem wide64_sat_flag (signed : Bool) (x : Int) : StWhen (wide64 signed true x).2 (OutOfRange signed 64 x) := sat_flag ..

theorem icvtTo_value (ty : Nat) (sat : Bool) (x : Int) :
    (icvtTo ty sat x).1 = if sat then clampTo (typeSigned ty) (typeWidth ty) x else x := by
  cases sat
  · rfl
  · exact sat_value ..

theorem icvtTo_flag (ty : Nat) (sat : Bool) (x : Int) :
    StWhen (icvtTo ty sat x).2 (sat = true ∧ OutOfRange (typeSigned ty) (typeWidth ty) x) := by
  cases sat
  · exact .clear (by simp)
  · exact (sat_flag ..).congr (by simp)

end Sys2Proof.Machine
end

section
/-! SUPPORT. What a word leaves that issues and writes one value in each lane, with no flag or with ST alone (R42, R121). -/

namespace Sys2Proof.Machine

variable {s : State} {k : Ctl} {d : Operand}

/-- A word whose instruction is run by the common way does what its body says where it issues. -/
theorem exec_next {i : Instr} {body : State → State} (issues : Issues s k i)
    (run : exec i s = issue s k i body := by rfl) : exec i s = .next (body s) := run.trans (issue_next issues body)

/-- A 32-bit value without flags, known lane by lane. -/
theorem value32_wrote_lanes {a g : Nat → Word} (lane : ∀ l, a l = g l) :
    Wrote32 s (s.value32 k d fun l => (a l, 0#6)) k d 0#6 g := by
  rw [← funext lane]
  exact value32_wrote_plain s k d a

/-- The same for a 64-bit value. -/
theorem value64_wrote_lanes {a g : Nat → Dword} (lane : ∀ l, a l = g l) :
    Wrote64 s (s.value64 k d fun l => (a l, 0#6)) k d 0#6 g := by
  have wrote := value64_wrote s k d fun l => (a l, 0#6)
  rw [flagsOver_zero] at wrote
  rw [← funext lane]
  exact wrote

/-- A 32-bit value that may be clamped, known lane by lane. -/
theorem value32_wrote_st {a : Nat → Word × Flags} {g : Nat → Word} {p : Nat → Prop} (lane : ∀ l, (a l).1 = g l)
    (flag : ∀ l, StWhen (a l).2 (p l)) : ∃ fl, StWhen fl (∃ l, l < 32 ∧ (s.me.eff k).getLsbD l = true ∧ p l) ∧
      Wrote32 s (s.value32 k d a) k d fl g := by
  rw [← funext lane]
  exact ⟨_, .lanes s.me k flag, value32_wrote s k d a⟩

/-- The same for a 64-bit value. -/
theorem value64_wrote_st {a : Nat → Dword × Flags} {g : Nat → Dword} {p : Nat → Prop} (lane : ∀ l, (a l).1 = g l)
    (flag : ∀ l, StWhen (a l).2 (p l)) : ∃ fl, StWhen fl (∃ l, l < 32 ∧ (s.me.eff k).getLsbD l = true ∧ p l) ∧
      Wrote64 s (s.value64 k d a) k d fl g := by
  rw [← funext lane]
  exact ⟨_, .lanes s.me k flag, value64_wrote s k d a⟩

/-! ## The sources of IADD64 and ICVT (R134, R135) -/

/-- The integer that ICVT converts. -/
def icvtSource (s : State) (src : Nat) (o : Operand) (l : Nat) : Int :=
  if 3 ≤ src then asInt (typeSigned src) 64 (rd64 s s.me o l).toNat else asInt (typeSigned src) 32 (rd s s.me o l).toNat

/-- The source TYPE of a legal ICVT (R135). -/
theorem icvt_minor {k : Ctl} {f : VFields} (wf : legal (.icvt k f) = true) : f.minor.toNat ∈ [1, 2, 3, 4] :=
  (vsig_fields (sig_fields_of_legal wf)).2.1

/-- The form of a legal IADD64 (R134). -/
theorem iadd64_minor {k : Ctl} {f : VFields} (wf : legal (.iadd64 k f) = true) :
    f.minor = 0#5 ∨ f.minor = 1#5 ∨ f.minor = 2#5 := by
  obtain ⟨-, listed, -⟩ := vsig_fields (sig_fields_of_legal wf)
  have bound := List.mem_range.1 listed
  simp only [BitVec.toNat_eq, BitVec.toNat_ofNat]
  omega

/-- The integer that IADD64 adds: the operand of its TYPE, or 32 bits zero-extended or sign-extended (R134). -/
def iadd64Addend (s : State) (f : VFields) (l : Nat) : Int :=
  if f.minor = 0#5 then asInt (f.ty == 4#4) 64 (rd64 s s.me f.b l).toNat
  else if f.minor = 1#5 then (rd s s.me f.b l).toNat
  else (rd s s.me f.b l).toInt

theorem exec_iadd64 {s : State} {k : Ctl} {f : VFields} (issues : Issues s k (.iadd64 k f)) :
    exec (.iadd64 k f) s = .next (s.value64 k f.d fun l =>
      wide64 (f.ty == 4#4) (f.mod == 1#4) (asInt (f.ty == 4#4) 64 (rd64 s s.me f.a l).toNat + iadd64Addend s f l)) := by
  rw [exec, execIadd64, issue_next issues]
  simp only [iadd64Addend, BitVec.toNat_eq]
  generalize f.minor.toNat = m
  match m with
  | 0 | 1 | _ + 2 => rfl

end Sys2Proof.Machine
end

section
/-! PROOFS. The statements about integer words (R124 to R135). -/

namespace Sys2Proof.Claims

open Sys2Proof.Machine

/-- Settles O11: each word writes its value in each lane; IADD and ISUB work element by element (`value32_wrote_elems`), and
IMULH is the high half of the extended product (`mulHigh_eq`). -/
theorem movesAndArithmetic : Obligations.MovesAndArithmetic := by
  refine ⟨fun s k => ⟨fun f issues => ?mov, fun f issues => ?movk, fun f issues => ?sel⟩,
    fun s k f => ⟨fun issues => ?iadd, fun issues => ?isub⟩,
    fun s k f => ⟨fun issues => ?imul, fun issues => ?imulh, fun issues => ?imad⟩⟩
  all_goals refine ⟨_, exec_next issues, ?_⟩
  case mov =>
    by_cases wide : f.ty = 3#4 <;> simp only [wide, if_true, if_false]
    · exact value64_wrote_lanes fun _ => rfl
    · exact value32_wrote_plain ..
  case movk =>
    by_cases word : f.func = 0#8 <;> simp only [word, if_true, if_false]
    · exact value32_wrote_plain ..
    · by_cases signed : f.func = 1#8 <;> simp only [signed, if_true, if_false]
      · exact value64_wrote_lanes fun _ => rfl
      · exact value64_wrote_lanes fun _ => rfl
  case sel =>
    refine value32_wrote_lanes fun l => ?_
    by_cases same : s.me.pred (regNum f.c) l = f.mod.getLsbD 0 <;> simp [same]
  case iadd => exact value32_wrote_elems s k f.d _ _ _ (fun x y => asInt _ _ x + asInt _ _ y) _ _
  case isub => exact value32_wrote_elems s k f.d _ _ _ (fun x y => asInt _ _ x - asInt _ _ y) _ _
  case imulh =>
    refine value32_wrote_lanes fun l => (mulHigh_eq ..).trans ?_
    simp only [beq_iff_eq]
  case imul | imad => exact value32_wrote_plain ..

/-- Settles O12: IMIN and IMAX pick one operand's element; IABS and INEG are elementwise, and only the most negative element
leaves its range; ISAT and ICVT clamp one value in each lane. -/
theorem integerRanges : Obligations.IntegerRanges := by
  constructor
  · intro s k f n sg el
    refine ⟨fun issues => ?imin, fun issues => ?imax, ?_⟩
    case imin => exact ⟨_, exec_next issues, _, value32_wrote_plain .., fun l e _ he => elemAt_min _ _ _ he⟩
    case imax => exact ⟨_, exec_next issues, _, value32_wrote_plain .., fun l e _ he => elemAt_max _ _ _ he⟩
    intro ranged
    have clamped (neg : Bool) : ranged (s.value32 k f.d fun l => absNeg f.ty.toNat (f.mod == 1#4) neg (rd s s.me f.a l))
        (absNegValue neg) := by
      obtain ⟨fl, g, wrote, elems, one, flag⟩ := value32_wrote_elems s k f.d true (f.mod == 1#4) n
        (fun x _ => absNegValue neg (asInt true n x)) (rd s s.me f.a) fun _ => 0#32
      refine ⟨fl, g, wrote, elems, one, flag.trans ?_⟩
      simp only [outOfRange_absNegValue, beq_iff_eq, el]
    refine ⟨fun issues => ⟨_, exec_next issues, ?_⟩, fun issues => ⟨_, exec_next issues, ?_⟩⟩
    · exact clamped false
    · exact clamped true
  · intro s k f wide' n v w sg y
    refine ⟨fun issues => ⟨_, exec_next issues, ?isat⟩, fun issues => ⟨_, exec_next issues, ?icvt⟩⟩
    case isat =>
      obtain ⟨fl, ⟨one, flag⟩, wrote⟩ := value32_wrote_st (s := s) (k := k) (d := f.d)
        (fun l => isat32_value (f.ty == 2#4) (rd s s.me f.a l) (rd s s.me f.b l)) fun l => isat32_flag ..
      exact ⟨fl, one, wrote, flag⟩
    case icvt =>
      have value (l : Nat) : icvtSource s f.minor.toNat f.a l = v l := by
        have listed := icvt_minor issues.fields
        simp only [v, wide']
        generalize f.minor.toNat = m at listed
        match m with
        | 1 => exact asInt_unsigned _
        | 2 => exact asInt_signed _
        | 3 => exact asInt_unsigned _
        | 4 => exact asInt_signed _
      have lane (l : Nat) : (icvtTo f.ty.toNat (f.mod == 1#4) (icvtSource s f.minor.toNat f.a l)).1 = y l := by
        rw [icvtTo_value, value]
        simp only [beq_iff_eq, y, sg, w]
      have flag (l : Nat) : StWhen (icvtTo f.ty.toNat (f.mod == 1#4) (icvtSource s f.minor.toNat f.a l)).2
          (f.mod = 1#4 ∧ OutOfRange sg w (v l)) := by
        rw [← value]
        exact (icvtTo_flag ..).congr (by simp only [beq_iff_eq, sg, w])
      have gather {p : Prop} {q : Nat → Prop} : (∃ l, l < 32 ∧ (s.me.eff k).getLsbD l = true ∧ p ∧ q l) ↔
          p ∧ ∃ l, l < 32 ∧ (s.me.eff k).getLsbD l = true ∧ q l := by grind
      by_cases wide : 3 ≤ f.ty.toNat <;> simp only [wide, if_true, if_false]
      · obtain ⟨fl, ⟨one, st⟩, wrote⟩ := value64_wrote_st (s := s) (k := k) (d := f.d)
          (a := fun l => (BitVec.ofInt 64 _, _)) (fun l => congrArg (BitVec.ofInt 64) (lane l)) flag
        exact ⟨fl, one, wrote, st.trans gather⟩
      · obtain ⟨fl, ⟨one, st⟩, wrote⟩ := value32_wrote_st (s := s) (k := k) (d := f.d)
          (a := fun l => (BitVec.ofInt 32 _, _)) (fun l => congrArg (BitVec.ofInt 32) (lane l)) flag
        exact ⟨fl, one, wrote, st.trans gather⟩

/-- Settles O13: the bitwise words are the operators themselves; shifts, rotates, fields, bytes and counts are known bit by bit
(`getLsbD_rot32`, `getLsbD_bfx32`, `getLsbD_bfi32`, `elemAt_bperm32`, `getLsbD_above_clz32`). -/
theorem bitsAndShifts : Obligations.BitsAndShifts := by
  constructor
  · intro s k f a b
    refine ⟨?and, ?or, ?xor, ?andn, fun issues => ⟨_, exec_next issues, value32_wrote_lanes fun l => shl32_eq ..⟩,
      fun issues => ⟨_, exec_next issues, value32_wrote_lanes fun l => shr32_eq ..⟩,
      fun issues => ⟨_, exec_next issues, value32_wrote_lanes fun l => sar32_eq ..⟩,
      fun issues => ⟨_, exec_next issues, _, value32_wrote_plain .., fun l i _ hi => ?rot⟩⟩
    case and | or | xor | andn => exact fun issues => ⟨_, exec_next issues, value32_wrote_plain ..⟩
    case rot =>
      refine (getLsbD_rot32 _ _ _ hi).trans ?_
      simp only [beq_iff_eq, a, b]
  · intro s k f a b c pos len none' m
    refine ⟨fun issues => ⟨_, exec_next issues, _, value32_wrote_plain .., fun l i _ hi => ?bfx⟩,
      fun issues => ⟨_, exec_next issues, _, value32_wrote_plain .., fun l i _ hi => ?bfi⟩,
      fun issues => ⟨_, exec_next issues, _, value32_wrote_plain .., fun l i _ hi => ?bperm⟩,
      fun issues => ⟨_, exec_next issues, value32_wrote_lanes fun l => congrArg (BitVec.ofNat 32) (popc32_eq _)⟩,
      fun issues => ⟨_, exec_next issues, _, value32_wrote_plain .., fun l _ => ?clz⟩,
      fun issues => ⟨_, exec_next issues, _, value32_wrote_plain .., fun l i _ hi => getLsbD_maskOf _ _ hi⟩⟩
    case bfx =>
      refine ⟨fun empty => ?_, fun named inside => ?_, fun named past => ?_⟩
      · rw [bfx32_none _ _ empty, BitVec.getLsbD_zero]
      · exact (getLsbD_bfx32 _ _ named hi).trans (if_pos inside)
      · exact (getLsbD_bfx32 _ _ named hi).trans (if_neg (Nat.not_lt.2 past))
    case bfi =>
      refine ⟨fun empty => ?_, fun named => getLsbD_bfi32 _ _ named hi⟩
      rw [bfi32_none _ _ empty]
    case bperm => exact (elemAt_bperm32 _ _ _ hi).trans (bpermByte_eq _ (elemAt_nibble_lt ..))
    case clz =>
      have le := clz32_le (a l)
      rw [BitVec.toNat_ofNat, Nat.mod_eq_of_lt (lt_of_le_of_lt le (by decide))]
      exact ⟨le, fun i _ => getLsbD_above_clz32 (a l), getLsbD_at_clz32⟩

/-- Settles O15: sums and products of extended operands are those of their integers, which `BitVec.ofInt` keeps; with .sat
IADD64 clamps the exact sum. -/
theorem wideArithmetic : Obligations.WideArithmetic := by
  intro s k f ext e32
  refine ⟨fun wraps issues => ⟨_, exec_iadd64 issues, ?wrap⟩, fun clamps issues => ⟨_, exec_iadd64 issues, ?clamp⟩,
    fun issues => ⟨_, exec_next issues, value64_wrote_lanes fun l => ?imad64⟩,
    fun issues => ⟨_, exec_next issues, value64_wrote_lanes fun _ => rfl⟩⟩
  case wrap =>
    have operand (x : Dword) : BitVec.ofInt 64 (asInt (f.ty == 4#4) 64 x.toNat) = x := by
      rw [ofInt_asInt_toNat, BitVec.signExtend_eq, BitVec.setWidth_eq, ite_self]
    have addend (l : Nat) : BitVec.ofInt 64 (iadd64Addend s f l) = ext l := by
      simp only [iadd64Addend, ext]
      split
      · exact operand _
      · split
        · exact BitVec.ofNat_toNat ..
        · rfl
    have plain : (f.mod == 1#4) = false := by rw [wraps]; rfl
    simp only [plain, wide64, Bool.false_eq_true, if_false]
    exact value64_wrote_lanes fun l => (BitVec.ofInt_add ..).trans (congrArg₂ (· + ·) (operand _) (addend l))
  case clamp =>
    obtain ⟨fl, st, wrote⟩ := value64_wrote_st (s := s) (k := k) (d := f.d)
      (fun l => wide64_sat_value (f.ty == 4#4) (asInt (f.ty == 4#4) 64 (rd64 s s.me f.a l).toNat + iadd64Addend s f l))
      fun l => wide64_sat_flag ..
    refine ⟨fl, ?_⟩
    intro sg num x
    have addend (l : Nat) : iadd64Addend s f l =
        if f.minor = 2#5 then (ext l).toInt else if f.minor = 1#5 then ((ext l).toNat : Int) else num (ext l) := by
      simp only [iadd64Addend, ext, num, sg]
      rcases iadd64_minor issues.fields with form | form | form <;> rw [form]
      · exact asInt_dword ..
      · exact congrArg Int.ofNat (BitVec.toNat_setWidth_of_le (by decide)).symm
      · exact (BitVec.toInt_signExtend_of_le (by decide)).symm
    have sum (l : Nat) : asInt (f.ty == 4#4) 64 (rd64 s s.me f.a l).toNat + iadd64Addend s f l = x l :=
      congrArg₂ (· + ·) (asInt_dword ..) (addend l)
    have sat : (f.mod == 1#4) = true := by rw [clamps]; rfl
    simp only [sum] at st wrote
    simp only [sat, sum]
    exact ⟨st.1, wrote, st.2⟩
  case imad64 =>
    rw [BitVec.ofInt_add, BitVec.ofInt_mul, ofInt_asInt_toNat, ofInt_asInt_toNat, BitVec.ofInt_natCast, BitVec.ofNat_toNat,
      BitVec.setWidth_eq]
    simp only [beq_iff_eq, e32]

end Sys2Proof.Claims
end

section
/-! SUPPORT. Unions of one flag over elements and lanes (R42), the destinations of floating words (R137), and what the
arithmetic words, FMIN, FMAX, FCLASS and the conversions give in a lane (R140 to R149). -/

namespace Sys2Proof.Machine

/-! ## Unions of one flag (R42) -/

theorem flagIf_or (x y : Bool) (f : Flags) : flagIf x f ||| flagIf y f = flagIf (x || y) f := by
  cases x <;> cases y <;> simp [flagIf]

theorem orFlags_flagIf {α : Type} (xs : List α) (p : α → Bool) (f : Flags) :
    orFlags (xs.map fun x => flagIf (p x) f) = flagIf (xs.any p) f := by
  induction xs with
  | nil => rfl
  | cons x xs ih => rw [List.map_cons, orFlags, ih, flagIf_or, List.any_cons]

theorem flagIf_cases (p : Bool) (f : Flags) : flagIf p f = f ∨ flagIf p f = 0#6 := by
  cases p
  · exact .inr rfl
  · exact .inl rfl

theorem flagIf_fIV_iff (p : Bool) : flagIf p fIV = fIV ↔ p = true := by cases p <;> decide

/-- A word raises a flag where a lane of effective does. -/
theorem flagsOver_flagIf (w : Warp) (k : Ctl) (p : Nat → Bool) (f : Flags) :
    flagsOver w k (fun l => flagIf (p l) f) = flagIf ((dstLanes w k).any p) f := orFlags_flagIf ..

theorem anySnan_one (a : Num) : anySnan [a] = flagIf a.isSnan fIV := by simp [anySnan]

/-! ## Destinations (R137) -/

/-- A destination position holds a v-register or an s-register. -/
theorem vector_or_scalar_of_ok {x : Slot} (imm : x.imm = false) (fp : x.fp = false)
    (sp : x.sp = false) (none : x.none = false) {o : Operand} (h : x.ok o = true) : (∃ n, o = .v n) ∨ ∃ n, o = .s n := by
  cases o with
  | v n => exact .inl ⟨n, rfl⟩
  | s n => exact .inr ⟨n, rfl⟩
  | imm n => simp [Slot.ok, imm] at h
  | fp n => simp [Slot.ok, fp] at h
  | sp y => cases y <;> simp [Slot.ok, sp] at h
  | none => simp [Slot.ok, none] at h

theorem dst_of_ok {n : Nat} {o : Operand} (h : (Slot.dst n).ok o = true) : (∃ n, o = .v n) ∨ ∃ n, o = .s n :=
  vector_or_scalar_of_ok rfl rfl rfl rfl h

/-! ## The elements of a floating type (R73, R137) -/

theorem fpType_packed {ty : Nat} (packed : ty = 8 ∨ ty = 9) : (fpType ty).2 = (16, 2) := by
  rcases packed with rfl | rfl <;> rfl

theorem fpType_single {ty : Nat} (single : ¬(ty = 8 ∨ ty = 9)) : (fpType ty).2 = (if ty = 6 then 64 else 32, 1) := by
  unfold fpType
  split
  case h_1 | h_2 => rfl
  case h_3 | h_4 => simp at single
  case h_5 other _ _ _ => rw [if_neg other]

/-! ## The arithmetic words (R141) -/

section
variable (s : State) (k : Ctl) (f : VFields) (op : Bool → Num → Num → Num → Num × Flags)

/-- What an arithmetic word rounds in element e of lane l. -/
def fpExact (l e : Nat) : Num × Flags :=
  let r := rndOf s s.me
  let x (i : Nat) (o : Operand) : Num := fpElem r f.ty.toNat (f.mod.getLsbD i) (rdFp s s.me f.ty.toNat o l) e
  op (r.mode == 3) (x 0 f.a) (x 1 f.b) (x 2 f.c)

/-- What an arithmetic word gives in lane l: its elements rounded from first to last. -/
def fpArithLane (l : Nat) (sd : Word) : Lane :=
  let x := seqElems (fun e sd => roundOne (rndOf s s.me) (fpType f.ty.toNat).1 (fpExact s f op l e) sd)
    (List.range (fpType f.ty.toNat).2.2) sd
  (packElems (fpType f.ty.toNat).2.1 x.1, x.2)

theorem fpArith_eq : s.fpArith k f op = s.fpWord k f.d (f.ty.toNat == 6) (fpArithLane s f op) := rfl

theorem fpArithLane_packed (packed : f.ty.toNat = 8 ∨ f.ty.toNat = 9) (l : Nat) (sd : Word) :
    let x := roundOne (rndOf s s.me) (fpType f.ty.toNat).1 (fpExact s f op l 0) sd
    let y := roundOne (rndOf s s.me) (fpType f.ty.toNat).1 (fpExact s f op l 1) x.2.2
    fpArithLane s f op l sd = (x.1 % 2 ^ 16 + 2 ^ 16 * (y.1 % 2 ^ 16), x.2.1 ||| y.2.1, y.2.2) := by
  have two : List.range 2 = [0, 1] := rfl
  simp only [fpArithLane, fpType_packed packed, two, seqElems, packElems, mul_zero, add_zero, BitVec.or_zero]

theorem fpArithLane_single (single : ¬(f.ty.toNat = 8 ∨ f.ty.toNat = 9)) (l : Nat) (sd : Word) :
    let x := roundOne (rndOf s s.me) (fpType f.ty.toNat).1 (fpExact s f op l 0) sd
    fpArithLane s f op l sd = (x.1 % 2 ^ (if f.ty.toNat = 6 then 64 else 32), x.2) := by
  have one : List.range 1 = [0] := rfl
  simp only [fpArithLane, fpType_single single, one, seqElems, packElems, mul_zero, add_zero, BitVec.or_zero]

/-- An arithmetic word rounds each element of each lane once, in order. -/
theorem fpArith_wrote (dst : (∃ n, f.d = .v n) ∨ ∃ n, f.d = .s n) :
    WroteRounded s (s.fpArith k f op) k f (fpExact s f op) := by
  refine ⟨fpArithLane s f op, fpArith_eq s k f op ▸ fpWord_wrote s k f.d _ _ dst, fun l sd => ?_⟩
  split
  case isTrue packed => exact fpArithLane_packed s f op packed l sd
  case isFalse single =>
    rw [fpArithLane_single s f op single]
    refine ⟨Nat.mod_eq_of_lt ((Nat.mod_lt _ (by positivity)).trans_le (Nat.pow_le_pow_right (by decide) ?_)), rfl⟩
    split <;> decide

end

/-! ## FMIN and FMAX (R142) -/

theorem pickElem_eq (f : FpFmt) (dnf max : Bool) (a b : Nat) : pickElem f dnf max a b =
    ((roundTo f (lesserOf max (f.decodeSrc dnf a) (f.decodeSrc dnf b)) 0 false 0).1,
      flagIf ((f.decodeSrc dnf a).isSnan || (f.decodeSrc dnf b).isSnan) fIV) := by
  simp only [pickElem, pickNum_lesserOf, pickNum_flags]

section
variable (s : State) (k : Ctl) (f : VFields) (max : Bool)

/-- Element e of a floating operand, as FMIN and FMAX read it. -/
def fpSource (o : Operand) (l e : Nat) : Num :=
  (fpType f.ty.toNat).1.decodeSrc (rndOf s s.me).dnf (elemAt (rdFp s s.me f.ty.toNat o l) (fpType f.ty.toNat).2.1 e)

/-- Element e of what FMIN and FMAX give in lane l. -/
def fpPicked (l e : Nat) : Nat :=
  (roundTo (fpType f.ty.toNat).1 (lesserOf max (fpSource s f f.a l e) (fpSource s f f.b l e)) 0 false 0).1

/-- Does an element of lane l hold a signalling NaN? -/
def fpSignalling (l : Nat) : Bool :=
  (List.range (fpType f.ty.toNat).2.2).any fun e => (fpSource s f f.a l e).isSnan || (fpSource s f f.b l e).isSnan

theorem fpPick_eq : s.fpPick k f max = s.fpWord k f.d false fun l sd =>
    (packElems (fpType f.ty.toNat).2.1 ((List.range (fpType f.ty.toNat).2.2).map (fpPicked s f max l)),
      flagIf (fpSignalling s f l) fIV, sd) := by
  unfold State.fpPick
  simp only [pickElem_eq, List.map_map, Function.comp_def, fpSignalling, ← orFlags_flagIf]
  rfl

end

/-! ## Comparisons (R143) -/

theorem fpElem_plain (ty bits : Nat) :
    fpElem ⟨0, false, false⟩ ty false bits 0 = (fpType ty).1.decode (elemAt bits (fpType ty).2.1 0) :=
  FpFmt.decodeSrc_false ..

/-- The ordered relations raise IV for any NaN, the others for a signalling one. -/
theorem fpCond_flags (c : Nat) (a b : Num) : (fpCond c a b).2 =
    flagIf (if 2 ≤ c ∧ c ≤ 5 then a.isNan || b.isNan else a.isSnan || b.isSnan) fIV := by
  match c with
  | 0 | 1 | 6 => exact anySnan_pair a b
  | 2 | 3 | 4 | 5 => rfl
  | c + 7 =>
    rw [if_neg (by omega)]
    exact anySnan_pair a b

/-! ## FCLASS (R144) -/

/-- The bit that names the class of a code. -/
def classBitOf (f : FpFmt) (u : Nat) : Nat :=
  match f.decode u with
  | .inf neg => if neg then 0 else 7
  | .nan _ quiet _ => if quiet then 9 else 8
  | .fin neg m _ =>
    if m = 0 then if neg then 3 else 4
    else if f.subnormal u then if neg then 2 else 5
    else if neg then 1 else 6

theorem classOf_eq (f : FpFmt) (u : Nat) : classOf f u = 2 ^ classBitOf f u := by
  unfold classOf classBitOf
  cases f.decode u with
  | nan neg quiet x => cases quiet <;> rfl
  | inf neg => cases neg <;> rfl
  | fin neg m e => by_cases zero : m = 0 <;> cases f.subnormal u <;> cases neg <;> simp [zero]

theorem classBitOf_lt (f : FpFmt) (u : Nat) : classBitOf f u < 10 := by
  unfold classBitOf
  repeat' split
  all_goals decide

/-! ## Conversions (R145 to R147) -/

/-- A rounding without flags of its own beforehand. -/
theorem roundOne_zero (r : Rnd) (f : FpFmt) (x : Num) (seed : Word) : roundOne r f (x, 0#6) seed = r.to f x seed := by
  simp only [roundOne, Rnd.to, Rnd.step, BitVec.zero_or]

theorem f64_type (ty : BitVec 4) : (ty == 6#4) = (ty.toNat == 6) := by
  rw [Bool.eq_iff_iff, beq_iff_eq, beq_iff_eq, BitVec.toNat_eq]
  rfl

/-- FRND of a finite value: kept where it is integral, else the integer that its magnitude rounds to. -/
theorem frndTo_fin (f : FpFmt) (mode : Nat) (neg : Bool) (m : Nat) (e : Int) (seed : Nat) :
    let q := roundUnits mode neg m e 0 seed
    frndTo f mode (.fin neg m e) seed =
      ((roundTo f (if q.2 then .fin neg m e else .fin neg q.1 0) 0 false 0).1, flagIf (!q.2) fNX) := by
  simp only [frndTo]
  cases (roundUnits mode neg m e 0 seed).2 <;> rfl

/-- FRND of any other value makes a NaN quiet. -/
theorem frndTo_other (f : FpFmt) (mode : Nat) {x : Num} (other : ∀ neg m e, x ≠ .fin neg m e) (seed : Nat) :
    frndTo f mode x seed = ((roundTo f x.quieten 0 false 0).1, flagIf x.isSnan fIV) := by
  cases x with
  | nan | inf => rw [frndTo, anySnan_one]; intro neg m e h; cases h
  | fin neg m e => exact absurd rfl (other neg m e)

/-- An infinity becomes the end of the range, where far values are clamped to. -/
theorem roundToInt_inf (signed neg : Bool) {n : Nat} (width : n ≤ 64) (mode seed : Nat) :
    roundToInt signed n (.inf neg) mode seed = (clampTo signed n (if neg then -(2 ^ 70) else 2 ^ 70), fST) := by
  have full : (2 : Int) ^ n ≤ 2 ^ 64 := pow_le_pow_right₀ (by decide) width
  have half : (2 : Int) ^ (n - 1) ≤ 2 ^ 64 := pow_le_pow_right₀ (by decide) (by omega)
  have fullPos : (0 : Int) < 2 ^ n := by positivity
  have halfPos : (0 : Int) < 2 ^ (n - 1) := by positivity
  refine Prod.ext ?_ rfl
  cases signed <;> cases neg <;> simp only [roundToInt, clampTo, Bool.false_eq_true, if_false, if_true] <;> grind

/-- A rounded integer is clamped to the range, with ST and NX where it lies outside. -/
theorem roundToInt_fin (signed : Bool) (n : Nat) (neg : Bool) (m : Nat) (e : Int) (mode seed : Nat) :
    let q := roundUnits mode neg m e 0 seed
    let v : Int := if neg then -(q.1 : Int) else q.1
    (roundToInt signed n (.fin neg m e) mode seed).1 = clampTo signed n v ∧
      (OutOfRange signed n v → (roundToInt signed n (.fin neg m e) mode seed).2 = fST ||| fNX) ∧
      (¬OutOfRange signed n v → (roundToInt signed n (.fin neg m e) mode seed).2 = flagIf (!q.2) fNX) := by
  intro q v
  have fullPos : (0 : Int) < 2 ^ n := by positivity
  have halfPos : (0 : Int) < 2 ^ (n - 1) := by positivity
  have run : roundToInt signed n (.fin neg m e) mode seed =
    let lo : Int := if signed then -(2 ^ (n - 1) : Nat) else 0
    let hi : Int := if signed then (2 ^ (n - 1) : Nat) - 1 else (2 ^ n : Nat) - 1
    if v < lo then (lo, fST ||| fNX) else if hi < v then (hi, fST ||| fNX) else (v, flagIf (!q.2) fNX) := rfl
  rw [run]
  generalize v = v
  cases signed <;> simp only [clampTo, OutOfRange, Bool.false_eq_true, if_false, if_true] <;> push_cast
  · split
    · refine ⟨?_, ?_, ?_⟩ <;> grind
    · split <;> refine ⟨?_, ?_, ?_⟩ <;> grind
  · split
    · refine ⟨?_, ?_, ?_⟩ <;> grind
    · split <;> refine ⟨?_, ?_, ?_⟩ <;> grind

theorem typeWidth_le (ty : Nat) : typeWidth ty ≤ 64 := by
  unfold typeWidth
  repeat' split
  all_goals decide

/-- The integer that I2F converts: 32 or 64 bits, read as the source's type says (R147). -/
def i2fSource (s : State) (ty : Nat) (o : Operand) (l : Nat) : Int :=
  match ty with
  | 1 => (rd s s.me o l).toNat
  | 3 => (rd64 s s.me o l).toNat
  | 4 => (rd64 s s.me o l).toInt
  | _ => (rd s s.me o l).toInt

theorem intSource_eq (s : State) (o : Operand) (l : Nat) {ty : Nat} (listed : ty ∈ [1, 2, 3, 4]) :
    intSource s s.me ty o l = i2fSource s ty o l := by
  match ty with
  | 1 => exact asInt_unsigned _
  | 2 => exact asInt_signed _
  | 3 => exact asInt_unsigned _
  | 4 => exact asInt_signed _

/-! ## PACK and UNPK (R148, R149) -/

theorem scaleOf_eq (s : State) (o : Operand) (l : Nat) :
    scaleOf s s.me o l = if o = .none then .fin false 1 0 else decF32 (rd s s.me o l) := by
  cases o <;> rfl

/-- The elements of a word with a pair replaced. -/
theorem elemAt_insertPair (old bits h e0 e1 : Nat) {i : Nat} (hi : i < 32 / bits) :
    elemAt (insertPair old bits h e0 e1) bits i =
      if i = 2 * h then e0 % 2 ^ bits else if i = 2 * h + 1 then e1 % 2 ^ bits else elemAt old bits i := by
  rw [insertPair, elemAt_packElems _ _ (by simpa using hi)]
  simp only [List.getElem_map, List.getElem_range]
  split
  · rfl
  split
  · rfl
  · exact elemAt_mod ..

end Sys2Proof.Machine
end

section
/-! SUPPORT. FSTAT, with the flags of outstanding words that it may find (R99, R153), and the writing of SEED (R154). -/

namespace Sys2Proof.Machine

variable {s : State} {k : Ctl} {f : VFields}

/-! ## FSTAT (R153) -/

/-- FPSTAT as FSTAT finds it: with the flags of some outstanding words (R99). -/
def foundFlags (s : State) : Flags := (s.me.earlyFlags s.free).fpstat

/-- The flags that outstanding words still hold. -/
def heldFlags (os : List Out) : Flags := orFlags (os.map fun o => o.flags)

/-- Flags that are taken from some words and kept by the others are all there. -/
theorem orFlags_split (p : Out → Prop) [DecidablePred p] (os : List Out) :
    orFlags (os.map fun o => if p o then o.flags else 0#6) |||
      heldFlags (os.map fun o => if p o then { o with flags := 0#6 } else o) = heldFlags os := by
  induction os with
  | nil => exact BitVec.or_zero
  | cons o os ih =>
    unfold heldFlags at ih ⊢
    simp only [List.map_cons, orFlags]
    rw [← ih]
    by_cases taken : p o <;> simp only [taken, if_true, if_false, BitVec.zero_or] <;> ac_rfl

/-- No flag is lost: each is found or still held. -/
theorem foundFlags_or_held (s : State) :
    foundFlags s ||| heldFlags (s.me.earlyFlags s.free).outs = s.me.fpstat ||| heldFlags s.me.outs := by
  rw [← orFlags_split (fun o => s.free o.id % 2 = 1) s.me.outs, ← BitVec.or_assoc]
  rfl

theorem foundFlags_keep (s : State) : foundFlags s &&& s.me.fpstat = s.me.fpstat := by
  ext i hi
  simp only [foundFlags, Warp.earlyFlags, BitVec.getElem_and, BitVec.getElem_or]
  cases s.me.fpstat[i] <;> simp

/-- What FSTAT leaves in FPSTAT: what it found, nothing, or A's low bits. -/
def fstatFlags (s : State) (f : VFields) : Flags :=
  if f.minor = 0#5 then foundFlags s else if f.minor = 1#5 then 0#6 else (rd s s.me f.a 0).setWidth 6

/-- The register that FSTAT writes: none in its form .wr. -/
def fstatWrites (s : State) (k : Ctl) (f : VFields) : List (Nat × Word) :=
  if f.minor = 0#5 ∨ f.minor = 1#5 then writes32 s.me k f.d fun _ => (foundFlags s).setWidth 32 else []

/-- The state that FSTAT leaves. -/
def State.fstatDone (s : State) (k : Ctl) (f : VFields) : State :=
  (s.modMe fun w => { w.earlyFlags s.free with fpstat := fstatFlags s f }).finish k (fstatWrites s k f) 0#6

theorem fstatWrites_regKey (s : State) (k : Ctl) (f : VFields) : ∀ p ∈ fstatWrites s k f, RegKey p.1 := by
  unfold fstatWrites
  split
  · exact writes32_regKey s.me k f.d _
  · simp

theorem fstatWrites_keys (s : State) (k : Ctl) (f : VFields) {key : Nat} (other : key ∉ wroteKeys s.me k f.d 1) :
    key ∉ (fstatWrites s k f).map Prod.fst := by
  unfold fstatWrites
  split
  · rwa [writes32_keys]
  · simp

theorem value32_plain (u : State) (k : Ctl) (d : Operand) (x : Word) :
    u.value32 k d (fun _ => (x, 0#6)) = u.finish k (writes32 u.me k d fun _ => x) 0#6 := by
  rw [State.value32, flagsOver_zero]

theorem exec_fstat (issues : Issues s k (.fstat k f)) : exec (.fstat k f) s = .next (s.fstatDone k f) := by
  rw [exec, execFstat, issue_next issues]
  simp only [State.fstatDone, fstatFlags, fstatWrites, BitVec.toNat_eq, foundFlags]
  generalize f.minor.toNat = m
  match m with
  | 0 =>
    simp only [value32_plain, State.me_modMe]
    rfl
  | 1 =>
    simp only [value32_plain, State.me_modMe, State.modMe_modMe]
    rfl
  | _ + 2 =>
    simp only [State.modMe_modMe]
    rfl

/-- What FSTAT leaves of its warp: FPSTAT and outstanding flags as it found and set them, and its register written. -/
theorem fstatDone_frame (s : State) (k : Ctl) (f : VFields) : (s.fstatDone k f).me = { s.me with
    pc := s.me.pc + 8#64, left := s.me.left - 1, rewait := false
    status := if k.sw then .parked else s.me.status
    running := s.me.running && !k.sw && decide (1 < s.me.left)
    regs := (s.fstatDone k f).me.regs, bank := (s.fstatDone k f).me.bank, fpstat := fstatFlags s f
    outs := (s.me.earlyFlags s.free).outs.map fun o =>
      { o with tgts := o.tgts.filter fun x => !((fstatWrites s k f).map Prod.fst).contains x.key } } := by
  rw [State.fstatDone, finish_me, State.me_modMe, putMany_frame _ _ (fstatWrites_regKey s k f)]
  simp only [Warp.setFlags, Warp.advance, BitVec.or_zero]
  rfl

theorem fstatDone_getKey (s : State) (k : Ctl) (f : VFields) (key : Nat) :
    (s.fstatDone k f).me.getKey key = lastWrite (fstatWrites s k f) key (s.me.getKey key) := by
  rw [State.fstatDone, finish_getKey _ _ _ _ (fstatWrites_regKey s k f), State.me_modMe]
  rfl

/-- Writes take targets from outstanding words, not flags. -/
theorem heldFlags_fstatDone (s : State) (k : Ctl) (f : VFields) :
    heldFlags (s.fstatDone k f).me.outs = heldFlags (s.me.earlyFlags s.free).outs := by
  rw [fstatDone_frame, heldFlags, List.map_map]
  rfl

theorem fstatDone_machine (s : State) (k : Ctl) (f : VFields) : s.fstatDone k f = s.setMe (s.fstatDone k f).me := by
  rw [State.fstatDone, State.finish, State.modMe_modMe, State.me_modMe]
  rfl

/-- A legal FSTAT has no guard (R153). -/
theorem fstat_acts {k : Ctl} {f : VFields} (legal : legal (.fstat k f) = true) (w : Warp) : w.acts k = true := by
  have fields := sig_fields_of_legal legal
  simp only [sig, vsig, Bool.and_eq_true] at fields
  obtain ⟨-, unguarded⟩ := fields
  simp [Warp.acts, unguarded]

/-- The forms of a legal FSTAT. -/
theorem fstat_minor {k : Ctl} {f : VFields} (legal : legal (.fstat k f) = true) :
    f.minor = 0#5 ∨ f.minor = 1#5 ∨ f.minor = 2#5 := by
  obtain ⟨-, listed, -⟩ := vsig_fields (sig_fields_of_legal legal)
  have bound := List.mem_range.1 listed
  simp only [BitVec.toNat_eq, BitVec.toNat_ofNat]
  omega

theorem fstatDone_scalar (issues : Issues s k (.fstat k f)) {n : Fin 128} (dest : f.d = .s n) (reads : f.minor ≠ 2#5) :
    (s.fstatDone k f).me.getS n.val = (foundFlags s).setWidth 32 := by
  have same : (s.fstatDone k f).me.sKey n.val = s.me.sKey n.val := by
    rw [Warp.sKey, fstatDone_frame]
    rfl
  have form : f.minor = 0#5 ∨ f.minor = 1#5 := by
    rcases fstat_minor issues.fields with h | h | h
    exacts [.inl h, .inr h, absurd h reads]
  rw [Warp.getS, same, fstatDone_getKey, fstatWrites, if_pos form, dest]
  simp [writes32, fstat_acts issues.fields, lastWrite]

/-! ## SEEDR (R154) -/

theorem exec_seedr_write (issues : Issues s k (.seedr k f)) (writes : f.minor = 1#5) : exec (.seedr k f) s =
    .next ((s.modMe fun w => w.putSeeds ((maskLanes (s.me.eff k)).map fun l => (l, rd s s.me f.a l))).finish k [] 0#6) := by
  rw [exec, execSeedr, issue_next issues]
  simp only [writes]
  rfl

theorem exec_seedr_read (issues : Issues s k (.seedr k f)) (reads : f.minor = 0#5) : exec (.seedr k f) s =
    .next (s.value32 k f.d fun l => (s.me.seed l, 0#6)) := by
  rw [exec, execSeedr, issue_next issues, if_pos reads]

/-- The forms of a legal SEEDR. -/
theorem seedr_minor {k : Ctl} {f : VFields} (legal : legal (.seedr k f) = true) : f.minor = 0#5 ∨ f.minor = 1#5 := by
  obtain ⟨-, listed, -⟩ := vsig_fields (sig_fields_of_legal legal)
  simp only [List.mem_cons, List.not_mem_nil, or_false] at listed
  simp only [BitVec.toNat_eq, BitVec.toNat_ofNat]
  omega

end Sys2Proof.Machine
end

section
/-! PROOFS. The statements about floating-point words of fixed latency, FPSTAT and SEED (R137 to R149, R153, R154). -/

namespace Sys2Proof.Claims

open Sys2Proof.Machine

/-- Settles O21: each word is the common run of an arithmetic word (`fpArith_wrote`) with its own exact operation. -/
theorem floatArithmetic : Obligations.FloatArithmetic := by
  intro s k f r ty x sum diff prod fused
  have rounds {i : Instr} {n : Nat} {slots : List (Slot × Operand)}
    (op : Bool → Machine.Num → Machine.Num → Machine.Num → Machine.Num × Flags)
      (issues : Issues s k i) (listed : (sig i).slots = (Slot.dst n, f.d) :: slots)
      (run : exec i s = issue s k i fun s => s.fpArith k f op) :
      ∃ t, exec i s = .next t ∧ WroteRounded s t k f (fpExact s f op) :=
    ⟨_, exec_next issues run,
      fpArith_wrote s k f op (dst_of_ok (slot_ok_of_legal issues.fields (.dst n, f.d) (by simp [listed])))⟩
  refine ⟨fun issues => ?fadd, fun issues => ?fsub, fun issues => ?fmul, fun issues => ?ffma, fun issues => ?dadd,
    fun issues => ?dmul, fun issues => ?dfma⟩
  case fadd => exact rounds (fun rdn a b _ => addNum rdn a b) issues rfl rfl
  case fsub => exact rounds (fun rdn a b _ => subNum rdn a b) issues rfl rfl
  case fmul => exact rounds (fun _ a b _ => mulNum a b) issues rfl rfl
  case ffma => exact rounds fmaNum issues rfl rfl
  case dadd => exact rounds (fun rdn a b _ => addNum rdn a b) issues rfl rfl
  case dmul => exact rounds (fun _ a b _ => mulNum a b) issues rfl rfl
  case dfma => exact rounds fmaNum issues rfl rfl

/-- Settles O22: the picked element is `lesserOf` the operands (`pickElem_eq`), and each condition of a compare is R143's, with
IV where `fpCond_flags` says. -/
theorem floatMinMaxAndCompare : Obligations.FloatMinMaxAndCompare := by
  constructor
  · intro s k f ty fmt x wrote
    have picks {i : Instr} {slots : List (Slot × Operand)} (max : Bool) (issues : Issues s k i)
        (listed : (sig i).slots = (Slot.dst 1, f.d) :: slots) (run : exec i s = issue s k i fun s => s.fpPick k f max) :
        ∃ t, exec i s = .next t ∧ wrote max t := by
      have dst := dst_of_ok (slot_ok_of_legal issues.fields (.dst 1, f.d) (by simp [listed]))
      refine ⟨_, exec_next issues run, _, fpPick_eq s k f max ▸ fpWord_wrote s k f.d _ _ dst, fun l sd =>
        ⟨fun e he => ?_, flagIf_cases .., (flagIf_fIV_iff _).trans ?_, rfl⟩⟩
      · rw [elemAt_packElems _ _ (by simpa using he)]
        simp [fpPicked, fpSource, x, fmt, ty]
      · simp [fpSignalling, fpSource, x, fmt, ty]
    exact ⟨fun issues => picks false issues rfl rfl, fun issues => picks true issues rfl rfl⟩
  · intro s k f n hd ty x un c bad wrote
    have compares {i : Instr} {slots : List (Slot × Operand)} (issues : Issues s k i)
        (listed : (sig i).slots = (Slot.predWr, f.d) :: slots) (run : exec i s = issue s k i fun s => s.fpCompare k f) :
        ∃ t, exec i s = .next t ∧ wrote t := by
      have named := pred_of_ok (slot_ok_of_legal issues.fields (.predWr, f.d) (by simp [listed]))
      have flags (l : Nat) : (fpCond f.minor.toNat (x f.a l) (x f.b l)).2 = flagIf (bad l) fIV := fpCond_flags ..
      have cond (l : Nat) : (fpCond f.minor.toNat (x f.a l) (x f.b l)).1 = c l := by
        simp only [c]
        generalize f.minor.toNat = m
        match m with
        | 0 | 1 | 2 | 3 | 4 | 5 | 6 | _ + 7 => rfl
      refine ⟨_, exec_next issues run, ?_⟩
      have done := compare_wrote s k named f.mod.toNat (fun l => flagIf (bad l) fIV) c
      rw [flagsOver_flagIf, hd] at done
      have run' : s.fpCompare k f = s.compare k f.d f.mod.toNat (fun l => flagIf (bad l) fIV) c := by
        unfold State.fpCompare
        simp only [fpElem_plain]
        exact congrArg₂ (s.compare k f.d f.mod.toNat) (funext flags) (funext cond)
      rw [run']
      refine ⟨flagIf ((dstLanes s.me k).any bad) fIV, flagIf_cases .., (flagIf_fIV_iff _).trans ?_, ?_⟩
      · simp [dstLanes, mem_maskLanes, and_assoc]
      · simp only [BitVec.toNat_eq, hd]
        exact done
    exact ⟨fun issues => compares issues rfl rfl, fun issues => compares issues rfl rfl⟩

/-- Settles O23: the class is one power of two, whose bit `classBitOf` names. -/
theorem classify : Obligations.Classify := by
  intro s k f issues fmt
  have dst := dst_of_ok (slot_ok_of_legal issues.fields (.dst 1, f.d) (by simp [sig, vsig]))
  refine ⟨_, exec_next issues, _, fpWord_wrote s k f.d _ _ dst, fun l sd =>
    ⟨rfl, classBitOf fmt _, classBitOf_lt .., classOf_eq .., ?_⟩⟩
  unfold classBitOf
  cases fmt.decode (rdFp s s.me f.ty.toNat f.a l) with
  | nan neg quiet x => rfl
  | inf neg => rfl
  | fin neg m e => by_cases zero : m = 0 <;> cases sub : fmt.subnormal (rdFp s s.me f.ty.toNat f.a l) <;> simp [zero]

/-- Settles O24: each conversion is one lane's work, split by the class of its source (`frndTo_fin`, `roundToInt_fin`,
`roundToInt_inf`); PACK replaces two elements of a register (`elemAt_insertPair`). -/
theorem floatFormats : Obligations.FloatFormats := by
  constructor
  · intro s k f r ty mode src stepped
    have dst {i : Instr} {n : Nat} {slots : List (Slot × Operand)} (issues : Issues s k i)
        (listed : (sig i).slots = (Slot.dst n, f.d) :: slots) : (∃ n, f.d = .v n) ∨ ∃ n, f.d = .s n :=
      dst_of_ok (slot_ok_of_legal issues.fields (.dst n, f.d) (by simp [listed]))
    refine ⟨fun issues => ⟨_, exec_next issues, _, fpWord_wrote s k f.d _ _ (dst issues rfl), fun l sd => ?frnd⟩,
      fun issues => ⟨_, exec_next issues, fun l sd => r.to (fpType ty).1 (src r.dnf l) sd, ?fcvt,
        fun l sd => (roundOne_zero ..).symm⟩,
      fun issues => ⟨_, exec_next issues, _, fpWord_wrote s k f.d _ _ (dst issues rfl), fun l sd => ⟨rfl, ?f2i⟩⟩,
      fun issues => ⟨_, exec_next issues, fun l sd =>
        (Rnd.mk (mode f.mod.toNat) false false).to (fpType ty).1 (Num.ofInt (intSource s s.me f.minor.toNat f.a l)) sd, ?i2f,
        fun l sd => ?int⟩⟩
    case frnd =>
      refine ⟨rfl, ?_⟩
      split
      case h_1 neg x e value =>
        have run := (congrArg (frndTo (fpType ty).1 (mode f.minor.toNat) · sd.toNat) value).trans (frndTo_fin ..)
        exact ⟨congrArg Prod.fst run, congrArg Prod.snd run⟩
      case h_2 other =>
        have run := frndTo_other (fpType ty).1 (mode f.minor.toNat) other sd.toNat
        exact ⟨congrArg Prod.fst run, congrArg Prod.snd run⟩
    case fcvt =>
      rw [f64_type]
      exact fpWord_wrote s k f.d _ _ (dst issues rfl)
    case f2i =>
      have read : cvtSource s s.me false f.minor.toNat f.a l = src false l := rfl
      simp only [read]
      cases src false l with
      | nan neg quiet x => exact ⟨rfl, rfl⟩
      | inf neg =>
        have run := roundToInt_inf (typeSigned ty) neg (typeWidth_le ty) (mode f.mod.toNat) sd.toNat
        exact ⟨(lowBits_eq ..).trans (congrArg (fun y : Int × Flags => (y.1 % 2 ^ 64).toNat) run), congrArg Prod.snd run⟩
      | fin neg x e =>
        obtain ⟨result, outside, inside⟩ := roundToInt_fin (typeSigned ty) (typeWidth ty) neg x e (mode f.mod.toNat) sd.toNat
        exact ⟨(lowBits_eq ..).trans (congrArg (fun y : Int => (y % 2 ^ 64).toNat) result), outside, inside⟩
    case i2f =>
      rw [f64_type]
      exact fpWord_wrote s k f.d _ _ (dst issues rfl)
    case int =>
      have value := intSource_eq s f.a l (vsig_fields (sig_fields_of_legal issues.fields)).2.1
      refine Eq.trans ?_ (roundOne_zero ..).symm
      exact congrArg (fun x => (Rnd.mk (mode f.mod.toNat) false false).to (fpType ty).1 (Num.ofInt x) sd) value
  · intro s k f r e n sc conv
    constructor
    · intro issues
      have dst := vector_or_scalar_of_ok rfl rfl rfl rfl
        (slot_ok_of_legal issues.fields ({ Slot.dst 1 with rd := true }, f.d) (by simp [sig, vsig]))
      refine ⟨_, exec_next issues, _, fpWord_wrote s k f.d _ _ dst, fun l sd => ?_⟩
      simp only [scaleOf_eq]
      exact ⟨rfl, fun i hi => elemAt_insertPair _ _ _ _ _ hi⟩
    · intro issues
      have dst := dst_of_ok (slot_ok_of_legal issues.fields (.dst 1, f.d) (by simp [sig, vsig]))
      refine ⟨_, exec_next issues, _, fpWord_wrote s k f.d _ _ dst, fun l sd => ?_⟩
      simp only [scaleOf_eq]
      rfl

/-- Settles O26: FSTAT finds some of the outstanding flags and leaves the others held (`foundFlags_or_held`); SEEDR reads or
writes SEED in the lanes of effective. -/
theorem statusAndSeed : Obligations.StatusAndSeed := by
  intro s k f later
  constructor
  · intro issues
    refine ⟨_, exec_fstat issues, foundFlags s, foundFlags_keep s, ?held, fun read => ?_, fun clear => ?_, fun write => ?_,
      fun n dest reads => fstatDone_scalar issues dest reads, ?_, fstatDone_machine s k f, fun key other => ?keys, ?_, ?_⟩
    case held =>
      change foundFlags s ||| heldFlags (s.fstatDone k f).me.outs = s.me.fpstat ||| heldFlags s.me.outs
      rw [heldFlags_fstatDone, foundFlags_or_held]
    case keys => rw [fstatDone_getKey, lastWrite_notMem _ _ _ (fstatWrites_keys s k f other)]
    all_goals rw [fstatDone_frame]
    · simp only [fstatFlags, read, if_true]
    · simp only [fstatFlags, clear]
      rfl
    · simp only [fstatFlags, write]
      rfl
  · intro issues
    rcases seedr_minor issues.fields with reads | writes
    · refine ⟨_, exec_seedr_read issues reads, fun _ => value32_wrote_plain s k f.d fun l => s.me.seed l, fun writes => ?_⟩
      rw [reads] at writes
      cases writes
    · refine ⟨_, exec_seedr_write issues writes, fun reads => ?_, fun _ =>
        ⟨putSeeds_finish_done s k _ _ _ (by simp), ?_, ?_, fun l hl => ?_⟩⟩
      · rw [writes] at reads
        cases reads
      · rw [SameRegs, finish_me, State.me_modMe]
        simp only [Warp.putMany, Warp.setFlags, Warp.advance, Warp.putSeeds, Warp.getKey, implies_true, and_self]
      · rw [finish_flags _ _ _ _ (by simp), State.me_modMe, BitVec.or_zero]
        rfl
      · rw [finish_seed _ _ _ _ (by simp), State.me_modMe, seed_putSeeds]
        simp [mem_maskLanes, hl]

end Sys2Proof.Claims
end

section
/-! SUPPORT. The FP32 values on the line of the rationals (R74, R75): a magnitude in units of a power of two, the step of the
format at a magnitude, the codes of the values at a step, and that no FP32 value lies between two neighbours. -/

namespace Sys2Proof.Machine

/-! ## Magnitudes in units of a power of two -/

/-- m x 2^e in units of 2^u. -/
def unitsIn (m : Nat) (e u : Int) : ℚ := m * 2 ^ (e - u)

theorem unitsIn_mul (m : Nat) (e u : Int) : unitsIn m e u * 2 ^ u = m * 2 ^ e := by
  rw [unitsIn, mul_assoc, ← zpow_add₀ two_ne_zero, sub_add_cancel]

theorem unitsIn_nonneg (m : Nat) (e u : Int) : 0 ≤ unitsIn m e u := by unfold unitsIn; positivity

/-- In units no coarser than its own, a magnitude is a whole number of units. -/
theorem unitsIn_fine {m : Nat} {e u : Int} (h : u ≤ e) : unitsIn m e u = (m * 2 ^ (e - u).toNat : Nat) := by
  obtain ⟨n, rfl⟩ := Int.exists_add_of_le h
  rw [unitsIn, add_sub_cancel_left, Int.toNat_natCast, zpow_natCast]
  push_cast
  rfl

/-- In coarser units it is a whole number of them and a rest. -/
theorem unitsIn_coarse (m : Nat) (e : Int) (n : Nat) :
    unitsIn m e (e + n) = (m / 2 ^ n : Nat) + (m % 2 ^ n : Nat) / 2 ^ n := by
  have parts : (m : ℚ) = (m / 2 ^ n : Nat) * 2 ^ n + (m % 2 ^ n : Nat) := by exact_mod_cast (Nat.div_add_mod' m (2 ^ n)).symm
  have unit : (2 : ℚ) ^ n ≠ 0 := by positivity
  rw [unitsIn, sub_add_cancel_left, zpow_neg, zpow_natCast]
  field_simp
  rw [parts, mul_comm]

theorem rest_lt_one (m n : Nat) : ((m % 2 ^ n : Nat) : ℚ) / 2 ^ n < 1 := by
  rw [div_lt_one (by positivity)]
  exact_mod_cast Nat.mod_lt m (show 0 < 2 ^ n by positivity)

theorem rest_nonneg (m n : Nat) : (0 : ℚ) ≤ ((m % 2 ^ n : Nat) : ℚ) / 2 ^ n := by positivity

/-- Whole units, rounded down. -/
def wholeUnits (m : Nat) (e u : Int) : Nat := ⌊unitsIn m e u⌋₊

theorem wholeUnits_le (m : Nat) (e u : Int) : (wholeUnits m e u : ℚ) ≤ unitsIn m e u := Nat.floor_le (unitsIn_nonneg ..)

theorem lt_wholeUnits_add_one (m : Nat) (e u : Int) : unitsIn m e u < wholeUnits m e u + 1 := Nat.lt_floor_add_one _

theorem wholeUnits_fine {m : Nat} {e u : Int} (h : u ≤ e) : wholeUnits m e u = m * 2 ^ (e - u).toNat := by
  rw [wholeUnits, unitsIn_fine h, Nat.floor_natCast]

theorem wholeUnits_coarse (m : Nat) (e : Int) (n : Nat) : wholeUnits m e (e + n) = m / 2 ^ n := by
  rw [wholeUnits, unitsIn_coarse, Nat.floor_eq_iff (by positivity)]
  have := rest_lt_one m n
  have := rest_nonneg m n
  constructor <;> linarith

theorem coarser_or_finer (e u : Int) : u ≤ e ∨ ∃ n : Nat, 0 < n ∧ u = e + n := by
  rcases le_or_gt u e with h | h
  · exact .inl h
  · exact .inr ⟨(u - e).toNat, by omega, by omega⟩

/-! ## Rounding to units (R43) -/

section
variable (mode : Nat) (neg : Bool) (m : Nat) (e u : Int) (seed : Nat)

theorem roundUnits_exact_iff_whole :
    (roundUnits mode neg m e u seed).2 = true ↔ (wholeUnits m e u : ℚ) = unitsIn m e u := by
  rcases coarser_or_finer e u with fine | ⟨n, hn, rfl⟩
  · rw [roundUnits_exact fine, wholeUnits_fine fine, unitsIn_fine fine]
    simp
  · rw [roundUnits_exact_iff mode neg m e seed hn, wholeUnits_coarse, unitsIn_coarse]
    constructor
    · intro rest
      rw [rest]
      simp
    · intro same
      have rest : ((m % 2 ^ n : Nat) : ℚ) / 2 ^ n = 0 := by linarith
      have unit : (2 : ℚ) ^ n ≠ 0 := by positivity
      exact_mod_cast (div_eq_zero_iff.1 rest).resolve_right unit

/-- Every mode takes the whole units or one more. -/
theorem roundUnits_whole_or_next : (roundUnits mode neg m e u seed).1 = wholeUnits m e u ∨
    (roundUnits mode neg m e u seed).1 = wholeUnits m e u + 1 := by
  rcases coarser_or_finer e u with fine | ⟨n, hn, rfl⟩
  · rw [roundUnits_exact fine, wholeUnits_fine fine]
    exact .inl rfl
  · rw [roundUnits_coarse mode neg m e seed hn, wholeUnits_coarse]
    dsimp only
    split
    · exact .inr rfl
    · exact .inl rfl

theorem roundUnits_rtz_whole : (roundUnits 1 neg m e u seed).1 = wholeUnits m e u := by
  rcases coarser_or_finer e u with fine | ⟨n, hn, rfl⟩
  · rw [roundUnits_exact fine, wholeUnits_fine fine]
  · rw [roundUnits_rtz neg m e seed hn, wholeUnits_coarse]

/-- RNE takes the whole units or one more, whichever is nearer, and the even one of two that are as near. -/
theorem roundUnits_rne_whole :
    let q := (roundUnits 0 neg m e u seed).1
    (q = wholeUnits m e u ∧ 2 * unitsIn m e u ≤ 2 * q + 1 ∧ (2 * unitsIn m e u = 2 * q + 1 → q % 2 = 0)) ∨
      (q = wholeUnits m e u + 1 ∧ 2 * (q : ℚ) - 1 ≤ 2 * unitsIn m e u) := by
  intro q
  rcases coarser_or_finer e u with fine | ⟨n, hn, rfl⟩
  · left
    have value : q = m * 2 ^ (e - u).toNat := congrArg Prod.fst (roundUnits_exact fine)
    rw [wholeUnits_fine fine, unitsIn_fine fine, ← value]
    exact ⟨rfl, by linarith, fun tie => by linarith⟩
  · obtain ⟨⟨below, above⟩, tie⟩ := roundUnits_rne neg m e seed hn
    have unit : (0 : ℚ) < 2 ^ n := by positivity
    have scaled : unitsIn m e (e + n) * 2 ^ n = m := by
      rw [unitsIn, sub_add_cancel_left, zpow_neg, zpow_natCast]
      field_simp
    have below' : 2 * (q : ℚ) * 2 ^ n ≤ 2 * m + 2 ^ n := by exact_mod_cast below
    have above' : 2 * (m : ℚ) ≤ 2 * q * 2 ^ n + 2 ^ n := by exact_mod_cast above
    rcases roundUnits_whole_or_next 0 neg m e (e + n) seed with same | next
    · rw [wholeUnits_coarse] at same
      refine .inl ⟨same.trans (wholeUnits_coarse ..).symm, le_of_mul_le_mul_right (by linarith) unit, fun mid => tie ?_⟩
      have middle : 2 * (m : ℚ) = 2 * q * 2 ^ n + 2 ^ n := by
        rw [← scaled, ← mul_assoc, mid]
        ring
      have middle' : 2 * m = 2 * q * 2 ^ n + 2 ^ n := by exact_mod_cast middle
      have parts := Nat.div_add_mod' m (2 ^ n)
      rw [← same] at parts
      change q * 2 ^ n + m % 2 ^ n = m at parts
      linarith
    · exact .inr ⟨next, le_of_mul_le_mul_right (by linarith) unit⟩

/-- A whole number of units is rounded to itself. -/
theorem roundUnits_rne_exact (exact : (wholeUnits m e u : ℚ) = unitsIn m e u) :
    (roundUnits 0 neg m e u seed).1 = wholeUnits m e u := by
  rcases roundUnits_rne_whole neg m e u seed with ⟨same, -, -⟩ | ⟨next, far⟩
  · exact same
  · rw [next] at far
    push_cast at far
    linarith

end

/-! ## The exponent of a magnitude's first bit -/

/-- The exponent of the first bit of m x 2^e. -/
def leadOf (m : Nat) (e : Int) : Int := (bitLen m : Int) - 1 + e

theorem leadOf_bounds {m : Nat} (pos : 0 < m) (e : Int) :
    (2 : ℚ) ^ leadOf m e ≤ m * 2 ^ e ∧ (m : ℚ) * 2 ^ e < 2 ^ (leadOf m e + 1) := by
  obtain ⟨n, len, lo, hi⟩ := bitLen_bounds pos.ne'
  have lead : leadOf m e = n + e := by rw [leadOf, len]; push_cast; ring
  have unit : (0 : ℚ) < 2 ^ e := by positivity
  rw [lead, add_right_comm, zpow_add₀ two_ne_zero, zpow_add₀ two_ne_zero]
  constructor
  · exact mul_le_mul_of_nonneg_right (by exact_mod_cast lo) unit.le
  · exact mul_lt_mul_of_pos_right (by exact_mod_cast hi) unit

theorem leadOf_lt_iff {m : Nat} (pos : 0 < m) (e k : Int) : leadOf m e < k ↔ (m : ℚ) * 2 ^ e < 2 ^ k := by
  obtain ⟨lo, hi⟩ := leadOf_bounds pos e
  constructor
  · intro h
    exact hi.trans_le (zpow_le_zpow_right₀ one_le_two h)
  · intro h
    exact (zpow_lt_zpow_iff_right₀ one_lt_two).1 (lo.trans_lt h)

theorem le_leadOf_iff {m : Nat} (pos : 0 < m) (e k : Int) : k ≤ leadOf m e ↔ (2 : ℚ) ^ k ≤ m * 2 ^ e := by
  rw [← not_lt, leadOf_lt_iff pos, not_lt]

/-- In units of 2^u a magnitude lies between the powers of two that its first bit names. -/
theorem unitsIn_bounds {m : Nat} (pos : 0 < m) (e u : Int) :
    (2 : ℚ) ^ (leadOf m e - u) ≤ unitsIn m e u ∧ unitsIn m e u < 2 ^ (leadOf m e - u + 1) := by
  obtain ⟨lo, hi⟩ := leadOf_bounds pos (e - u)
  have lead : leadOf m (e - u) = leadOf m e - u := by unfold leadOf; ring
  rw [lead] at lo hi
  exact ⟨lo, hi⟩

/-! ## The steps of FP32 (R74, R75) -/

/-- The value of t steps of size 2^(k - 149). -/
def stepsVal (k t : Nat) : ℚ := t * 2 ^ ((k : Int) - 149)

/-- Is t the significand of an FP32 magnitude at step k: whole for a normal value, any for a subnormal one? -/
def OnStep (k t : Nat) : Prop := t < 2 ^ 24 ∧ (0 < k → 2 ^ 23 ≤ t)

/-- The step of FP32 at the magnitude m x 2^e. -/
def stepOf (m : Nat) (e : Int) : Nat := (leadOf m e + 126).toNat

theorem stepsVal_nonneg (k t : Nat) : 0 ≤ stepsVal k t := by unfold stepsVal; positivity

theorem stepsVal_lt_succ (k t : Nat) : stepsVal k t < stepsVal k (t + 1) := by
  unfold stepsVal
  have : (0 : ℚ) < 2 ^ ((k : Int) - 149) := by positivity
  push_cast
  linarith

theorem onStep_whole {m : Nat} (pos : 0 < m) (e : Int) : OnStep (stepOf m e) (wholeUnits m e ((stepOf m e : Int) - 149)) := by
  have lo := wholeUnits_le m e ((stepOf m e : Int) - 149)
  obtain ⟨first, last⟩ := unitsIn_bounds pos e ((stepOf m e : Int) - 149)
  have fits : leadOf m e - ((stepOf m e : Int) - 149) + 1 ≤ 24 := by unfold stepOf; omega
  constructor
  · have : (wholeUnits m e ((stepOf m e : Int) - 149) : ℚ) < 2 ^ (24 : Int) :=
      (lo.trans_lt last).trans_le (zpow_le_zpow_right₀ one_le_two fits)
    exact_mod_cast this
  · intro normal
    have full : leadOf m e - ((stepOf m e : Int) - 149) = 23 := by unfold stepOf at normal ⊢; omega
    rw [full] at first
    exact Nat.le_floor (by exact_mod_cast first)

/-- A magnitude lies between two neighbours of its step. -/
theorem whole_bracket (m : Nat) (e : Int) (k : Nat) :
    stepsVal k (wholeUnits m e ((k : Int) - 149)) ≤ m * 2 ^ e ∧
      (m : ℚ) * 2 ^ e < stepsVal k (wholeUnits m e ((k : Int) - 149) + 1) := by
  have unit : (0 : ℚ) < 2 ^ ((k : Int) - 149) := by positivity
  rw [← unitsIn_mul m e ((k : Int) - 149)]
  unfold stepsVal
  constructor
  · exact mul_le_mul_of_nonneg_right (wholeUnits_le ..) unit.le
  · push_cast
    exact mul_lt_mul_of_pos_right (lt_wholeUnits_add_one ..) unit

/-! ## Codes of FP32 (R74, R75) -/

/-- The word of a sign and a magnitude's code. -/
def f32Word (neg : Bool) (c : Nat) : Word := BitVec.ofNat 32 (fp32.place neg c)

/-- The code of t steps of size 2^(k - 149). -/
def stepCode (k t : Nat) : Nat := k * 2 ^ 23 + t

/-- The first code that is no finite value's. -/
def infCode : Nat := 0x7F800000

theorem decF32_f32Word (neg : Bool) {c : Nat} (finite : c < infCode) :
    decF32 (f32Word neg c) = .fin neg (fp32.magOf c).1 (fp32.magOf c).2 := by
  unfold infCode at finite
  have shift : fp32.shift = 0 := rfl
  have code : fp32.ebits + fp32.mbits = 31 := rfl
  have width : fp32.width = 32 := rfl
  have bits : (f32Word neg c).toNat = (if neg then 2 ^ 31 else 0) + c := by
    rw [f32Word, BitVec.toNat_ofNat, FpFmt.place, shift, code, pow_zero, mul_one]
    apply Nat.mod_eq_of_lt
    split <;> omega
  have top : fp32.top = .ieee := rfl
  have below : ¬c / 2 ^ fp32.mbits = 2 ^ fp32.ebits - 1 := by
    have mbits : fp32.mbits = 23 := rfl
    have ebits : fp32.ebits = 8 := rfl
    rw [mbits, ebits]
    omega
  have word : ((if neg then 2 ^ 31 else 0) + c) / 2 ^ 0 % 2 ^ 32 = (if neg then 2 ^ 31 else 0) + c := by
    split <;> omega
  have sign : decide (((if neg then 2 ^ 31 else 0) + c) / 2 ^ 31 = 1) = neg := by
    cases neg <;> simp only [if_true, Bool.false_eq_true, if_false, decide_eq_true_eq, decide_eq_false_iff_not] <;> omega
  have mag : ((if neg then 2 ^ 31 else 0) + c) % 2 ^ 31 = c := by
    split <;> omega
  rw [decF32, bits, FpFmt.decode]
  simp only [shift, code, width, word, sign, mag, top, below, if_false]

theorem codeOf_step {k t : Nat} (le : t ≤ 2 ^ 24) (normal : 0 < k → 2 ^ 23 ≤ t) :
    fp32.codeOf t ((k : Int) - 149) = stepCode k t := by
  have least : fp32.emin - fp32.mbits = -149 := rfl
  have mbits : fp32.mbits = 23 := rfl
  have bias : fp32.bias = 127 := rfl
  unfold stepCode
  rcases lt_or_ge t (2 ^ 23) with sub | full
  · obtain rfl : k = 0 := by omega
    rw [Nat.cast_zero, zero_sub, ← least, fp32.codeOf_subnormal (by rwa [mbits]), zero_mul, zero_add]
  rcases le.lt_or_eq with short | rfl
  · rw [fp32.codeOf_normal (by rwa [mbits]) (by rwa [mbits]) (by omega), mbits, bias]
    omega
  · have len : bitLen (2 ^ 24) = 24 + 1 := bitLen_eq le_rfl (by norm_num)
    have emin : fp32.emin = -126 := rfl
    have lead : ¬((24 + 1 : Nat) : Int) - 1 + ((k : Int) - 149) < -126 := by omega
    have half : 2 ^ 24 / 2 ^ (((24 + 1 : Nat) : Int) - 1 + ((k : Int) - 149) - (23 : Nat) - ((k : Int) - 149)).toNat =
      2 ^ 23 := by
      have one : (((24 + 1 : Nat) : Int) - 1 + ((k : Int) - 149) - (23 : Nat) - ((k : Int) - 149)).toNat = 1 := by omega
      rw [one]
      rfl
    have coarser : ¬((24 + 1 : Nat) : Int) - 1 + ((k : Int) - 149) - (23 : Nat) ≤ (k : Int) - 149 := by omega
    have nonzero : (2 ^ 24 : Nat) ≠ 0 := by norm_num
    simp only [FpFmt.codeOf, len, emin, mbits, bias, lead, coarser, half, nonzero, if_false, lt_irrefl, Nat.sub_self, add_zero]
    omega

theorem magOf_step {k t : Nat} (le : t ≤ 2 ^ 24) (normal : 0 < k → 2 ^ 23 ≤ t) :
    ((fp32.magOf (stepCode k t)).1 : ℚ) * 2 ^ (fp32.magOf (stepCode k t)).2 = stepsVal k t := by
  have least : fp32.emin - fp32.mbits = -149 := rfl
  have mbits : fp32.mbits = 23 := rfl
  have bias : fp32.bias = 127 := rfl
  unfold stepCode stepsVal
  rcases lt_or_ge t (2 ^ 23) with sub | full
  · obtain rfl : k = 0 := by omega
    rw [zero_mul, zero_add, fp32.magOf_subnormal (by rwa [mbits]), least]
    simp
  rw [fp32.magOf_normal (by rw [mbits]; omega), mbits, bias]
  dsimp only
  rcases le.lt_or_eq with short | rfl
  · have exp : (k * 2 ^ 23 + t) / 2 ^ 23 = k + 1 := by omega
    have sig : (k * 2 ^ 23 + t) % 2 ^ 23 + 2 ^ 23 = t := by omega
    have unit : ((k + 1 : Nat) : Int) - (127 : Nat) - (23 : Nat) = (k : Int) - 149 := by omega
    rw [exp, sig, unit]
  · have exp : (k * 2 ^ 23 + 2 ^ 24) / 2 ^ 23 = k + 2 := by omega
    have sig : (k * 2 ^ 23 + 2 ^ 24) % 2 ^ 23 + 2 ^ 23 = 2 ^ 23 := by omega
    have unit : ((k + 2 : Nat) : Int) - (127 : Nat) - (23 : Nat) = ((k : Int) - 149) + 1 := by omega
    rw [exp, sig, unit, zpow_add_one₀ two_ne_zero]
    push_cast
    ring

/-- A sign as a factor. -/
def signed (neg : Bool) (v : ℚ) : ℚ := if neg then -v else v

theorem Num.val_fin (neg : Bool) (m : Nat) (e : Int) : (Num.fin neg m e).val = signed neg (m * 2 ^ e) := by
  cases neg <;> simp [Num.val, signed]

/-- Each step within the range is an FP32 value, with its code. -/
theorem finiteF32_step (neg : Bool) {k t : Nat} (le : t ≤ 2 ^ 24) (normal : 0 < k → 2 ^ 23 ≤ t)
    (finite : stepCode k t < infCode) :
    FiniteF32 (f32Word neg (stepCode k t)) neg (signed neg (stepsVal k t)) := by
  have word := decF32_f32Word neg finite
  refine ⟨_, _, word, ?_⟩
  rw [word, Num.val_fin, magOf_step le normal]

/-- Significand and exponent of an FP32 value. -/
theorem decF32_fin_bounds {z : Word} {neg : Bool} {m : Nat} {e : Int} (h : decF32 z = .fin neg m e) :
    m < 2 ^ 24 ∧ -149 ≤ e ∧ e ≤ 104 := by
  have mbits : fp32.mbits = 23 := rfl
  obtain ⟨c, le, mag, -⟩ := fp32.decode_fin (c := z.toNat) z.isLt ((congrArg fp32.decode (Nat.mul_one _)).trans h)
  have top : fp32.maxCode = 2139095039 := rfl
  rcases lt_or_ge c (2 ^ fp32.mbits) with sub | normal
  · rw [fp32.magOf_subnormal sub] at mag
    cases mag
    exact ⟨by rw [mbits] at sub; omega, by decide, by decide⟩
  · have bounds := fp32.magOf_normal_bounds normal
    rw [mag, mbits] at bounds
    rw [fp32.magOf_normal normal] at mag
    have bias : fp32.bias = 127 := rfl
    rw [mbits] at normal
    simp only [Prod.mk.injEq, mbits, bias] at mag
    omega

/-- No FP32 value lies between two neighbours. -/
theorem no_value_between {k t : Nat} (on : OnStep k t) {z : Word} {neg : Bool} {u : ℚ} (h : FiniteF32 z neg u) :
    |u| ≤ stepsVal k t ∨ stepsVal k (t + 1) ≤ |u| := by
  obtain ⟨m, e, word, rfl⟩ := h
  obtain ⟨short, least, -⟩ := decF32_fin_bounds word
  have mag : |(decF32 z).val| = m * 2 ^ e := by
    rw [word, Num.val_fin, signed]
    have : (0 : ℚ) ≤ m * 2 ^ e := by positivity
    split
    · rw [abs_neg, abs_of_nonneg this]
    · rw [abs_of_nonneg this]
  rw [mag]
  unfold stepsVal
  rcases le_or_gt ((k : Int) - 149) e with coarse | fine
  · have unit : (0 : ℚ) < 2 ^ ((k : Int) - 149) := by positivity
    rw [← unitsIn_mul m e ((k : Int) - 149), unitsIn_fine coarse]
    generalize m * 2 ^ (e - ((k : Int) - 149)).toNat = j
    rcases le_or_gt j t with low | high
    · exact .inl (mul_le_mul_of_nonneg_right (by exact_mod_cast low) unit.le)
    · exact .inr (mul_le_mul_of_nonneg_right (by exact_mod_cast high) unit.le)
  · left
    have full := on.2 (by omega)
    calc (m : ℚ) * 2 ^ e ≤ 2 ^ 24 * 2 ^ ((k : Int) - 149 - 1) := by
          apply mul_le_mul (by exact_mod_cast short.le) (zpow_le_zpow_right₀ one_le_two (by omega)) (by positivity)
            (by positivity)
      _ = 2 ^ 23 * 2 ^ ((k : Int) - 149) := by rw [zpow_sub_one₀ two_ne_zero]; ring
      _ ≤ t * 2 ^ ((k : Int) - 149) := mul_le_mul_of_nonneg_right (by exact_mod_cast full) (by positivity)

end Sys2Proof.Machine
end

section
/-! SUPPORT. The faithful rounding of the special functions (R150, R151, R89): its step and its threshold on the line of the
rationals, the two neighbours, its flags, and that it does not decrease. -/

namespace Sys2Proof.Machine

theorem f32Word_eq (neg : Bool) (c : Nat) : f32Word neg c = BitVec.ofNat 32 ((if neg then 0x80000000 else 0) + c) := by
  have place : fp32.place neg c = ((if neg then 0x80000000 else 0) + c) * 1 := rfl
  rw [f32Word, place, mul_one]

theorem f32Word_inf (neg : Bool) : f32Word neg infCode = if neg then 0xFF800000#32 else 0x7F800000#32 := by
  cases neg <;> rfl

theorem f32Word_mono (neg : Bool) {c d : Nat} (le : c ≤ d) (bound : d ≤ infCode) : f32Word neg c ≤ f32Word neg d := by
  unfold infCode at bound
  rw [f32Word_eq, f32Word_eq, BitVec.le_def, BitVec.toNat_ofNat, BitVec.toNat_ofNat]
  cases neg <;> simp only [if_true, Bool.false_eq_true, if_false] <;> omega

/-! ## Codes and steps -/

/-- The step and the steps of a lesser magnitude give the lesser code. -/
theorem stepCode_mono {j k s t : Nat} (top : s ≤ 2 ^ 24) (full : 0 < k → 2 ^ 23 ≤ t) (h : j < k ∨ j = k ∧ s ≤ t) :
    stepCode j s ≤ stepCode k t := by
  unfold stepCode
  omega

/-- A magnitude below 2^128 - 2^104 lies below the format's last step. -/
theorem stepCode_lt_inf {m : Nat} (pos : 0 < m) {e : Int} (below : (m : ℚ) * 2 ^ e < 2 ^ 128 - 2 ^ 104) {q : Nat}
    (near : q ≤ wholeUnits m e ((stepOf m e : Int) - 149) + 1) : stepCode (stepOf m e) q < infCode := by
  obtain ⟨short, -⟩ := onStep_whole pos e
  have lead : leadOf m e < 128 := by
    rw [leadOf_lt_iff pos]
    have : (2 : ℚ) ^ (128 : Int) = 2 ^ 128 := by norm_cast
    linarith
  have step : stepOf m e ≤ 253 := by unfold stepOf; omega
  unfold stepCode infCode
  rcases step.lt_or_eq with lower | top
  · omega
  · obtain ⟨low, -⟩ := whole_bracket m e (stepOf m e)
    rw [top] at low near short ⊢
    generalize wholeUnits m e (((253 : Nat) : Int) - 149) = t at low near short
    have unit : (0 : ℚ) < 2 ^ 104 := by positivity
    have last : (t : ℚ) < (2 ^ 24 - 1 : Nat) := by
      have value : stepsVal 253 t = t * 2 ^ 104 := by
        unfold stepsVal
        norm_num
      rw [value] at low
      refine lt_of_mul_lt_mul_right ?_ unit.le
      push_cast
      linarith
    have : t < 2 ^ 24 - 1 := by exact_mod_cast last
    omega

/-! ## The choice between two neighbours (log 7) -/

/-- The 64 bits below the whole units. -/
def restBits (m : Nat) (e u : Int) : Nat := ⌊(unitsIn m e u - wholeUnits m e u) * 2 ^ 64⌋₊

theorem restBits_eq (m : Nat) (e u : Int) :
    (if u ≤ e then 0 else m % 2 ^ (u - e).toNat * 2 ^ 64 / 2 ^ (u - e).toNat) = restBits m e u := by
  unfold restBits
  rcases coarser_or_finer e u with fine | ⟨n, hn, rfl⟩
  · rw [if_pos fine, wholeUnits_fine fine, unitsIn_fine fine, sub_self, zero_mul, Nat.floor_zero]
  · rw [if_neg (by omega), add_sub_cancel_left, Int.toNat_natCast, wholeUnits_coarse, unitsIn_coarse, add_sub_cancel_left,
      ← Nat.floor_div_eq_div (K := ℚ)]
    rw [div_mul_eq_mul_div]
    push_cast
    rfl

/-- The free threshold of a function, its piece, its step and its lower neighbour. -/
def picksUp (fn piece tag : Nat) (neg : Bool) (m : Nat) (e u : Int) : Bool :=
  decide (Config.sfThreshold fn piece (wholeUnits m e u * 4 + tag + if neg then 1 else 0) ≤ restBits m e u)

/-- The steps that a faithful rounding takes. -/
def faithfulSteps (fn piece : Nat) (neg : Bool) (m : Nat) (e : Int) : Nat :=
  let t := wholeUnits m e ((stepOf m e : Int) - 149)
  if picksUp fn piece (2 * stepOf m e * 2 ^ 30) neg m e ((stepOf m e : Int) - 149) then t + 1 else t

/-- Is a faithful result tiny (R89)? -/
def faithfulTiny (fn piece : Nat) (neg : Bool) (m : Nat) (e : Int) : Bool :=
  decide (leadOf m e < -126) &&
    !decide (leadOf m e = -127 ∧ wholeUnits m e (-150) = 2 ^ 24 - 1 ∧ picksUp fn piece 2 neg m e (-150) = true)

section
variable (fn piece : Nat) (neg : Bool) {m : Nat} (pos : 0 < m) (e : Int)

theorem faithful_eq : faithful fn piece neg m e =
    if leadOf m e ≥ 128 ∨ leadOf m e = 127 ∧ wholeUnits m e 104 = 2 ^ 24 - 1 then (f32Word neg infCode, fOF ||| fNX)
    else (f32Word neg (fp32.codeOf (faithfulSteps fn piece neg m e) ((stepOf m e : Int) - 149)),
      fNX ||| flagIf (faithfulTiny fn piece neg m e) fUF) := by
  have step : (if leadOf m e < -126 then -149 else leadOf m e - 23) = (stepOf m e : Int) - 149 := by
    unfold stepOf
    split <;> omega
  have index : ((stepOf m e : Int) - 149 + 149).toNat = stepOf m e := by omega
  unfold leadOf at step
  simp only [faithful, step, index, roundUnits_rtz_whole, restBits_eq, f32Word_eq, faithfulSteps, faithfulTiny, picksUp,
    leadOf]
  rfl

include pos

theorem faithful_overflows_iff : leadOf m e ≥ 128 ∨ leadOf m e = 127 ∧ wholeUnits m e 104 = 2 ^ 24 - 1 ↔
    (2 : ℚ) ^ 128 - 2 ^ 104 ≤ m * 2 ^ e := by
  have unit : (0 : ℚ) < 2 ^ (104 : Int) := by positivity
  have value := unitsIn_mul m e 104
  constructor
  · rintro (beyond | ⟨top, last⟩)
    · have := (le_leadOf_iff pos e 128).1 beyond
      norm_num at this ⊢
      linarith
    · have low := mul_le_mul_of_nonneg_right (wholeUnits_le m e 104) unit.le
      rw [value, last] at low
      norm_num at low ⊢
      linarith
  · intro large
    have lead : 127 ≤ leadOf m e := by
      rw [le_leadOf_iff pos]
      norm_num at large ⊢
      linarith
    rcases lead.lt_or_eq with beyond | top
    · exact .inl beyond
    · refine .inr ⟨top.symm, (Nat.floor_eq_iff (unitsIn_nonneg ..)).2 ⟨?_, ?_⟩⟩
      · refine le_of_mul_le_mul_right ?_ unit
        rw [value]
        norm_num at large ⊢
        linarith
      · obtain ⟨-, high⟩ := unitsIn_bounds pos e 104
        rw [← top] at high
        norm_num at high ⊢
        exact high

/-- From 2^128 - 2^104 on the result is infinite. -/
theorem faithful_overflow (large : (2 : ℚ) ^ 128 - 2 ^ 104 ≤ m * 2 ^ e) :
    faithful fn piece neg m e = (f32Word neg infCode, fOF ||| fNX) := by
  rw [faithful_eq, if_pos ((faithful_overflows_iff pos e).2 large)]

omit pos in
theorem faithfulSteps_cases (m : Nat) : faithfulSteps fn piece neg m e = wholeUnits m e ((stepOf m e : Int) - 149) ∨
    faithfulSteps fn piece neg m e = wholeUnits m e ((stepOf m e : Int) - 149) + 1 := by
  unfold faithfulSteps
  dsimp only
  split
  · exact .inr rfl
  · exact .inl rfl

omit pos in
theorem faithfulSteps_le (m : Nat) :
    faithfulSteps fn piece neg m e ≤ wholeUnits m e ((stepOf m e : Int) - 149) + 1 := by
  rcases faithfulSteps_cases fn piece neg e m with same | next <;> omega

theorem faithfulSteps_bounds : faithfulSteps fn piece neg m e ≤ 2 ^ 24 ∧
    (0 < stepOf m e → 2 ^ 23 ≤ faithfulSteps fn piece neg m e) := by
  obtain ⟨short, full⟩ := onStep_whole pos e
  rcases faithfulSteps_cases fn piece neg e m with same | next <;> omega

/-- Below it the result is one of the two neighbours. -/
theorem faithful_finite (below : (m : ℚ) * 2 ^ e < 2 ^ 128 - 2 ^ 104) : faithful fn piece neg m e =
    (f32Word neg (stepCode (stepOf m e) (faithfulSteps fn piece neg m e)),
      fNX ||| flagIf (faithfulTiny fn piece neg m e) fUF) := by
  obtain ⟨short, full⟩ := faithfulSteps_bounds fn piece neg pos e
  rw [faithful_eq, if_neg ((faithful_overflows_iff pos e).not.2 (not_le.2 below)), codeOf_step short full]

/-- A result whose value is normal is not tiny. -/
theorem faithfulTiny_of_normal (normal : 1 / 2 ^ 126 ≤ (m : ℚ) * 2 ^ e) : faithfulTiny fn piece neg m e = false := by
  have lead : -126 ≤ leadOf m e := by
    rw [le_leadOf_iff pos]
    norm_num at normal ⊢
    linarith
  simp [faithfulTiny, not_lt.2 lead]

/-- A result below every value that could become normal is tiny. -/
theorem faithfulTiny_of_below (below : (m : ℚ) * 2 ^ e < 1 / 2 ^ 126 - 1 / 2 ^ 150) :
    faithfulTiny fn piece neg m e = true := by
  have lead : leadOf m e < -126 := by
    rw [leadOf_lt_iff pos]
    norm_num at below ⊢
    linarith
  have short : wholeUnits m e (-150) ≠ 2 ^ 24 - 1 := by
    intro last
    have unit : (0 : ℚ) < 2 ^ (-150 : Int) := by positivity
    have low := mul_le_mul_of_nonneg_right (wholeUnits_le m e (-150)) unit.le
    rw [unitsIn_mul, last] at low
    norm_num at low below
    linarith
  rw [faithfulTiny, decide_eq_true lead, decide_eq_false fun h => short h.2.1]
  rfl

end

/-! ## The result does not decrease (R151) -/

section
variable (fn piece : Nat) (neg : Bool) {m n : Nat} {d e : Int}

theorem unitsIn_mono (le : (m : ℚ) * 2 ^ d ≤ (n : ℚ) * 2 ^ e) (u : Int) : unitsIn m d u ≤ unitsIn n e u := by
  refine le_of_mul_le_mul_right ?_ (show (0 : ℚ) < 2 ^ u by positivity)
  rwa [unitsIn_mul, unitsIn_mul]

theorem stepOf_mono (posm : 0 < m) (posn : 0 < n) (le : (m : ℚ) * 2 ^ d ≤ (n : ℚ) * 2 ^ e) : stepOf m d ≤ stepOf n e := by
  have lead : leadOf m d ≤ leadOf n e := (le_leadOf_iff posn e _).2 ((leadOf_bounds posm d).1.trans le)
  unfold stepOf
  omega

theorem faithfulSteps_mono (le : (m : ℚ) * 2 ^ d ≤ (n : ℚ) * 2 ^ e) (same : stepOf m d = stepOf n e) :
    faithfulSteps fn piece neg m d ≤ faithfulSteps fn piece neg n e := by
  have units := unitsIn_mono le ((stepOf n e : Int) - 149)
  have whole : wholeUnits m d ((stepOf n e : Int) - 149) ≤ wholeUnits n e ((stepOf n e : Int) - 149) :=
    Nat.floor_le_floor units
  unfold faithfulSteps
  rw [same]
  dsimp only
  rcases whole.lt_or_eq with less | equal
  · split <;> split <;> omega
  · have rest : restBits m d ((stepOf n e : Int) - 149) ≤ restBits n e ((stepOf n e : Int) - 149) := by
      unfold restBits
      rw [equal]
      exact Nat.floor_le_floor (mul_le_mul_of_nonneg_right (sub_le_sub_right units _) (by positivity))
    have picks : picksUp fn piece (2 * stepOf n e * 2 ^ 30) neg m d ((stepOf n e : Int) - 149) = true →
        picksUp fn piece (2 * stepOf n e * 2 ^ 30) neg n e ((stepOf n e : Int) - 149) = true := by
      unfold picksUp
      rw [equal, decide_eq_true_eq, decide_eq_true_eq]
      exact fun h => h.trans rest
    rw [equal]
    split
    · rename_i up
      rw [if_pos (picks up)]
    · split <;> omega

theorem faithful_mono (posm : 0 < m) (posn : 0 < n) (le : (m : ℚ) * 2 ^ d ≤ (n : ℚ) * 2 ^ e) :
    (faithful fn piece neg m d).1 ≤ (faithful fn piece neg n e).1 := by
  rcases le_or_gt ((2 : ℚ) ^ 128 - 2 ^ 104) ((n : ℚ) * 2 ^ e) with large | below
  · rw [faithful_overflow fn piece neg posn e large]
    rcases le_or_gt ((2 : ℚ) ^ 128 - 2 ^ 104) ((m : ℚ) * 2 ^ d) with large' | below'
    · rw [faithful_overflow fn piece neg posm d large']
      exact BitVec.le_refl _
    · rw [faithful_finite fn piece neg posm d below']
      exact f32Word_mono neg (stepCode_lt_inf posm below' (faithfulSteps_le ..)).le le_rfl
  · rw [faithful_finite fn piece neg posn e below, faithful_finite fn piece neg posm d (le.trans_lt below)]
    refine f32Word_mono neg (stepCode_mono (faithfulSteps_bounds fn piece neg posm d).1
      (faithfulSteps_bounds fn piece neg posn e).2 ?_) (stepCode_lt_inf posn below (faithfulSteps_le ..)).le
    exact (stepOf_mono posm posn le).lt_or_eq.imp_right fun same => ⟨same, faithfulSteps_mono fn piece neg le same⟩

end

/-- A faithful result is one of the two FP32 values on either side (R151). -/
theorem faithful_neighbour (fn piece : Nat) (neg : Bool) {m : Nat} (pos : 0 < m) {e : Int}
    (below : (m : ℚ) * 2 ^ e < 2 ^ 128 - 2 ^ 104) : ∃ y, FiniteF32 (faithful fn piece neg m e).1 neg (signed neg y) ∧
      (y ≤ m * 2 ^ e → ∀ z n u, FiniteF32 z n u → y < u → m * 2 ^ e < u) ∧
      (m * 2 ^ e < y → ∀ z n u, FiniteF32 z n u → u < y → u ≤ m * 2 ^ e) := by
  obtain ⟨short, full⟩ := faithfulSteps_bounds fn piece neg pos e
  obtain ⟨low, high⟩ := whole_bracket m e (stepOf m e)
  have gap {z : Word} {n : Bool} {u : ℚ} (h : FiniteF32 z n u) := no_value_between (onStep_whole pos e) h
  have nonneg := stepsVal_nonneg (stepOf m e) (wholeUnits m e ((stepOf m e : Int) - 149))
  rw [faithful_finite fn piece neg pos e below]
  refine ⟨_, finiteF32_step neg short full (stepCode_lt_inf pos below (faithfulSteps_le ..)), ?_, ?_⟩
  · intro le z n u h less
    rcases faithfulSteps_cases fn piece neg e m with same | next
    · rw [same] at less
      rcases gap h with inside | outside
      · exact absurd less (not_lt.2 ((le_abs_self u).trans inside))
      · rw [abs_of_pos (nonneg.trans_lt less)] at outside
        exact high.trans_le outside
    · rw [next] at le
      exact absurd high (not_lt.2 le)
  · intro above z n u h less
    rcases faithfulSteps_cases fn piece neg e m with same | next
    · rw [same] at above
      exact absurd low (not_le.2 above)
    · rw [next] at less
      rcases gap h with inside | outside
      · exact ((le_abs_self u).trans inside).trans low
      · rcases le_abs.1 outside with pos' | neg'
        · exact absurd less (not_lt.2 pos')
        · linarith

end Sys2Proof.Machine
end

section
/-! SUPPORT. Rounding to FP32 on the line of the rationals (R43, R89): the step and the steps that each mode takes, where the
result is infinite or tiny, and the roots that a magnitude with a sticky bit stands for. -/

namespace Sys2Proof.Machine

/-! ## A magnitude within the range (R43, R89) -/

/-- Is t x 2^u above the largest finite FP32 value? -/
theorem fp32_beyond_iff (t : Nat) (u : Int) :
    fp32.beyond t u = true ↔ ((2 ^ 24 - 1 : Nat) : ℚ) * 2 ^ (104 : Int) < t * 2 ^ u := by
  have top : fp32.magOf fp32.maxCode = (2 ^ 24 - 1, 104) := by decide
  unfold FpFmt.beyond
  rw [top]
  dsimp only
  split
  case isTrue coarse =>
    rw [decide_eq_true_eq, ← unitsIn_mul t u 104, unitsIn_fine coarse, mul_lt_mul_iff_left₀ (by positivity)]
    exact Nat.cast_lt.symm
  case isFalse fine =>
    rw [decide_eq_true_eq, ← unitsIn_mul _ 104 u, unitsIn_fine (not_le.1 fine).le, mul_lt_mul_iff_left₀ (by positivity)]
    exact Nat.cast_lt.symm

section
variable (neg : Bool) (m : Nat) (e : Int) (mode : Nat)

/-- The steps of 24 bits that a mode takes where the exponent has no lower bound (R89). -/
def freeSteps : Nat := (roundUnits mode neg m e (leadOf m e - 23) 0).1

/-- The steps that a mode takes, and whether they are exact. -/
def modeSteps : Nat × Bool := roundUnits mode neg m e ((stepOf m e : Int) - 149) 0

variable {m}

theorem rndF32_within (pos : 0 < m) (within : fp32.beyond (freeSteps neg m e mode) (leadOf m e - 23) = false) :
    rndF32 (.fin neg m e) mode =
      (BitVec.ofNat 32 (fp32.place neg (fp32.codeOf (modeSteps neg m e mode).1 ((stepOf m e : Int) - 149))),
        flagIf (!(modeSteps neg m e mode).2) fNX |||
          flagIf (!(modeSteps neg m e mode).2 &&
            decide ((bitLen (freeSteps neg m e mode) : Int) - 1 + (leadOf m e - 23) < -126)) fUF) := by
  have mbits : fp32.mbits = 23 := rfl
  have emin : fp32.emin = -126 := rfl
  have step : (if leadOf m e < -126 then (-126 : Int) - 23 else leadOf m e - 23) = (stepOf m e : Int) - 149 := by
    unfold stepOf
    split <;> omega
  unfold freeSteps at within ⊢
  unfold modeSteps
  unfold leadOf at within step ⊢
  simp only [rndF32, roundTo, pos.ne', if_false, mbits, emin, step, within, Nat.cast_ofNat, Bool.false_and, Bool.false_eq_true]

theorem rndF32_beyond (pos : 0 < m) (beyond : fp32.beyond (freeSteps neg m e 0) (leadOf m e - 23) = true) :
    rndF32 (.fin neg m e) 0 = (f32Word neg infCode, fOF ||| fNX) := by
  have mbits : fp32.mbits = 23 := rfl
  have away : (fp32.top == .ieee) = true := rfl
  unfold freeSteps at beyond
  unfold leadOf at beyond
  simp only [rndF32, roundTo, pos.ne', if_false, mbits, beyond, away, Nat.cast_ofNat, Bool.false_and, Bool.false_eq_true, if_true,
    beq_self_eq_true, Bool.true_or, Bool.true_and, Bool.not_false]
  rfl

end

/-! ## The steps of 24 bits (R89) -/

section
variable (neg : Bool) {m : Nat} (pos : 0 < m) (e : Int)
include pos

/-- The first 24 bits of a magnitude. -/
theorem first24_bounds : 2 ^ 23 ≤ wholeUnits m e (leadOf m e - 23) ∧ wholeUnits m e (leadOf m e - 23) < 2 ^ 24 := by
  obtain ⟨first, last⟩ := unitsIn_bounds pos e (leadOf m e - 23)
  rw [sub_sub_cancel] at first last
  constructor
  · exact Nat.le_floor (by exact_mod_cast first)
  · exact (Nat.floor_lt (unitsIn_nonneg ..)).2 (by exact_mod_cast last)

theorem freeSteps_bounds (mode : Nat) : 2 ^ 23 ≤ freeSteps neg m e mode ∧ freeSteps neg m e mode ≤ 2 ^ 24 := by
  obtain ⟨first, last⟩ := first24_bounds pos e
  have cases := roundUnits_whole_or_next mode neg m e (leadOf m e - 23) 0
  unfold freeSteps
  omega

/-- RNE rounds up to the next power of two from half a step below it on. -/
theorem freeSteps_rne_top : freeSteps neg m e 0 = 2 ^ 24 ↔ 2 ^ 25 - 1 ≤ 2 * unitsIn m e (leadOf m e - 23) := by
  obtain ⟨first, last⟩ := first24_bounds pos e
  have high := lt_wholeUnits_add_one m e (leadOf m e - 23)
  have rne := roundUnits_rne_whole neg m e (leadOf m e - 23) 0
  unfold freeSteps
  generalize (roundUnits 0 neg m e (leadOf m e - 23) 0).1 = q at rne
  constructor
  · rintro rfl
    rcases rne with ⟨same, -, -⟩ | ⟨-, far⟩
    · omega
    · push_cast at far
      linarith
  · intro near
    rcases rne with ⟨same, below, tie⟩ | ⟨next, -⟩
    · have short : q ≤ 2 ^ 24 - 1 := by omega
      have short' : (q : ℚ) ≤ (2 ^ 24 - 1 : Nat) := by exact_mod_cast short
      push_cast at short'
      have even := tie (by linarith)
      have last' : ((2 ^ 24 - 1 : Nat) : ℚ) ≤ q := by push_cast; linarith
      have : 2 ^ 24 - 1 ≤ q := by exact_mod_cast last'
      omega
    · have large : ((2 ^ 24 - 1 : Nat) : ℚ) - 1 < wholeUnits m e (leadOf m e - 23) := by
        push_cast
        linarith
      have : ((2 ^ 24 - 1 : Nat) : ℚ) < (wholeUnits m e (leadOf m e - 23) + 1 : Nat) := by
        push_cast at large ⊢
        linarith
      have : 2 ^ 24 - 1 < wholeUnits m e (leadOf m e - 23) + 1 := by exact_mod_cast this
      omega

/-- Where the exponent of the first bit is known, the next power of two is reached half a step below it. -/
theorem freeSteps_rne_top_val : freeSteps neg m e 0 = 2 ^ 24 ↔ (2 ^ 25 - 1) * 2 ^ (leadOf m e - 24) ≤ (m : ℚ) * 2 ^ e := by
  have unit : (0 : ℚ) < 2 ^ (leadOf m e - 24) := by positivity
  have half : (2 : ℚ) ^ (leadOf m e - 23) = 2 * 2 ^ (leadOf m e - 24) := by
    rw [← zpow_one_add₀ two_ne_zero]
    congr 1
    ring
  rw [freeSteps_rne_top neg pos, ← unitsIn_mul m e (leadOf m e - 23), half, ← mul_assoc, mul_comm (unitsIn ..),
    mul_le_mul_iff_left₀ unit]

/-- No mode leaves the range where the first bit stands below the last power of two. -/
theorem not_beyond_of_lead (mode : Nat) (lead : leadOf m e ≤ 126) :
    fp32.beyond (freeSteps neg m e mode) (leadOf m e - 23) = false := by
  rw [← Bool.not_eq_true, fp32_beyond_iff, not_lt]
  obtain ⟨-, short⟩ := freeSteps_bounds neg pos e mode
  calc (freeSteps neg m e mode : ℚ) * 2 ^ (leadOf m e - 23) ≤ (2 ^ 24 : Nat) * 2 ^ (103 : Int) :=
        mul_le_mul (by exact_mod_cast short) (zpow_le_zpow_right₀ one_le_two (by omega)) (by positivity) (by positivity)
    _ ≤ ((2 ^ 24 - 1 : Nat) : ℚ) * 2 ^ (104 : Int) := by norm_num

/-- RNE gives an infinity from half a step above the largest finite value on. -/
theorem beyond_rne_iff : fp32.beyond (freeSteps neg m e 0) (leadOf m e - 23) = true ↔ (2 : ℚ) ^ 128 - 2 ^ 103 ≤ m * 2 ^ e := by
  rcases lt_trichotomy (leadOf m e) 127 with low | top | high
  · have below := (leadOf_lt_iff pos e 127).1 low
    rw [not_beyond_of_lead neg pos e 0 (by omega)]
    refine iff_of_false (by decide) (not_le.2 ?_)
    norm_num at below ⊢
    linarith
  · have top24 := freeSteps_rne_top_val neg pos e
    obtain ⟨-, short⟩ := freeSteps_bounds neg pos e 0
    have half : ((2 : ℚ) ^ 25 - 1) * 2 ^ ((127 : Int) - 24) = 2 ^ 128 - 2 ^ 103 := by norm_num
    rw [top, half] at top24
    rw [fp32_beyond_iff, top, ← top24, show (127 : Int) - 23 = 104 by norm_num, mul_lt_mul_iff_left₀ (by positivity),
      Nat.cast_lt]
    omega
  · have large := (le_leadOf_iff pos e 128).1 high
    obtain ⟨full, -⟩ := freeSteps_bounds neg pos e 0
    have least : (2 : ℚ) ^ 23 * 2 ^ (105 : Int) ≤ freeSteps neg m e 0 * 2 ^ (leadOf m e - 23) :=
      mul_le_mul (by exact_mod_cast full) (zpow_le_zpow_right₀ one_le_two (by omega)) (by positivity) (by positivity)
    refine iff_of_true ((fp32_beyond_iff ..).2 (lt_of_lt_of_le (by norm_num) least)) ?_
    norm_num at large ⊢
    linarith

/-- RNE is tiny below half a step under the least normal value. -/
theorem tiny_rne_iff : (bitLen (freeSteps neg m e 0) : Int) - 1 + (leadOf m e - 23) < -126 ↔
    (m : ℚ) * 2 ^ e < 1 / 2 ^ 126 - 1 / 2 ^ 151 := by
  have top24 := freeSteps_rne_top_val neg pos e
  obtain ⟨full, short⟩ := freeSteps_bounds neg pos e 0
  have len : bitLen (freeSteps neg m e 0) = if freeSteps neg m e 0 = 2 ^ 24 then 25 else 24 := by
    split
    case isTrue is => rw [is]; exact bitLen_eq le_rfl (by norm_num)
    case isFalse other => exact bitLen_eq full (by omega)
  rw [len]
  rcases lt_trichotomy (leadOf m e) (-127) with low | top | high
  · have below := (leadOf_lt_iff pos e (-127)).1 low
    refine iff_of_true (by split <;> omega) ?_
    norm_num at below ⊢
    linarith
  · rw [top] at top24 ⊢
    have half : ((2 : ℚ) ^ 25 - 1) * 2 ^ ((-127 : Int) - 24) = 1 / 2 ^ 126 - 1 / 2 ^ 151 := by norm_num
    rw [half] at top24
    rw [← not_le (a := (1 : ℚ) / 2 ^ 126 - 1 / 2 ^ 151), ← top24]
    split <;> omega
  · have large := (le_leadOf_iff pos e (-126)).1 (by omega)
    refine iff_of_false (by split <;> omega) (not_lt.2 ?_)
    norm_num at large ⊢
    linarith

end

/-! ## What each mode gives -/

section
variable (neg : Bool) {m : Nat} (pos : 0 < m) (e : Int)
include pos

theorem modeSteps_bounds (mode : Nat) : (modeSteps neg m e mode).1 ≤ 2 ^ 24 ∧
    (0 < stepOf m e → 2 ^ 23 ≤ (modeSteps neg m e mode).1) := by
  obtain ⟨short, full⟩ := onStep_whole pos e
  have cases := roundUnits_whole_or_next mode neg m e ((stepOf m e : Int) - 149) 0
  unfold modeSteps
  omega

/-- From half a step above the largest finite value on, RNE gives an infinity. -/
theorem rndF32_rne_overflow (large : (2 : ℚ) ^ 128 - 2 ^ 103 ≤ m * 2 ^ e) :
    rndF32 (.fin neg m e) 0 = (f32Word neg infCode, fOF ||| fNX) :=
  rndF32_beyond neg e pos ((beyond_rne_iff neg pos e).2 large)

/-- Below it, RNE gives the steps that it takes. -/
theorem rndF32_rne (below : (m : ℚ) * 2 ^ e < 2 ^ 128 - 2 ^ 103) : rndF32 (.fin neg m e) 0 =
    (f32Word neg (stepCode (stepOf m e) (modeSteps neg m e 0).1),
      if (modeSteps neg m e 0).2 = true then 0#6
      else if (m : ℚ) * 2 ^ e < 1 / 2 ^ 126 - 1 / 2 ^ 151 then fNX ||| fUF else fNX) := by
  obtain ⟨short, full⟩ := modeSteps_bounds neg pos e 0
  have within := (beyond_rne_iff neg pos e).not.2 (not_le.2 below)
  rw [rndF32_within neg e 0 pos (Bool.eq_false_iff.2 within), codeOf_step short full]
  simp only [tiny_rne_iff neg pos e, f32Word]
  refine Prod.ext rfl ?_
  cases (modeSteps neg m e 0).2
  · by_cases tiny : (m : ℚ) * 2 ^ e < 1 / 2 ^ 126 - 1 / 2 ^ 151
    · rw [if_pos tiny, decide_eq_true tiny]
      rfl
    · rw [if_neg tiny, decide_eq_false tiny]
      rfl
  · exact BitVec.or_zero

/-- Between the least normal value and the last power of two, each mode gives the steps that it takes. -/
theorem rndF32_normal (mode : Nat) (least : -126 ≤ leadOf m e) (lead : leadOf m e ≤ 126) : rndF32 (.fin neg m e) mode =
    (f32Word neg (stepCode (stepOf m e) (modeSteps neg m e mode).1), flagIf (!(modeSteps neg m e mode).2) fNX) := by
  obtain ⟨short, full⟩ := modeSteps_bounds neg pos e mode
  obtain ⟨free, -⟩ := freeSteps_bounds neg pos e mode
  have normal : ¬(bitLen (freeSteps neg m e mode) : Int) - 1 + (leadOf m e - 23) < -126 := by
    obtain ⟨n, len, -, hi⟩ := bitLen_bounds (show freeSteps neg m e mode ≠ 0 by omega)
    have : 23 < n + 1 := (Nat.pow_lt_pow_iff_right (by norm_num)).1 (free.trans_lt hi)
    omega
  rw [rndF32_within neg e mode pos (not_beyond_of_lead neg pos e mode lead), codeOf_step short full]
  simp [normal, f32Word, flagIf]

/-- Within the range the code that RNE gives is a finite value's. -/
theorem rne_stepCode_lt_inf (below : (m : ℚ) * 2 ^ e < 2 ^ 128 - 2 ^ 103) :
    stepCode (stepOf m e) (modeSteps neg m e 0).1 < infCode := by
  obtain ⟨short, -⟩ := modeSteps_bounds neg pos e 0
  have lead : leadOf m e < 128 := by
    rw [leadOf_lt_iff pos]
    norm_num at below ⊢
    linarith
  have within := (beyond_rne_iff neg pos e).not.2 (not_le.2 below)
  unfold stepCode infCode
  rcases (show leadOf m e ≤ 127 by omega).lt_or_eq with lower | top
  · have : stepOf m e ≤ 252 := by unfold stepOf; omega
    omega
  · have step : stepOf m e = 253 := by unfold stepOf; omega
    have free : modeSteps neg m e 0 = roundUnits 0 neg m e (leadOf m e - 23) 0 := by
      unfold modeSteps
      rw [step, top]
      rfl
    rw [fp32_beyond_iff, freeSteps, ← free, top] at within
    have : ((modeSteps neg m e 0).1 : ℚ) ≤ (2 ^ 24 - 1 : Nat) :=
      le_of_mul_le_mul_right (not_lt.1 within) (by positivity)
    have : (modeSteps neg m e 0).1 ≤ 2 ^ 24 - 1 := by exact_mod_cast this
    omega

/-- A magnitude that FP32 holds is rounded to itself, without flag. -/
theorem rndF32_exact (below : (m : ℚ) * 2 ^ e < 2 ^ 128 - 2 ^ 103)
    (exact : (wholeUnits m e ((stepOf m e : Int) - 149) : ℚ) = unitsIn m e ((stepOf m e : Int) - 149)) :
    FiniteF32 (rndF32 (.fin neg m e) 0).1 neg (signed neg (m * 2 ^ e)) ∧ (rndF32 (.fin neg m e) 0).2 = 0#6 := by
  obtain ⟨short, full⟩ := modeSteps_bounds neg pos e 0
  have whole : (modeSteps neg m e 0).1 = wholeUnits m e ((stepOf m e : Int) - 149) := roundUnits_rne_exact _ _ _ _ _ exact
  have is : (modeSteps neg m e 0).2 = true := (roundUnits_exact_iff_whole ..).2 exact
  have value : (m : ℚ) * 2 ^ e = stepsVal (stepOf m e) (modeSteps neg m e 0).1 := by
    rw [whole, stepsVal, exact, unitsIn_mul]
  rw [rndF32_rne neg pos e below, if_pos is]
  refine ⟨?_, rfl⟩
  rw [value]
  exact finiteF32_step neg short full (rne_stepCode_lt_inf neg pos e below)

end

end Sys2Proof.Machine
end

section
/-! SUPPORT. Quotients and roots, rounded through a sticky bit (R150): a magnitude with a sticky bit stands for the root of an
increasing function, since both lie on the same side of every value that a rounding compares with. -/

namespace Sys2Proof.Machine

/-! ## Magnitudes that stand for a root -/

/-- v stands for the root of φ x = b: both lie on the same side of every value of 25 bits. -/
def StandsFor (φ : ℚ → ℚ) (b v : ℚ) : Prop :=
  ∀ (j : Nat) (w : Int), j ≤ 2 ^ 25 →
    (φ (j * 2 ^ w) ≤ b ↔ j * 2 ^ w ≤ v) ∧ (b ≤ φ (j * 2 ^ w) ↔ v ≤ j * 2 ^ w)

section
variable {φ : ℚ → ℚ} {b v : ℚ}

/-- φ increases from 0 on. -/
def Increasing (φ : ℚ → ℚ) : Prop := ∀ x y, 0 ≤ x → x < y → φ x < φ y

/-- A magnitude of 25 bits or more with a sticky bit below them stands for the root that it comes from. -/
theorem standsFor_sticky (increasing : Increasing φ) {r s : Nat} (u : Int) (long : 2 ^ 24 ≤ r) (bit : s ≤ 1)
    (low : φ (r * 2 ^ u) ≤ b) (high : b < φ ((r + 1 : Nat) * 2 ^ u)) (sticky : s = 0 ↔ φ (r * 2 ^ u) = b) :
    StandsFor φ b ((2 * r + s : Nat) * 2 ^ (u - 1)) := by
  have unit : (0 : ℚ) < 2 ^ (u - 1) := by positivity
  have twice : (2 : ℚ) ^ u = 2 * 2 ^ (u - 1) := by
    rw [← zpow_one_add₀ two_ne_zero]
    congr 1
    ring
  have least : (r : ℚ) * 2 ^ u ≤ (2 * r + s : Nat) * 2 ^ (u - 1) := by
    rw [twice]
    push_cast
    nlinarith [show (0 : ℚ) ≤ s from Nat.cast_nonneg s]
  have most : ((2 * r + s : Nat) : ℚ) * 2 ^ (u - 1) < (r + 1 : Nat) * 2 ^ u := by
    have : (s : ℚ) ≤ 1 := by exact_mod_cast bit
    rw [twice]
    push_cast
    nlinarith
  intro j w short
  have nonneg : (0 : ℚ) ≤ j * 2 ^ w := by positivity
  have side : (j : ℚ) * 2 ^ w < r * 2 ^ u ∨ (j : ℚ) * 2 ^ w = r * 2 ^ u ∨ ((r + 1 : Nat) : ℚ) * 2 ^ u ≤ j * 2 ^ w := by
    rcases le_or_gt u w with coarse | fine
    · rw [← unitsIn_mul j w u, unitsIn_fine coarse, mul_lt_mul_iff_left₀ (by positivity), mul_le_mul_iff_left₀ (by positivity),
        mul_left_inj' (by positivity), Nat.cast_lt, Nat.cast_inj, Nat.cast_le]
      omega
    · have small : (j : ℚ) * 2 ^ w ≤ r * 2 ^ u :=
        calc (j : ℚ) * 2 ^ w ≤ 2 ^ 25 * 2 ^ (u - 1) := mul_le_mul (by exact_mod_cast short)
              (zpow_le_zpow_right₀ one_le_two (by omega)) (by positivity) (by positivity)
          _ = 2 ^ 24 * 2 ^ u := by rw [twice]; ring
          _ ≤ r * 2 ^ u := mul_le_mul_of_nonneg_right (by exact_mod_cast long) (by positivity)
      exact small.lt_or_eq.imp_right .inl
  rcases side with below | at' | above
  · have := increasing _ _ nonneg below
    exact ⟨iff_of_true (this.le.trans low) (below.le.trans least),
      iff_of_false (not_le.2 (this.trans_le low)) (not_le.2 (below.trans_le least))⟩
  · rw [at']
    refine ⟨iff_of_true low least, ?_⟩
    have none : (b ≤ φ (r * 2 ^ u)) ↔ s = 0 := low.ge_iff_eq.trans sticky.symm
    rw [none, twice, ← mul_assoc, mul_le_mul_iff_left₀ unit]
    constructor
    · rintro rfl
      push_cast
      linarith
    · intro le
      have : 2 * r + s ≤ r * 2 := by exact_mod_cast le
      omega
  · have more : φ ((r + 1 : Nat) * 2 ^ u) ≤ φ (j * 2 ^ w) := by
      rcases above.lt_or_eq with less | same
      · exact (increasing _ _ (by positivity) less).le
      · rw [same]
    exact ⟨iff_of_false (not_le.2 (high.trans_le more)) (not_le.2 (most.trans_le above)),
      iff_of_true (high.trans_le more).le (most.trans_le above).le⟩

theorem StandsFor.le_iff (h : StandsFor φ b v) {j : Nat} (short : j ≤ 2 ^ 25) (w : Int) :
    φ (j * 2 ^ w) ≤ b ↔ j * 2 ^ w ≤ v := (h j w short).1

theorem StandsFor.ge_iff (h : StandsFor φ b v) {j : Nat} (short : j ≤ 2 ^ 25) (w : Int) :
    b ≤ φ (j * 2 ^ w) ↔ v ≤ j * 2 ^ w := (h j w short).2

/-- Steps of FP32 are values of 25 bits. -/
theorem StandsFor.steps (h : StandsFor φ b v) {t : Nat} (short : t ≤ 2 ^ 24) (k : Nat) :
    (φ (stepsVal k t) ≤ b ↔ stepsVal k t ≤ v) ∧ (b ≤ φ (stepsVal k t) ↔ v ≤ stepsVal k t) := h t _ (by omega)

end

/-! ## A root between two neighbours -/

/-- The root of φ x = b lies between the neighbours lo and hi, between which no FP32 value lies. -/
structure RootBetween (φ : ℚ → ℚ) (b lo hi : ℚ) : Prop where
  nonneg : 0 ≤ lo
  lt : lo < hi
  gap : ∀ z n u, FiniteF32 z n u → |u| ≤ lo ∨ hi ≤ |u|
  low : φ lo ≤ b
  high : b < φ hi

/-- y is the nearer one of two neighbours of a root. -/
def NearerRoot (φ : ℚ → ℚ) (b lo hi y : ℚ) : Prop :=
  (y = lo ∧ b ≤ φ ((lo + hi) / 2)) ∨ (y = hi ∧ φ ((lo + hi) / 2) ≤ b)

section
variable {φ : ℚ → ℚ} {b : ℚ} {m : Nat} {e : Int} (stands : StandsFor φ b (m * 2 ^ e)) (pos : 0 < m)
include stands pos

/-- The neighbours of a magnitude are those of the root that it stands for. -/
theorem rootBetween_whole : RootBetween φ b (stepsVal (stepOf m e) (wholeUnits m e ((stepOf m e : Int) - 149)))
    (stepsVal (stepOf m e) (wholeUnits m e ((stepOf m e : Int) - 149) + 1)) := by
  obtain ⟨low, high⟩ := whole_bracket m e (stepOf m e)
  obtain ⟨short, -⟩ := onStep_whole pos e
  refine ⟨stepsVal_nonneg .., stepsVal_lt_succ .., fun z n u h => no_value_between (onStep_whole pos e) h,
    (stands.steps short.le _).1.2 low, ?_⟩
  rw [← not_le, (stands.steps short _).1, not_le]
  exact high

/-- A magnitude is exact where the root is its lower neighbour. -/
theorem modeSteps_exact_iff (neg : Bool) (mode : Nat) : (modeSteps neg m e mode).2 = true ↔
    φ (stepsVal (stepOf m e) (wholeUnits m e ((stepOf m e : Int) - 149))) = b := by
  obtain ⟨low, -⟩ := whole_bracket m e (stepOf m e)
  obtain ⟨short, -⟩ := onStep_whole pos e
  have unit : (2 : ℚ) ^ ((stepOf m e : Int) - 149) ≠ 0 := by positivity
  obtain ⟨le, ge⟩ := stands.steps short.le (stepOf m e)
  rw [modeSteps, roundUnits_exact_iff_whole, le_antisymm_iff (a := φ _), le, ge, ← le_antisymm_iff,
    ← unitsIn_mul m e ((stepOf m e : Int) - 149), stepsVal, mul_left_inj' unit]

/-- RNE gives the nearer neighbour of the root. -/
theorem modeSteps_rne_nearer (neg : Bool) : NearerRoot φ b
    (stepsVal (stepOf m e) (wholeUnits m e ((stepOf m e : Int) - 149)))
    (stepsVal (stepOf m e) (wholeUnits m e ((stepOf m e : Int) - 149) + 1))
    (stepsVal (stepOf m e) (modeSteps neg m e 0).1) := by
  obtain ⟨short, -⟩ := onStep_whole pos e
  have rne := roundUnits_rne_whole neg m e ((stepOf m e : Int) - 149) 0
  have unit : (0 : ℚ) < 2 ^ ((stepOf m e : Int) - 149 - 1) := by positivity
  have twice : (2 : ℚ) ^ ((stepOf m e : Int) - 149) = 2 * 2 ^ ((stepOf m e : Int) - 149 - 1) := by
    rw [← zpow_one_add₀ two_ne_zero]
    congr 1
    ring
  have value := unitsIn_mul m e ((stepOf m e : Int) - 149)
  generalize wholeUnits m e ((stepOf m e : Int) - 149) = t at short rne ⊢
  have middle : (stepsVal (stepOf m e) t + stepsVal (stepOf m e) (t + 1)) / 2 =
      (2 * t + 1 : Nat) * 2 ^ ((stepOf m e : Int) - 149 - 1) := by
    unfold stepsVal
    rw [twice]
    push_cast
    ring
  unfold NearerRoot
  rw [middle, stands.le_iff (by omega), stands.ge_iff (by omega), ← value, twice]
  unfold modeSteps
  rcases rne with ⟨same, below, -⟩ | ⟨next, above⟩
  · refine .inl ⟨congrArg _ same, ?_⟩
    rw [same] at below
    push_cast
    nlinarith
  · refine .inr ⟨congrArg _ next, ?_⟩
    rw [next] at above
    push_cast at above ⊢
    nlinarith

end

end Sys2Proof.Machine
end

section
/-! SUPPORT. RCP and SQRT (R150, R152): the magnitude that each rounds stands for its root, and the nearest FP32
value to it. -/

namespace Sys2Proof.Machine

/-! ## A root rounded to the nearest (R43, R89) -/

section
variable {φ : ℚ → ℚ} {b : ℚ} {m : Nat} {e : Int} (stands : StandsFor φ b (m * 2 ^ e)) (pos : 0 < m) (neg : Bool)
include stands pos

/-- A root is rounded exactly where the result is the root. -/
theorem modeSteps_rne_exact_iff : (modeSteps neg m e 0).2 = true ↔ φ (stepsVal (stepOf m e) (modeSteps neg m e 0).1) = b := by
  have between := rootBetween_whole stands pos
  constructor
  · intro exact
    have whole : (modeSteps neg m e 0).1 = wholeUnits m e ((stepOf m e : Int) - 149) :=
      roundUnits_rne_exact _ _ _ _ _ ((roundUnits_exact_iff_whole ..).1 exact)
    rw [whole]
    exact (modeSteps_exact_iff stands pos neg 0).1 exact
  · intro root
    have cases : (modeSteps neg m e 0).1 = _ ∨ (modeSteps neg m e 0).1 = _ :=
      roundUnits_whole_or_next 0 neg m e ((stepOf m e : Int) - 149) 0
    rcases cases with same | next
    · rw [same] at root
      exact (modeSteps_exact_iff stands pos neg 0).2 root
    · rw [next] at root
      exact absurd root between.high.ne'

/-- RNE gives the nearer neighbour of the root, with NX where it is not the root itself. -/
theorem rndF32_root (below : (m : ℚ) * 2 ^ e < 2 ^ 128 - 2 ^ 103) : ∃ lo hi y, RootBetween φ b lo hi ∧ NearerRoot φ b lo hi y ∧
    FiniteF32 (rndF32 (.fin neg m e) 0).1 neg (signed neg y) ∧ (rndF32 (.fin neg m e) 0).2 =
      if φ y = b then 0#6 else if (m : ℚ) * 2 ^ e < 1 / 2 ^ 126 - 1 / 2 ^ 151 then fNX ||| fUF else fNX := by
  obtain ⟨short, full⟩ := modeSteps_bounds neg pos e 0
  refine ⟨_, _, _, rootBetween_whole stands pos, modeSteps_rne_nearer stands pos neg, ?_, ?_⟩
  all_goals rw [rndF32_rne neg pos e below]
  · exact finiteF32_step neg short full (rne_stepCode_lt_inf neg pos e below)
  · simp only [modeSteps_rne_exact_iff stands pos neg]

end

/-! ## RCP (R150, R152) -/

/-- A special function of a value that is no NaN. -/
theorem sfNan_number {x : Num} (number : x.isNan = false) (f : Num → Word × Flags) : sfNan x f = f x := by
  rw [sfNan, number]
  rfl

/-- The bits of the quotient 1 / m and a sticky bit below them. -/
def recipMag (m : Nat) : Nat := 2 * (2 ^ (130 + bitLen m) / m) + if 2 ^ (130 + bitLen m) % m = 0 then 0 else 1

theorem sfRcp_fin (neg : Bool) {m : Nat} (pos : 0 < m) (e : Int) :
    sfRcp (.fin neg m e) = rndF32 (.fin neg (recipMag m) (-e - (130 + bitLen m : Nat) - 1)) 0 := by
  have quotient : divNum (.fin false 1 0) (.fin neg m e) = (.fin neg (recipMag m) (-e - (130 + bitLen m : Nat) - 1), 0#6) := by
    have sign : (false != neg) = neg := by cases neg <;> rfl
    simp only [divNum, divFin, recipMag, firstNan, Num.isNan, pos.ne', Bool.false_eq_true, if_false, sign, one_mul, zero_sub,
      one_ne_zero]
  rw [sfRcp, sfNan_number rfl]
  simp only [quotient, BitVec.zero_or, Prod.mk.eta]

/-- The quotient with its sticky bit stands for the reciprocal. -/
theorem standsFor_recip {m : Nat} (pos : 0 < m) (e : Int) :
    StandsFor (fun x => x * (m * 2 ^ e)) 1 (recipMag m * 2 ^ (-e - (130 + bitLen m : Nat) - 1)) := by
  have posQ : (0 : ℚ) < m := by exact_mod_cast pos
  have parts := Nat.div_add_mod' (2 ^ (130 + bitLen m)) m
  have rest := Nat.mod_lt (2 ^ (130 + bitLen m)) pos
  have long : 2 ^ 24 ≤ 2 ^ (130 + bitLen m) / m := by
    obtain ⟨n, len, -, hi⟩ := bitLen_bounds pos.ne'
    rw [Nat.le_div_iff_mul_le pos, len]
    calc 2 ^ 24 * m ≤ 2 ^ 24 * 2 ^ (n + 1) := Nat.mul_le_mul_left _ hi.le
      _ ≤ 2 ^ (130 + (n + 1)) := by rw [← pow_add]; exact Nat.pow_le_pow_right (by decide) (by omega)
  unfold recipMag
  generalize 130 + bitLen m = k at parts rest long ⊢
  have unit : (0 : ℚ) < 2 ^ k := by positivity
  have value (j : ℚ) : j * 2 ^ (-e - (k : Int)) * (m * 2 ^ e) = j * m / 2 ^ k := by
    have powers : (2 : ℚ) ^ (-e - (k : Int)) * 2 ^ e = (2 ^ k)⁻¹ := by
      rw [← zpow_add₀ two_ne_zero, ← zpow_natCast, ← zpow_neg]
      congr 1
      ring
    calc j * 2 ^ (-e - (k : Int)) * (m * 2 ^ e) = j * m * (2 ^ (-e - (k : Int)) * 2 ^ e) := by ring
      _ = j * m / 2 ^ k := by rw [powers, div_eq_mul_inv]
  refine standsFor_sticky ?_ _ long (by split <;> omega) ?_ ?_ ?_
  · exact fun x y _ less => mul_lt_mul_of_pos_right less (by positivity)
  · rw [value, div_le_one unit]
    exact_mod_cast (by omega : 2 ^ k / m * m ≤ 2 ^ k)
  · rw [value, one_lt_div unit]
    exact_mod_cast (by rw [Nat.add_one_mul]; omega : 2 ^ k < (2 ^ k / m + 1) * m)
  · rw [value, div_eq_one_iff_eq unit.ne']
    constructor
    · intro none
      have none' : 2 ^ k % m = 0 := by
        by_contra other
        rw [if_neg other] at none
        cases none
      exact_mod_cast (by omega : 2 ^ k / m * m = 2 ^ k)
    · intro exact
      have exact' : 2 ^ k / m * m = 2 ^ k := by exact_mod_cast exact
      exact if_pos (by omega)

/-- The nearer neighbour of r is nearest to it among all FP32 values. -/
theorem nearest_of_nearer {lo hi y r u : ℚ} (nonneg : 0 ≤ lo) (low : lo ≤ r) (high : r < hi)
    (nearer : (y = lo ∧ r ≤ (lo + hi) / 2) ∨ (y = hi ∧ (lo + hi) / 2 ≤ r)) (gap : |u| ≤ lo ∨ hi ≤ |u|) :
      |y - r| ≤ |u - r| := by
  grind

theorem abs_signed (neg : Bool) (u : ℚ) : |signed neg u| = |u| := by cases neg <;> simp [signed]

theorem abs_signed_sub (neg : Bool) (u r : ℚ) : |u - signed neg r| = |signed neg u - r| := by
  cases neg
  · rfl
  · rw [signed, signed, if_pos rfl, if_pos rfl, ← abs_neg]
    congr 1
    ring

theorem signed_signed (neg : Bool) (u : ℚ) : signed neg (signed neg u) = u := by cases neg <;> simp [signed]

/-- A finite value that is not 0: its magnitude. -/
theorem FiniteF32.magnitude {w : Word} {neg : Bool} {v : ℚ} (h : FiniteF32 w neg v) (nonzero : v ≠ 0) :
    ∃ m e, decF32 w = .fin neg m e ∧ 0 < m ∧ v = signed neg (m * 2 ^ e) := by
  obtain ⟨m, e, word, rfl⟩ := h
  refine ⟨m, e, word, Nat.pos_of_ne_zero ?_, by rw [word, Num.val_fin]⟩
  rintro rfl
  rw [word, Num.val_fin] at nonzero
  cases neg <;> simp [signed] at nonzero

section
variable {neg : Bool} {m : Nat} (pos : 0 < m) (e : Int)
include pos

theorem recipMag_pos : 0 < recipMag m := by
  have := Nat.div_pos (show m ≤ 2 ^ (130 + bitLen m) by
    obtain ⟨n, len, -, hi⟩ := bitLen_bounds pos.ne'
    rw [len]
    exact hi.le.trans (Nat.pow_le_pow_right (by decide) (by omega))) pos
  unfold recipMag
  omega

/-- The rounded magnitude and the reciprocal lie on the same side of every value of 25 bits. -/
theorem recip_le_iff {j : Nat} (short : j ≤ 2 ^ 25) (w : Int) :
    (j : ℚ) * 2 ^ w ≤ recipMag m * 2 ^ (-e - (130 + bitLen m : Nat) - 1) ↔ (j : ℚ) * 2 ^ w ≤ 1 / (m * 2 ^ e) := by
  have posQ : (0 : ℚ) < m := by exact_mod_cast pos
  rw [← (standsFor_recip pos e).le_iff short, le_div_iff₀ (by positivity)]

/-- RCP of a value whose reciprocal is at least half a step above the largest finite value. -/
theorem sfRcp_overflow (large : (2 : ℚ) ^ 128 - 2 ^ 103 ≤ 1 / (m * 2 ^ e)) :
    sfRcp (.fin neg m e) = (f32Word neg infCode, fOF ||| fNX) := by
  have end25 : ((2 ^ 25 - 1 : Nat) : ℚ) * 2 ^ (103 : Int) = 2 ^ 128 - 2 ^ 103 := by norm_num
  rw [sfRcp_fin neg pos]
  refine rndF32_rne_overflow neg (recipMag_pos pos) _ ?_
  rw [← end25] at large ⊢
  exact (recip_le_iff pos e (by norm_num) 103).2 large

/-- RCP of any other value gives the FP32 value nearest to the reciprocal. -/
theorem sfRcp_nearest (below : 1 / (m * 2 ^ e) < (2 : ℚ) ^ 128 - 2 ^ 103) :
    ∃ y, FiniteF32 (sfRcp (.fin neg m e)).1 neg (signed neg y) ∧
    (∀ z n u, FiniteF32 z n u → |y - 1 / (m * 2 ^ e)| ≤ |signed neg u - 1 / (m * 2 ^ e)|) ∧
    (sfRcp (.fin neg m e)).2 = if y = 1 / (m * 2 ^ e) then 0#6
      else if 1 / ((m : ℚ) * 2 ^ e) < 1 / 2 ^ 126 - 1 / 2 ^ 151 then fNX ||| fUF else fNX := by
  have posQ : (0 : ℚ) < m := by exact_mod_cast pos
  have mag : (0 : ℚ) < m * 2 ^ e := by positivity
  have end25 : ((2 ^ 25 - 1 : Nat) : ℚ) * 2 ^ (103 : Int) = 2 ^ 128 - 2 ^ 103 := by norm_num
  have tiny25 : ((2 ^ 25 - 1 : Nat) : ℚ) * 2 ^ (-151 : Int) = 1 / 2 ^ 126 - 1 / 2 ^ 151 := by norm_num
  have top := recip_le_iff pos e (j := 2 ^ 25 - 1) (by norm_num) 103
  have bottom := recip_le_iff pos e (j := 2 ^ 25 - 1) (by norm_num) (-151)
  rw [end25] at top
  rw [tiny25] at bottom
  obtain ⟨lo, hi, y, ⟨nonneg, -, gap, low, high⟩, nearer, word, flags⟩ :=
    rndF32_root (standsFor_recip pos e) (recipMag_pos pos) neg (not_le.1 (top.not.2 (not_le.2 below)))
  rw [sfRcp_fin neg pos]
  refine ⟨y, word, fun z n u h => nearest_of_nearer nonneg ((le_div_iff₀ mag).2 low) ((div_lt_iff₀ mag).2 high) ?_ ?_, ?_⟩
  · unfold NearerRoot at nearer
    rwa [← div_le_iff₀ mag, ← le_div_iff₀ mag] at nearer
  · rw [abs_signed]
    exact gap z n u h
  · simp only [flags, eq_div_iff mag.ne', ← not_le, bottom]

end

/-! ## SQRT (R150, R152) -/

theorem isqrtFrom_bounds (n k : Nat) {r : Nat} (low : r * r ≤ n) (high : n < (r + 2 ^ k) * (r + 2 ^ k)) :
    isqrtFrom n k r * isqrtFrom n k r ≤ n ∧ n < (isqrtFrom n k r + 1) * (isqrtFrom n k r + 1) := by
  induction k generalizing r with
  | zero => exact ⟨low, high⟩
  | succ k ih =>
    rw [isqrtFrom]
    split
    case isTrue le =>
      refine ih le ?_
      rwa [add_assoc, ← two_mul, ← pow_succ']
    case isFalse less => exact ih low (not_le.1 less)

/-- The model's square root is the library's. -/
theorem isqrt_eq_sqrt (n : Nat) : isqrt n = Nat.sqrt n := by
  have short : n < 2 ^ (bitLen n / 2 + 1) * 2 ^ (bitLen n / 2 + 1) := by
    rcases Nat.eq_zero_or_pos n with rfl | pos
    · positivity
    · obtain ⟨j, len, -, hi⟩ := bitLen_bounds pos.ne'
      rw [← pow_add, len]
      exact hi.trans_le (Nat.pow_le_pow_right (by decide) (by omega))
  obtain ⟨low, high⟩ := isqrtFrom_bounds n (bitLen n / 2 + 1) (r := 0) (by omega) (by simpa using short)
  exact Nat.eq_sqrt.2 ⟨low, high⟩

/-- The mantissa of the same magnitude with an even exponent. -/
def evenMag (m : Nat) (e : Int) : Nat := if e % 2 = 0 then m else 2 * m

/-- Half of that exponent. -/
def halfExp (e : Int) : Int := e / 2

theorem evenMag_val (m : Nat) (e : Int) : (evenMag m e : ℚ) * (2 ^ halfExp e * 2 ^ halfExp e) = m * 2 ^ e := by
  unfold evenMag halfExp
  rw [← zpow_add₀ two_ne_zero]
  split
  case isTrue even => congr 2; omega
  case isFalse odd =>
    have : e = e / 2 + e / 2 + 1 := by omega
    rw [this, zpow_add_one₀ two_ne_zero, ← this]
    push_cast
    ring

theorem evenMag_pos {m : Nat} (pos : 0 < m) (e : Int) : 0 < evenMag m e := by
  unfold evenMag
  split <;> omega

/-- The bits of the square root of n and a sticky bit below them. -/
def rootMag (n : Nat) : Nat := 2 * Nat.sqrt n + if Nat.sqrt n * Nat.sqrt n = n then 0 else 1

theorem sqrtNum_fin {m : Nat} (pos : 0 < m) (e : Int) :
    sqrtNum (.fin false m e) = (.fin false (rootMag (evenMag m e * 2 ^ 260)) (halfExp e - 131), 0#6) := by
  have mag : (if e % 2 ≠ 0 then 2 * m else m) = evenMag m e := by rw [evenMag, ite_not]
  have exp : ((if e % 2 ≠ 0 then e - 1 else e) - 260) / 2 - 1 = halfExp e - 131 := by
    unfold halfExp
    split <;> omega
  unfold rootMag
  rw [← mag, ← exp, ← isqrt_eq_sqrt]
  simp only [sqrtNum, pos.ne', if_false, Bool.false_eq_true]

theorem sfSqrt_fin {m : Nat} (pos : 0 < m) (e : Int) :
    sfSqrt (.fin false m e) = rndF32 (.fin false (rootMag (evenMag m e * 2 ^ 260)) (halfExp e - 131)) 0 := by
  rw [sfSqrt, sfNan_number rfl]
  simp only [sqrtNum_fin pos, BitVec.zero_or, Prod.mk.eta]

theorem long_sqrt {n w : Nat} (pos : 0 < n) (wide : 24 + 24 ≤ w) : 2 ^ 24 ≤ Nat.sqrt (n * 2 ^ w) := by
  rw [Nat.le_sqrt, ← pow_add]
  exact (Nat.pow_le_pow_right two_pos wide).trans (Nat.le_mul_of_pos_left _ pos)

/-- The root with its sticky bit stands for the square root. -/
theorem standsFor_root {m : Nat} (pos : 0 < m) (e : Int) :
    StandsFor (fun x => x * x) (m * 2 ^ e) (rootMag (evenMag m e * 2 ^ 260) * 2 ^ (halfExp e - 131)) := by
  have posEven := evenMag_pos pos e
  rw [← evenMag_val m e]
  generalize evenMag m e = n at posEven
  generalize halfExp e = h
  have long : 2 ^ 24 ≤ Nat.sqrt (n * 2 ^ 260) := long_sqrt posEven (by omega)
  have value (j : Nat) : (j : ℚ) * 2 ^ (h - 130) * (j * 2 ^ (h - 130)) = (j * j : Nat) * 2 ^ (2 * (h - 130)) := by
    rw [two_mul, zpow_add₀ two_ne_zero]
    push_cast
    ring
  have goal : (n : ℚ) * (2 ^ h * 2 ^ h) = (n * 2 ^ 260 : Nat) * 2 ^ (2 * (h - 130)) := by
    have : (2 : ℚ) ^ h * 2 ^ h = 2 ^ (260 : Int) * 2 ^ (2 * (h - 130)) := by
      rw [← zpow_add₀ two_ne_zero, ← zpow_add₀ two_ne_zero]
      congr 1
      ring
    rw [this, Nat.cast_mul, mul_assoc, Nat.cast_pow]
    rfl
  rw [goal]
  generalize n * 2 ^ 260 = big at long
  have unit : (0 : ℚ) < 2 ^ (2 * (h - 130)) := by positivity
  have shift : h - 131 = h - 130 - 1 := by ring
  unfold rootMag
  rw [shift]
  refine standsFor_sticky (fun x y nonneg less => mul_self_lt_mul_self nonneg less) _ long (by split <;> omega) ?_ ?_ ?_
  · rw [value, mul_le_mul_iff_left₀ unit]
    exact_mod_cast Nat.sqrt_le big
  · rw [value, mul_lt_mul_iff_left₀ unit]
    exact_mod_cast Nat.lt_succ_sqrt big
  · rw [value, mul_left_inj' unit.ne', Nat.cast_inj]
    split <;> simp [*]

end Sys2Proof.Machine
end

section
/-! SUPPORT. SQRT and RSQ of a positive FP32 value (R150): the nearest root, and the exact reciprocal root or a neighbour of
it. -/

namespace Sys2Proof.Machine

/-! ## The range of FP32 -/

/-- A positive FP32 value: its magnitude and its range. -/
theorem FiniteF32.positive {w : Word} {v : ℚ} (h : FiniteF32 w false v) (pos : 0 < v) :
    ∃ m e, decF32 w = .fin false m e ∧ 0 < m ∧ m < 2 ^ 24 ∧ v = m * 2 ^ e ∧ (2 : ℚ) ^ (-149 : Int) ≤ v ∧
      v < 2 ^ (128 : Int) := by
  obtain ⟨m, e, word, mpos, rfl⟩ := h.magnitude pos.ne'
  obtain ⟨short, least, most⟩ := decF32_fin_bounds word
  have low : (1 : ℚ) ≤ m := by exact_mod_cast mpos
  have high : (m : ℚ) < 2 ^ (24 : Int) := by exact_mod_cast short
  refine ⟨m, e, word, mpos, short, rfl, ?_, ?_⟩
  · calc (2 : ℚ) ^ (-149 : Int) ≤ 2 ^ e := zpow_le_zpow_right₀ one_le_two least
      _ ≤ m * 2 ^ e := le_mul_of_one_le_left (by positivity) low
  · calc (m : ℚ) * 2 ^ e < 2 ^ (24 : Int) * 2 ^ e := mul_lt_mul_of_pos_right high (by positivity)
      _ = 2 ^ (24 + e) := (zpow_add₀ two_ne_zero ..).symm
      _ ≤ 2 ^ (128 : Int) := zpow_le_zpow_right₀ one_le_two (by omega)

/-- A power of two within the range is rounded to itself, without flag. -/
theorem rndF32_pow (j : Nat) (e : Int) (least : -149 ≤ j + e) (most : j + e ≤ 127) :
    FiniteF32 (rndF32 (.fin false (2 ^ j) e) 0).1 false (2 ^ (j + e)) ∧ (rndF32 (.fin false (2 ^ j) e) 0).2 = 0#6 := by
  have value : ((2 ^ j : Nat) : ℚ) * 2 ^ e = 2 ^ (j + e) := by
    rw [zpow_add₀ two_ne_zero, zpow_natCast]
    push_cast
    rfl
  have units (u : Int) : unitsIn (2 ^ j) e u = unitsIn 1 (j + e) u := by
    rw [unitsIn, unitsIn, add_sub_assoc, zpow_add₀ two_ne_zero, zpow_natCast]
    push_cast
    ring
  have lead : leadOf (2 ^ j) e = j + e := by
    rw [leadOf, bitLen_eq le_rfl (Nat.pow_lt_pow_succ (by decide))]
    push_cast
    ring
  have fine : (stepOf (2 ^ j) e : Int) - 149 ≤ j + e := by
    unfold stepOf
    omega
  rw [← value]
  refine rndF32_exact false (by positivity) e ?_ ?_
  · rw [value]
    calc (2 : ℚ) ^ ((j : Int) + e) ≤ 2 ^ (127 : Int) := zpow_le_zpow_right₀ one_le_two most
      _ < 2 ^ 128 - 2 ^ 103 := by norm_num
  · rw [wholeUnits, units, unitsIn_fine fine, Nat.floor_natCast]

/-! ## SQRT -/

/-- The nearer neighbour of a square root is nearest to it among all FP32 values from 0 on. -/
theorem nearest_root {v lo hi y u : ℚ} (between : RootBetween (fun x => x * x) v lo hi)
    (nearer : NearerRoot (fun x => x * x) v lo hi y)
    (gap : |u| ≤ lo ∨ hi ≤ |u|) (nonneg : 0 ≤ u) :
    (y < u → 4 * v ≤ (y + u) * (y + u)) ∧ (u < y → (u + y) * (u + y) ≤ 4 * v) := by
  obtain ⟨from0, less, -, low, high⟩ := between
  rw [abs_of_nonneg nonneg] at gap
  rcases nearer with ⟨rfl, near⟩ | ⟨rfl, near⟩
  · constructor
    · intro above
      have : hi ≤ u := gap.resolve_left (not_le.2 above)
      nlinarith
    · intro below
      nlinarith
  · constructor
    · intro above
      nlinarith
    · intro below
      have : u ≤ lo := gap.resolve_right (not_le.2 below)
      nlinarith

theorem rootMag_pos {n : Nat} (pos : 0 < n) : 0 < rootMag n := by
  have := Nat.sqrt_pos.2 pos
  unfold rootMag
  omega

/-- SQRT of a positive value gives the FP32 value nearest to the root. -/
theorem sfSqrt_nearest {w : Word} {v : ℚ} (h : FiniteF32 w false v) (pos : 0 < v) :
    ∃ y, FiniteF32 (sfSqrt (decF32 w)).1 false y ∧ (sfSqrt (decF32 w)).2 = (if y * y = v then 0#6 else fNX) ∧
      ∀ z n u, FiniteF32 z n u → 0 ≤ u → (y < u → 4 * v ≤ (y + u) * (y + u)) ∧ (u < y → (u + y) * (u + y) ≤ 4 * v) := by
  obtain ⟨m, e, word, mpos, -, rfl, least, most⟩ := h.positive pos
  have stands := standsFor_root mpos e
  have top := stands.ge_iff (j := 1) (by norm_num) 127
  have bottom := stands.le_iff (j := 1) (by norm_num) (-126)
  have root : 0 < rootMag (evenMag m e * 2 ^ 260) := rootMag_pos (Nat.mul_pos (evenMag_pos mpos e) (by positivity))
  rw [word, sfSqrt_fin mpos]
  generalize rootMag (evenMag m e * 2 ^ 260) = r at stands top bottom root
  have high := top.1 (by norm_num at most ⊢; linarith)
  have low := bottom.1 (by norm_num at least ⊢; linarith)
  have below : (r : ℚ) * 2 ^ (halfExp e - 131) < 2 ^ 128 - 2 ^ 103 := high.trans_lt (by norm_num)
  have normal : ¬(r : ℚ) * 2 ^ (halfExp e - 131) < 1 / 2 ^ 126 - 1 / 2 ^ 151 := not_lt.2 (le_trans (by norm_num) low)
  obtain ⟨lo, hi, y, between, nearer, value, flags⟩ := rndF32_root stands root false below
  rw [if_neg normal] at flags
  exact ⟨y, value, flags, fun z n u hu nonneg => nearest_root between nearer (between.gap z n u hu) nonneg⟩

/-! ## RSQ -/

/-- The root that RSQ takes. -/
def rsqRoot (m : Nat) : Nat := Nat.sqrt (2 ^ 600 / m)

theorem sfRsq_fin (bits : Word) {m : Nat} (pos : 0 < m) (e : Int) : sfRsq bits (.fin false m e) =
    if rsqRoot (evenMag m e) * rsqRoot (evenMag m e) * evenMag m e = 2 ^ 600
    then rndF32 (.fin false (rsqRoot (evenMag m e)) (-300 - halfExp e)) 0
    else rndF32 (.fin false (2 * rsqRoot (evenMag m e) + 1) (-300 - halfExp e - 1))
      (if Config.rsqUp bits.toNat then 2 else 1) := by
  have even : (if e % 2 = 0 then (m, e) else (2 * m, e - 1)) = (evenMag m e, 2 * halfExp e) := by
    unfold evenMag halfExp
    split <;> congr 1 <;> omega
  have half : 2 * halfExp e / 2 = halfExp e := by omega
  have less : -301 - halfExp e = -300 - halfExp e - 1 := by omega
  have root : isqrt (2 ^ 600 / evenMag m e) = rsqRoot (evenMag m e) := isqrt_eq_sqrt _
  rw [sfRsq, sfNan_number rfl]
  simp only [pos.ne', if_false, Bool.false_eq_true, even, half, less, root]

section
variable {m : Nat} (pos : 0 < m) (short : m < 2 ^ 25)
include pos

omit pos in
theorem rsqRoot_low : rsqRoot m * rsqRoot m * m ≤ 2 ^ 600 := by
  unfold rsqRoot
  generalize 2 ^ 600 = big
  exact (Nat.mul_le_mul_right m (Nat.sqrt_le _)).trans (Nat.div_mul_le_self big m)

theorem rsqRoot_high : 2 ^ 600 < (rsqRoot m + 1) * (rsqRoot m + 1) * m := by
  unfold rsqRoot
  generalize 2 ^ 600 = big
  exact (Nat.div_lt_iff_lt_mul pos).1 (Nat.lt_succ_sqrt _)

include short

theorem rsqRoot_long : 2 ^ 24 ≤ rsqRoot m := by
  have wide : 24 + 24 + 25 ≤ 600 := by norm_num
  unfold rsqRoot
  generalize 600 = width at wide
  rw [Nat.le_sqrt, Nat.le_div_iff_mul_le pos, ← pow_add]
  calc 2 ^ (24 + 24) * m ≤ 2 ^ (24 + 24) * 2 ^ 25 := Nat.mul_le_mul_left _ short.le
    _ = 2 ^ (24 + 24 + 25) := (pow_add ..).symm
    _ ≤ 2 ^ width := Nat.pow_le_pow_right two_pos wide

end

/-- A reciprocal root in steps of 2^u, against 1. -/
theorem rsq_val (m j : Nat) (h : Int) :
    (j : ℚ) * 2 ^ (-300 - h) * (j * 2 ^ (-300 - h)) * (m * (2 ^ h * 2 ^ h)) = ((j * j * m : Nat) : ℚ) / (2 ^ 600 : Nat) := by
  have powers : (2 : ℚ) ^ (-300 - h) * 2 ^ (-300 - h) * (2 ^ h * 2 ^ h) = ((2 ^ 600 : Nat) : ℚ)⁻¹ := by
    rw [← zpow_add₀ two_ne_zero, ← zpow_add₀ two_ne_zero, ← zpow_add₀ two_ne_zero, Nat.cast_pow, ← zpow_natCast, ← zpow_neg]
    congr 1
    push_cast
    ring
  calc _ = (j : ℚ) * j * m * (2 ^ (-300 - h) * 2 ^ (-300 - h) * (2 ^ h * 2 ^ h)) := by ring
    _ = _ := by rw [powers, ← div_eq_mul_inv, Nat.cast_mul, Nat.cast_mul]

/-- RSQ's root with a bit below it, where it is not exact, stands for the reciprocal root. -/
theorem standsFor_rsq {m : Nat} (pos : 0 < m) (short : m < 2 ^ 25) (h : Int) (part : rsqRoot m * rsqRoot m * m ≠ 2 ^ 600) :
    StandsFor (fun x => x * x * (m * (2 ^ h * 2 ^ h))) 1 ((2 * rsqRoot m + 1 : Nat) * 2 ^ (-300 - h - 1)) := by
  have posQ : (0 : ℚ) < m := by exact_mod_cast pos
  have unit : (0 : ℚ) < (2 ^ 600 : Nat) := by positivity
  refine standsFor_sticky ?_ _ (rsqRoot_long pos short) le_rfl ?_ ?_ ?_
  · exact fun x y nonneg less => mul_lt_mul_of_pos_right (mul_self_lt_mul_self nonneg less) (by positivity)
  · rw [rsq_val, div_le_one unit, Nat.cast_le]
    exact rsqRoot_low
  · rw [rsq_val, one_lt_div unit, Nat.cast_lt]
    exact rsqRoot_high pos
  · rw [rsq_val, div_eq_one_iff_eq unit.ne', Nat.cast_inj]
    exact iff_of_false one_ne_zero part

/-! ### A magnitude of more than 24 bits, odd -/

section
variable (neg : Bool) {r : Nat} (long : 2 ^ 24 ≤ r) (e : Int) (mode : Nat)
include long

theorem modeSteps_odd_inexact : (modeSteps neg (2 * r + 1) e mode).2 = false := by
  obtain ⟨n, len, -, hi⟩ := bitLen_bounds (show 2 * r + 1 ≠ 0 by omega)
  have wide : 24 < n + 1 := (Nat.pow_lt_pow_iff_right (by norm_num)).1 ((show 2 ^ 24 < 2 * r + 1 by omega).trans hi)
  have lead : leadOf (2 * r + 1) e = n + e := by rw [leadOf, len]; push_cast; ring
  have coarse : ∃ d : Nat, 0 < d ∧ (stepOf (2 * r + 1) e : Int) - 149 = e + d :=
    ⟨((stepOf (2 * r + 1) e : Int) - 149 - e).toNat, by unfold stepOf; omega, by unfold stepOf; omega⟩
  obtain ⟨d, dpos, step⟩ := coarse
  rw [← Bool.not_eq_true, modeSteps, step, roundUnits_exact_iff mode neg (2 * r + 1) e 0 dpos]
  obtain ⟨d, rfl⟩ := Nat.exists_eq_succ_of_ne_zero dpos.ne'
  rw [Nat.succ_eq_add_one, pow_succ', ← Nat.dvd_iff_mod_eq_zero]
  intro rest
  have := (Dvd.intro _ rfl).trans rest
  omega

end

/-- What RSQ says of y: it is the reciprocal root, or a neighbour of it. -/
def FaithfulRsq (v y : ℚ) : Prop :=
  ∀ z n u, FiniteF32 z n u → 0 ≤ u → (u * u * v = 1 → y = u) ∧ (y < u → y * y * v < 1 → 1 < u * u * v) ∧
    (u < y → 1 < y * y * v → u * u * v < 1)

theorem faithfulRsq_exact {v y : ℚ} (nonneg : 0 ≤ y) (pos : 0 < v) (exact : y * y * v = 1) : FaithfulRsq v y := by
  intro z n u hu from0
  refine ⟨fun same => ?_, fun _ less => absurd exact less.ne, fun _ more => absurd exact more.ne'⟩
  have squares : y * y = u * u := mul_right_cancel₀ pos.ne' (exact.trans same.symm)
  exact (mul_self_inj nonneg from0).1 squares

theorem faithfulRsq_neighbour {v lo hi y : ℚ} (pos : 0 < v) (between : RootBetween (fun x => x * x * v) 1 lo hi)
    (part : lo * lo * v ≠ 1) (neighbour : y = lo ∨ y = hi) : FaithfulRsq v y := by
  obtain ⟨from0, less, gap, low, high⟩ := between
  have low : lo * lo * v < 1 := low.lt_of_ne part
  intro z n u hu nonneg
  have side : u ≤ lo ∧ u * u * v < 1 ∨ hi ≤ u ∧ 1 < u * u * v := by
    rcases gap z n u hu with inside | outside
    · rw [abs_of_nonneg nonneg] at inside
      exact .inl ⟨inside, (mul_le_mul_of_nonneg_right (mul_self_le_mul_self nonneg inside) pos.le).trans_lt low⟩
    · rw [abs_of_nonneg nonneg] at outside
      exact .inr ⟨outside,
        high.trans_le (mul_le_mul_of_nonneg_right (mul_self_le_mul_self (from0.trans less.le) outside) pos.le)⟩
  grind

/-- A power of two that is the reciprocal root of an FP32 value lies within the range. -/
theorem rsq_pow_range {v : ℚ} {p : Int} (exact : (2 : ℚ) ^ p * 2 ^ p * v = 1) (least : (2 : ℚ) ^ (-149 : Int) ≤ v)
    (most : v < 2 ^ (128 : Int)) : -149 ≤ p ∧ p ≤ 127 := by
  rw [← zpow_add₀ two_ne_zero] at exact
  have unit : (0 : ℚ) < 2 ^ (p + p) := by positivity
  have above := mul_lt_mul_of_pos_left most unit
  have below := mul_le_mul_of_nonneg_left least unit.le
  rw [exact, ← zpow_add₀ two_ne_zero, ← zpow_zero (2 : ℚ), zpow_lt_zpow_iff_right₀ one_lt_two] at above
  rw [exact, ← zpow_add₀ two_ne_zero, ← zpow_zero (2 : ℚ), zpow_le_zpow_iff_right₀ one_lt_two] at below
  omega

section
variable {n : Nat} (pos : 0 < n) (short : n < 2 ^ 25) (h : Int) (least : (2 : ℚ) ^ (-149 : Int) ≤ n * (2 ^ h * 2 ^ h))
  (most : (n : ℚ) * (2 ^ h * 2 ^ h) < 2 ^ (128 : Int))
include pos least most

/-- RSQ of an even power of two. -/
theorem rsq_exact (exact : rsqRoot n * rsqRoot n * n = 2 ^ 600) :
    ∃ y, FiniteF32 (rndF32 (.fin false (rsqRoot n) (-300 - h)) 0).1 false y ∧
      (rndF32 (.fin false (rsqRoot n) (-300 - h)) 0).2 = 0#6 ∧ y * y * (n * (2 ^ h * 2 ^ h)) = 1 ∧
        FaithfulRsq (n * (2 ^ h * 2 ^ h)) y := by
  have posQ : (0 : ℚ) < n := by exact_mod_cast pos
  obtain ⟨j, -, power⟩ := (Nat.dvd_prime_pow Nat.prime_two).1 (Dvd.intro _ ((mul_assoc ..).symm.trans exact))
  have value : ((2 ^ j : Nat) : ℚ) * 2 ^ (-300 - h) = 2 ^ ((j : Int) + (-300 - h)) := by
    rw [zpow_add₀ two_ne_zero, zpow_natCast, Nat.cast_pow]
    rfl
  have unit : (0 : ℚ) < (2 ^ 600 : Nat) := by positivity
  have root := rsq_val n (2 ^ j) h
  rw [← power, exact, div_self unit.ne', power, value] at root
  obtain ⟨low, high⟩ := rsq_pow_range root least most
  obtain ⟨word, flags⟩ := rndF32_pow j (-300 - h) low high
  rw [power]
  exact ⟨_, word, flags, root, faithfulRsq_exact (by positivity) (by positivity) root⟩

include short

/-- RSQ of any other value. -/
theorem rsq_neighbour (part : rsqRoot n * rsqRoot n * n ≠ 2 ^ 600) (up : Bool) :
    ∃ y, FiniteF32 (rndF32 (.fin false (2 * rsqRoot n + 1) (-300 - h - 1)) (if up then 2 else 1)).1 false y ∧
      (rndF32 (.fin false (2 * rsqRoot n + 1) (-300 - h - 1)) (if up then 2 else 1)).2 = fNX ∧
      y * y * (n * (2 ^ h * 2 ^ h)) ≠ 1 ∧ FaithfulRsq (n * (2 ^ h * 2 ^ h)) y := by
  have posQ : (0 : ℚ) < n := by exact_mod_cast pos
  have stands := standsFor_rsq pos short h part
  have long := rsqRoot_long pos short
  generalize rsqRoot n = r at stands long
  have odd : 0 < 2 * r + 1 := by omega
  have top := (stands.ge_iff (j := 1) (by norm_num) 126).1 (by norm_num at least ⊢; linarith)
  have bottom := (stands.le_iff (j := 1) (by norm_num) (-126)).1 (by norm_num at most ⊢; linarith)
  rw [Nat.cast_one, one_mul] at top bottom
  have high : leadOf (2 * r + 1) (-300 - h - 1) ≤ 126 :=
    Int.lt_add_one_iff.1 ((leadOf_lt_iff odd ..).2 (top.trans_lt (zpow_lt_zpow_right₀ one_lt_two (by norm_num))))
  have between := rootBetween_whole stands odd
  have inexact := modeSteps_odd_inexact false long (-300 - h - 1) (if up then 2 else 1)
  have partly := (modeSteps_exact_iff stands odd false (if up then 2 else 1)).not.1 (by rw [inexact]; decide)
  obtain ⟨steps, full⟩ := modeSteps_bounds false odd (-300 - h - 1) (if up then 2 else 1)
  rw [rndF32_normal false odd _ _ ((le_leadOf_iff odd ..).2 bottom) high, inexact]
  have neighbour : stepsVal (stepOf (2 * r + 1) (-300 - h - 1))
    (modeSteps false (2 * r + 1) (-300 - h - 1) (if up then 2 else 1)).1 = _ ∨
      stepsVal (stepOf (2 * r + 1) (-300 - h - 1)) (modeSteps false (2 * r + 1) (-300 - h - 1) (if up then 2 else 1)).1 = _ :=
    (roundUnits_whole_or_next ..).imp (congrArg _) (congrArg _)
  refine ⟨_, finiteF32_step false steps full ?_, rfl, ?_, faithfulRsq_neighbour (by positivity) between partly neighbour⟩
  · unfold stepCode stepOf infCode
    omega
  · rcases neighbour with same | next
    · exact same ▸ partly
    · exact next ▸ between.high.ne'

end

/-- RSQ of a positive value gives the reciprocal root, or a neighbour of it. -/
theorem sfRsq_faithful {w : Word} {v : ℚ} (h : FiniteF32 w false v) (pos : 0 < v) :
    ∃ y, FiniteF32 (sfRsq w (decF32 w)).1 false y ∧ (sfRsq w (decF32 w)).2 = (if y * y * v = 1 then 0#6 else fNX) ∧
      FaithfulRsq v y := by
  obtain ⟨m, e, word, mpos, short, rfl, least, most⟩ := h.positive pos
  have shortEven : evenMag m e < 2 ^ 25 := by
    unfold evenMag
    split <;> omega
  rw [← evenMag_val m e] at least most ⊢
  rw [word, sfRsq_fin _ mpos]
  split
  case isTrue exact =>
    obtain ⟨y, value, flags, root, faithful⟩ := rsq_exact (evenMag_pos mpos e) (halfExp e) least most exact
    exact ⟨y, value, flags.trans (if_pos root).symm, faithful⟩
  case isFalse part =>
    obtain ⟨y, value, flags, root, faithful⟩ := rsq_neighbour (evenMag_pos mpos e) shortEven (halfExp e) least most part _
    exact ⟨y, value, flags.trans (if_neg root).symm, faithful⟩

end Sys2Proof.Machine
end

section
/-! SUPPORT. The special-function words (R138, R150): their outstanding results, a NaN made quiet (R152), and what each
function does with a finite value. -/

namespace Sys2Proof.Machine

/-! ## Outstanding results (R138) -/

/-- The results of a special-function word, and their flags, are outstanding. -/
theorem sfWord_outstanding (s : State) (k : Ctl) (f : VFields) (fn : Word → Num → Word × Flags) : ∃ fl,
    Deferred s (s.sfWord k f fn) k
      (writes32 s.me k f.d fun l => (fn (rd s s.me f.a l) (decF32 (rd s s.me f.a l))).1) fl false false ∧
      ∀ b, fl.getLsbD b = true ↔ ∃ l, l < 32 ∧ (s.me.eff k).getLsbD l = true ∧
        (fn (rd s s.me f.a l) (decF32 (rd s s.me f.a l))).2.getLsbD b = true := by
  refine ⟨_, defer_deferred .., fun b => ?_⟩
  simp only [flagsOver, orFlags_map_getLsbD, dstLanes, mem_maskLanes, and_assoc]

/-! ## NaNs (R152) -/

/-- An FP32 NaN: its sign and fraction. -/
theorem decF32_nan {w : Word} (h : (decF32 w).isNan = true) : ∃ (neg : Bool) (frac : Nat), frac < 2 ^ 23 ∧
    w.toNat = (if neg then 2 ^ 31 else 0) + 255 * 2 ^ 23 + frac ∧
      decF32 w = .nan neg (decide (2 ^ 22 ≤ frac)) (frac * 2 ^ 29) := by
  have bound : w.toNat < 2 ^ 32 := w.isLt
  have run : decF32 w = if w.toNat / 2 ^ 0 % 2 ^ 32 % 2 ^ 31 / 2 ^ 23 = 2 ^ 8 - 1 then
      if w.toNat / 2 ^ 0 % 2 ^ 32 % 2 ^ 31 % 2 ^ 23 = 0 then .inf (decide (w.toNat / 2 ^ 0 % 2 ^ 32 / 2 ^ 31 = 1))
      else .nan (decide (w.toNat / 2 ^ 0 % 2 ^ 32 / 2 ^ 31 = 1)) (decide (2 ^ 22 ≤ w.toNat / 2 ^ 0 % 2 ^ 32 % 2 ^ 31 % 2 ^ 23))
        (w.toNat / 2 ^ 0 % 2 ^ 32 % 2 ^ 31 % 2 ^ 23 * 2 ^ 29)
    else .fin (decide (w.toNat / 2 ^ 0 % 2 ^ 32 / 2 ^ 31 = 1)) (fp32.magOf (w.toNat / 2 ^ 0 % 2 ^ 32 % 2 ^ 31)).1
      (fp32.magOf (w.toNat / 2 ^ 0 % 2 ^ 32 % 2 ^ 31)).2 := rfl
  rw [run] at h ⊢
  split at h
  case isFalse => cases h
  case isTrue top =>
    split at h
    case isTrue => cases h
    case isFalse some =>
      rw [if_pos top, if_neg some]
      refine ⟨_, _, by omega, ?_, rfl⟩
      by_cases neg : w.toNat / 2 ^ 0 % 2 ^ 32 / 2 ^ 31 = 1 <;>
        simp only [neg, decide_true, decide_false, if_true, if_false, Bool.false_eq_true] <;> omega

/-- Bit 22 set. -/
theorem or_quietBit (w : Word) : w ||| 0x00400000#32 = if w.getLsbD 22 then w else w + 0x00400000#32 := by
  have bit : 0x00400000#32 = BitVec.twoPow 32 22 := rfl
  rw [bit]
  split
  case isTrue set =>
    ext i hi
    rw [BitVec.getElem_or, BitVec.getElem_twoPow]
    by_cases at22 : i = 22
    · subst at22
      rw [← BitVec.getLsbD_eq_getElem, set]
      rfl
    · simp [at22]
  case isFalse clear =>
    rw [BitVec.add_eq_or_of_and_eq_zero]
    ext i hi
    rw [BitVec.getElem_and, BitVec.getElem_twoPow]
    by_cases at22 : i = 22
    · subst at22
      simp [← BitVec.getLsbD_eq_getElem, clear]
    · simp [at22]

theorem f32Word_toNat (neg : Bool) {c : Nat} (short : c < 2 ^ 31) :
    (f32Word neg c).toNat = (if neg then 2 ^ 31 else 0) + c := by
  rw [f32Word_eq, BitVec.toNat_ofNat]
  split <;> omega

theorem rndF32_nan (neg quiet : Bool) (frac mode : Nat) : (rndF32 (.nan neg quiet frac) mode).1 =
    f32Word neg (255 * 2 ^ 23 + (frac / 2 ^ 29 % 2 ^ 22 + 2 ^ 22)) := by
  have top : fp32.top = .ieee := rfl
  have mbits : fp32.mbits = 23 := rfl
  have ebits : fp32.ebits = 8 := rfl
  have other : fp32 ≠ e5m2 := by decide
  simp only [rndF32, roundTo, top, mbits, ebits, other, if_false, f32Word, Nat.reducePow, Nat.reduceSub]

/-- A NaN is made quiet, and invalid where it was signalling. -/
theorem sfNan_word {w : Word} (h : (decF32 w).isNan = true) (f : Num → Word × Flags) :
    sfNan (decF32 w) f = (w ||| 0x00400000#32, flagIf (!w.getLsbD 22) fIV) := by
  have run : sfNan (decF32 w) f = ((rndF32 (decF32 w).quieten 0).1, anySnan [decF32 w]) := by rw [sfNan, if_pos h]
  obtain ⟨neg, frac, short, bits, value⟩ := decF32_nan h
  have quiet : w.getLsbD 22 = decide (2 ^ 22 ≤ frac) := by
    rw [BitVec.getLsbD, Nat.testBit_eq_decide_div_mod_eq, bits]
    congr 1
    rw [eq_iff_iff]
    split <;> omega
  have code : (rndF32 (Num.nan neg (decide (2 ^ 22 ≤ frac)) (frac * 2 ^ 29)).quieten 0).1 =
      f32Word neg (255 * 2 ^ 23 + (frac % 2 ^ 22 + 2 ^ 22)) := by
    have same : (if frac * 2 ^ 29 < 2 ^ 51 then frac * 2 ^ 29 + 2 ^ 51 else frac * 2 ^ 29) / 2 ^ 29 % 2 ^ 22 =
      frac % 2 ^ 22 := by
      split <;> omega
    rw [Num.quieten, rndF32_nan, same]
  have flags : anySnan [Num.nan neg (decide (2 ^ 22 ≤ frac)) (frac * 2 ^ 29)] = flagIf (!w.getLsbD 22) fIV := by
    rw [anySnan_one, quiet, Num.isSnan]
  rw [run, value, code, flags]
  refine congrArg (fun word : Word => (word, flagIf (!w.getLsbD 22) fIV)) (BitVec.eq_of_toNat_eq ?_)
  rw [f32Word_toNat neg (by omega), or_quietBit, quiet]
  by_cases set : 2 ^ 22 ≤ frac
  · rw [decide_eq_true set, if_pos rfl, bits]
    omega
  · rw [decide_eq_false set, if_neg Bool.false_ne_true, BitVec.toNat_add, bits, BitVec.toNat_ofNat]
    split <;> omega

end Sys2Proof.Machine
end

section
/-! SUPPORT. The table of R152, and what each special function does with a finite value that is not 0 (R150, R151). -/

namespace Sys2Proof.Machine

/-! ## Zeros and infinities (R152) -/

theorem rndF32_zero (neg : Bool) (e : Int) : rndF32 (.fin neg 0 e) 0 = (f32Word neg 0, 0#6) := rfl

theorem rndF32_inf (neg : Bool) : rndF32 (.inf neg) 0 = (f32Word neg infCode, 0#6) := rfl

theorem sfRcp_zero (neg : Bool) (e : Int) : sfRcp (.fin neg 0 e) = (f32Word neg infCode, fDZ) := by
  have quotient : divNum (.fin false 1 0) (.fin neg 0 e) = (.inf neg, fDZ) := by cases neg <;> rfl
  rw [sfRcp, sfNan_number rfl]
  simp only [quotient, rndF32_inf, BitVec.or_zero]

theorem sfRcp_inf (neg : Bool) : sfRcp (.inf neg) = (f32Word neg 0, 0#6) := by cases neg <;> rfl

theorem sfSqrt_zero (neg : Bool) (e : Int) : sfSqrt (.fin neg 0 e) = (f32Word neg 0, 0#6) := by
  have root : sqrtNum (.fin neg 0 e) = (.fin neg 0 e, 0#6) := rfl
  rw [sfSqrt, sfNan_number rfl]
  simp only [root, rndF32_zero, BitVec.or_zero]

theorem sfRsq_table (b : Word) (e : Int) : sfRsq b (.fin false 0 e) = (0x7F800000#32, fDZ) ∧
    sfRsq b (.fin true 0 e) = (0xFF800000#32, fDZ) ∧ sfRsq b (.inf false) = (0#32, 0#6) ∧
    sfRsq b (.inf true) = (0x7FC00000#32, fIV) := ⟨rfl, rfl, rfl, rfl⟩

theorem sfSqrt_inf (neg : Bool) :
    sfSqrt (.inf neg) = (if neg then 0x7FC00000#32 else 0x7F800000#32, if neg then fIV else 0#6) := by
  cases neg <;> rfl

section
variable (base2 neg : Bool) (e : Int)

theorem sfExp_zero : sfExp base2 (.fin neg 0 e) = (0x3F800000#32, 0#6) := rfl

theorem sfExp_inf : sfExp base2 (.inf neg) = (if neg then 0#32 else 0x7F800000#32, 0#6) := by cases neg <;> rfl

theorem sfLog_zero : sfLog base2 (.fin neg 0 e) = (0xFF800000#32, fDZ) := rfl

theorem sfLog_inf : sfLog base2 (.inf neg) = (if neg then 0x7FC00000#32 else 0x7F800000#32, if neg then fIV else 0#6) := by
  cases neg <;> rfl

theorem sfSin_zero : sfTrig false (.fin neg 0 e) = (if neg then 0x80000000#32 else 0#32, 0#6) := rfl

theorem sfCos_zero : sfTrig true (.fin neg 0 e) = (0x3F800000#32, 0#6) := rfl

theorem sfTrig_inf (cos : Bool) : sfTrig cos (.inf neg) = (0x7FC00000#32, fIV) := rfl

theorem sfTanh_zero : sfTanh (.fin neg 0 e) = (if neg then 0x80000000#32 else 0#32, 0#6) := rfl

theorem sfTanh_inf : sfTanh (.inf neg) = (if neg then 0xBF800000#32 else 0x3F800000#32, 0#6) := rfl

theorem sfSigm_zero : sfSigm (.fin neg 0 e) = (0x3F000000#32, 0#6) := rfl

theorem sfSigm_inf : sfSigm (.inf neg) = (if neg then 0#32 else 0x3F800000#32, 0#6) := rfl

end

section
variable {m : Nat} (pos : 0 < m) (e : Int)
include pos

/-! ## Negative values (R152) -/

theorem sfRsq_negative (b : Word) : sfRsq b (.fin true m e) = (0x7FC00000#32, fIV) := by
  rw [sfRsq, sfNan_number rfl]
  exact (if_neg pos.ne').trans (if_pos rfl)

theorem sfSqrt_negative : sfSqrt (.fin true m e) = (0x7FC00000#32, fIV) := by
  have root : sqrtNum (.fin true m e) = (defaultNan, fIV) := (if_neg pos.ne').trans (if_pos rfl)
  rw [sfSqrt, sfNan_number rfl, root]
  rfl

theorem sfLog_negative (base2 : Bool) : sfLog base2 (.fin true m e) = (0x7FC00000#32, fIV) := by
  rw [sfLog, sfNan_number rfl]
  exact (if_neg pos.ne').trans (if_pos rfl)

/-! ## Positive and negative values (R151) -/

/-- Before its range is reduced, EXP2 and EXP ask whether the value is large, then whether it is a whole number. -/
theorem sfExp_fin (base2 neg : Bool) : sfExp base2 (.fin neg m e) =
    if 300 * fxOne ≤ fxOf m e then faithful (if base2 then 1 else 3) 0 false 1 (if neg then -400 else 400)
    else match (if base2 then intOf neg m e else none) with
      | some n => sfExp.rndF32exp (if base2 then 1 else 3) n
      | none => faithful (if base2 then 1 else 3) 0 false
        (fxExp (if base2 then fxSigned neg m e * fxLn2 / fxOne else fxSigned neg m e)).1
          ((fxExp (if base2 then fxSigned neg m e * fxLn2 / fxOne else fxSigned neg m e)).2 - 640) := by
  rw [sfExp, sfNan_number rfl]
  exact if_neg pos.ne'

theorem sfLog_fin (base2 : Bool) : sfLog base2 (.fin false m e) =
    if base2 = true ∧ m = 2 ^ (bitLen m - 1) then rndF32 (Num.ofInt (e + bitLen m - 1)) 0
    else if m = 2 ^ (bitLen m - 1) ∧ e + bitLen m - 1 = 0 then (0#32, 0#6)
    else if base2 then faithfulFx 2 0 (fxLog m e * fxOne / fxLn2) else faithfulFx 4 0 (fxLog m e) := by
  rw [sfLog, sfNan_number rfl]
  exact (if_neg pos.ne').trans (if_neg Bool.false_ne_true)

theorem sfTrig_fin (cos neg : Bool) : sfTrig cos (.fin neg m e) =
    faithfulFx (if cos then 6 else 5) (2 * (fxTrig cos m e).1 + if neg then 1 else 0)
      (if neg && !cos then -max (1 - (fxOne : Int)) (min (fxTrig cos m e).2 ((fxOne : Int) - 1))
        else max (1 - (fxOne : Int)) (min (fxTrig cos m e).2 ((fxOne : Int) - 1))) := by
  rw [sfTrig, sfNan_number rfl]
  exact if_neg pos.ne'

theorem sfTanh_fin (neg : Bool) : sfTanh (.fin neg m e) = faithfulFx 7 0
    (if neg then -((min ((fxOne - fxDecay m (e + 1)) * fxOne / (fxOne + fxDecay m (e + 1))) (fxOne - 1) : Nat) : Int)
      else (min ((fxOne - fxDecay m (e + 1)) * fxOne / (fxOne + fxDecay m (e + 1))) (fxOne - 1) : Nat)) := by
  rw [sfTanh, sfNan_number rfl]
  exact if_neg pos.ne'

theorem sfSigm_fin (neg : Bool) : sfSigm (.fin neg m e) = faithfulFx 8 0
    (min ((if neg then fxDecay m e else fxOne) * fxOne / (fxOne + fxDecay m e)) (fxOne - 1) : Nat) := by
  rw [sfSigm, sfNan_number rfl]
  exact if_neg pos.ne'

end

end Sys2Proof.Machine
end

section
/-! SUPPORT. The special functions of finite values (R151): exact powers of two, exact logarithms, the ranges of the results,
and that an inexact result is a faithful rounding. -/

namespace Sys2Proof.Machine

/-! ## Fixed point -/

theorem fxOf_eq (m : Nat) (e : Int) : fxOf m e = wholeUnits m e (-640) := by
  unfold fxOf
  split
  case isTrue fine =>
    rw [wholeUnits_fine (by omega), sub_neg_eq_add]
  case isFalse coarse =>
    obtain ⟨n, hn⟩ : ∃ n : Nat, -640 = e + n := ⟨(-(e + 640)).toNat, by omega⟩
    have same : (-(e + 640)).toNat = n := by omega
    rw [hn, wholeUnits_coarse, same]

theorem fxOne_cast : (fxOne : ℚ) = 2 ^ (640 : Int) := by
  rw [fxOne, Nat.cast_pow]
  rfl

theorem one_lt_fxOne : 1 < fxOne := by
  have : (1 : ℚ) < fxOne := fxOne_cast ▸ one_lt_zpow₀ one_lt_two (by norm_num)
  exact_mod_cast this

theorem fxOne_pos : 0 < fxOne := one_lt_fxOne.le

/-- A value below n is below n in fixed point. -/
theorem fxOf_lt {m n : Nat} {e : Int} (less : (m : ℚ) * 2 ^ e < n) : fxOf m e < n * fxOne := by
  have unit : (0 : ℚ) < 2 ^ (640 : Int) := by positivity
  have value : unitsIn m e (-640) = m * 2 ^ e * 2 ^ (640 : Int) := by
    rw [unitsIn, sub_neg_eq_add, zpow_add₀ two_ne_zero, mul_assoc]
  have : (fxOf m e : ℚ) < (n * fxOne : Nat) := by
    rw [fxOf_eq, Nat.cast_mul, fxOne_cast]
    exact (wholeUnits_le ..).trans_lt (value ▸ mul_lt_mul_of_pos_right less unit)
  exact_mod_cast this

/-! ## Whole numbers -/

section
variable {neg : Bool} {m : Nat} {e : Int}

/-- A value that is a whole number: its magnitude. -/
theorem val_eq_int {n : Int} (h : (Num.fin neg m e).val = n) :
    (m : ℚ) * 2 ^ e = n.natAbs ∧ (0 < m → n = if neg then -(n.natAbs : Int) else n.natAbs) := by
  have nonneg : (0 : ℚ) ≤ m * 2 ^ e := by positivity
  rw [Num.val_fin] at h
  have magnitude : (m : ℚ) * 2 ^ e = |(n : ℚ)| := by rw [← h, abs_signed, abs_of_nonneg nonneg]
  refine ⟨by rw [magnitude, Nat.cast_natAbs, Int.cast_abs], fun pos => ?_⟩
  have posQ : (0 : ℚ) < m := by exact_mod_cast pos
  have pos' : (0 : ℚ) < m * 2 ^ e := by positivity
  cases neg
  · have : (0 : ℚ) < n := by rw [← h]; exact pos'
    have : 0 < n := by exact_mod_cast this
    rw [if_neg Bool.false_ne_true]
    omega
  · have : (n : ℚ) < 0 := by rw [← h, signed, if_pos rfl]; linarith
    have : n < 0 := by exact_mod_cast this
    rw [if_pos rfl]
    omega

theorem intOf_whole (pos : 0 < m) {n : Int} (h : (Num.fin neg m e).val = n) (small : n.natAbs ≤ 200) :
    intOf neg m e = some n := by
  obtain ⟨magnitude, sign⟩ := val_eq_int h
  have units : unitsIn m e 0 = n.natAbs := by rw [unitsIn, sub_zero, magnitude]
  have whole : wholeUnits m e 0 = n.natAbs := by rw [wholeUnits, units, Nat.floor_natCast]
  have exact : (roundUnits 1 neg m e 0 0).2 = true := (roundUnits_exact_iff_whole ..).2 (by rw [whole, units])
  simp only [intOf, exact, roundUnits_rtz_whole, whole, small, and_self, if_true]
  exact congrArg some (sign pos).symm

theorem intOf_part (h : ∀ n : Int, (Num.fin neg m e).val = n → 200 < n.natAbs) : intOf neg m e = none := by
  rw [intOf]
  refine if_neg ?_
  rintro ⟨exact, small⟩
  have whole := (roundUnits_exact_iff_whole ..).1 exact
  rw [roundUnits_rtz_whole] at small
  have value : (Num.fin neg m e).val = ((if neg then -(wholeUnits m e 0 : Int) else wholeUnits m e 0 : Int) : ℚ) := by
    have units : unitsIn m e 0 = m * 2 ^ e := by rw [unitsIn, sub_zero]
    rw [Num.val_fin, ← units, ← whole]
    cases neg <;> simp [signed]
  have large := h _ value
  split at large <;> omega

end

/-! ## EXP2 and EXP -/

section
variable {neg : Bool} {m : Nat} {e : Int} (pos : 0 < m)
include pos

/-- EXP2 of a whole number. -/
theorem sfExp_whole {n : Int} (h : (Num.fin neg m e).val = n) (small : n.natAbs ≤ 200) :
    sfExp true (.fin neg m e) = sfExp.rndF32exp 1 n := by
  obtain ⟨magnitude, -⟩ := val_eq_int h
  have less : fxOf m e < 300 * fxOne := fxOf_lt (by rw [magnitude]; exact_mod_cast (by omega : n.natAbs < 300))
  rw [sfExp_fin pos, if_neg (not_le.2 less)]
  simp only [if_true, intOf_whole pos h small]

/-- EXP2 of a whole number in the range of FP32's exponents is exact. -/
theorem sfExp_pow {n : Int} (h : (Num.fin neg m e).val = n) (least : -149 ≤ n) (most : n ≤ 127) :
    FiniteF32 (sfExp true (.fin neg m e)).1 false (2 ^ n) ∧ (sfExp true (.fin neg m e)).2 = 0#6 := by
  have run : sfExp true (.fin neg m e) = rndF32 (.fin false (2 ^ 0) n) 0 :=
    (sfExp_whole pos h (by omega)).trans (if_pos ⟨least, most⟩)
  have power := rndF32_pow 0 n (by omega) (by omega)
  rw [Nat.cast_zero, zero_add] at power
  rw [run]
  exact power

/-- EXP2 of a whole number beyond that range is a faithful rounding. -/
theorem sfExp_far {n : Int} (h : (Num.fin neg m e).val = n) (small : n.natAbs ≤ 200) (far : n < -149 ∨ 127 < n) :
    sfExp true (.fin neg m e) = faithful 1 0 false 1 n :=
  (sfExp_whole pos h small).trans (if_neg (by omega))

/-- EXP2 and EXP of a large magnitude. -/
theorem sfExp_large (base2 : Bool) (large : 300 * fxOne ≤ fxOf m e) :
    sfExp base2 (.fin neg m e) = faithful (if base2 then 1 else 3) 0 false 1 (if neg then -400 else 400) := by
  rw [sfExp_fin pos, if_pos large]

/-- EXP, and EXP2 of any other value. -/
theorem sfExp_part (base2 : Bool) (less : fxOf m e < 300 * fxOne)
    (part : base2 = true → ∀ n : Int, (Num.fin neg m e).val = n → 200 < n.natAbs) : sfExp base2 (.fin neg m e) =
      faithful (if base2 then 1 else 3) 0 false
        (fxExp (if base2 then fxSigned neg m e * fxLn2 / fxOne else fxSigned neg m e)).1
        ((fxExp (if base2 then fxSigned neg m e * fxLn2 / fxOne else fxSigned neg m e)).2 - 640) := by
  have none : (if base2 then intOf neg m e else none) = none := by
    cases base2
    · rfl
    · exact intOf_part (part rfl)
  rw [sfExp_fin pos, if_neg (not_le.2 less), none]

omit pos in
theorem expSeries_pos (r fuel n : Nat) {t : Nat} (pos : 0 < t) : 0 < expSeries r (fuel + 1) n t := by
  rw [expSeries]
  omega

omit pos in
theorem fxExp_pos (x : Int) : 0 < (fxExp x).1 := expSeries_pos _ 149 0 fxOne_pos

/-- EXP2 and EXP are an exact power of two or a faithful rounding of a positive value. -/
theorem sfExp_cases (base2 : Bool) : (∃ n : Int, -149 ≤ n ∧ n ≤ 127 ∧ sfExp base2 (.fin neg m e) = rndF32 (.fin false 1 n) 0) ∨
    ∃ m' e', 0 < m' ∧ sfExp base2 (.fin neg m e) = faithful (if base2 then 1 else 3) 0 false m' e' := by
  rcases le_or_gt (300 * fxOne) (fxOf m e) with large | less
  · exact .inr ⟨1, _, one_pos, sfExp_large pos base2 large⟩
  · by_cases whole : base2 = true ∧ ∃ n : Int, (Num.fin neg m e).val = n ∧ n.natAbs ≤ 200
    · obtain ⟨rfl, n, value, small⟩ := whole
      by_cases range : -149 ≤ n ∧ n ≤ 127
      · exact .inl ⟨n, range.1, range.2, (sfExp_whole pos value small).trans (if_pos range)⟩
      · exact .inr ⟨1, n, one_pos, sfExp_far pos value small (by omega)⟩
    · refine .inr ⟨_, _, fxExp_pos _, sfExp_part pos base2 less fun is n value => ?_⟩
      by_contra small
      exact whole ⟨is, n, value, not_lt.1 small⟩

end

/-! ## LOG2 and LOG -/

/-- A magnitude that is a power of two. -/
theorem eq_pow_iff {m : Nat} (pos : 0 < m) (e n : Int) :
    (m : ℚ) * 2 ^ e = 2 ^ n ↔ m = 2 ^ (bitLen m - 1) ∧ e + bitLen m - 1 = n := by
  obtain ⟨k, len, lo, hi⟩ := bitLen_bounds pos.ne'
  rw [len, Nat.add_sub_cancel]
  constructor
  · intro value
    have lead : leadOf m e = n := by
      apply le_antisymm
      · rw [← Int.lt_add_one_iff, leadOf_lt_iff pos, value]
        exact zpow_lt_zpow_right₀ one_lt_two (by omega)
      · rw [le_leadOf_iff pos, value]
    rw [leadOf, len] at lead
    have exps : n = k + e := by push_cast at lead; omega
    rw [exps, zpow_add₀ two_ne_zero, mul_left_inj' (by positivity), zpow_natCast] at value
    exact ⟨by exact_mod_cast value, by omega⟩
  · rintro ⟨power, rfl⟩
    have exps : e + (k + 1 : Nat) - 1 = k + e := by push_cast; ring
    rw [exps, zpow_add₀ two_ne_zero, zpow_natCast, power, Nat.cast_pow]
    rfl

/-- An integer of 24 bits is rounded to itself. -/
theorem rndF32_int {n : Int} (short : n.natAbs < 2 ^ 24) :
    FiniteF32 (rndF32 (Num.ofInt n) 0).1 (decide (n < 0)) n ∧ (rndF32 (Num.ofInt n) 0).2 = 0#6 := by
  rcases eq_or_ne n 0 with rfl | nonzero
  · refine ⟨⟨0, -149, rfl, ?_⟩, rfl⟩
    have word : decF32 (rndF32 (Num.ofInt 0) 0).1 = .fin false 0 (-149) := rfl
    rw [word, Num.val_fin]
    simp [signed]
  · have pos : 0 < n.natAbs := Int.natAbs_pos.2 nonzero
    have shortQ : (n.natAbs : ℚ) < 2 ^ 24 := by exact_mod_cast short
    have lead : leadOf n.natAbs 0 < 24 := (leadOf_lt_iff pos 0 24).2 (by norm_num at shortQ ⊢; exact shortQ)
    have fine : (stepOf n.natAbs 0 : Int) - 149 ≤ 0 := by unfold stepOf; omega
    have exact := rndF32_exact (decide (n < 0)) pos 0 (by norm_num at shortQ ⊢; linarith)
      (by rw [wholeUnits_fine fine, unitsIn_fine fine])
    have value : signed (decide (n < 0)) ((n.natAbs : ℚ) * 2 ^ (0 : Int)) = n := by
      rw [zpow_zero, mul_one, signed, Nat.cast_natAbs]
      split
      case isTrue below =>
        rw [abs_of_neg (of_decide_eq_true below)]
        push_cast
        ring
      case isFalse above => rw [abs_of_nonneg (not_lt.1 fun below => above (decide_eq_true below))]
    rw [value] at exact
    exact exact

section
variable {m : Nat} {e : Int} (pos : 0 < m)
include pos

/-- LOG2 of a power of two is exact. -/
theorem sfLog_pow {n : Int} (h : (m : ℚ) * 2 ^ e = 2 ^ n) (short : n.natAbs < 2 ^ 24) :
    FiniteF32 (sfLog true (.fin false m e)).1 (decide (n < 0)) n ∧ (sfLog true (.fin false m e)).2 = 0#6 := by
  obtain ⟨power, exp⟩ := (eq_pow_iff pos e n).1 h
  rw [sfLog_fin pos, if_pos ⟨rfl, power⟩, exp]
  exact rndF32_int short

/-- LOG of 1 is 0. -/
theorem sfLog_one (h : (m : ℚ) * 2 ^ e = 2 ^ (0 : Int)) : sfLog false (.fin false m e) = (0#32, 0#6) := by
  rw [sfLog_fin pos, if_neg (by simp), if_pos ((eq_pow_iff pos e 0).1 h)]

/-- LOG2 of any other value is a faithful rounding. -/
theorem sfLog2_part (h : ∀ n : Int, (m : ℚ) * 2 ^ e ≠ 2 ^ n) :
    sfLog true (.fin false m e) = faithfulFx 2 0 (fxLog m e * fxOne / fxLn2) := by
  have other : m ≠ 2 ^ (bitLen m - 1) := fun power => h _ ((eq_pow_iff pos e _).2 ⟨power, rfl⟩)
  rw [sfLog_fin pos, if_neg fun both => other both.2, if_neg fun both => other both.1, if_pos rfl]

/-- LOG of any other value is a faithful rounding. -/
theorem sfLog_part (h : (m : ℚ) * 2 ^ e ≠ 2 ^ (0 : Int)) : sfLog false (.fin false m e) = faithfulFx 4 0 (fxLog m e) := by
  rw [sfLog_fin pos, if_neg (by simp), if_neg fun both => h ((eq_pow_iff pos e 0).2 both), if_neg Bool.false_ne_true]

end

end Sys2Proof.Machine
end

section
/-! SUPPORT. The ranges of the special functions' results, and that an inexact result is a faithful rounding (R151). -/

namespace Sys2Proof.Machine

/-! ## Ranges -/

theorem finiteF32_one : FiniteF32 0x3F800000#32 false 1 := by
  refine ⟨2 ^ 23, -23, by decide, ?_⟩
  have word : decF32 0x3F800000#32 = .fin false (2 ^ 23) (-23) := by decide
  rw [word, Num.val_fin, signed]
  norm_num

theorem finiteF32_zero (neg : Bool) : FiniteF32 (if neg then 0x80000000#32 else 0#32) neg 0 := by
  have word : decF32 (if neg then 0x80000000#32 else 0#32) = .fin neg 0 (-149) := by cases neg <;> decide
  refine ⟨0, -149, word, ?_⟩
  rw [word, Num.val_fin]
  cases neg <;> simp [signed]

theorem finiteF32_half : FiniteF32 0x3F000000#32 false (1 / 2) := by
  have word : decF32 0x3F000000#32 = .fin false (2 ^ 23) (-24) := by decide
  refine ⟨2 ^ 23, -24, word, ?_⟩
  rw [word, Num.val_fin, signed]
  norm_num

/-- A fixed-point value within 1 is rounded to a value within 1. -/
theorem faithfulFx_within_one (fn piece : Nat) {x : Int} (within : x.natAbs ≤ fxOne - 1) :
    ∃ y, FiniteF32 (faithfulFx fn piece x).1 (decide (x < 0)) (signed (decide (x < 0)) y) ∧ 0 ≤ y ∧ y ≤ 1 := by
  have one := one_lt_fxOne
  have less : ((max 1 x.natAbs : Nat) : ℚ) * 2 ^ (-640 : Int) < 1 := by
    have : ((max 1 x.natAbs : Nat) : ℚ) < 2 ^ (640 : Int) := by
      rw [← fxOne_cast]
      exact_mod_cast (by omega : max 1 x.natAbs < fxOne)
    rw [zpow_neg, ← div_eq_mul_inv]
    exact (div_lt_one (by positivity)).2 this
  have nonneg : (0 : ℚ) ≤ (max 1 x.natAbs : Nat) * 2 ^ (-640 : Int) := by positivity
  obtain ⟨y, value, below, above⟩ := faithful_neighbour fn piece (decide (x < 0)) (show 0 < max 1 x.natAbs by omega)
    (e := -640) (less.trans_le (by norm_num))
  refine ⟨y, value, ?_, ?_⟩
  all_goals generalize ((max 1 x.natAbs : Nat) : ℚ) * 2 ^ (-640 : Int) = v at below above less nonneg
  · rcases le_or_gt y v with le | more
    · by_contra negative
      exact absurd (below le _ _ _ (finiteF32_zero false) (not_le.1 negative)) (not_lt.2 nonneg)
    · exact nonneg.trans more.le
  · rcases le_or_gt y v with le | more
    · exact le.trans less.le
    · by_contra large
      exact absurd (above more _ _ _ finiteF32_one (not_le.1 large)) (not_le.2 less)

theorem faithfulFx_range (fn piece : Nat) {x : Int} (within : x.natAbs ≤ fxOne - 1) :
    ∃ n y, FiniteF32 (faithfulFx fn piece x).1 n y ∧ -1 ≤ y ∧ y ≤ 1 := by
  obtain ⟨y, value, nonneg, most⟩ := faithfulFx_within_one fn piece within
  refine ⟨_, _, value, ?_⟩
  unfold signed
  split <;> constructor <;> linarith

section
variable (neg : Bool) (m : Nat) (e : Int)

theorem sfTrig_range (cos : Bool) : ∃ n y, FiniteF32 (sfTrig cos (.fin neg m e)).1 n y ∧ -1 ≤ y ∧ y ≤ 1 := by
  rcases Nat.eq_zero_or_pos m with rfl | pos
  · cases cos
    · exact ⟨neg, 0, finiteF32_zero neg, by norm_num, by norm_num⟩
    · exact ⟨false, 1, finiteF32_one, by norm_num, by norm_num⟩
  · rw [sfTrig_fin pos]
    refine faithfulFx_range _ _ ?_
    have := fxOne_pos
    split <;> omega

theorem sfTanh_range : ∃ n y, FiniteF32 (sfTanh (.fin neg m e)).1 n y ∧ -1 ≤ y ∧ y ≤ 1 := by
  rcases Nat.eq_zero_or_pos m with rfl | pos
  · exact ⟨neg, 0, finiteF32_zero neg, by norm_num, by norm_num⟩
  · rw [sfTanh_fin pos]
    refine faithfulFx_range _ _ ?_
    split
    · rw [Int.natAbs_neg, Int.natAbs_natCast]
      exact min_le_right _ _
    · rw [Int.natAbs_natCast]
      exact min_le_right _ _

theorem sfSigm_range : ∃ n y, FiniteF32 (sfSigm (.fin neg m e)).1 n y ∧ 0 ≤ y ∧ y ≤ 1 := by
  rcases Nat.eq_zero_or_pos m with rfl | pos
  · exact ⟨false, _, finiteF32_half, by norm_num, by norm_num⟩
  · rw [sfSigm_fin pos]
    generalize (if neg then fxDecay m e else fxOne) * fxOne / (fxOne + fxDecay m e) = x
    obtain ⟨y, value, nonneg, most⟩ := faithfulFx_within_one 8 0 (x := (min x (fxOne - 1) : Nat))
      (by rw [Int.natAbs_natCast]; exact min_le_right _ _)
    rw [decide_eq_false (by omega)] at value
    exact ⟨_, y, value, nonneg, most⟩

/-! ## Signs -/

theorem f32Word_positive {c : Nat} (short : c < 2 ^ 31) : (f32Word false c).getLsbD 31 = false := by
  rw [BitVec.getLsbD, f32Word_toNat false short, if_neg Bool.false_ne_true, zero_add]
  exact Nat.testBit_lt_two_pow short

theorem faithful_positive (fn piece : Nat) {m : Nat} (pos : 0 < m) (e : Int) :
    (faithful fn piece false m e).1.getLsbD 31 = false := by
  rcases le_or_gt ((2 : ℚ) ^ 128 - 2 ^ 104) ((m : ℚ) * 2 ^ e) with large | below
  · rw [faithful_overflow fn piece false pos e large]
    rfl
  · rw [faithful_finite fn piece false pos e below]
    exact f32Word_positive ((stepCode_lt_inf pos below (faithfulSteps_le ..)).trans (by decide))

/-- The bit of the sign of a finite value. -/
theorem FiniteF32.sign {w : Word} {v : ℚ} (h : FiniteF32 w false v) : w.getLsbD 31 = false := by
  obtain ⟨m, e, word, -⟩ := h
  obtain ⟨c, le, -, code⟩ := fp32.decode_fin (c := w.toNat) w.isLt ((congrArg fp32.decode (Nat.mul_one _)).trans word)
  have top : fp32.maxCode = 0x7F7FFFFF := rfl
  have bits : w = f32Word false c := BitVec.eq_of_toNat_eq (by
    rw [f32Word_toNat false (by omega), if_neg Bool.false_ne_true, zero_add]
    have shift : fp32.shift = 0 := rfl
    rw [FpFmt.place, shift] at code
    simpa using code.symm)
  rw [bits]
  exact f32Word_positive (by omega)

theorem sfExp_positive (base2 : Bool) : (sfExp base2 (.fin neg m e)).1.getLsbD 31 = false := by
  rcases Nat.eq_zero_or_pos m with rfl | pos
  · rw [sfExp_zero]
    rfl
  · rcases sfExp_cases (neg := neg) (e := e) pos base2 with ⟨n, least, most, run⟩ | ⟨m', e', pos', run⟩
    · rw [run]
      have power := (rndF32_pow 0 n (by omega) (by omega)).1
      exact power.sign
    · rw [run]
      exact faithful_positive _ _ pos' e'

/-! ## An inexact result is a faithful rounding -/

/-- An inexact result is a faithful rounding of the function fn. -/
def NxFaithful (fn : Nat) (r : Word × Flags) : Prop :=
  r.2.getLsbD 4 = true → ∃ piece n m e, 0 < m ∧ r = faithful fn piece n m e

theorem nxFaithful_exact (fn : Nat) {r : Word × Flags} (exact : r.2.getLsbD 4 = false) : NxFaithful fn r := fun nx =>
  absurd (exact.symm.trans nx) (by decide)

theorem nxFaithful_noFlag (fn : Nat) (w : Word) : NxFaithful fn (w, 0#6) := by
  have none : (0#6).getLsbD 4 = false := by decide
  exact nxFaithful_exact fn none

theorem nxFaithful_faithful (fn piece : Nat) (n : Bool) {m : Nat} (pos : 0 < m) (e : Int) :
    NxFaithful fn (faithful fn piece n m e) :=
  fun _ => ⟨piece, n, m, e, pos, rfl⟩

theorem nxFaithful_faithfulFx (fn piece : Nat) (x : Int) : NxFaithful fn (faithfulFx fn piece x) :=
  nxFaithful_faithful fn piece _ (by omega) _

theorem sfExp_nx (base2 : Bool) : NxFaithful (if base2 then 1 else 3) (sfExp base2 (.fin neg m e)) := by
  rcases Nat.eq_zero_or_pos m with rfl | pos
  · exact sfExp_zero .. ▸ nxFaithful_noFlag _ _
  · rcases sfExp_cases (neg := neg) (e := e) pos base2 with ⟨n, least, most, run⟩ | ⟨m', e', pos', run⟩
    · have power := (rndF32_pow 0 n (by omega) (by omega)).2
      rw [pow_zero] at power
      rw [run]
      exact nxFaithful_exact _ (by rw [power]; rfl)
    · rw [run]
      exact nxFaithful_faithful _ _ _ pos' e'

theorem sfLog_nx (base2 : Bool) (short : m < 2 ^ 24) (least : -149 ≤ e) (most : e ≤ 104) :
    NxFaithful (if base2 then 2 else 4) (sfLog base2 (.fin neg m e)) := by
  rcases Nat.eq_zero_or_pos m with rfl | pos
  · exact nxFaithful_exact _ (by rw [sfLog_zero]; rfl)
  cases neg <;> cases base2
  case true.false | true.true =>
    rw [sfLog_negative pos]
    exact nxFaithful_exact _ rfl
  case false.false =>
    by_cases one : (m : ℚ) * 2 ^ e = 2 ^ (0 : Int)
    · rw [sfLog_one pos one]
      exact nxFaithful_exact _ rfl
    · rw [sfLog_part pos one]
      exact nxFaithful_faithfulFx 4 _ _
  case false.true =>
    by_cases power : ∃ n : Int, (m : ℚ) * 2 ^ e = 2 ^ n
    · obtain ⟨n, power⟩ := power
      obtain ⟨-, exp⟩ := (eq_pow_iff pos e n).1 power
      obtain ⟨k, len, lo, -⟩ := bitLen_bounds pos.ne'
      have bits : k < 24 := (Nat.pow_lt_pow_iff_right (by norm_num)).1 (lo.trans_lt short)
      exact nxFaithful_exact _ (by rw [(sfLog_pow pos power (by omega)).2]; rfl)
    · rw [sfLog2_part pos fun n is => power ⟨n, is⟩]
      exact nxFaithful_faithfulFx 2 _ _

theorem sfTrig_nx (cos : Bool) : NxFaithful (if cos then 6 else 5) (sfTrig cos (.fin neg m e)) := by
  rcases Nat.eq_zero_or_pos m with rfl | pos
  · cases cos
    · exact sfSin_zero .. ▸ nxFaithful_noFlag _ _
    · exact sfCos_zero .. ▸ nxFaithful_noFlag _ _
  · rw [sfTrig_fin pos]
    exact nxFaithful_faithfulFx _ _ _

theorem sfTanh_nx : NxFaithful 7 (sfTanh (.fin neg m e)) := by
  rcases Nat.eq_zero_or_pos m with rfl | pos
  · exact sfTanh_zero .. ▸ nxFaithful_noFlag _ _
  · rw [sfTanh_fin pos]
    exact nxFaithful_faithfulFx _ _ _

theorem sfSigm_nx : NxFaithful 8 (sfSigm (.fin neg m e)) := by
  rcases Nat.eq_zero_or_pos m with rfl | pos
  · exact sfSigm_zero .. ▸ nxFaithful_noFlag _ _
  · rw [sfSigm_fin pos]
    exact nxFaithful_faithfulFx _ _ _

end

end Sys2Proof.Machine
end

section
/-! SUPPORT. What each special function says of an FP32 operand (R150, R151), from the rules for its magnitude. -/

namespace Sys2Proof.Machine

/-- RCP of a value that is not 0: infinite from half a step above the largest finite value on, else the nearest value. -/
theorem sfRcp_rounded {w : Word} {neg : Bool} {v : ℚ} (finite : FiniteF32 w neg v) (nonzero : v ≠ 0) :
    ((2 : ℚ) ^ 128 - 2 ^ 103 ≤ |1 / v| → sfRcp (decF32 w) = (f32Word neg infCode, fOF ||| fNX)) ∧
      (|1 / v| < (2 : ℚ) ^ 128 - 2 ^ 103 → ∃ y, FiniteF32 (sfRcp (decF32 w)).1 neg y ∧
        (∀ z n u, FiniteF32 z n u → |y - 1 / v| ≤ |u - 1 / v|) ∧
        (sfRcp (decF32 w)).2 = if y = 1 / v then 0#6
          else if |1 / v| < 1 / 2 ^ 126 - 1 / 2 ^ 151 then fNX ||| fUF else fNX) := by
  obtain ⟨m, e, word, pos, rfl⟩ := finite.magnitude nonzero
  have posQ : (0 : ℚ) < m := by exact_mod_cast pos
  have inverse : 1 / signed neg (m * 2 ^ e) = signed neg (1 / ((m : ℚ) * 2 ^ e)) := by
    cases neg
    · rfl
    · exact one_div_neg_eq_neg_one_div _
  have size : |1 / signed neg (m * 2 ^ e)| = 1 / ((m : ℚ) * 2 ^ e) := by
    rw [inverse, abs_signed, abs_of_pos (by positivity)]
  rw [size, word]
  refine ⟨fun large => sfRcp_overflow pos e large, fun below => ?_⟩
  obtain ⟨y, value, nearest, flags⟩ := sfRcp_nearest (neg := neg) pos e below
  have same : signed neg y = signed neg (1 / ((m : ℚ) * 2 ^ e)) ↔ y = 1 / (m * 2 ^ e) := by
    cases neg
    · exact Iff.rfl
    · exact neg_inj
  rw [inverse]
  refine ⟨_, value, fun z n u hu => ?_, ?_⟩
  · rw [abs_signed_sub, abs_signed_sub, signed_signed]
    exact nearest z n u hu
  · simp only [same]
    exact flags

/-- EXP2 of each whole number in the range of FP32's exponents is exact. -/
theorem sfExp_exact {neg : Bool} {m : Nat} {e n : Int} (value : (Num.fin neg m e).val = n) (least : -149 ≤ n)
    (most : n ≤ 127) :
    FiniteF32 (sfExp true (.fin neg m e)).1 false (2 ^ n) ∧ (sfExp true (.fin neg m e)).2 = 0#6 := by
  rcases Nat.eq_zero_or_pos m with rfl | pos
  · have zero : n = 0 := by
      have : (n : ℚ) = 0 := by rw [← value, Num.val_fin]; cases neg <;> simp [signed]
      exact_mod_cast this
    rw [sfExp_zero, zero, zpow_zero]
    exact ⟨finiteF32_one, rfl⟩
  · exact sfExp_pow pos value least most

/-- The magnitude of a value that is a power of two. -/
theorem magnitude_of_pow {m : Nat} {e n : Int} (value : (Num.fin false m e).val = 2 ^ n) :
    0 < m ∧ (m : ℚ) * 2 ^ e = 2 ^ n := by
  rw [Num.val_fin, signed, if_neg Bool.false_ne_true] at value
  refine ⟨Nat.pos_of_ne_zero ?_, value⟩
  rintro rfl
  rw [Nat.cast_zero, zero_mul] at value
  exact absurd value (by positivity)

/-- The flags of a faithful result. -/
theorem faithful_flags (fn piece : Nat) (neg : Bool) {m : Nat} (pos : 0 < m) (e : Int)
    (below : (m : ℚ) * 2 ^ e < 2 ^ 128 - 2 ^ 104) : (faithful fn piece neg m e).2 =
      if faithfulTiny fn piece neg m e then fNX ||| fUF else fNX := by
  rw [faithful_finite fn piece neg pos e below]
  cases faithfulTiny fn piece neg m e
  · exact BitVec.or_zero
  · rfl

end Sys2Proof.Machine
end

section
/-! PROOFS. The statement about the special-function words (R138, R150 to R152). -/

namespace Sys2Proof.Claims

open Sys2Proof.Machine

/-- Settles O25: the results are outstanding (`sfWord_outstanding`); RCP and SQRT are the nearest FP32 value to the root that
their sticky bit stands for (`rndF32_root`) and RSQ a neighbour of it; every other inexact result is `faithful`, which lies
next to what is rounded (`faithful_neighbour`) and does not decrease (`faithful_mono`). -/
theorem specialFunctionUnit : Obligations.SpecialFunctionUnit := by
  refine ⟨fun s k f => ?words, ⟨fun e => ?rcp, fun b e => sfRsq_table b e, fun e => ?sqrt, fun base2 neg e => ?expLog,
    fun neg e => ?others, fun m e pos => ?negative, fun fn listed w nan => ?nan⟩,
    fun w neg v finite nonzero => ?reciprocal, fun w v finite pos => ⟨sfSqrt_nearest finite pos, sfRsq_faithful finite pos⟩,
    fun neg m e n value least most => sfExp_exact value least most, fun m e n value short => ?log2, fun m e value => ?log,
    fun w neg v finite => ?ranges, fun neg m e pos => ?defined, fun fn piece x => rfl, fun fn piece neg m e pos => ?faithful⟩
  case words =>
    intro outstanding
    have words {i : Instr} (fn : Word → Machine.Num → Word × Flags)
        (run : exec i s = issue s k i fun s => s.sfWord k f fn) : outstanding i fn := fun issues =>
      ⟨_, exec_next issues run, sfWord_outstanding s k f fn⟩
    exact ⟨words (fun _ => sfRcp) rfl, words sfRsq rfl, words (fun _ => sfSqrt) rfl, words (fun _ => sfExp true) rfl,
      words (fun _ => sfExp false) rfl, words (fun _ => sfLog true) rfl, words (fun _ => sfLog false) rfl,
      words (fun _ => sfTrig false) rfl, words (fun _ => sfTrig true) rfl, words (fun _ => sfTanh) rfl,
        words (fun _ => sfSigm) rfl⟩
  case rcp => exact ⟨sfRcp_zero false e, sfRcp_zero true e, sfRcp_inf false, sfRcp_inf true⟩
  case sqrt => exact ⟨sfSqrt_zero false e, sfSqrt_zero true e, sfSqrt_inf false, sfSqrt_inf true⟩
  case expLog =>
    exact ⟨sfExp_zero base2 neg e, sfExp_inf base2 false, sfExp_inf base2 true, sfLog_zero base2 neg e, sfLog_inf base2 false,
      sfLog_inf base2 true⟩
  case others =>
    exact ⟨sfSin_zero neg e, sfCos_zero neg e, sfTrig_inf neg false, sfTrig_inf neg true, sfTanh_zero neg e, sfTanh_inf neg,
      sfSigm_zero neg e, sfSigm_inf neg⟩
  case negative =>
    exact ⟨sfRsq_negative pos e, sfSqrt_negative pos e, sfLog_negative pos e true, sfLog_negative pos e false⟩
  case nan =>
    simp only [List.mem_cons, List.not_mem_nil, or_false] at listed
    rcases listed with rfl | rfl | rfl | rfl | rfl | rfl | rfl | rfl | rfl | rfl | rfl <;> exact sfNan_word nan _
  case reciprocal => exact f32Word_inf neg ▸ sfRcp_rounded finite nonzero
  case log2 =>
    obtain ⟨pos, power⟩ := magnitude_of_pow value
    exact sfLog_pow pos power short
  case log =>
    obtain ⟨pos, power⟩ := magnitude_of_pow (n := 0) value
    exact sfLog_one pos power
  case ranges =>
    obtain ⟨m, e, word, -⟩ := finite
    obtain ⟨short, least, most⟩ := decF32_fin_bounds word
    rw [word]
    refine ⟨fun r listed => ?within, sfSigm_range neg m e, fun base2 => sfExp_positive neg m e base2, fun p listed => ?inexact⟩
    case within =>
      simp only [List.mem_cons, List.not_mem_nil, or_false] at listed
      rcases listed with rfl | rfl | rfl
      exacts [sfTrig_range neg m e false, sfTrig_range neg m e true, sfTanh_range neg m e]
    case inexact =>
      simp only [List.mem_cons, List.not_mem_nil, or_false] at listed
      rcases listed with rfl | rfl | rfl | rfl | rfl | rfl | rfl | rfl
      exacts [sfExp_nx neg m e true, sfLog_nx neg m e true short least most, sfExp_nx neg m e false,
        sfLog_nx neg m e false short least most, sfTrig_nx neg m e false, sfTrig_nx neg m e true, sfTanh_nx neg m e,
        sfSigm_nx neg m e]
  case defined =>
    intro x
    refine ⟨fun base2 => ⟨sfExp_large pos base2, sfExp_part pos base2⟩, fun n value small far => sfExp_far pos value small far,
      ?log2, ?log, fun cos => ?trig, sfTanh_fin pos e neg, sfSigm_fin pos e neg⟩
    case log2 =>
      rintro rfl part
      exact sfLog2_part pos fun n power => part n ((Num.val_fin false m e).trans power)
    case log =>
      rintro rfl part
      exact sfLog_part pos fun power => part ((Num.val_fin false m e).trans power)
    case trig =>
      refine (sfTrig_fin pos e cos neg).trans ?_
      cases neg <;> cases cos <;> rfl
  case faithful =>
    intro r v
    refine ⟨fun large => f32Word_inf neg ▸ faithful_overflow fn piece neg pos e large,
      fun below => ⟨faithful_neighbour fn piece neg pos below, ?_, fun normal => ?_, fun tiny => ?_⟩,
      fun m' e' pos' le => faithful_mono fn piece neg pos' pos le⟩
    all_goals rw [faithful_flags fn piece neg pos e below]
    · split
      · exact .inr rfl
      · exact .inl rfl
    · rw [faithfulTiny_of_normal fn piece neg pos e normal]
      rfl
    · rw [faithfulTiny_of_below fn piece neg pos e tiny]
      rfl

end Sys2Proof.Claims
end

section
/-! SUPPORT. The writes of a cross-lane word, named one by one (R121, R159), and the lanes and values that VOTE, BCAST, SHFL
and MATCH read (R161 to R163, R170). -/

namespace Sys2Proof.Machine

/-! ## Lanes -/

theorem mem_dstLanes (w : Warp) (k : Ctl) (l : Nat) : l ∈ dstLanes w k ↔ l < 32 ∧ (w.eff k).getLsbD l = true :=
  mem_maskLanes ..

theorem maskLanes_pairwise (m : Mask) : (maskLanes m).Pairwise (· < ·) := List.pairwise_lt_range.filter _

theorem dstLanes_pairwise (w : Warp) (k : Ctl) : (dstLanes w k).Pairwise (· < ·) := maskLanes_pairwise _

/-- The lowest lane of a mask stands first. -/
theorem head?_maskLanes {m : Mask} {l : Nat} (lane : l < 32) (set : m.getLsbD l = true)
    (lowest : ∀ j, j < l → m.getLsbD j = false) : (maskLanes m).head? = some l := by
  rw [maskLanes, List.head?_filter, List.find?_range_eq_some]
  exact ⟨set, List.mem_range.2 lane, fun j below => by rw [lowest j below]; rfl⟩

/-! ## Writes to a v-register -/

variable {w : Warp} {k : Ctl} {key : Nat} {v : Word}

theorem mem_writes32 (d : Fin 256) (g : Nat → Word) :
    (key, v) ∈ writes32 w k (.v d) g ↔ ∃ l ∈ dstLanes w k, key = vKey d.val l ∧ v = g l := by
  simp only [writes32, List.mem_map, Prod.mk.injEq, eq_comm]

theorem mem_writes64 (d : Fin 256) (g : Nat → Dword) : (key, v) ∈ writes64 w k (.v d) g ↔
    ∃ l ∈ dstLanes w k, key = vKey d.val l ∧ v = loWord (g l) ∨ key = vKey (d.val + 1) l ∧ v = hiWord (g l) := by
  simp only [writes64, List.mem_flatMap, List.mem_cons, List.not_mem_nil, or_false, Prod.mk.injEq]

/-- A word without a predicate field writes none. -/
theorem mem_writesPredOpt (o : Operand) (g : Nat → Bool) : (key, v) ∈ writesPredOpt w k o g ↔
    ∃ l ∈ dstLanes w k, ∃ p : Fin 256, o = .v p ∧ key = predKey p.val l ∧ v = if g l then 1#32 else 0#32 := by
  cases o with
  | v p => simp only [writesPredOpt, writesPred, List.mem_map, Prod.mk.injEq, Operand.v.injEq, exists_eq_left', eq_comm]
  | s | imm | fp | sp | none => simp [writesPredOpt]

/-- A result that is held in 64 bits, written to one register or to a pair. -/
theorem writesLane_toNat (w : Warp) (k : Ctl) (d : Operand) (pair : Bool) (g : Nat → Dword) :
    writesLane w k d pair (fun l => (g l).toNat) =
      if pair then writes64 w k d g else writes32 w k d fun l => (g l).setWidth 32 := by
  cases pair
  · simp only [writesLane, Bool.false_eq_true, if_false, BitVec.ofNat_toNat]
  · simp only [writesLane, if_true, BitVec.ofNat_toNat, BitVec.setWidth_eq]

/-! ## The register or pair of a lane (R160) -/

/-- What a word of type b32 or u64 reads in a lane, in 64 bits. -/
def laneDword (s : State) (w : Warp) (ty : BitVec 4) (o : Operand) (l : Nat) : Dword :=
  if ty = 3#4 then rd64 s w o l else (rd s w o l).setWidth 64

theorem laneBits_b32_u64 {ty : BitVec 4} (types : ty.toNat ∈ [0, 3]) (s : State) (w : Warp) (o : Operand) (l : Nat) :
    laneBits s w ty.toNat o l = (laneDword s w ty o l).toNat := by
  simp only [List.mem_cons, List.not_mem_nil, or_false] at types
  rcases types with b32 | u64
  · have narrow : ty ≠ 3#4 := fun u64 => by simp [u64] at b32
    rw [laneBits, b32, if_neg (by decide), laneDword, if_neg narrow, BitVec.toNat_setWidth_of_le (by decide)]
  · rw [laneBits, u64, if_pos (by decide), laneDword, if_pos (BitVec.eq_of_toNat_eq u64)]

/-- The writes of a word that moves registers or pairs from the lanes src. -/
theorem mem_writesLane_moved {ty : BitVec 4} (s : State) (a : Operand) (d : Fin 256) (src : Nat → Nat) :
    (key, v) ∈ writesLane w k (.v d) (ty == 3#4) (fun l => (laneDword s w ty a (src l)).toNat) ↔ ∃ l ∈ dstLanes w k,
      key = vKey d.val l ∧ v = (if ty = 3#4 then loWord (rd64 s w a (src l)) else rd s w a (src l)) ∨
      ty = 3#4 ∧ key = vKey (d.val + 1) l ∧ v = hiWord (rd64 s w a (src l)) := by
  rw [writesLane_toNat]
  by_cases pair : ty = 3#4
  · simp only [pair, beq_self_eq_true, if_true, mem_writes64, laneDword, true_and]
  · simp only [beq_false_of_ne pair, Bool.false_eq_true, if_false, mem_writes32, laneDword, pair, false_and, or_false,
      BitVec.setWidth_setWidth_of_le, Nat.reduceLeDiff, BitVec.setWidth_eq]

/-! ## VOTE and BCAST (R161, R162) -/

/-- The four variants of VOTE and SHFL. -/
theorem minor_upTo_three {minor : BitVec 5} (listed : minor.toNat ∈ upTo 3) :
    minor = 0#5 ∨ minor = 1#5 ∨ minor = 2#5 ∨ minor = 3#5 := by
  have bound := List.mem_range.1 listed
  simp only [BitVec.toNat_eq, BitVec.toNat_ofNat]
  omega

theorem voteValue_eq {minor : BitVec 5} (listed : minor.toNat ∈ upTo 3) (ballot e : Mask) : voteValue minor.toNat ballot e =
    if minor = 0#5 then ballot
    else if minor = 1#5 then (if ballot ≠ 0#32 then 1#32 else 0#32)
    else if minor = 2#5 then (if ballot = e then 1#32 else 0#32)
    else if ballot = 0#32 ∨ ballot = e then 1#32 else 0#32 := by
  rcases minor_upTo_three listed with rfl | rfl | rfl | rfl <;> rfl

variable {s : State} {f : VFields}

/-- VOTE's ballot. -/
def voteBallot (s : State) (k : Ctl) (f : VFields) : Mask :=
  s.me.eff k &&& maskOf fun m => s.me.pred (regNum f.a) m != f.mod.getLsbD 0

theorem exec_vote (issues : Issues s k (.vote k f)) : exec (.vote k f) s = .next (s.crossLane k (writes32 s.me k f.d fun _ =>
    if f.minor = 0#5 then voteBallot s k f
    else if f.minor = 1#5 then (if voteBallot s k f ≠ 0#32 then 1#32 else 0#32)
    else if f.minor = 2#5 then (if voteBallot s k f = s.me.eff k then 1#32 else 0#32)
    else if voteBallot s k f = 0#32 ∨ voteBallot s k f = s.me.eff k then 1#32 else 0#32) 0#6) := by
  have minors : f.minor.toNat ∈ upTo 3 := (vsig_fields (sig_fields_of_legal issues.fields)).2.1
  rw [← voteValue_eq minors]
  exact exec_next issues

/-- The lane that BCAST reads, if there is one. -/
def bcastSource (s : State) (k : Ctl) (f : VFields) : Option Nat :=
  if f.minor = 0#5 then some ((rdU s s.me f.b).toNat % 32) else (dstLanes s.me k).head?

/-- The value that BCAST writes. -/
def bcastValue (s : State) (k : Ctl) (f : VFields) : Dword := (bcastSource s k f).elim 0#64 (laneDword s s.me f.ty f.a)

theorem exec_bcast (issues : Issues s k (.bcast k f)) : exec (.bcast k f) s = .next (s.crossLane k
    (if f.ty = 3#4 then writes64 s.me k f.d fun _ => bcastValue s k f
      else writes32 s.me k f.d fun _ => (bcastValue s k f).setWidth 32) 0#6) := by
  have types : f.ty.toNat ∈ [0, 3] := (vsig_fields (sig_fields_of_legal issues.fields)).1
  have written := writesLane_toNat s.me k f.d (f.ty == 3#4) fun _ => bcastValue s k f
  simp only [beq_iff_eq] at written
  rw [← written, bcastValue]
  refine (exec_next issues).trans ?_
  cases source : bcastSource s k f with
  | none => rw [bcastSource] at source; simp only [source]; rfl
  | some l => rw [bcastSource] at source; simp only [source, Option.elim, laneBits_b32_u64 types]

theorem bcastValue_lowest (minor : f.minor = 1#5) {l : Nat} (lane : l < 32) (runs : (s.me.eff k).getLsbD l = true)
    (lowest : ∀ m, m < l → (s.me.eff k).getLsbD m = false) : bcastValue s k f = laneDword s s.me f.ty f.a l := by
  rw [bcastValue, bcastSource, if_neg (by simp [minor]), dstLanes, head?_maskLanes lane runs lowest]
  rfl

theorem bcastValue_empty (minor : f.minor = 1#5) (none : s.me.eff k = 0#32) : bcastValue s k f = 0#64 := by
  rw [bcastValue, bcastSource, if_neg (by simp [minor]), dstLanes, none]
  rfl

/-! ## SHFL (R163) -/

section
variable (minor : BitVec 5) (width b l : Nat)

/-- Is SHFL's offset out of range? -/
def ShflOut : Prop := (minor = 1#5 ∧ l % width < b) ∨ (minor = 2#5 ∧ width ≤ l % width + b)

/-- The place in its segment that SHFL reads. -/
def shflPlace : Nat :=
  if minor = 0#5 then b % width
  else if minor = 1#5 then (if l % width < b then l % width else l % width - b)
  else if minor = 2#5 then (if width ≤ l % width + b then l % width else l % width + b)
  else l % width ^^^ (b % width)

end

/-- SHFL reads a place in its lane's segment, and knows whether the offset led out of it. -/
theorem shflSource_eq {minor : BitVec 5} (listed : minor.toNat ∈ upTo 3) (seg b l : Nat) :
    (shflSource minor.toNat seg b l).1 = l - l % (32 / 2 ^ seg) + shflPlace minor (32 / 2 ^ seg) b l ∧
      ((shflSource minor.toNat seg b l).2 = true ↔ ¬ShflOut minor (32 / 2 ^ seg) b l) := by
  have whole := Nat.sub_add_cancel (Nat.mod_le l (32 / 2 ^ seg))
  rcases minor_upTo_three listed with rfl | rfl | rfl | rfl
  case inl => exact ⟨rfl, by simp [shflSource, ShflOut]⟩
  case inr.inl => by_cases below : l % (32 / 2 ^ seg) < b <;> simp [shflSource, shflPlace, ShflOut, below, whole]
  case inr.inr.inl =>
    by_cases above : 32 / 2 ^ seg ≤ l % (32 / 2 ^ seg) + b <;> simp [shflSource, shflPlace, ShflOut, above, whole]
  case inr.inr.inr => exact ⟨rfl, by simp [shflSource, ShflOut]⟩

/-- The lane that SHFL reads for lane l. -/
def shflLane (s : State) (f : VFields) (l : Nat) : Nat :=
  l - l % (32 / 2 ^ f.mod.toNat) + shflPlace f.minor (32 / 2 ^ f.mod.toNat) (rd s s.me f.b l).toNat l

/-- Was lane l's source a running lane, and its offset in range? -/
def ShflHeld (s : State) (k : Ctl) (f : VFields) (l : Nat) : Prop :=
  (shflLane s f l < 32 ∧ (s.me.eff k).getLsbD (shflLane s f l) = true) ∧
    ¬ShflOut f.minor (32 / 2 ^ f.mod.toNat) (rd s s.me f.b l).toNat l

/-- A predicate that is written as a test says, whatever the test is. -/
theorem predWord_iff {p : Prop} {c : Bool} (test : c = true ↔ p) :
    (v = if c then 1#32 else 0#32) ↔ v = 1#32 ∧ p ∨ v = 0#32 ∧ ¬p := by
  by_cases holds : p
  · simp [test.2 holds, holds]
  · simp [Bool.eq_false_iff.2 (holds ∘ test.1), holds]

theorem exec_shfl (issues : Issues s k (.shfl k f)) {d : Fin 256} (dst : f.d = .v d) : ∃ ws,
    exec (.shfl k f) s = .next (s.crossLane k ws 0#6) ∧ ∀ key v, (key, v) ∈ ws ↔
      ∃ l, (l < 32 ∧ (s.me.eff k).getLsbD l = true) ∧
        ((key = vKey d.val l ∧
            v = if f.ty = 3#4 then loWord (rd64 s s.me f.a (shflLane s f l)) else rd s s.me f.a (shflLane s f l)) ∨
          (f.ty = 3#4 ∧ key = vKey (d.val + 1) l ∧ v = hiWord (rd64 s s.me f.a (shflLane s f l))) ∨
          ∃ p : Fin 256, f.c = .v p ∧ key = predKey p.val l ∧
            (v = 1#32 ∧ ShflHeld s k f l ∨ v = 0#32 ∧ ¬ShflHeld s k f l)) := by
  obtain ⟨types, minors, -⟩ := vsig_fields (sig_fields_of_legal issues.fields)
  refine ⟨_, exec_next issues, fun key v => ?_⟩
  have held (l : Nat) : ((s.me.eff k).getLsbD (shflLane s f l) &&
      (shflSource f.minor.toNat f.mod.toNat (rd s s.me f.b l).toNat l).2) = true ↔ ShflHeld s k f l := by
    rw [Bool.and_eq_true, (shflSource_eq minors ..).2, ShflHeld]
    exact and_congr_left' (iff_and_self.2 BitVec.lt_of_getLsbD)
  have source (l : Nat) : (shflSource f.minor.toNat f.mod.toNat (rd s s.me f.b l).toNat l).1 = shflLane s f l :=
    (shflSource_eq minors ..).1
  simp only [source, laneBits_b32_u64 types]
  rw [dst, List.mem_append, mem_writesLane_moved, mem_writesPredOpt]
  simp only [predWord_iff (held _), ← exists_or, ← and_or_left, mem_dstLanes, or_assoc]

/-! ## MATCH (R170) -/

/-- Do two lanes hold equal values? -/
def SameLane (s : State) (f : VFields) (l m : Nat) : Prop :=
  if f.ty = 3#4 then rd64 s s.me f.a m = rd64 s s.me f.a l else rd s s.me f.a m = rd s s.me f.a l

/-- MATCH's mask of equals. -/
def matchMask (s : State) (k : Ctl) (f : VFields) (l : Nat) : Mask :=
  s.me.eff k &&& maskOf fun m => laneBits s s.me f.ty.toNat f.a m == laneBits s s.me f.ty.toNat f.a l

theorem getLsbD_matchMask (types : f.ty.toNat ∈ [0, 3]) (l : Nat) {m : Nat} (lane : m < 32) :
    (matchMask s k f l).getLsbD m = true ↔ (m < 32 ∧ (s.me.eff k).getLsbD m = true) ∧ SameLane s f l m := by
  have equal : laneBits s s.me f.ty.toNat f.a m = laneBits s s.me f.ty.toNat f.a l ↔ SameLane s f l m := by
    rw [laneBits_b32_u64 types, laneBits_b32_u64 types, ← BitVec.toNat_eq, laneDword, laneDword, SameLane]
    split
    · rfl
    · rw [BitVec.toNat_eq, BitVec.toNat_eq, BitVec.toNat_setWidth_of_le (by decide),
        BitVec.toNat_setWidth_of_le (by decide)]
  rw [matchMask, BitVec.getLsbD_and, getLsbD_maskOf _ m lane, Bool.and_eq_true, beq_iff_eq, equal]
  simp only [lane, true_and]

/-- The mask is all of effective where every lane of effective is in it. -/
theorem matchMask_eq_eff (types : f.ty.toNat ∈ [0, 3]) (l : Nat) : matchMask s k f l = s.me.eff k ↔
    ∀ m, (m < 32 ∧ (s.me.eff k).getLsbD m = true) → (m < 32 ∧ (s.me.eff k).getLsbD m = true) ∧ SameLane s f l m := by
  constructor
  · intro all m runs
    rw [← getLsbD_matchMask types l runs.1, all]
    exact runs.2
  · intro all
    refine BitVec.eq_of_getLsbD_eq fun m lane => Bool.eq_iff_iff.2 ?_
    rw [getLsbD_matchMask types l lane]
    exact ⟨fun held => held.1.2, fun runs => all m ⟨lane, runs⟩⟩

/-- A value is MATCH's mask where it holds those lanes. -/
theorem eq_matchMask_iff (types : f.ty.toNat ∈ [0, 3]) (l : Nat) (v : Word) : v = matchMask s k f l ↔
    ∀ m, m < 32 → (v.getLsbD m = true ↔ (m < 32 ∧ (s.me.eff k).getLsbD m = true) ∧ SameLane s f l m) := by
  refine ⟨fun mask m lane => mask ▸ getLsbD_matchMask types l lane, fun bits => BitVec.eq_of_getLsbD_eq fun m lane => ?_⟩
  exact Bool.eq_iff_iff.2 ((bits m lane).trans (getLsbD_matchMask types l lane).symm)

theorem exec_matchv (issues : Issues s k (.matchv k f)) {d : Fin 256} (dst : f.d = .v d) : ∃ ws,
    exec (.matchv k f) s = .next (s.crossLane k ws 0#6) ∧ ∀ key v, (key, v) ∈ ws ↔
      ∃ l, (l < 32 ∧ (s.me.eff k).getLsbD l = true) ∧
        ((key = vKey d.val l ∧ v = matchMask s k f l) ∨
          ∃ p : Fin 256, f.c = .v p ∧ key = predKey p.val l ∧
            v = if matchMask s k f l == s.me.eff k then 1#32 else 0#32) := by
  refine ⟨_, exec_next issues, fun key v => ?_⟩
  rw [dst, List.mem_append, mem_writes32, mem_writesPredOpt]
  simp only [← exists_or, ← and_or_left, mem_dstLanes]
  rfl

end Sys2Proof.Machine
end

section
/-! PROOFS. The statement about VOTE, BCAST, SHFL and MATCH (R161 to R163, R170). -/

namespace Sys2Proof.Claims

open Sys2Proof.Machine

/-- Settles O28: each word's writes are outstanding (`defer_deferred`) and known one by one (`mem_writesLane_moved`,
`mem_writesPredOpt`); SHFL's source is `shflSource_eq`, and MATCH's mask is known bit by bit (`getLsbD_matchMask`). -/
theorem crossLane : Obligations.CrossLane := by
  refine ⟨fun s k f => ⟨fun issues => ?vote, fun issues => ?bcast⟩,
    fun s k f d dst => ⟨fun issues => ?shfl, fun issues => ?equals⟩⟩
  case vote =>
    refine ⟨_, exec_vote issues, voteBallot s k f, fun m lane => ?_, defer_deferred ..⟩
    rw [voteBallot, BitVec.getLsbD_and, getLsbD_maskOf _ m lane]
  case bcast =>
    refine ⟨_, exec_bcast issues, bcastValue s k f, defer_deferred .., fun lane => ?_, fun first =>
      ⟨fun l lane runs lowest => bcastValue_lowest first lane runs lowest, bcastValue_empty first⟩⟩
    rw [bcastValue, bcastSource, if_pos lane]
    rfl
  case shfl =>
    obtain ⟨ws, next, writes⟩ := exec_shfl issues dst
    exact ⟨_, next, ws, defer_deferred .., writes⟩
  case equals =>
    obtain ⟨types, -⟩ := vsig_fields (sig_fields_of_legal issues.fields)
    obtain ⟨ws, next, writes⟩ := exec_matchv issues dst
    refine ⟨_, next, ws, defer_deferred .., fun key v => (writes key v).trans ?_⟩
    simp only [predWord_iff (beq_iff_eq.trans (matchMask_eq_eff types _)), eq_matchMask_iff types, not_forall, exists_prop]
    rfl

end Sys2Proof.Claims
end

section
/-! SUPPORT. Running values (R164): what stands at each lane of a run, its value and the flags of the value that entered. -/

namespace Sys2Proof.Machine

/-! ## Lanes of a run, in ascending order -/

/-- The lanes of a run below a lane. -/
def below (ls : List Nat) (l : Nat) : List Nat := ls.filter fun m => decide (m < l)

/-- The lanes of a run up to a lane. -/
def upToLane (ls : List Nat) (l : Nat) : List Nat := ls.filter fun m => decide (m ≤ l)

section
variable {ls : List Nat} {x : Nat} (above : ∀ m ∈ ls, m < x)
include above

theorem below_last : below (ls ++ [x]) x = ls := by
  simpa [below] using above

theorem upToLane_last : upToLane (ls ++ [x]) x = ls ++ [x] := by
  simpa [upToLane] using fun m lane => (above m lane).le

theorem below_concat {l : Nat} (lane : l ∈ ls) : below (ls ++ [x]) l = below ls l := by
  simp [below, (above l lane).le]

theorem upToLane_concat {l : Nat} (lane : l ∈ ls) : upToLane (ls ++ [x]) l = upToLane ls l := by
  simp [upToLane, above l lane]

end

theorem pairwise_concat {ls : List Nat} {x : Nat} :
    (ls ++ [x]).Pairwise (· < ·) ↔ ls.Pairwise (· < ·) ∧ ∀ m ∈ ls, m < x := by
  simp [List.pairwise_append]

/-! ## Running values -/

section
variable (ty op : Nat) (a : Nat → Int)

/-- The last running value of a run; the identity of a run without lanes. -/
def runTotal (ls : List Nat) : Int :=
  match ls with
  | [] => redIdentity ty op
  | l :: rest => rest.foldl (fun c m => (redCombine ty op c (a m)).1) (redFirst ty (a l)).1

/-- The running value at lane l after the lanes ls, with the flags of l's value. -/
def runStep (ls : List Nat) (l : Nat) : Int × Flags :=
  if ls = [] then redFirst ty (a l) else redCombine ty op (runTotal ty op a ls) (a l)

/-- The flags of the value that enters a run at lane l (R166). -/
def runEnters (ls : List Nat) (l : Nat) : Flags :=
  if below ls l = [] then (redFirst ty (a l)).2 else (redCombine ty op (runTotal ty op a (below ls l)) (a l)).2

theorem runStep_below_snd (ls : List Nat) (l : Nat) : (runStep ty op a (below ls l) l).2 = runEnters ty op a ls l :=
  apply_ite Prod.snd ..

theorem runTotal_concat (ls : List Nat) (l : Nat) : runTotal ty op a (ls ++ [l]) = (runStep ty op a ls l).1 := by
  cases ls with
  | nil => rfl
  | cons m rest => simp [runTotal, runStep]

theorem runValues_some_concat (c : Int) (ls : List Nat) (l : Nat) : runValues ty op (some c) ((ls ++ [l]).map a) =
    runValues ty op (some c) (ls.map a) ++
      [redCombine ty op (ls.foldl (fun c m => (redCombine ty op c (a m)).1) c) (a l)] := by
  induction ls generalizing c with
  | nil => rfl
  | cons m rest ih => exact congrArg (_ :: ·) (ih _)

theorem runValues_concat (ls : List Nat) (l : Nat) : runValues ty op none ((ls ++ [l]).map a) =
    runValues ty op none (ls.map a) ++ [runStep ty op a ls l] := by
  cases ls with
  | nil => rfl
  | cons m rest =>
    simp only [List.cons_append, List.map_cons, runValues, runValues_some_concat]
    rfl

theorem lastOr_runValues (d : Int) (ls : List Nat) : lastOr d ((runValues ty op none (ls.map a)).map Prod.fst) =
    if ls = [] then d else runTotal ty op a ls := by
  have last (xs : List Int) (x : Int) : lastOr d (xs ++ [x]) = x := by
    induction xs with
    | nil => rfl
    | cons y ys ih => cases ys <;> exact ih
  cases ls using List.reverseRecOn with
  | nil => rfl
  | append_singleton ls x =>
    rw [runValues_concat, List.map_append, List.map_singleton, last, runTotal_concat, if_neg (by simp)]

variable {ls : List Nat} (sorted : ls.Pairwise (· < ·))
include sorted

/-- Each lane's running value is one step after the lanes below it. -/
theorem runValues_eq_map : runValues ty op none (ls.map a) = ls.map fun l => runStep ty op a (below ls l) l := by
  induction ls using List.reverseRecOn with
  | nil => rfl
  | append_singleton ls x ih =>
    obtain ⟨sorted, above⟩ := pairwise_concat.1 sorted
    rw [runValues_concat, ih sorted, List.map_append, List.map_singleton, below_last above]
    exact congrArg (· ++ _) (List.map_congr_left fun l lane => by rw [below_concat above lane])

/-- Each lane's running value is the total of the lanes up to it. -/
theorem runValues_fst : (runValues ty op none (ls.map a)).map Prod.fst = ls.map fun l => runTotal ty op a (upToLane ls l) := by
  induction ls using List.reverseRecOn with
  | nil => rfl
  | append_singleton ls x ih =>
    obtain ⟨sorted, above⟩ := pairwise_concat.1 sorted
    rw [runValues_concat, List.map_append, ih sorted, List.map_append, List.map_singleton, List.map_singleton,
      upToLane_last above, runTotal_concat]
    exact congrArg (· ++ _) (List.map_congr_left fun l lane => by rw [upToLane_concat above lane])

/-- The running values behind the identity are the totals of the lanes below each lane, and of all lanes. -/
theorem identity_cons_runValues_fst : redIdentity ty op :: (runValues ty op none (ls.map a)).map Prod.fst =
    (ls.map fun l => runTotal ty op a (below ls l)) ++ [runTotal ty op a ls] := by
  induction ls using List.reverseRecOn with
  | nil => rfl
  | append_singleton ls x ih =>
    obtain ⟨sorted, above⟩ := pairwise_concat.1 sorted
    rw [runValues_concat, List.map_append, ← List.cons_append, ih sorted, List.map_append, List.map_singleton,
      List.map_singleton, below_last above, runTotal_concat]
    exact congrArg (· ++ [_] ++ _) (List.map_congr_left fun l lane => by rw [below_concat above lane])

/-- The exclusive scan: the identity, then the running values of all lanes but the last (R165). -/
theorem identity_cons_runValues_dropLast (some : ls ≠ []) :
    redIdentity ty op :: (runValues ty op none (ls.map a).dropLast).map Prod.fst =
      ls.map fun l => runTotal ty op a (below ls l) := by
  induction ls using List.reverseRecOn with
  | nil => exact absurd rfl some
  | append_singleton ls x =>
    obtain ⟨sorted, above⟩ := pairwise_concat.1 sorted
    rw [List.map_append, List.map_singleton, List.dropLast_concat, identity_cons_runValues_fst ty op a sorted,
      List.map_append, List.map_singleton, below_last above]
    exact congrArg (· ++ _) (List.map_congr_left fun l lane => by rw [below_concat above lane])

/-- The flags of a run are those of the values that enter it. -/
theorem orFlags_runValues (b : Nat) : (orFlags ((runValues ty op none (ls.map a)).map Prod.snd)).getLsbD b = true ↔
    ∃ l ∈ ls, (runEnters ty op a ls l).getLsbD b = true := by
  rw [runValues_eq_map ty op a sorted, List.map_map, orFlags_map_getLsbD]
  simp only [Function.comp_apply, runStep_below_snd]

/-- In the exclusive form the last lane's value enters none (R166). -/
theorem orFlags_runValues_dropLast (b : Nat) :
    (orFlags ((runValues ty op none (ls.map a).dropLast).map Prod.snd)).getLsbD b = true ↔
      ∃ l ∈ ls, (¬∀ m ∈ ls, m ≤ l) ∧ (runEnters ty op a ls l).getLsbD b = true := by
  cases ls using List.reverseRecOn with
  | nil => simp [runValues, orFlags]
  | append_singleton ls x =>
    obtain ⟨sorted, above⟩ := pairwise_concat.1 sorted
    have enters {l : Nat} (lane : l ∈ ls) : runEnters ty op a (ls ++ [x]) l = runEnters ty op a ls l := by
      rw [runEnters, runEnters, below_concat above lane]
    rw [List.map_append, List.map_singleton, List.dropLast_concat, orFlags_runValues ty op a sorted]
    constructor
    · rintro ⟨l, lane, raises⟩
      refine ⟨l, List.mem_append_left _ lane, fun top => ?_, (enters lane).symm ▸ raises⟩
      exact absurd (top x (by simp)) (above l lane).not_ge
    · rintro ⟨l, lane, notLast, raises⟩
      rcases List.mem_append.1 lane with lane | last
      · exact ⟨l, lane, enters lane ▸ raises⟩
      · refine absurd (fun m run => ?_) notLast
        obtain rfl := List.mem_singleton.1 last
        rcases List.mem_append.1 run with run | run
        · exact (above m run).le
        · exact (List.mem_singleton.1 run).le

end

end Sys2Proof.Machine
end

section
/-! SUPPORT. The runs of SEGRED (R165): the lanes of effective, cut at the heads. -/

namespace Sys2Proof.Machine

variable (h : Mask)

/-- Does no head of the lanes ls stand above one of two lanes and up to the other? -/
def inOneRun (ls : List Nat) (l m : Nat) : Bool :=
  ls.all fun p => !(h.getLsbD p && decide (min l m < p) && decide (p ≤ max l m))

variable {h} {ls : List Nat} {x l m : Nat}

theorem le_of_pairwise_cons (sorted : (m :: ls).Pairwise (· < ·)) (lane : l ∈ m :: ls) : m ≤ l := by
  rcases List.mem_cons.1 lane with rfl | later
  · exact le_rfl
  · exact (List.rel_of_pairwise_cons sorted later).le

theorem inOneRun_iff :
    inOneRun h ls l m = true ↔ ∀ p ∈ ls, h.getLsbD p = true → ¬(min l m < p ∧ p ≤ max l m) := by
  simp only [inOneRun, List.all_eq_true, Bool.not_eq_true', Bool.and_eq_false_iff, decide_eq_false_iff_not]
  exact forall₂_congr fun p _ => by by_cases head : h.getLsbD p = true <;> simp [head, imp_iff_not_or]

theorem inOneRun_comm : inOneRun h ls l m = inOneRun h ls m l := by
  simp only [inOneRun, min_comm l m, max_comm l m]

theorem inOneRun_self : inOneRun h ls l l = true := inOneRun_iff.2 fun p _ _ => by omega

/-- A lane below two others does not part them. -/
theorem inOneRun_cons_above (hl : x < l) (hm : x < m) : inOneRun h (x :: ls) l m = inOneRun h ls l m := by
  rw [Bool.eq_iff_iff, inOneRun_iff, inOneRun_iff, List.forall_mem_cons]
  exact and_iff_right fun _ => by omega

/-- A head parts the lanes from it on from those below it. -/
theorem inOneRun_head (lane : m ∈ ls) (head : h.getLsbD m = true) (hl : m ≤ l) (hx : x < m) :
    inOneRun h ls l x = false := by
  rw [Bool.eq_false_iff, ne_eq, inOneRun_iff]
  exact fun joined => joined m lane head (by omega)

/-- A lowest lane whose successor is no head has the same company as its successor. -/
theorem inOneRun_cons_lowest (sorted : (x :: m :: ls).Pairwise (· < ·)) (plain : h.getLsbD m = false)
    (lane : l ∈ m :: ls) : inOneRun h (x :: m :: ls) x l = inOneRun h (m :: ls) m l := by
  obtain ⟨lowest, rest⟩ := List.pairwise_cons.1 sorted
  have hx := lowest m List.mem_cons_self
  have hl := le_of_pairwise_cons rest lane
  rw [Bool.eq_iff_iff, inOneRun_iff, inOneRun_iff, List.forall_mem_cons, and_iff_right fun _ => by omega]
  refine forall₃_congr fun p hp head => ?_
  have notNext : p ≠ m := fun same => by simp [same, plain] at head
  have hp := le_of_pairwise_cons rest hp
  omega

/-- The first run begins with the lowest lane. -/
theorem runsOf_cons_eq (h : Mask) (x : Nat) (ls : List Nat) : ∃ r rs, runsOf h (x :: ls) = (x :: r) :: rs := by
  induction ls generalizing x with
  | nil => exact ⟨[], [], rfl⟩
  | cons m ls ih =>
    obtain ⟨r, rs, first⟩ := ih m
    rw [runsOf, first]
    dsimp only
    split
    · exact ⟨[], _, rfl⟩
    · exact ⟨_, _, rfl⟩

theorem runsOf_cons_head (ls : List Nat) (x : Nat) (head : h.getLsbD m = true) :
    runsOf h (x :: m :: ls) = [x] :: runsOf h (m :: ls) := by
  obtain ⟨r, rs, first⟩ := runsOf_cons_eq h m ls
  rw [runsOf, first]
  exact if_pos head

theorem runsOf_cons_plain (x : Nat) (plain : h.getLsbD m = false) {r : List Nat} {rs : List (List Nat)}
    (first : runsOf h (m :: ls) = (m :: r) :: rs) : runsOf h (x :: m :: ls) = (x :: m :: r) :: rs := by
  rw [runsOf, first]
  exact if_neg (by simp [plain])

/-- The runs, one after another, are the lanes. -/
theorem runsOf_flatten (h : Mask) (ls : List Nat) : (runsOf h ls).flatten = ls := by
  induction ls with
  | nil => rfl
  | cons x ls ih =>
    cases ls with
    | nil => rfl
    | cons m ls =>
      cases head : h.getLsbD m
      · obtain ⟨r, rs, first⟩ := runsOf_cons_eq h m ls
        rw [runsOf_cons_plain x head first, ← ih, first]
        rfl
      · rw [runsOf_cons_head ls x head, List.flatten_cons, ih]
        rfl

theorem mem_of_runsOf {r : List Nat} (run : r ∈ runsOf h ls) (lane : l ∈ r) : l ∈ ls :=
  runsOf_flatten h ls ▸ List.mem_flatten_of_mem run lane

/-- The runs keep ascending order, so no lane stands in two of them. -/
theorem not_mem_later_run (sorted : ls.Pairwise (· < ·)) {r₀ r : List Nat} {rs : List (List Nat)}
    (first : runsOf h ls = r₀ :: rs) (run : r ∈ rs) (lane : l ∈ r) : l ∉ r₀ := by
  rw [← runsOf_flatten h ls, first, List.flatten_cons, List.pairwise_append] at sorted
  exact fun both => lt_irrefl l (sorted.2.2 l both l (List.mem_flatten_of_mem run lane))

/-- Each run holds the lanes that stand in one run with any one of its own. -/
def RunsParted (h : Mask) (ls : List Nat) : Prop := ∀ r ∈ runsOf h ls, ∀ l ∈ r, ls.filter (inOneRun h ls l) = r

theorem filter_inOneRun_cons_above (lowest : ∀ l ∈ ls, x < l) (lane : l ∈ ls) :
    ls.filter (inOneRun h (x :: ls) l) = ls.filter (inOneRun h ls l) :=
  List.filter_congr fun p hp => inOneRun_cons_above (lowest l lane) (lowest p hp)

/-- A lowest lane before a head is a run of its own. -/
theorem RunsParted.cons_head (parted : RunsParted h (m :: ls)) (sorted : (x :: m :: ls).Pairwise (· < ·))
    (head : h.getLsbD m = true) : RunsParted h (x :: m :: ls) := by
  obtain ⟨lowest, rest⟩ := List.pairwise_cons.1 sorted
  have alone {l : Nat} (lane : l ∈ m :: ls) : inOneRun h (x :: m :: ls) l x = false :=
    inOneRun_head (m := m) (by simp) head (le_of_pairwise_cons rest lane) (lowest m List.mem_cons_self)
  intro r run l lane
  rw [runsOf_cons_head ls x head] at run
  rcases List.mem_cons.1 run with rfl | run
  · obtain rfl := List.mem_singleton.1 lane
    rw [List.filter_cons_of_pos inOneRun_self, List.filter_eq_nil_iff.2 fun p hp => ?_]
    rw [inOneRun_comm, alone hp]
    exact Bool.false_ne_true
  · have within := mem_of_runsOf run lane
    rw [List.filter_cons_of_neg (by simp [alone within]), filter_inOneRun_cons_above lowest within, parted r run l lane]

/-- A lowest lane before a lane that is no head joins that lane's run. -/
theorem RunsParted.cons_plain (parted : RunsParted h (m :: ls)) (sorted : (x :: m :: ls).Pairwise (· < ·))
    (plain : h.getLsbD m = false) : RunsParted h (x :: m :: ls) := by
  obtain ⟨lowest, rest⟩ := List.pairwise_cons.1 sorted
  obtain ⟨r₀, rs, first⟩ := runsOf_cons_eq h m ls
  have firstRun : m :: r₀ ∈ runsOf h (m :: ls) := first ▸ List.mem_cons_self
  have ofFirst := parted _ firstRun m List.mem_cons_self
  have company {l : Nat} (lane : l ∈ m :: ls) : inOneRun h (x :: m :: ls) l x = inOneRun h (m :: ls) m l :=
    inOneRun_comm.trans (inOneRun_cons_lowest sorted plain lane)
  intro r run l lane
  rw [runsOf_cons_plain x plain first] at run
  rcases List.mem_cons.1 run with rfl | run
  · rcases List.mem_cons.1 lane with rfl | lane
    · rw [List.filter_cons_of_pos inOneRun_self, List.filter_congr fun p hp => inOneRun_cons_lowest sorted plain hp, ofFirst]
    · have within := mem_of_runsOf firstRun lane
      have joined : inOneRun h (m :: ls) m l = true := (List.mem_filter.1 (ofFirst ▸ lane)).2
      rw [List.filter_cons_of_pos (by rw [company within, joined]), filter_inOneRun_cons_above lowest within,
        parted _ firstRun l lane]
  · have later : r ∈ runsOf h (m :: ls) := first ▸ List.mem_cons_of_mem _ run
    have within := mem_of_runsOf later lane
    have apart : inOneRun h (m :: ls) m l = false := Bool.eq_false_iff.2 fun joined =>
      not_mem_later_run rest first run lane (ofFirst ▸ List.mem_filter.2 ⟨within, joined⟩)
    rw [List.filter_cons_of_neg (by rw [company within, apart]; exact Bool.false_ne_true),
      filter_inOneRun_cons_above lowest within, parted r later l lane]

theorem runsParted (h : Mask) {ls : List Nat} (sorted : ls.Pairwise (· < ·)) : RunsParted h ls := by
  induction ls with
  | nil => exact fun r run => by simp [runsOf] at run
  | cons x ls ih =>
    have parted := ih (List.pairwise_cons.1 sorted).2
    cases ls with
    | nil => simp [RunsParted, runsOf, inOneRun_self]
    | cons m ls =>
      cases head : h.getLsbD m
      · exact parted.cons_plain sorted head
      · exact parted.cons_head sorted head

theorem runsOf_pairwise (sorted : ls.Pairwise (· < ·)) {r : List Nat} (run : r ∈ runsOf h ls) : r.Pairwise (· < ·) :=
  (runsOf_flatten h ls ▸ sorted).sublist (List.sublist_flatten_of_mem run)

/-- To speak of each lane of each run is to speak of each lane and its run. -/
theorem exists_run_iff (sorted : ls.Pairwise (· < ·)) (p : List Nat → Nat → Prop) :
    (∃ r ∈ runsOf h ls, ∃ l ∈ r, p r l) ↔ ∃ l ∈ ls, p (ls.filter (inOneRun h ls l)) l := by
  constructor
  · rintro ⟨r, run, l, lane, holds⟩
    exact ⟨l, mem_of_runsOf run lane, (runsParted h sorted r run l lane).symm ▸ holds⟩
  · rintro ⟨l, lane, holds⟩
    rw [← runsOf_flatten h ls] at lane
    obtain ⟨r, run, lane⟩ := List.mem_flatten.1 lane
    exact ⟨r, run, l, lane, runsParted h sorted r run l lane ▸ holds⟩

end Sys2Proof.Machine
end

section
/-! SUPPORT. LRED, LSCAN and SEGRED (R165, R166): the writes of each lane and the flags, from the running values. -/

namespace Sys2Proof.Machine

variable {s : State} {k : Ctl} {f : VFields}

theorem mem_writesPer {n key : Nat} {pair : Bool} {ls : List Nat} {g : Nat → Nat} {v : Word} :
    (key, v) ∈ writesPer n pair (ls.map fun l => (l, g l)) ↔ ∃ l ∈ ls,
      (key = vKey n l ∧ v = BitVec.ofNat 32 (g l)) ∨ (pair = true ∧ key = vKey (n + 1) l ∧ v = BitVec.ofNat 32 (g l / 2 ^ 32)) := by
  cases pair <;> simp [writesPer]

/-- The value of a lane that a reduction combines. -/
def redValue (s : State) (f : VFields) (l : Nat) : Int := redIn f.ty.toNat (laneBits s s.me f.ty.toNat f.a l)

/-- The running values of a run of lanes, with their flags. -/
def redRun (s : State) (f : VFields) (ls : List Nat) : List (Int × Flags) :=
  runValues f.ty.toNat f.minor.toNat none (ls.map (redValue s f))

/-- The last running value of a run of lanes. -/
def redTotal (s : State) (f : VFields) (ls : List Nat) : Int := runTotal f.ty.toNat f.minor.toNat (redValue s f) ls

/-- The flags of the value of lane l as it enters a run. -/
def redEnters (s : State) (f : VFields) (ls : List Nat) (l : Nat) : Flags :=
  runEnters f.ty.toNat f.minor.toNat (redValue s f) ls l

theorem redRun_fst {ls : List Nat} (sorted : ls.Pairwise (· < ·)) :
    (redRun s f ls).map Prod.fst = ls.map fun l => redTotal s f (upToLane ls l) := runValues_fst _ _ _ sorted

theorem orFlags_redRun {ls : List Nat} (sorted : ls.Pairwise (· < ·)) (b : Nat) :
    (orFlags ((redRun s f ls).map Prod.snd)).getLsbD b = true ↔ ∃ l ∈ ls, (redEnters s f ls l).getLsbD b = true :=
  orFlags_runValues _ _ _ sorted b

/-- What is written for a run of lanes, with ST where it is clamped. -/
def redWritten (s : State) (f : VFields) (ls : List Nat) : Nat × Flags :=
  redOut f.ty.toNat (f.mod.getLsbD 1) (redTotal s f ls)

/-- Each lane of effective takes what is written for its run ls. -/
def WritesRuns (s : State) (k : Ctl) (f : VFields) (d : Fin 256) (ls : Nat → List Nat) (ws : List (Nat × Word)) : Prop :=
  ∀ key v, (key, v) ∈ ws ↔ ∃ l, (l < 32 ∧ (s.me.eff k).getLsbD l = true) ∧
    ((key = vKey d.val l ∧ v = BitVec.ofNat 32 (redWritten s f (ls l)).1) ∨
      (redPair f.ty.toNat = true ∧ key = vKey (d.val + 1) l ∧ v = BitVec.ofNat 32 ((redWritten s f (ls l)).1 / 2 ^ 32)))

/-- Each lane of effective beside the bits that are written for its run. -/
def laneResults (s : State) (k : Ctl) (f : VFields) (ls : Nat → List Nat) : List (Nat × Nat) :=
  (dstLanes s.me k).map fun l => (l, (redWritten s f (ls l)).1)

theorem writesPer_laneResults {d : Fin 256} (dst : f.d = .v d) (ls : Nat → List Nat) :
    WritesRuns s k f d ls (writesPer (regNum f.d) (redPair f.ty.toNat) (laneResults s k f ls)) := by
  intro key v
  rw [laneResults, mem_writesPer, dst]
  simp only [mem_dstLanes]
  rfl

/-- The flags are those that the lanes' values raise as they enter their runs, but for those of last lanes, and those of
the written results (R166). -/
def RaisesRuns (s : State) (k : Ctl) (f : VFields) (runOf : Nat → List Nat) (last : Nat → Prop) (ls : Nat → List Nat)
    (fl : Flags) : Prop :=
  ∀ b, fl.getLsbD b = true ↔ ∃ l, (l < 32 ∧ (s.me.eff k).getLsbD l = true) ∧
    ((¬last l ∧ (redEnters s f (runOf l) l).getLsbD b = true) ∨
      (redWritten s f (ls l)).2.getLsbD b = true)

/-- The flags of a list of lanes' values and results. -/
theorem orFlags_or_map_getLsbD (x : Flags) (ls : List Nat) (g : Nat → Flags) (b : Nat) :
    (x ||| orFlags (ls.map g)).getLsbD b = true ↔ x.getLsbD b = true ∨ ∃ l ∈ ls, (g l).getLsbD b = true := by
  rw [BitVec.getLsbD_or, Bool.or_eq_true, orFlags_map_getLsbD]

/-! ## LRED -/

/-- The flags of LRED: those of the values, and ST for its result if a lane takes it. -/
def lredFlags (s : State) (k : Ctl) (f : VFields) : Flags :=
  orFlags ((redRun s f (dstLanes s.me k)).map Prod.snd) |||
    if (dstLanes s.me k).isEmpty then 0#6 else (redWritten s f (dstLanes s.me k)).2

theorem exec_lred (issues : Issues s k (.lred k f)) : exec (.lred k f) s = .next (s.crossLane k
    (writesLane s.me k f.d (redPair f.ty.toNat) fun _ => (redWritten s f (dstLanes s.me k)).1) (lredFlags s k f)) := by
  have total : lastOr (redIdentity f.ty.toNat f.minor.toNat)
      ((redRun s f (dstLanes s.me k)).map Prod.fst) =
      redTotal s f (dstLanes s.me k) := by
    rw [redRun, lastOr_runValues, redTotal]
    split
    next none => rw [none]; rfl
    next => rfl
  rw [lredFlags, redWritten, ← total]
  exact exec_next issues

theorem lredFlags_raises : RaisesRuns s k f (fun _ => dstLanes s.me k) (fun _ => False) (fun _ => dstLanes s.me k)
    (lredFlags s k f) := by
  intro b
  have sorted := dstLanes_pairwise s.me k
  have result : (if (dstLanes s.me k).isEmpty then 0#6 else (redWritten s f (dstLanes s.me k)).2).getLsbD b = true ↔
      ∃ l ∈ dstLanes s.me k, (redWritten s f (dstLanes s.me k)).2.getLsbD b = true := by
    cases dstLanes s.me k with
    | nil => simp
    | cons l ls => exact ⟨fun raised => ⟨l, List.mem_cons_self, raised⟩, fun ⟨_, _, raised⟩ => raised⟩
  rw [lredFlags, BitVec.getLsbD_or, Bool.or_eq_true, orFlags_redRun sorted, result]
  simp only [← exists_or, ← and_or_left, mem_dstLanes, not_false_eq_true, true_and]

/-! ## LSCAN -/

/-- The lanes that LSCAN combines for a lane. -/
def scanLanes (s : State) (k : Ctl) (f : VFields) (l : Nat) : List Nat :=
  (dstLanes s.me k).filter fun m => if f.mod.getLsbD 0 then decide (m < l) else decide (m ≤ l)

theorem scanLanes_excl (excl : f.mod.getLsbD 0 = true) (l : Nat) : scanLanes s k f l = below (dstLanes s.me k) l := by
  simp only [scanLanes, excl, if_true, below]

theorem scanLanes_incl (incl : f.mod.getLsbD 0 = false) (l : Nat) : scanLanes s k f l = upToLane (dstLanes s.me k) l := by
  simp only [scanLanes, incl, Bool.false_eq_true, if_false, upToLane]

/-- The running values that LSCAN makes: in the exclusive form, of all lanes but the last. -/
def lscanRun (s : State) (k : Ctl) (f : VFields) : List (Int × Flags) :=
  runValues f.ty.toNat f.minor.toNat none
    (if f.mod.getLsbD 0 then ((dstLanes s.me k).map (redValue s f)).dropLast else (dstLanes s.me k).map (redValue s f))

/-- The values that LSCAN writes before they are reduced or clamped. -/
def lscanValues (s : State) (k : Ctl) (f : VFields) : List Int :=
  (if f.mod.getLsbD 0 = true ∧ dstLanes s.me k ≠ [] then [redIdentity f.ty.toNat f.minor.toNat] else []) ++
    (lscanRun s k f).map Prod.fst

/-- Each lane takes the total of the lanes that LSCAN combines for it. -/
theorem lscanValues_eq : lscanValues s k f = (dstLanes s.me k).map fun l => redTotal s f (scanLanes s k f l) := by
  have sorted := dstLanes_pairwise s.me k
  rw [lscanValues, lscanRun]
  cases excl : f.mod.getLsbD 0
  case false =>
    simp only [scanLanes_incl excl, Bool.false_eq_true, false_and, if_false, List.nil_append]
    exact redRun_fst sorted
  case true =>
    by_cases none : dstLanes s.me k = []
    · simp [none, runValues]
    · simp only [scanLanes_excl excl, if_true, true_and, ne_eq, none, not_false_eq_true, List.singleton_append]
      exact identity_cons_runValues_dropLast _ _ _ sorted none

/-- The flags of LSCAN's running values: in the exclusive form, of all lanes but the last. -/
theorem lscanRun_flags (b : Nat) : (orFlags ((lscanRun s k f).map Prod.snd)).getLsbD b = true ↔ ∃ l ∈ dstLanes s.me k,
    ¬(f.mod.getLsbD 0 = true ∧ ∀ m ∈ dstLanes s.me k, m ≤ l) ∧
      (redEnters s f (dstLanes s.me k) l).getLsbD b = true := by
  have sorted := dstLanes_pairwise s.me k
  rw [lscanRun]
  cases excl : f.mod.getLsbD 0
  case false =>
    simp only [Bool.false_eq_true, false_and, if_false, not_false_eq_true, true_and]
    exact orFlags_redRun sorted b
  case true =>
    simp only [if_true, true_and]
    exact orFlags_runValues_dropLast _ _ _ sorted b

/-- The flags of LSCAN. -/
def lscanFlags (s : State) (k : Ctl) (f : VFields) : Flags :=
  orFlags ((lscanRun s k f).map Prod.snd) ||| orFlags ((dstLanes s.me k).map fun l => (redWritten s f (scanLanes s k f l)).2)

/-- The writes of values that stand beside their lanes. -/
theorem zip_map_lanes {α β : Type} (ls : List Nat) (g : Nat → α) (out : α → Nat × β) :
    ls.zip (((ls.map g).map out).map Prod.fst) = ls.map fun l => (l, (out (g l)).1) := by
  simp only [List.map_map, ← List.map_prod_left_eq_zip, Function.comp_apply]

theorem exec_lscan (issues : Issues s k (.lscan k f)) : exec (.lscan k f) s = .next (s.crossLane k
    (writesPer (regNum f.d) (redPair f.ty.toNat) (laneResults s k f (scanLanes s k f)))
    (lscanFlags s k f)) := by
  have written (g : Int → Nat × Flags) : (dstLanes s.me k).zip (((lscanValues s k f).map g).map Prod.fst) =
      (dstLanes s.me k).map fun l => (l, (g (redTotal s f (scanLanes s k f l))).1) := by rw [lscanValues_eq, zip_map_lanes]
  have raised (g : Int → Nat × Flags) : ((lscanValues s k f).map g).map Prod.snd =
      (dstLanes s.me k).map fun l => (g (redTotal s f (scanLanes s k f l))).2 := by
    rw [lscanValues_eq, List.map_map, List.map_map]
    rfl
  simp only [lscanFlags, laneResults, redWritten, ← written, ← raised]
  exact exec_next issues

theorem lscanFlags_raises : RaisesRuns s k f (fun _ => dstLanes s.me k)
    (fun l => f.mod.getLsbD 0 = true ∧ ∀ m, (m < 32 ∧ (s.me.eff k).getLsbD m = true) → m ≤ l) (scanLanes s k f)
    (lscanFlags s k f) := by
  intro b
  rw [lscanFlags, orFlags_or_map_getLsbD, lscanRun_flags]
  simp only [← exists_or, ← and_or_left, mem_dstLanes]

/-! ## SEGRED -/

/-- The lanes of a lane's run. -/
def segLanes (s : State) (k : Ctl) (f : VFields) (l : Nat) : List Nat :=
  (dstLanes s.me k).filter fun m => inOneRun (rd s s.me f.b 0) (dstLanes s.me k) l m

/-- The lanes that SEGRED combines for a lane. -/
def segScanLanes (s : State) (k : Ctl) (f : VFields) (l : Nat) : List Nat :=
  (dstLanes s.me k).filter fun m => inOneRun (rd s s.me f.b 0) (dstLanes s.me k) l m && (!f.mod.getLsbD 0 || decide (m ≤ l))

/-- The runs of SEGRED. -/
def segRuns (s : State) (k : Ctl) (f : VFields) : List (List Nat) := runsOf (rd s s.me f.b 0) (dstLanes s.me k)

theorem segRuns_pairwise {r : List Nat} (run : r ∈ segRuns s k f) : r.Pairwise (· < ·) :=
  runsOf_pairwise (dstLanes_pairwise ..) run

/-- The values that SEGRED writes in a run before they are reduced or clamped. -/
def segValues (s : State) (f : VFields) (r : List Nat) : List Int :=
  if f.mod.getLsbD 0 then (redRun s f r).map Prod.fst
  else r.map fun _ => lastOr 0 ((redRun s f r).map Prod.fst)

theorem segScanLanes_of_run {r : List Nat} (run : r ∈ segRuns s k f) {l : Nat} (lane : l ∈ r) :
    segScanLanes s k f l = r.filter fun m => !f.mod.getLsbD 0 || decide (m ≤ l) := by
  have parted := runsParted (rd s s.me f.b 0) (dstLanes_pairwise ..) r run l lane
  rw [segScanLanes, ← parted, List.filter_filter]
  exact List.filter_congr fun m _ => Bool.and_comm ..

/-- Each lane of a run takes the total of the lanes that SEGRED combines for it. -/
theorem segValues_eq {r : List Nat} (run : r ∈ segRuns s k f) :
    segValues s f r = r.map fun l => redTotal s f (segScanLanes s k f l) := by
  rw [segValues]
  cases scan : f.mod.getLsbD 0
  case false =>
    refine List.map_congr_left fun l lane => ?_
    rw [redRun, lastOr_runValues, if_neg (List.ne_nil_of_mem lane), segScanLanes_of_run run lane, scan]
    simp [redTotal]
  case true =>
    rw [if_pos rfl, redRun_fst (segRuns_pairwise run)]
    refine List.map_congr_left fun l lane => ?_
    rw [segScanLanes_of_run run lane, scan]
    rfl

/-- What SEGRED writes in a run, beside its lanes, and the run's flags. -/
def segOut (s : State) (f : VFields) (r : List Nat) : List (Nat × Nat) × Flags :=
  let os := (segValues s f r).map (redOut f.ty.toNat (f.mod.getLsbD 1))
  (r.zip (os.map Prod.fst), orFlags ((redRun s f r).map Prod.snd) |||
    orFlags (os.map Prod.snd))

theorem segOut_eq {r : List Nat} (run : r ∈ segRuns s k f) : segOut s f r =
    (r.map fun l => (l, (redWritten s f (segScanLanes s k f l)).1),
      orFlags ((redRun s f r).map Prod.snd) |||
        orFlags (r.map fun l => (redWritten s f (segScanLanes s k f l)).2)) := by
  rw [segOut, segValues_eq run, zip_map_lanes, List.map_map, List.map_map]
  rfl

/-- The flags of SEGRED: those of its runs' values and of its results. -/
def segredFlags (s : State) (k : Ctl) (f : VFields) : Flags :=
  orFlags ((segRuns s k f).map fun r =>
    orFlags ((redRun s f r).map Prod.snd) |||
      orFlags (r.map fun l => (redWritten s f (segScanLanes s k f l)).2))

theorem exec_segred (issues : Issues s k (.segred k f)) : exec (.segred k f) s = .next (s.crossLane k
    (writesPer (regNum f.d) (redPair f.ty.toNat) (laneResults s k f (segScanLanes s k f)))
    (segredFlags s k f)) := by
  have run : exec (.segred k f) s = .next (s.crossLane k (writesPer (regNum f.d) (redPair f.ty.toNat)
      (((segRuns s k f).map (segOut s f)).flatMap Prod.fst))
      (orFlags (((segRuns s k f).map (segOut s f)).map Prod.snd))) := exec_next issues
  have lanes : ((segRuns s k f).map (segOut s f)).flatMap Prod.fst =
      laneResults s k f (segScanLanes s k f) := by
    rw [List.map_congr_left fun r run => segOut_eq run, List.flatMap_map, List.flatMap_def, ← List.map_flatten,
      segRuns, runsOf_flatten, laneResults]
  rw [run, lanes, List.map_congr_left fun r run => segOut_eq run, List.map_map]
  rfl

theorem segredFlags_raises :
    RaisesRuns s k f (segLanes s k f) (fun _ => False) (segScanLanes s k f) (segredFlags s k f) := by
  intro b
  have each (r : List Nat) (run : r ∈ segRuns s k f) :
      (orFlags ((redRun s f r).map Prod.snd) |||
        orFlags (r.map fun l => (redWritten s f (segScanLanes s k f l)).2)).getLsbD b = true ↔
      ∃ l ∈ r, (redEnters s f r l).getLsbD b = true ∨
        (redWritten s f (segScanLanes s k f l)).2.getLsbD b = true := by
    rw [orFlags_or_map_getLsbD, orFlags_redRun (segRuns_pairwise run)]
    simp only [← exists_or, ← and_or_left]
  rw [segredFlags, orFlags_getLsbD]
  simp only [List.mem_map, exists_exists_and_eq_and]
  rw [exists_congr fun r => and_congr_right (each r), segRuns, exists_run_iff (dstLanes_pairwise ..)]
  simp only [mem_dstLanes, not_false_eq_true, true_and]
  rfl

end Sys2Proof.Machine
end

section
/-! SUPPORT. What LRED, LSCAN and SEGRED combine, start from and write, by type (R164). -/

namespace Sys2Proof.Machine

/-! ## Integers -/

theorem lowBits_mod (x : Int) {n m : Nat} (le : n ≤ m) : lowBits x m % 2 ^ n = lowBits x n := by
  have divides : (2 ^ n : Int) ∣ 2 ^ m := pow_dvd_pow 2 le
  have nonneg (j : Nat) : 0 ≤ x % 2 ^ j := Int.emod_nonneg _ (by positivity)
  rw [lowBits_eq, lowBits_eq]
  zify
  rw [Int.toNat_of_nonneg (nonneg m), Int.toNat_of_nonneg (nonneg n), Int.emod_emod_of_dvd _ divides]

theorem lowBits_asInt (signed : Bool) (n x : Nat) : lowBits (asInt signed n x) n = x % 2 ^ n := by
  rw [lowBits_eq, asInt]
  push_cast
  split
  · rw [Int.sub_emod_right, Int.emod_emod_of_dvd _ dvd_rfl]
    exact_mod_cast Int.toNat_natCast _
  · rw [Int.emod_emod_of_dvd _ dvd_rfl]
    exact_mod_cast Int.toNat_natCast _

theorem lowBits_neg_one (n : Nat) : lowBits (-1) n = 2 ^ n - 1 := by
  have pos : (0 : Int) < 2 ^ n := by positivity
  have last : (-1 : Int) % 2 ^ n = 2 ^ n - 1 := by
    rw [← Int.add_emod_right]
    exact (Int.emod_eq_of_lt (by omega) (by omega)).trans (by omega)
  have cast : ((2 ^ n : Nat) : Int) = 2 ^ n := by push_cast; rfl
  rw [lowBits_eq, last]
  omega

section
variable {ty : Nat} (listed : ty = 1 ∨ ty = 2 ∨ ty = 3 ∨ ty = 4)
include listed

theorem isFpType_integer : isFpType ty = false := by
  rcases listed with rfl | rfl | rfl | rfl <;> rfl

theorem redCombine_exact (c a : Int) : redCombine ty 0 c a = (c + a, 0#6) ∧ redCombine ty 1 c a = (min c a, 0#6) ∧
    redCombine ty 2 c a = (max c a, 0#6) := by
  simp [redCombine, isFpType_integer listed]

theorem redFirst_integer (x : Int) : redFirst ty x = (x, 0#6) := by
  simp [redFirst, isFpType_integer listed]

theorem redCombine_bitwise (c a : Int) :
    let n := typeWidth ty
    lowBits (redCombine ty 3 c a).1 n = lowBits c n &&& lowBits a n ∧
      lowBits (redCombine ty 4 c a).1 n = lowBits c n ||| lowBits a n ∧
      lowBits (redCombine ty 5 c a).1 n = lowBits c n ^^^ lowBits a n ∧
      (redCombine ty 3 c a).2 = 0#6 ∧ (redCombine ty 4 c a).2 = 0#6 ∧ (redCombine ty 5 c a).2 = 0#6 := by
  have bits (x : Int) : lowBits x (typeWidth ty) = lowBits x 64 % 2 ^ typeWidth ty :=
    (lowBits_mod x (typeWidth_le ty)).symm
  have read (x : Nat) : lowBits (redIn ty x) (typeWidth ty) = x % 2 ^ typeWidth ty := by
    rw [redIn, isFpType_integer listed, if_neg Bool.false_ne_true, lowBits_asInt]
  simp only [redCombine, isFpType_integer listed, Bool.false_eq_true, if_false, read, bits c, bits a, Nat.and_mod_two_pow,
    Nat.or_mod_two_pow, Nat.xor_mod_two_pow, and_self]

/-- A result is written reduced, or clamped with ST where it lies outside the type's range. -/
theorem redOut_integer (sat : Bool) (x : Int) :
    (redOut ty sat x).1 % 2 ^ typeWidth ty = elemBitsOf sat (typeSigned ty) (typeWidth ty) x ∧
      StWhen (redOut ty sat x).2 (sat = true ∧ OutOfRange (typeSigned ty) (typeWidth ty) x) := by
  rw [redOut, isFpType_integer listed, if_neg Bool.false_ne_true]
  cases sat
  · exact ⟨(lowBits_mod x (typeWidth_le ty)).trans (lowBits_eq ..), .clear (by simp)⟩
  · have value := sat_value (typeSigned ty) (typeWidth ty) x
    refine ⟨?_, (sat_flag (typeSigned ty) (typeWidth ty) x).congr (by simp)⟩
    rw [if_pos rfl]
    dsimp only
    rw [value, lowBits_mod _ (typeWidth_le ty), lowBits_eq]
    rfl

/-- The identities of min and max are the ends of the type's range. -/
theorem redIdentity_range : OutOfRange (typeSigned ty) (typeWidth ty) (redIdentity ty 1 + 1) ∧
    ¬OutOfRange (typeSigned ty) (typeWidth ty) (redIdentity ty 1) ∧
    OutOfRange (typeSigned ty) (typeWidth ty) (redIdentity ty 2 - 1) ∧
    ¬OutOfRange (typeSigned ty) (typeWidth ty) (redIdentity ty 2) := by
  rcases listed with rfl | rfl | rfl | rfl <;> simp [OutOfRange, typeSigned, typeWidth, redIdentity]

end

/-! ## Floating types -/

section
variable {ty : Nat} {f : FpFmt} (listed : (ty = 5 ∧ f = fp32) ∨ (ty = 6 ∧ f = fp64))
include listed

theorem isFpType_floating : isFpType ty = true ∧ redFmt ty = f := by
  rcases listed with ⟨rfl, rfl⟩ | ⟨rfl, rfl⟩ <;> exact ⟨rfl, rfl⟩

/-- A first value is itself, made quiet where it is a signalling NaN. -/
theorem redFirst_floating (c : Nat) : redFirst ty c =
    if (f.decode c).isSnan then (((roundTo f (f.decode c).quieten 0 false 0).1 : Int), fIV) else ((c : Int), 0#6) := by
  obtain ⟨floating, rfl⟩ := isFpType_floating listed
  simp only [redFirst, floating, if_true, Int.toNat_natCast]

theorem redOut_floating (sat : Bool) (c : Int) : redOut ty sat c = (c.toNat, 0#6) := by
  rw [redOut, (isFpType_floating listed).1, if_pos rfl]

theorem redIn_floating (c : Nat) : redIn ty c = c := by
  rw [redIn, (isFpType_floating listed).1, if_pos rfl]

/-- The sum is rounded by RNE; min and max pick as FMIN and FMAX do. -/
theorem redCombine_floating (c a : Nat) : let v := addNum false (f.decode c) (f.decode a)
    redCombine ty 0 c a = (((roundTo f v.1 0 false 0).1 : Int), v.2 ||| (roundTo f v.1 0 false 0).2) ∧
    redCombine ty 1 c a = (((roundTo f (lesserOf false (f.decode c) (f.decode a)) 0 false 0).1 : Int),
      flagIf ((f.decode c).isSnan || (f.decode a).isSnan) fIV) ∧
    redCombine ty 2 c a = (((roundTo f (lesserOf true (f.decode c) (f.decode a)) 0 false 0).1 : Int),
      flagIf ((f.decode c).isSnan || (f.decode a).isSnan) fIV) := by
  obtain ⟨floating, rfl⟩ := isFpType_floating listed
  simp only [redCombine, floating, if_true, Int.toNat_natCast, pickElem_eq, FpFmt.decodeSrc_false, and_self]

/-- The identities: +0, +infinity for min and -infinity for max. -/
theorem redIdentity_floating : (∃ e, f.decode (redIdentity ty 0).toNat = .fin false 0 e) ∧
    f.decode (redIdentity ty 1).toNat = .inf false ∧ f.decode (redIdentity ty 2).toNat = .inf true := by
  rcases listed with ⟨rfl, rfl⟩ | ⟨rfl, rfl⟩ <;> exact ⟨⟨_, rfl⟩, by decide, by decide⟩

end

end Sys2Proof.Machine
end

section
/-! PROOFS. The statement about reductions, scans and segmented sums (R164 to R166). -/

namespace Sys2Proof.Claims

open Sys2Proof.Machine

/-- Settles O29: the running values are known lane by lane (`runValues_eq_map`, `runValues_fst`), shifted by one behind the
identity in the exclusive scan (`identity_cons_runValues_dropLast`) and run by run in SEGRED (`runsParted`); what they combine
is unfolded by type. -/
theorem reductionsScansAndSums : Obligations.ReductionsScansAndSums := by
  refine ⟨fun s k f => ⟨fun issues => ?lred, fun d dst issues => ?lscan, fun d dst issues => ?segred⟩, ?integer,
    ?floating⟩
  case lred =>
    exact ⟨_, exec_lred issues, lredFlags s k f, lredFlags_raises, defer_deferred ..⟩
  case lscan =>
    exact ⟨_, exec_lscan issues, lscanFlags s k f, _, defer_deferred .., writesPer_laneResults dst _,
      lscanFlags_raises⟩
  case segred =>
    exact ⟨_, exec_segred issues, segredFlags s k f, _, defer_deferred .., writesPer_laneResults dst _,
      segredFlags_raises⟩
  case integer =>
    intro ty listed n sg
    obtain ⟨outMax, inMax, outMin, inMin⟩ := redIdentity_range listed
    refine ⟨redCombine_exact listed, fun x op => ?_, fun x => ?_, redFirst_integer listed, lowBits_neg_one n,
      redCombine_bitwise listed⟩
    · rcases op with rfl | rfl | rfl <;> rfl
    · obtain ⟨wrapped, noFlag⟩ := redOut_integer listed false x
      obtain ⟨clamped, flag⟩ := redOut_integer listed true x
      exact ⟨outMax, inMax, outMin, inMin, wrapped, noFlag.1.resolve_left fun st => Bool.false_ne_true (noFlag.2.1 st).1,
        clamped, flag.1, flag.2.trans (and_iff_right rfl)⟩
  case floating =>
    intro ty f listed x code
    obtain ⟨zero, top, bottom⟩ := redIdentity_floating listed
    exact ⟨fun c => ⟨redIn_floating listed c, redFirst_floating listed c⟩, redOut_floating listed,
      redCombine_floating listed, zero, top, bottom⟩

end Sys2Proof.Claims
end

section
/-! SUPPORT. Rows laid end to end (R167): the row that holds an item, and its place in it. -/

namespace Sys2Proof.Machine

/-! ## The row of an item -/

section
variable (n : Nat → Nat)

/-- The items of the rows ls. -/
def rowSum (ls : List Nat) : Nat := (ls.map n).foldr (· + ·) 0

/-- Row o holds item t: t lies between the sum of the rows below o and that sum with o's own items. -/
def RowHolds (ls : List Nat) (t o : Nat) : Prop :=
  o ∈ ls ∧ rowSum n (below ls o) ≤ t ∧ t < rowSum n (below ls o) + n o

variable {ls : List Nat} {x t o : Nat}

theorem rowSum_cons (x : Nat) (ls : List Nat) : rowSum n (x :: ls) = n x + rowSum n ls := rfl

theorem below_cons_self (sorted : (x :: ls).Pairwise (· < ·)) : below (x :: ls) x = [] := by
  have lowest := (List.pairwise_cons.1 sorted).1
  simpa [below] using fun m lane => (lowest m lane).le

theorem below_cons_above (lt : x < o) : below (x :: ls) o = x :: below ls o := by
  simp [below, lt]

theorem rowHolds_cons (sorted : (x :: ls).Pairwise (· < ·)) :
    RowHolds n (x :: ls) t o ↔ o = x ∧ t < n x ∨ n x ≤ t ∧ RowHolds n ls (t - n x) o := by
  have lowest := (List.pairwise_cons.1 sorted).1
  rw [RowHolds, List.mem_cons]
  by_cases first : o = x
  · subst first
    have notLater : o ∉ ls := fun lane => lt_irrefl o (lowest o lane)
    rw [below_cons_self sorted]
    simp [RowHolds, notLater, rowSum]
  · simp only [first, false_or, false_and, RowHolds]
    by_cases later : o ∈ ls
    · rw [below_cons_above (lowest o later), rowSum_cons]
      simp only [later, true_and]
      omega
    · simp [later]

/-- The row that holds an item is found, with the item's place in it. -/
theorem rowAt_eq_some_iff (sorted : ls.Pairwise (· < ·)) {p : Nat} : rowAt (ls.map fun m => (m, n m)) t = some (o, p) ↔
    RowHolds n ls t o ∧ p = t - rowSum n (below ls o) := by
  induction ls generalizing t with
  | nil => simp [rowAt, RowHolds]
  | cons x ls ih =>
    obtain ⟨lowest, rest⟩ := List.pairwise_cons.1 sorted
    rw [List.map_cons, rowAt, rowHolds_cons n sorted]
    split
    next inFirst =>
      have notLater : ¬n x ≤ t := by omega
      simp only [Option.some.injEq, Prod.mk.injEq, notLater, false_and, or_false, inFirst, and_true, eq_comm (a := x)]
      refine and_congr_right fun first => ?_
      rw [first, below_cons_self sorted]
      exact eq_comm
    next later =>
      have inLater : n x ≤ t := by omega
      simp only [later, and_false, false_or, inLater, true_and]
      rw [ih rest]
      refine and_congr_right fun holds => ?_
      rw [below_cons_above (lowest o holds.1), rowSum_cons, Nat.sub_sub]

theorem rowAt_eq_none_iff : rowAt (ls.map fun m => (m, n m)) t = none ↔ rowSum n ls ≤ t := by
  induction ls generalizing t with
  | nil => simp [rowAt, rowSum]
  | cons x ls ih =>
    rw [List.map_cons, rowAt, rowSum_cons]
    split
    · simp only [reduceCtorEq, false_iff]
      omega
    · rw [ih]
      omega

/-- What a word makes of an item's row and place, or of an item beyond the total. -/
theorem eq_elim_rowAt_iff {α : Type} (sorted : ls.Pairwise (· < ·)) (v tail : α) (val : Nat × Nat → α) :
    v = (rowAt (ls.map fun m => (m, n m)) t).elim tail val ↔
      (∃ o, RowHolds n ls t o ∧ v = val (o, t - rowSum n (below ls o))) ∨ (rowSum n ls ≤ t ∧ v = tail) := by
  have found {o : Nat} (holds : RowHolds n ls t o) := (rowAt_eq_some_iff n sorted).2 ⟨holds, rfl⟩
  rw [← rowAt_eq_none_iff n]
  cases row : rowAt (ls.map fun m => (m, n m)) t with
  | none =>
    have noRow (o : Nat) : ¬RowHolds n ls t o := fun holds => by simpa [row] using found holds
    simp [noRow]
  | some p =>
    obtain ⟨holds, place⟩ := (rowAt_eq_some_iff n (p := p.2) sorted).1 row
    have only {o : Nat} (holds : RowHolds n ls t o) : p = (o, t - rowSum n (below ls o)) :=
      Option.some_inj.1 (row.symm.trans (found holds))
    simp only [Option.elim, reduceCtorEq, false_and, or_false]
    constructor
    · rintro rfl
      exact ⟨p.1, holds, congrArg val (Prod.ext rfl place)⟩
    · rintro ⟨o, holds, rfl⟩
      rw [only holds]

end

/-! ## A table of 32 rows (R169) -/

theorem below_range {o m : Nat} (le : o ≤ m) : below (List.range m) o = List.range o := by
  refine (List.pairwise_lt_range.filter _).eq_of_mem_iff List.pairwise_lt_range fun i => ?_
  simp only [List.mem_filter, List.mem_range, decide_eq_true_eq]
  omega

theorem rowSum_eq_sum (n : Nat → Nat) (ls : List Nat) : rowSum n ls = (ls.map n).sum := rfl

theorem rowHolds_lanes (n : Nat → Nat) (t o : Nat) : RowHolds n lanes t o ↔
    o < 32 ∧ rowSum n (List.range o) ≤ t ∧ t < rowSum n (List.range (o + 1)) := by
  have total : rowSum n (List.range (o + 1)) = rowSum n (List.range o) + n o := by
    simp [rowSum_eq_sum, List.range_succ]
  rw [RowHolds, lanes, List.mem_range, total]
  exact and_congr_right fun lane => by rw [below_range lane.le]

/-- The same for a table of 32 rows. -/
theorem eq_elim_rowAt_lanes_iff {α : Type} (n : Nat → Nat) (t : Nat) (v tail : α) (val : Nat × Nat → α) :
    v = (rowAt (lanes.map fun m => (m, n m)) t).elim tail val ↔
      (∃ o, o < 32 ∧ rowSum n (List.range o) ≤ t ∧ t < rowSum n (List.range (o + 1)) ∧
        v = val (o, t - rowSum n (List.range o))) ∨ (rowSum n (List.range 32) ≤ t ∧ v = tail) := by
  rw [eq_elim_rowAt_iff n (ls := lanes) List.pairwise_lt_range]
  refine or_congr_left (exists_congr fun o => ?_)
  rw [rowHolds_lanes, and_assoc, and_assoc]
  exact and_congr_right fun lane => by rw [lanes, below_range lane.le]

/-! ## Ranks -/

/-- A lane's rank among its lanes is the number of those below it. -/
theorem indexOf_eq_length_below {ls : List Nat} {l : Nat} (sorted : ls.Pairwise (· < ·)) (lane : l ∈ ls) :
    indexOf l ls = (below ls l).length := by
  induction ls with
  | nil => cases lane
  | cons x ls ih =>
    obtain ⟨lowest, rest⟩ := List.pairwise_cons.1 sorted
    rw [indexOf]
    split
    next first => rw [← first, below_cons_self sorted]; rfl
    next other =>
      have lane := (List.mem_cons.1 lane).resolve_left (Ne.symm other)
      rw [ih rest lane, below_cons_above (lowest l lane), List.length_cons]

/-! ## A row and a place as a pair of registers -/

/-- A row in the low half of a pair and the place in its high half; tail where there is no row. -/
def rowPair (tail : Nat) (p : Option (Nat × Nat)) : Nat := p.elim tail fun q => q.1 + 2 ^ 32 * (q.2 % 2 ^ 32)

theorem rowPair_lo (tail : Nat) (p : Option (Nat × Nat)) : BitVec.ofNat 32 (rowPair tail p) =
    p.elim (BitVec.ofNat 32 tail) fun q => BitVec.ofNat 32 q.1 := by
  cases p with
  | none => rfl
  | some q => exact BitVec.eq_of_toNat_eq (by simp [rowPair])

theorem rowPair_hi (tail : Nat) {p : Option (Nat × Nat)} (short : ∀ q, p = some q → q.1 < 2 ^ 32) :
    BitVec.ofNat 32 (rowPair tail p / 2 ^ 32) = p.elim (BitVec.ofNat 32 (tail / 2 ^ 32)) fun q => BitVec.ofNat 32 q.2 := by
  cases p with
  | none => rfl
  | some q =>
    have low := short q rfl
    refine BitVec.eq_of_toNat_eq ?_
    simp only [rowPair, Option.elim, BitVec.toNat_ofNat]
    omega

/-! ## The writes of RBAL and RWALK -/

variable {s : State} {k : Ctl} {f : VFields}

/-- The writes of a row and a place in each lane. -/
theorem mem_writesPer_rowPair {d key : Nat} {v : Word} {ls : List Nat} {tail : Nat → Nat} {p : Nat → Option (Nat × Nat)}
    (short : ∀ l q, p l = some q → q.1 < 2 ^ 32) :
    (key, v) ∈ writesPer d true (ls.map fun l => (l, rowPair (tail l) (p l))) ↔ ∃ l ∈ ls,
      (key = vKey d l ∧ v = (p l).elim (BitVec.ofNat 32 (tail l)) fun q => BitVec.ofNat 32 q.1) ∨
      (key = vKey (d + 1) l ∧ v = (p l).elim (BitVec.ofNat 32 (tail l / 2 ^ 32)) fun q => BitVec.ofNat 32 q.2) := by
  rw [mem_writesPer]
  simp only [true_and, rowPair_lo, rowPair_hi _ (short _)]

/-- The length of the row that lane l holds. -/
def rowLength (s : State) (f : VFields) (l : Nat) : Nat := (rd s s.me f.a l).toNat

/-- RBAL's row and place for a lane. -/
def rbalAt (s : State) (k : Ctl) (f : VFields) (l : Nat) : Option (Nat × Nat) :=
  rowAt ((dstLanes s.me k).map fun m => (m, rowLength s f m)) ((rdU s s.me f.b).toNat + indexOf l (dstLanes s.me k))

theorem exec_rbal (issues : Issues s k (.rbal k f)) : exec (.rbal k f) s = .next (s.crossLane k (writesPer (regNum f.d) true
    ((dstLanes s.me k).map fun l => (l, rowPair 0xFFFFFFFF (rbalAt s k f l)))) 0#6) := by
  refine (exec_next issues).trans ?_
  refine congrArg (fun ws => Host.Outcome.next (s.crossLane k (writesPer (regNum f.d) true ws) 0#6)) ?_
  refine List.map_congr_left fun l _ => congrArg (Prod.mk l) ?_
  dsimp only [rbalAt, rowLength]
  generalize rowAt _ _ = p
  cases p <;> rfl

/-- RWALK's row and place for a lane. -/
def rwalkAt (s : State) (f : VFields) (l : Nat) : Option (Nat × Nat) :=
  rowAt (lanes.map fun m => (m, rowLength s f m)) ((rdU s s.me f.b).toNat + l)

/-- RWALK's row 32 and place for a tail element. -/
def rwalkTail (s : State) (f : VFields) (l : Nat) : Nat :=
  32 + 2 ^ 32 * (((rdU s s.me f.b).toNat + l - rowSum (rowLength s f) lanes) % 2 ^ 32)

/-- The writes of RWALK's rows and places. -/
def rwalkWrites (s : State) (k : Ctl) (f : VFields) : List (Nat × Word) :=
  writesPer (regNum f.d) true ((dstLanes s.me k).map fun l => (l, rowPair (rwalkTail s f l) (rwalkAt s f l)))

/-- The writes of RWALK's predicate, which names the first item of each row. -/
def rwalkHeads (s : State) (k : Ctl) (f : VFields) : List (Nat × Word) :=
  writesPredOpt s.me k f.c fun l => (rwalkAt s f l).elim false fun q => q.2 == 0

theorem exec_rwalk (issues : Issues s k (.rwalk k f)) :
    exec (.rwalk k f) s = .next (s.crossLane k (rwalkWrites s k f ++ rwalkHeads s k f) 0#6) := by
  have total : ((lanes.map fun i => (i, rowLength s f i)).map Prod.snd).foldl (· + ·) 0 = rowSum (rowLength s f) lanes := by
    rw [List.map_map, rowSum, List.foldl_eq_foldr]
    rfl
  refine (exec_next issues).trans ?_
  refine congrArg₂ (fun ws ps => Host.Outcome.next (s.crossLane k (ws ++ ps) 0#6))
    (congrArg (writesPer (regNum f.d) true) ?_) ?_
  · refine List.map_congr_left fun l _ => congrArg (Prod.mk l) ?_
    rw [rwalkTail, ← total]
    dsimp only [rwalkAt, rowLength]
    generalize rowAt _ _ = p
    cases p <;> rfl
  · refine congrArg (writesPredOpt s.me k f.c) (funext fun l => ?_)
    dsimp only [rwalkAt, rowLength]
    generalize rowAt _ _ = p
    cases p <;> rfl

/-! ## What each lane takes -/

theorem row_lt_of_rowAt {n : Nat → Nat} {ls : List Nat} {t : Nat} {q : Nat × Nat} (sorted : ls.Pairwise (· < ·))
    (lane : ∀ m ∈ ls, m < 32) (row : rowAt (ls.map fun m => (m, n m)) t = some q) : q.1 < 2 ^ 32 :=
  (lane q.1 ((rowAt_eq_some_iff n (p := q.2) sorted).1 row).1.1).trans (by decide)

theorem rbalAt_row_lt (l : Nat) (q : Nat × Nat) (row : rbalAt s k f l = some q) : q.1 < 2 ^ 32 :=
  row_lt_of_rowAt (n := rowLength s f) (dstLanes_pairwise ..) (fun _ lane => ((mem_dstLanes ..).1 lane).1) row

theorem rwalkAt_row_lt (l : Nat) (q : Nat × Nat) (row : rwalkAt s f l = some q) : q.1 < 2 ^ 32 :=
  row_lt_of_rowAt (n := rowLength s f) List.pairwise_lt_range (fun _ lane => List.mem_range.1 lane) row

/-- RBAL's item for a lane. -/
def rbalItem (s : State) (k : Ctl) (f : VFields) (l : Nat) : Nat :=
  (rd s s.me f.b 0).toNat + (below (dstLanes s.me k) l).length

theorem eq_elim_rbalAt_iff {l : Nat} (lane : l ∈ dstLanes s.me k) (v tail : Word) (val : Nat × Nat → Word) :
    let P (o : Nat) : Nat := rowSum (rowLength s f) (below (dstLanes s.me k) o)
    v = (rbalAt s k f l).elim tail val ↔
      (∃ o, (o < 32 ∧ (s.me.eff k).getLsbD o = true) ∧ P o ≤ rbalItem s k f l ∧
        rbalItem s k f l < P o + rowLength s f o ∧ v = val (o, rbalItem s k f l - P o)) ∨
      (rowSum (rowLength s f) (dstLanes s.me k) ≤ rbalItem s k f l ∧ v = tail) := by
  rw [rbalAt, indexOf_eq_length_below (dstLanes_pairwise ..) lane]
  simp only [← mem_dstLanes]
  refine (eq_elim_rowAt_iff _ (dstLanes_pairwise ..) v tail val).trans (or_congr_left (exists_congr fun o => ?_))
  rw [RowHolds, and_assoc, and_assoc]
  rfl

theorem rwalkTail_lo (l : Nat) : BitVec.ofNat 32 (rwalkTail s f l) = 32#32 :=
  BitVec.eq_of_toNat_eq (by simp [rwalkTail])

theorem rwalkTail_hi (l : Nat) : BitVec.ofNat 32 (rwalkTail s f l / 2 ^ 32) =
    BitVec.ofNat 32 ((rd s s.me f.b 0).toNat + l - rowSum (rowLength s f) (List.range 32)) := by
  refine BitVec.eq_of_toNat_eq ?_
  rw [rwalkTail, rdU, lanes, BitVec.toNat_ofNat, BitVec.toNat_ofNat]
  omega

/-- A lane is a head where its item is the first of its row. -/
theorem rwalkHead_iff (l : Nat) :
    let P (o : Nat) : Nat := rowSum (rowLength s f) (List.range o)
    (rwalkAt s f l).elim false (fun q => q.2 == 0) = true ↔
      ∃ o, o < 32 ∧ P o = (rd s s.me f.b 0).toNat + l ∧ (rd s s.me f.b 0).toNat + l < P (o + 1) := by
  rw [eq_comm]
  refine (eq_elim_rowAt_lanes_iff ..).trans ?_
  simp only [reduceCtorEq, and_false, or_false, eq_comm (a := true), beq_iff_eq]
  refine exists_congr fun o => and_congr_right fun _ => ?_
  rw [rdU]
  omega

/-! ## RWALK's rows and heads stand apart -/

/-- The keys of v-registers and those of predicates are different. -/
theorem vKey_ne_predKey {n l p j : Nat} (reg : n ≤ 256) (lane : l < 32) : vKey n l ≠ predKey p j := by
  unfold vKey predKey
  omega

theorem mem_rwalkHeads_iff {p : Fin 256} (dst : f.c = .v p) {l : Nat} (lane : l ∈ dstLanes s.me k) {v : Word} :
    (predKey p.val l, v) ∈ rwalkHeads s k f ↔
      v = if (rwalkAt s f l).elim false (fun q => q.2 == 0) then 1#32 else 0#32 := by
  rw [rwalkHeads, mem_writesPredOpt]
  constructor
  · rintro ⟨j, -, q, same, key, value⟩
    obtain rfl : p = q := Operand.v.inj (dst.symm.trans same)
    obtain rfl : l = j := by unfold predKey at key; omega
    exact value
  · exact fun value => ⟨l, lane, p, dst, rfl, value⟩

theorem not_mem_rwalkHeads {key : Nat} {v : Word} (other : ¬∃ p : Fin 256, f.c = .v p ∧ ∃ l, key = predKey p.val l) :
    (key, v) ∉ rwalkHeads s k f := by
  rw [rwalkHeads, mem_writesPredOpt]
  rintro ⟨l, -, p, dst, same, -⟩
  exact other ⟨p, dst, l, same⟩

theorem mem_rwalkWrites_iff {d : Fin 256} (dst : f.d = .v d) {key : Nat} {v : Word} : (key, v) ∈ rwalkWrites s k f ↔
    ∃ l ∈ dstLanes s.me k,
      (key = vKey d.val l ∧ v = (rwalkAt s f l).elim 32#32 fun q => BitVec.ofNat 32 q.1) ∨
      (key = vKey (d.val + 1) l ∧ v = (rwalkAt s f l).elim
        (BitVec.ofNat 32 ((rd s s.me f.b 0).toNat + l - rowSum (rowLength s f) (List.range 32)))
          fun q => BitVec.ofNat 32 q.2) := by
  rw [rwalkWrites, dst, mem_writesPer_rowPair rwalkAt_row_lt]
  simp only [rwalkTail_lo, rwalkTail_hi]
  rfl

theorem predKey_not_mem_rwalkWrites {d : Fin 256} (dst : f.d = .v d) {p l : Nat} {v : Word} :
    (predKey p l, v) ∉ rwalkWrites s k f := by
  rw [mem_rwalkWrites_iff dst]
  rintro ⟨j, lane, ⟨key, -⟩ | ⟨key, -⟩⟩ <;>
    exact vKey_ne_predKey (by omega) ((mem_dstLanes ..).1 lane).1 key.symm

end Sys2Proof.Machine
end

section
/-! PROOFS. The statement about RBAL and RWALK (R167 to R169). -/

namespace Sys2Proof.Claims

open Sys2Proof.Machine

/-- Settles O30: the row that the model finds for an item is the one that holds it by the sums of the rows below
(`eq_elim_rowAt_iff`), and RWALK's predicate writes stand apart from its rows and places. -/
theorem rowBalance : Obligations.RowBalance := by
  refine fun s k f d dst => ⟨fun issues => ?rbal, fun issues => ?rwalk⟩
  case rbal =>
    refine ⟨_, exec_rbal issues, _, defer_deferred .., fun key v => .inr ?_⟩
    rw [dst, mem_writesPer_rowPair rbalAt_row_lt]
    refine exists_congr fun l => (and_congr_right fun lane => ?_).trans (and_congr_left' (mem_dstLanes ..))
    exact or_congr (and_congr_right fun _ => eq_elim_rbalAt_iff lane ..)
      (and_congr_right fun _ => eq_elim_rbalAt_iff lane ..)
  case rwalk =>
    refine ⟨_, exec_rwalk issues, _, defer_deferred .., fun key v => or_iff_not_imp_left.2 fun other => ?rows,
      fun p pred l v lane => ?heads⟩
    case rows =>
      rw [List.mem_append, or_iff_left (not_mem_rwalkHeads other), mem_rwalkWrites_iff dst]
      simp only [mem_dstLanes]
      exact exists_congr fun l => and_congr_right fun _ => or_congr (and_congr_right fun _ => eq_elim_rowAt_lanes_iff ..)
        (and_congr_right fun _ => eq_elim_rowAt_lanes_iff ..)
    case heads =>
      rw [List.mem_append, or_iff_right (predKey_not_mem_rwalkWrites dst), mem_rwalkHeads_iff pred ((mem_dstLanes ..).2 lane)]
      exact predWord_iff (rwalkHead_iff l)

end Sys2Proof.Claims
end

section
/-! SUPPORT. What the homes and the distributor do in states that no word makes: a request that moves a line and stores to it
as well (R194, R242), and more sweeps than the 16 that a context holds (R402). -/

namespace Sys2Proof.Machine

/-! ## A request that moves a line (R194) -/

theorem State.serveMove_mem (s : State) (r : Request) (status : Nat) : (s.serveMove r status).mem = s.mem := by
  unfold State.serveMove
  dsimp only
  split <;> split <;> rfl

/-- A home that moves a line of a window does nothing else with the request: no lane of it writes. -/
theorem State.serve_mem_of_moves (s : State) {r : Request} {status : Nat} (lock : r.isLock = false)
    (moves : r.moves = some status) : (s.serve r).mem = s.mem := by
  unfold State.serve
  simp only [lock, moves, Bool.false_eq_true, if_false]
  exact State.serveMove_mem ..

theorem State.startRequest_mem (s : State) (r : Request) : (s.startRequest r).mem = s.mem := by
  unfold State.startRequest
  split <;> rfl

/-- The turn of a request that moves a line leaves every byte, since nothing holds such a request back. -/
theorem homeRequest_sameMemory_of_moves {s t : State} {slice line status : Nat} {r : Request} {tie : Bool}
    (picked : s.pickRequest slice line = some (r, tie)) (held : r.held = false) (lock : r.isLock = false)
    (moves : r.moves = some status) (run : exec (.homeRequest slice line) s = .next t) : SameMemory s t := by
  have free : s.obstacle r = .none := by simp [State.obstacle, moves]
  simp only [exec, execHomeRequest, picked, held, free, Bool.false_eq_true, if_false, Host.Outcome.next.injEq] at run
  intro a
  unfold State.byteAt
  rw [← run, State.serve_mem_of_moves _ lock moves, State.startRequest_mem]
  split <;> rfl

/-- A request of two lanes, of which one moves line 0 and the other stores 7 to its first byte. -/
def moveAndStore : Request :=
  { id := 1, core := 0, slot := 0, own := 1, line := 0, port := 0, hint := 0, order := 0, scope := 0, inL1 := false, tracked := true
    arrived := some 0
    ops := [{ lane := 0, key := 0, n := 1, op := .move 0, dst := [] }, { lane := 1, key := 0, n := 1, op := .store 7, dst := [] }] }

/-- The reset state, in which that request alone stands at its home. -/
def moveAndStoreAtHome : State := { State.reset with reqs := [moveAndStore] }

theorem pickRequest_moveAndStore : moveAndStoreAtHome.pickRequest 0 0 = some (moveAndStore, false) := by decide

/-- Whatever the order of its lanes, the byte that it stores to would come to hold 7. -/
theorem afterOps_moveAndStore {os : List LaneOp} (order : os.Perm moveAndStore.ops) :
    afterOps os moveAndStoreAtHome.byteAt 0 = 7#8 := by
  have every : ∀ os ∈ moveAndStore.ops.permutations', afterOps os moveAndStoreAtHome.byteAt 0 = 7#8 := by decide
  exact every os (List.mem_permutations'.2 order)

/-! ## SWSTAT (R402) -/

/-- The sweeps that hold items are counted in the low half of SWSTAT, and what does not fit there is added to the posts
discarded. -/
theorem Ctx.swstat_high (x : Ctx) : x.swstat.extractLsb' 16 16 =
    x.swlost + BitVec.ofNat 16 ((x.sweeps.filter fun y => decide (y.next < y.n)).length / 65536) := by
  apply BitVec.eq_of_toNat_eq
  simp only [Ctx.swstat, BitVec.extractLsb'_toNat, BitVec.toNat_ofNat, BitVec.toNat_add, Nat.shiftRight_eq_div_pow]
  omega

/-- A context with a number of sweeps that hold an item each, and no post discarded. -/
def crowded (sweeps : Nat) : Ctx := { sweeps := List.replicate sweeps { id := 0#32, next := 0, n := 1, arg := 0#32 } }

@[simp] theorem crowded_swlost (sweeps : Nat) : (crowded sweeps).swlost = 0#16 := rfl

theorem crowded_swstat_high (sweeps : Nat) : (crowded sweeps).swstat.extractLsb' 16 16 = BitVec.ofNat 16 (sweeps / 65536) := by
  rw [Ctx.swstat_high, crowded_swlost]
  simp [crowded]

theorem bar0Read_swstat (s : State) : s.bar0Read (0x100000 + 0x18000 + 16) = (s.ctx 0).swstat := by
  have place : bar0At (0x100000 + 0x18000 + 16) = .sweeps 0 16 := by decide
  simp only [State.bar0Read, place, Ctx.sweepRead]

end Sys2Proof.Machine
end

section
/-! PROOFS. The statements about the homes' events (R207, R242) and the host's mailboxes (R401, R402), which both fail in states
that no run of the module comes to. -/

namespace Sys2Proof.Claims

open Sys2Proof.Machine

/-- Refutes O51: the clause that has a request's stores and atomics done one after another asks for no LOCK, MON or prefetch
among its lanes, but not for `r.moves = none`. Where one lane of `moveAndStore` moves line 0 and another stores 7 to its first
byte, the home moves the line and makes no store. -/
theorem not_memorySteps : ¬ Obligations.MemorySteps := by
  intro h
  obtain ⟨-, serves, -⟩ := h.1 moveAndStoreAtHome
  obtain ⟨t, run, -, -, -, -, writes, -⟩ := serves 0 0 moveAndStore false pickRequest_moveAndStore rfl rfl
  obtain ⟨os, order, bytes, -⟩ := writes rfl rfl rfl rfl (by decide)
  have same := homeRequest_sameMemory_of_moves pickRequest_moveAndStore rfl rfl (status := 0) rfl run 0
  have stored : (0#8 : Byte) = 7#8 := by
    calc 0#8 = moveAndStoreAtHome.byteAt 0 := rfl
      _ = t.byteAt 0 := same.symm
      _ = afterOps os moveAndStoreAtHome.byteAt 0 := bytes 0
      _ = 7#8 := afterOps_moveAndStore order
  exact absurd stored (by decide)

/-- Refutes O54: the clause that bits 31:16 of SWSTAT are SWLOST sets no bound on the sweeps that bits 15:0 count. With
65,536 of them in context 0 of the reset state, the count carries into the upper half, which reads 1 while SWLOST is 0. -/
theorem not_hostMailboxes : ¬ Obligations.HostMailboxes := by
  intro h
  obtain ⟨-, -, -, -, layout⟩ := h (State.reset.setCtx 0 (crowded 65536)) 0 0 0 (by decide)
  obtain ⟨-, -, -, -, -, -, -, -, -, -, -, lost, -⟩ := layout (by decide) [] [] false 0#32
  have reads : (1#16 : BitVec 16) = 0#16 := by
    calc 1#16 = (crowded 65536).swstat.extractLsb' 16 16 := (crowded_swstat_high 65536).symm
      _ = ((State.reset.setCtx 0 (crowded 65536)).bar0Read (0x100000 + 0x18000 + 16)).extractLsb' 16 16 := by
        rw [bar0Read_swstat, State.ctx_setCtx_same]
      _ = ((State.reset.setCtx 0 (crowded 65536)).ctx 0).swlost := lost
      _ = 0#16 := by rw [State.ctx_setCtx_same, crowded_swlost]
  exact absurd reads (by decide)

end Sys2Proof.Claims
end

section
/-! SUPPORT. Monitors that a write fires (R244), lines that are written back (R208), arrivals at a team barrier (R249, R250), and
what BAR, BARA and BARW do with them. -/

namespace Sys2Proof.Machine

/-! ## A word without effect -/

theorem finish_noEffect (s : State) (k : Ctl) : NoEffect s (s.finish k [] 0#6) k := by
  have none : s.me.fpstat ||| 0#6 = s.me.fpstat := BitVec.or_zero
  rw [NoEffect, State.finish, State.modMe]
  simp only [Warp.putMany, Warp.setFlags, Warp.advance, none, atNext]

/-! ## Monitors (R244) -/

/-- A warp whose monitor has fired if it stands on the line. -/
def Warp.firedOn (w : Warp) (line : Nat) : Warp :=
  match w.monitor with
  | some m => if m.line = line then { w with monitor := some { m with fired := true } } else w
  | none => w

theorem Warp.firedOn_cases (w : Warp) (line : Nat) : w.firedOn line = w ∨
    ∃ m, w.monitor = some m ∧ w.firedOn line = { w with monitor := some { m with fired := true } } := by
  unfold Warp.firedOn
  cases armed : w.monitor with
  | none => exact .inl rfl
  | some m =>
    by_cases here : m.line = line
    · exact .inr ⟨m, rfl, if_pos here⟩
    · exact .inl (if_neg here)

theorem State.warp_fire (s : State) (writer : Option Nat) (line j : Nat) :
    (s.fire writer line).warp j = if some j = writer then s.warp j else (s.warp j).firedOn line :=
  tget_tmap _ _ _ _ (by split <;> rfl)

theorem OnlyMonitors.of_warps {s t : State} (h : t.warps = s.warps) : OnlyMonitors s t := by
  intro y
  have same : t.warp y = s.warp y := by rw [State.warp, h, State.warp]
  exact ⟨by rw [same], .inl (by rw [same])⟩

theorem OnlyMonitors.trans {s t u : State} (h : OnlyMonitors s t) (g : OnlyMonitors t u) : OnlyMonitors s u := by
  intro y
  obtain ⟨hwarp, hmonitor⟩ := h y
  obtain ⟨gwarp, gmonitor⟩ := g y
  refine ⟨by rw [gwarp, hwarp], ?_⟩
  rcases hmonitor with hmonitor | ⟨m, armed, fired⟩
  · rwa [hmonitor] at gmonitor
  · right
    rcases gmonitor with gmonitor | ⟨n, armed', fired'⟩
    · exact ⟨m, armed, gmonitor.trans fired⟩
    · rw [fired, Option.some.injEq] at armed'
      exact ⟨m, armed, by rw [fired', ← armed']⟩

theorem onlyMonitors_fire (s : State) (writer : Option Nat) (line : Nat) : OnlyMonitors s (s.fire writer line) := by
  intro y
  rw [State.warp_fire]
  split
  · exact ⟨rfl, .inl rfl⟩
  · rcases (s.warp y).firedOn_cases line with same | ⟨m, armed, fired⟩
    · rw [same]; exact ⟨rfl, .inl rfl⟩
    · rw [fired]; exact ⟨rfl, .inr ⟨m, armed, rfl⟩⟩

/-! ## Write-backs (R208) -/

/-- Lines have been written back: copies, the homes' entries and monitors may have changed, and nothing else. -/
structure WrittenBack (s u : State) : Prop where
  machine : u = { s with cores := u.cores, lines := u.lines, warps := u.warps }
  warps : OnlyMonitors s u

theorem WrittenBack.refl (s : State) : WrittenBack s s := ⟨rfl, .of_warps rfl⟩

theorem WrittenBack.trans {s t u : State} (h : WrittenBack s t) (g : WrittenBack t u) : WrittenBack s u := by
  refine ⟨?_, h.warps.trans g.warps⟩
  have := g.machine
  rw [h.machine] at this
  rw [this]

theorem WrittenBack.foldl {α : Type} (g : State → α → State) (hg : ∀ s x, WrittenBack s (g s x)) (xs : List α) (s : State) :
    WrittenBack s (xs.foldl g s) := by
  induction xs generalizing s with
  | nil => exact .refl s
  | cons x xs ih => exact (hg s x).trans (ih _)

theorem writtenBack_writeBack (s : State) (core line : Nat) : WrittenBack s (s.writeBack core line) := by
  unfold State.writeBack
  split
  · exact .refl s
  · exact WrittenBack.trans ⟨rfl, .of_warps rfl⟩ ⟨rfl, onlyMonitors_fire _ _ _⟩

theorem writtenBack_writeBackAll (s : State) (core : Nat) (ls : List Nat) : WrittenBack s (s.writeBackAll core ls) :=
  .foldl _ (fun t l => writtenBack_writeBack t core l) ls s

/-- The drains of a completed generation write back each arrival's lines (R250). -/
theorem writtenBack_drains (s : State) (drains : Bool) (rel : Tbl Word) : WrittenBack s
    (if drains then rel.foldl (fun u p => u.writeBackAll p.1 (u.dirtyLines p.1 p.2)) s else s) := by
  split
  · exact .foldl _ (fun t p => writtenBack_writeBackAll t _ _) rel s
  · exact .refl s

theorem WrittenBack.sameMemory {s u : State} (h : WrittenBack s u) : SameMemory s u := by
  intro a
  rw [h.machine]
  rfl

theorem WrittenBack.team {s u : State} (h : WrittenBack s u) (tk : Nat) : u.team tk = s.team tk := by
  rw [h.machine]
  rfl

/-! ## Arrivals (R249, R250) -/

@[simp] theorem Team.bar_setBar (t : Team) (b c : Nat) (x : Barrier) : (t.setBar b x).bar c = if c = b then x else t.bar c :=
  tget_tset ..

/-- The count of a generation: that of its first arrival (R249). -/
def Barrier.countFor (x : Barrier) (count : Nat) : BitVec 5 := if x.arrived = 0#16 then BitVec.ofNat 5 count else x.count

/-- Does the arrival of warp i complete the generation? -/
def Barrier.Completes (x : Barrier) (i count : Nat) : Prop :=
  popcount (x.arrived ||| (1#16 <<< i)) = (x.countFor count).toNat

section
variable {x : Barrier} {i count : Nat} (core : Nat) (num : Word)

theorem Barrier.arrive_completes (full : x.Completes i count) : x.arrive i count core num =
    ({ gen := x.gen + 1#32, count := 0#5, arrived := 0#16, rel := tset 0#32 x.rel core num }, true) := if_pos full

theorem Barrier.arrive_joins (more : ¬x.Completes i count) : x.arrive i count core num =
    ({ gen := x.gen, count := x.countFor count, arrived := x.arrived ||| (1#16 <<< i), rel := tset 0#32 x.rel core num },
      false) := if_neg more

end

/-- The number of warps that a count stands for: 0 is the whole team (R249). -/
def State.arrivalCount (s : State) (c : Word) : Nat := if c = 0#32 then (s.team s.me.teamKey).cores.length else c.toNat

/-- The barrier that the current warp's word names. -/
def State.myBar (s : State) (b : Nat) : Barrier := (s.team s.me.teamKey).bar b

/-- Does the current warp's arrival complete its generation of barrier b? -/
def State.Completes (s : State) (b : Nat) (c : Word) : Prop := (s.myBar b).Completes s.me.twarp (s.arrivalCount c)

/-- The current warp may arrive now: for the first time in this generation, with its earlier accesses performed, and, where it
completes the generation, with the markers of every drain accepted (R249, R250, log 27). -/
structure State.MayArrive (s : State) (b : Nat) (c : Word) : Prop where
  legal : s.arrivalCount c ≤ (s.team s.me.teamKey).cores.length
  first : (s.myBar b).arrived.getLsbD s.me.twarp = false
  stores : s.me.stq = []
  loads : ∀ o ∈ s.me.outs, s.pending s.cur o.id = false
  drains : s.Completes b c → ∀ y ∈ tset 0#32 (s.myBar b).rel (keyCore s.cur) ((s.core (keyCore s.cur)).relCtr + 1#32),
    s.markersPass y.1 (s.dirtyLines y.1 y.2) = true

/-- The current warp has arrived at barrier b: it completed the generation, or joined the others (R249). Write-backs apart,
nothing but the barrier has changed. -/
def Arrived (s u : State) (b : Nat) (c : Word) : Prop :=
  let tk := s.me.teamKey
  let x := (s.team tk).bar b
  let all := x.arrived ||| (1#16 <<< s.me.twarp)
  OnlyMonitors s u ∧ SameMemory s u ∧
  u = { s with teams := u.teams, cores := u.cores, lines := u.lines, warps := u.warps } ∧
  (∀ y, y ≠ tk → u.team y = s.team y) ∧ u.team tk = { s.team tk with bars := (u.team tk).bars } ∧
  (∀ d, d ≠ b → (u.team tk).bar d = (s.team tk).bar d) ∧
  let y := (u.team tk).bar b
  (s.Completes b c → y.gen = x.gen + 1#32 ∧ y.arrived = 0#16 ∧ y.count = 0#5) ∧
  (¬s.Completes b c → y.gen = x.gen ∧ y.arrived = all ∧ y.count = x.countFor (s.arrivalCount c))

/-- The barrier after the current warp's arrival, and whether the arrival completed its generation. -/
def State.arrival (s : State) (b : Nat) (c : Word) : Barrier × Bool :=
  (s.myBar b).arrive s.me.twarp (s.arrivalCount c) (keyCore s.cur) ((s.core (keyCore s.cur)).relCtr + 1#32)

/-- The state in which the team's barrier is the one after the arrival. -/
def State.atArrival (s : State) (b : Nat) (c : Word) : State :=
  s.modTeam s.me.teamKey fun y => y.setBar b (s.arrival b c).1

theorem arrived_of_writtenBack {s u : State} {b : Nat} {c : Word} (h : WrittenBack (s.atArrival b c) u) : Arrived s u b c := by
  have here : u.team s.me.teamKey = (s.team s.me.teamKey).setBar b (s.arrival b c).1 := by
    rw [h.team, State.atArrival, State.team_modTeam_same]
  refine ⟨.trans (.of_warps rfl) h.warps, h.sameMemory, ?_, fun y other => ?_, ?_, fun d other => ?_, fun full => ?_, fun more => ?_⟩
  · have := h.machine
    rw [this]
    rfl
  · rw [h.team, State.atArrival, State.team_modTeam, if_neg other]
  · rw [here]
    rfl
  · rw [here, Team.bar_setBar, if_neg other]
  · rw [here, Team.bar_setBar, if_pos rfl, State.arrival, Barrier.arrive_completes _ _ full]
    exact ⟨rfl, rfl, rfl⟩
  · rw [here, Team.bar_setBar, if_pos rfl, State.arrival, Barrier.arrive_joins _ _ more]
    exact ⟨rfl, rfl, rfl⟩

/-- No marker holds back a warp that may arrive. -/
theorem State.MayArrive.unheld {s : State} {b : Nat} {c : Word} (h : s.MayArrive b c) (spread : Bool) :
    ¬(((s.arrival b c).2 && spread) && !(s.arrival b c).1.rel.all fun p => s.markersPass p.1 (s.dirtyLines p.1 p.2)) = true := by
  by_cases full : s.Completes b c
  · rw [State.arrival, Barrier.arrive_completes _ _ full, List.all_eq_true.2 (h.drains full)]
    simp
  · rw [State.arrival, Barrier.arrive_joins _ _ full]
    simp

/-- An arrival that nothing holds back is made, and answers the number of its generation. -/
theorem arriveBar_done {s : State} {b : Nat} {c : Word} (h : s.MayArrive b c) :
    ∃ u, s.arriveBar b c = .done (s.myBar b).gen u ∧ Arrived s u b c := by
  have free : ¬((s.myBar b).arrived.getLsbD s.me.twarp = true ∨ s.me.stq ≠ [] ∨
      (s.me.outs.any fun o => s.pending s.cur o.id) = true) := by
    rw [h.first, h.stores, List.any_eq_true]
    rintro (again | store | ⟨o, ho, busy⟩)
    · cases again
    · exact store rfl
    · rw [h.loads o ho] at busy
      cases busy
  refine ⟨_, (if_neg (Nat.not_lt.2 h.legal)).trans ((if_neg free).trans (if_neg (h.unheld _))),
    arrived_of_writtenBack (writtenBack_drains ..)⟩

/-- A second arrival in one generation waits. -/
theorem arriveBar_again {s : State} {b : Nat} {c : Word} (legal : s.arrivalCount c ≤ (s.team s.me.teamKey).cores.length)
    (again : (s.myBar b).arrived.getLsbD s.me.twarp = true) : s.arriveBar b c = .wait :=
  (if_neg (Nat.not_lt.2 legal)).trans (if_pos (.inl again))

/-- The barrier after the arrival, under the number that the warp's team still has. -/
theorem Arrived.gen {s u : State} {b : Nat} {c : Word} (h : Arrived s u b c) :
    (s.Completes b c → (u.myBar b).gen ≠ (s.myBar b).gen) ∧ (¬s.Completes b c → (u.myBar b).gen = (s.myBar b).gen) := by
  obtain ⟨warps, -, machine, -, -, -, full, more⟩ := h
  have key : u.me.teamKey = s.me.teamKey := by
    have cur : u.cur = s.cur := by rw [machine]
    rw [State.me, cur, (warps s.cur).1]
    rfl
  unfold State.myBar
  rw [key]
  refine ⟨fun h => ?_, fun h => (more h).1⟩
  rw [(full h).1]
  simp

/-! ## BAR, BARA and BARW (R249) -/

section
variable {s u : State} {k : Ctl} {f : EFields}

theorem exec_bar_completing (issues : Issues s k (.bar k f)) (acts : s.me.acts k = true)
    (done : s.arriveBar f.func.toNat (rdU s s.me f.a) = .done (s.myBar f.func.toNat).gen u)
    (next : (u.myBar f.func.toNat).gen ≠ (s.myBar f.func.toNat).gen) :
    exec (.bar k f) s = .next (u.finish k [] 0#6) := by
  rw [exec, execBar, issue_next issues]
  simp only [acts, done]
  exact congrArg _ (if_pos next)

theorem exec_bar_joining (issues : Issues s k (.bar k f)) (acts : s.me.acts k = true)
    (done : s.arriveBar f.func.toNat (rdU s s.me f.a) = .done (s.myBar f.func.toNat).gen u)
    (same : (u.myBar f.func.toNat).gen = (s.myBar f.func.toNat).gen) :
    exec (.bar k f) s = .next (u.modMe fun w => w.sleepIn k.sw (.barrier f.func.toNat (s.myBar f.func.toNat).gen) u.tick) := by
  rw [exec, execBar, issue_next issues]
  simp only [acts, done]
  exact congrArg _ (if_neg (not_not.2 same))

theorem exec_bara (issues : Issues s k (.bara k f)) (acts : s.me.acts k = true) {g : Word}
    (done : s.arriveBar f.func.toNat (rdU s s.me f.a) = .done g u) :
    exec (.bara k f) s = .next (u.value32 k f.d fun _ => (g, 0#6)) := by
  rw [exec, execBara, issue_next issues, State.value32, flagsOver_zero]
  simp [acts, done]

theorem exec_barw_waiting (issues : Issues s k (.barw k f)) (acts : s.me.acts k = true)
    (same : (s.myBar f.func.toNat).gen = rdU s s.me f.a) :
    exec (.barw k f) s = .next (s.modMe fun w => w.sleepIn k.sw (.barrier f.func.toNat (s.myBar f.func.toNat).gen) s.tick) := by
  rw [exec, execBarw, issue_next issues, same]
  exact congrArg _ (if_pos ⟨acts, same⟩)

theorem exec_barw_passing (issues : Issues s k (.barw k f))
    (free : ¬(s.me.acts k = true ∧ (s.myBar f.func.toNat).gen = rdU s s.me f.a)) :
    exec (.barw k f) s = .next (s.finish k [] 0#6) := by
  rw [exec, execBarw, issue_next issues]
  exact congrArg _ (if_neg free)

/-- A second arrival waits in its run (log 121). -/
theorem exec_arrival_again {i : Instr} (word : i = .bar k f ∨ i = .bara k f) (issues : Issues s k i) (acts : s.me.acts k = true)
    (wait : s.arriveBar f.func.toNat (rdU s s.me f.a) = .wait) : exec i s = .next s := by
  rcases word with rfl | rfl
  · rw [exec, execBar, issue_next issues]
    simp [acts, wait]
  · rw [exec, execBara, issue_next issues]
    simp [acts, wait]

theorem exec_arrival_idle {i : Instr} (word : i = .bar k f ∨ i = .bara k f) (issues : Issues s k i) (idle : s.me.acts k = false) :
    exec i s = .next (s.finish k [] 0#6) := by
  rcases word with rfl | rfl
  · rw [exec, execBar, issue_next issues]
    simp [idle]
  · rw [exec, execBara, issue_next issues]
    simp [idle]

end

end Sys2Proof.Machine
end

section
/-! SUPPORT. Memory as bytes and as little-endian numbers (R2), the orders in which lanes act (R184), and the grouping of a word's
lanes by line. -/

namespace Sys2Proof.Machine

/-! ## Little-endian numbers -/

theorem leNat_lt (bs : List Byte) : leNat bs < 2 ^ (8 * bs.length) := by
  induction bs with
  | nil => exact Nat.one_pos
  | cons b bs ih =>
    have pow : 2 ^ (8 * (b :: bs).length) = 256 * 2 ^ (8 * bs.length) := by
      rw [List.length_cons, Nat.mul_add, Nat.pow_add, Nat.mul_comm]
    have := b.isLt
    rw [pow, leNat]
    omega

/-- The bytes of a number, n of them. -/
theorem natLe_eq_map (n v : Nat) : natLe n v = (List.range n).map fun i => BitVec.ofNat 8 (v / 256 ^ i) := by
  induction n generalizing v with
  | zero => rfl
  | succ n ih =>
    rw [natLe, ih, List.range_succ_eq_map, List.map_cons, List.map_map, pow_zero, Nat.div_one]
    refine congrArg _ (List.map_congr_left fun i _ => ?_)
    rw [Function.comp_apply, Nat.div_div_eq_div_mul, Nat.succ_eq_add_one, pow_succ']

theorem leNat_natLe (n v : Nat) : leNat (natLe n v) = v % 2 ^ (8 * n) := by
  induction n generalizing v with
  | zero => rw [Nat.mul_zero, pow_zero, Nat.mod_one]; rfl
  | succ n ih =>
    have pow : 2 ^ (8 * (n + 1)) = 256 * 2 ^ (8 * n) := by
      rw [Nat.mul_add, Nat.pow_add, Nat.mul_comm]
    rw [natLe, leNat, ih, pow, Nat.mod_mul, BitVec.toNat_ofNat]

theorem numIn_lt (m : Nat → Byte) (a n : Nat) : numIn m a n < 2 ^ (8 * n) := by
  have := leNat_lt ((List.range n).map fun i => m (a + i))
  rwa [List.length_map, List.length_range] at this

/-- A number reads as it was put. -/
theorem numIn_putIn (m : Nat → Byte) (a n v : Nat) : numIn (putIn m a n v) a n = v % 2 ^ (8 * n) := by
  rw [← leNat_natLe, natLe_eq_map]
  refine congrArg leNat (List.map_congr_left fun i hi => ?_)
  have inside : a ≤ a + i ∧ a + i < a + n := by have := List.mem_range.1 hi; omega
  rw [putIn, if_pos inside, Nat.add_sub_cancel_left]

theorem State.byteAt_putBytes_natLe (s : State) (key n v : Nat) :
    (s.putBytes key (natLe n v)).byteAt = putIn s.byteAt key n v := by
  have length : (natLe n v).length = n := by rw [natLe_eq_map, List.length_map, List.length_range]
  funext x
  show tget blankByte (Machine.putBytes s.mem key (natLe n v)) x = _
  unfold putIn
  split
  case isTrue inside =>
    obtain ⟨i, rfl⟩ := Nat.exists_eq_add_of_le inside.1
    rw [tget_putBytes_inside _ _ _ _ (by omega), Nat.add_sub_cancel_left]
    simp only [natLe_eq_map, List.getElem_map, List.getElem_range]
  case isFalse outside => exact tget_putBytes_outside _ _ _ _ (by omega)

/-! ## Orders -/

theorem shuffle_perm {α : Type} (free : Nat → Nat) (fuel : Nat) (xs : List α) : (shuffle free fuel xs).Perm xs := by
  induction fuel generalizing xs with
  | zero => exact .refl xs
  | succ fuel ih =>
    have whole := List.take_append_drop (free fuel % xs.length) xs
    unfold shuffle
    split
    case h_1 y ys rest =>
      rw [rest] at whole
      exact ((ih _).cons y).trans (List.perm_middle.symm.trans (.of_eq whole))
    case h_2 rest =>
      rw [rest, List.append_nil] at whole
      rw [whole]

theorem State.shuffled_perm {α : Type} (s : State) (salt : Nat) (xs : List α) : (s.shuffled salt xs).Perm xs :=
  shuffle_perm ..

/-! ## The lines of a word (R184) -/

/-- Of a list without two equal keys, one element goes before the others. -/
theorem cons_filter_key_perm {β : Type} {gs : List (Nat × β)} (nodup : (gs.map Prod.fst).Nodup) {g : Nat × β} (hg : g ∈ gs) :
    (g :: gs.filter fun x => x.1 != g.1).Perm gs := by
  induction gs with
  | nil => cases hg
  | cons x xs ih =>
    rw [List.map_cons, List.nodup_cons] at nodup
    obtain ⟨apart, nodup⟩ := nodup
    rcases List.mem_cons.1 hg with rfl | hg
    · have others : ∀ y ∈ xs, (y.1 != g.1) = true := fun y hy => bne_iff_ne.2 fun same =>
        apart (same ▸ List.mem_map_of_mem hy)
      rw [List.filter_cons_of_neg (by simp), List.filter_eq_self.2 others]
    · have other : (x.1 != g.1) = true := bne_iff_ne.2 fun same => apart (same ▸ List.mem_map_of_mem hg)
      rw [List.filter_cons, if_pos other]
      exact (List.Perm.swap x g _).trans ((ih nodup hg).cons x)

/-- One more lane before those of its line, or before all. -/
theorem groupLines_cons (o : LaneOp) (os : List LaneOp) :
    (∃ g ∈ groupLines os, g.1 = lineOf o.key ∧
      groupLines (o :: os) = (g.1, o :: g.2) :: (groupLines os).filter fun x => x.1 != g.1) ∨
    ((∀ g ∈ groupLines os, g.1 ≠ lineOf o.key) ∧ groupLines (o :: os) = (lineOf o.key, [o]) :: groupLines os) := by
  rw [groupLines]
  split
  case h_1 g found =>
    have line : g.1 = lineOf o.key := by simpa using List.find?_some found
    exact .inl ⟨g, List.mem_of_find?_eq_some found, line, by rw [line]⟩
  case h_2 absent => exact .inr ⟨by simpa using absent, rfl⟩

/-- No line has two groups. -/
theorem groupLines_nodup (os : List LaneOp) : ((groupLines os).map Prod.fst).Nodup := by
  induction os with
  | nil => exact .nil
  | cons o os ih =>
    rcases groupLines_cons o os with ⟨g, hg, -, eq⟩ | ⟨absent, eq⟩
    · have perm := (cons_filter_key_perm ih hg).map Prod.fst
      rw [eq]
      exact perm.nodup_iff.2 ih
    · rw [eq, List.map_cons, List.nodup_cons]
      refine ⟨fun same => ?_, ih⟩
      obtain ⟨g, hg, line⟩ := List.mem_map.1 same
      exact absent g hg line

/-- The groups hold the word's lanes. -/
theorem groupLines_perm (os : List LaneOp) : ((groupLines os).flatMap Prod.snd).Perm os := by
  induction os with
  | nil => exact .nil
  | cons o os ih =>
    rcases groupLines_cons o os with ⟨g, hg, -, eq⟩ | ⟨-, eq⟩
    · have perm := (cons_filter_key_perm (groupLines_nodup os) hg).flatMap_right Prod.snd
      rw [eq]
      exact (perm.trans ih).cons o
    · rw [eq]
      exact ih.cons o

/-- Each group holds lanes of its line alone. -/
theorem groupLines_line {os : List LaneOp} {g : Nat × List LaneOp} (hg : g ∈ groupLines os) :
    g.2 ≠ [] ∧ ∀ o ∈ g.2, lineOf o.key = g.1 := by
  induction os generalizing g with
  | nil => cases hg
  | cons o os ih =>
    rcases groupLines_cons o os with ⟨h, hh, line, eq⟩ | ⟨-, eq⟩
    · rw [eq] at hg
      rcases List.mem_cons.1 hg with rfl | hg
      · refine ⟨List.cons_ne_nil _ _, fun p hp => ?_⟩
        rcases List.mem_cons.1 hp with rfl | hp
        · exact line.symm
        · exact (ih hh).2 p hp
      · exact ih (List.mem_filter.1 hg).1
    · rw [eq] at hg
      rcases List.mem_cons.1 hg with rfl | hg
      · exact ⟨List.cons_ne_nil _ _, fun p hp => by rw [List.mem_singleton.1 hp]⟩
      · exact ih hg

/-- Each lane stands in its line's group. -/
theorem mem_groupLines {os : List LaneOp} {o : LaneOp} (ho : o ∈ os) : ∃ g ∈ groupLines os, g.1 = lineOf o.key ∧ o ∈ g.2 := by
  obtain ⟨g, hg, member⟩ := List.mem_flatMap.1 ((groupLines_perm os).mem_iff.2 ho)
  exact ⟨g, hg, ((groupLines_line hg).2 o member).symm, member⟩

end Sys2Proof.Machine
end

section
/-! SUPPORT. Lanes' atomics performed one after another (R235, R236): the bytes that they leave, the old values that they return,
and what the lines of an atomic word come to. -/

namespace Sys2Proof.Machine

/-! ## One lane -/

/-- The operation is an atomic's; its registers, none where it returns nothing, take no more than its bytes (R235, R236, R239). -/
structure LaneOp.Atomic (o : LaneOp) : Prop where
  kind : (∃ op v returns, o.op = .atom op v returns ∧ (returns = false → o.dst = [])) ∨ ∃ cmp new, o.op = .cas cmp new
  fits : o.dst.length ≤ o.n / 4

/-- The registers that an atomic's result comes to, each with its word of the old value. -/
def LaneOp.answer (o : LaneOp) (m : Nat → Byte) : List (Nat × Word) := o.dst.zip (wordsOf o.n false (numIn m o.key o.n))

theorem length_wordsOf (n : Nat) (sext : Bool) (x : Nat) : n / 4 ≤ (wordsOf n sext x).length := by
  unfold wordsOf
  split
  · rw [Nat.div_eq_of_lt ‹n < 4›]
    exact Nat.zero_le _
  · rw [List.length_map, List.length_range]

theorem LaneOp.Atomic.answer_keys {o : LaneOp} (h : o.Atomic) (m : Nat → Byte) : (o.answer m).map Prod.fst = o.dst :=
  List.map_fst_zip (h.fits.trans (length_wordsOf ..))

/-- What one atomic does: it leaves op(old, v), answers the old value, and sends nothing. -/
structure ActedAtomic (s : State) (o : LaneOp) (r : LaneRes) : Prop where
  bytes : r.s.byteAt = o.after s.byteAt
  vals : r.vals = o.answer s.byteAt
  cur : r.s.cur = s.cur
  reqs : r.s.reqs = s.reqs
  hostOps : r.s.hostOps = s.hostOps
  outs : ∀ k, (r.s.warp k).outs = (s.warp k).outs

theorem State.byteAt_writeFor (s : State) (writer : Option Nat) (key n v : Nat) :
    (s.writeFor writer key n v).byteAt = putIn s.byteAt key n v := s.byteAt_putBytes_natLe key n v

theorem State.outs_writeFor (s : State) (writer : Option Nat) (key n v k : Nat) :
    ((s.writeFor writer key n v).warp k).outs = (s.warp k).outs := by
  rw [State.writeFor, State.warp_fire]
  split
  · rfl
  · rcases Warp.firedOn_cases _ (lineOf key) with same | ⟨m, -, fired⟩
    · rw [same]
      rfl
    · rw [fired]
      rfl

theorem actedAtomic_write (s : State) (writer : Option Nat) (o : LaneOp) (v : Nat) (fl : Flags) (wrote : Bool)
    (after : o.after s.byteAt = putIn s.byteAt o.key o.n v) :
    ActedAtomic s o ⟨s.writeFor writer o.key o.n v, o.answer s.byteAt, fl, wrote⟩ :=
  ⟨after ▸ s.byteAt_writeFor .., rfl, rfl, rfl, rfl, fun _ => s.outs_writeFor ..⟩

theorem laneAct_atomic (s : State) (warp : Nat) {o : LaneOp} (atomic : o.Atomic) :
    ActedAtomic s o (s.laneAct warp none o) := by
  obtain ⟨lane, key, n, op, dst, flags⟩ := o
  rcases atomic.kind with ⟨a, v, returns, rfl, silent⟩ | ⟨cmp, new, rfl⟩
  · have write := actedAtomic_write s (some warp) ⟨lane, key, n, .atom a v returns, dst, flags⟩
      (atomOp a n (s.readMem key n) v).1 (if flags then (atomOp a n (s.readMem key n) v).2 else 0#6) true rfl
    cases returns with
    | true => exact write
    | false =>
      obtain rfl : dst = [] := silent rfl
      exact write
  · by_cases equal : s.readMem key n = cmp
    · have acts : s.laneAct warp none ⟨lane, key, n, .cas cmp new, dst, flags⟩ = ⟨s.writeFor (some warp) key n new, _, _, _⟩ :=
        congrArg (LaneRes.mk · _ _ _) (if_pos equal)
      rw [acts]
      exact actedAtomic_write s _ ⟨lane, key, n, .cas cmp new, dst, flags⟩ _ _ _ (if_pos equal)
    · have acts : s.laneAct warp none ⟨lane, key, n, .cas cmp new, dst, flags⟩ = ⟨s, _, _, _⟩ :=
        congrArg (LaneRes.mk · _ _ _) (if_neg equal)
      have after : (⟨lane, key, n, .cas cmp new, dst, flags⟩ : LaneOp).after s.byteAt = s.byteAt := if_neg equal
      rw [acts]
      exact ⟨after.symm, rfl, rfl, rfl, rfl, fun _ => rfl⟩

/-! ## Results of several lanes -/

/-- The registers of lanes' operations, each once. -/
def Separate (os : List LaneOp) : Prop := (os.flatMap LaneOp.dst).Nodup

theorem Separate.sublist {xs ys : List LaneOp} (h : Separate ys) (sub : xs.Sublist ys) : Separate xs :=
  List.Nodup.sublist (sub.flatMap _) h

theorem Separate.perm {xs ys : List LaneOp} (h : Separate ys) (perm : xs.Perm ys) : Separate xs :=
  (perm.flatMap_right _).nodup_iff.2 h

/-- The results of atomics performed one after another, each from what the ones before it left. -/
def answersOf (m : Nat → Byte) : List LaneOp → List (Nat × Word)
  | [] => []
  | o :: os => o.answer m ++ answersOf (o.after m) os

theorem answersOf_append (m : Nat → Byte) (xs ys : List LaneOp) :
    answersOf m (xs ++ ys) = answersOf m xs ++ answersOf (afterOps xs m) ys := by
  induction xs generalizing m with
  | nil => rfl
  | cons x xs ih => rw [List.cons_append, answersOf, ih, answersOf, List.append_assoc]; rfl

theorem answersOf_keys (m : Nat → Byte) {os : List LaneOp} (atomic : ∀ o ∈ os, o.Atomic) :
    (answersOf m os).map Prod.fst = os.flatMap LaneOp.dst := by
  induction os generalizing m with
  | nil => rfl
  | cons o os ih =>
    rw [answersOf, List.map_append, ih _ fun p hp => atomic p (List.mem_cons_of_mem _ hp),
      (atomic o List.mem_cons_self).answer_keys, List.flatMap_cons]

/-- An outstanding write to which values have come (R55). -/
def Out.taking (x : Out) (vs : List (Nat × Word)) (fl : Flags) : Out :=
  { x with
    flags := x.flags ||| fl
    tgts := x.tgts.map fun t =>
      match vs.find? fun v => v.1 == t.key with
      | some v => { t with val := some v.2 }
      | none => t }

theorem Warp.outs_fill (w : Warp) (id : Nat) (vs : List (Nat × Word)) (fl : Flags) :
    (w.fill id vs fl).outs = w.outs.map fun x => if x.id = id then x.taking vs fl else x := rfl

theorem Out.taking_keys (x : Out) (vs : List (Nat × Word)) (fl : Flags) :
    (x.taking vs fl).tgts.map Tgt.key = x.tgts.map Tgt.key := by
  rw [Out.taking, List.map_map]
  refine List.map_congr_left fun t _ => ?_
  rw [Function.comp_apply]
  split <;> rfl

/-- A value that has come stays, where none comes for its register. -/
theorem Out.mem_taking_old {x : Out} {vs : List (Nat × Word)} {t : Tgt} (ht : t ∈ x.tgts) (other : t.key ∉ vs.map Prod.fst)
    (fl : Flags) : t ∈ (x.taking vs fl).tgts := by
  have absent : vs.find? (fun v => v.1 == t.key) = none := by
    rw [List.find?_eq_none]
    exact fun v hv same => other (eq_of_beq same ▸ List.mem_map_of_mem hv)
  exact List.mem_map.2 ⟨t, ht, by rw [absent]⟩

/-- A value that comes for one of the word's registers stands there. -/
theorem Out.mem_taking_new {x : Out} {vs : List (Nat × Word)} {v : Nat × Word} (once : (vs.map Prod.fst).Nodup) (hv : v ∈ vs)
    (here : v.1 ∈ x.tgts.map Tgt.key) (fl : Flags) : (⟨v.1, some v.2⟩ : Tgt) ∈ (x.taking vs fl).tgts := by
  obtain ⟨t, ht, key⟩ := List.mem_map.1 here
  refine List.mem_map.2 ⟨t, ht, ?_⟩
  split
  case h_1 u found =>
    have same : u.1 = v.1 := (eq_of_beq (List.find?_some (p := fun w : Nat × Word => w.1 == t.key) found)).trans key
    rw [List.inj_on_of_nodup_map once (List.mem_of_find?_eq_some found) hv same, key]
  case h_2 absent => exact absurd (beq_iff_eq.2 key.symm) (List.find?_eq_none.1 absent v hv)

/-- The outstanding write of the word of s: its registers are those of keys, and the values vs have come. -/
structure Awaits (s : State) (acquires : Bool) (keys : List Nat) (vs : List (Nat × Word)) (x : Out) : Prop where
  id : x.id = s.nextId
  counts : x.counts = true
  acquires : x.acquires = acquires
  keys : x.tgts.map Tgt.key = keys
  vals : ∀ v ∈ vs, (⟨v.1, some v.2⟩ : Tgt) ∈ x.tgts

theorem Awaits.taking {s : State} {acquires : Bool} {keys : List Nat} {vs ws : List (Nat × Word)} {x : Out}
    (h : Awaits s acquires keys vs x) (once : ((vs ++ ws).map Prod.fst).Nodup) (sub : ∀ v ∈ ws, v.1 ∈ keys) (fl : Flags) :
    Awaits s acquires keys (vs ++ ws) (x.taking ws fl) := by
  rw [List.map_append, List.nodup_append] at once
  obtain ⟨-, once, apart⟩ := once
  refine ⟨h.id, h.counts, h.acquires, (x.taking_keys ws fl).trans h.keys, fun v hv => ?_⟩
  rcases List.mem_append.1 hv with hv | hv
  · exact Out.mem_taking_old (h.vals v hv) (fun same => apart _ (List.mem_map_of_mem hv) _ same rfl) fl
  · exact Out.mem_taking_new once hv (h.keys ▸ sub v hv) fl

/-! ## The progress of a word -/

/-- A lane's operation waits: in a request, or sent beyond the link. -/
def Waits (s t : State) (o : LaneOp) : Prop :=
  Requested s t o ∨ ∃ h ∈ t.hostOps, h.warp = s.cur ∧ h.own = s.nextId ∧ h.op = o

theorem Waits.mono {s t u : State} {o : LaneOp} (h : Waits s t o) (reqs : t.reqs ⊆ u.reqs) (hostOps : t.hostOps ⊆ u.hostOps) :
    Waits s u o := by
  rcases h with ⟨r, hr, holds⟩ | ⟨x, hx, holds⟩
  · exact .inl ⟨r, reqs hr, holds⟩
  · exact .inr ⟨x, hostOps hx, holds⟩

/-- The word of s has come to t: of its lanes' operations, those of done are performed, one after another, and those of rest
wait. Where it returns values, those of done stand in its outstanding write. -/
structure Underway (s : State) (returns acquires : Bool) (keys : List Nat) (t : State) (done rest : List LaneOp) : Prop where
  cur : t.cur = s.cur
  bytes : t.byteAt = afterOps done s.byteAt
  waiting : ∀ o ∈ rest, Waits s t o
  answers : returns = true → ∃ x ∈ (t.warp s.cur).outs, Awaits s acquires keys (answersOf s.byteAt done) x

section
variable {s t : State} {returns acquires : Bool} {keys : List Nat} {done rest os : List LaneOp}

/-- From t to u no byte and no outstanding write of the word's warp changes, and nothing that waits goes. -/
structure OnlySends (s t u : State) : Prop where
  cur : u.cur = t.cur
  bytes : u.byteAt = t.byteAt
  reqs : t.reqs ⊆ u.reqs
  hostOps : t.hostOps ⊆ u.hostOps
  outs : (u.warp s.cur).outs = (t.warp s.cur).outs

theorem Underway.sending (h : Underway s returns acquires keys t done rest) {u : State} (sends : OnlySends s t u)
    (waits : ∀ o ∈ os, Waits s u o) : Underway s returns acquires keys u done (rest ++ os) := by
  refine ⟨sends.cur.trans h.cur, sends.bytes.trans h.bytes, fun o ho => ?_, fun ret => sends.outs ▸ h.answers ret⟩
  rcases List.mem_append.1 ho with ho | ho
  · exact (h.waiting o ho).mono sends.reqs sends.hostOps
  · exact waits o ho

theorem Underway.resting (h : Underway s returns acquires keys t done rest) {u : State} (sends : OnlySends s t u) :
    Underway s returns acquires keys u done rest := by
  simpa using h.sending sends (os := []) (by simp)

/-- The state after one lane's atomic, with its result and flags put where they belong. -/
def State.laneDone (t : State) (warp own : Nat) (o : LaneOp) : State :=
  let r := t.laneAct warp none o
  r.s.modWarp warp fun w => (w.fill own r.vals r.flags).fillStore own (if w.outs.any fun x => x.id == own then 0#6 else r.flags)

theorem State.actAll_cons (t : State) (warp own : Nat) (o : LaneOp) (os : List LaneOp) :
    (t.actAll warp own none (o :: os)).1 = ((t.laneDone warp own o).actAll warp own none os).1 := rfl

theorem afterOps_append (xs ys : List LaneOp) (m : Nat → Byte) : afterOps (xs ++ ys) m = afterOps ys (afterOps xs m) :=
  List.foldl_append ..

theorem Underway.laneDone (h : Underway s returns acquires keys t done rest) {o : LaneOp} (atomic : ∀ p ∈ done ++ [o], p.Atomic)
    (separate : Separate (done ++ [o])) (sub : o.dst ⊆ keys) :
    Underway s returns acquires keys (t.laneDone s.cur s.nextId o) (done ++ [o]) rest := by
  have acts := laneAct_atomic t s.cur (atomic o (by simp))
  refine ⟨acts.cur.trans h.cur, ?_, fun p hp => ?_, fun ret => ?_⟩
  · rw [afterOps_append, ← h.bytes]
    exact acts.bytes
  · have reqs : (t.laneDone s.cur s.nextId o).reqs = t.reqs := acts.reqs
    have hostOps : (t.laneDone s.cur s.nextId o).hostOps = t.hostOps := acts.hostOps
    exact (h.waiting p hp).mono (reqs ▸ List.Subset.refl _) (hostOps ▸ List.Subset.refl _)
  · obtain ⟨x, hx, awaits⟩ := h.answers ret
    have step : answersOf s.byteAt (done ++ [o]) = answersOf s.byteAt done ++ o.answer t.byteAt := by
      rw [answersOf_append, ← h.bytes, answersOf, answersOf, List.append_nil]
    have once := separate
    rw [Separate, ← answersOf_keys s.byteAt atomic, step] at once
    have keysOf : ∀ v ∈ o.answer t.byteAt, v.1 ∈ keys := fun v hv =>
      sub ((atomic o (by simp)).answer_keys t.byteAt ▸ List.mem_map_of_mem hv)
    rw [step, State.laneDone, State.warp_modWarp_same]
    refine ⟨_, ?_, awaits.taking once keysOf (t.laneAct s.cur none o).flags⟩
    show _ ∈ (Warp.fill _ _ _ _).outs
    rw [Warp.outs_fill, acts.outs, acts.vals]
    exact List.mem_map.2 ⟨x, hx, if_pos awaits.id⟩

theorem Underway.actAll (h : Underway s returns acquires keys t done rest) (atomic : ∀ p ∈ done ++ os, p.Atomic)
    (separate : Separate (done ++ os)) (sub : os.flatMap LaneOp.dst ⊆ keys) :
    Underway s returns acquires keys (t.actAll s.cur s.nextId none os).1 (done ++ os) rest := by
  induction os generalizing t done with
  | nil => rwa [List.append_nil]
  | cons o os ih =>
    have split : done ++ o :: os = (done ++ [o]) ++ os := by simp
    rw [split] at atomic separate ⊢
    rw [List.flatMap_cons, List.append_subset] at sub
    exact ih (h.laneDone (fun p hp => atomic p (List.mem_append_left _ hp)) (separate.sublist (List.sublist_append_left ..)) sub.1)
      atomic separate sub.2

end

end Sys2Proof.Machine
end

section
/-! SUPPORT. The lines of an atomic word (R184, R233): each line's lanes are performed in L1, or sent on their way, so that the word's
are performed one after another or wait. -/

namespace Sys2Proof.Machine

theorem warpKey_keyCore_keySlot (k : Nat) : warpKey (keyCore k) (keySlot k) = k := by
  unfold warpKey keyCore keySlot
  omega

/-! ## Requests that leave the core -/

/-- A request that leaves its core is on its way, and nothing else has changed for the warps. -/
theorem State.push_sends (s t : State) (r : Request) :
    OnlySends s t (t.push r) ∧ (t.push r).reqs = t.reqs ++ [{ r with id := t.nextId }] := by
  unfold State.push
  dsimp only
  split <;> exact ⟨⟨rfl, rfl, List.subset_append_left .., List.Subset.refl _, rfl⟩, rfl⟩

section
variable {s t : State} {returns acquires : Bool} {keys : List Nat} {done rest os : List LaneOp} {r : Request} {line : Nat}

theorem Underway.push (h : Underway s returns acquires keys t done rest) (own : r.own = s.nextId)
    (warp : warpKey r.core r.slot = s.cur) (lines : ∀ o ∈ r.ops, lineOf o.key = r.line) :
    Underway s returns acquires keys (t.push r) done (rest ++ r.ops) := by
  obtain ⟨sends, reqs⟩ := State.push_sends s t r
  exact h.sending sends fun o ho => .inl ⟨{ r with id := t.nextId }, by simp [reqs], own, warp, (lines o ho).symm, ho⟩

/-- A request that leaves its core waits, or its AtomicOps do (R238). -/
theorem Underway.send (h : Underway s returns acquires keys t done rest) (own : r.own = s.nextId)
    (warp : warpKey r.core r.slot = s.cur) (lines : ∀ o ∈ r.ops, lineOf o.key = r.line) :
    Underway s returns acquires keys (t.send r) done (rest ++ r.ops) := by
  unfold State.send
  split
  · refine h.sending ⟨rfl, rfl, List.Subset.refl _, List.subset_append_left .., rfl⟩ fun o ho => .inr ?_
    exact ⟨⟨warpKey r.core r.slot, r.own, o⟩, List.mem_append_right _ (List.mem_map_of_mem ho), warp, own, rfl⟩
  · exact h.push own warp lines

/-- The word has gone on to u with lanes' operations os: each is performed after those of done, or waits. -/
def Advances (s : State) (returns acquires : Bool) (keys : List Nat) (u : State) (done rest os : List LaneOp) : Prop :=
  ∃ d r, (d ++ r).Perm os ∧ Underway s returns acquires keys u (done ++ d) (rest ++ r)

theorem Underway.waits (h : Underway s returns acquires keys t done (rest ++ os)) :
    Advances s returns acquires keys t done rest os := ⟨[], os, .refl _, by rwa [List.append_nil]⟩

/-! ## The lines of the word -/

/-- Of a line that the core owns, the lanes act at once, in a free order; of another one they wait in a request. -/
theorem Underway.storeLine (h : Underway s returns acquires keys t done rest) {v : Via} (own : v.own = s.nextId)
    (lines : ∀ o ∈ os, lineOf o.key = line) (atomic : ∀ p ∈ done ++ os, p.Atomic) (separate : Separate (done ++ os))
    (sub : os.flatMap LaneOp.dst ⊆ keys) : Advances s returns acquires keys (t.storeLine v line os) done rest os := by
  unfold State.storeLine
  dsimp only
  split
  · have order := t.shuffled_perm line os
    have all := order.append_left done
    rw [h.cur, own]
    have acted := h.actAll (os := t.shuffled line os) (fun p hp => atomic p (all.mem_iff.1 hp)) (separate.perm all)
      fun x hx => sub ((order.flatMap_right _).mem_iff.1 hx)
    refine ⟨t.shuffled line os, [], by rwa [List.append_nil], ?_⟩
    rw [List.append_nil]
    split <;> exact acted.resting (by exact ⟨rfl, rfl, List.Subset.refl _, List.Subset.refl _, rfl⟩)
  · refine (h.push ?_ ?_ lines).waits
    · split <;> exact own
    · exact (warpKey_keyCore_keySlot t.cur).trans h.cur

/-- One line of an atomic word: in L1, by the slice ALU, or beyond the link (R233). -/
theorem Underway.atomicLine (h : Underway s returns acquires keys t done rest) {v : Via} (own : v.own = s.nextId)
    (lines : ∀ o ∈ os, lineOf o.key = line) (atomic : ∀ p ∈ done ++ os, p.Atomic) (separate : Separate (done ++ os))
    (sub : os.flatMap LaneOp.dst ⊆ keys) : Advances s returns acquires keys
      (if v.inL1 then t.storeLine v line os else t.send (v.request t line os)) done rest os := by
  split
  · exact h.storeLine own lines atomic separate sub
  · exact (h.send (r := v.request t line os) own ((warpKey_keyCore_keySlot t.cur).trans h.cur) lines).waits

/-- All lines, one after another. -/
theorem Underway.foldl {step : State → Nat × List LaneOp → State} {gs : List (Nat × List LaneOp)}
    (stepped : ∀ g ∈ gs, ∀ t done rest, Underway s returns acquires keys t done rest → (∀ p ∈ done ++ g.2, p.Atomic) →
      Separate (done ++ g.2) → g.2.flatMap LaneOp.dst ⊆ keys → Advances s returns acquires keys (step t g) done rest g.2)
    (h : Underway s returns acquires keys t done rest) (atomic : ∀ p ∈ done ++ gs.flatMap Prod.snd, p.Atomic)
    (separate : Separate (done ++ gs.flatMap Prod.snd)) (sub : (gs.flatMap Prod.snd).flatMap LaneOp.dst ⊆ keys) :
    Advances s returns acquires keys (gs.foldl step t) done rest (gs.flatMap Prod.snd) := by
  induction gs generalizing t done rest with
  | nil => exact ⟨[], [], .refl _, by simpa using h⟩
  | cons g gs ih =>
    rw [List.flatMap_cons, ← List.append_assoc] at atomic separate
    rw [List.flatMap_cons, List.flatMap_append, List.append_subset] at sub
    obtain ⟨d, r, order, first⟩ := stepped g List.mem_cons_self t done rest h
      (fun p hp => atomic p (List.mem_append_left _ hp)) (separate.sublist (List.sublist_append_left ..)) sub.1
    have acted : (done ++ d ++ gs.flatMap Prod.snd).Sublist (done ++ (d ++ r) ++ gs.flatMap Prod.snd) := by
      rw [← List.append_assoc]
      exact (List.sublist_append_left ..).append (List.Sublist.refl _)
    have all := (order.append_left done).append_right (gs.flatMap Prod.snd)
    obtain ⟨d', r', order', last⟩ := ih (fun g hg => stepped g (List.mem_cons_of_mem _ hg)) first
      (fun p hp => atomic p (all.mem_iff.1 (acted.subset hp))) ((separate.perm all).sublist acted) sub.2
    refine ⟨d ++ d', r ++ r', ?_, by simpa using last⟩
    calc (d ++ d') ++ (r ++ r')
      _ = d ++ (d' ++ r) ++ r' := by simp
      List.Perm _ (d ++ (r ++ d') ++ r') := (List.perm_append_comm.append_left d).append_right r'
      _ = (d ++ r) ++ (d' ++ r') := by simp
      List.Perm _ (g.2 ++ gs.flatMap Prod.snd) := order.append order'

end

/-- A line of the word has a place. -/
theorem physOf_line {ps : List (Addr × Phys)} {p : Addr × Phys} (hp : p ∈ ps) : ∃ q, physOf ps (lineOf p.2.key) = some q := by
  have found : (ps.find? fun x => lineOf x.2.key == lineOf p.2.key).isSome = true :=
    List.find?_isSome.2 ⟨p, hp, beq_self_eq_true _⟩
  obtain ⟨x, hx⟩ := Option.isSome_iff_exists.1 found
  exact ⟨x.2, by rw [physOf, hx]; rfl⟩

/-- What an atomic word does with one line, which via says how to reach. -/
def State.atomicLine (via : Phys → Via) (t : State) (line : Nat) (os : List LaneOp) (p : Phys) : State :=
  if (via p).inL1 then t.storeLine (via p) line os else t.send ((via p).request t line os)

/-- The operations of an atomic word, performed or on their way line by line. -/
theorem Underway.eachLine {s t : State} {returns acquires : Bool} {ps : List (Addr × Phys)} {ops : List LaneOp} {via : Phys → Via}
    (h : Underway s returns acquires (ops.flatMap LaneOp.dst) t [] []) (own : ∀ p, (via p).own = s.nextId)
    (places : ∀ o ∈ ops, ∃ p ∈ ps, p.2.key = o.key) (atomic : ∀ o ∈ ops, o.Atomic) (separate : Separate ops) :
    ∃ done rest, (done ++ rest).Perm ops ∧ Underway s returns acquires (ops.flatMap LaneOp.dst)
      (t.eachLine ps ops (State.atomicLine via)) done rest := by
  have perm := groupLines_perm ops
  have stepped : Advances s returns acquires (ops.flatMap LaneOp.dst) (t.eachLine ps ops (State.atomicLine via)) [] []
      ((groupLines ops).flatMap Prod.snd) := by
    refine h.foldl (fun g hg t done rest h atomic separate sub => ?_) (fun p hp => atomic p (perm.mem_iff.1 hp))
      (separate.perm perm) fun x hx => (perm.flatMap_right _).mem_iff.1 hx
    obtain ⟨some, line⟩ := groupLines_line hg
    obtain ⟨o, ho⟩ := List.exists_mem_of_ne_nil _ some
    obtain ⟨p, hp, key⟩ := places o (perm.mem_iff.1 (List.mem_flatMap.2 ⟨g, hg, ho⟩))
    obtain ⟨q, found⟩ := physOf_line hp
    rw [key, line o ho] at found
    simp only [found]
    exact h.atomicLine (own q) line atomic separate sub
  obtain ⟨done, rest, order, last⟩ := stepped
  exact ⟨done, rest, order.trans perm, last⟩

/-- Every lane of a release waits in the request of its line (R208). -/
theorem mem_releaseReqs (t : State) {ps : List (Addr × Phys)} {ops : List LaneOp} (via : Phys → Via) {o : LaneOp} (ho : o ∈ ops)
    {p : Addr × Phys} (hp : p ∈ ps) (key : p.2.key = o.key) :
    ∃ r ∈ t.releaseReqs ps ops via, r.line = lineOf o.key ∧ o ∈ r.ops := by
  obtain ⟨g, hg, line, member⟩ := mem_groupLines ho
  obtain ⟨q, found⟩ := physOf_line hp
  rw [key, ← line] at found
  exact ⟨(via q).request t g.1 g.2, List.mem_filterMap.2 ⟨g, hg, by rw [found]; rfl⟩, line, member⟩

end Sys2Proof.Machine
end

section
/-! SUPPORT. Atomic words (R231 to R241): the lanes' operations of a word and their registers, how the word begins, and what it
leaves. -/

namespace Sys2Proof.Machine

/-! ## The lanes of a word (R174, R180) -/

/-- The places that an access has are its lanes', in their order. -/
theorem lanePlaces_addrs {s : State} {w : Warp} {g : GReg} {as : List Addr} {n align : Nat} {need : BitVec 3}
    {check : Phys → Option Nat} {ps : List (Addr × Phys)} (h : s.lanePlaces w g as n align need check = .ok ps) :
    (ps.map Prod.fst).Sublist as := by
  have lanes : (((as.map fun a => (a, s.reach w g a n need)).filterMap fun r => match r.2 with
      | .ok p => some (r.1, p)
      | .error _ => none).map Prod.fst).Sublist as := by
    clear h
    induction as with
    | nil => exact .slnil
    | cons a as ih =>
      rw [List.map_cons, List.filterMap_cons]
      cases s.reach w g a n need with
      | ok p => exact ih.cons_cons a
      | error c => exact ih.cons a
  unfold State.lanePlaces at h
  split at h
  · cases h
  · dsimp only at h
    split at h
    · cases h
    · split at h <;> cases h
      exact lanes

theorem accessPlaces_addrs {s : State} {k : Ctl} {f : MFields} {uniform : Bool} {align : Nat} {need : BitVec 3}
    {check : Phys → Option Nat} {reads : Nat} {ps : List (Addr × Phys)}
    (h : s.accessPlaces k f uniform align need check reads = .ok ps) :
    (ps.map Prod.fst).Sublist (accessAddrs s s.me k f uniform) := by
  unfold State.accessPlaces at h
  dsimp only at h
  split at h
  · cases h
  · rename_i places
    have lanes := lanePlaces_addrs places
    split at h
    · cases h
      exact lanes
    · split at h <;> cases h
      exact lanes

/-! ## The registers of a word (R231, R232) -/

theorem nodup_of_eq_nil {xs : List Nat} (h : xs = []) : xs.Nodup := h ▸ .nil

theorem maskLanes_nodup (m : Mask) : (maskLanes m).Nodup := List.nodup_range.filter _

theorem sKey_injective (w : Warp) {n m : Nat} (h : w.sKey n = w.sKey m) : n = m := by
  unfold Warp.sKey bankKey sKeyUser at h
  by_cases priv : w.priv = true
  · simp only [priv, true_and] at h
    split at h <;> split at h <;> omega
  · simp only [priv, Bool.false_eq_true, false_and, if_false] at h
    omega

theorem length_dstKeys_le (w : Warp) (d : Operand) (n l : Nat) : (dstKeys w d n l).length ≤ n := by
  cases d <;> simp [dstKeys]

theorem dstKeys_nodup (w : Warp) (d : Operand) (n : Nat) {l : Nat} (hl : l < 32) : (dstKeys w d n l).Nodup := by
  cases d with
  | v r => exact List.nodup_range.map fun i j h => by have := (vKey_inj hl hl h).1; omega
  | s r => exact List.nodup_range.map fun i j h => by have := sKey_injective w h; omega
  | _ => exact .nil

/-- No two lanes of a word have a register in common: an s-register's word has one lane. -/
theorem accessAddrs_keys_nodup (s : State) (k : Ctl) (f : MFields) (regs : Nat) :
    ((accessAddrs s s.me k f (isS f.data)).flatMap fun a => dstKeys s.me f.data regs a.lane).Nodup := by
  cases data : f.data with
  | v r =>
    show (((dstLanes s.me k).map fun l => addrOf s s.me f l).flatMap _).Nodup
    rw [List.flatMap_map, List.nodup_flatMap]
    have lanes : ∀ l ∈ dstLanes s.me k, l < 32 := fun l hl => ((mem_maskLanes _ _).1 hl).1
    refine ⟨fun l hl => dstKeys_nodup _ _ _ (lanes l hl), ?_⟩
    refine (maskLanes_nodup (s.me.eff k)).pairwise_of_forall_ne fun l hl j hj ne key hkey hkey' => ?_
    obtain ⟨i, -, rfl⟩ := List.mem_map.1 hkey
    obtain ⟨i', -, same⟩ := List.mem_map.1 hkey'
    exact ne (vKey_inj (lanes j hj) (lanes l hl) same).2.symm
  | s r =>
    show ((if s.me.acts k then [addrOf s s.me f 0] else []).flatMap _).Nodup
    split
    · rw [List.flatMap_cons, List.flatMap_nil, List.append_nil]
      exact dstKeys_nodup s.me (.s r) regs (l := 0) (by decide)
    · exact .nil
  | _ => exact nodup_of_eq_nil (List.flatMap_eq_nil_iff.2 fun _ _ => rfl)

/-- The operation of one lane of an atomic word. -/
def atomicLane (s : State) (k : Ctl) (f : MFields) (n regs : Nat) (returns : Bool) (op : Nat → MemOp) (p : Addr × Phys) : LaneOp :=
  { lane := p.1.lane, key := p.2.key, n, op := op p.1.lane
    dst := if returns then dstKeys s.me f.data regs p.1.lane else []
    flags := !(returns && isS f.data) || s.me.eff k != 0#32 }

/-- What the lanes of an atomic word do: an atomic that returns a value or does not, as the word does, or a CAS (R235, R236). -/
def AtomicOps (returns : Bool) (op : Nat → MemOp) : Prop :=
  ∀ l, (∃ a v, op l = .atom a v returns) ∨ ∃ cmp new, op l = .cas cmp new

section
variable {s : State} {k : Ctl} {i : Instr} {f : MFields} {n regs : Nat} {returns hostOk l1 : Bool} {op : Nat → MemOp}
  {ps : List (Addr × Phys)}

theorem atomicLane_atomic (ops : AtomicOps returns op) (fits : regs ≤ n / 4) (p : Addr × Phys) :
    (atomicLane s k f n regs returns op p).Atomic := by
  refine ⟨?_, ?_⟩
  · rcases ops p.1.lane with ⟨a, v, atom⟩ | ⟨cmp, new, cas⟩
    · exact .inl ⟨a, v, returns, atom, fun silent => by simp [atomicLane, silent]⟩
    · exact .inr ⟨cmp, new, cas⟩
  · cases returns with
    | true => exact (length_dstKeys_le ..).trans fits
    | false => exact Nat.zero_le _

theorem atomicLanes_separate (lanes : (ps.map Prod.fst).Sublist (accessAddrs s s.me k f (returns && isS f.data))) :
    Separate (ps.map (atomicLane s k f n regs returns op)) := by
  rw [Separate, List.flatMap_map]
  cases returns with
  | true =>
    have keys := (lanes.flatMap fun a => dstKeys s.me f.data regs a.lane)
    rw [List.flatMap_map] at keys
    exact keys.nodup (accessAddrs_keys_nodup s k f regs)
  | false =>
    exact nodup_of_eq_nil (List.flatMap_eq_nil_iff.2 fun _ _ => rfl)

/-! ## The beginning of the word (R238, R241) -/

theorem State.noteTlb_keeps (s : State) (core c : Nat) (va : Dword) :
    (s.noteTlb core c va).warps = s.warps ∧ (s.noteTlb core c va).mem = s.mem := by
  unfold State.noteTlb
  split
  · split <;> exact ⟨rfl, rfl⟩
  · exact ⟨rfl, rfl⟩

theorem State.noteAll_keeps (s : State) (w : Warp) (g : GReg) (as : List Addr) (n : Nat) :
    (s.noteAll w g as n).warps = s.warps ∧ (s.noteAll w g as n).mem = s.mem := by
  unfold State.noteAll
  generalize as.filter _ = as
  generalize keyCore s.cur = core
  induction as generalizing s with
  | nil => exact ⟨rfl, rfl⟩
  | cons a as ih =>
    obtain ⟨warps, mem⟩ := s.noteTlb_keeps core w.ctx a.va
    obtain ⟨warps', mem'⟩ := ih (s.noteTlb core w.ctx a.va)
    exact ⟨warps'.trans warps, mem'.trans mem⟩

/-- The state in which a word's number is taken, and its translations are noted (R177). -/
def State.numbered (s : State) (f : MFields) (n : Nat) (ps : List (Addr × Phys)) : State :=
  (s.noteAll s.me (s.me.greg f.greg.toNat) (ps.map Prod.fst) n).fresh

/-- The outstanding write of a word whose lanes' operations are os. -/
def outOf (s : State) (acquires : Bool) (os : List LaneOp) : Out := { id := s.nextId, tgts := tgtsOf os, acquires }

/-- The warp as an atomic word begins: with the word's outstanding write, if it has one, at the next word, or at the word until
its AtomicOps are back (log 90). -/
def Warp.beginAtomic (w : Warp) (k : Ctl) (i : Instr) (own : Nat) (out : Option Out) (linked : Bool) : Warp :=
  let w := match out with
    | some x => w.addOut x
    | none => w
  if linked then w.linkAt k i own else w.advance k.sw

/-- The state in which an atomic word has begun, and none of its lines is reached yet. -/
def State.beginAtomic (s : State) (k : Ctl) (i : Instr) (f : MFields) (n : Nat) (returns : Bool) (ps : List (Addr × Phys))
    (os : List LaneOp) : State :=
  (s.numbered f n ps).modMe fun w => w.beginAtomic k i s.nextId (if returns then some (outOf s (f.order.getLsbD 0) os) else none)
    (ps.any fun p => linkedPage p.2)

/-- The word's outstanding write is added, and then the warp goes on or waits. -/
theorem beginAtomic_eq (os : List LaneOp) :
    (let u := s.numbered f n ps
     let u := if returns then u.modMe fun w => w.addOut (outOf s (f.order.getLsbD 0) os) else u
     if ps.any (fun p => linkedPage p.2) then u.modMe fun w => w.linkAt k i s.nextId else u.advance k) =
      s.beginAtomic k i f n returns ps os := by
  unfold State.beginAtomic
  cases returns <;> cases ps.any fun p => linkedPage p.2
  · rfl
  · rfl
  · exact State.modMe_modMe _ (fun w => w.addOut (outOf s (f.order.getLsbD 0) os)) fun w => w.advance k.sw
  · exact State.modMe_modMe _ (fun w => w.addOut (outOf s (f.order.getLsbD 0) os)) fun w => w.linkAt k i s.nextId

/-- How an atomic word's release reaches its lines, once it performs (R208, R233). -/
def releaseVia (s : State) (f : MFields) (l1 : Bool) (p : Phys) : Via := atomVia s.nextId f (l1 && decide (f.scope.toNat ≤ 2)) p

theorem atomicWord_release (active : accessAddrs s s.me k f (returns && isS f.data) ≠ [])
    (places : s.accessPlaces k f (returns && isS f.data) n (if returns then needR ||| needW else needW)
      (atomCheck f.scope.toNat n hostOk) n = .ok ps) (release : f.order.getLsbD 1 = true) :
    let os := ps.map (atomicLane s k f n regs returns op)
    let b := s.beginAtomic k i f n returns ps os
    s.atomicWord k i f n regs returns hostOk l1 op = b.modMe fun w => w.addStore
      { id := s.nextId, kind := .release { scope := f.scope.toNat, reqs := b.releaseReqs ps os (releaseVia s f l1) } } := by
  unfold State.atomicWord
  dsimp only
  rw [if_neg active, places]
  simp only [release, if_true, ← beginAtomic_eq]
  rfl

theorem atomicWord_plain (active : accessAddrs s s.me k f (returns && isS f.data) ≠ [])
    (places : s.accessPlaces k f (returns && isS f.data) n (if returns then needR ||| needW else needW)
      (atomCheck f.scope.toNat n hostOk) n = .ok ps) (plain : f.order.getLsbD 1 = false) :
    let os := ps.map (atomicLane s k f n regs returns op)
    let b := s.beginAtomic k i f n returns ps os
    s.atomicWord k i f n regs returns hostOk l1 op =
      (if returns then b else b.modMe fun w => w.addStore { id := s.nextId, kind := .store }).eachLine ps os
        (State.atomicLine (atomVia s.nextId f l1)) := by
  unfold State.atomicWord
  dsimp only
  rw [if_neg active, places]
  simp only [plain, ← beginAtomic_eq]
  rfl

/-! ## What the beginning leaves -/

/-- Where the warp stands once the word has begun. -/
def begunWarp (s : State) (k : Ctl) (i : Instr) (ps : List (Addr × Phys)) : Warp :=
  if ps.any fun p => linkedPage p.2 then
    { s.me with status := .linking s.nextId, running := false, req := some (s.me.captured k i []) }
  else atNext s.me k

variable {os : List LaneOp}

theorem State.numbered_me (s : State) (f : MFields) (n : Nat) (ps : List (Addr × Phys)) : (s.numbered f n ps).me = s.me := by
  obtain ⟨warps, -⟩ := s.noteAll_keeps s.me (s.me.greg f.greg.toNat) (ps.map Prod.fst) n
  have cur := (touched_noteAll s s.me (s.me.greg f.greg.toNat) (ps.map Prod.fst) n).cur
  show State.warp (s.noteAll _ _ _ _) (State.cur (s.noteAll _ _ _ _)) = _
  rw [State.warp, warps, cur, State.me, State.warp]

theorem touched_numbered (s : State) (f : MFields) (n : Nat) (ps : List (Addr × Phys)) : Touched s (s.numbered f n ps) :=
  (touched_noteAll ..).trans (touched_fresh _)

/-- The warp that begins an atomic word keeps all but its place and its outstanding writes. -/
theorem beginAtomic_me : (s.beginAtomic k i f n returns ps os).me = { begunWarp s k i ps with
    outs := (s.beginAtomic k i f n returns ps os).me.outs } := by
  simp only [State.beginAtomic, State.me_modMe, State.numbered_me, begunWarp, Warp.beginAtomic]
  cases returns <;> cases ps.any fun p => linkedPage p.2 <;> rfl

theorem beginAtomic_outs : (s.beginAtomic k i f n true ps os).me.outs = (s.me.addOut (outOf s (f.order.getLsbD 0) os)).outs := by
  simp only [State.beginAtomic, State.me_modMe, State.numbered_me, Warp.beginAtomic]
  cases ps.any fun p => linkedPage p.2 <;> rfl

theorem accessBegan_modMe {s u : State} (touched : Touched s u) {g : Warp → Warp} {w : Warp}
    (h : g u.me = { w with outs := (g u.me).outs, stq := (g u.me).stq, monitor := (g u.me).monitor }) :
    AccessBegan s (u.modMe g) w := by
  refine ⟨?_, by rwa [State.me_modMe], fun x other => ?_, touched.cores, touched.lines⟩
  · have machine := touched.machine
    rw [machine]
    rfl
  · rw [State.modMe, State.setMe, State.warp_setWarp, if_neg (touched.cur ▸ other)]
    exact touched.others x other

theorem AccessBegan.touched {s t u : State} {w : Warp} (h : AccessBegan s t w) (touched : Touched t u) : AccessBegan s u w := by
  have cur : t.cur = s.cur := by rw [h.machine]
  refine ⟨?_, ?_, fun x other => ?_, fun c => ?_, fun n => ?_⟩
  · have := touched.machine; rw [h.machine] at this; rw [this]
  · have := touched.warp; rw [h.warp] at this; rw [this]
  · have := touched.others x (cur ▸ other); rw [h.others x other] at this; rw [this]
  · have := touched.cores c; rw [h.cores c] at this; rw [this]
  · have := touched.lines n; rw [h.lines n] at this; rw [this]

theorem touched_addStore (s : State) (e : StEnt) : Touched s (s.modMe fun w => w.addStore e) :=
  touched_work s (fun w => w.addStore e) fun _ => rfl

theorem touched_atomicLine (via : Phys → Via) (s : State) (line : Nat) (os : List LaneOp) (p : Phys) :
    Touched s (s.atomicLine via line os p) := by
  unfold State.atomicLine
  split
  · exact touched_storeLine ..
  · exact touched_send ..

theorem beginAtomic_began : AccessBegan s (s.beginAtomic k i f n returns ps os) (begunWarp s k i ps) := by
  refine accessBegan_modMe (touched_numbered s f n ps) ?_
  have me := beginAtomic_me (s := s) (k := k) (i := i) (f := f) (n := n) (returns := returns) (ps := ps) (os := os)
  rw [State.beginAtomic, State.me_modMe] at me
  rw [me]

theorem beginAtomic_byteAt : (s.beginAtomic k i f n returns ps os).byteAt = s.byteAt := by
  obtain ⟨-, mem⟩ := s.noteAll_keeps s.me (s.me.greg f.greg.toNat) (ps.map Prod.fst) n
  funext a
  show tget blankByte (State.mem (s.noteAll _ _ _ _)) a = _
  rw [mem]
  rfl

theorem beginAtomic_stq : (s.beginAtomic k i f n returns ps os).me.stq = s.me.stq := by
  rw [beginAtomic_me]
  unfold begunWarp
  split <;> rfl

/-- The outstanding write of a word that returns values. -/
theorem beginAtomic_awaits : ∃ x ∈ (s.beginAtomic k i f n true ps os).me.outs,
    Awaits s (f.order.getLsbD 0) (os.flatMap LaneOp.dst) [] x := by
  rw [beginAtomic_outs]
  refine ⟨outOf s (f.order.getLsbD 0) os, List.mem_append_right _ (List.mem_singleton.2 rfl), rfl, rfl, rfl, ?_,
    fun v hv => absurd hv List.not_mem_nil⟩
  simp [outOf, tgtsOf, List.map_flatMap, Function.comp_def]

theorem beginAtomic_underway : Underway s returns (f.order.getLsbD 0) (os.flatMap LaneOp.dst)
    (if returns then s.beginAtomic k i f n returns ps os
      else (s.beginAtomic k i f n returns ps os).modMe fun w => w.addStore { id := s.nextId, kind := .store }) [] [] := by
  have began := beginAtomic_began (s := s) (k := k) (i := i) (f := f) (n := n) (returns := returns) (ps := ps) (os := os)
  have cur : (s.beginAtomic k i f n returns ps os).cur = s.cur := by rw [began.machine]
  have bytes : (s.beginAtomic k i f n returns ps os).byteAt = s.byteAt := beginAtomic_byteAt
  cases returns with
  | true =>
    refine ⟨cur, bytes, fun o ho => absurd ho List.not_mem_nil, fun _ => ?_⟩
    have awaits := beginAtomic_awaits (s := s) (k := k) (i := i) (f := f) (n := n) (ps := ps) (os := os)
    rwa [State.me, cur] at awaits
  | false => exact ⟨cur, bytes, fun o ho => absurd ho List.not_mem_nil, nofun⟩

end

/-! ## From a word's progress to what the rules say -/

section
variable {s t : State} {returns acquires : Bool} {keys : List Nat} {done rest os : List LaneOp}

theorem Underway.outstanding (h : Underway s true acquires keys t done rest) : Outstanding s t keys acquires := by
  obtain ⟨x, hx, awaits⟩ := h.answers rfl
  exact ⟨x, by rwa [State.me, h.cur], awaits.id, awaits.counts, awaits.acquires, awaits.keys⟩

/-- An atomic of the word that was performed has its old value in the word's outstanding write. -/
theorem Underway.answered (h : Underway s true acquires keys t done rest) {before later : List LaneOp} {o : LaneOp}
    (order : done = before ++ o :: later) (fits : o.dst.length ≤ o.n / 4) :
    Answered s t o (wordsOf o.n false (numIn (afterOps before s.byteAt) o.key o.n)) := by
  obtain ⟨x, hx, awaits⟩ := h.answers rfl
  refine ⟨x, by rwa [State.me, h.cur], awaits.id, fun i key hkey => ?_⟩
  have bound : i < (wordsOf o.n false (numIn (afterOps before s.byteAt) o.key o.n)).length :=
    (List.getElem?_eq_some_iff.1 hkey).1.trans_le (fits.trans (length_wordsOf ..))
  have word := List.getElem?_eq_getElem bound
  have member : (key, (wordsOf o.n false (numIn (afterOps before s.byteAt) o.key o.n))[i]) ∈ answersOf s.byteAt done := by
    rw [order, answersOf_append, answersOf]
    refine List.mem_append_right _ (List.mem_append_left _ (List.mem_of_getElem? (i := i) ?_))
    exact List.getElem?_zip_eq_some.2 ⟨hkey, word⟩
  rw [word]
  exact awaits.vals _ member

theorem Underway.performed (h : Underway s returns acquires keys t done rest) (order : (done ++ rest).Perm os)
    (atomic : ∀ o ∈ os, o.Atomic) (silent : returns = false → ∀ o ∈ os, o.dst = []) : Performed s t true os := by
  refine ⟨done, rest, order, fun o ho => ?_, fun a => by rw [h.bytes], fun before o later split some => ?_⟩
  · exact (h.waiting o ho).imp_right fun sent => ⟨rfl, sent⟩
  · have member : o ∈ os := order.subset (List.mem_append_left _ (by simp [split]))
    cases returns with
    | true => exact h.answered split (atomic o member).fits
    | false => exact absurd (silent rfl o member) some

end

/-- A lane's operation leaves the bytes outside its own. -/
theorem LaneOp.after_outside (o : LaneOp) (m : Nat → Byte) {a : Nat} (outside : a < o.key ∨ o.key + o.n ≤ a) : o.after m a = m a := by
  have put (v : Nat) : putIn m o.key o.n v a = m a := if_neg (by omega)
  rw [LaneOp.after]
  cases o.op with
  | store v => exact put v
  | atom op v returns => exact put _
  | cas cmp new =>
    dsimp only
    split
    · exact put new
    · rfl
  | _ => rfl

theorem afterOps_outside {os : List LaneOp} {a : Nat} (outside : ∀ o ∈ os, a < o.key ∨ o.key + o.n ≤ a) (m : Nat → Byte) :
    afterOps os m a = m a := by
  induction os generalizing m with
  | nil => rfl
  | cons o os ih =>
    rw [List.forall_mem_cons] at outside
    exact (ih outside.2 _).trans (o.after_outside m outside.1)

/-- Performing a word's operations changes no byte but theirs. -/
theorem Performed.memoryOutside {s t : State} {beyond : Bool} {ps : List (Addr × Phys)} {n : Nat} {lane : Addr × Phys → LaneOp}
    (h : Performed s t beyond (ps.map lane)) (places : ∀ p, (lane p).key = p.2.key ∧ (lane p).n = n) : MemoryOutside s t ps n := by
  obtain ⟨done, rest, order, -, bytes, -⟩ := h
  intro a outside
  rw [bytes]
  refine afterOps_outside (fun o ho => ?_) _
  obtain ⟨p, hp, rfl⟩ := List.mem_map.1 (order.subset (List.mem_append_left _ ho))
  rw [(places p).1, (places p).2]
  exact outside p hp

/-- A word of one lane: its operation waits, and no byte changes, or it is performed. -/
theorem Performed.single {s t : State} {o : LaneOp} (h : Performed s t true [o]) :
    (SameMemory s t ∧ Waits s t o) ∨ ((∀ a, t.byteAt a = o.after s.byteAt a) ∧
      (o.dst ≠ [] → Answered s t o (wordsOf o.n false (numIn s.byteAt o.key o.n)))) := by
  obtain ⟨done, rest, order, waits, bytes, answers⟩ := h
  have one := List.perm_singleton.1 order
  rcases List.append_eq_singleton_iff.1 one with ⟨rfl, rfl⟩ | ⟨rfl, rfl⟩
  · exact .inl ⟨bytes, (waits o (List.mem_singleton.2 rfl)).imp_right fun sent => sent.2⟩
  · exact .inr ⟨bytes, answers [] o [] rfl⟩

end Sys2Proof.Machine
end

section
/-! SUPPORT. The op table of R235, and what the rules say of an atomic word that issues (R231 to R241). -/

namespace Sys2Proof.Machine

/-! ## The ops (R235, R236) -/

/-- A signed minimum or maximum compares the numbers' bits as two's complement. -/
theorem asInt_eq_toInt {w x : Nat} (h : x < 2 ^ w) : asInt true w x = (BitVec.ofNat w x).toInt := by
  rw [← asInt_signed, BitVec.toNat_ofNat, Nat.mod_eq_of_lt h]

/-- The op of an atomic is that of the table: integers, bits, an exchange, or FP32 and FP64 rounded to nearest (R235). -/
theorem atomOp_table {n old v : Nat} (hold : old < 2 ^ (8 * n)) (hv : v < 2 ^ (8 * n)) :
    let w := 8 * n
    let fm := if n = 8 then fp64 else fp32
    let x := fm.decode old
    let y := fm.decode v
    let pick (max : Bool) : Nat × Flags := ((roundTo fm (lesserOf max x y) 0 false 0).1, flagIf (x.isSnan || y.isSnan) fIV)
    atomOp 0 n old v = ((old + v) % 2 ^ w, 0#6) ∧
    atomOp 1 n old v = (if (BitVec.ofNat w old).toInt ≤ (BitVec.ofNat w v).toInt then old else v, 0#6) ∧
    atomOp 2 n old v = (if (BitVec.ofNat w v).toInt ≤ (BitVec.ofNat w old).toInt then old else v, 0#6) ∧
    atomOp 3 n old v = (if old ≤ v then old else v, 0#6) ∧ atomOp 4 n old v = (if v ≤ old then old else v, 0#6) ∧
    atomOp 5 n old v = ((BitVec.ofNat w old &&& BitVec.ofNat w v).toNat, 0#6) ∧
    atomOp 6 n old v = ((BitVec.ofNat w old ||| BitVec.ofNat w v).toNat, 0#6) ∧
    atomOp 7 n old v = ((BitVec.ofNat w old ^^^ BitVec.ofNat w v).toNat, 0#6) ∧ atomOp 8 n old v = (v, 0#6) ∧
    atomOp 9 n old v = ((roundOne { mode := 0, sat := false, dnf := false } fm (addNum false x y) 0#32).1,
      (roundOne { mode := 0, sat := false, dnf := false } fm (addNum false x y) 0#32).2.1) ∧
    atomOp 10 n old v = pick false ∧ atomOp 11 n old v = pick true := by
  have bits : (BitVec.ofNat (8 * n) old).toNat = old ∧ (BitVec.ofNat (8 * n) v).toNat = v :=
    ⟨Nat.mod_eq_of_lt hold, Nat.mod_eq_of_lt hv⟩
  have picks (max : Bool) (f : FpFmt) : pickElem f false max old v =
      ((roundTo f (lesserOf max (f.decode old) (f.decode v)) 0 false 0).1,
        flagIf ((f.decode old).isSnan || (f.decode v).isSnan) fIV) := by
    rw [pickElem_eq, FpFmt.decodeSrc_false, FpFmt.decodeSrc_false]
  refine ⟨rfl, ?_, ?_, ?_, ?_, ?_, ?_, ?_, rfl, rfl, picks false _, picks true _⟩
  · rw [← asInt_eq_toInt hold, ← asInt_eq_toInt hv]; rfl
  · rw [← asInt_eq_toInt hold, ← asInt_eq_toInt hv]; rfl
  · exact congrArg (·, 0#6) Nat.min_def
  · exact congrArg (·, 0#6) ((Nat.max_comm ..).trans Nat.max_def)
  · rw [BitVec.toNat_and, bits.1, bits.2]; rfl
  · rw [BitVec.toNat_or, bits.1, bits.2]; rfl
  · rw [BitVec.toNat_xor, bits.1, bits.2]; rfl

/-- The value that a lane's operation leaves is new of the old one. -/
def Leaves (op : Nat → MemOp) (n : Nat) (new : Nat → Nat → Nat) : Prop :=
  ∀ (o : LaneOp) (l : Nat), o.op = op l → o.n = n → ∀ m : Nat → Byte,
    numIn (o.after m) o.key n = new l (numIn m o.key n) % 2 ^ (8 * n)

theorem leaves_atom (n : Nat) (a : Nat) (v : Nat → Nat) (returns : Bool) :
    Leaves (fun l => .atom a (v l) returns) n fun l old => (atomOp a n old (v l)).1 := by
  rintro o l op rfl m
  rw [LaneOp.after, op]
  exact numIn_putIn ..

/-- A CAS compares and exchanges the numbers that its registers name (R236). -/
theorem casOp_eq (s : State) (d : Operand) (n l : Nat) : ∃ cmp new, casOp s d n l = .cas cmp new := ⟨_, _, rfl⟩

theorem leaves_cas (s : State) (d : Operand) (n : Nat) :
    Leaves (fun l => casOp s d n l) n fun l old => match casOp s d n l with
      | .cas cmp x => if old = cmp then x else old
      | _ => old := by
  rintro o l op rfl m
  obtain ⟨cmp, new, cas⟩ := casOp_eq s d o.n l
  simp only [LaneOp.after, op, cas]
  split
  · exact numIn_putIn ..
  · exact (Nat.mod_eq_of_lt (numIn_lt ..)).symm

/-! ## The words -/

/-- What the rules say of an atomic word i: it asks for its lanes' operations on n bytes and, where it returns values, takes
them in regs registers of each lane. -/
def AtomicRules (s : State) (k : Ctl) (f : MFields) (i : Instr) (n regs : Nat) (returns hostOk : Bool) (op : Nat → MemOp)
    (new : Nat → Nat → Nat) : Prop :=
  let uniform := returns && isS f.data
  let lane := atomicLane s k f n regs returns op
  (accessAddrs s s.me k f uniform = [] → f.order.getLsbD 1 = false → ∃ t, exec i s = .next t ∧ NoEffect s t k) ∧
  (accessAddrs s s.me k f uniform = [] → f.order.getLsbD 1 = true → ∃ t, exec i s = .next t ∧ Accessed s t k ∧
    SameMemory s t ∧ t.me.outs = s.me.outs ∧
    t.me.stq = s.me.stq ++ [{ id := s.nextId, kind := .fence f.scope.toNat f.order.toNat }]) ∧
  (∀ ps, accessAddrs s s.me k f uniform ≠ [] →
    s.accessPlaces k f uniform n (if returns then needR ||| needW else needW) (atomCheck f.scope.toNat n hostOk) n = .ok ps →
    ∃ t, exec i s = .next t ∧ MemoryOutside s t ps n ∧
      ((∀ p ∈ ps, linkedPage p.2 = false) → Accessed s t k) ∧ ((∃ p ∈ ps, linkedPage p.2 = true) → Linking s t k i) ∧
      (returns = true → Outstanding s t (ps.flatMap fun p => (lane p).dst) (f.order.getLsbD 0)) ∧
      (f.order.getLsbD 1 = true → SameMemory s t ∧ ∃ x, t.me.stq = s.me.stq ++ [{ id := s.nextId, kind := .release x }] ∧
        x.scope = f.scope.toNat ∧ ∀ p ∈ ps, ∃ r ∈ x.reqs, r.line = lineOf p.2.key ∧ lane p ∈ r.ops) ∧
      (f.order.getLsbD 1 = false → Performed s t true (ps.map lane)) ∧
      (f.order.getLsbD 1 = false → ∀ p, ps = [p] →
        (SameMemory s t ∧ (Requested s t (lane p) ∨ ∃ h ∈ t.hostOps, h.warp = s.cur ∧ h.own = s.nextId ∧ h.op = lane p)) ∨
        (t.readMem p.2.key n = new p.1.lane (s.readMem p.2.key n) % 2 ^ (8 * n) ∧
          (returns = true → Answered s t (lane p) (wordsOf n false (s.readMem p.2.key n))))))

section
variable {s t : State} {k : Ctl} {i : Instr} {f : MFields} {n regs : Nat} {returns hostOk l1 : Bool} {op : Nat → MemOp}
  {new : Nat → Nat → Nat} {ps : List (Addr × Phys)}

/-- An atomic without a lane does nothing, and with a release it is a fence (R218). -/
theorem atomicWord_idle (idle : accessAddrs s s.me k f (returns && isS f.data) = []) :
    s.atomicWord k i f n regs returns hostOk l1 op =
      if f.order.getLsbD 1 then s.emptyRelease k f.scope.toNat f.order.toNat else s.finish k [] 0#6 := if_pos idle

theorem emptyRelease_accessed (s : State) (k : Ctl) (scope order : Nat) :
    let t := s.emptyRelease k scope order
    Accessed s t k ∧ SameMemory s t ∧ t.me.outs = s.me.outs ∧
      t.me.stq = s.me.stq ++ [{ id := s.nextId, kind := .fence scope order }] := by
  have begun := accessBegan_modMe (u := (s.modMe fun w => w.addStore { id := s.nextId, kind := .fence scope order }).fresh)
    (g := fun w => w.advance k.sw) (w := atNext s.me k) ((touched_addStore ..).trans (touched_fresh _))
    (by rw [State.me_fresh, State.me_modMe]; rfl)
  refine ⟨begun, fun _ => rfl, ?_, ?_⟩ <;>
  · rw [State.emptyRelease, State.advance, State.me_modMe, State.me_fresh, State.me_modMe]
    rfl

/-- The warp's place once the word has begun: at the next word, or at the word with its AtomicOps under way. -/
theorem AccessBegan.place (h : AccessBegan s t (begunWarp s k i ps)) :
    ((∀ p ∈ ps, linkedPage p.2 = false) → Accessed s t k) ∧ ((∃ p ∈ ps, linkedPage p.2 = true) → Linking s t k i) := by
  unfold begunWarp at h
  refine ⟨fun plain => ?_, fun linked => ?_⟩
  · rwa [if_neg (by simpa using plain)] at h
  · rwa [if_pos (by simpa using linked)] at h

/-- What an atomic word with lanes leaves. -/
structure AtomicBegan (s t : State) (k : Ctl) (i : Instr) (f : MFields) (n : Nat) (returns : Bool) (ps : List (Addr × Phys))
    (lane : Addr × Phys → LaneOp) : Prop where
  outside : MemoryOutside s t ps n
  began : AccessBegan s t (begunWarp s k i ps)
  outstanding : returns = true → Outstanding s t ((ps.map lane).flatMap LaneOp.dst) (f.order.getLsbD 0)
  release : f.order.getLsbD 1 = true → SameMemory s t ∧
    ∃ x, t.me.stq = s.me.stq ++ [{ id := s.nextId, kind := .release x }] ∧ x.scope = f.scope.toNat ∧
      ∀ p ∈ ps, ∃ r ∈ x.reqs, r.line = lineOf p.2.key ∧ lane p ∈ r.ops
  performed : f.order.getLsbD 1 = false → Performed s t true (ps.map lane)

theorem atomicWord_began_release (active : accessAddrs s s.me k f (returns && isS f.data) ≠ [])
    (places : s.accessPlaces k f (returns && isS f.data) n (if returns then needR ||| needW else needW)
      (atomCheck f.scope.toNat n hostOk) n = .ok ps) (release : f.order.getLsbD 1 = true) :
    AtomicBegan s (s.atomicWord k i f n regs returns hostOk l1 op) k i f n returns ps (atomicLane s k f n regs returns op) := by
  rw [atomicWord_release active places release]
  set os := ps.map (atomicLane s k f n regs returns op)
  have same : SameMemory s (s.beginAtomic k i f n returns ps os) := fun a => congrFun beginAtomic_byteAt a
  refine ⟨fun a _ => same a, beginAtomic_began.touched (touched_addStore ..), fun ret => ?_, fun _ => ⟨same, ?_⟩, fun plain => ?_⟩
  · subst ret
    have begun : Underway s true _ _ (s.beginAtomic k i f n true ps os) [] [] := beginAtomic_underway
    obtain ⟨x, hx, out⟩ := begun.outstanding
    exact ⟨x, by rwa [State.me_modMe], out⟩
  · refine ⟨{ scope := f.scope.toNat, reqs := (s.beginAtomic k i f n returns ps os).releaseReqs ps os (releaseVia s f l1) }, ?_,
      rfl, fun p hp => mem_releaseReqs _ _ (List.mem_map_of_mem hp) hp rfl⟩
    rw [State.me_modMe]
    exact congrArg (· ++ _) beginAtomic_stq
  · rw [plain] at release
    cases release

theorem atomicWord_began_plain (ops : AtomicOps returns op) (fits : regs ≤ n / 4)
    (active : accessAddrs s s.me k f (returns && isS f.data) ≠ [])
    (places : s.accessPlaces k f (returns && isS f.data) n (if returns then needR ||| needW else needW)
      (atomCheck f.scope.toNat n hostOk) n = .ok ps) (plain : f.order.getLsbD 1 = false) :
    AtomicBegan s (s.atomicWord k i f n regs returns hostOk l1 op) k i f n returns ps (atomicLane s k f n regs returns op) := by
  rw [atomicWord_plain active places plain]
  set os := ps.map (atomicLane s k f n regs returns op)
  have atomic : ∀ o ∈ os, o.Atomic := fun o ho => by
    obtain ⟨p, -, rfl⟩ := List.mem_map.1 ho
    exact atomicLane_atomic ops fits p
  have keys : ∀ o ∈ os, ∃ p ∈ ps, p.2.key = o.key := fun o ho => by
    obtain ⟨p, hp, rfl⟩ := List.mem_map.1 ho
    exact ⟨p, hp, rfl⟩
  have began := beginAtomic_began (s := s) (k := k) (i := i) (f := f) (n := n) (returns := returns) (ps := ps) (os := os)
  obtain ⟨done, rest, order, last⟩ :=
    (beginAtomic_underway (returns := returns) (k := k) (i := i) (f := f) (n := n) (ps := ps)).eachLine
      (via := atomVia s.nextId f l1) (fun _ => rfl) keys atomic (atomicLanes_separate (accessPlaces_addrs places))
  have performed := last.performed order atomic fun silent o ho => by
    obtain ⟨p, -, rfl⟩ := List.mem_map.1 ho
    simp [atomicLane, silent]
  refine ⟨performed.memoryOutside fun _ => ⟨rfl, rfl⟩, ?_, fun ret => ?_, fun release => ?_, fun _ => performed⟩
  · refine AccessBegan.touched ?_ (touched_eachLine _ _ _ _ (touched_atomicLine _))
    split
    · exact began
    · exact began.touched (touched_addStore ..)
  · subst ret
    exact last.outstanding
  · rw [plain] at release
    cases release

/-- A word of one lane that is performed leaves new of the old value, and answers the old value. -/
theorem AtomicBegan.single {p : Addr × Phys}
    (h : AtomicBegan s t k i f n returns [p] (atomicLane s k f n regs returns op)) (leaves : Leaves op n new)
    (plain : f.order.getLsbD 1 = false) :
    (SameMemory s t ∧ Waits s t (atomicLane s k f n regs returns op p)) ∨
      (t.readMem p.2.key n = new p.1.lane (s.readMem p.2.key n) % 2 ^ (8 * n) ∧
        (returns = true → Answered s t (atomicLane s k f n regs returns op p) (wordsOf n false (s.readMem p.2.key n)))) := by
  refine (h.performed plain).single.imp_right fun ⟨bytes, answers⟩ => ⟨?_, fun ret => ?_⟩
  · have whole : t.byteAt = (atomicLane s k f n regs returns op p).after s.byteAt := funext bytes
    show numIn t.byteAt p.2.key n = _
    rw [whole]
    exact leaves _ _ rfl rfl _
  · by_cases none : (atomicLane s k f n regs returns op p).dst = []
    · obtain ⟨x, hx, id, -⟩ := h.outstanding ret
      exact ⟨x, hx, id, fun i key hkey => by rw [none] at hkey; cases hkey⟩
    · exact answers none

/-- An atomic word that runs as `State.atomicWord` says keeps the rules. -/
theorem atomicRules_of_run (run : exec i s = .next (s.atomicWord k i f n regs returns hostOk l1 op)) (ops : AtomicOps returns op)
    (fits : regs ≤ n / 4) (leaves : Leaves op n new) : AtomicRules s k f i n regs returns hostOk op new := by
  refine ⟨fun idle plain => ⟨_, run, ?_⟩, fun idle release => ⟨_, run, ?_⟩, fun ps active places => ⟨_, run, ?_⟩⟩
  · rw [atomicWord_idle idle, plain]
    exact finish_noEffect s k
  · rw [atomicWord_idle idle, if_pos release]
    exact emptyRelease_accessed ..
  · have h : AtomicBegan s (s.atomicWord k i f n regs returns hostOk l1 op) k i f n returns ps
        (atomicLane s k f n regs returns op) := by
      cases order : f.order.getLsbD 1 with
      | true => exact atomicWord_began_release active places order
      | false => exact atomicWord_began_plain ops fits active places order
    refine ⟨h.outside, h.began.place.1, h.began.place.2, fun ret => ?_, h.release, h.performed, fun plain p one => ?_⟩
    · have out := h.outstanding ret
      rwa [List.flatMap_map] at out
    · subst one
      exact h.single leaves plain

/-! ## The four words -/

theorem exec_atom (issues : Issues s k (.atom k f)) : exec (.atom k f) s = .next (s.atomicWord k (.atom k f) f (2 ^ f.size.toNat)
    (2 ^ f.size.toNat / 4) true (f.minor == 0#4 || f.minor == 8#4) true
    fun l => .atom f.minor.toNat (storeValue s s.me f.data (2 ^ f.size.toNat) l) true) := by
  rw [exec, execAtom, issue_next issues]

theorem exec_red (issues : Issues s k (.red k f)) : exec (.red k f) s = .next (s.atomicWord k (.red k f) f (2 ^ f.size.toNat) 0 false
    (f.minor == 0#4) false fun l => .atom f.minor.toNat (storeValue s s.me f.data (2 ^ f.size.toNat) l) false) := by
  rw [exec, execRed, issue_next issues]

theorem exec_cas (issues : Issues s k (.cas k f)) : exec (.cas k f) s = .next (s.atomicWord k (.cas k f) f (2 ^ f.size.toNat)
    (2 ^ f.size.toNat / 4) true true true fun l => casOp s f.data (2 ^ f.size.toNat) l) := by
  rw [exec, execCas, issue_next issues]

theorem exec_cas128 (issues : Issues s k (.cas128 k f)) :
    exec (.cas128 k f) s = .next (s.atomicWord k (.cas128 k f) f 16 4 true true true fun l => casOp s f.data 16 l) := by
  rw [exec, execCas128, issue_next issues]

end

end Sys2Proof.Machine
end

section
/-! PROOFS. The statements about atomics (R231 to R241) and team barriers (R248 to R250). -/

namespace Sys2Proof.Claims

open Sys2Proof.Machine

/-- Settles O34: the ops are those of R235 (`atomOp_table`), and each of the four words is an atomic word of its own operation,
of which the rules hold (`atomicRules_of_run`). -/
theorem atomics : Obligations.Atomics := by
  refine ⟨fun n old v _ hold hv => atomOp_table hold hv, fun s k f => ⟨fun issues => ?_, fun issues => ?_, fun issues => ?_,
    fun issues => ?_⟩⟩
  · exact atomicRules_of_run (exec_atom issues) (fun _ => .inl ⟨_, _, rfl⟩) le_rfl (leaves_atom _ _ _ _)
  · exact atomicRules_of_run (exec_red issues) (fun _ => .inl ⟨_, _, rfl⟩) (Nat.zero_le _) (leaves_atom _ _ _ _)
  · exact atomicRules_of_run (exec_cas issues) (fun l => .inr (casOp_eq s f.data _ l)) le_rfl (leaves_cas s f.data _)
  · -- Named before it is used: matching it with the statement would otherwise evaluate the 128-bit numbers.
    have rules : AtomicRules s k f (.cas128 k f) 16 4 true true (fun l => casOp s f.data 16 l) _ :=
      atomicRules_of_run (exec_cas128 issues) (fun l => .inr (casOp_eq s f.data 16 l)) (by decide) (leaves_cas s f.data 16)
    exact rules

/-- Settles O38: an arrival that nothing holds back is made (`arriveBar_done`), and what BAR does next hangs on whether the
number of the generation has changed (`Arrived.gen`). -/
theorem teamBarriers : Obligations.TeamBarriers := by
  intro s k f
  let c := rdU s s.me f.a
  refine ⟨fun issues ⟨acts, ready⟩ => ?_, fun issues ⟨acts, ready⟩ => ?_, fun issues => ?_, fun i word issues acts legal again => ?_,
    fun i word issues idle => ?_⟩
  · obtain ⟨legal, first, stores, loads, drains⟩ := ready
    obtain ⟨u, done, arrived⟩ := arriveBar_done (c := c) ⟨legal, first, stores, loads, drains⟩
    by_cases full : s.Completes f.func.toNat c
    · exact ⟨_, exec_bar_completing issues acts done (arrived.gen.1 full), u, arrived, fun _ => finish_noEffect u k,
        fun more => absurd full more⟩
    · exact ⟨_, exec_bar_joining issues acts done (arrived.gen.2 full), u, arrived, fun h => absurd h full,
        fun _ => sleep_sleeps u k _⟩
  · obtain ⟨legal, first, stores, loads, drains⟩ := ready
    obtain ⟨u, done, arrived⟩ := arriveBar_done (c := c) ⟨legal, first, stores, loads, drains⟩
    exact ⟨_, exec_bara issues acts done, u, arrived, value32_wrote_plain u k f.d _⟩
  · by_cases waits : s.me.acts k = true ∧ (s.myBar f.func.toNat).gen = c
    · exact ⟨_, exec_barw_waiting issues waits.1 waits.2, (if_pos waits).mpr (sleep_sleeps s k _)⟩
    · exact ⟨_, exec_barw_passing issues waits, (if_neg waits).mpr (finish_noEffect s k)⟩
  · exact exec_arrival_again word issues acts (arriveBar_again legal again)
  · exact ⟨_, exec_arrival_idle word issues idle, finish_noEffect s k⟩

end Sys2Proof.Claims
end


section
/-! SUPPORT. Folds (R257 to R263): a fold after a change of it, what an expectation does by the fold's state, and the words FALLOC,
FFREE, FSTATE, BXPECT and RXPECT. -/

namespace Sys2Proof.Machine

/-! ## Changes of a fold -/

section
variable (s : State) (tk n : Nat) (g : Fold → Fold)

theorem State.team_modFold (y : Nat) : (s.modFold tk n g).team y =
    if y = tk then { s.team tk with folds := tmod {} (s.team tk).folds n g } else s.team y := State.team_modTeam ..

theorem State.fold_modFold (y m : Nat) : (s.modFold tk n g).fold y m =
    if y = tk ∧ m = n then g (s.fold tk n) else s.fold y m := by
  unfold State.fold Team.fold
  rw [State.team_modFold]
  by_cases team : y = tk
  · simp [team, tget_tmod]
  · simp [team]

@[simp] theorem State.fold_modFold_same : (s.modFold tk n g).fold tk n = g (s.fold tk n) := by
  rw [State.fold_modFold, if_pos ⟨rfl, rfl⟩]

theorem foldOnly_refl : FoldOnly s s tk n := ⟨rfl, fun _ _ => rfl, rfl, fun _ _ => rfl⟩

theorem foldOnly_modFold : FoldOnly s (s.modFold tk n g) tk n := by
  refine ⟨rfl, fun y other => ?_, ?_, fun m other => ?_⟩
  · rw [State.team_modFold, if_neg other]
  · rw [State.team_modFold, if_pos rfl]
  · rw [State.fold_modFold, if_neg fun h => other h.2]

end

/-! ## What a fold's state says -/

/-- The fold is full or draining (R258). -/
def Fold.There (x : Fold) : Prop := x.state = 2#2 ∨ x.state = 3#2

theorem Fold.met_iff (x : Fold) : x.met = true ↔ x.state = 2#2 ∨ x.state = 3#2 ∨ x.err ≠ 0#3 := by
  simp [Fold.met, or_assoc]

/-- A fold without an error is waited for until it is full or draining. -/
theorem Fold.met_iff_there {x : Fold} (sound : x.err = 0#3) : x.met = true ↔ x.There := by
  simp [Fold.met_iff, Fold.There, sound]

theorem Fold.met_eq_false {x : Fold} (sound : x.err = 0#3) (open' : ¬x.There) : x.met = false :=
  eq_false_of_ne_true fun h => open' ((Fold.met_iff_there sound).1 h)

/-- A filling fold that is not complete is not there yet. -/
theorem Fold.not_there_of_filling {x : Fold} (filling : x.state = 1#2) : ¬x.There := by
  rw [Fold.There, filling]
  decide

/-- Every armed count meets its expectation (R258). -/
def Fold.Counted (x : Fold) : Prop := (x.armb = true → x.arrb = x.expb) ∧ (x.armr = true → x.arrr = x.expr)

theorem Fold.settle_eq {x : Fold} (filling : x.state = 1#2) (armed : x.armb = true ∨ x.armr = true) :
    (x.Counted → x.settle = { x with state := 2#2 }) ∧ (¬x.Counted → x.settle = x) := by
  have counted : (x.state = 1#2 ∧ (x.armb ∨ x.armr) ∧ (!x.armb ∨ x.arrb = x.expb) ∧ (!x.armr ∨ x.arrr = x.expr)) ↔ x.Counted := by
    simp only [filling, armed, Fold.Counted, true_and, Bool.not_eq_true', or_iff_not_imp_left, Bool.not_eq_false]
  exact ⟨fun full => if_pos (counted.2 full), fun short => if_neg fun h => short (counted.1 h)⟩

/-! ## Expectations (R260) -/

theorem Fold.expect_there {x : Fold} (there : x.There) (rows : Bool) (n : Word) : x.expect rows n = x.fail 3#3 := if_pos there

section
variable {x : Fold} (filling : x.state = 1#2) {n : Word}
include filling

theorem Fold.expect_bytes_past (past : 2 ^ 32 ≤ x.expb.toNat + n.toNat) : x.expect false n = x.fail 2#3 :=
  (if_neg (Fold.not_there_of_filling filling)).trans (if_pos past)

theorem Fold.expect_rows_past (past : 2 ^ 32 ≤ x.expr.toNat + n.toNat) : x.expect true n = x.fail 2#3 :=
  (if_neg (Fold.not_there_of_filling filling)).trans (if_pos past)

theorem Fold.expect_bytes (fits : x.expb.toNat + n.toNat < 2 ^ 32) :
    x.expect false n = ({ x with expb := x.expb + n, armb := true } : Fold).settle :=
  (if_neg (Fold.not_there_of_filling filling)).trans (if_neg (not_le.2 fits))

theorem Fold.expect_rows (fits : x.expr.toNat + n.toNat < 2 ^ 32) :
    x.expect true n = ({ x with expr := x.expr + n, armr := true } : Fold).settle :=
  (if_neg (Fold.not_there_of_filling filling)).trans (if_neg (not_le.2 fits))

end

/-! ## The fields of an entry (R257) -/

section
variable (x : Fold)

/-- The numbers that stand side by side in bits 31:0 of an entry. -/
theorem Fold.status_toNat : ∃ r b : Nat, (r = if x.armr then 1 else 0) ∧ (b = if x.armb then 1 else 0) ∧
    x.status.toNat = x.miss.toNat * 65536 + x.cons.toNat * 2048 + x.err.toNat * 256 + r * 32 + b * 16 + x.state.toNat := by
  refine ⟨_, _, rfl, rfl, ?_⟩
  have := x.miss.isLt
  have := x.cons.isLt
  have := x.err.isLt
  have := x.state.isLt
  rw [Fold.status, BitVec.toNat_ofNat]
  cases x.armr <;> cases x.armb <;> simp <;> omega

theorem Fold.status_fields : x.status.extractLsb' 0 2 = x.state ∧ x.status.getLsbD 4 = x.armb ∧ x.status.getLsbD 5 = x.armr ∧
    x.status.extractLsb' 8 3 = x.err ∧ x.status.extractLsb' 11 5 = x.cons ∧ x.status.extractLsb' 16 16 = x.miss := by
  obtain ⟨r, b, hr, hb, sum⟩ := x.status_toNat
  have rows : r ≤ 1 := by rw [hr]; split <;> decide
  have bytes : b ≤ 1 := by rw [hb]; split <;> decide
  have := x.miss.isLt
  have := x.cons.isLt
  have := x.err.isLt
  have := x.state.isLt
  have bit (c : Bool) (m : Nat) (h : m = if c then 1 else 0) : decide (m = 1) = c := by subst h; cases c <;> rfl
  refine ⟨BitVec.eq_of_toNat_eq ?_, ?_, ?_, BitVec.eq_of_toNat_eq ?_, BitVec.eq_of_toNat_eq ?_, BitVec.eq_of_toNat_eq ?_⟩
  · rw [BitVec.extractLsb'_toNat, sum, Nat.shiftRight_eq_div_pow]; omega
  · rw [← bit _ b hb, BitVec.getLsbD, Nat.testBit_eq_decide_div_mod_eq, sum, decide_eq_decide]; omega
  · rw [← bit _ r hr, BitVec.getLsbD, Nat.testBit_eq_decide_div_mod_eq, sum, decide_eq_decide]; omega
  · rw [BitVec.extractLsb'_toNat, sum, Nat.shiftRight_eq_div_pow]; omega
  · rw [BitVec.extractLsb'_toNat, sum, Nat.shiftRight_eq_div_pow]; omega
  · rw [BitVec.extractLsb'_toNat, sum, Nat.shiftRight_eq_div_pow]; omega

theorem Fold.high_fields : x.high.extractLsb' 19 5 = x.consn ∧ x.high.extractLsb' 24 8 = x.infl := by
  have := x.infl.isLt
  have := x.consn.isLt
  constructor <;> refine BitVec.eq_of_toNat_eq ?_ <;>
    rw [BitVec.extractLsb'_toNat, Fold.high, BitVec.toNat_ofNat, Nat.shiftRight_eq_div_pow] <;> omega

end

/-! ## FALLOC, FFREE and FSTATE (R259, R262) -/

theorem answer_wrote (s : State) (k : Ctl) (d : Operand) (v : Word) : Wrote32 s (s.answer k d v) k d 0#6 fun _ => v := by
  rw [State.answer, ← value32_plain]
  exact value32_wrote_plain s k d fun _ => v

section
variable {s : State} {k : Ctl} {f : EFields}

/-- The fold that the current warp's word names. -/
def State.myFold (s : State) (f : EFields) : Fold := s.fold s.me.teamKey f.fold.toNat

/-- An allocation that is misaligned or passes the end of the scratchpad (R259). -/
def State.BadPlace (s : State) (f : EFields) : Prop :=
  (rdU s s.me f.a).toNat % 16 ≠ 0 ∨ (rdU s s.me f.b).toNat % 16 ≠ 0 ∨
    (s.team s.me.teamKey).scratchSize < (rdU s s.me f.a).toNat + (rdU s s.me f.b).toNat

/-- A change of the fold that the current warp's word names. -/
def State.modMyFold (s : State) (f : EFields) (g : Fold → Fold) : State := s.modFold s.me.teamKey f.fold.toNat g

section
variable (issues : Issues s k (.falloc k f)) (acts : s.me.acts k = true)
include issues acts

theorem exec_falloc_taken (taken : (s.myFold f).state ≠ 0#2) : exec (.falloc k f) s = .next (s.answer k f.d 1#32) := by
  rw [exec, execFalloc, issue_next issues]
  simp only [acts, Bool.not_true, Bool.false_eq_true, if_false]
  exact congrArg _ (if_pos taken)

variable (free : (s.myFold f).state = 0#2)
include free

theorem exec_falloc_bad (bad : s.BadPlace f) : exec (.falloc k f) s = .next (s.answer k f.d 2#32) := by
  rw [exec, execFalloc, issue_next issues]
  simp only [acts, Bool.not_true, Bool.false_eq_true, if_false]
  exact congrArg _ ((if_neg (not_not.2 free)).trans (if_pos bad))

theorem exec_falloc_made (good : ¬s.BadPlace f) : exec (.falloc k f) s = .next ((s.modMyFold f fun x =>
      ({ x with abase := rdU s s.me f.a, asize := rdU s s.me f.b
                consn := BitVec.ofNat 5 (max 1 (f.func.toNat % 32)) } : Fold).refill).answer k f.d 0#32) := by
  rw [exec, execFalloc, issue_next issues]
  simp only [acts, Bool.not_true, Bool.false_eq_true, if_false]
  exact congrArg _ ((if_neg (not_not.2 free)).trans (if_neg good))

end

section
variable (issues : Issues s k (.ffree k f)) (acts : s.me.acts k = true)
include issues acts

theorem exec_ffree_free (free : (s.myFold f).state = 0#2) : exec (.ffree k f) s = .next (s.answer k f.d 1#32) := by
  rw [exec, execFfree, issue_next issues]
  simp only [acts, Bool.not_true, Bool.false_eq_true, if_false]
  exact congrArg _ (if_pos free)

variable (taken : (s.myFold f).state ≠ 0#2)
include taken

theorem exec_ffree_busy (busy : (s.myFold f).infl ≠ 0#8) : exec (.ffree k f) s = .next (s.answer k f.d 2#32) := by
  rw [exec, execFfree, issue_next issues]
  simp only [acts, Bool.not_true, Bool.false_eq_true, if_false]
  exact congrArg _ ((if_neg taken).trans (if_pos busy))

theorem exec_ffree_freed (idle : (s.myFold f).infl = 0#8) :
    exec (.ffree k f) s = .next ((s.modMyFold f fun _ => {}).answer k f.d 0#32) := by
  rw [exec, execFfree, issue_next issues]
  simp only [acts, Bool.not_true, Bool.false_eq_true, if_false]
  exact congrArg _ ((if_neg taken).trans (if_neg (not_not.2 idle)))

end

theorem exec_allocation_idle {i : Instr} (word : i = .falloc k f ∨ i = .ffree k f) (issues : Issues s k i)
    (idle : s.me.acts k = false) : exec i s = .next (s.finish k [] 0#6) := by
  rcases word with rfl | rfl
  · rw [exec, execFalloc, issue_next issues]
    simp [idle]
  · rw [exec, execFfree, issue_next issues]
    simp [idle]

/-- What FSTATE reads of an entry (R262). -/
def Fold.part (x : Fold) (func : BitVec 16) : Word :=
  match func.toNat with
  | 0 => x.status
  | 1 => x.arrb
  | 2 => x.arrr
  | _ => x.high

theorem exec_fstate (issues : Issues s k (.fstate k f)) :
    exec (.fstate k f) s = .next (s.answer k f.d ((s.myFold f).part f.func)) := by
  rw [exec]
  exact issue_next issues _

/-! ## The fold error (R261) -/

theorem foldTrap_sound {x : Fold} (sound : x.err = 0#3) (n : Nat) : s.foldTrap k n x = none := if_pos sound

theorem foldTrap_failed {x : Fold} (failed : x.err ≠ 0#3) (n : Nat) : s.foldTrap k n x = some
    { kind := 14, cause := 3, mask := s.me.eff k, addr := BitVec.ofNat 64 (s.free 14)
      info := BitVec.ofNat 32 (n + 256 * x.err.toNat) } := if_neg failed

/-! ## BXPECT and RXPECT (R260) -/

/-- The fold after an expectation. -/
def State.expected (s : State) (f : EFields) (rows : Bool) : State := s.modMyFold f fun x => x.expect rows (rdU s s.me f.a)

theorem expected_foldOnly (s : State) (f : EFields) (rows : Bool) :
    FoldOnly s (s.expected f rows) s.me.teamKey f.fold.toNat := foldOnly_modFold ..

theorem expected_fold (s : State) (f : EFields) (rows : Bool) :
    (s.expected f rows).fold s.me.teamKey f.fold.toNat = (s.myFold f).expect rows (rdU s s.me f.a) := State.fold_modFold_same ..

section
variable {rows : Bool} (acts : s.me.acts k = true)
include acts

theorem expectWord_plain (plain : f.func = 0#16) : s.expectWord k f rows = (s.expected f rows).finish k [] 0#6 := by
  simp only [State.expectWord, acts, plain, Bool.not_true, Bool.false_eq_true, if_false, if_true]
  rfl

variable (waits : f.func ≠ 0#16) (sound : (s.myFold f).err = 0#3)
include waits sound

theorem expectWord_waiting : s.expectWord k f rows =
    if ((s.myFold f).expect rows (rdU s s.me f.a)).met then (s.expected f rows).finish k [] 0#6
    else (s.expected f rows).modMe fun w => w.sleepIn k.sw (.xpect f.fold.toNat) s.tick := by
  have trap := foldTrap_sound (s := s) (k := k) sound f.fold.toNat
  unfold State.myFold at trap
  simp only [State.expectWord, acts, waits, trap, Bool.not_true, Bool.false_eq_true, if_false]
  rfl

end

/-- What BXPECT and RXPECT do (R260): on a full or draining fold the expectation is error 3, past 2 ^ 32 it is error 2, and else the
fold is y', or y where a count is still short. The word goes on, or its waiting form sleeps on a fold that is not there. -/
def Expects (s : State) (k : Ctl) (f : EFields) (i : Instr) (exp : Word) (y : Fold) (full : Prop) (y' : Fold) : Prop :=
  let x := s.myFold f
  let met (z : Fold) : Prop := z.state = 2#2 ∨ z.state = 3#2 ∨ z.err ≠ 0#3
  ∃ t, exec i s = .next t ∧ ∃ u, FoldOnly s u s.me.teamKey f.fold.toNat ∧ u.me = s.me ∧
    let z := u.fold s.me.teamKey f.fold.toNat
    (x.There → z = x.fail 3#3) ∧ (x.state = 1#2 → 2 ^ 32 ≤ exp.toNat + (rdU s s.me f.a).toNat → z = x.fail 2#3) ∧
    (x.state = 1#2 → exp.toNat + (rdU s s.me f.a).toNat < 2 ^ 32 → (full → z = y') ∧ (¬full → z = y)) ∧
    (f.func = 0#16 ∨ met z → NoEffect u t k) ∧ (f.func ≠ 0#16 → ¬met z → Sleeps u t k (.xpect f.fold.toNat))

section
variable {i : Instr} {rows : Bool} (run : exec i s = .next (s.expectWord k f rows)) (acts : s.me.acts k = true)
  (sound : f.func = 0#16 ∨ (s.myFold f).err = 0#3)
include run acts sound

theorem expectWord_goes_on :
    let met := ((s.myFold f).expect rows (rdU s s.me f.a)).met
    ∃ t, exec i s = .next t ∧ (f.func = 0#16 ∨ met = true → NoEffect (s.expected f rows) t k) ∧
      (f.func ≠ 0#16 → met = false → Sleeps (s.expected f rows) t k (.xpect f.fold.toNat)) := by
  refine ⟨_, run, ?_⟩
  by_cases plain : f.func = 0#16
  · rw [expectWord_plain acts plain]
    exact ⟨fun _ => finish_noEffect _ k, fun waits => absurd plain waits⟩
  · rw [expectWord_waiting acts plain (sound.resolve_left plain)]
    cases (Fold.expect (s.myFold f) rows (rdU s s.me f.a)).met
    · exact ⟨fun h => by rcases h with h | h <;> contradiction, fun _ _ => sleep_sleeps (s.expected f rows) k _⟩
    · exact ⟨fun _ => finish_noEffect _ k, fun _ h => by contradiction⟩

theorem expectWord_expects {exp : Word} {y y' : Fold} {full : Prop} (past : (s.myFold f).state = 1#2 →
      2 ^ 32 ≤ exp.toNat + (rdU s s.me f.a).toNat → (s.myFold f).expect rows (rdU s s.me f.a) = (s.myFold f).fail 2#3)
    (fits : (s.myFold f).state = 1#2 → exp.toNat + (rdU s s.me f.a).toNat < 2 ^ 32 →
      (full → (s.myFold f).expect rows (rdU s s.me f.a) = y') ∧ (¬full → (s.myFold f).expect rows (rdU s s.me f.a) = y)) :
    Expects s k f i exp y full y' := by
  obtain ⟨t, ran, goes, sleeps⟩ := expectWord_goes_on run acts sound
  rw [← expected_fold] at goes sleeps past fits
  exact ⟨t, ran, _, expected_foldOnly s f rows, rfl, fun there => (expected_fold s f rows).trans (Fold.expect_there there rows _),
    past, fits, fun h => goes (h.imp_right (Fold.met_iff _).2),
    fun waits h => sleeps waits (eq_false_of_ne_true fun met => h ((Fold.met_iff _).1 met))⟩

end

theorem exec_bxpect (issues : Issues s k (.bxpect k f)) : exec (.bxpect k f) s = .next (s.expectWord k f false) := by
  rw [exec]
  exact issue_next issues _

theorem exec_rxpect (issues : Issues s k (.rxpect k f)) : exec (.rxpect k f) s = .next (s.expectWord k f true) := by
  rw [exec]
  exact issue_next issues _

theorem exec_expectation_idle {i : Instr} (word : i = .bxpect k f ∨ i = .rxpect k f) (issues : Issues s k i)
    (idle : s.me.acts k = false) : exec i s = .next (s.finish k [] 0#6) := by
  rcases word with rfl | rfl
  · rw [exec_bxpect issues, State.expectWord]
    simp [idle]
  · rw [exec_rxpect issues, State.expectWord]
    simp [idle]

end

end Sys2Proof.Machine
end

section
/-! PROOFS. The statement about the fold words (R257 to R260, R262). -/

namespace Sys2Proof.Claims

open Sys2Proof.Machine

/-- Settles O40: FALLOC and FFREE by the fold's state, FSTATE by the places of an entry's fields (`Fold.status_fields`), and BXPECT
and RXPECT by what an expectation does to the fold (`Fold.expect_bytes`, `Fold.expect_rows`, `Fold.settle_eq`). -/
theorem foldWords : Obligations.FoldWords := by
  refine ⟨fun s k f => ⟨fun issues acts => ?falloc, fun issues acts => ?ffree, fun issues => ?fstate, fun i word issues idle =>
    ⟨_, exec_allocation_idle word issues idle, finish_noEffect s k⟩⟩, fun s k f => ?expect⟩
  case falloc =>
    by_cases taken : (s.myFold f).state ≠ 0#2
    · exact ⟨_, exec_falloc_taken issues acts taken, s, _, answer_wrote .., foldOnly_refl .., rfl, fun _ => ⟨rfl, rfl⟩,
        fun free => absurd free taken, fun free => absurd free taken⟩
    have free := not_not.1 taken
    by_cases bad : s.BadPlace f
    · exact ⟨_, exec_falloc_bad issues acts free bad, s, _, answer_wrote .., foldOnly_refl .., rfl, fun h => absurd h taken,
        fun _ _ => ⟨rfl, rfl⟩, fun _ good => absurd bad good⟩
    · exact ⟨_, exec_falloc_made issues acts free bad, _, _, answer_wrote .., foldOnly_modFold .., rfl, fun h => absurd h taken,
        fun _ h => absurd h bad, fun _ _ => ⟨rfl, State.fold_modFold_same ..⟩⟩
  case ffree =>
    by_cases free : (s.myFold f).state = 0#2
    · exact ⟨_, exec_ffree_free issues acts free, s, _, answer_wrote .., foldOnly_refl .., rfl, fun _ => ⟨rfl, rfl⟩,
        fun taken => absurd free taken, fun taken => absurd free taken⟩
    by_cases idle : (s.myFold f).infl = 0#8
    · exact ⟨_, exec_ffree_freed issues acts free idle, _, _, answer_wrote .., foldOnly_modFold .., rfl, fun h => absurd h free,
        fun _ busy => absurd idle busy, fun _ _ => ⟨rfl, State.fold_modFold_same ..⟩⟩
    · exact ⟨_, exec_ffree_busy issues acts free idle, s, _, answer_wrote .., foldOnly_refl .., rfl, fun h => absurd h free,
        fun _ _ => ⟨rfl, rfl⟩, fun _ h => absurd h idle⟩
  case fstate =>
    refine ⟨_, exec_fstate issues, _, answer_wrote .., fun func => ?_, fun func => ?_, fun func => ?_, fun func => ?_⟩ <;>
      rw [func]
    · exact (s.myFold f).status_fields
    · rfl
    · rfl
    · exact (s.myFold f).high_fields
  case expect =>
    refine ⟨fun issues acts sound => ?bytes, fun issues acts sound => ?rows, fun i word issues idle =>
      ⟨_, exec_expectation_idle word issues idle, finish_noEffect s k⟩⟩
    case bytes =>
      refine expectWord_expects (exec_bxpect issues) acts sound
        (fun filling past => Fold.expect_bytes_past filling past) fun filling fits => ?_
      rw [Fold.expect_bytes filling fits]
      obtain ⟨full, short⟩ := Fold.settle_eq (x := { s.myFold f with expb := _, armb := true }) filling (.inl rfl)
      exact ⟨fun ⟨hb, hr⟩ => full ⟨fun _ => hb, hr⟩, fun h => short fun ⟨hb, hr⟩ => h ⟨hb rfl, hr⟩⟩
    case rows =>
      refine expectWord_expects (exec_rxpect issues) acts sound
        (fun filling past => Fold.expect_rows_past filling past) fun filling fits => ?_
      rw [Fold.expect_rows filling fits]
      obtain ⟨full, short⟩ := Fold.settle_eq (x := { s.myFold f with expr := _, armr := true }) filling (.inr rfl)
      exact ⟨fun ⟨hb, hr⟩ => full ⟨hb, fun _ => hr⟩, fun h => short fun ⟨hb, hr⟩ => h ⟨hb, hr rfl⟩⟩

end Sys2Proof.Claims
end

section
/-! SUPPORT. Traps at a word and sleeps that capture it, and the words that wait on folds and streams: FWAIT, CFENCE, SPOP, SPUSH and
YIELD (R261, R272 to R275). -/

namespace Sys2Proof.Machine

/-! ## Traps and sleeps -/

theorem laneKind_iff (kind : Nat) : laneKind kind = true ↔ kind = 4 ∨ kind = 6 ∨ kind = 7 ∨ kind = 8 := by
  simp [laneKind, or_assoc]

/-- A trap of a word at PRIV = 0 enters its handler, with the word's address in TPC (R379). -/
theorem takeTrap_trapped {s : State} (user : s.me.priv = false) (x : Trp) : Trapped s (s.takeTrap x) x s.me.pc false := by
  have enters : s.takeTrap x = s.modMe fun w => w.trapEntry x s.me.pc (s.ctx w.ctx).tvec := by
    rw [State.takeTrap, State.takeTrapAt, user]
    rfl
  rw [enters]
  constructor
  · rw [State.me_modMe]
    rfl
  · rw [State.me_modMe, Warp.trapEntry]
    simp only [laneKind_iff]
    rfl

/-- A warp that sleeps in its word, which is captured or has a place to go on at. -/
theorem sleeps_modMe {s : State} {k : Ctl} {z : Sleep} {g : Warp → Warp} (frame : g s.me =
    { s.me.sleepIn k.sw z s.tick with req := (g s.me).req, resume := (g s.me).resume }) : Sleeps s (s.modMe g) k z := by
  constructor
  · rw [State.me_modMe]
    rfl
  · rw [State.me_modMe]
    exact frame

/-- Register writes before the end of a word are the word's own. -/
theorem finish_putMany (s : State) (k : Ctl) (ws : List (Nat × Word)) :
    (s.modMe fun w => w.putMany ws).finish k [] 0#6 = s.finish k ws 0#6 := State.modMe_modMe ..

/-! ## FWAIT (R261) -/

section
variable {s : State} {k : Ctl} {f : EFields}

/-- Where .ld reads in lane l. -/
def fwaitPlace (s : State) (f : EFields) (l : Nat) : Nat := (s.myFold f).abase.toNat + 4 * (rd s s.me f.a l).toNat

/-- The lanes of .ld read within the fold's allocation. -/
def FwaitInside (s : State) (k : Ctl) (f : EFields) : Prop := f.func = 1#16 → ∀ l, l < 32 → (s.me.eff k).getLsbD l = true →
  fwaitPlace s f l + 4 ≤ (s.myFold f).abase.toNat + (s.myFold f).asize.toNat

/-- Nothing holds back a read of .ld. -/
def FwaitClear (s : State) (k : Ctl) (f : EFields) : Prop := f.func = 1#16 → ∀ l, l < 32 → (s.me.eff k).getLsbD l = true →
  s.me.scratchSpan s.nextId (fwaitPlace s f l) 4 = true

/-- The lanes and places of the current warp's FWAIT. -/
def fwaitReads (s : State) (k : Ctl) (f : EFields) : List (Nat × Nat) := fwaitOffsets s s.me k f (s.myFold f)

theorem fwaitReads_ld (ld : f.func = 1#16) : fwaitReads s k f = (dstLanes s.me k).map fun l => (l, fwaitPlace s f l) := if_pos ld

theorem fwaitReads_other (other : f.func ≠ 1#16) : fwaitReads s k f = [] := if_neg other

theorem forall_fwaitReads {p : Nat × Nat → Prop} : (∀ y ∈ fwaitReads s k f, p y) ↔
    (f.func = 1#16 → ∀ l, l < 32 → (s.me.eff k).getLsbD l = true → p (l, fwaitPlace s f l)) := by
  by_cases ld : f.func = 1#16
  · simp only [fwaitReads_ld ld, ld, List.forall_mem_map, mem_dstLanes, and_imp, forall_true_left]
  · simp [fwaitReads_other ld, ld]

theorem fwaitClear_iff : s.fwaitClear (fwaitReads s k f) = true ↔ FwaitClear s k f := by
  rw [State.fwaitClear, List.all_eq_true]
  exact forall_fwaitReads

theorem failTrap_eq_none {xs : List (Addr × Option (Nat × Nat))} (passes : ∀ x ∈ xs, x.2 = none) : failTrap xs = none := by
  induction xs with
  | nil => rfl
  | cons x xs ih =>
    obtain ⟨a, c⟩ := x
    obtain ⟨rfl, rest⟩ : c = none ∧ _ := by simpa using passes
    exact ih fun y hy => passes y (by simp [hy])

section
variable (issues : Issues s k (.fwait k f)) (acts : s.me.acts k = true)
include issues acts

theorem exec_fwait_failed (failed : (s.myFold f).err ≠ 0#3) : exec (.fwait k f) s = .next (s.takeTrap
    { kind := 14, cause := 3, mask := s.me.eff k, addr := BitVec.ofNat 64 (s.free 14)
      info := BitVec.ofNat 32 (f.fold.toNat + 256 * (s.myFold f).err.toNat) }) := by
  have trap := foldTrap_failed (s := s) (k := k) failed f.fold.toNat
  unfold State.myFold at trap
  rw [exec, execFwait, issue_next issues]
  simp only [acts, trap, Bool.not_true, Bool.false_eq_true, if_false]
  rfl

variable (sound : (s.myFold f).err = 0#3) (inside : FwaitInside s k f)
include sound inside

/-- An FWAIT without a trap is done, waits for what is ordered before its reads, or sleeps. -/
theorem exec_fwait_sound : exec (.fwait k f) s = .next (if (s.myFold f).met then
      if s.fwaitClear (fwaitReads s k f) then (s.fwaitDone f (fwaitReads s k f)).finish k [] 0#6 else s
    else s.modMe fun w => { w.sleepIn k.sw (.fwait f.fold.toNat f.func.toNat) s.tick with
      req := some (s.me.captured k (.fwait k f) ((fwaitReads s k f).flatMap fun y => [y.1, y.2])) }) := by
  have trap := foldTrap_sound (s := s) (k := k) sound f.fold.toNat
  have bounds : failTrap ((fwaitReads s k f).map fun y => ((⟨y.1, 0, BitVec.ofNat 64 y.2⟩ : Addr),
      if y.2 + 4 ≤ (s.myFold f).abase.toNat + (s.myFold f).asize.toNat then none else some (7, 5))) = none := by
    refine failTrap_eq_none fun x hx => ?_
    obtain ⟨y, hy, rfl⟩ := List.mem_map.1 hx
    exact if_pos (forall_fwaitReads (p := fun y => y.2 + 4 ≤ _).2 inside y hy)
  unfold fwaitReads State.myFold at bounds
  unfold State.myFold at trap
  rw [exec, execFwait, issue_next issues]
  simp only [acts, trap, bounds, Bool.not_true, Bool.false_eq_true, if_false]
  rfl

theorem exec_fwait_sleeping (notThere : ¬(s.myFold f).There) :
    ∃ t, exec (.fwait k f) s = .next t ∧ Sleeps s t k (.fwait f.fold.toNat f.func.toNat) := by
  rw [exec_fwait_sound issues acts sound inside, Fold.met_eq_false sound notThere]
  exact ⟨_, congrArg _ (if_neg Bool.false_ne_true), sleeps_modMe rfl⟩

variable (there : (s.myFold f).There)
include there

theorem exec_fwait_held (held : ¬FwaitClear s k f) : exec (.fwait k f) s = .next s := by
  have busy := eq_false_of_ne_true fun h => held (fwaitClear_iff.1 h)
  rw [exec_fwait_sound issues acts sound inside, (Fold.met_iff_there sound).2 there, busy]
  rfl

theorem exec_fwait_done (clear : FwaitClear s k f) :
    exec (.fwait k f) s = .next ((s.fwaitDone f (fwaitReads s k f)).finish k [] 0#6) := by
  rw [exec_fwait_sound issues acts sound inside, (Fold.met_iff_there sound).2 there, fwaitClear_iff.2 clear]
  rfl

end

theorem exec_fwait_idle (issues : Issues s k (.fwait k f)) (idle : s.me.acts k = false) :
    exec (.fwait k f) s = .next (s.finish k [] 0#6) := by
  rw [exec, execFwait, issue_next issues]
  simp [idle]

theorem fwaitDone_plain (plain : f.func = 0#16) (offs : List (Nat × Nat)) : s.fwaitDone f offs = s := by
  rw [State.fwaitDone, plain]
  rfl

theorem fwaitDone_rel (rel : f.func = 2#16) (offs : List (Nat × Nat)) : s.fwaitDone f offs = s.modMyFold f Fold.release := by
  rw [State.fwaitDone, rel]
  rfl

/-- .ld's reads are the word's result (R261). -/
theorem fwaitDone_ld (ld : f.func = 1#16) {d : Fin 256} (dst : f.d = .v d) :
    (s.fwaitDone f (fwaitReads s k f)).finish k [] 0#6 =
      s.value32 k f.d fun l => (BitVec.ofNat 32 (s.scratchRead s.me.teamKey (fwaitPlace s f l) 4), 0#6) := by
  have reads : s.fwaitDone f (fwaitReads s k f) = s.modMe fun w => w.putMany (writes32 s.me k f.d fun l =>
      BitVec.ofNat 32 (s.scratchRead s.me.teamKey (fwaitPlace s f l) 4)) := by
    rw [State.fwaitDone, fwaitReads_ld ld, dst, ld, List.map_map]
    rfl
  rw [reads, finish_putMany, State.value32, flagsOver_zero]

theorem Fold.release_more {x : Fold} (there : x.There) (more : 1#5 < x.cons) :
    x.release = { x with state := 3#2, cons := x.cons - 1#5 } :=
  (if_neg (by rcases there with h | h <;> simp [h])).trans (if_pos more)

/-- The last consumer's release starts the fold's next fill (R258). -/
theorem Fold.release_last {x : Fold} (there : x.There) (last : ¬1#5 < x.cons) : x.release =
    { infl := x.infl, abase := x.abase, asize := x.asize, consn := x.consn, cons := x.consn, state := 1#2 } :=
  (if_neg (by rcases there with h | h <;> simp [h])).trans (if_neg last)

/-! ## CFENCE (R272) -/

/-- The word has no earlier command to wait for. -/
def CfencePasses (s : State) (k : Ctl) : Prop :=
  s.me.acts k = false ∨ s.engineIdle (keyCore s.cur) (keySlot s.cur) = true

theorem exec_cfence_passing (issues : Issues s k (.cfence k f)) (passes : CfencePasses s k) :
    exec (.cfence k f) s = .next (s.finish k [] 0#6) := by
  rw [exec, execCfence, issue_next issues]
  exact congrArg _ (if_pos (passes.imp_left (by simp [·])))

theorem exec_cfence_sleeping (issues : Issues s k (.cfence k f)) (waits : ¬CfencePasses s k) :
    exec (.cfence k f) s = .next (s.modMe fun w => w.sleepIn k.sw (.cfence s.nextId) s.tick) := by
  rw [exec, execCfence, issue_next issues]
  exact congrArg _ (if_neg fun h => waits (h.imp_left (by simp)))

end

/-! ## Streams (R273, R274) -/

section
variable (s : State) (tk n : Nat) (g : Stream → Stream)

theorem State.team_modStream (y : Nat) : (s.modStream tk n g).team y =
    if y = tk then { s.team tk with streams := tmod {} (s.team tk).streams n g } else s.team y := State.team_modTeam ..

theorem State.stream_modStream (m : Nat) : ((s.modStream tk n g).team tk).stream m =
    if m = n then g ((s.team tk).stream n) else (s.team tk).stream m := by
  rw [State.team_modStream, if_pos rfl]
  exact tget_tmod ..

theorem streamOnly_modStream : StreamOnly s (s.modStream tk n g) tk n := by
  refine ⟨rfl, fun y other => ?_, ?_, fun m other => ?_⟩
  · rw [State.team_modStream, if_neg other]
  · rw [State.team_modStream, if_pos rfl]
  · rw [State.stream_modStream, if_neg other]

end

section
variable {s : State} {k : Ctl} {f : EFields}

/-- The stream that the current warp's word names. -/
def State.myStream (s : State) (f : EFields) : Stream := (s.team s.me.teamKey).stream (f.func.toNat % 8)

/-- A change of the stream that the current warp's word names. -/
def State.modMyStream (s : State) (f : EFields) (g : Stream → Stream) : State := s.modStream s.me.teamKey (f.func.toNat % 8) g

/-- The stream that SPUSH's first form sets up (R273). -/
def streamSetup (s : State) (f : EFields) : Stream :=
  { base := rdU64 s s.me f.a, stride := (rdU s s.me f.b).setWidth 24, slots := (rdU s s.me f.b).extractLsb' 24 8 }

/-- What a word that changes its stream leaves of the streams. -/
theorem modMyStream_only (s : State) (f : EFields) (g : Stream → Stream) :
    StreamOnly s (s.modMyStream f g) s.me.teamKey (f.func.toNat % 8) ∧ (s.modMyStream f g).me = s.me ∧
      ((s.modMyStream f g).team s.me.teamKey).stream (f.func.toNat % 8) = g (s.myStream f) := by
  refine ⟨streamOnly_modStream .., rfl, ?_⟩
  exact (State.stream_modStream ..).trans (if_pos rfl)

/-- A pair of s-registers that a word puts is its result. -/
theorem finish_putSPair (s : State) (acts : s.me.acts k = true) {d : Fin 128} (pair : d.val + 1 < 128) (v : Dword) :
    (s.modMe fun w => w.putSPair d.val v).finish k [] 0#6 = s.value64 k (.s d) fun _ => (v, 0#6) := by
  have puts : (s.modMe fun w => w.putSPair d.val v) = s.modMe fun w => w.putMany (pairKeys s.me d.val v) :=
    congrArg s.setMe (putSPair_eq_putMany s.me pair v)
  rw [puts, finish_putMany, State.value64, flagsOver_zero, writes64, acts]
  rfl

theorem exec_spop_filled (issues : Issues s k (.spop k f)) (acts : s.me.acts k = true) {d : Fin 128} (dst : f.d = .s d)
    (named : f.func.toNat < 8) (filled : (s.myStream f).count ≠ 0#8) : exec (.spop k f) s =
      .next ((s.modMyStream f fun _ => (s.myStream f).pop.2).value64 k f.d fun _ => ((s.myStream f).pop.1, 0#6)) := by
  have pair := sPair_of_ok (slot_ok_of_legal issues.fields (.sdst 2, f.d) (by simp [sig, esig]))
  rw [dst] at pair
  rw [State.myStream, Nat.mod_eq_of_lt named] at filled
  rw [exec, execSpop, issue_next issues]
  simp only [acts, filled, Bool.not_true, Bool.false_eq_true, if_false, ne_eq, not_false_eq_true, if_true]
  rw [State.popStream, dst, State.myStream, State.modMyStream, Nat.mod_eq_of_lt named]
  exact congrArg _ (finish_putSPair (s.modStream ..) acts pair ((s.team s.me.teamKey).stream f.func.toNat).pop.1)

theorem exec_spop_empty (issues : Issues s k (.spop k f)) (acts : s.me.acts k = true) (named : f.func.toNat < 8)
    (empty : (s.myStream f).count = 0#8) : exec (.spop k f) s = .next (s.modMe fun w =>
      { w.sleepIn k.sw (.spop (f.func.toNat % 8)) s.tick with req := some (w.captured k (.spop k f) []) }) := by
  rw [State.myStream, Nat.mod_eq_of_lt named] at empty
  rw [exec, execSpop, issue_next issues, Nat.mod_eq_of_lt named]
  simp only [acts, empty, Bool.not_true, Bool.false_eq_true, if_false, ne_eq, not_true_eq_false]

section
variable (issues : Issues s k (.spush k f)) (acts : s.me.acts k = true)
include issues acts

theorem exec_spush_setup (setup : bit16 f.func 3 = true) (slots : (rdU s s.me f.b).extractLsb' 24 8 ≠ 0#8) :
    exec (.spush k f) s = .next ((s.modMyStream f fun _ => streamSetup s f).finish k [] 0#6) := by
  rw [exec, execSpush, issue_next issues]
  simp only [acts, setup, slots, Bool.not_true, Bool.false_eq_true, if_false, if_true]
  rfl

variable (push : bit16 f.func 3 = false)
include push

theorem exec_spush_full (full : (s.myStream f).count = (s.myStream f).slots) :
    exec (.spush k f) s = .next (s.answer k f.d 1#32) := by
  rw [exec, execSpush, issue_next issues]
  simp only [acts, push, Bool.not_true, Bool.false_eq_true, if_false]
  exact congrArg _ (if_pos full)

/-- A push waits for the warp's earlier accesses, as a release does (log 27). -/
theorem exec_spush_pushed (room : (s.myStream f).count ≠ (s.myStream f).slots) (stores : s.me.stq = [])
    (loads : ∀ o ∈ s.me.outs, s.pending s.cur o.id = false) :
    exec (.spush k f) s = .next ((s.modMyStream f Stream.push).answer k f.d 0#32) := by
  have done : ¬(s.me.stq ≠ [] ∨ (s.me.outs.any fun o => s.pending s.cur o.id) = true) := by
    simpa [stores] using loads
  rw [exec, execSpush, issue_next issues]
  simp only [acts, push, Bool.not_true, Bool.false_eq_true, if_false]
  exact congrArg _ ((if_neg room).trans (if_neg done))

end

theorem exec_stream_idle {i : Instr} (word : i = .spop k f ∨ i = .spush k f) (issues : Issues s k i)
    (idle : s.me.acts k = false) : exec i s = .next (s.finish k [] 0#6) := by
  rcases word with rfl | rfl
  · rw [exec, execSpop, issue_next issues]
    simp [idle]
  · rw [exec, execSpush, issue_next issues]
    simp [idle]

/-! ## YIELD (R275) -/

/-- Where YIELD goes on. -/
def yieldTarget (s : State) (f : EFields) : Dword := s.me.pc + ((f.func.signExtend 64) <<< 3)

theorem relTarget_signExtend (pc : Dword) (x : BitVec 16) :
    relTarget pc (x.signExtend 32) = pc + ((x.signExtend 64) <<< 3) := by
  have wide : (x.signExtend 32).signExtend 64 = x.signExtend 64 := by
    apply BitVec.eq_of_toInt_eq
    simp [BitVec.toInt_signExtend_of_le]
  rw [relTarget, wide]

theorem exec_yield_idle (issues : Issues s k (.yield k f)) (idle : s.me.acts k = false) :
    exec (.yield k f) s = .next (s.modMe fun w => w.fallThrough k.sw) := by
  rw [exec, execYield, issue_next issues]
  simp [idle]

section
variable (issues : Issues s k (.yield k f)) (acts : s.me.acts k = true) (header : HeaderAt s (yieldTarget s f))
include issues acts header

theorem exec_yield_jumping (met : (s.myFold f).met = true) :
    exec (.yield k f) s = .next (s.modMe fun w => w.jump k.sw (yieldTarget s f)) := by
  have jumps := transfer_of_headerAt (k := k) (upd := id) header
  unfold State.myFold at met
  unfold yieldTarget at *
  rw [exec, execYield, issue_next issues]
  simp only [acts, met, relTarget_signExtend, Bool.not_true, Bool.false_eq_true, if_false, if_true]
  exact congrArg _ jumps

theorem exec_yield_sleeping (waits : (s.myFold f).met = false) : exec (.yield k f) s = .next (s.modMe fun w =>
    { w.sleepIn k.sw (.yield f.fold.toNat) s.tick with resume := yieldTarget s f }) := by
  have checked := targetTrap_headerAt (s.me.eff k) header
  unfold State.myFold at waits
  unfold yieldTarget at *
  rw [exec, execYield, issue_next issues]
  simp only [acts, waits, checked, relTarget_signExtend, Bool.not_true, Bool.false_eq_true, if_false]

end

end

end Sys2Proof.Machine
end

section
/-! PROOFS. The statement about waits on folds and streams (R261, R272 to R275). -/

namespace Sys2Proof.Claims

open Sys2Proof.Machine

/-- Settles O41: an FWAIT without a trap is done, is held back or sleeps (`exec_fwait_sound`); the other words are each their cases.
-/
theorem foldAndStreamWaits : Obligations.FoldAndStreamWaits := by
  refine ⟨fun s k f => ⟨exec_fwait_held, fun issues acts sound inside there clear => ?fwait, exec_fwait_sleeping,
    fun issues acts failed user => ⟨_, exec_fwait_failed issues acts failed, _, takeTrap_trapped user _⟩, fun issues => ?cfence,
    fun issues idle => ⟨_, exec_fwait_idle issues idle, finish_noEffect s k⟩⟩,
    fun s k f => ⟨fun d dst named issues acts => ⟨fun filled => ?pop, fun empty => ?empty⟩,
      fun issues acts => ⟨fun setup slots => ?setup,
      fun push full => ⟨_, exec_spush_full issues acts push full, answer_wrote ..⟩, fun push room stores loads => ?push⟩,
      fun issues header => ?yield,
      fun i word issues idle => ⟨_, exec_stream_idle word issues idle, finish_noEffect s k⟩⟩⟩
  case fwait =>
    refine ⟨_, exec_fwait_done issues acts sound inside there clear, fun plain => ?_, fun d dst ld => ?_, fun rel => ?_⟩
    · rw [fwaitDone_plain plain]
      exact finish_noEffect s k
    · rw [fwaitDone_ld ld dst]
      exact value32_wrote_plain ..
    · rw [fwaitDone_rel rel]
      refine ⟨_, foldOnly_modFold .., finish_noEffect _ k, rfl, fun more => ?_, fun last => ?_⟩
      · exact (State.fold_modFold_same ..).trans (Fold.release_more there more)
      · exact (State.fold_modFold_same ..).trans (Fold.release_last there last)
  case cfence =>
    by_cases passes : CfencePasses s k
    · exact ⟨_, exec_cfence_passing issues passes, (if_pos passes).mpr (finish_noEffect s k)⟩
    · exact ⟨_, exec_cfence_sleeping issues passes, (if_neg passes).mpr (sleep_sleeps s k _)⟩
  case pop =>
    obtain ⟨only, me, stream⟩ := modMyStream_only s f fun _ => (s.myStream f).pop.2
    exact ⟨_, exec_spop_filled issues acts dst named filled, _, only, me, stream, value64_wrote_lanes fun _ => rfl⟩
  case empty => exact ⟨_, exec_spop_empty issues acts named empty, sleeps_modMe rfl⟩
  case setup =>
    obtain ⟨only, me, stream⟩ := modMyStream_only s f fun _ => streamSetup s f
    exact ⟨_, exec_spush_setup issues acts setup slots, _, only, finish_noEffect _ k, me, stream⟩
  case push =>
    obtain ⟨only, me, stream⟩ := modMyStream_only s f Stream.push
    exact ⟨_, exec_spush_pushed issues acts push room stores loads, _, only, me, stream, answer_wrote ..⟩
  case yield =>
    cases acts : s.me.acts k with
    | false =>
      exact ⟨_, exec_yield_idle issues acts, fun _ => ⟨fellThrough_modMe (upd := id) rfl, sameRegs_modMe rfl rfl rfl rfl,
        sameDivergence_modMe rfl rfl rfl rfl⟩, fun h => by contradiction, fun h => by contradiction⟩
    | true =>
      by_cases met : (s.myFold f).met = true
      · exact ⟨_, exec_yield_jumping issues acts (header acts) met, fun h => by contradiction,
          fun _ _ => ⟨jumped_modMe (upd := id) rfl, sameRegs_modMe rfl rfl rfl rfl, sameDivergence_modMe rfl rfl rfl rfl⟩,
          fun _ waits => absurd ((Fold.met_iff _).1 met) waits⟩
      · refine ⟨_, exec_yield_sleeping issues acts (header acts) (eq_false_of_ne_true met), fun h => by contradiction,
          fun _ there => absurd ((Fold.met_iff _).2 there) met, fun _ _ => ⟨sleeps_modMe rfl, ?_⟩⟩
        rw [State.me_modMe]
        rfl

end Sys2Proof.Claims
end

section
/-! SUPPORT. The copy words at issue (R252 to R255, R264 to R267): what the common part of them answers, and the operands of each. -/

namespace Sys2Proof.Machine

section
variable {s : State} {k : Ctl}

theorem leaveEngine_left (s : State) (k : Ctl) : LeftEngine s (s.modMe fun w => w.leaveEngine k.sw) k := rfl

theorem maskLanes_eq_nil_iff (m : Mask) : maskLanes m = [] ↔ m = 0#32 := by
  rcases headD_maskLanes m with ⟨zero, none⟩ | ⟨l, -, lane, -⟩
  · exact iff_of_true none zero
  · refine iff_of_false (List.ne_nil_of_mem lane) fun zero => ?_
    have := ((mem_maskLanes m l).1 lane).2
    rw [zero] at this
    simp at this

/-! ## The common part -/

/-- A copy word, with what it hands to its common part: whether it acts, the trap of a breach, and its operands. -/
structure CopyWord (s : State) (k : Ctl) (i : Instr) (fold : Nat) (acts : Bool) (align : Option Trp) (vals : List Nat) : Prop where
  run : exec i s = .next (s.startCopy k i fold acts align vals)

section
variable {i : Instr} {fold : Nat} {align : Option Trp} {vals : List Nat}

/-- The fold that a copy word names. -/
def State.teamFold (s : State) (fold : Nat) : Fold := s.fold s.me.teamKey fold

theorem CopyWord.idle (word : CopyWord s k i fold false align vals) : ∃ t, exec i s = .next t ∧ LeftEngine s t k :=
  ⟨_, word.run, leaveEngine_left s k⟩

/-- A word on a fold with an error traps before its operands are looked at (log 108). -/
theorem CopyWord.failed (word : CopyWord s k i fold true align vals) (failed : (s.teamFold fold).err ≠ 0#3)
    (user : s.me.priv = false) : ∃ t, exec i s = .next t ∧ ∃ a, Trapped s t
      { kind := 14, cause := 3, mask := s.me.eff k, addr := a
        info := BitVec.ofNat 32 (fold + 256 * (s.teamFold fold).err.toNat) } s.me.pc false := by
  have run := word.run
  unfold State.teamFold at *
  simp only [State.startCopy, foldTrap_failed failed, Bool.not_true, Bool.false_eq_true, if_false] at run
  exact ⟨_, run, _, takeTrap_trapped user _⟩

theorem CopyWord.breach {x : Trp} (word : CopyWord s k i fold true (some x) vals) (sound : (s.teamFold fold).err = 0#3)
    (user : s.me.priv = false) : ∃ t, exec i s = .next t ∧ Trapped s t x s.me.pc false := by
  have run := word.run
  unfold State.teamFold at *
  simp only [State.startCopy, foldTrap_sound sound, Bool.not_true, Bool.false_eq_true, if_false] at run
  exact ⟨_, run, takeTrap_trapped user _⟩

/-- A word that fits the Skidder begins to probe with the operands that it has (R252, R253). -/
theorem CopyWord.starts (word : CopyWord s k i fold true none vals) (sound : (s.teamFold fold).err = 0#3) (some : vals ≠ [])
    (room : s.commands (keyCore s.cur) + (s.me.captured k i vals).count ≤ 32) :
    ∃ t, exec i s = .next t ∧ HandedOver s t k i .probing vals := by
  have run := word.run
  unfold State.teamFold at *
  simp only [State.startCopy, foldTrap_sound sound, some, not_lt.2 room, Bool.not_true, Bool.false_eq_true, if_false] at run
  exact ⟨_, run, rfl⟩

end

/-! ## Alignment (log 29) -/

theorem alignTrap_eq_none {xs : List (Nat × Nat × Bool)} (aligned : ∀ x ∈ xs, x.2.2 = true) : alignTrap xs = none := by
  refine failTrap_eq_none fun y hy => ?_
  obtain ⟨x, hx, rfl⟩ := List.mem_map.1 hy
  exact if_pos (aligned x hx)

section
variable {f : EFields}

/-! ## CPY (R264) -/

/-- Where CPY's lane l reads. -/
def cpySource (s : State) (f : EFields) (l : Nat) : Nat := sideNum s s.me ((copyFunc f.func).dir != 1) f.a l

/-- Where CPY's lane l writes. -/
def cpyDest (s : State) (f : EFields) (l : Nat) : Nat := sideNum s s.me ((copyFunc f.func).dir != 0) f.b l

theorem cpy_word (issues : Issues s k (.cpy k f)) : ∃ align,
    ((∀ l, l < 32 → (s.me.eff k).getLsbD l = true → cpySource s f l % (4 * 2 ^ (copyFunc f.func).sz) = 0 ∧
      cpyDest s f l % (4 * 2 ^ (copyFunc f.func).sz) = 0) → align = none) ∧
    CopyWord s k (.cpy k f) f.fold.toNat (s.me.eff k != 0#32) align
      ((maskLanes (s.me.eff k)).flatMap fun l => [l, cpySource s f l, cpyDest s f l]) := by
  refine ⟨_, fun aligned => alignTrap_eq_none (xs := (((dstLanes s.me k).map fun l => (l, cpySource s f l, cpyDest s f l)).map
    fun y => (y.1, if y.2.1 % (4 * 2 ^ (copyFunc f.func).sz) = 0 then y.2.2 else y.2.1,
      y.2.1 % (4 * 2 ^ (copyFunc f.func).sz) == 0 && y.2.2 % (4 * 2 ^ (copyFunc f.func).sz) == 0))) ?_, ⟨?_⟩⟩
  · simp only [List.map_map, List.mem_map, forall_exists_index, and_imp, Function.comp_apply]
    rintro _ l lane rfl
    obtain ⟨lt, on⟩ := (mem_dstLanes s.me k l).1 lane
    obtain ⟨src, dst⟩ := aligned l lt on
    simp [src, dst]
  · have acts : (((dstLanes s.me k).map fun l => (l, cpySource s f l, cpyDest s f l)) != []) = (s.me.eff k != 0#32) := by
      rw [Bool.eq_iff_iff, bne_iff_ne, bne_iff_ne, ne_eq, List.map_eq_nil_iff, ne_eq, not_iff_not]
      exact maskLanes_eq_nil_iff _
    rw [← acts, exec, execCpy, issue_next issues, ← dstLanes, ← List.flatMap_map (f := fun l => (l, cpySource s f l, cpyDest s f l))
      (g := fun y => [y.1, y.2.1, y.2.2])]
    rfl

/-! ## CPYB (R265) -/

/-- The lane in which the elected operands of the word are read. -/
def copyLane (s : State) (k : Ctl) (f : EFields) : Nat := electedLane s.me k f.d

/-- CPYB's size. -/
def cpybSize (s : State) (k : Ctl) (f : EFields) : Nat := (rd s s.me f.d (copyLane s k f)).toNat

/-- The address that the trap of a misaligned CPYB names (log 122). -/
def cpybBreach (s : State) (k : Ctl) (f : EFields) : Option Nat :=
  if cpySource s f (copyLane s k f) % 16 ≠ 0 then some (cpySource s f (copyLane s k f))
  else if cpyDest s f (copyLane s k f) % 16 ≠ 0 ∨ cpybSize s k f % 16 ≠ 0 ∨ 2 ^ 24 < cpybSize s k f then
    some (cpyDest s f (copyLane s k f))
  else none

theorem cpybBreach_eq_none (src : cpySource s f (copyLane s k f) % 16 = 0) (dst : cpyDest s f (copyLane s k f) % 16 = 0)
    (size : cpybSize s k f % 16 = 0) (small : cpybSize s k f ≤ 2 ^ 24) : cpybBreach s k f = none := by
  rw [cpybBreach, if_neg (not_not.2 src), if_neg]
  exact not_or.2 ⟨not_not.2 dst, not_or.2 ⟨not_not.2 size, not_lt.2 small⟩⟩

theorem cpybBreach_eq_some (bad : cpySource s f (copyLane s k f) % 16 ≠ 0 ∨ cpyDest s f (copyLane s k f) % 16 ≠ 0 ∨
    cpybSize s k f % 16 ≠ 0 ∨ 2 ^ 24 < cpybSize s k f) : cpybBreach s k f =
      some (if cpySource s f (copyLane s k f) % 16 ≠ 0 then cpySource s f (copyLane s k f) else cpyDest s f (copyLane s k f)) := by
  unfold cpybBreach
  by_cases src : cpySource s f (copyLane s k f) % 16 ≠ 0
  · rw [if_pos src, if_pos src]
  · rw [if_neg src, if_neg src, if_pos (bad.resolve_left src)]

theorem cpyb_word (issues : Issues s k (.cpyb k f)) : CopyWord s k (.cpyb k f) f.fold.toNat (electedActs s.me k f.d)
    (wholeTrap s.me k 6 (cpybBreach s k f)) (if cpybSize s k f = 0 then []
      else [cpybSize s k f, cpySource s f (copyLane s k f), cpyDest s f (copyLane s k f)]) := by
  refine ⟨?_⟩
  rw [exec]
  exact issue_next issues _

/-! ## GATH and SCAT (R266) -/

/-- The trap of a breach of GATH or SCAT (log 29). -/
def rowsBreach (s : State) (k : Ctl) (f : EFields) : Option Trp :=
  (alignTrap ((rowAsks s s.me k f).map fun y => (y.getD 0 0, y.getD 6 0, rowsOk y))).map fun t =>
    if isV f.d then t else { t with mask := s.me.eff k }

theorem rowsBreach_eq_none (kept : ∀ y ∈ rowAsks s s.me k f, rowsOk y = true) : rowsBreach s k f = none := by
  rw [rowsBreach, alignTrap_eq_none, Option.map_none]
  simpa using kept

theorem rows_word {i : Instr} (word : i = .gath k f ∨ i = .scat k f) (issues : Issues s k i) :
    CopyWord s k i f.fold.toNat (electedActs s.me k f.d) (rowsBreach s k f)
      ((rowAsks s s.me k f).filter fun y => y.getD 1 0 != 0).flatten := by
  refine ⟨?_⟩
  rcases word with rfl | rfl <;> rw [exec] <;> exact issue_next issues _

/-! ## MCAST (R267) -/

/-- Register n of MCAST's group. -/
def mcastReg (s : State) (k : Ctl) (f : EFields) (n : Nat) : Nat :=
  match f.d with
  | .v r => (s.me.getV (r.val + n) (copyLane s k f)).toNat
  | .s r => (s.me.getS (r.val + n)).toNat
  | _ => 0

/-- MCAST's source. -/
def mcastSource (s : State) (k : Ctl) (f : EFields) : Nat := (rd64 s s.me f.a (copyLane s k f)).toNat

/-- The trap of a breach of MCAST (log 125). -/
def mcastBreach (s : State) (k : Ctl) (f : EFields) : Option Trp :=
  wholeTrap s.me k 6 (if mcastReg s k f 0 % 16 ≠ 0 ∨ mcastReg s k f 0 < 16 ∨ 65536 < mcastReg s k f 0 ∨
    mcastReg s k f 3 % 16 ≠ 0 then some (mcastSource s k f) else none)

theorem mcastBreach_eq_none (size : mcastReg s k f 0 % 16 = 0) (least : 16 ≤ mcastReg s k f 0) (most : mcastReg s k f 0 ≤ 65536)
    (offset : mcastReg s k f 3 % 16 = 0) : mcastBreach s k f = none := by
  rw [mcastBreach, if_neg, wholeTrap, Option.map_none]
  exact not_or.2 ⟨not_not.2 size, not_or.2 ⟨not_lt.2 least, not_or.2 ⟨not_lt.2 most, not_not.2 offset⟩⟩⟩

theorem mcast_word (issues : Issues s k (.mcast k f)) (named : electedActs s.me k f.d = true →
    mcastReg s k f 1 < 2 ^ 18 ∧ mcastReg s k f 2 < 128) : CopyWord s k (.mcast k f) f.fold.toNat (electedActs s.me k f.d)
      (mcastBreach s k f) [mcastReg s k f 0, mcastReg s k f 1, mcastReg s k f 2, mcastReg s k f 3, mcastSource s k f] := by
  refine ⟨?_⟩
  rw [exec, execMcast, issue_next issues]
  refine congrArg _ (if_neg ?_)
  rintro ⟨acts, bad⟩
  obtain ⟨one, two⟩ := named acts
  exact bad.elim (not_le.2 one) (not_le.2 two)

/-- Every copy word but CPY acts as its elected lane does. -/
theorem elected_word {i : Instr} (issues : Issues s k i)
    (word : i = .cpyb k f ∨ i = .gath k f ∨ i = .scat k f ∨ i = .mcast k f ∧
      (electedActs s.me k f.d = true → mcastReg s k f 1 < 2 ^ 18 ∧ mcastReg s k f 2 < 128)) :
    ∃ align vals, CopyWord s k i f.fold.toNat (electedActs s.me k f.d) align vals := by
  rcases word with rfl | rfl | rfl | ⟨rfl, named⟩
  · exact ⟨_, _, cpyb_word issues⟩
  · exact ⟨_, _, rows_word (.inl rfl) issues⟩
  · exact ⟨_, _, rows_word (.inr rfl) issues⟩
  · exact ⟨_, _, mcast_word issues named⟩

end

end

end Sys2Proof.Machine
end

section
/-! SUPPORT. What the homes do for an agent that reads or writes a line (R187, R188, R207, R209): copies move, and claims stay. -/

namespace Sys2Proof.Machine

/-- The homes have given way to an agent's access, and every line has the claims that it had. -/
structure GaveWay (s u : State) : Prop where
  moved : CopiesMoved s u
  claims : ∀ n, (u.line n).claims = (s.line n).claims

section
variable {s t u : State}

theorem CopiesMoved.refl (s : State) : CopiesMoved s s := ⟨rfl, .of_warps rfl, fun _ => rfl, fun _ => rfl⟩

theorem CopiesMoved.trans (h : CopiesMoved s t) (g : CopiesMoved t u) : CopiesMoved s u := by
  refine ⟨?_, h.warps.trans g.warps, fun c => ?_, fun c => ?_⟩
  · have := g.machine; rw [h.machine] at this; rw [this]
  · have := g.cores c; rw [h.cores c] at this; rw [this]
  · have := g.ctxs c; rw [h.ctxs c] at this; rw [this]

theorem CopiesMoved.cur (h : CopiesMoved s u) : u.cur = s.cur := by rw [h.machine]

theorem CopiesMoved.nextId (h : CopiesMoved s u) : u.nextId = s.nextId := by rw [h.machine]

theorem CopiesMoved.sameMemory (h : CopiesMoved s u) : SameMemory s u := by
  intro a
  rw [h.machine]
  rfl

theorem CopiesMoved.team (h : CopiesMoved s u) (tk : Nat) : u.team tk = s.team tk := by
  rw [h.machine]
  rfl

theorem CopiesMoved.fold (h : CopiesMoved s u) (tk n : Nat) : u.fold tk n = s.fold tk n := by
  rw [State.fold, h.team, State.fold]

theorem CopiesMoved.cmds (h : CopiesMoved s u) (c : Nat) : (u.core c).cmds = (s.core c).cmds := by rw [h.cores c]

theorem CopiesMoved.me (h : CopiesMoved s u) : u.me = { s.me with monitor := u.me.monitor } := by
  have := (h.warps s.cur).1
  rw [State.me, h.cur]
  exact this

theorem GaveWay.refl (s : State) : GaveWay s s := ⟨.refl s, fun _ => rfl⟩

theorem GaveWay.trans (h : GaveWay s t) (g : GaveWay t u) : GaveWay s u :=
  ⟨h.moved.trans g.moved, fun n => (g.claims n).trans (h.claims n)⟩

theorem GaveWay.foldl {α : Type} (g : State → α → State) (hg : ∀ s x, GaveWay s (g s x)) (xs : List α) (s : State) :
    GaveWay s (xs.foldl g s) := by
  induction xs generalizing s with
  | nil => exact .refl s
  | cons x xs ih => exact (hg s x).trans (ih _)

end

section
variable (s : State)

/-! ## Parts -/

theorem gaveWay_modLine (line : Nat) (g : Line → Line) (kept : ∀ x, (g x).claims = x.claims) : GaveWay s (s.modLine line g) := by
  refine ⟨⟨rfl, .of_warps rfl, fun _ => rfl, fun _ => rfl⟩, fun n => ?_⟩
  rw [State.line_modLine]
  split
  · next here => rw [kept, here]
  · rfl

theorem gaveWay_modCore (core : Nat) (g : Core → Core) (frame : ∀ c, g c = { c with l1 := (g c).l1, tfu := (g c).tfu }) :
    GaveWay s (s.modCore core g) :=
  ⟨⟨rfl, .of_warps rfl, (claimed_modCore s core g frame).cores, fun _ => rfl⟩, fun _ => rfl⟩

theorem gaveWay_fire (writer : Option Nat) (line : Nat) : GaveWay s (s.fire writer line) :=
  ⟨⟨rfl, onlyMonitors_fire s writer line, fun _ => rfl, fun _ => rfl⟩, fun _ => rfl⟩

theorem State.warp_fireCore (core line j : Nat) :
    (s.fireCore core line).warp j = if keyCore j = core then (s.warp j).firedOn line else s.warp j :=
  tget_tmap _ _ _ _ (by split <;> rfl)

theorem gaveWay_fireCore (core line : Nat) : GaveWay s (s.fireCore core line) := by
  refine ⟨⟨rfl, fun y => ?_, fun _ => rfl, fun _ => rfl⟩, fun _ => rfl⟩
  rw [State.warp_fireCore]
  split
  · rcases (s.warp y).firedOn_cases line with same | ⟨m, armed, fired⟩
    · rw [same]; exact ⟨rfl, .inl rfl⟩
    · rw [fired]; exact ⟨rfl, .inr ⟨m, armed, rfl⟩⟩
  · exact ⟨rfl, .inl rfl⟩

theorem gaveWay_dropTiles (line : Nat) : GaveWay s (s.dropTiles line) :=
  ⟨⟨rfl, .of_warps rfl, (claimed_dropTiles s line).cores, fun _ => rfl⟩, fun _ => rfl⟩

theorem gaveWay_modHold (line core : Nat) (g : Hold → Hold) : GaveWay s (s.modHold line core g) :=
  gaveWay_modLine s line _ fun _ => rfl

theorem gaveWay_modL1 (core line : Nat) (g : L1Line → L1Line) : GaveWay s (s.modL1 core line g) :=
  gaveWay_modCore s core _ fun _ => rfl

theorem gaveWay_repin (line way slice c : Nat) : GaveWay s (s.repin line way slice c) := by
  unfold State.repin
  split
  · refine ⟨⟨rfl, .of_warps rfl, fun _ => rfl, fun x => ?_⟩, fun _ => rfl⟩
    by_cases here : x = c
    · rw [here, State.ctx_modCtx_same]
    · rw [State.ctx_modCtx, if_neg here]
  · exact .refl s

/-! ## Drains, recalls, invalidations and places in the L2 -/

theorem gaveWay_writeBack (core line : Nat) : GaveWay s (s.writeBack core line) := by
  unfold State.writeBack
  split
  · exact .refl s
  · exact .trans (.trans (gaveWay_modL1 s core line _) (gaveWay_modLine _ line (fun x => { x with dirty := x.inL2 }) fun _ => rfl))
      (gaveWay_fire _ none line)

theorem gaveWay_drainNow (core : Option Nat) (line : Nat) : GaveWay s (s.drainNow core line) := by
  unfold State.drainNow
  split
  · exact (GaveWay.foldl _ (fun t l => gaveWay_writeBack t _ l) _ s).trans (gaveWay_modLine _ line _ fun _ => rfl)
  · exact .refl s

theorem gaveWay_recall (except : Option Nat) (line : Nat) (span : Mask) : GaveWay s (s.recall except line span) := by
  refine .foldl _ (fun t h => ?_) _ s
  split
  · exact .refl t
  · refine GaveWay.trans (GaveWay.trans ?_ (gaveWay_modHold _ line h.1 _)) (gaveWay_modL1 _ h.1 line _)
    split
    · exact .refl t
    · exact gaveWay_fire t none line

theorem gaveWay_invalidate (except : Option Nat) (line : Nat) (span : Mask) : GaveWay s (s.invalidate except line span) := by
  refine (gaveWay_dropTiles s line).trans (.foldl _ (fun t h => ?_) _ _)
  split
  · exact .refl t
  · exact ((gaveWay_modHold t line h.1 _).trans (gaveWay_modL1 _ h.1 line _)).trans (gaveWay_fireCore _ h.1 line)

theorem gaveWay_allocL2 (c line prio : Nat) : GaveWay s (s.allocL2 c line prio) := by
  unfold State.allocL2
  dsimp only
  split
  · exact .refl s
  · next w old _ =>
    refine GaveWay.trans ?_ (.foldl _ (fun t x => gaveWay_repin t line w _ x) _ _)
    refine GaveWay.trans ?_ (gaveWay_modLine _ line _ ?_)
    · cases old with
      | some v => exact gaveWay_modLine s v _ fun _ => rfl
      | none => exact .refl s
    · exact fun _ => rfl

theorem gaveWay_touchL2 (c line hint : Nat) : GaveWay s (s.touchL2 c line hint) := by
  unfold State.touchL2
  split
  · exact .refl s
  · split
    · exact gaveWay_modLine s line _ fun _ => rfl
    · split
      · exact .refl s
      · exact gaveWay_allocL2 ..

theorem gaveWay_engineRead (c core hint key n : Nat) : GaveWay s (s.engineRead c core hint key n) :=
  ((gaveWay_drainNow s _ _).trans (gaveWay_touchL2 ..)).trans (gaveWay_recall ..)

/-! ## Claims (R220) -/

theorem claims_claim (core id line n : Nat) : ((s.claim core id line).line n).claims =
    (s.line n).claims ++ if n = line then [(id, s.nextId)] else [] := by
  have way := (gaveWay_drainNow s (some core) line).trans (gaveWay_invalidate _ none line 0xFFFFFFFF#32)
  rw [State.claim, State.line_fresh, State.line_modLine]
  split
  · next here => simp only [way.claims, here]
  · rw [way.claims, List.append_nil]

theorem mem_claims_claim (core id line : Nat) : (id, s.nextId) ∈ ((s.claim core id line).line line).claims := by
  rw [claims_claim, if_pos rfl]
  simp

theorem claim_sameMemory (core id line : Nat) : SameMemory s (s.claim core id line) := by
  intro a
  rw [(claimed_claim s core id line).machine]
  rfl

/-- A claim stands among its line's claims, and no line loses one. -/
theorem claims_foldl_claim (core id : Nat) (ls : List Nat) (n : Nat) :
    (s.line n).claims ⊆ ((ls.foldl (fun t l => t.claim core id l) s).line n).claims ∧
      (n ∈ ls → ∃ p, (id, p) ∈ ((ls.foldl (fun t l => t.claim core id l) s).line n).claims) := by
  induction ls generalizing s with
  | nil => exact ⟨List.Subset.refl _, by simp⟩
  | cons l ls ih =>
    obtain ⟨keeps, makes⟩ := ih (s.claim core id l)
    rw [claims_claim] at keeps
    refine ⟨fun y hy => keeps (List.mem_append_left _ hy), fun hn => ?_⟩
    rcases List.mem_cons.1 hn with rfl | rest
    · exact ⟨s.nextId, keeps (by simp)⟩
    · exact makes rest

end

end Sys2Proof.Machine
end

section
/-! SUPPORT. The probe of a copy word (R253): its trap, and the commands that enter the Skidder with their claims (R254). -/

namespace Sys2Proof.Machine

/-! ## Commands enter the Skidder (R252, R254) -/

/-- Commands new have entered the Skidder of a core and count into fold n of team tk: copies moved, claims were made, and nothing
else has changed. -/
structure Entered (core tk n : Nat) (s t : State) (new : List Cmd) : Prop where
  machine : t = { s with warps := t.warps, cores := t.cores, lines := t.lines, teams := t.teams, nextId := t.nextId }
  warps : ∀ y, t.warp y = { s.warp y with monitor := (t.warp y).monitor }
  infl : (t.fold tk n).infl = (s.fold tk n).infl + BitVec.ofNat 8 new.length
  cmds : (t.core core).cmds = (s.core core).cmds ++ new
  grow : ∀ l, (s.line l).claims ⊆ (t.line l).claims
  claimed : ∀ x ∈ new, ∀ l ∈ x.claims, l ∉ x.late → ∃ p, (x.id, p) ∈ (t.line l).claims

theorem Entered.cur {core tk n : Nat} {s t : State} {new : List Cmd} (h : Entered core tk n s t new) : t.cur = s.cur := by
  rw [h.machine]

theorem Entered.sameMemory {core tk n : Nat} {s t : State} {new : List Cmd} (h : Entered core tk n s t new) : SameMemory s t := by
  intro a
  rw [h.machine]
  rfl

theorem Entered.me {core tk n : Nat} {s t : State} {new : List Cmd} (h : Entered core tk n s t new) :
    t.me = { s.me with monitor := t.me.monitor } := by
  have := h.warps s.cur
  rw [State.me, h.cur]
  exact this

theorem Entered.refl (core tk n : Nat) (s : State) : Entered core tk n s s [] :=
  ⟨rfl, fun _ => rfl, (BitVec.add_zero _).symm, (List.append_nil _).symm, fun _ => List.Subset.refl _, by simp⟩

theorem Entered.trans {core tk n : Nat} {s t u : State} {xs ys : List Cmd} (h : Entered core tk n s t xs)
    (g : Entered core tk n t u ys) : Entered core tk n s u (xs ++ ys) := by
  refine ⟨?_, fun y => ?_, ?_, ?_, fun l => List.Subset.trans (h.grow l) (g.grow l), fun x hx l claim made => ?_⟩
  · have := g.machine; rw [h.machine] at this; rw [this]
  · have := g.warps y; rw [h.warps y] at this; rw [this]
  · rw [g.infl, h.infl, List.length_append, BitVec.ofNat_add, BitVec.add_assoc]
  · rw [g.cmds, h.cmds, List.append_assoc]
  · rcases List.mem_append.1 hx with hx | hx
    · obtain ⟨p, hp⟩ := h.claimed x hx l claim made
      exact ⟨p, g.grow l hp⟩
    · exact g.claimed x hx l claim made

section
variable (core slot tk word n hint swz : Nat) (mc : Option (List Nat))

/-- The command that enters for pieces and lines p. -/
def State.newCmd (s : State) (p : List Piece × List Nat) : Cmd :=
  { id := s.nextId, word, team := tk, slot, fold := n, pieces := p.1, claims := distinct p.2
    late := if s.behindWord core slot tk n word then distinct p.2 else s.lateLines core s.nextId (distinct p.2) (unreadOf p.1)
    hint, swz, mcast := mc }

theorem addCommand_entered (s : State) (p : List Piece × List Nat) : Entered core tk n s
    (s.addCommand core slot tk word n hint swz mc p) [s.newCmd core slot tk word n hint swz mc p] := by
  let x := s.newCmd core slot tk word n hint swz mc p
  let u := (s.fresh.modFold tk n fun y => { y with infl := y.infl + 1#8 }).modCore core fun c => { c with cmds := c.cmds ++ [x] }
  let now := x.claims.filter fun l => !x.late.contains l
  have run : s.addCommand core slot tk word n hint swz mc p = now.foldl (fun t l => t.claim core x.id l) u := rfl
  have moved := Claimed.foldl (fun t l => t.claim core x.id l) (fun t l => claimed_claim t core x.id l) now u
  have claims := claims_foldl_claim u core x.id now
  rw [run]
  refine ⟨?_, moved.warps, ?_, ?_, fun l => (claims l).1, fun y hy l claim made => ?_⟩
  · have := moved.machine
    rw [this]
    rfl
  · have teams : (now.foldl (fun t l => t.claim core x.id l) u).fold tk n = u.fold tk n := by
      rw [moved.machine]
      rfl
    rw [teams]
    exact congrArg Fold.infl (State.fold_modFold_same ..)
  · rw [moved.cores core]
    exact congrArg Core.cmds (State.core_modCore_same ..)
  · obtain rfl := List.mem_singleton.1 hy
    exact (claims l).2 (List.mem_filter.2 ⟨claim, by simpa using made⟩)

/-- The commands of a word enter one after another. -/
theorem addCommands_entered (ps : List (List Piece × List Nat)) (s : State) : ∃ new,
    Entered core tk n s (ps.foldl (fun t p => t.addCommand core slot tk word n hint swz mc p) s) new ∧
    new.map (fun x => (x.pieces, x.claims)) = ps.map (fun p => (p.1, distinct p.2)) ∧
    ∀ x ∈ new, x.word = word ∧ x.slot = slot ∧ x.team = tk ∧ x.fold = n ∧ x.hint = hint ∧ x.swz = swz ∧ x.mcast = mc := by
  induction ps generalizing s with
  | nil => exact ⟨[], .refl .., rfl, by simp⟩
  | cons p ps ih =>
    obtain ⟨new, entered, pieces, fields⟩ := ih (s.addCommand core slot tk word n hint swz mc p)
    refine ⟨_ :: new, (addCommand_entered core slot tk word n hint swz mc s p).trans entered, ?_, ?_⟩
    · rw [List.map_cons, List.map_cons, pieces]
      rfl
    · rintro x (_ | ⟨_, hx⟩)
      · exact ⟨rfl, rfl, rfl, rfl, rfl, rfl, rfl⟩
      · exact fields x hx

end

/-! ## PROBE_COMPLETE (R253) -/

theorem keyCore_warpKey (core : Nat) {slot : Nat} (small : slot < 64) : keyCore (warpKey core slot) = core := by
  unfold keyCore warpKey; omega

theorem keySlot_warpKey (core : Nat) {slot : Nat} (small : slot < 64) : keySlot (warpKey core slot) = slot := by
  unfold keySlot warpKey; omega

/-- The state as the warp in a slot sees it. -/
def State.atSlot (s : State) (core slot : Nat) : State := { s with cur := warpKey core slot }

/-- The warp in a slot probes for its captured word c, and nothing holds back its index reads. -/
structure Probing (s : State) (core slot : Nat) (c : Captured) : Prop where
  small : slot < 64
  word : (s.atSlot core slot).me.req = some c
  status : (s.atSlot core slot).me.status = .probing
  unfrozen : (s.atSlot core slot).me.frozen = none
  reads : ∀ l ∈ (s.atSlot core slot).indexLines (s.atSlot core slot).me c,
    (s.atSlot core slot).readWaits core (s.atSlot core slot).nextId l = false

/-- The warp in a slot after it has read its indices. -/
def State.indicesRead (s : State) (core slot : Nat) (c : Captured) : State :=
  let u := s.atSlot core slot
  (u.indexLines u.me c).foldl (fun t l => t.engineRead u.me.ctx core 3 (l * 128) 128) u

section
variable {s : State} {core slot : Nat} {c : Captured}

theorem gaveWay_indicesRead : GaveWay (s.atSlot core slot) (s.indicesRead core slot c) :=
  .foldl _ (fun t l => gaveWay_engineRead t _ core 3 (l * 128) 128) _ _

theorem exec_probeComplete (probing : Probing s core slot c) : exec (.probeComplete core slot) s =
    .next ((s.indicesRead core slot c).probed c ((s.atSlot core slot).probe (s.atSlot core slot).me c)) := by
  obtain ⟨-, word, status, unfrozen, reads⟩ := probing
  have free : ((s.atSlot core slot).indexLines (s.atSlot core slot).me c).any
      ((s.atSlot core slot).readWaits core (s.atSlot core slot).nextId) = false :=
    List.any_eq_false.2 fun l hl => by simp [reads l hl]
  unfold State.atSlot at *
  rw [exec, execProbeComplete]
  simp only [word, status, unfrozen, free, ne_eq, not_true_eq_false, Bool.false_eq_true, or_self, if_false]
  rfl

variable {r : List (Nat × Except Fail (List Piece × List Nat)) × Option (List Nat)}

theorem probed_trapped {v : State} {x : Trp} (trap : probeTrap c.exec (failures r.1) = some x) : v.probed c r = v.takeTrap x := by
  simp only [State.probed, trap]

/-- The state after every command of the word has entered the Skidder. -/
def State.commandsIn (v : State) (c : Captured) (r : List (Nat × Except Fail (List Piece × List Nat)) × Option (List Nat)) :
    State :=
  let x := copyFields c.instr
  (commandsOf c.instr (successes r.1)).foldl (fun t p =>
    t.addCommand (keyCore v.cur) (keySlot v.cur) v.me.teamKey v.nextId x.1 x.2.1 x.2.2 r.2 p) v

theorem commandsIn_entered {v : State} (small : slot < 64) (moved : CopiesMoved (s.atSlot core slot) v) : ∃ new,
    Entered core (s.atSlot core slot).me.teamKey (copyFields c.instr).1 v (v.commandsIn c r) new ∧
    new.map (fun x => (x.pieces, x.claims)) = (commandsOf c.instr (successes r.1)).map (fun p => (p.1, distinct p.2)) ∧
    ∀ x ∈ new, x.word = s.nextId ∧ x.slot = slot ∧ x.team = (s.atSlot core slot).me.teamKey ∧ x.fold = (copyFields c.instr).1 ∧
      x.hint = (copyFields c.instr).2.1 ∧ x.swz = (copyFields c.instr).2.2 ∧ x.mcast = r.2 := by
  have at' : keyCore v.cur = core ∧ keySlot v.cur = slot := by
    rw [moved.cur]
    exact ⟨keyCore_warpKey core small, keySlot_warpKey core small⟩
  have team : v.me.teamKey = (s.atSlot core slot).me.teamKey := by rw [moved.me]; rfl
  have word : v.nextId = s.nextId := moved.nextId
  have run := addCommands_entered core slot v.me.teamKey v.nextId (copyFields c.instr).1 (copyFields c.instr).2.1
    (copyFields c.instr).2.2 r.2 (commandsOf c.instr (successes r.1)) v
  simp only [State.commandsIn, at'.1, at'.2]
  rw [team, word] at *
  exact run

theorem probed_succeeded {v : State} (all : failures r.1 = []) (named : (v.fold v.me.teamKey (copyFields c.instr).1).state ≠ 0#2) :
    v.probed c r = (v.commandsIn c r).modMe fun w => w.leaveEngine c.ctl.sw := by
  have none : probeTrap c.exec (failures r.1) = none := by rw [all]; rfl
  simp only [State.probed, none, named, if_false]
  rfl

end

section
variable {s : State} {core slot : Nat} {c : Captured} (probing : Probing s core slot c)
include probing

/-- A probe that fails traps the word, whose index reads moved copies alone. -/
theorem Probing.trap {x : Trp}
    (trap : probeTrap c.exec (failures ((s.atSlot core slot).probe (s.atSlot core slot).me c).1) = some x)
    (user : (s.atSlot core slot).me.priv = false) : ∃ t, exec (.probeComplete core slot) s = .next t ∧
      ∃ v, CopiesMoved (s.atSlot core slot) v ∧ Trapped v t x (s.atSlot core slot).me.pc false := by
  have moved : CopiesMoved (s.atSlot core slot) (s.indicesRead core slot c) := gaveWay_indicesRead.moved
  have kept : (s.indicesRead core slot c).me.priv = (s.atSlot core slot).me.priv ∧
      (s.indicesRead core slot c).me.pc = (s.atSlot core slot).me.pc := by
    rw [moved.me]
    exact ⟨rfl, rfl⟩
  refine ⟨_, exec_probeComplete probing, _, moved, ?_⟩
  rw [probed_trapped trap, ← kept.2]
  exact takeTrap_trapped (kept.1.trans user) x

/-- The state after a probe that succeeds, and the commands of its word. -/
theorem Probing.enters (all : failures ((s.atSlot core slot).probe (s.atSlot core slot).me c).1 = [])
    (named : ((s.atSlot core slot).fold (s.atSlot core slot).me.teamKey (copyFields c.instr).1).state ≠ 0#2) :
    let u := s.atSlot core slot
    let r := u.probe u.me c
    ∃ w new, exec (.probeComplete core slot) s = .next (w.modMe fun w => w.leaveEngine c.ctl.sw) ∧
      Entered core u.me.teamKey (copyFields c.instr).1 (s.indicesRead core slot c) w new ∧
      new.map (fun x => (x.pieces, x.claims)) = (commandsOf c.instr (successes r.1)).map (fun p => (p.1, distinct p.2)) ∧
      ∀ x ∈ new, x.word = s.nextId ∧ x.slot = slot ∧ x.team = u.me.teamKey ∧ x.fold = (copyFields c.instr).1 ∧
        x.hint = (copyFields c.instr).2.1 ∧ x.swz = (copyFields c.instr).2.2 ∧ x.mcast = r.2 := by
  have moved : CopiesMoved (s.atSlot core slot) (s.indicesRead core slot c) := gaveWay_indicesRead.moved
  have team : (s.indicesRead core slot c).me.teamKey = (s.atSlot core slot).me.teamKey := by rw [moved.me]; rfl
  obtain ⟨new, entered⟩ := commandsIn_entered (c := c) (r := (s.atSlot core slot).probe (s.atSlot core slot).me c) probing.small moved
  refine ⟨_, new, ?_, entered⟩
  rw [exec_probeComplete probing, probed_succeeded all (by rwa [team, moved.fold])]

end

end Sys2Proof.Machine
end

section
/-! SUPPORT. What a landing books (R254, R258, R263, R267): folds, claims and the Skidder's commands. -/

namespace Sys2Proof.Machine

/-! ## Bookkeeping -/

/-- Only commands, folds and claims have changed, and no line has a claim that it did not have. -/
structure Booked (s t : State) : Prop where
  machine : t = { s with cores := t.cores, lines := t.lines, teams := t.teams }
  lines : ∀ n, t.line n = { s.line n with claims := (t.line n).claims }
  claims : ∀ n, (t.line n).claims ⊆ (s.line n).claims
  teams : ∀ y, t.team y = { s.team y with folds := (t.team y).folds }

theorem Booked.refl (s : State) : Booked s s := ⟨rfl, fun _ => rfl, fun _ => List.Subset.refl _, fun _ => rfl⟩

theorem Booked.trans {s t u : State} (h : Booked s t) (g : Booked t u) : Booked s u := by
  refine ⟨?_, fun n => ?_, fun n => List.Subset.trans (g.claims n) (h.claims n), fun y => ?_⟩
  · have := g.machine; rw [h.machine] at this; rw [this]
  · have := g.lines n; rw [h.lines n] at this; rw [this]
  · have := g.teams y; rw [h.teams y] at this; rw [this]

theorem Booked.foldl {α : Type} (g : State → α → State) (hg : ∀ s x, Booked s (g s x)) (xs : List α) (s : State) :
    Booked s (xs.foldl g s) := by
  induction xs generalizing s with
  | nil => exact .refl s
  | cons x xs ih => exact (hg s x).trans (ih _)

theorem Booked.sameMemory {s t : State} (h : Booked s t) : SameMemory s t := by
  intro a
  rw [h.machine]
  rfl

theorem Booked.scratch {s t : State} (h : Booked s t) (y : Nat) : (t.team y).scratch = (s.team y).scratch := by rw [h.teams y]

theorem Booked.swz {s t : State} (h : Booked s t) (n : Nat) : (t.line n).swz = (s.line n).swz := by rw [h.lines n]

section
variable (s : State)

theorem booked_modFold (tk n : Nat) (g : Fold → Fold) : Booked s (s.modFold tk n g) := by
  refine ⟨rfl, fun _ => rfl, fun _ => List.Subset.refl _, fun y => ?_⟩
  rw [State.team_modFold]
  split
  · next here => rw [here]
  · rfl

theorem booked_modCore (core : Nat) (g : Core → Core) : Booked s (s.modCore core g) :=
  ⟨rfl, fun _ => rfl, fun _ => List.Subset.refl _, fun _ => rfl⟩

theorem booked_modCmd (core id : Nat) (g : Cmd → Cmd) : Booked s (s.modCmd core id g) := booked_modCore s core _

/-- A line without the claims of a command. -/
def Line.released (x : Line) (id : Nat) : Line := { x with claims := x.claims.filter fun y => y.1 != id }

theorem booked_release (id l : Nat) : Booked s (s.modLine l fun x => x.released id) := by
  refine ⟨rfl, fun n => ?_, fun n => ?_, fun _ => rfl⟩ <;> rw [State.line_modLine] <;> split
  · next here => rw [here]; rfl
  · rfl
  · next here => rw [here]; exact List.filter_subset_self _
  · exact List.Subset.refl _

theorem booked_releaseClaims (id : Nat) (ls : List Nat) : Booked s (s.releaseClaims id ls) :=
  .foldl _ (fun t l => booked_release t id l) ls s

/-- A command has no claim left on a line whose claims it has released. -/
theorem claims_releaseClaims (id l : Nat) : ∀ y ∈ ((s.releaseClaims id [l]).line l).claims, y.1 ≠ id := by
  have line : (s.releaseClaims id [l]).line l = (s.line l).released id :=
    State.line_modLine_same s l fun x => x.released id
  rw [line]
  intro y hy
  simpa using (List.mem_filter.1 hy).2

theorem booked_dropCmd (core : Nat) (c : Cmd) : Booked s (s.dropCmd core c) :=
  ((booked_modCore s core _).trans (booked_releaseClaims _ c.id c.claims)).trans (booked_modFold ..)

theorem booked_failCmd (core : Nat) (c : Cmd) (code : BitVec 3) : Booked s (s.failCmd core c code) :=
  ((booked_dropCmd s core c).trans (booked_modFold ..)).trans
    (.foldl _ (fun t (d : Nat × Nat × Nat) => booked_modFold t d.2.1 d.2.2 _) _ _)

/-- The line of a piece that has landed is released where no other piece of the command writes it. -/
def State.releaseLine (s : State) (c : Cmd) (p : Piece) (rest : List Piece) : State :=
  match p.dstLine with
  | some l => if rest.any fun q => q.dstLine == some l then s else s.releaseClaims c.id [l]
  | none => s

/-- The folds of a piece that has landed count it. -/
def State.countIn (s : State) (c : Cmd) (p : Piece) (rest : List Piece) : State :=
  match p.dest with
  | none => s.modFold c.team c.fold fun y => y.land p.n (if p.row.isSome && !rest.any (fun q => q.row == p.row) then 1 else 0)
  | some d =>
    let t := s.modFold d.2.1 d.2.2 fun y => y.land p.n 0
    if rest.any fun q => q.dest == some d then t
    else
      (t.modFold d.2.1 d.2.2 fun y => { y with infl := y.infl - 1#8 }).modFold c.team c.fold fun y =>
        y.land ((c.mcast.getD []).getD 0 0) 0

/-- A command that has no piece left is complete. -/
def State.endCmd (s : State) (core : Nat) (c : Cmd) (rest : List Piece) : State := if rest = [] then s.dropCmd core c else s

section
variable (core : Nat) (c : Cmd) (p : Piece) (rest : List Piece)

theorem countPiece_eq : s.countPiece core c p rest =
    (((s.modCmd core c.id fun x => { x with pieces := rest }).releaseLine c p rest).countIn c p rest).endCmd core c rest := rfl

theorem booked_releaseLine : Booked s (s.releaseLine c p rest) := by
  unfold State.releaseLine
  split
  · split
    · exact .refl s
    · exact booked_releaseClaims ..
  · exact .refl s

theorem booked_countIn : Booked s (s.countIn c p rest) := by
  unfold State.countIn
  split
  · exact booked_modFold ..
  · dsimp only
    split
    · exact booked_modFold ..
    · exact ((booked_modFold ..).trans (booked_modFold ..)).trans (booked_modFold ..)

theorem booked_endCmd : Booked s (s.endCmd core c rest) := by
  unfold State.endCmd
  split
  · exact booked_dropCmd ..
  · exact .refl s

theorem booked_countPiece : Booked s (s.countPiece core c p rest) :=
  (((booked_modCmd ..).trans (booked_releaseLine ..)).trans (booked_countIn ..)).trans (booked_endCmd ..)

/-- The last piece of a line frees the command's claim on it (R254). -/
theorem countPiece_frees {l : Nat} (writes : p.dstLine = some l) (last : ∀ q ∈ rest, q.dstLine ≠ some l) :
    ∀ y ∈ ((s.countPiece core c p rest).line l).claims, y.1 ≠ c.id := by
  intro y hy
  have none : (rest.any fun q => q.dstLine == some l) = false := by simpa using last
  let u := s.modCmd core c.id fun x => { x with pieces := rest }
  have released : u.releaseLine c p rest = u.releaseClaims c.id [l] := by
    simp only [State.releaseLine, writes, none, Bool.false_eq_true, if_false]
  rw [countPiece_eq, released] at hy
  exact claims_releaseClaims _ c.id l y (((booked_countIn ..).trans (booked_endCmd ..)).claims l hy)

end

end

/-! ## The Skidder's commands -/

section
variable (s : State) (core : Nat) (c : Cmd)

theorem cmds_modCmd (id : Nat) (g : Cmd → Cmd) : ((s.modCmd core id g).core core).cmds =
    (s.core core).cmds.map fun x => if x.id = id then g x else x := congrArg Core.cmds (State.core_modCore_same ..)

/-- A command that has just claimed a line is late with it no more. -/
theorem claim_late (id line : Nat) : ∀ x ∈ (((s.claim core id line).modCmd core id fun x =>
    { x with late := x.late.filter fun l => l != line }).core core).cmds, x.id = id → line ∉ x.late := by
  rw [cmds_modCmd]
  intro x hx named
  obtain ⟨y, -, rfl⟩ := List.mem_map.1 hx
  by_cases here : y.id = id
  · rw [if_pos here]
    simp
  · rw [if_neg here] at named
    exact absurd named here

theorem fold_modCmd (id : Nat) (g : Cmd → Cmd) (tk n : Nat) : (s.modCmd core id g).fold tk n = s.fold tk n := rfl

theorem State.core_releaseClaims (id : Nat) (ls : List Nat) (n : Nat) : (s.releaseClaims id ls).core n = s.core n := by
  induction ls generalizing s with
  | nil => rfl
  | cons l ls ih => exact ih (s.modLine l _)

theorem State.fold_releaseClaims (id : Nat) (ls : List Nat) (tk n : Nat) : (s.releaseClaims id ls).fold tk n = s.fold tk n := by
  induction ls generalizing s with
  | nil => rfl
  | cons l ls ih => exact ih (s.modLine l _)

theorem cmds_dropCmd : ∀ x ∈ ((s.dropCmd core c).core core).cmds, x.id ≠ c.id := by
  have cmds : ((s.dropCmd core c).core core).cmds = (s.core core).cmds.filter fun y => y.id != c.id := by
    let u := s.modCore core fun x => { x with cmds := x.cmds.filter fun y => y.id != c.id }
    exact (congrArg Core.cmds (u.core_releaseClaims c.id c.claims core)).trans (congrArg Core.cmds (State.core_modCore_same ..))
  rw [cmds]
  intro x hx
  simpa using (List.mem_filter.1 hx).2

theorem fold_dropCmd (tk n : Nat) : (s.dropCmd core c).fold tk n =
    if tk = c.team ∧ n = c.fold then { s.fold c.team c.fold with infl := (s.fold c.team c.fold).infl - 1#8 } else s.fold tk n := by
  let u := (s.modCore core fun x => { x with cmds := x.cmds.filter fun y => y.id != c.id }).releaseClaims c.id c.claims
  have kept (tk n : Nat) : u.fold tk n = s.fold tk n := State.fold_releaseClaims ..
  rw [← kept tk n, ← kept c.team c.fold]
  exact State.fold_modFold ..

theorem fold_releaseLine (p : Piece) (rest : List Piece) (tk n : Nat) : (s.releaseLine c p rest).fold tk n = s.fold tk n := by
  unfold State.releaseLine
  split
  · split
    · rfl
    · exact s.fold_releaseClaims ..
  · rfl

end

/-! ## What a landing counts (R258) -/

section
variable (x : Fold) (b r : Nat)

theorem Fold.settle_counts : x.settle.arrb = x.arrb ∧ x.settle.infl = x.infl ∧ x.settle.miss = x.miss := by
  unfold Fold.settle
  split
  · exact ⟨rfl, rfl, rfl⟩
  · exact ⟨rfl, rfl, rfl⟩

theorem Fold.fail_counts (code : BitVec 3) : (x.fail code).infl = x.infl ∧ (x.fail code).miss = x.miss := by
  unfold Fold.fail
  split
  · exact ⟨rfl, rfl⟩
  · exact ⟨rfl, rfl⟩

/-- Bytes that land are counted in ARRB, and in no other number of the fold but ARRR. -/
theorem Fold.land_counts : (x.land b r).arrb = x.arrb + BitVec.ofNat 32 b ∧ (x.land b r).infl = x.infl ∧
    (x.land b r).miss = x.miss := by
  unfold Fold.land
  dsimp only
  obtain ⟨arrb, infl, miss⟩ := Fold.settle_counts { (if x.state = 2#2 ∨ x.state = 3#2 ∨ (x.armb ∧ x.expb.toNat < x.arrb.toNat + b) ∨
    (x.armr ∧ x.expr.toNat < x.arrr.toNat + r) then x.fail 2#3 else x) with
      arrb := BitVec.ofNat 32 (x.arrb.toNat + b), arrr := BitVec.ofNat 32 (x.arrr.toNat + r) }
  refine ⟨arrb.trans ?_, infl.trans ?_, miss.trans ?_⟩
  · simp [BitVec.ofNat_add]
  · dsimp only
    split
    · exact (x.fail_counts _).1
    · rfl
  · dsimp only
    split
    · exact (x.fail_counts _).2
    · rfl

end

section
variable (s : State) (tk n a m : Nat)

theorem arrb_modFold_land (b r : Nat) : ((s.modFold tk n fun y => y.land b r).fold a m).arrb =
    (s.fold a m).arrb + if a = tk ∧ m = n then BitVec.ofNat 32 b else 0#32 := by
  rw [State.fold_modFold]
  split
  · next here => rw [here.1, here.2, (Fold.land_counts ..).1]
  · rw [BitVec.add_zero]

theorem infl_modFold_land (b r : Nat) : ((s.modFold tk n fun y => y.land b r).fold a m).infl = (s.fold a m).infl := by
  rw [State.fold_modFold]
  split
  · next here => rw [here.1, here.2, (Fold.land_counts ..).2.1]
  · rfl

theorem arrb_modFold_infl (g : Byte → Byte) :
    ((s.modFold tk n fun y => { y with infl := g y.infl }).fold a m).arrb = (s.fold a m).arrb := by
  rw [State.fold_modFold]
  split
  · next here => rw [here.1, here.2]
  · rfl

theorem infl_modFold_done : ((s.modFold tk n fun y => { y with infl := y.infl - 1#8 }).fold a m).infl =
    (s.fold a m).infl - if a = tk ∧ m = n then 1#8 else 0#8 := by
  rw [State.fold_modFold]
  split
  · next here => rw [here.1, here.2]
  · rw [BitVec.sub_zero]

variable (core : Nat) (c : Cmd) (rest : List Piece)

theorem arrb_endCmd : ((s.endCmd core c rest).fold a m).arrb = (s.fold a m).arrb := by
  unfold State.endCmd
  split
  · rw [fold_dropCmd]
    split
    · next here => rw [here.1, here.2]
    · rfl
  · rfl

theorem infl_endCmd : ((s.endCmd core c rest).fold a m).infl =
    (s.fold a m).infl - if rest = [] ∧ a = c.team ∧ m = c.fold then 1#8 else 0#8 := by
  unfold State.endCmd
  by_cases last : rest = []
  · rw [if_pos last, fold_dropCmd]
    split
    · next here => simp [last, here]
    · next other => rw [if_neg fun h => other h.2, BitVec.sub_zero]
  · rw [if_neg last, if_neg fun h => last h.1, BitVec.sub_zero]

/-- A piece of a plain command counts its bytes in the command's fold. -/
theorem countPiece_counts {p : Piece} (plain : p.dest = none) : ((s.countPiece core c p rest).fold c.team c.fold).arrb =
    (s.fold c.team c.fold).arrb + BitVec.ofNat 32 p.n := by
  rw [countPiece_eq, arrb_endCmd]
  simp only [State.countIn, plain]
  rw [arrb_modFold_land, if_pos ⟨rfl, rfl⟩, fold_releaseLine]
  rfl

/-- A piece of a multicast counts its bytes in its destination's fold, and the last piece of a destination the whole size in the
issuing fold (R267). -/
theorem countPiece_multicast {p : Piece} {d : Nat × Nat × Nat} {vs : List Nat} (dest : p.dest = some d) (names : c.mcast = some vs) :
    let t := s.countPiece core c p rest
    let last := rest.all fun q => q.dest != some d
    (t.fold a m).arrb = (s.fold a m).arrb + (if a = d.2.1 ∧ m = d.2.2 then BitVec.ofNat 32 p.n else 0#32) +
        (if last = true ∧ a = c.team ∧ m = c.fold then BitVec.ofNat 32 (vs.getD 0 0) else 0#32) ∧
      (t.fold a m).infl = (s.fold a m).infl - (if last = true ∧ a = d.2.1 ∧ m = d.2.2 then 1#8 else 0#8) -
        (if rest = [] ∧ a = c.team ∧ m = c.fold then 1#8 else 0#8) := by
  dsimp only
  let u := (s.modCmd core c.id fun x => { x with pieces := rest }).releaseLine c p rest
  have kept : u.fold a m = s.fold a m := fold_releaseLine ..
  have counts : ((u.countIn c p rest).fold a m).arrb = (u.fold a m).arrb +
        (if a = d.2.1 ∧ m = d.2.2 then BitVec.ofNat 32 p.n else 0#32) +
        (if (rest.all fun q => q.dest != some d) = true ∧ a = c.team ∧ m = c.fold then BitVec.ofNat 32 (vs.getD 0 0) else 0#32) ∧
      ((u.countIn c p rest).fold a m).infl =
        (u.fold a m).infl - (if (rest.all fun q => q.dest != some d) = true ∧ a = d.2.1 ∧ m = d.2.2 then 1#8 else 0#8) := by
    have any : (rest.any fun q => q.dest == some d) = !(rest.all fun q => q.dest != some d) := by
      rw [List.any_eq_not_all_not]
      rfl
    simp only [State.countIn, dest, names, any]
    cases (rest.all fun q => q.dest != some d)
    · simp [arrb_modFold_land, infl_modFold_land]
    · simp [arrb_modFold_land, infl_modFold_land, arrb_modFold_infl _ _ _ _ _ (· - 1#8), infl_modFold_done]
  rw [countPiece_eq, arrb_endCmd, infl_endCmd, ← kept]
  exact ⟨counts.1, congrArg (· - _) counts.2⟩

end

/-! ## A command that fails (R263) -/

section
variable (s : State) (core : Nat) (c : Cmd) (code : BitVec 3)

/-- The destinations known so far, with that of a further piece. -/
def Piece.addDest (p : Piece) (ds : List (Nat × Nat × Nat)) : List (Nat × Nat × Nat) :=
  match p.dest with
  | some d => if ds.contains d then ds else ds ++ [d]
  | none => ds

theorem Cmd.dests_eq : c.dests = c.pieces.foldl (fun ds p => p.addDest ds) [] := rfl

theorem Piece.mem_addDest (p : Piece) (ds : List (Nat × Nat × Nat)) (d : Nat × Nat × Nat) :
    d ∈ p.addDest ds ↔ d ∈ ds ∨ p.dest = some d := by
  unfold Piece.addDest
  cases p.dest with
  | none => simp
  | some e =>
    by_cases known : e ∈ ds
    · simp only [List.contains_eq_mem, known, decide_true, if_true]
      exact ⟨.inl, fun h => h.elim id fun same => Option.some.inj same ▸ known⟩
    · simp only [List.contains_eq_mem, known, decide_false, Bool.false_eq_true, if_false, List.mem_append, List.mem_singleton,
        Option.some.injEq, eq_comm (a := e)]

theorem mem_foldl_addDest (ps : List Piece) (ds : List (Nat × Nat × Nat)) (d : Nat × Nat × Nat) :
    d ∈ ps.foldl (fun ds p => p.addDest ds) ds ↔ d ∈ ds ∨ ∃ p ∈ ps, p.dest = some d := by
  induction ps generalizing ds with
  | nil => simp
  | cons p ps ih => rw [List.foldl_cons, ih, p.mem_addDest, or_assoc, List.exists_mem_cons_iff]

theorem Cmd.mem_dests {d : Nat × Nat × Nat} : d ∈ c.dests ↔ ∃ p ∈ c.pieces, p.dest = some d := by
  rw [c.dests_eq, mem_foldl_addDest]
  simp

theorem Cmd.dests_eq_nil (plain : ∀ p ∈ c.pieces, p.dest = none) : c.dests = [] :=
  List.eq_nil_iff_forall_not_mem.2 fun d hd => by
    obtain ⟨p, hp, dest⟩ := c.mem_dests.1 hd
    rw [plain p hp] at dest
    cases dest

/-- What a failure makes of a destination's fold. -/
def Fold.failed (x : Fold) (code : BitVec 3) : Fold := { x.fail code with infl := x.infl - 1#8 }

theorem Fold.fail_err_ne_zero (x : Fold) {code : BitVec 3} (nonzero : code ≠ 0#3) : (x.fail code).err ≠ 0#3 := by
  unfold Fold.fail
  split
  · exact nonzero
  · assumption

/-- Folds that fail have an error, and no fold loses one. -/
theorem err_foldl_failed {code : BitVec 3} (nonzero : code ≠ 0#3) (ds : List (Nat × Nat × Nat)) (tk n : Nat)
    (bad : (s.fold tk n).err ≠ 0#3 ∨ ∃ d ∈ ds, d.2.1 = tk ∧ d.2.2 = n) :
    ((ds.foldl (fun t d => t.modFold d.2.1 d.2.2 fun y => y.failed code) s).fold tk n).err ≠ 0#3 := by
  induction ds generalizing s with
  | nil => simpa using bad
  | cons d ds ih =>
    refine ih _ ?_
    by_cases here : tk = d.2.1 ∧ n = d.2.2
    · left
      rw [State.fold_modFold, if_pos here]
      exact Fold.fail_err_ne_zero _ nonzero
    · rw [State.fold_modFold, if_neg here]
      refine bad.imp_right ?_
      rintro ⟨e, he, rfl, rfl⟩
      rcases List.mem_cons.1 he with rfl | he
      · exact absurd ⟨rfl, rfl⟩ here
      · exact ⟨e, he, rfl, rfl⟩

/-- The state of a failed command before its destinations' folds fail with it. -/
def State.dropFailed : State := (s.dropCmd core c).modFold c.team c.fold fun y => y.fail code

theorem failCmd_eq : s.failCmd core c code = c.dests.foldl (fun t d => t.modFold d.2.1 d.2.2 fun y => y.failed code)
    (s.dropFailed core c code) := rfl

theorem State.core_foldl_modFold (ds : List (Nat × Nat × Nat)) (g : Fold → Fold) (n : Nat) :
    (ds.foldl (fun t d => t.modFold d.2.1 d.2.2 g) s).core n = s.core n := by
  induction ds generalizing s with
  | nil => rfl
  | cons d ds ih => exact ih _

theorem cmds_failCmd : ∀ x ∈ ((s.failCmd core c code).core core).cmds, x.id ≠ c.id := by
  have cores : (s.failCmd core c code).core core = (s.dropCmd core c).core core :=
    State.core_foldl_modFold (s.dropFailed core c code) c.dests _ core
  rw [cores]
  exact cmds_dropCmd s core c

theorem fold_dropFailed : (s.dropFailed core c code).fold c.team c.fold =
    ({ s.fold c.team c.fold with infl := (s.fold c.team c.fold).infl - 1#8 } : Fold).fail code := by
  rw [State.dropFailed, State.fold_modFold_same, fold_dropCmd, if_pos ⟨rfl, rfl⟩]

/-- A plain command's failure is its fold's error, unless that has one already. -/
theorem failCmd_plain (plain : ∀ p ∈ c.pieces, p.dest = none) : ((s.failCmd core c code).fold c.team c.fold).err =
      (if (s.fold c.team c.fold).err = 0#3 then code else (s.fold c.team c.fold).err) ∧
    ((s.failCmd core c code).fold c.team c.fold).infl = (s.fold c.team c.fold).infl - 1#8 := by
  rw [failCmd_eq, c.dests_eq_nil plain, List.foldl_nil, fold_dropFailed]
  refine ⟨?_, (Fold.fail_counts _ code).1⟩
  unfold Fold.fail
  split <;> rfl

/-- A multicast's failure is an error of its own fold and of its open destinations' (log 31). -/
theorem failCmd_multicast (nonzero : code ≠ 0#3) : ((s.failCmd core c code).fold c.team c.fold).err ≠ 0#3 ∧
    ∀ p ∈ c.pieces, ∀ d, p.dest = some d → ((s.failCmd core c code).fold d.2.1 d.2.2).err ≠ 0#3 := by
  rw [failCmd_eq]
  refine ⟨err_foldl_failed _ nonzero _ _ _ (.inl ?_), fun p hp d dest => err_foldl_failed _ nonzero _ _ _ (.inr ?_)⟩
  · rw [fold_dropFailed]
    exact Fold.fail_err_ne_zero _ nonzero
  · exact ⟨d, c.mem_dests.2 ⟨p, hp, dest⟩, rfl, rfl⟩

end

end Sys2Proof.Machine
end

section
/-! SUPPORT. SKIDDER_LANDING and MULTICAST_REGISTER (R254, R267): a piece is read or lands, and a multicast's destinations are
registered. -/

namespace Sys2Proof.Machine

/-! ## A piece is read -/

/-- A piece that has the same source as p takes its bytes. -/
def Piece.taking (q p : Piece) (bs : List Byte) : Piece :=
  if q.src = p.src ∧ q.n = p.n ∧ q.got = none then { q with got := some bs } else q

theorem Piece.taking_self {p : Piece} (unread : p.got = none) (bs : List Byte) : (p.taking p bs).got = some bs := by
  rw [Piece.taking, if_pos ⟨rfl, rfl, unread⟩]

theorem Piece.taking_frame (q p : Piece) (bs : List Byte) : (q.taking p bs).src = q.src ∧ (q.taking p bs).n = q.n := by
  unfold Piece.taking
  split
  · exact ⟨rfl, rfl⟩
  · exact ⟨rfl, rfl⟩

theorem Piece.taking_got {q p : Piece} (src : q.src = p.src) (n : q.n = p.n) (bs : List Byte) : (q.taking p bs).got ≠ none := by
  unfold Piece.taking
  split
  · simp
  · next other => exact fun unread => other ⟨src, n, unread⟩

/-- The state after a source has been read. -/
def State.sourceRead (s : State) (core : Nat) (c : Cmd) (p : Piece) : State :=
  match p.src with
  | .mem key => s.engineRead (c.team / 64) core c.hint key p.n
  | .scr .. => s

theorem gaveWay_sourceRead (s : State) (core : Nat) (c : Cmd) (p : Piece) : GaveWay s (s.sourceRead core c p) := by
  unfold State.sourceRead
  split
  · exact gaveWay_engineRead ..
  · exact .refl s

section
variable {s : State} {core : Nat} {c : Cmd} {p : Piece}

theorem readPiece_waits (waits : s.sourceWaits core c.id p.src = true) : s.readPiece core c p = s := if_pos waits

theorem readPiece_reads (free : s.sourceWaits core c.id p.src = false) : s.readPiece core c p =
    (s.sourceRead core c p).modCmd core c.id fun x =>
      { x with pieces := x.pieces.map fun q => q.taking p (s.bytesOf p.src p.n) } :=
  if_neg (by simp [free])

theorem readPiece_sameMemory : SameMemory s (s.readPiece core c p) := by
  cases wait : s.sourceWaits core c.id p.src with
  | true => rw [readPiece_waits wait]; exact fun _ => rfl
  | false => rw [readPiece_reads wait]; exact (gaveWay_sourceRead s core c p).moved.sameMemory

/-- The command stands in the Skidder with every piece of that source read. -/
theorem readPiece_cmd (free : s.sourceWaits core c.id p.src = false) (held : c ∈ (s.core core).cmds) :
    { c with pieces := c.pieces.map fun q => q.taking p (s.bytesOf p.src p.n) } ∈ ((s.readPiece core c p).core core).cmds := by
  rw [readPiece_reads free, cmds_modCmd, (gaveWay_sourceRead s core c p).moved.cmds]
  exact List.mem_map.2 ⟨c, held, if_pos rfl⟩

end

/-! ## A piece lands -/

section
variable {s : State} {c core hint key : Nat} {bs : List Byte}

/-- Copies give way to a write of an engine (R207). -/
def State.wayForWrite (s : State) (c core hint key n : Nat) : State :=
  let line := lineOf key
  (((s.drainNow (some core) line).touchL2 c line (s.servedHint c line hint)).recall none line (spanOf key n)).invalidate none line
    (spanOf key n)

theorem gaveWay_wayForWrite (n : Nat) : GaveWay s (s.wayForWrite c core hint key n) :=
  (((gaveWay_drainNow s _ _).trans (gaveWay_touchL2 ..)).trans (gaveWay_recall ..)).trans (gaveWay_invalidate ..)

/-- Bytes are put, and the Lookout and the monitors see it. -/
def State.bytesPut (s : State) (key : Nat) (bs : List Byte) : State :=
  (((s.putBytes key bs).compareWatches (lineOf key)).fire none (lineOf key)).modLine (lineOf key) fun x =>
    { x with poison := if bs.length = 128 then 0#32 else x.poison, dirty := x.inL2 }

theorem engineWrite_eq (accepted : s.refused c (lineOf key) = false) :
    s.engineWrite c core hint key bs = (s.wayForWrite c core hint key bs.length).bytesPut key bs := by
  unfold State.engineWrite
  dsimp only
  rw [if_neg (by simp [accepted])]
  rfl

theorem bytesPut_mem (u : State) : (u.bytesPut key bs).mem = Machine.putBytes u.mem key bs := rfl

theorem bytesPut_teams (u : State) : (u.bytesPut key bs).teams = u.teams := rfl

/-- A write of an engine to a line that no peer refuses puts its bytes, and changes no fold. -/
theorem engineWrite_writes (accepted : s.refused c (lineOf key) = false) :
    (s.engineWrite c core hint key bs).mem = Machine.putBytes s.mem key bs ∧ (s.engineWrite c core hint key bs).teams = s.teams := by
  have moved := (gaveWay_wayForWrite (s := s) (c := c) (core := core) (hint := hint) (key := key) bs.length).moved
  rw [engineWrite_eq accepted, bytesPut_mem, bytesPut_teams, moved.machine]
  exact ⟨rfl, rfl⟩

end

/-- The state after an engine has written a command's bytes, and the line has the command's swizzle (R269). -/
def State.pieceWritten (s : State) (core : Nat) (c : Cmd) (key : Nat) (bs : List Byte) : State :=
  let t := s.engineWrite (c.team / 64) core c.hint key bs
  if keyIsHost key then t else t.modLine (lineOf key) fun x => { x with swz := BitVec.ofNat 3 c.swz }

section
variable {s : State} {core : Nat} {c : Cmd} {p : Piece} {rest : List Piece} {bs : List Byte} {key : Nat}

theorem pieceWritten_byteAt (accepted : s.refused (c.team / 64) (lineOf key) = false) (a : Nat) :
    (s.pieceWritten core c key bs).byteAt a = tget blankByte (Machine.putBytes s.mem key bs) a := by
  rw [← (engineWrite_writes (core := core) (hint := c.hint) accepted).1, State.pieceWritten]
  split <;> rfl

theorem pieceWritten_fold (accepted : s.refused (c.team / 64) (lineOf key) = false) (tk n : Nat) :
    (s.pieceWritten core c key bs).fold tk n = s.fold tk n := by
  rw [State.fold, State.fold, State.team, State.team, ← (engineWrite_writes (core := core) (hint := c.hint) (bs := bs) accepted).2,
    State.pieceWritten]
  split <;> rfl

theorem pieceWritten_swz (device : keyIsHost key = false) :
    ((s.pieceWritten core c key bs).line (lineOf key)).swz = BitVec.ofNat 3 c.swz := by
  simp only [State.pieceWritten, device, Bool.false_eq_true, if_false, State.line_modLine_same]

/-- Bytes that land in memory stand there, no other byte has changed, and a line of the device has the command's swizzle. -/
theorem pieceWritten_countPiece (accepted : s.refused (c.team / 64) (lineOf key) = false) :
    let t := (s.pieceWritten core c key bs).countPiece core c p rest
    (∀ i, i < bs.length → t.byteAt (key + i) = bs.getD i 0#8) ∧
      (∀ a, a < key ∨ key + bs.length ≤ a → t.byteAt a = s.byteAt a) ∧
      (keyIsHost key = false → (t.line (lineOf key)).swz = BitVec.ofNat 3 c.swz) := by
  have booked := booked_countPiece (s.pieceWritten core c key bs) core c p rest
  refine ⟨fun i hi => ?_, fun a outside => ?_, fun device => ?_⟩
  · rw [booked.sameMemory, pieceWritten_byteAt accepted, tget_putBytes_inside _ _ _ _ hi, List.getD_eq_getElem _ _ hi]
  · rw [booked.sameMemory, pieceWritten_byteAt accepted, tget_putBytes_outside _ _ _ _ outside]
    rfl
  · rw [booked.swz, pieceWritten_swz device]

theorem landPiece_scratch {team off : Nat} (dst : p.dst = .scr team off) :
    s.landPiece core c p rest bs = (s.putScratch team off bs).countPiece core c p rest := by
  simp only [State.landPiece, dst]

section
variable (dst : p.dst = .mem key)
include dst

section
variable (late : lineOf key ∈ c.late)
include late

theorem landPiece_unclaimed (waits : s.mayClaim core c.id (lineOf key) (unreadOf c.pieces) = false) :
    s.landPiece core c p rest bs = s := by
  simp [State.landPiece, dst, late, waits]

theorem landPiece_claims (free : s.mayClaim core c.id (lineOf key) (unreadOf c.pieces) = true) :
    s.landPiece core c p rest bs = (s.claim core c.id (lineOf key)).modCmd core c.id fun x =>
      { x with late := x.late.filter fun l => l != lineOf key } := by
  simp [State.landPiece, dst, late, free]

end

variable (claimed : lineOf key ∉ c.late)
include claimed

theorem landPiece_waits (waits : s.writeWaits core c.id (lineOf key) = true) : s.landPiece core c p rest bs = s := by
  simp [State.landPiece, dst, claimed, waits]

theorem landPiece_writes (free : s.writeWaits core c.id (lineOf key) = false) :
    s.landPiece core c p rest bs = (s.pieceWritten core c key bs).countPiece core c p rest := by
  simp only [State.landPiece, dst, List.contains_eq_mem, claimed, free, decide_false, Bool.false_eq_true, if_false]
  rfl

end

/-- Bytes that land in scratchpad stand there, and memory is as before. -/
theorem putScratch_countPiece {team off : Nat} : SameMemory s ((s.putScratch team off bs).countPiece core c p rest) ∧
    ∀ i, i < bs.length → tget blankByte (((s.putScratch team off bs).countPiece core c p rest).team team).scratch (off + i) =
      bs.getD i 0#8 := by
  have booked := booked_countPiece (s.putScratch team off bs) core c p rest
  refine ⟨booked.sameMemory, fun i hi => ?_⟩
  rw [booked.scratch, State.putScratch, State.team_modTeam_same, tget_putBytes_inside _ _ _ _ hi, List.getD_eq_getElem _ _ hi]

theorem putScratch_fold {team off : Nat} (tk n : Nat) : (s.putScratch team off bs).fold tk n = s.fold tk n := by
  rw [State.fold, State.putScratch, State.team_modTeam]
  split
  · next here => rw [here]; rfl
  · rfl

/-! ## SKIDDER_LANDING (R254) -/

/-- The command of a number in a core's Skidder. -/
def State.HasCmd (s : State) (core cmd : Nat) (c : Cmd) : Prop := (s.core core).cmds.find? (fun x => x.id == cmd) = some c

theorem State.HasCmd.id {cmd : Nat} (found : s.HasCmd core cmd c) : c.id = cmd := by simpa using List.find?_some found

theorem State.HasCmd.mem {cmd : Nat} (found : s.HasCmd core cmd c) : c ∈ (s.core core).cmds := List.mem_of_find?_eq_some found

theorem exec_landing_behind {cmd piece : Nat} {good : Bool} (found : s.HasCmd core cmd c) (behind : s.behindFold core c = true) :
    exec (.skidderLanding core cmd piece good) s = .next s := by
  rw [exec, execSkidderLanding, found]
  exact if_pos (.inr behind)

/-- A piece p of command c may be read or land: c is no multicast that is still to be registered, and no move of an earlier word
comes first. -/
structure Landing (s : State) (core cmd piece : Nat) (c : Cmd) (p : Piece) : Prop where
  found : s.HasCmd core cmd c
  registered : ¬(c.mcast.isSome = true ∧ (c.pieces.all fun q => q.dest.isNone) = true)
  front : s.behindFold core c = false
  piece : c.pieces[piece]? = some p

/-- No error answers where the link is good or no host's memory is named. -/
theorem answered {good : Bool} {x : Loc} (fine : good = true ∨ x.host = false) : ¬((!good) = true ∧ x.host = true) := by
  rintro ⟨bad, host⟩
  rcases fine with rfl | device
  · cases bad
  · rw [device] at host; cases host

section
variable {cmd piece : Nat} {good : Bool} (landing : Landing s core cmd piece c p)
include landing

theorem Landing.exec_unread (unread : p.got = none) : exec (.skidderLanding core cmd piece good) s = .next
    (if s.badBytes (c.team / 64) p.src p.n then s.failCmd core c 1#3
      else if !good ∧ p.src.host then s.failCmd core c 4#3 else s.readPiece core c p) := by
  obtain ⟨found, registered, front, here⟩ := landing
  have go : ¬((c.mcast.isSome = true ∧ (c.pieces.all fun q => q.dest.isNone) = true) ∨ s.behindFold core c = true) := by
    rw [front]
    simpa using registered
  rw [exec, execSkidderLanding, found]
  simp only [go, here, unread, if_false]
  split
  · rfl
  · split <;> rfl

theorem Landing.exec_read (read : p.got = some bs) : exec (.skidderLanding core cmd piece good) s = .next
    (if !good ∧ p.dst.host then s.failCmd core c 4#3 else s.landPiece core c p (c.pieces.eraseIdx piece) bs) := by
  obtain ⟨found, registered, front, here⟩ := landing
  have go : ¬((c.mcast.isSome = true ∧ (c.pieces.all fun q => q.dest.isNone) = true) ∨ s.behindFold core c = true) := by
    rw [front]
    simpa using registered
  rw [exec, execSkidderLanding, found]
  simp only [go, here, read, if_false]
  split <;> rfl

theorem Landing.mem_pieces : p ∈ c.pieces := List.mem_of_getElem? landing.piece

section
variable (unread : p.got = none)
include unread

theorem Landing.exec_bad (bad : s.badBytes (c.team / 64) p.src p.n = true) :
    exec (.skidderLanding core cmd piece good) s = .next (s.failCmd core c 1#3) := by
  rw [landing.exec_unread unread, if_pos bad]

variable (sound : s.badBytes (c.team / 64) p.src p.n = false)
include sound

theorem Landing.exec_source_error (host : p.src.host = true) :
    exec (.skidderLanding core cmd piece false) s = .next (s.failCmd core c 4#3) := by
  rw [landing.exec_unread unread, sound, if_neg Bool.false_ne_true, if_pos ⟨rfl, host⟩]

theorem Landing.exec_reads (fine : good = true ∨ p.src.host = false) :
    exec (.skidderLanding core cmd piece good) s = .next (s.readPiece core c p) := by
  rw [landing.exec_unread unread, sound, if_neg Bool.false_ne_true, if_neg (answered fine)]

end

section
variable (read : p.got = some bs)
include read

theorem Landing.exec_dest_error (host : p.dst.host = true) :
    exec (.skidderLanding core cmd piece false) s = .next (s.failCmd core c 4#3) := by
  rw [landing.exec_read read, if_pos ⟨rfl, host⟩]

theorem Landing.exec_lands (fine : good = true ∨ p.dst.host = false) : exec (.skidderLanding core cmd piece good) s =
    .next (s.landPiece core c p (c.pieces.eraseIdx piece) bs) := by
  rw [landing.exec_read read, if_neg (answered fine)]

end

end

end

/-! ## MULTICAST_REGISTER (R267) -/

section
variable (s : State)

theorem fold_foldl_modFold (tk n : Nat) (g : Nat → Fold → Fold) (is : List Nat) :
    (is.foldl (fun t i => t.modFold tk n (g i)) s).fold tk n = is.foldl (fun y i => g i y) (s.fold tk n) := by
  induction is generalizing s with
  | nil => rfl
  | cons i is ih => rw [List.foldl_cons, ih, State.fold_modFold_same, List.foldl_cons]

theorem miss_foldl_infl (tk n : Nat) (ds : List (Nat × Nat × Nat)) :
    ((ds.foldl (fun t d => t.modFold d.2.1 d.2.2 fun y => { y with infl := y.infl + 1#8 }) s).fold tk n).miss =
      (s.fold tk n).miss := by
  induction ds generalizing s with
  | nil => rfl
  | cons d ds ih =>
    rw [List.foldl_cons, ih, State.fold_modFold]
    split
    · next here => rw [here.1, here.2]
    · rfl

/-- A fold after position i has missed. -/
def Fold.missing (size : Nat) (i : Nat) (y : Fold) : Fold := { y.land size 0 with miss := y.miss ||| (1#16 <<< i) }

theorem miss_foldl_missing (size : Nat) (is : List Nat) (y : Fold) {j : Nat} (below : ∀ i ∈ is, i < 16) :
    (is.foldl (fun y i => Fold.missing size i y) y).miss.getLsbD j = true ↔ y.miss.getLsbD j = true ∨ j ∈ is := by
  induction is generalizing y with
  | nil => simp
  | cons i is ih =>
    have hi := below i (by simp)
    have bit : ((1#16 : BitVec 16) <<< i).getLsbD j = decide (j = i) := by
      rw [BitVec.getLsbD_shiftLeft, BitVec.getLsbD_one]
      rcases lt_trichotomy j i with h | h | h
      · simp [h, h.ne]
      · simp [h, hi]
      · have : j - i ≠ 0 := by omega
        simp [this, h.ne']
    rw [List.foldl_cons, ih _ fun i hi => below i (by simp [hi]), Fold.missing, BitVec.getLsbD_or, bit, Bool.or_eq_true,
      decide_eq_true_eq, List.mem_cons, or_assoc]

end

section
variable {s : State} {core cmd : Nat} {c : Cmd} {vs : List Nat}

/-- The cluster positions that a multicast names. -/
def mcastWanted (vs : List Nat) : List Nat := (List.range 16).filter fun i => (vs.getD 1 0).testBit i

/-- The destination at a position of command c's multicast. -/
def State.destAt (s : State) (core : Nat) (c : Cmd) (vs : List Nat) (i : Nat) : Option (Nat × Nat × Nat) :=
  s.mcastDest (c.team / 64) (dieOf core) vs i

/-- The destinations that are registered. -/
def State.mcastFound (s : State) (core : Nat) (c : Cmd) (vs : List Nat) : List (Nat × Nat × Nat) :=
  (mcastWanted vs).filterMap (s.destAt core c vs)

/-- The positions that miss. -/
def State.mcastMissed (s : State) (core : Nat) (c : Cmd) (vs : List Nat) : List Nat :=
  (mcastWanted vs).filter fun i => !(s.mcastFound core c vs).any fun d => d.1 == i

/-- The pieces for every destination. -/
def State.mcastPieces (s : State) (core : Nat) (c : Cmd) (vs : List Nat) : List Piece :=
  (s.mcastFound core c vs).flatMap fun d => c.pieces.map fun p =>
    { p with dest := some d
             dst := match p.dst with
               | .scr _ o => .scr d.2.1 (vs.getD 3 0 + o)
               | .mem k => .mem k }

/-- Folds count the commands of their destinations, and the issuing fold what misses. -/
def State.mcastCounted (s : State) (core : Nat) (c : Cmd) (vs : List Nat) : State :=
  (s.mcastMissed core c vs).foldl (fun t i => t.modFold c.team c.fold (Fold.missing (vs.getD 0 0) i))
    ((s.mcastFound core c vs).foldl (fun t d => t.modFold d.2.1 d.2.2 fun y => { y with infl := y.infl + 1#8 }) s)

/-- The state after a multicast has been registered. -/
def State.mcastRegistered (s : State) (core cmd : Nat) (c : Cmd) (vs : List Nat) : State :=
  ((s.mcastCounted core c vs).modCmd core cmd fun x => { x with pieces := s.mcastPieces core c vs }).endCmd core c
    (s.mcastPieces core c vs)

theorem exec_multicastRegister (found : s.HasCmd core cmd c) (names : c.mcast = some vs) (open' : ∀ p ∈ c.pieces, p.dest = none) :
    exec (.multicastRegister core cmd) s = .next (s.mcastRegistered core cmd c vs) := by
  have fresh : ¬(c.pieces.any fun p => p.dest.isSome) = true := by
    rw [List.any_eq_true]
    rintro ⟨p, hp, some⟩
    rw [open' p hp] at some
    cases some
  rw [exec, execMulticastRegister, found]
  simp only [names]
  exact if_neg fresh

theorem destAt_position {i : Nat} {d : Nat × Nat × Nat} (dest : s.destAt core c vs i = some d) : d.1 = i := by
  unfold State.destAt State.mcastDest at dest
  split at dest
  · cases dest
  · dsimp only at dest
    split at dest
    · cases dest; rfl
    · cases dest

theorem mem_mcastWanted {i : Nat} : i ∈ mcastWanted vs ↔ i < 16 ∧ (vs.getD 1 0).testBit i = true := by
  simp [mcastWanted]

/-- A position that is named misses where no core with an open fold stands there. -/
theorem mem_mcastMissed {i : Nat} : i ∈ s.mcastMissed core c vs ↔ i ∈ mcastWanted vs ∧ s.destAt core c vs i = none := by
  rw [State.mcastMissed, List.mem_filter]
  refine and_congr_right fun wanted => ?_
  rw [Bool.not_eq_true', List.any_eq_false]
  constructor
  · intro missed
    by_contra some
    obtain ⟨d, dest⟩ := Option.ne_none_iff_exists'.1 some
    exact missed d (List.mem_filterMap.2 ⟨i, wanted, dest⟩) (by simp [destAt_position dest])
  · intro none d hd
    obtain ⟨j, -, dest⟩ := List.mem_filterMap.1 hd
    rw [beq_iff_eq, destAt_position dest]
    rintro rfl
    rw [none] at dest
    cases dest

theorem booked_mcastCounted : Booked s (s.mcastCounted core c vs) :=
  .trans (.foldl _ (fun t (d : Nat × Nat × Nat) => booked_modFold t d.2.1 d.2.2 _) _ s)
    (.foldl _ (fun t i => booked_modFold t c.team c.fold (Fold.missing (vs.getD 0 0) i)) _ _)

theorem booked_mcastRegistered : Booked s (s.mcastRegistered core cmd c vs) :=
  (booked_mcastCounted.trans (booked_modCmd _ core cmd _)).trans (booked_endCmd _ core c _)

theorem miss_endCmd (u : State) (rest : List Piece) (tk n : Nat) : ((u.endCmd core c rest).fold tk n).miss = (u.fold tk n).miss := by
  unfold State.endCmd
  split
  · rw [fold_dropCmd]
    split
    · next here => rw [here.1, here.2]
    · rfl
  · rfl

theorem miss_mcastRegistered {i : Nat} (hi : i < 16) :
    ((s.mcastRegistered core cmd c vs).fold c.team c.fold).miss.getLsbD i = true ↔
      (s.fold c.team c.fold).miss.getLsbD i = true ∨ (vs.getD 1 0).testBit i = true ∧ s.destAt core c vs i = none := by
  rw [State.mcastRegistered, miss_endCmd, fold_modCmd, State.mcastCounted, fold_foldl_modFold,
    miss_foldl_missing _ _ _ fun j hj => (mem_mcastWanted.1 (mem_mcastMissed.1 hj).1).1, miss_foldl_infl, mem_mcastMissed,
    mem_mcastWanted]
  simp [hi]

theorem mcastPieces_dest {q : Piece} (hq : q ∈ s.mcastPieces core c vs) :
    ∃ d, q.dest = some d ∧ d ∈ s.mcastFound core c vs := by
  obtain ⟨d, hd, hq⟩ := List.mem_flatMap.1 hq
  obtain ⟨p, -, rfl⟩ := List.mem_map.1 hq
  exact ⟨d, rfl, hd⟩

/-- Every command of that number has a destination in each of its pieces. -/
theorem mcastRegistered_cmds (same : c.id = cmd) : ∀ x ∈ ((s.mcastRegistered core cmd c vs).core core).cmds, x.id = cmd →
    ∀ q ∈ x.pieces, q ∈ s.mcastPieces core c vs := by
  intro x hx id q hq
  rw [State.mcastRegistered, State.endCmd] at hx
  split at hx
  · exact absurd (id.trans same.symm) (cmds_dropCmd _ core c x hx)
  · rw [cmds_modCmd] at hx
    obtain ⟨y, -, rfl⟩ := List.mem_map.1 hx
    by_cases here : y.id = cmd
    · rw [if_pos here] at hq
      exact hq
    · rw [if_neg here] at id
      exact absurd id here

end

end Sys2Proof.Machine
end


section
/-! PROOFS. The statement about copies (R252 to R255, R263 to R267). -/

namespace Sys2Proof.Claims

open Sys2Proof.Machine

/-- Settles O39: each copy word is the common part of them with operands of its own (`CopyWord`); a probe's reads move copies alone
(`GaveWay`), and its commands enter one after another (`addCommands_entered`); a landing books its piece (`Booked`). -/
theorem copies : Obligations.Copies := by
  refine ⟨fun s k f => ?words, fun s => ⟨fun core slot c small word status unfrozen reads => ?probe,
    fun core cmd piece good c p found plain nodest here => ⟨exec_landing_behind found, fun front => ?landing⟩,
    fun core cmd piece good c vs p d found names here dest => ⟨exec_landing_behind found, fun front => ?multicast⟩,
    fun core cmd c vs found names open' => ?register⟩⟩
  case words =>
    refine ⟨fun some aligned issues sound vals room => ?cpy, fun acts src dst size small pos issues sound vals room => ?cpyb,
      fun acts kept => ⟨fun issues sound vals room => ?gath, fun issues sound vals room => ?scat⟩,
      fun acts one two size least most off issues sound vals room => ?mcast, fun none issues => ?still,
      fun i word idle issues => ?idle, fun acts issues sound user bad => ?breach, fun i word issues user => ?errors⟩
    case cpy =>
      obtain ⟨align, kept, word⟩ := cpy_word issues
      rw [kept fun l lt on => aligned l ⟨lt, on⟩, bne_iff_ne.2 some] at word
      exact word.starts sound vals room
    case cpyb =>
      have word := cpyb_word issues
      rw [acts, cpybBreach_eq_none src dst size small, if_neg (c := cpybSize s k f = 0) pos] at word
      exact word.starts sound vals room
    case gath =>
      have word := rows_word (.inl rfl) issues
      rw [acts, rowsBreach_eq_none kept] at word
      exact word.starts sound vals room
    case scat =>
      have word := rows_word (.inr rfl) issues
      rw [acts, rowsBreach_eq_none kept] at word
      exact word.starts sound vals room
    case mcast =>
      have word := mcast_word issues fun _ => ⟨one, two⟩
      rw [acts, mcastBreach_eq_none size least most off] at word
      exact word.starts sound vals room
    case still =>
      obtain ⟨align, -, word⟩ := cpy_word issues
      rw [none] at word
      exact word.idle
    case idle =>
      obtain ⟨align, vals, word⟩ := elected_word issues
        (word.imp_right <| .imp_right <| .imp_right fun mcast => ⟨mcast, fun acts => by rw [idle] at acts; cases acts⟩)
      rw [idle] at word
      exact word.idle
    case breach =>
      have word := cpyb_word issues
      rw [acts, cpybBreach_eq_some bad] at word
      exact word.breach sound user
    case errors =>
      intro err failed
      rcases word with ⟨rfl, some⟩ | ⟨word, acts⟩
      · obtain ⟨align, -, word⟩ := cpy_word issues
        rw [bne_iff_ne.2 some] at word
        exact word.failed failed user
      · obtain ⟨align, vals, word⟩ := elected_word issues
          (word.imp_right <| .imp_right <| .imp_right fun mcast => ⟨mcast.1, fun _ => mcast.2⟩)
        rw [acts] at word
        exact word.failed failed user
  case probe =>
    have probing : Probing s core slot c := ⟨small, word, status, unfrozen, reads⟩
    refine ⟨fun x trap user => probing.trap trap user, fun all named => ?_⟩
    have moved : CopiesMoved (s.atSlot core slot) (s.indicesRead core slot c) := gaveWay_indicesRead.moved
    obtain ⟨w, new, run, entered, pieces, fields⟩ := probing.enters all named
    have cur : w.cur = warpKey core slot := entered.cur.trans moved.cur
    have warp : (w.modMe fun w => w.leaveEngine c.ctl.sw).warp (warpKey core slot) = w.me.leaveEngine c.ctl.sw := by
      rw [← cur]
      exact State.me_modMe ..
    have pc : w.me.pc = (s.atSlot core slot).me.pc := by rw [entered.me, moved.me]
    refine ⟨_, run, fun a => (entered.sameMemory a).trans (moved.sameMemory a), ?_, ?_, ?_, ?_, new, ?_, pieces, fun x hx => ?_⟩
    · rw [warp]
      rfl
    · rw [warp]
      exact congrArg (· + 8#64) pc
    · rw [warp]
      rfl
    · have infl := entered.infl
      rw [moved.fold, ← List.length_map, pieces, List.length_map] at infl
      exact infl
    · exact entered.cmds.trans (congrArg (· ++ new) (moved.cmds core))
    · obtain ⟨word, slot, team, fold, hint, swz, mcast⟩ := fields x hx
      exact ⟨word, slot, team, fold, hint, swz, mcast, entered.claimed x hx⟩
  case landing =>
    obtain rfl := State.HasCmd.id found
    have landing : Landing s core c.id piece c p := ⟨found, by simp [plain], front, here⟩
    have fails (code : BitVec 3) := failCmd_plain s core c code nodest
    refine ⟨fun unread bad => ?bad, fun unread sound bad host => ?source,
      fun unread sound fine => ⟨fun waits => ?waits, fun free => ?reads⟩, fun bs read =>
      ⟨fun bad host => ?dest, fun team off dst => ?scratch, fun key dst fine => ?memory⟩⟩
    case bad =>
      exact ⟨_, landing.exec_bad unread bad, (booked_failCmd ..).sameMemory, cmds_failCmd s core c _, fails 1#3⟩
    case source =>
      obtain rfl := bad
      exact ⟨_, landing.exec_source_error unread sound host, (booked_failCmd ..).sameMemory, cmds_failCmd s core c _, fails 4#3⟩
    case waits => rw [landing.exec_reads unread sound fine, readPiece_waits waits]
    case reads =>
      exact ⟨_, landing.exec_reads unread sound fine, readPiece_sameMemory, _, readPiece_cmd free (State.HasCmd.mem found), _, rfl,
        by rw [List.getElem?_map, here]; rfl, Piece.taking_self unread _⟩
    case dest =>
      obtain rfl := bad
      exact ⟨_, landing.exec_dest_error read host, (booked_failCmd ..).sameMemory, cmds_failCmd s core c _, fails 4#3⟩
    case scratch =>
      have lands := landing.exec_lands read (good := good) (.inr (by rw [dst]; rfl))
      rw [landPiece_scratch dst] at lands
      refine ⟨_, lands, putScratch_countPiece.1, ?_, putScratch_countPiece.2⟩
      exact (countPiece_counts _ _ _ _ (nodest p landing.mem_pieces)).trans (by rw [putScratch_fold])
    case memory =>
      have lands := landing.exec_lands read fine
      refine ⟨fun late waits => ?_, fun late free => ?_, fun claimed waits => ?_, fun claimed free accepted => ?_⟩
      · rw [lands, landPiece_unclaimed dst late waits]
      · rw [landPiece_claims dst late free] at lands
        exact ⟨_, lands, claim_sameMemory s core c.id _, ⟨s.nextId, mem_claims_claim s core c.id _⟩, claim_late s core c.id _⟩
      · rw [lands, landPiece_waits dst claimed waits]
      · rw [landPiece_writes dst claimed free] at lands
        obtain ⟨inside, outside, swz⟩ := pieceWritten_countPiece accepted
        refine ⟨_, lands, ?_, inside, outside, swz, countPiece_frees _ core c p _ ?_⟩
        · exact (countPiece_counts _ _ _ _ (nodest p landing.mem_pieces)).trans (by rw [pieceWritten_fold accepted])
        · rw [Piece.dstLine, dst]
          rfl
  case multicast =>
    obtain rfl := State.HasCmd.id found
    have landing : Landing s core c.id piece c p := by
      refine ⟨found, fun open' => ?_, front, here⟩
      have := List.all_eq_true.1 open'.2 p (List.mem_of_getElem? here)
      rw [dest] at this
      cases this
    refine ⟨fun unread bad => ?_, fun unread sound fine free => ?_, fun bs team off read dst => ?_⟩
    · exact ⟨_, landing.exec_bad unread bad, (booked_failCmd ..).sameMemory, cmds_failCmd s core c _,
        failCmd_multicast _ _ _ _ (by decide)⟩
    · refine ⟨_, landing.exec_reads unread sound fine, readPiece_sameMemory, _, readPiece_cmd free (State.HasCmd.mem found), rfl,
        ⟨_, by rw [List.getElem?_map, here]; rfl, Piece.taking_self unread _⟩, fun q hq src n => ?_⟩
      obtain ⟨q, -, rfl⟩ := List.mem_map.1 hq
      obtain ⟨src', n'⟩ := q.taking_frame p (s.bytesOf p.src p.n)
      exact Piece.taking_got (src'.symm.trans src) (n'.symm.trans n) _
    · have lands := landing.exec_lands read (good := good) (.inr (by rw [dst]; rfl))
      rw [landPiece_scratch dst] at lands
      refine ⟨_, lands, putScratch_countPiece.1, putScratch_countPiece.2, fun tk n => ?_⟩
      have counts := countPiece_multicast (s.putScratch team off bs) tk n core c (c.pieces.eraseIdx piece) dest names
      rw [putScratch_fold] at counts
      exact counts
  case register =>
    refine ⟨_, exec_multicastRegister found names open', booked_mcastRegistered.sameMemory, fun i hi => miss_mcastRegistered hi,
      fun x hx id q hq => ?_⟩
    obtain ⟨d, dest, hd⟩ := mcastPieces_dest (mcastRegistered_cmds (State.HasCmd.id found) x hx id q hq)
    refine ⟨d, dest, ?_⟩
    rwa [State.mcastFound, mcastWanted, List.filterMap_filter] at hd

end Sys2Proof.Claims
end
